-- ==== Sys2Proof/Word.lean ====
section
/-!
DEFINITION. The word types of the Kamrek: bytes, 32-bit lane words, 64-bit scalars, 72-bit addresses (R93),
lane masks and 32-lane vectors. Only their plainest arithmetic stands here.
-/
namespace Sys2Proof

/-- A byte of memory (R4). -/
abbrev Byte := BitVec 8
/-- A 32-bit lane word (R93). -/
abbrev Word := BitVec 32
/-- A 64-bit scalar (R93). -/
abbrev DWord := BitVec 64
/-- A 72-bit address (R93). -/
abbrev Addr := BitVec 72
/-- One bit for each of the 32 lanes (R12). -/
abbrev Mask := BitVec 32
/-- One vector register: 32 lanes of 32 bits (R93). -/
abbrev Lanes := Vector Word 32

/-- The vector whose lane `i` is `f i`. -/
def Lanes.build (f : Fin 32 → Word) : Lanes := Vector.ofFn f

/-- Lane `i` of a vector. -/
def Lanes.at (v : Lanes) (i : Fin 32) : Word := v[i.val]'i.isLt

/-- Every lane zero. -/
def Lanes.zero : Lanes := Vector.replicate 32 0#32

@[simp] theorem Lanes.at_build (f : Fin 32 → Word) (i : Fin 32) : (Lanes.build f).at i = f i := by
  simp [Lanes.build, Lanes.at]

@[simp] theorem Lanes.at_zero (i : Fin 32) : Lanes.zero.at i = 0#32 := by
  simp [Lanes.zero, Lanes.at]

theorem Lanes.ext {a b : Lanes} (h : ∀ i, a.at i = b.at i) : a = b := by
  apply Vector.ext
  intro i hi
  simpa [Lanes.at] using h ⟨i, hi⟩

/-- Lane `i` of a mask. -/
def Mask.on (m : Mask) (i : Fin 32) : Bool := m.getLsbD i.val

/-- The lanes, in ascending order. -/
def lanes : List (Fin 32) := List.finRange 32

end Sys2Proof
end

