-- ==== Sys2Proof/Syntax.lean ====
section
/-!
DEFINITION. The instruction syntax: one constructor for every row of the opcode table, its operands the fields of the
row from the lowest bit up (R103, R106), the halfword (compact) forms of R101 and R102, and the table's events, whose
operands say to which agent they happen and what the outside world supplies.
-/
namespace Sys2Proof

/-- Where an uncorrectable soft error arises (R302, R303). -/
inductive SoftErrorPlace where
  /-- a 64-byte line of DRAM or of a cache of it, by system-physical line address -/
  | line (address : Nat)
  /-- a byte of a fold's local scratch -/
  | scratch (fold : Nat) (address : Nat)
  /-- a byte of a bank, by the bank's number and the offset in it: it goes where the bank goes -/
  | bank (number : Nat) (offset : Nat)
  /-- an entry of a fold's accumulators -/
  | accumulator (fold : Nat) (tile : Nat) (row : Nat) (column : Nat)
  deriving DecidableEq, Repr

/-- Every instruction and event of the opcode table. -/
inductive Instr where
  /-- `vadd`. Adds two vector registers lane by lane, modulo 2^32. (R119) -/
  | vadd (d : BitVec 6) (a : BitVec 6) (b : BitVec 6) (g : BitVec 3)
  /-- `vsub`. Subtracts one vector register from another lane by lane, modulo 2^32. (R119) -/
  | vsub (d : BitVec 6) (a : BitVec 6) (b : BitVec 6) (g : BitVec 3)
  /-- `vmul`. Writes the low 32 bits of the lane product. (R119) -/
  | vmul (d : BitVec 6) (a : BitVec 6) (b : BitVec 6) (g : BitVec 3)
  /-- `vmulh.s`. Writes the high 32 bits of the signed 64-bit lane product. (R119) -/
  | vmulhS (d : BitVec 6) (a : BitVec 6) (b : BitVec 6) (g : BitVec 3)
  /-- `vmulh.z`. Writes the high 32 bits of the unsigned 64-bit lane product. (R119) -/
  | vmulhZ (d : BitVec 6) (a : BitVec 6) (b : BitVec 6) (g : BitVec 3)
  /-- `vmin.s`. Writes the signed minimum of each lane. (R119) -/
  | vminS (d : BitVec 6) (a : BitVec 6) (b : BitVec 6) (g : BitVec 3)
  /-- `vmax.s`. Writes the signed maximum of each lane. (R119) -/
  | vmaxS (d : BitVec 6) (a : BitVec 6) (b : BitVec 6) (g : BitVec 3)
  /-- `vmin.z`. Writes the unsigned minimum of each lane. (R119) -/
  | vminZ (d : BitVec 6) (a : BitVec 6) (b : BitVec 6) (g : BitVec 3)
  /-- `vmax.z`. Writes the unsigned maximum of each lane. (R119) -/
  | vmaxZ (d : BitVec 6) (a : BitVec 6) (b : BitVec 6) (g : BitVec 3)
  /-- `vand`. Writes the bitwise AND of each lane. (R119) -/
  | vand (d : BitVec 6) (a : BitVec 6) (b : BitVec 6) (g : BitVec 3)
  /-- `vor`. Writes the bitwise OR of each lane. (R119) -/
  | vor (d : BitVec 6) (a : BitVec 6) (b : BitVec 6) (g : BitVec 3)
  /-- `vxor`. Writes the bitwise XOR of each lane. (R119) -/
  | vxor (d : BitVec 6) (a : BitVec 6) (b : BitVec 6) (g : BitVec 3)
  /-- `vshl`. Shifts each lane left, giving 0 for a shift of 32 or more. (R119) -/
  | vshl (d : BitVec 6) (a : BitVec 6) (b : BitVec 6) (g : BitVec 3)
  /-- `vshr.z`. Shifts each lane right, shifting in zeros. (R119) -/
  | vshrZ (d : BitVec 6) (a : BitVec 6) (b : BitVec 6) (g : BitVec 3)
  /-- `vshr.s`. Shifts each lane right arithmetically. (R119) -/
  | vshrS (d : BitVec 6) (a : BitVec 6) (b : BitVec 6) (g : BitVec 3)
  /-- `vandn`. Writes x AND NOT y in each lane. (R119) -/
  | vandn (d : BitVec 6) (a : BitVec 6) (b : BitVec 6) (g : BitVec 3)
  /-- `vaddi`. Adds a signed nine-bit immediate to each lane. (R119) -/
  | vaddi (d : BitVec 6) (a : BitVec 6) (i : BitVec 9)
  /-- `vsubi`. Subtracts a signed immediate from each lane. (R119) -/
  | vsubi (d : BitVec 6) (a : BitVec 6) (i : BitVec 9)
  /-- `vmuli`. Multiplies each lane by a signed immediate, low 32 bits. (R119) -/
  | vmuli (d : BitVec 6) (a : BitVec 6) (i : BitVec 9)
  /-- `vmulh.si`. Writes the high half of the signed product with an immediate. (R119) -/
  | vmulhSi (d : BitVec 6) (a : BitVec 6) (i : BitVec 9)
  /-- `vmulh.zi`. Writes the high half of the unsigned product with an immediate. (R119) -/
  | vmulhZi (d : BitVec 6) (a : BitVec 6) (i : BitVec 9)
  /-- `vmin.si`. Writes the signed minimum of each lane and an immediate. (R119) -/
  | vminSi (d : BitVec 6) (a : BitVec 6) (i : BitVec 9)
  /-- `vmax.si`. Writes the signed maximum of each lane and an immediate. (R119) -/
  | vmaxSi (d : BitVec 6) (a : BitVec 6) (i : BitVec 9)
  /-- `vmin.zi`. Writes the unsigned minimum of each lane and an immediate. (R119) -/
  | vminZi (d : BitVec 6) (a : BitVec 6) (i : BitVec 9)
  /-- `vmax.zi`. Writes the unsigned maximum of each lane and an immediate. (R119) -/
  | vmaxZi (d : BitVec 6) (a : BitVec 6) (i : BitVec 9)
  /-- `vandi`. ANDs each lane with an immediate. (R119) -/
  | vandi (d : BitVec 6) (a : BitVec 6) (i : BitVec 9)
  /-- `vori`. ORs each lane with an immediate. (R119) -/
  | vori (d : BitVec 6) (a : BitVec 6) (i : BitVec 9)
  /-- `vxori`. XORs each lane with an immediate. (R119) -/
  | vxori (d : BitVec 6) (a : BitVec 6) (i : BitVec 9)
  /-- `vshli`. Shifts each lane left by an immediate. (R119) -/
  | vshli (d : BitVec 6) (a : BitVec 6) (i : BitVec 9)
  /-- `vshr.zi`. Shifts each lane right by an immediate, shifting in zeros. (R119) -/
  | vshrZi (d : BitVec 6) (a : BitVec 6) (i : BitVec 9)
  /-- `vshr.si`. Shifts each lane right arithmetically by an immediate. (R119) -/
  | vshrSi (d : BitVec 6) (a : BitVec 6) (i : BitVec 9)
  /-- `vandni`. Writes x AND NOT immediate in each lane. (R119) -/
  | vandni (d : BitVec 6) (a : BitVec 6) (i : BitVec 9)
  /-- `vfadd`. Adds FP32 lanes, rounding by RN and setting flags. (R120) -/
  | vfadd (d : BitVec 6) (a : BitVec 6) (b : BitVec 6) (g : BitVec 3)
  /-- `vfsub`. Subtracts FP32 lanes by RN. (R120) -/
  | vfsub (d : BitVec 6) (a : BitVec 6) (b : BitVec 6) (g : BitVec 3)
  /-- `vfmul`. Multiplies FP32 lanes by RN. (R120) -/
  | vfmul (d : BitVec 6) (a : BitVec 6) (b : BitVec 6) (g : BitVec 3)
  /-- `vfmac`. Forms d + a×b with one rounding. (R120) -/
  | vfmac (d : BitVec 6) (a : BitVec 6) (b : BitVec 6) (g : BitVec 3)
  /-- `vfnmac`. Forms d − a×b with one rounding. (R120) -/
  | vfnmac (d : BitVec 6) (a : BitVec 6) (b : BitVec 6) (g : BitVec 3)
  /-- `vfmin`. Writes the smaller FP32 operand of each lane. (R120) -/
  | vfmin (d : BitVec 6) (a : BitVec 6) (b : BitVec 6) (g : BitVec 3)
  /-- `vfmax`. Writes the larger FP32 operand of each lane. (R120) -/
  | vfmax (d : BitVec 6) (a : BitVec 6) (b : BitVec 6) (g : BitVec 3)
  /-- `vfabs`. Clears the sign bit of each lane. (R120) -/
  | vfabs (d : BitVec 6) (a : BitVec 6) (g : BitVec 3)
  /-- `vfneg`. Inverts the sign bit of each lane. (R120) -/
  | vfneg (d : BitVec 6) (a : BitVec 6) (g : BitVec 3)
  /-- `vfcopys`. Gives each lane of a the sign of b. (R120) -/
  | vfcopys (d : BitVec 6) (a : BitVec 6) (b : BitVec 6) (g : BitVec 3)
  /-- `vfrcp`. Writes an approximation of 1/a within 1 ulp. (R121) -/
  | vfrcp (d : BitVec 6) (a : BitVec 6) (g : BitVec 3)
  /-- `vfrsq`. Writes an approximation of 1/sqrt(a). (R121) -/
  | vfrsq (d : BitVec 6) (a : BitVec 6) (g : BitVec 3)
  /-- `vfsqrt`. Writes the correctly rounded square root. (R121) -/
  | vfsqrt (d : BitVec 6) (a : BitVec 6) (g : BitVec 3)
  /-- `vfexp2`. Writes an approximation of 2^a. (R121) -/
  | vfexp2 (d : BitVec 6) (a : BitVec 6) (g : BitVec 3)
  /-- `vflog2`. Writes an approximation of log2(a). (R121) -/
  | vflog2 (d : BitVec 6) (a : BitVec 6) (g : BitVec 3)
  /-- `vfround`. Rounds each lane to an integral FP32 value in the mode named in b. (R120) -/
  | vfround (d : BitVec 6) (a : BitVec 6) (b : BitVec 6) (g : BitVec 3)
  /-- `vcmp.eq`. Sets predicate bits where the words are equal. (R122) -/
  | vcmpEq (p : BitVec 3) (a : BitVec 6) (b : BitVec 6) (g : BitVec 3)
  /-- `vcmp.ne`. Sets predicate bits where the words differ. (R122) -/
  | vcmpNe (p : BitVec 3) (a : BitVec 6) (b : BitVec 6) (g : BitVec 3)
  /-- `vcmp.lt.s`. Signed less-than compare into a predicate. (R122) -/
  | vcmpLtS (p : BitVec 3) (a : BitVec 6) (b : BitVec 6) (g : BitVec 3)
  /-- `vcmp.le.s`. Signed less-or-equal compare into a predicate. (R122) -/
  | vcmpLeS (p : BitVec 3) (a : BitVec 6) (b : BitVec 6) (g : BitVec 3)
  /-- `vcmp.gt.s`. Signed greater-than compare into a predicate. (R122) -/
  | vcmpGtS (p : BitVec 3) (a : BitVec 6) (b : BitVec 6) (g : BitVec 3)
  /-- `vcmp.ge.s`. Signed greater-or-equal compare into a predicate. (R122) -/
  | vcmpGeS (p : BitVec 3) (a : BitVec 6) (b : BitVec 6) (g : BitVec 3)
  /-- `vcmp.lt.z`. Unsigned less-than compare into a predicate. (R122) -/
  | vcmpLtZ (p : BitVec 3) (a : BitVec 6) (b : BitVec 6) (g : BitVec 3)
  /-- `vcmp.le.z`. Unsigned less-or-equal compare into a predicate. (R122) -/
  | vcmpLeZ (p : BitVec 3) (a : BitVec 6) (b : BitVec 6) (g : BitVec 3)
  /-- `vcmp.feq`. Float equal compare into a predicate. (R122) -/
  | vcmpFeq (p : BitVec 3) (a : BitVec 6) (b : BitVec 6) (g : BitVec 3)
  /-- `vcmp.fne`. Float not-equal-or-unordered compare into a predicate. (R122) -/
  | vcmpFne (p : BitVec 3) (a : BitVec 6) (b : BitVec 6) (g : BitVec 3)
  /-- `vcmp.flt`. Ordered float less-than compare into a predicate. (R122) -/
  | vcmpFlt (p : BitVec 3) (a : BitVec 6) (b : BitVec 6) (g : BitVec 3)
  /-- `vcmp.fle`. Ordered float less-or-equal compare into a predicate. (R122) -/
  | vcmpFle (p : BitVec 3) (a : BitVec 6) (b : BitVec 6) (g : BitVec 3)
  /-- `vcmp.fgt`. Ordered float greater-than compare into a predicate. (R122) -/
  | vcmpFgt (p : BitVec 3) (a : BitVec 6) (b : BitVec 6) (g : BitVec 3)
  /-- `vcmp.fge`. Ordered float greater-or-equal compare into a predicate. (R122) -/
  | vcmpFge (p : BitVec 3) (a : BitVec 6) (b : BitVec 6) (g : BitVec 3)
  /-- `vcmp.funo`. Sets predicate bits where either operand is NaN. (R122) -/
  | vcmpFuno (p : BitVec 3) (a : BitVec 6) (b : BitVec 6) (g : BitVec 3)
  /-- `vcmp.ford`. Sets predicate bits where neither operand is NaN. (R122) -/
  | vcmpFord (p : BitVec 3) (a : BitVec 6) (b : BitVec 6) (g : BitVec 3)
  /-- `cvt.f32.s32`. Converts signed words to FP32. (R123) -/
  | cvtF32S32 (d : BitVec 6) (a : BitVec 6) (g : BitVec 3)
  /-- `cvt.f32.z32`. Converts unsigned words to FP32. (R123) -/
  | cvtF32Z32 (d : BitVec 6) (a : BitVec 6) (g : BitVec 3)
  /-- `cvt.s32.f32`. Converts FP32 to INT32. (R123) -/
  | cvtS32F32 (d : BitVec 6) (a : BitVec 6) (g : BitVec 3)
  /-- `cvt.z32.f32`. Converts FP32 to UINT32. (R123) -/
  | cvtZ32F32 (d : BitVec 6) (a : BitVec 6) (g : BitVec 3)
  /-- `cvt.f16x2.f32`. Packs two FP32 sources into two FP16 halves. (R123) -/
  | cvtF16x2F32 (d : BitVec 6) (a : BitVec 6) (b : BitVec 6) (g : BitVec 3)
  /-- `cvt.f32.f16lo`. Widens the low FP16 half to FP32. (R123) -/
  | cvtF32F16lo (d : BitVec 6) (a : BitVec 6) (g : BitVec 3)
  /-- `cvt.f32.f16hi`. Widens the high FP16 half to FP32. (R123) -/
  | cvtF32F16hi (d : BitVec 6) (a : BitVec 6) (g : BitVec 3)
  /-- `cvt.bf16x2.f32`. Packs two FP32 sources into two BF16 halves. (R123) -/
  | cvtBf16x2F32 (d : BitVec 6) (a : BitVec 6) (b : BitVec 6) (g : BitVec 3)
  /-- `cvt.f32.bf16lo`. Widens the low BF16 half to FP32. (R123) -/
  | cvtF32Bf16lo (d : BitVec 6) (a : BitVec 6) (g : BitVec 3)
  /-- `cvt.f32.bf16hi`. Widens the high BF16 half to FP32. (R123) -/
  | cvtF32Bf16hi (d : BitVec 6) (a : BitVec 6) (g : BitVec 3)
  /-- `cvt.e4m3.f32`. Encodes FP32 into a selected E4M3 byte. (R123) -/
  | cvtE4m3F32 (d : BitVec 6) (a : BitVec 6) (n : BitVec 6) (g : BitVec 3)
  /-- `cvt.e5m2.f32`. Encodes FP32 into a selected E5M2 byte. (R123) -/
  | cvtE5m2F32 (d : BitVec 6) (a : BitVec 6) (n : BitVec 6) (g : BitVec 3)
  /-- `cvt.lns6.f32`. Encodes FP32 into a selected LNS6 byte. (R123) -/
  | cvtLns6F32 (d : BitVec 6) (a : BitVec 6) (n : BitVec 6) (g : BitVec 3)
  /-- `cvt.f32.e4m3`. Decodes a selected E4M3 byte to FP32. (R123) -/
  | cvtF32E4m3 (d : BitVec 6) (a : BitVec 6) (n : BitVec 6) (g : BitVec 3)
  /-- `cvt.f32.e5m2`. Decodes a selected E5M2 byte to FP32. (R123) -/
  | cvtF32E5m2 (d : BitVec 6) (a : BitVec 6) (n : BitVec 6) (g : BitVec 3)
  /-- `cvt.f32.lns6`. Decodes a selected LNS6 byte to FP32. (R123) -/
  | cvtF32Lns6 (d : BitVec 6) (a : BitVec 6) (n : BitVec 6) (g : BitVec 3)
  /-- `vsel`. Selects a or b per lane by predicate pk. (R124) -/
  | vsel (d : BitVec 6) (a : BitVec 6) (b : BitVec 6) (k : BitVec 3)
  /-- `vperm`. Permutes lanes by indices in b. (R124) -/
  | vperm (d : BitVec 6) (a : BitVec 6) (b : BitVec 6) (g : BitVec 3)
  /-- `vshfl.up`. Shuffles lanes up by n. (R124) -/
  | vshflUp (d : BitVec 6) (a : BitVec 6) (n : BitVec 6) (g : BitVec 3)
  /-- `vshfl.dn`. Shuffles lanes down by n. (R124) -/
  | vshflDn (d : BitVec 6) (a : BitVec 6) (n : BitVec 6) (g : BitVec 3)
  /-- `vshfl.x`. Shuffles lanes by XOR with n. (R124) -/
  | vshflX (d : BitVec 6) (a : BitVec 6) (n : BitVec 6) (g : BitVec 3)
  /-- `vpopc`. Counts ones in each lane. (R124) -/
  | vpopc (d : BitVec 6) (a : BitVec 6) (g : BitVec 3)
  /-- `vclz`. Counts leading zeros in each lane. (R124) -/
  | vclz (d : BitVec 6) (a : BitVec 6) (g : BitVec 3)
  /-- `vbrev`. Reverses the bits of each lane. (R124) -/
  | vbrev (d : BitVec 6) (a : BitVec 6) (g : BitVec 3)
  /-- `vlaneid`. Writes the physical lane number into each lane. (R124) -/
  | vlaneid (d : BitVec 6) (g : BitVec 3)
  /-- `vbcast`. Broadcasts lane n of a. (R124) -/
  | vbcast (d : BitVec 6) (a : BitVec 6) (n : BitVec 6) (g : BitVec 3)
  /-- `vmovs`. Writes the low 32 bits of a scalar into active lanes. (R124) -/
  | vmovs (d : BitVec 6) (a : BitVec 5) (g : BitVec 3)
  /-- `ballot`. Writes a whole predicate from non-zero active lanes. (R124) -/
  | ballot (p : BitVec 3) (a : BitVec 6) (g : BitVec 3)
  /-- `pmov`. Writes a predicate from the low 32 bits of a scalar. (R124) -/
  | pmovFromScalar (d : BitVec 3) (a : BitVec 5)
  /-- `pmov`. Writes a predicate zero-extended into a scalar. (R124) -/
  | pmovToScalar (d : BitVec 5) (a : BitVec 3)
  /-- `pand`. ANDs two predicates. (R124) -/
  | pand (d : BitVec 3) (a : BitVec 3) (b : BitVec 3)
  /-- `por`. ORs two predicates. (R124) -/
  | por (d : BitVec 3) (a : BitVec 3) (b : BitVec 3)
  /-- `pnot`. Inverts a predicate. (R124) -/
  | pnot (d : BitVec 3) (a : BitVec 3)
  /-- `red.add`. Sums active lanes modulo 2^32 into a scalar. (R125) -/
  | redAdd (d : BitVec 5) (a : BitVec 6) (g : BitVec 3)
  /-- `red.fadd`. Sums active FP32 lanes by the fixed pairwise tree. (R125) -/
  | redFadd (d : BitVec 5) (a : BitVec 6) (g : BitVec 3)
  /-- `red.min.s`. Signed minimum over active lanes. (R125) -/
  | redMinS (d : BitVec 5) (a : BitVec 6) (g : BitVec 3)
  /-- `red.max.s`. Signed maximum over active lanes. (R125) -/
  | redMaxS (d : BitVec 5) (a : BitVec 6) (g : BitVec 3)
  /-- `red.fmin`. FP32 minimum over active lanes. (R125) -/
  | redFmin (d : BitVec 5) (a : BitVec 6) (g : BitVec 3)
  /-- `red.fmax`. FP32 maximum over active lanes. (R125) -/
  | redFmax (d : BitVec 5) (a : BitVec 6) (g : BitVec 3)
  /-- `red.and`. Bitwise AND over active lanes. (R125) -/
  | redAnd (d : BitVec 5) (a : BitVec 6) (g : BitVec 3)
  /-- `red.or`. Bitwise OR over active lanes. (R125) -/
  | redOr (d : BitVec 5) (a : BitVec 6) (g : BitVec 3)
  /-- `scan.add`. Inclusive integer prefix sum over active lanes. (R125) -/
  | scanAdd (d : BitVec 6) (a : BitVec 6) (g : BitVec 3)
  /-- `scan.fadd`. Running RN sum over active lanes. (R125) -/
  | scanFadd (d : BitVec 6) (a : BitVec 6) (g : BitVec 3)
  /-- `red.fadd2`. Compensated TwoSum chain into a scalar pair. (R125) -/
  | redFadd2 (d : BitVec 5) (a : BitVec 6) (g : BitVec 3)
  /-- `sadd`. Adds two scalars modulo 2^64. (R127) -/
  | sadd (d : BitVec 5) (a : BitVec 5) (b : BitVec 5)
  /-- `ssub`. Subtracts two scalars. (R127) -/
  | ssub (d : BitVec 5) (a : BitVec 5) (b : BitVec 5)
  /-- `smul`. Multiplies two scalars, low 64 bits. (R127) -/
  | smul (d : BitVec 5) (a : BitVec 5) (b : BitVec 5)
  /-- `smulh.s`. High 64 bits of the signed scalar product. (R127) -/
  | smulhS (d : BitVec 5) (a : BitVec 5) (b : BitVec 5)
  /-- `sdiv.s`. Signed scalar division, defined for zero divisor. (R127) -/
  | sdivS (d : BitVec 5) (a : BitVec 5) (b : BitVec 5)
  /-- `sdiv.z`. Unsigned scalar division. (R127) -/
  | sdivZ (d : BitVec 5) (a : BitVec 5) (b : BitVec 5)
  /-- `sand`. Bitwise AND of scalars. (R127) -/
  | sand (d : BitVec 5) (a : BitVec 5) (b : BitVec 5)
  /-- `sor`. Bitwise OR of scalars. (R127) -/
  | sor (d : BitVec 5) (a : BitVec 5) (b : BitVec 5)
  /-- `sxor`. Bitwise XOR of scalars. (R127) -/
  | sxor (d : BitVec 5) (a : BitVec 5) (b : BitVec 5)
  /-- `sshl`. Shifts a scalar left. (R127) -/
  | sshl (d : BitVec 5) (a : BitVec 5) (b : BitVec 5)
  /-- `sshr.z`. Shifts a scalar right logically. (R127) -/
  | sshrZ (d : BitVec 5) (a : BitVec 5) (b : BitVec 5)
  /-- `sshr.s`. Shifts a scalar right arithmetically. (R127) -/
  | sshrS (d : BitVec 5) (a : BitVec 5) (b : BitVec 5)
  /-- `smin.s`. Signed scalar minimum. (R127) -/
  | sminS (d : BitVec 5) (a : BitVec 5) (b : BitVec 5)
  /-- `smax.s`. Signed scalar maximum. (R127) -/
  | smaxS (d : BitVec 5) (a : BitVec 5) (b : BitVec 5)
  /-- `seq`. Writes 1 when two scalars are equal. (R127) -/
  | seq (d : BitVec 5) (a : BitVec 5) (b : BitVec 5)
  /-- `slt.s`. Writes 1 on signed less-than. (R127) -/
  | sltS (d : BitVec 5) (a : BitVec 5) (b : BitVec 5)
  /-- `slt.z`. Writes 1 on unsigned less-than. (R127) -/
  | sltZ (d : BitVec 5) (a : BitVec 5) (b : BitVec 5)
  /-- `saddi`. Adds a sign-extended 15-bit immediate to a scalar. (R128) -/
  | saddi (d : BitVec 5) (a : BitVec 5) (i : BitVec 15)
  /-- `sins`. Shifts a scalar left by 15 and inserts a 15-bit immediate. (R128) -/
  | sins (d : BitVec 5) (a : BitVec 5) (i : BitVec 15)
  /-- `aadd`. Adds a sign-extended scalar to an address register. (R129) -/
  | aadd (d : BitVec 4) (a : BitVec 4) (b : BitVec 5)
  /-- `asub`. Subtracts a scalar from an address register. (R129) -/
  | asub (d : BitVec 4) (a : BitVec 4) (b : BitVec 5)
  /-- `amov`. Copies an address register. (R129) -/
  | amov (d : BitVec 4) (a : BitVec 4)
  /-- `aset`. Sets an address register from a zero-extended scalar. (R129) -/
  | aset (d : BitVec 4) (a : BitVec 5)
  /-- `aget`. Reads the low 64 or top 8 bits of an address register. (R129) -/
  | aget (d : BitVec 5) (a : BitVec 4) (n : BitVec 5)
  /-- `ahi`. Sets bits 71:64 of an address from a scalar byte. (R129) -/
  | ahi (d : BitVec 4) (a : BitVec 4) (b : BitVec 5)
  /-- `acmp`. Compares two address registers into a scalar. (R129) -/
  | acmp (d : BitVec 5) (a : BitVec 4) (b : BitVec 4)
  /-- `vmovs.lo`. Writes the low half of a scalar into lane n. (R126) -/
  | vmovsLo (d : BitVec 6) (a : BitVec 5) (n : BitVec 6) (g : BitVec 3)
  /-- `vmovs.hi`. Writes the high half of a scalar into lane n. (R126) -/
  | vmovsHi (d : BitVec 6) (a : BitVec 5) (n : BitVec 6) (g : BitVec 3)
  /-- `smovv`. Reads lane n of a vector into a scalar. (R126) -/
  | smovv (d : BitVec 5) (a : BitVec 6) (n : BitVec 6)
  /-- `vadds`. Adds a scalar to each lane. (R126) -/
  | vadds (d : BitVec 6) (a : BitVec 6) (b : BitVec 5) (g : BitVec 3)
  /-- `vmuls`. Multiplies each lane by a scalar. (R126) -/
  | vmuls (d : BitVec 6) (a : BitVec 6) (b : BitVec 5) (g : BitVec 3)
  /-- `vfadds`. Adds an FP32 scalar to each lane by RN. (R126) -/
  | vfadds (d : BitVec 6) (a : BitVec 6) (b : BitVec 5) (g : BitVec 3)
  /-- `vfmuls`. Multiplies each lane by an FP32 scalar by RN. (R126) -/
  | vfmuls (d : BitVec 6) (a : BitVec 6) (b : BitVec 5) (g : BitVec 3)
  /-- `wfld`. Writes field f of the work identifier into active lanes. (R130) -/
  | wfld (d : BitVec 6) (f : BitVec 9)
  /-- `wfs`. Writes the work identifier with lane field zero into a scalar. (R130) -/
  | wfs (d : BitVec 5)
  /-- `visit`. Writes the fold's visit number into a scalar. (R130) -/
  | visit (d : BitVec 5)
  /-- `emget`. Reads the execution mask into a scalar. (R130) -/
  | emget (d : BitVec 5)
  /-- `emput`. Writes the execution mask from a scalar. (R130) -/
  | emput (a : BitVec 5)
  /-- `emand`. Saves em and ANDs it with a predicate. (R130) -/
  | emand (d : BitVec 5) (a : BitVec 3)
  /-- `emor`. Saves em and ORs it with a predicate. (R130) -/
  | emor (d : BitVec 5) (a : BitVec 3)
  /-- `rdtime`. Reads the local time base. (R130) -/
  | rdtime (d : BitVec 5)
  /-- `rdcnt`. Reads the four wait counters. (R130) -/
  | rdcnt (d : BitVec 5)
  /-- `pcount`. Reads pcr into a scalar. (R130) -/
  | pcount (d : BitVec 5)
  /-- `fcrget`. Reads fcr into a scalar. (R130) -/
  | fcrget (d : BitVec 5)
  /-- `fcrput`. Writes fcr bits 9:8 and 2:0 from a scalar. (R130) -/
  | fcrput (a : BitVec 5)
  /-- `lpget`. Reads an item of a loop level. (R130) -/
  | lpget (d : BitVec 5) (k : BitVec 9)
  /-- `rdenergy`. Reads the context energy counter. (R130) -/
  | rdenergy (d : BitVec 5)
  /-- `rdgang`. Reads the gang word. (R131) -/
  | rdgang (d : BitVec 5)
  /-- `rdcore`. Reads the core word, or traps under the deterministic flag. (R132) -/
  | rdcore (d : BitVec 5)
  /-- `br`. Branches unconditionally. (R133) -/
  | br (o : BitVec 20)
  /-- `br.any`. Branches when any lane of pk AND em is set. (R133) -/
  | brAny (p : BitVec 3) (o : BitVec 20)
  /-- `br.all`. Branches when pk covers every lane of em. (R133) -/
  | brAll (p : BitVec 3) (o : BitVec 20)
  /-- `br.none`. Branches when no lane of pk AND em is set. (R133) -/
  | brNone (p : BitVec 3) (o : BitVec 20)
  /-- `jal`. Writes the link and jumps to a label. (R134) -/
  | jal (d : BitVec 5) (o : BitVec 20)
  /-- `jr`. Jumps to the address in a scalar. (R134) -/
  | jr (a : BitVec 5)
  /-- `jalr`. Jumps through a scalar and writes the link. (R134) -/
  | jalr (d : BitVec 5) (a : BitVec 5)
  /-- `loop`. Arms a hardware loop level or skips a zero-count body. (R135) -/
  | loop (l : BitVec 2) (c : BitVec 5) (i : BitVec 1) (e : BitVec 17)
  /-- `lbrk`. Disarms a loop level and every level above it. (R137) -/
  | lbrk (l : BitVec 2)
  /-- `wait`. Blocks until each wait counter is at or below its bound. (R139) -/
  | wait (l : BitVec 5) (s : BitVec 5) (c : BitVec 4) (t : BitVec 4)
  /-- `bar`. Arrives at the fold barrier after stores drain. (R141) -/
  | bar
  /-- `bar.cl`. Arrives at the cluster-gang barrier. (R141) -/
  | barCl
  /-- Event. Once every unended flock has arrived, the barrier instance releases its flocks with an acquire. (R141) -/
  | barrierRelease (fold : Nat) (cluster : Bool)
  /-- `commit`. Acts as a barrier, then waits for the commit token to write the buffer. (R66) -/
  | commit
  /-- Event. Once the fold holds the token, writes its line entries and held reductions to memory in order. (R66) -/
  | commitWriteOut (fold : Nat)
  /-- `halt`. Waits for all counters to reach zero, then ends the flock. (R142) -/
  | halt
  /-- Event. The flock's counters reach zero after halt and its state ceases to exist. (R142) -/
  | flockEnd (flock : Nat)
  /-- `yield`. Ends the issue turn, or in a save routine waits for counters and yields the flock. (R297) -/
  | yield
  /-- `nop`. Does nothing. (R140) -/
  | nop
  /-- `sleep`. Blocks until a wake, a trap or a time-base value. (R143) -/
  | sleep (s : BitVec 5)
  /-- Event. The time base reaches the sleep time and the flock continues. (R143) -/
  | sleepTimerExpiry (flock : Nat)
  /-- `trap`. Raises a software trap with a code. (R144) -/
  | trap (n : BitVec 6)
  /-- `sys`. Raises a system-call trap with a code. (R144) -/
  | sys (n : BitVec 6)
  /-- `eret`. Returns from a vectored routine to epc. (R294) -/
  | eret
  /-- `brk`. Raises a breakpoint trap saving its own address. (R144) -/
  | brk (n : BitVec 6)
  /-- `ld.b8.z`. Loads a byte per lane, zero-extended. (R153) -/
  | ldB8Z (d : BitVec 6) (a : BitVec 4) (v : BitVec 6) (i : BitVec 5)
  /-- `ld.b8.s`. Loads a byte per lane, sign-extended. (R153) -/
  | ldB8S (d : BitVec 6) (a : BitVec 4) (v : BitVec 6) (i : BitVec 5)
  /-- `ld.b16.z`. Loads a halfword per lane, zero-extended. (R153) -/
  | ldB16Z (d : BitVec 6) (a : BitVec 4) (v : BitVec 6) (i : BitVec 5)
  /-- `ld.b16.s`. Loads a halfword per lane, sign-extended. (R153) -/
  | ldB16S (d : BitVec 6) (a : BitVec 4) (v : BitVec 6) (i : BitVec 5)
  /-- `ld.b32`. Loads a word per lane. (R153) -/
  | ldB32 (d : BitVec 6) (a : BitVec 4) (v : BitVec 6) (i : BitVec 5)
  /-- `ld.b64`. Loads 8 bytes per lane into a register pair. (R153) -/
  | ldB64 (d : BitVec 6) (a : BitVec 4) (v : BitVec 6) (i : BitVec 5)
  /-- `ld.b128`. Loads 16 bytes per lane into four registers. (R153) -/
  | ldB128 (d : BitVec 6) (a : BitVec 4) (v : BitVec 6) (i : BitVec 5)
  /-- `ld.e`. Loads a typed element decoded to FP32. (R154) -/
  | ldE (d : BitVec 6) (a : BitVec 4) (v : BitVec 6) (i : BitVec 5)
  /-- `ld.e.i`. Loads a typed integer element decoded to 32 bits. (R154) -/
  | ldEI (d : BitVec 6) (a : BitVec 4) (v : BitVec 6) (i : BitVec 5)
  /-- `ld.un`. Loads one word for the flock into every active lane. (R153) -/
  | ldUn (d : BitVec 6) (a : BitVec 4) (i : BitVec 5)
  /-- `ld.nc`. Loads a word per lane without L1 allocation. (R153) -/
  | ldNc (d : BitVec 6) (a : BitVec 4) (v : BitVec 6) (i : BitVec 5)
  /-- `ld.acq`. Loads a word per lane as an acquire at a scope. (R153) -/
  | ldAcq (d : BitVec 6) (a : BitVec 4) (v : BitVec 6) (s : BitVec 3)
  /-- `st.b8`. Stores a byte per lane. (R155) -/
  | stB8 (d : BitVec 6) (a : BitVec 4) (v : BitVec 6) (i : BitVec 5)
  /-- `st.b16`. Stores a halfword per lane. (R155) -/
  | stB16 (d : BitVec 6) (a : BitVec 4) (v : BitVec 6) (i : BitVec 5)
  /-- `st.b32`. Stores a word per lane. (R155) -/
  | stB32 (d : BitVec 6) (a : BitVec 4) (v : BitVec 6) (i : BitVec 5)
  /-- `st.b64`. Stores 8 bytes per lane from a register pair. (R155) -/
  | stB64 (d : BitVec 6) (a : BitVec 4) (v : BitVec 6) (i : BitVec 5)
  /-- `st.b128`. Stores 16 bytes per lane from four registers. (R155) -/
  | stB128 (d : BitVec 6) (a : BitVec 4) (v : BitVec 6) (i : BitVec 5)
  /-- `st.e`. Stores an FP32 lane value encoded to the page format. (R156) -/
  | stE (d : BitVec 6) (a : BitVec 4) (v : BitVec 6) (i : BitVec 5)
  /-- `st.e.i`. Stores an integer lane value encoded to the page format. (R156) -/
  | stEI (d : BitVec 6) (a : BitVec 4) (v : BitVec 6) (i : BitVec 5)
  /-- `st.rel`. Stores a word per lane as a release at a scope. (R155) -/
  | stRel (d : BitVec 6) (a : BitVec 4) (v : BitVec 6) (s : BitVec 3)
  /-- `st.b4`. Stores a nibble per lane. (R155) -/
  | stB4 (d : BitVec 6) (a : BitVec 4) (v : BitVec 6) (i : BitVec 5)
  /-- `st.b1`. Stores a bit per lane. (R155) -/
  | stB1 (d : BitVec 6) (a : BitVec 4) (v : BitVec 6) (i : BitVec 5)
  /-- `lds.b64`. Loads 8 bytes into a scalar. (R157) -/
  | ldsB64 (d : BitVec 5) (a : BitVec 4) (i : BitVec 5)
  /-- `lds.b32`. Loads 4 bytes into a scalar, zero-extended. (R157) -/
  | ldsB32 (d : BitVec 5) (a : BitVec 4) (i : BitVec 5)
  /-- `sts.b64`. Stores a scalar's 8 bytes. (R157) -/
  | stsB64 (d : BitVec 5) (a : BitVec 4) (i : BitVec 5)
  /-- `sts.b32`. Stores a scalar's low 4 bytes. (R157) -/
  | stsB32 (d : BitVec 5) (a : BitVec 4) (i : BitVec 5)
  /-- `lda`. Loads a 72-bit pointer into an address register. (R157) -/
  | lda (d : BitVec 4) (a : BitVec 4) (i : BitVec 5)
  /-- `sta`. Stores an address register as a 16-byte pointer. (R157) -/
  | sta (d : BitVec 4) (a : BitVec 4) (i : BitVec 5)
  /-- `lds.acq`. Loads 8 bytes into a scalar as an acquire. (R157) -/
  | ldsAcq (d : BitVec 5) (a : BitVec 4) (s : BitVec 3)
  /-- `sts.rel`. Stores 8 bytes of a scalar as a release. (R157) -/
  | stsRel (d : BitVec 5) (a : BitVec 4) (s : BitVec 3)
  /-- `lsp.b32`. Loads a scratch word per lane. (R158) -/
  | lspB32 (d : BitVec 6) (s : BitVec 4) (v : BitVec 6) (i : BitVec 5)
  /-- `lsp.b64`. Loads 8 scratch bytes into a scalar. (R158) -/
  | lspB64 (d : BitVec 5) (s : BitVec 4) (i : BitVec 5)
  /-- `lsp.b128`. Loads a 16-byte scratch pointer into an address register. (R158) -/
  | lspB128 (d : BitVec 4) (s : BitVec 4) (i : BitVec 5)
  /-- `ssp.b32`. Stores a word per lane to scratch. (R158) -/
  | sspB32 (d : BitVec 6) (s : BitVec 4) (v : BitVec 6) (i : BitVec 5)
  /-- `ssp.b64`. Stores a scalar to scratch. (R158) -/
  | sspB64 (d : BitVec 5) (s : BitVec 4) (i : BitVec 5)
  /-- `ssp.b128`. Stores an address register to scratch as 16 bytes. (R158) -/
  | sspB128 (d : BitVec 4) (s : BitVec 4) (i : BitVec 5)
  /-- `atom.add`. Atomically adds per lane, returning the old word. (R161) -/
  | atomAdd (d : BitVec 6) (a : BitVec 4) (v : BitVec 6) (s : BitVec 3) (o : BitVec 2)
  /-- `atom.fadd`. Atomically adds FP32 by RNE per lane. (R161) -/
  | atomFadd (d : BitVec 6) (a : BitVec 4) (v : BitVec 6) (s : BitVec 3) (o : BitVec 2)
  /-- `atom.min.s`. Atomic signed minimum per lane. (R161) -/
  | atomMinS (d : BitVec 6) (a : BitVec 4) (v : BitVec 6) (s : BitVec 3) (o : BitVec 2)
  /-- `atom.max.s`. Atomic signed maximum per lane. (R161) -/
  | atomMaxS (d : BitVec 6) (a : BitVec 4) (v : BitVec 6) (s : BitVec 3) (o : BitVec 2)
  /-- `atom.min.z`. Atomic unsigned minimum per lane. (R161) -/
  | atomMinZ (d : BitVec 6) (a : BitVec 4) (v : BitVec 6) (s : BitVec 3) (o : BitVec 2)
  /-- `atom.max.z`. Atomic unsigned maximum per lane. (R161) -/
  | atomMaxZ (d : BitVec 6) (a : BitVec 4) (v : BitVec 6) (s : BitVec 3) (o : BitVec 2)
  /-- `atom.and`. Atomic AND per lane. (R161) -/
  | atomAnd (d : BitVec 6) (a : BitVec 4) (v : BitVec 6) (s : BitVec 3) (o : BitVec 2)
  /-- `atom.or`. Atomic OR per lane. (R161) -/
  | atomOr (d : BitVec 6) (a : BitVec 4) (v : BitVec 6) (s : BitVec 3) (o : BitVec 2)
  /-- `atom.xor`. Atomic XOR per lane. (R161) -/
  | atomXor (d : BitVec 6) (a : BitVec 4) (v : BitVec 6) (s : BitVec 3) (o : BitVec 2)
  /-- `atom.xchg`. Atomic exchange per lane. (R161) -/
  | atomXchg (d : BitVec 6) (a : BitVec 4) (v : BitVec 6) (s : BitVec 3) (o : BitVec 2)
  /-- `atom.cas`. Atomic 32-bit compare-and-swap per lane. (R161) -/
  | atomCas (d : BitVec 6) (a : BitVec 4) (v : BitVec 6) (s : BitVec 3) (o : BitVec 2)
  /-- `atom.add64`. Atomic 64-bit add per lane. (R161) -/
  | atomAdd64 (d : BitVec 6) (a : BitVec 4) (v : BitVec 6) (s : BitVec 3) (o : BitVec 2)
  /-- `atom.cas64`. Atomic 64-bit compare-and-swap per lane. (R161) -/
  | atomCas64 (d : BitVec 6) (a : BitVec 4) (v : BitVec 6) (s : BitVec 3) (o : BitVec 2)
  /-- `atom.inc`. Atomic wrapping increment per lane. (R161) -/
  | atomInc (d : BitVec 6) (a : BitVec 4) (v : BitVec 6) (s : BitVec 3) (o : BitVec 2)
  /-- `red.mem.add`. Memory reduction adding per lane without return. (R161) -/
  | redMemAdd (d : BitVec 6) (a : BitVec 4) (v : BitVec 6) (s : BitVec 3) (o : BitVec 2)
  /-- `red.mem.fadd`. Memory reduction adding FP32 per lane without return. (R161) -/
  | redMemFadd (d : BitVec 6) (a : BitVec 4) (v : BitVec 6) (s : BitVec 3) (o : BitVec 2)
  /-- `fence`. Orders the flock's accesses at a scope as acquire, release or both. (R165) -/
  | fence (s : BitVec 3) (o : BitVec 2)
  /-- `mon`. Arms the flock's monitor on a line. (R166) -/
  | mon (a : BitVec 4) (i : BitVec 5)
  /-- `mwait`. Blocks until the monitor event, a wake or a trap. (R168) -/
  | mwait
  /-- Event. A set event bit or wake releases a flock in mwait and clears the bit. (R168) -/
  | mwaitWake (flock : Nat)
  /-- `cflush`. Writes back dirty lines per lane. (R169) -/
  | cflush (a : BitVec 4) (v : BitVec 6) (i : BitVec 5)
  /-- `cinv`. Writes back and invalidates lines per lane. (R169) -/
  | cinv (a : BitVec 4) (v : BitVec 6) (i : BitVec 5)
  /-- `ifence`. Discards fetched instructions and invalidates the L1 instruction cache. (R170) -/
  | ifence
  /-- `dtens`. Invalidates without write-back every line carrying a tensor tag. (R172) -/
  | dtens (s : BitVec 5)
  /-- `ttag`. Sets the flock's tensor tag. (R171) -/
  | ttag (s : BitVec 5)
  /-- `pref`. Hints a prefetch of lines into L1 or L2. (R173) -/
  | pref (n : BitVec 6) (a : BitVec 4) (v : BitVec 6) (i : BitVec 5)
  /-- `tdset`. Loads and checks a layout record into a tile descriptor bound to scratch. (R179) -/
  | tdset (t : BitVec 4) (a : BitVec 4) (s : BitVec 5) (i : BitVec 6)
  /-- `tdoff`. Sets a descriptor's start coordinates. (R179) -/
  | tdoff (t : BitVec 4) (a : BitVec 5) (b : BitVec 5) (k : BitVec 6)
  /-- `tdpl`. Binds a descriptor to vector registers as planes. (R179) -/
  | tdpl (t : BitVec 4) (v : BitVec 5) (p : BitVec 6)
  /-- `tdget`. Reads an item of a descriptor. (R179) -/
  | tdget (d : BitVec 5) (t : BitVec 4) (k : BitVec 6)
  /-- `tload`. Builds a dense bit-plane image of a tile in scratch. (R185) -/
  | tload (t : BitVec 4)
  /-- `tload.t`. Builds a transposed dense image. (R185) -/
  | tloadT (t : BitVec 4)
  /-- `tload.sp`. Prunes groups and builds a sparse image. (R185) -/
  | tloadSp (t : BitVec 4)
  /-- `tload.raw`. Builds a dense image from raw elements. (R185) -/
  | tloadRaw (t : BitVec 4)
  /-- Event. The tile load's whole image is written and its copies count falls. (R186) -/
  | tileLoadComplete (flock : Nat)
  /-- `tstore`. Stores accumulator tiles to memory in the page format. (R196) -/
  | tstore (t : BitVec 4) (c : BitVec 6)
  /-- `tstore.t`. Stores accumulator tiles transposed. (R196) -/
  | tstoreT (t : BitVec 4) (c : BitVec 6)
  /-- `tstore.pair`. Stores raw s and c words of each entry. (R196) -/
  | tstorePair (t : BitVec 4) (c : BitVec 6)
  /-- `tstore.add`. Reduces rounded tile values into FP32 memory. (R196) -/
  | tstoreAdd (t : BitVec 4) (c : BitVec 6)
  /-- Event. Every element of the tile store is written and flags are ORed into fcr. (R197) -/
  | tileStoreComplete (flock : Nat)
  /-- `mma`. Flock-wide plane-path product into four accumulator tiles. (R189) -/
  | mma (c : BitVec 4) (a : BitVec 4) (b : BitVec 4) (m : BitVec 1) (n : BitVec 1) (z : BitVec 1) (g : BitVec 3)
  /-- `mmx.xor`. Flock-wide binary XOR count product. (R90) -/
  | mmxXor (c : BitVec 4) (a : BitVec 4) (b : BitVec 4) (z : BitVec 1) (g : BitVec 3)
  /-- `mmx.and`. Flock-wide binary AND count product. (R90) -/
  | mmxAnd (c : BitVec 4) (a : BitVec 4) (b : BitVec 4) (z : BitVec 1) (g : BitVec 3)
  /-- `mms`. Flock-wide sparse-A product. (R189) -/
  | mms (c : BitVec 4) (a : BitVec 4) (b : BitVec 4) (m : BitVec 1) (n : BitVec 1) (z : BitVec 1) (g : BitVec 3)
  /-- `mml`. Flock-wide LNS6 product. (R89) -/
  | mml (c : BitVec 4) (a : BitVec 4) (b : BitVec 4) (m : BitVec 1) (n : BitVec 1) (z : BitVec 1) (g : BitVec 3)
  /-- `mma.q`. Quarter-tile plane-path product into one tile. (R189) -/
  | mmaQ (c : BitVec 6) (a : BitVec 4) (b : BitVec 4) (m : BitVec 1) (n : BitVec 1) (z : BitVec 1) (g : BitVec 3)
  /-- `mmx.xor.q`. Quarter-tile binary XOR product. (R90) -/
  | mmxXorQ (c : BitVec 6) (a : BitVec 4) (b : BitVec 4) (z : BitVec 1) (g : BitVec 3)
  /-- `mmx.and.q`. Quarter-tile binary AND product. (R90) -/
  | mmxAndQ (c : BitVec 6) (a : BitVec 4) (b : BitVec 4) (z : BitVec 1) (g : BitVec 3)
  /-- `mms.q`. Quarter-tile sparse-A product. (R189) -/
  | mmsQ (c : BitVec 6) (a : BitVec 4) (b : BitVec 4) (m : BitVec 1) (n : BitVec 1) (z : BitVec 1) (g : BitVec 3)
  /-- `mml.q`. Quarter-tile LNS6 product. (R89) -/
  | mmlQ (c : BitVec 6) (a : BitVec 4) (b : BitVec 4) (m : BitVec 1) (n : BitVec 1) (z : BitVec 1) (g : BitVec 3)
  /-- Event. A matrix or accumulator operation has written its tiles or register and the tiles count falls. (R187) -/
  | tileOperationComplete (flock : Nat)
  /-- `tfence`. Holds later matrix instructions until earlier operand writes complete. (R191) -/
  | tfence
  /-- `accz`. Zeroes every entry of a tile. (R194) -/
  | accz (d : BitVec 6)
  /-- `accrd`. Reads a tile row rounded once to a format. (R195) -/
  | accrd (d : BitVec 6) (a : BitVec 6) (r : BitVec 3) (f : BitVec 3)
  /-- `accrdp`. Reads the s or c words of a row bit for bit. (R194) -/
  | accrdp (d : BitVec 6) (a : BitVec 6) (r : BitVec 3) (p : BitVec 1)
  /-- `accwr`. Writes s, c or both words of a row. (R194) -/
  | accwr (d : BitVec 6) (a : BitVec 6) (r : BitVec 3) (p : BitVec 2)
  /-- `accneg`. Negates every entry of a tile exactly. (R194) -/
  | accneg (d : BitVec 6)
  /-- `copy.mm`. Copies memory to memory of this device. (R204) -/
  | copyMm (a : BitVec 5) (b : BitVec 5) (c : BitVec 5) (g : BitVec 3) (k : BitVec 3)
  /-- `copy.ms`. Copies memory to a packed image in local scratch. (R204) -/
  | copyMs (a : BitVec 5) (b : BitVec 5) (c : BitVec 5) (g : BitVec 3) (k : BitVec 3)
  /-- `copy.mb`. Copies memory to a packed image in a bank slot. (R204) -/
  | copyMb (a : BitVec 5) (b : BitVec 5) (c : BitVec 5) (g : BitVec 3) (k : BitVec 3)
  /-- `copy.ml`. Copies memory into a leased L2 range. (R204) -/
  | copyMl (a : BitVec 5) (b : BitVec 5) (c : BitVec 5) (g : BitVec 3) (k : BitVec 3)
  /-- `copy.mt`. Copies memory into a trough slot. (R214) -/
  | copyMt (a : BitVec 5) (b : BitVec 5) (c : BitVec 5) (g : BitVec 3) (k : BitVec 3)
  /-- `copy.sm`. Copies scratch to memory. (R204) -/
  | copySm (a : BitVec 5) (b : BitVec 5) (c : BitVec 5) (g : BitVec 3) (k : BitVec 3)
  /-- `copy.bg`. Copies to host or second-tier memory in the background class. (R211) -/
  | copyBg (a : BitVec 5) (b : BitVec 5) (c : BitVec 5) (g : BitVec 3) (k : BitVec 3)
  /-- `copy.put`. Copies to another device's memory. (R204) -/
  | copyPut (a : BitVec 5) (b : BitVec 5) (c : BitVec 5) (g : BitVec 3) (k : BitVec 3)
  /-- `copy.get`. Copies from another device's memory. (R204) -/
  | copyGet (a : BitVec 5) (b : BitVec 5) (c : BitVec 5) (g : BitVec 3) (k : BitVec 3)
  /-- Event. The copy engine forms a chunk with its welt and sends it. (R207) -/
  | copyChunkSend (job : Nat)
  /-- Event. The engine reserves an empty trough slot for copy.mt once one is free. (R214) -/
  | engineTroughReserve (job : Nat)
  /-- Event. A hop receives a chunk, increments its hop counter and checks W1. (R333) -/
  | chunkIngress (job : Nat) (flip : Nat)
  /-- Event. Once every payload write is performed, the engine writes the stamp as a release and the copy completes. (R209) -/
  | copyStampWrite (job : Nat)
  /-- `tgset`. Sets a trough's base, slot size and slot count. (R213) -/
  | tgset (a : BitVec 5) (b : BitVec 5) (n : BitVec 3)
  /-- `tgresv`. Reserves the next empty trough slot, blocking while none is free. (R213) -/
  | tgresv (d : BitVec 5) (n : BitVec 3)
  /-- `tgpost`. Posts a reserved slot as a release at fold scope. (R213) -/
  | tgpost (a : BitVec 5) (n : BitVec 3)
  /-- `tgtake`. Takes the oldest filled slot as an acquire, blocking while none. (R213) -/
  | tgtake (d : BitVec 5) (n : BitVec 3)
  /-- `tgfree`. Releases a taken slot. (R213) -/
  | tgfree (a : BitVec 5) (n : BitVec 3)
  /-- `tgstat`. Reads a trough's state word. (R213) -/
  | tgstat (d : BitVec 5) (n : BitVec 3)
  /-- `tgclose`. Closes a trough and wakes blocked takers. (R213) -/
  | tgclose (n : BitVec 3)
  /-- `give`. Hands a bank slot to another member of the cluster gang. (R216) -/
  | give (d : BitVec 5) (m : BitVec 5) (k : BitVec 6)
  /-- `bwait`. Blocks until a bank arrives in a masked slot, then acquires. (R215) -/
  | bwait (d : BitVec 5) (m : BitVec 5)
  /-- `bstat`. Reads a slot's bank, valid and arrival bits. (R215) -/
  | bstat (d : BitVec 5) (k : BitVec 6)
  /-- `bdrain`. Blocks until every access of the fold to a slot completes. (R215) -/
  | bdrain (k : BitVec 6)
  /-- `bzero`. Drains a slot and zeroes its bank. (R215) -/
  | bzero (k : BitVec 6)
  /-- `bmap`. Maps a pooled bank into an empty slot, zeroing it if owned by another. (R263) -/
  | bmap (d : BitVec 5) (k : BitVec 6)
  /-- `bunmap`. Drains a slot and returns its bank to the pool. (R215) -/
  | bunmap (k : BitVec 6)
  /-- `lease`. Leases L2 ways for an address range for a duration. (R273) -/
  | lease (d : BitVec 5) (a : BitVec 5) (b : BitVec 5) (t : BitVec 6)
  /-- `unlease`. Releases a lease handle. (R218) -/
  | unlease (a : BitVec 5)
  /-- `lrenew`. Renews a held lease's expiry. (R218) -/
  | lrenew (d : BitVec 5) (a : BitVec 5) (t : BitVec 6)
  /-- `lstat`. Reads a lease handle's expiry. (R218) -/
  | lstat (d : BitVec 5) (a : BitVec 5)
  /-- Event. The time base reaches a lease's expiry and its lines become ordinary. (R275) -/
  | leaseExpiry (ctx : Nat) (handle : Nat)
  /-- `est.init`. Empties the flock estimator. (R45) -/
  | estInit
  /-- `est.add`. Adds each active lane's FP32 value to the flock estimator. (R46) -/
  | estAdd (v : BitVec 5)
  /-- `est.addw`. Adds weighted lane values to the flock estimator. (R46) -/
  | estAddw (v : BitVec 5) (b : BitVec 5)
  /-- `est.close`. Deposits the flock estimator tagged with visit and flock. (R48) -/
  | estClose
  /-- `est.read`. Reads a whole estimator record at one version. (R62) -/
  | estRead (v : BitVec 5) (a : BitVec 5)
  /-- `est.wait`. Blocks until the record is narrow enough or final, then reads it. (R62) -/
  | estWait (v : BitVec 5) (a : BitVec 5) (b : BitVec 5)
  /-- Event. The merge sequencer merges the next ended visit's deposits into the record. (R49) -/
  | mergeVisit (launch : Nat)
  /-- `launch`. Submits a launch header to the launch unit. (R220) -/
  | launch (d : BitVec 5) (a : BitVec 5)
  /-- `dep.dec`. Decrements a launch's dependency counter through the launch unit. (R31) -/
  | depDec (a : BitVec 5)
  /-- `dep.add`. Adds to a dependency counter before same-cycle decrements. (R31) -/
  | depAdd (a : BitVec 5) (b : BitVec 5)
  /-- `cancel`. Cancels a live launch of the context. (R56) -/
  | cancel (d : BitVec 5) (a : BitVec 5)
  /-- `lnstat`. Reads a launch's status and visits ended. (R220) -/
  | lnstat (d : BitVec 5) (a : BitVec 5)
  /-- `gang`. Submits one member of a gang launch and sends acknowledgements. (R310) -/
  | gang (d : BitVec 5) (a : BitVec 5) (b : BitVec 5)
  /-- `snap`. Starts a consistent snapshot of memory ranges at instant T. (R342) -/
  | snap (d : BitVec 5) (a : BitVec 5)
  /-- `fault.done`. Marks fault replies of a context and generation as installed. (R291) -/
  | faultDone (a : BitVec 5) (b : BitVec 5)
  /-- `coll.put`. Runs a collective put step. (R227) -/
  | collPut (a : BitVec 5)
  /-- `coll.red`. Runs a collective reduction step. (R227) -/
  | collRed (a : BitVec 5)
  /-- `welt`. Forms and stores the welt of a chunk. (R225) -/
  | welt (a : BitVec 5) (b : BitVec 5) (c : BitVec 5)
  /-- `wchk`. Checks a chunk against a stored welt. (R225) -/
  | wchk (d : BitVec 5) (a : BitVec 5) (b : BitVec 5)
  /-- `cstat`. Pops or inspects the context's error ring. (R228) -/
  | cstat (d : BitVec 5) (k : BitVec 6)
  /-- `rng`. Draws 32 random bits per lane. (R229) -/
  | rng (d : BitVec 5)
  /-- `rng.f`. Draws an FP32 in [0,1) per lane. (R229) -/
  | rngF (d : BitVec 5)
  /-- `rngkey`. Sets the flock's random-number key. (R229) -/
  | rngkey (a : BitVec 5)
  /-- `aestr`. Starts a stream descriptor on an operand queue. (R231) -/
  | aestr (a : BitVec 5) (q : BitVec 2)
  /-- `qpop`. Pops the head queue entry into active lanes, blocking while empty. (R231) -/
  | qpop (d : BitVec 5) (q : BitVec 2)
  /-- `qstat`. Reads a queue's state. (R231) -/
  | qstat (d : BitVec 5) (q : BitVec 2)
  /-- `aestop`. Stops a stream and discards its queued entries. (R231) -/
  | aestop (q : BitVec 2)
  /-- Event. The affine access engine fetches the next entry into a queue with room. (R233) -/
  | streamFetch (flock : Nat) (queue : BitVec 2)
  /-- `sget`. Reads a system register. (R234) -/
  | sget (d : BitVec 5) (n : BitVec 6)
  /-- `sset`. Writes a system register. (R234) -/
  | sset (a : BitVec 5) (n : BitVec 6)
  /-- `tlbinv`. Invalidates a page's translations of a context in every TLB. (R235) -/
  | tlbinv (a : BitVec 5) (b : BitVec 5) (c : BitVec 5)
  /-- `tlbinvc`. Invalidates every translation of a context. (R235) -/
  | tlbinvc (a : BitVec 5) (f : BitVec 1)
  /-- `boost`. Requests a boost lease. (R319) -/
  | boost (d : BitVec 5) (a : BitVec 5)
  /-- `wake`. Wakes a flock of the fold or gang, or sets its wake-pending bit. (R236) -/
  | wake (a : BitVec 5)
  /-- `fabort`. Aborts and parks a restartable fold. (R235) -/
  | fabort (d : BitVec 5)
  /-- `vmov.n`. 16-bit form of vor d, a, a. (R102) -/
  | compactMov (d : BitVec 5) (a : BitVec 5) (g : BitVec 1)
  /-- `vadd.n`. 16-bit form of vadd d, d, a. (R102) -/
  | compactAdd (d : BitVec 5) (a : BitVec 5) (g : BitVec 1)
  /-- `vsub.n`. 16-bit form of vsub d, d, a. (R102) -/
  | compactSub (d : BitVec 5) (a : BitVec 5) (g : BitVec 1)
  /-- `vmul.n`. 16-bit form of vmul d, d, a. (R102) -/
  | compactMul (d : BitVec 5) (a : BitVec 5) (g : BitVec 1)
  /-- `vand.n`. 16-bit form of vand d, d, a. (R102) -/
  | compactAnd (d : BitVec 5) (a : BitVec 5) (g : BitVec 1)
  /-- `vor.n`. 16-bit form of vor d, d, a. (R102) -/
  | compactOr (d : BitVec 5) (a : BitVec 5) (g : BitVec 1)
  /-- `vxor.n`. 16-bit form of vxor d, d, a. (R102) -/
  | compactXor (d : BitVec 5) (a : BitVec 5) (g : BitVec 1)
  /-- `vshl.n`. 16-bit form of vshl d, d, a. (R102) -/
  | compactShl (d : BitVec 5) (a : BitVec 5) (g : BitVec 1)
  /-- `vshr.z.n`. 16-bit form of vshr.z d, d, a. (R102) -/
  | compactShrZ (d : BitVec 5) (a : BitVec 5) (g : BitVec 1)
  /-- `vshr.s.n`. 16-bit form of vshr.s d, d, a. (R102) -/
  | compactShrS (d : BitVec 5) (a : BitVec 5) (g : BitVec 1)
  /-- `vfadd.n`. 16-bit form of vfadd d, d, a. (R102) -/
  | compactFadd (d : BitVec 5) (a : BitVec 5) (g : BitVec 1)
  /-- `vfsub.n`. 16-bit form of vfsub d, d, a. (R102) -/
  | compactFsub (d : BitVec 5) (a : BitVec 5) (g : BitVec 1)
  /-- `vfmul.n`. 16-bit form of vfmul d, d, a. (R102) -/
  | compactFmul (d : BitVec 5) (a : BitVec 5) (g : BitVec 1)
  /-- `vfmin.n`. 16-bit form of vfmin d, d, a. (R102) -/
  | compactFmin (d : BitVec 5) (a : BitVec 5) (g : BitVec 1)
  /-- `vfmax.n`. 16-bit form of vfmax d, d, a. (R102) -/
  | compactFmax (d : BitVec 5) (a : BitVec 5) (g : BitVec 1)
  /-- `vfabs.n`. 16-bit form of vfabs d, a. (R102) -/
  | compactFabs (d : BitVec 5) (a : BitVec 5) (g : BitVec 1)
  /-- Event. A fetched pattern that is not an instruction raises a precise trap and writes tinfo. (R110) -/
  | illegalInstruction (cause : BitVec 8) (enc : BitVec 32)
  /-- Event. An absent or non-executable page under either halfword raises a fetch fault. (R301) -/
  | fetchFault (second : Bool)
  /-- Event. A counted load's destination registers are written and the loads count falls. (R115) -/
  | loadComplete (flock : Nat)
  /-- Event. A store leaves the flock for memory or the commit buffer and the stores count falls. (R115) -/
  | storeComplete (flock : Nat)
  /-- Event. A pointer fault or machine check is taken at the first boundary after its data arrives. (R175) -/
  | deferredFaultDelivery (flock : Nat)
  /-- Event. A blocked instruction's condition holds and the flock proceeds. (R202) -/
  | blockingConditionMet (flock : Nat)
  /-- Event. A waiting launch's counter, start stamp and subscription are all met and it becomes ready. (R30) -/
  | launchReady (launch : Nat)
  /-- Event. A core with room receives the next undispatched fold by priority, key and acceptance order. (R32) -/
  | foldPlacement (core : Nat)
  /-- Event. All flocks of a placed fold start together, with em set and streams started. (R22) -/
  | foldStart (fold : Nat)
  /-- Event. An idle cluster takes unstarted dispatch records from another cluster's queue. (R34) -/
  | donation (victim thief : Nat) (count : Nat)
  /-- Event. All flocks have ended and any commit has entered memory, so the fold ends. (R35) -/
  | foldEnd (fold : Nat)
  /-- Event. The launch unit writes K, the final status and the completion stamp. (R36) -/
  | launchRetirement (launch : Nat)
  /-- Event. A fold parked without a page fault is re-dispatched once a core allows. (R287) -/
  | parkedFoldRedispatch (launch : Nat) (visit : Nat) (core : Nat)
  /-- Event. Shepherd command admitting a free context. (R307) -/
  | admitContext (die : BitVec 2)
  /-- Event. Shepherd command pre-empting every flock of a resident context. (R307) -/
  | preEmpt (die : BitVec 2)
  /-- Event. Shepherd command incrementing fgen and resuming a pre-empted context. (R307) -/
  | resume (die : BitVec 2)
  /-- Event. Shepherd command retiring every live launch of a context and releasing its leases. (R307) -/
  | kill (die : BitVec 2)
  /-- Event. A flock still in a trap or resume routine 100 µs after pre-emption is parked or ends its launch. (R296) -/
  | routineTimeout (flock : Nat)
  /-- Event. A member receives a gang acknowledgement that counts or is discarded. (R311) -/
  | gangAckReceive (gang generation : BitVec 64) (member : Nat) (sent arrived : BitVec 64)
  /-- Event. At start + window + guard a member decides gang complete or gang absent. (R311) -/
  | gangDecision (launch : Nat)
  /-- Event. An IEEE 1588 message disciplines the local time base. (R309) -/
  | timeBaseSync (offset : Int)
  /-- Event. A new 64-cycle time-division slot begins for its owning partition. (R313) -/
  | timeDivisionSlot
  /-- Event. Every 1,024 cycles each bucket of a core's port is set to its grant plus a share of the spare pool. `spent` tells the tokens that requests
  other than those at the model's ports have taken, `waiting` the contexts with such a request that waits (log entry 42). (R315) -/
  | tokenRefill (core : Nat) (spent : List (Nat × Nat)) (waiting : List Nat)
  /-- Event. A current emergency makes the power controller raise the cluster's pass count. (R317) -/
  | currentEmergency (cluster : BitVec 5) (pass : BitVec 2)
  /-- Event. The power controller lowers a cluster's pass count one step. (R317) -/
  | passCountLower (cluster : BitVec 5)
  /-- Event. The time base passes grant + granted time and the boost lease expires. (R320) -/
  | boostLeaseExpiry (ctx : Nat)
  /-- Event. An event ends a core's clock gating and its status word records the wake reasons. (R321) -/
  | coreWake (core : Nat) (reasons : BitVec 8)
  /-- Event. The descriptor's copy of the context energy counter is rewritten. (R327) -/
  | energyCopyRefresh (ctx : Nat)
  /-- Event. A supply-loss warning stops issue, writes back L2, enters self-refresh and seals the marker. (R324) -/
  | supplyLossWarning
  /-- Event. Cold reset zeroes storage, checks the boot image and releases the shepherd cores. (R364) -/
  | coldReset (image : List (BitVec 8)) (refreshed : Bool)
  /-- Event. Writing the seal word extends M2, creates partitions and starts launch units. (R366) -/
  | sealBoot
  /-- Event. Plewick request op 1 extends M3 with argument bytes. (R371) -/
  | extendM3
  /-- Event. Plewick request op 2 writes a signed report. (R372) -/
  | report
  /-- Event. Plewick request op 3 copies the checkpoint marker and clears it. (R371) -/
  | checkpointMarkerCopy
  /-- Event. A write to a register or control word with no behaviour of its own. (R305) -/
  | registerWrite (address : Nat) (value : List (BitVec 8))
  /-- Event. A host access over CXL reaches device memory or completes as unsupported. (R339) -/
  | hostAccess (write : Bool) (address : Nat) (value : List (BitVec 8))
  /-- Event. A remote access request arrives at a target device's home agent. (R330) -/
  | remoteRequest (write : Bool) (tag : BitVec 16) (offset : Nat) (value : List (BitVec 8))
  /-- Event. A refusal from the target raises a machine check or error status at the issuer. (R330) -/
  | remoteAccessRefusal (flock : Nat) (job : Nat) (va : BitVec 72) (hop : BitVec 8)
  /-- Event. No response within 4 µs is treated as a refusal. (R330) -/
  | remoteAccessTimeout (flock : Nat) (job : Nat) (va : BitVec 72) (hop : BitVec 8)
  /-- Event. A switch combines a chunk with its partner and checks the output welt. (R338) -/
  | switchCombine (entry : Nat) (flip : Nat)
  /-- Event. A chunk whose partner has not arrived within 100 µs is discarded. (R338) -/
  | switchCombineTimeout (entry : Nat)
  /-- Event. At instant T every home agent holding a range arms the snapshot. (R342) -/
  | snapshotArm
  /-- Event. A line's old value is copied to the destination and held writes are released. (R344) -/
  | snapshotLineCopy (line : Nat)
  /-- Event. Once every line is copied the homes write the snapshot stamp. (R346) -/
  | snapshotStamp
  /-- Event. The device writes a dirty line of another device's memory back from its L2, which serialises the write at its home. (R257) -/
  | remoteLineWriteBack (line : Nat)
  /-- Event. An uncorrectable soft error arises in a line of DRAM, L2, L1, scratch or an accumulator and stays with that data until it is consumed. (R302) -/
  | uncorrectableSoftError (place : SoftErrorPlace)
  deriving DecidableEq, Repr

/-- The rows of the opcode table that have no encoding: they happen to an agent and are never fetched. -/
def Instr.isEvent : Instr → Bool
  | .barrierRelease _ _ => true
  | .commitWriteOut _ => true
  | .flockEnd _ => true
  | .sleepTimerExpiry _ => true
  | .mwaitWake _ => true
  | .tileLoadComplete _ => true
  | .tileStoreComplete _ => true
  | .tileOperationComplete _ => true
  | .copyChunkSend _ => true
  | .engineTroughReserve _ => true
  | .chunkIngress _ _ => true
  | .copyStampWrite _ => true
  | .leaseExpiry _ _ => true
  | .mergeVisit _ => true
  | .streamFetch _ _ => true
  | .illegalInstruction _ _ => true
  | .fetchFault _ => true
  | .loadComplete _ => true
  | .storeComplete _ => true
  | .deferredFaultDelivery _ => true
  | .blockingConditionMet _ => true
  | .launchReady _ => true
  | .foldPlacement _ => true
  | .foldStart _ => true
  | .donation _ _ _ => true
  | .foldEnd _ => true
  | .launchRetirement _ => true
  | .parkedFoldRedispatch _ _ _ => true
  | .admitContext _ => true
  | .preEmpt _ => true
  | .resume _ => true
  | .kill _ => true
  | .routineTimeout _ => true
  | .gangAckReceive _ _ _ _ _ => true
  | .gangDecision _ => true
  | .timeBaseSync _ => true
  | .timeDivisionSlot => true
  | .tokenRefill _ _ _ => true
  | .currentEmergency _ _ => true
  | .passCountLower _ => true
  | .boostLeaseExpiry _ => true
  | .coreWake _ _ => true
  | .energyCopyRefresh _ => true
  | .supplyLossWarning => true
  | .coldReset _ _ => true
  | .sealBoot => true
  | .extendM3 => true
  | .report => true
  | .checkpointMarkerCopy => true
  | .registerWrite _ _ => true
  | .hostAccess _ _ _ => true
  | .remoteRequest _ _ _ _ => true
  | .remoteAccessRefusal _ _ _ _ => true
  | .remoteAccessTimeout _ _ _ _ => true
  | .switchCombine _ _ => true
  | .switchCombineTimeout _ => true
  | .snapshotArm => true
  | .snapshotLineCopy _ => true
  | .snapshotStamp => true
  | .remoteLineWriteBack _ => true
  | .uncorrectableSoftError _ => true
  | _ => false

end Sys2Proof
end

