-- ==== Sys2Proof/WellFormed.lean ====
section
/-!
DEFINITION. The static checks of an instruction's fields (R104, R105, R107, R108, R111, R199): what makes a pattern illegal by
its bits alone, with the cause that R111 reports first. Checks that need the machine (R96, R109, R212) are made by the meanings.
-/
namespace Sys2Proof

/-- A field that must be zero or a register that is read-only: cause 0x04 unless `ok` (R107). -/
def unused (ok : Bool) : Option (BitVec 8) := if ok then none else some 0x04#8

/-- A small value out of its range: cause 0x08 unless `ok` (R108, R111). -/
def small (ok : Bool) : Option (BitVec 8) := if ok then none else some 0x08#8

/-- A register out of range: cause 0x05 unless `ok` (R94, R95, R111). -/
def register (ok : Bool) : Option (BitVec 8) := if ok then none else some 0x05#8

/-- The first of two causes, in the order of R111. -/
def first (a b : Option (BitVec 8)) : Option (BitVec 8) := match a with | some c => some c | none => b

/-- Scope codes run from 0 to 5 (R105). -/
def scopeOk (s : BitVec 3) : Bool := decide (s.toNat ≤ 5)

/-- The system registers that `sset` writes (R234). -/
def sysWritable (n : BitVec 6) : Bool := [1, 2, 6, 7, 8, 9, 10, 11, 12, 13, 16, 17, 18, 19].contains n.toNat

/-- The cause for which an instruction's fields are illegal, or none. -/
def Instr.check : Instr → Option (BitVec 8)
  | .vadd _ _ _ _ => none
  | .vsub _ _ _ _ => none
  | .vmul _ _ _ _ => none
  | .vmulhS _ _ _ _ => none
  | .vmulhZ _ _ _ _ => none
  | .vminS _ _ _ _ => none
  | .vmaxS _ _ _ _ => none
  | .vminZ _ _ _ _ => none
  | .vmaxZ _ _ _ _ => none
  | .vand _ _ _ _ => none
  | .vor _ _ _ _ => none
  | .vxor _ _ _ _ => none
  | .vshl _ _ _ _ => none
  | .vshrZ _ _ _ _ => none
  | .vshrS _ _ _ _ => none
  | .vandn _ _ _ _ => none
  | .vaddi _ _ _ => none
  | .vsubi _ _ _ => none
  | .vmuli _ _ _ => none
  | .vmulhSi _ _ _ => none
  | .vmulhZi _ _ _ => none
  | .vminSi _ _ _ => none
  | .vmaxSi _ _ _ => none
  | .vminZi _ _ _ => none
  | .vmaxZi _ _ _ => none
  | .vandi _ _ _ => none
  | .vori _ _ _ => none
  | .vxori _ _ _ => none
  | .vshli _ _ _ => none
  | .vshrZi _ _ _ => none
  | .vshrSi _ _ _ => none
  | .vandni _ _ _ => none
  | .vfadd _ _ _ _ => none
  | .vfsub _ _ _ _ => none
  | .vfmul _ _ _ _ => none
  | .vfmac _ _ _ _ => none
  | .vfnmac _ _ _ _ => none
  | .vfmin _ _ _ _ => none
  | .vfmax _ _ _ _ => none
  | .vfabs _ _ _ => none
  | .vfneg _ _ _ => none
  | .vfcopys _ _ _ _ => none
  | .vfrcp _ _ _ => none
  | .vfrsq _ _ _ => none
  | .vfsqrt _ _ _ => none
  | .vfexp2 _ _ _ => none
  | .vflog2 _ _ _ => none
  | .vfround _ _ b _ => small (decide (b.toNat ≤ 3))
  | .vcmpEq p _ _ _ => register (p != 0#3)
  | .vcmpNe p _ _ _ => register (p != 0#3)
  | .vcmpLtS p _ _ _ => register (p != 0#3)
  | .vcmpLeS p _ _ _ => register (p != 0#3)
  | .vcmpGtS p _ _ _ => register (p != 0#3)
  | .vcmpGeS p _ _ _ => register (p != 0#3)
  | .vcmpLtZ p _ _ _ => register (p != 0#3)
  | .vcmpLeZ p _ _ _ => register (p != 0#3)
  | .vcmpFeq p _ _ _ => register (p != 0#3)
  | .vcmpFne p _ _ _ => register (p != 0#3)
  | .vcmpFlt p _ _ _ => register (p != 0#3)
  | .vcmpFle p _ _ _ => register (p != 0#3)
  | .vcmpFgt p _ _ _ => register (p != 0#3)
  | .vcmpFge p _ _ _ => register (p != 0#3)
  | .vcmpFuno p _ _ _ => register (p != 0#3)
  | .vcmpFord p _ _ _ => register (p != 0#3)
  | .cvtF32S32 _ _ _ => none
  | .cvtF32Z32 _ _ _ => none
  | .cvtS32F32 _ _ _ => none
  | .cvtZ32F32 _ _ _ => none
  | .cvtF16x2F32 _ _ _ _ => none
  | .cvtF32F16lo _ _ _ => none
  | .cvtF32F16hi _ _ _ => none
  | .cvtBf16x2F32 _ _ _ _ => none
  | .cvtF32Bf16lo _ _ _ => none
  | .cvtF32Bf16hi _ _ _ => none
  | .cvtE4m3F32 _ _ n _ => small (decide (n.toNat ≤ 3))
  | .cvtE5m2F32 _ _ n _ => small (decide (n.toNat ≤ 3))
  | .cvtLns6F32 _ _ n _ => small (decide (n.toNat ≤ 3))
  | .cvtF32E4m3 _ _ n _ => small (decide (n.toNat ≤ 3))
  | .cvtF32E5m2 _ _ n _ => small (decide (n.toNat ≤ 3))
  | .cvtF32Lns6 _ _ n _ => small (decide (n.toNat ≤ 3))
  | .vsel _ _ _ _ => none
  | .vperm _ _ _ _ => none
  | .vshflUp _ _ n _ => small (decide (n.toNat ≤ 31))
  | .vshflDn _ _ n _ => small (decide (n.toNat ≤ 31))
  | .vshflX _ _ n _ => small (decide (n.toNat ≤ 31))
  | .vpopc _ _ _ => none
  | .vclz _ _ _ => none
  | .vbrev _ _ _ => none
  | .vlaneid _ _ => none
  | .vbcast _ _ n _ => small (decide (n.toNat ≤ 31))
  | .vmovs _ _ _ => none
  | .ballot p _ _ => register (p != 0#3)
  | .pmovFromScalar d _ => register (d != 0#3)
  | .pmovToScalar _ _ => none
  | .pand d _ _ => register (d != 0#3)
  | .por d _ _ => register (d != 0#3)
  | .pnot d _ => register (d != 0#3)
  | .redAdd _ _ _ => none
  | .redFadd _ _ _ => none
  | .redMinS _ _ _ => none
  | .redMaxS _ _ _ => none
  | .redFmin _ _ _ => none
  | .redFmax _ _ _ => none
  | .redAnd _ _ _ => none
  | .redOr _ _ _ => none
  | .scanAdd _ _ _ => none
  | .scanFadd _ _ _ => none
  | .redFadd2 d _ _ => register (d.toNat % 2 == 0)
  | .sadd _ _ _ => none
  | .ssub _ _ _ => none
  | .smul _ _ _ => none
  | .smulhS _ _ _ => none
  | .sdivS _ _ _ => none
  | .sdivZ _ _ _ => none
  | .sand _ _ _ => none
  | .sor _ _ _ => none
  | .sxor _ _ _ => none
  | .sshl _ _ _ => none
  | .sshrZ _ _ _ => none
  | .sshrS _ _ _ => none
  | .sminS _ _ _ => none
  | .smaxS _ _ _ => none
  | .seq _ _ _ => none
  | .sltS _ _ _ => none
  | .sltZ _ _ _ => none
  | .saddi _ _ _ => none
  | .sins _ _ _ => none
  | .aadd _ _ _ => none
  | .asub _ _ _ => none
  | .amov _ _ => none
  | .aset _ _ => none
  | .aget _ _ n => small (decide (n.toNat ≤ 1))
  | .ahi _ _ _ => none
  | .acmp _ _ _ => none
  | .vmovsLo _ _ n _ => small (decide (n.toNat ≤ 31))
  | .vmovsHi _ _ n _ => small (decide (n.toNat ≤ 31))
  | .smovv _ _ n => small (decide (n.toNat ≤ 31))
  | .vadds _ _ _ _ => none
  | .vmuls _ _ _ _ => none
  | .vfadds _ _ _ _ => none
  | .vfmuls _ _ _ _ => none
  | .wfld _ f => small (decide (f.toNat ≤ 5))
  | .wfs _ => none
  | .visit _ => none
  | .emget _ => none
  | .emput _ => none
  | .emand _ _ => none
  | .emor _ _ => none
  | .rdtime _ => none
  | .rdcnt _ => none
  | .pcount _ => none
  | .fcrget _ => none
  | .fcrput _ => none
  | .lpget _ k => small (decide (k.toNat ≤ 15))
  | .rdenergy _ => none
  | .rdgang _ => none
  | .rdcore _ => none
  | .br _ => none
  | .brAny _ _ => none
  | .brAll _ _ => none
  | .brNone _ _ => none
  | .jal _ _ => none
  | .jr _ => none
  | .jalr _ _ => none
  | .loop _ _ _ e => small (decide (2 ≤ e.toNat))
  | .lbrk _ => none
  | .wait _ _ _ _ => none
  | .bar => none
  | .barCl => none
  | .barrierRelease _ _ => none
  | .commit => none
  | .commitWriteOut _ => none
  | .halt => none
  | .flockEnd _ => none
  | .yield => none
  | .nop => none
  | .sleep _ => none
  | .sleepTimerExpiry _ => none
  | .trap _ => none
  | .sys _ => none
  | .eret => none
  | .brk _ => none
  | .ldB8Z _ _ _ _ => none
  | .ldB8S _ _ _ _ => none
  | .ldB16Z _ _ _ _ => none
  | .ldB16S _ _ _ _ => none
  | .ldB32 _ _ _ _ => none
  | .ldB64 d _ _ _ => register (d.toNat % 2 == 0)
  | .ldB128 d _ _ _ => register (d.toNat % 4 == 0)
  | .ldE _ _ _ _ => none
  | .ldEI _ _ _ _ => none
  | .ldUn _ _ _ => none
  | .ldNc _ _ _ _ => none
  | .ldAcq _ _ _ s => small (scopeOk s)
  | .stB8 _ _ _ _ => none
  | .stB16 _ _ _ _ => none
  | .stB32 _ _ _ _ => none
  | .stB64 d _ _ _ => register (d.toNat % 2 == 0)
  | .stB128 d _ _ _ => register (d.toNat % 4 == 0)
  | .stE _ _ _ _ => none
  | .stEI _ _ _ _ => none
  | .stRel _ _ _ s => small (scopeOk s)
  | .stB4 _ _ _ _ => none
  | .stB1 _ _ _ _ => none
  | .ldsB64 _ _ _ => none
  | .ldsB32 _ _ _ => none
  | .stsB64 _ _ _ => none
  | .stsB32 _ _ _ => none
  | .lda _ _ _ => none
  | .sta _ _ _ => none
  | .ldsAcq _ _ s => small (scopeOk s)
  | .stsRel _ _ s => small (scopeOk s)
  | .lspB32 _ _ _ _ => none
  | .lspB64 _ _ _ => none
  | .lspB128 _ _ _ => none
  | .sspB32 _ _ _ _ => none
  | .sspB64 _ _ _ => none
  | .sspB128 _ _ _ => none
  | .atomAdd _ _ _ s _ => small (scopeOk s)
  | .atomFadd _ _ _ s _ => small (scopeOk s)
  | .atomMinS _ _ _ s _ => small (scopeOk s)
  | .atomMaxS _ _ _ s _ => small (scopeOk s)
  | .atomMinZ _ _ _ s _ => small (scopeOk s)
  | .atomMaxZ _ _ _ s _ => small (scopeOk s)
  | .atomAnd _ _ _ s _ => small (scopeOk s)
  | .atomOr _ _ _ s _ => small (scopeOk s)
  | .atomXor _ _ _ s _ => small (scopeOk s)
  | .atomXchg _ _ _ s _ => small (scopeOk s)
  | .atomCas d _ _ s _ => first (small (scopeOk s)) (register (d.toNat % 2 == 0))
  | .atomAdd64 d _ _ s _ => first (small (scopeOk s)) (register (d.toNat % 2 == 0))
  | .atomCas64 d _ _ s _ => first (small (scopeOk s)) (register (d.toNat % 4 == 0))
  | .atomInc _ _ _ s _ => small (scopeOk s)
  | .redMemAdd _ _ _ s _ => small (scopeOk s)
  | .redMemFadd _ _ _ s _ => small (scopeOk s)
  | .fence s o => small (scopeOk s && o != 0#2)
  | .mon _ _ => none
  | .mwait => none
  | .mwaitWake _ => none
  | .cflush _ _ _ => none
  | .cinv _ _ _ => none
  | .ifence => none
  | .dtens _ => none
  | .ttag _ => none
  | .pref n _ _ _ => small (decide (n.toNat ≤ 1))
  | .tdset _ _ _ _ => none
  | .tdoff _ _ b k => first (unused (k != 1#6 || b == 0#5)) (small (decide (k.toNat ≤ 1)))
  | .tdpl _ v p => first (small (decide (p.toNat % 32 ≤ 15))) (register (decide (v.toNat + p.toNat % 32 ≤ 31)))
  | .tdget _ _ k => small (decide (k.toNat ≤ 6))
  | .tload _ => none
  | .tloadT _ => none
  | .tloadSp _ => none
  | .tloadRaw _ => none
  | .tileLoadComplete _ => none
  | .tstore _ _ => none
  | .tstoreT _ _ => none
  | .tstorePair _ _ => none
  | .tstoreAdd _ _ => none
  | .tileStoreComplete _ => none
  | .mma _ _ _ _ _ _ _ => none
  | .mmxXor _ _ _ _ _ => none
  | .mmxAnd _ _ _ _ _ => none
  | .mms _ _ _ _ _ _ _ => none
  | .mml _ _ _ _ _ _ _ => none
  | .mmaQ _ _ _ _ _ _ _ => none
  | .mmxXorQ _ _ _ _ _ => none
  | .mmxAndQ _ _ _ _ _ => none
  | .mmsQ _ _ _ _ _ _ _ => none
  | .mmlQ _ _ _ _ _ _ _ => none
  | .tileOperationComplete _ => none
  | .tfence => none
  | .accz _ => none
  | .accrd _ _ _ f => small (decide (f.toNat ≤ 4))
  | .accrdp _ _ _ _ => none
  | .accwr _ _ _ p => small (p != 3#2)
  | .accneg _ => none
  | .copyMm _ _ _ _ _ => none
  | .copyMs _ _ _ _ _ => none
  | .copyMb _ _ _ _ _ => none
  | .copyMl _ _ _ _ _ => none
  | .copyMt _ _ _ _ _ => none
  | .copySm _ _ _ _ _ => none
  | .copyBg _ _ _ _ _ => none
  | .copyPut _ _ _ _ _ => none
  | .copyGet _ _ _ _ _ => none
  | .copyChunkSend _ => none
  | .engineTroughReserve _ => none
  | .chunkIngress _ _ => none
  | .copyStampWrite _ => none
  | .tgset _ _ _ => none
  | .tgresv _ _ => none
  | .tgpost _ _ => none
  | .tgtake _ _ => none
  | .tgfree _ _ => none
  | .tgstat _ _ => none
  | .tgclose _ => none
  | .give _ _ _ => none
  | .bwait _ _ => none
  | .bstat _ _ => none
  | .bdrain _ => none
  | .bzero _ => none
  | .bmap _ _ => none
  | .bunmap _ => none
  | .lease _ _ _ t => small (decide (t.toNat ≤ 30))
  | .unlease _ => none
  | .lrenew _ _ t => small (decide (t.toNat ≤ 30))
  | .lstat _ _ => none
  | .leaseExpiry _ _ => none
  | .estInit => none
  | .estAdd _ => none
  | .estAddw _ _ => none
  | .estClose => none
  | .estRead _ _ => none
  | .estWait _ _ _ => none
  | .mergeVisit _ => none
  | .launch _ _ => none
  | .depDec _ => none
  | .depAdd _ _ => none
  | .cancel _ _ => none
  | .lnstat _ _ => none
  | .gang _ _ _ => none
  | .snap _ _ => none
  | .faultDone _ _ => none
  | .collPut _ => none
  | .collRed _ => none
  | .welt _ _ _ => none
  | .wchk _ _ _ => none
  | .cstat _ k => small (decide (k.toNat ≤ 1))
  | .rng _ => none
  | .rngF _ => none
  | .rngkey _ => none
  | .aestr _ _ => none
  | .qpop _ _ => none
  | .qstat _ _ => none
  | .aestop _ => none
  | .streamFetch _ _ => none
  | .sget _ n => small (decide (n.toNat ≤ 23))
  | .sset _ n => first (unused (sysWritable n || decide (23 < n.toNat))) (small (decide (n.toNat ≤ 23)))
  | .tlbinv _ _ _ => none
  | .tlbinvc _ _ => none
  | .boost _ _ => none
  | .wake _ => none
  | .fabort _ => none
  | .compactMov d a g => if d = 0 ∧ a = 0 ∧ g = 0 then some 0x01#8 else none
  | .compactAdd _ _ _ => none
  | .compactSub _ _ _ => none
  | .compactMul _ _ _ => none
  | .compactAnd _ _ _ => none
  | .compactOr _ _ _ => none
  | .compactXor _ _ _ => none
  | .compactShl _ _ _ => none
  | .compactShrZ _ _ _ => none
  | .compactShrS _ _ _ => none
  | .compactFadd _ _ _ => none
  | .compactFsub _ _ _ => none
  | .compactFmul _ _ _ => none
  | .compactFmin _ _ _ => none
  | .compactFmax _ _ _ => none
  | .compactFabs _ _ _ => none
  | .illegalInstruction _ _ => none
  | .fetchFault _ => none
  | .loadComplete _ => none
  | .storeComplete _ => none
  | .deferredFaultDelivery _ => none
  | .blockingConditionMet _ => none
  | .launchReady _ => none
  | .foldPlacement _ => none
  | .foldStart _ => none
  | .donation _ _ _ => none
  | .foldEnd _ => none
  | .launchRetirement _ => none
  | .parkedFoldRedispatch _ _ _ => none
  | .admitContext _ => none
  | .preEmpt _ => none
  | .resume _ => none
  | .kill _ => none
  | .routineTimeout _ => none
  | .gangAckReceive _ _ _ _ _ => none
  | .gangDecision _ => none
  | .timeBaseSync _ => none
  | .timeDivisionSlot => none
  | .tokenRefill _ _ _ => none
  | .currentEmergency _ _ => none
  | .passCountLower _ => none
  | .boostLeaseExpiry _ => none
  | .coreWake _ _ => none
  | .energyCopyRefresh _ => none
  | .supplyLossWarning => none
  | .coldReset _ _ => none
  | .sealBoot => none
  | .extendM3 => none
  | .report => none
  | .checkpointMarkerCopy => none
  | .registerWrite _ _ => none
  | .hostAccess _ _ _ => none
  | .remoteRequest _ _ _ _ => none
  | .remoteAccessRefusal _ _ _ _ => none
  | .remoteAccessTimeout _ _ _ _ => none
  | .switchCombine _ _ => none
  | .switchCombineTimeout _ => none
  | .snapshotArm => none
  | .snapshotLineCopy _ => none
  | .snapshotStamp => none
  | .remoteLineWriteBack _ => none
  | .uncorrectableSoftError _ => none

/-- An instruction whose fields all hold values the encoding admits. -/
def Instr.wf (i : Instr) : Bool := i.check == none

end Sys2Proof
end

