-- ==== Sys2Proof/Decode.lean ====
section
/-!
DEFINITION. The decoder, total on any bits, rejecting by the cause of R111, and the encoder. Both are written from the
formats of R101 and R103, the opcode map of R106 and the field uses of the instruction chapters. A field that an
instruction does not use must be zero (R107); the other checks are `Instr.check`. The decoder is marked noncomputable
because the compiler of Lean cannot build a constructor numbered above 244; the kernel evaluates it all the same.
-/
namespace Sys2Proof

/-- What the decoder finds: an instruction, or a pattern that is none, with the cause of R111. -/
inductive Dec where
  | ok (i : Instr)
  | illegal (cause : BitVec 8)
  deriving DecidableEq, Repr

/-- The instruction, unless a field it does not use is non-zero (cause 0x04, R107) or a check of R111 fails. -/
def chk (unused : Bool) (i : Instr) : Dec :=
  if unused then .illegal 0x04#8 else match i.check with | some c => .illegal c | none => .ok i

/-- As `chk`, for a function whose mnemonic fixes its order code (R105): another code is cause 0x08. -/
def need (order : Bool) (unused : Bool) (i : Instr) : Dec :=
  if unused then .illegal 0x04#8 else if order then chk false i else .illegal 0x08#8

/-- As `chk`, for a flock-wide matrix form: its first tile is a multiple of 4 (R95, R106), else cause 0x05. -/
def group (aligned : Bool) (unused : Bool) (i : Instr) : Dec :=
  if unused then .illegal 0x04#8 else if aligned then chk false i else .illegal 0x05#8

/-- A word of the V3 format (R103). -/
def encV3 (major : BitVec 6) (fn : BitVec 4) (g : BitVec 3) (b : BitVec 6) (a : BitVec 6) (d : BitVec 6) : BitVec 32 :=
  fn ++ g ++ b ++ a ++ d ++ major ++ 1#1

/-- A word of the VI format (R103). -/
def encVI (major : BitVec 6) (fn : BitVec 4) (i : BitVec 9) (a : BitVec 6) (d : BitVec 6) : BitVec 32 :=
  fn ++ i ++ a ++ d ++ major ++ 1#1

/-- A word of the S format (R103). -/
def encS (major : BitVec 6) (z : BitVec 4) (fn : BitVec 6) (sb : BitVec 5) (sa : BitVec 5) (sd : BitVec 5) : BitVec 32 :=
  z ++ fn ++ sb ++ sa ++ sd ++ major ++ 1#1

/-- A word of the SI format (R103). -/
def encSI (major : BitVec 6) (i : BitVec 15) (sa : BitVec 5) (sd : BitVec 5) : BitVec 32 :=
  i ++ sa ++ sd ++ major ++ 1#1

/-- A word of the M format (R103). -/
def encM (major : BitVec 6) (fn : BitVec 4) (i : BitVec 5) (v : BitVec 6) (a : BitVec 4) (d : BitVec 6) : BitVec 32 :=
  fn ++ i ++ v ++ a ++ d ++ major ++ 1#1

/-- A word of the B format (R103). -/
def encB (major : BitVec 6) (o : BitVec 20) (cond : BitVec 2) (p : BitVec 3) : BitVec 32 :=
  o ++ cond ++ p ++ major ++ 1#1

/-- A word of the J format (R103). -/
def encJ (major : BitVec 6) (o : BitVec 20) (sd : BitVec 5) : BitVec 32 :=
  o ++ sd ++ major ++ 1#1

/-- A word of the L format (R103). -/
def encL (major : BitVec 6) (e : BitVec 17) (im : BitVec 1) (c : BitVec 5) (l : BitVec 2) : BitVec 32 :=
  e ++ im ++ c ++ l ++ major ++ 1#1

/-- A word of the W format (R103). -/
def encW (major : BitVec 6) (z : BitVec 7) (t : BitVec 4) (c : BitVec 4) (s : BitVec 5) (l : BitVec 5) : BitVec 32 :=
  z ++ t ++ c ++ s ++ l ++ major ++ 1#1

/-- A word of the T format (R103). -/
def encT (major : BitVec 6) (mode : BitVec 5) (g : BitVec 3) (z : BitVec 1) (n : BitVec 1) (m : BitVec 1) (b : BitVec 4) (a : BitVec 4) (acc : BitVec 6) : BitVec 32 :=
  mode ++ g ++ z ++ n ++ m ++ b ++ a ++ acc ++ major ++ 1#1

/-- A word of the E format (R103). -/
def encE (major : BitVec 6) (i : BitVec 6) (s3 : BitVec 5) (s2 : BitVec 5) (s1 : BitVec 5) (fn : BitVec 4) : BitVec 32 :=
  i ++ s3 ++ s2 ++ s1 ++ fn ++ major ++ 1#1

/-- A halfword of the compact format (R101). -/
def encC (g : BitVec 1) (a d : BitVec 5) (op : BitVec 4) : BitVec 16 := g ++ a ++ d ++ op ++ 0#1

/-- Major 0x01, V3 format (R103, R106). -/
noncomputable def dec01 (fn : BitVec 4) (g : BitVec 3) (b : BitVec 6) (a : BitVec 6) (d : BitVec 6) : Dec :=
  match fn.toNat with
    | 0 => chk (false) (.vadd d a b g)
    | 1 => chk (false) (.vsub d a b g)
    | 2 => chk (false) (.vmul d a b g)
    | 3 => chk (false) (.vmulhS d a b g)
    | 4 => chk (false) (.vmulhZ d a b g)
    | 5 => chk (false) (.vminS d a b g)
    | 6 => chk (false) (.vmaxS d a b g)
    | 7 => chk (false) (.vminZ d a b g)
    | 8 => chk (false) (.vmaxZ d a b g)
    | 9 => chk (false) (.vand d a b g)
    | 10 => chk (false) (.vor d a b g)
    | 11 => chk (false) (.vxor d a b g)
    | 12 => chk (false) (.vshl d a b g)
    | 13 => chk (false) (.vshrZ d a b g)
    | 14 => chk (false) (.vshrS d a b g)
    | 15 => chk (false) (.vandn d a b g)
    | _ => .illegal 0x03#8

/-- Major 0x02, VI format (R103, R106). -/
noncomputable def dec02 (fn : BitVec 4) (i : BitVec 9) (a : BitVec 6) (d : BitVec 6) : Dec :=
  match fn.toNat with
    | 0 => chk (false) (.vaddi d a i)
    | 1 => chk (false) (.vsubi d a i)
    | 2 => chk (false) (.vmuli d a i)
    | 3 => chk (false) (.vmulhSi d a i)
    | 4 => chk (false) (.vmulhZi d a i)
    | 5 => chk (false) (.vminSi d a i)
    | 6 => chk (false) (.vmaxSi d a i)
    | 7 => chk (false) (.vminZi d a i)
    | 8 => chk (false) (.vmaxZi d a i)
    | 9 => chk (false) (.vandi d a i)
    | 10 => chk (false) (.vori d a i)
    | 11 => chk (false) (.vxori d a i)
    | 12 => chk (false) (.vshli d a i)
    | 13 => chk (false) (.vshrZi d a i)
    | 14 => chk (false) (.vshrSi d a i)
    | 15 => chk (false) (.vandni d a i)
    | _ => .illegal 0x03#8

/-- Major 0x03, V3 format (R103, R106). -/
noncomputable def dec03 (fn : BitVec 4) (g : BitVec 3) (b : BitVec 6) (a : BitVec 6) (d : BitVec 6) : Dec :=
  match fn.toNat with
    | 0 => chk (false) (.vfadd d a b g)
    | 1 => chk (false) (.vfsub d a b g)
    | 2 => chk (false) (.vfmul d a b g)
    | 3 => chk (false) (.vfmac d a b g)
    | 4 => chk (false) (.vfnmac d a b g)
    | 5 => chk (false) (.vfmin d a b g)
    | 6 => chk (false) (.vfmax d a b g)
    | 7 => chk (b ≠ 0) (.vfabs d a g)
    | 8 => chk (b ≠ 0) (.vfneg d a g)
    | 9 => chk (false) (.vfcopys d a b g)
    | 10 => chk (b ≠ 0) (.vfrcp d a g)
    | 11 => chk (b ≠ 0) (.vfrsq d a g)
    | 12 => chk (b ≠ 0) (.vfsqrt d a g)
    | 13 => chk (b ≠ 0) (.vfexp2 d a g)
    | 14 => chk (b ≠ 0) (.vflog2 d a g)
    | 15 => chk (false) (.vfround d a b g)
    | _ => .illegal 0x03#8

/-- Major 0x04, V3 format (R103, R106). -/
noncomputable def dec04 (fn : BitVec 4) (g : BitVec 3) (b : BitVec 6) (a : BitVec 6) (d : BitVec 6) : Dec :=
  match fn.toNat with
    | 0 => chk (d.extractLsb' 3 3 ≠ 0) (.vcmpEq (d.extractLsb' 0 3) a b g)
    | 1 => chk (d.extractLsb' 3 3 ≠ 0) (.vcmpNe (d.extractLsb' 0 3) a b g)
    | 2 => chk (d.extractLsb' 3 3 ≠ 0) (.vcmpLtS (d.extractLsb' 0 3) a b g)
    | 3 => chk (d.extractLsb' 3 3 ≠ 0) (.vcmpLeS (d.extractLsb' 0 3) a b g)
    | 4 => chk (d.extractLsb' 3 3 ≠ 0) (.vcmpGtS (d.extractLsb' 0 3) a b g)
    | 5 => chk (d.extractLsb' 3 3 ≠ 0) (.vcmpGeS (d.extractLsb' 0 3) a b g)
    | 6 => chk (d.extractLsb' 3 3 ≠ 0) (.vcmpLtZ (d.extractLsb' 0 3) a b g)
    | 7 => chk (d.extractLsb' 3 3 ≠ 0) (.vcmpLeZ (d.extractLsb' 0 3) a b g)
    | 8 => chk (d.extractLsb' 3 3 ≠ 0) (.vcmpFeq (d.extractLsb' 0 3) a b g)
    | 9 => chk (d.extractLsb' 3 3 ≠ 0) (.vcmpFne (d.extractLsb' 0 3) a b g)
    | 10 => chk (d.extractLsb' 3 3 ≠ 0) (.vcmpFlt (d.extractLsb' 0 3) a b g)
    | 11 => chk (d.extractLsb' 3 3 ≠ 0) (.vcmpFle (d.extractLsb' 0 3) a b g)
    | 12 => chk (d.extractLsb' 3 3 ≠ 0) (.vcmpFgt (d.extractLsb' 0 3) a b g)
    | 13 => chk (d.extractLsb' 3 3 ≠ 0) (.vcmpFge (d.extractLsb' 0 3) a b g)
    | 14 => chk (d.extractLsb' 3 3 ≠ 0) (.vcmpFuno (d.extractLsb' 0 3) a b g)
    | 15 => chk (d.extractLsb' 3 3 ≠ 0) (.vcmpFord (d.extractLsb' 0 3) a b g)
    | _ => .illegal 0x03#8

/-- Major 0x05, V3 format (R103, R106). -/
noncomputable def dec05 (fn : BitVec 4) (g : BitVec 3) (b : BitVec 6) (a : BitVec 6) (d : BitVec 6) : Dec :=
  match fn.toNat with
    | 0 => chk (b ≠ 0) (.cvtF32S32 d a g)
    | 1 => chk (b ≠ 0) (.cvtF32Z32 d a g)
    | 2 => chk (b ≠ 0) (.cvtS32F32 d a g)
    | 3 => chk (b ≠ 0) (.cvtZ32F32 d a g)
    | 4 => chk (false) (.cvtF16x2F32 d a b g)
    | 5 => chk (b ≠ 0) (.cvtF32F16lo d a g)
    | 6 => chk (b ≠ 0) (.cvtF32F16hi d a g)
    | 7 => chk (false) (.cvtBf16x2F32 d a b g)
    | 8 => chk (b ≠ 0) (.cvtF32Bf16lo d a g)
    | 9 => chk (b ≠ 0) (.cvtF32Bf16hi d a g)
    | 10 => chk (false) (.cvtE4m3F32 d a b g)
    | 11 => chk (false) (.cvtE5m2F32 d a b g)
    | 12 => chk (false) (.cvtLns6F32 d a b g)
    | 13 => chk (false) (.cvtF32E4m3 d a b g)
    | 14 => chk (false) (.cvtF32E5m2 d a b g)
    | 15 => chk (false) (.cvtF32Lns6 d a b g)
    | _ => .illegal 0x03#8

/-- Major 0x06, V3 format (R103, R106). In `pmov` a field b of 2 or more leaves a and d without a register file: only its own cause and that of the
guard are reported (log entry 84). -/
noncomputable def dec06 (fn : BitVec 4) (g : BitVec 3) (b : BitVec 6) (a : BitVec 6) (d : BitVec 6) : Dec :=
  match fn.toNat with
    | 0 => chk (false) (.vsel d a b g)
    | 1 => chk (false) (.vperm d a b g)
    | 2 => chk (false) (.vshflUp d a b g)
    | 3 => chk (false) (.vshflDn d a b g)
    | 4 => chk (false) (.vshflX d a b g)
    | 5 => chk (b ≠ 0) (.vpopc d a g)
    | 6 => chk (b ≠ 0) (.vclz d a g)
    | 7 => chk (b ≠ 0) (.vbrev d a g)
    | 8 => chk (b ≠ 0 || a ≠ 0) (.vlaneid d g)
    | 9 => chk (false) (.vbcast d a b g)
    | 10 => chk (b ≠ 0 || a.extractLsb' 5 1 ≠ 0) (.vmovs d (a.extractLsb' 0 5) g)
    | 11 => chk (b ≠ 0 || d.extractLsb' 3 3 ≠ 0) (.ballot (d.extractLsb' 0 3) a g)
    | 12 =>
      if b = 0 then chk (a.extractLsb' 5 1 ≠ 0 || g ≠ 0 || d.extractLsb' 3 3 ≠ 0) (.pmovFromScalar (d.extractLsb' 0 3) (a.extractLsb' 0 5))
      else if b = 1 then chk (a.extractLsb' 3 3 ≠ 0 || g ≠ 0 || d.extractLsb' 5 1 ≠ 0) (.pmovToScalar (d.extractLsb' 0 5) (a.extractLsb' 0 3))
      else if g ≠ 0 then .illegal 0x04#8 else .illegal 0x08#8
    | 13 => chk (g ≠ 0 || b.extractLsb' 3 3 ≠ 0 || a.extractLsb' 3 3 ≠ 0 || d.extractLsb' 3 3 ≠ 0) (.pand (d.extractLsb' 0 3) (a.extractLsb' 0 3) (b.extractLsb' 0 3))
    | 14 => chk (g ≠ 0 || b.extractLsb' 3 3 ≠ 0 || a.extractLsb' 3 3 ≠ 0 || d.extractLsb' 3 3 ≠ 0) (.por (d.extractLsb' 0 3) (a.extractLsb' 0 3) (b.extractLsb' 0 3))
    | 15 => chk (g ≠ 0 || b ≠ 0 || a.extractLsb' 3 3 ≠ 0 || d.extractLsb' 3 3 ≠ 0) (.pnot (d.extractLsb' 0 3) (a.extractLsb' 0 3))
    | _ => .illegal 0x03#8

/-- Major 0x07, V3 format (R103, R106). -/
noncomputable def dec07 (fn : BitVec 4) (g : BitVec 3) (b : BitVec 6) (a : BitVec 6) (d : BitVec 6) : Dec :=
  match fn.toNat with
    | 0 => chk (b ≠ 0 || d.extractLsb' 5 1 ≠ 0) (.redAdd (d.extractLsb' 0 5) a g)
    | 1 => chk (b ≠ 0 || d.extractLsb' 5 1 ≠ 0) (.redFadd (d.extractLsb' 0 5) a g)
    | 2 => chk (b ≠ 0 || d.extractLsb' 5 1 ≠ 0) (.redMinS (d.extractLsb' 0 5) a g)
    | 3 => chk (b ≠ 0 || d.extractLsb' 5 1 ≠ 0) (.redMaxS (d.extractLsb' 0 5) a g)
    | 4 => chk (b ≠ 0 || d.extractLsb' 5 1 ≠ 0) (.redFmin (d.extractLsb' 0 5) a g)
    | 5 => chk (b ≠ 0 || d.extractLsb' 5 1 ≠ 0) (.redFmax (d.extractLsb' 0 5) a g)
    | 6 => chk (b ≠ 0 || d.extractLsb' 5 1 ≠ 0) (.redAnd (d.extractLsb' 0 5) a g)
    | 7 => chk (b ≠ 0 || d.extractLsb' 5 1 ≠ 0) (.redOr (d.extractLsb' 0 5) a g)
    | 8 => chk (b ≠ 0) (.scanAdd d a g)
    | 9 => chk (b ≠ 0) (.scanFadd d a g)
    | 10 => chk (b ≠ 0 || d.extractLsb' 5 1 ≠ 0) (.redFadd2 (d.extractLsb' 0 5) a g)
    | _ => .illegal 0x03#8

/-- Major 0x08, S format (R103, R106). -/
noncomputable def dec08 (z : BitVec 4) (fn : BitVec 6) (sb : BitVec 5) (sa : BitVec 5) (sd : BitVec 5) : Dec :=
  match fn.toNat with
    | 0 => chk (z ≠ 0) (.sadd sd sa sb)
    | 1 => chk (z ≠ 0) (.ssub sd sa sb)
    | 2 => chk (z ≠ 0) (.smul sd sa sb)
    | 3 => chk (z ≠ 0) (.smulhS sd sa sb)
    | 4 => chk (z ≠ 0) (.sdivS sd sa sb)
    | 5 => chk (z ≠ 0) (.sdivZ sd sa sb)
    | 6 => chk (z ≠ 0) (.sand sd sa sb)
    | 7 => chk (z ≠ 0) (.sor sd sa sb)
    | 8 => chk (z ≠ 0) (.sxor sd sa sb)
    | 9 => chk (z ≠ 0) (.sshl sd sa sb)
    | 10 => chk (z ≠ 0) (.sshrZ sd sa sb)
    | 11 => chk (z ≠ 0) (.sshrS sd sa sb)
    | 12 => chk (z ≠ 0) (.sminS sd sa sb)
    | 13 => chk (z ≠ 0) (.smaxS sd sa sb)
    | 14 => chk (z ≠ 0) (.seq sd sa sb)
    | 15 => chk (z ≠ 0) (.sltS sd sa sb)
    | 16 => chk (z ≠ 0) (.sltZ sd sa sb)
    | _ => .illegal 0x03#8

/-- Major 0x09, SI format (R103, R106). -/
noncomputable def dec09 (i : BitVec 15) (sa : BitVec 5) (sd : BitVec 5) : Dec :=
  chk (false) (.saddi sd sa i)

/-- Major 0x0A, SI format (R103, R106). -/
noncomputable def dec0A (i : BitVec 15) (sa : BitVec 5) (sd : BitVec 5) : Dec :=
  chk (false) (.sins sd sa i)

/-- Major 0x0B, S format (R103, R106). -/
noncomputable def dec0B (z : BitVec 4) (fn : BitVec 6) (sb : BitVec 5) (sa : BitVec 5) (sd : BitVec 5) : Dec :=
  match fn.toNat with
    | 0 => chk (z ≠ 0 || sa.extractLsb' 4 1 ≠ 0 || sd.extractLsb' 4 1 ≠ 0) (.aadd (sd.extractLsb' 0 4) (sa.extractLsb' 0 4) sb)
    | 1 => chk (z ≠ 0 || sa.extractLsb' 4 1 ≠ 0 || sd.extractLsb' 4 1 ≠ 0) (.asub (sd.extractLsb' 0 4) (sa.extractLsb' 0 4) sb)
    | 2 => chk (z ≠ 0 || sb ≠ 0 || sa.extractLsb' 4 1 ≠ 0 || sd.extractLsb' 4 1 ≠ 0) (.amov (sd.extractLsb' 0 4) (sa.extractLsb' 0 4))
    | 3 => chk (z ≠ 0 || sb ≠ 0 || sd.extractLsb' 4 1 ≠ 0) (.aset (sd.extractLsb' 0 4) sa)
    | 4 => chk (z ≠ 0 || sa.extractLsb' 4 1 ≠ 0) (.aget sd (sa.extractLsb' 0 4) sb)
    | 5 => chk (z ≠ 0 || sa.extractLsb' 4 1 ≠ 0 || sd.extractLsb' 4 1 ≠ 0) (.ahi (sd.extractLsb' 0 4) (sa.extractLsb' 0 4) sb)
    | 6 => chk (z ≠ 0 || sb.extractLsb' 4 1 ≠ 0 || sa.extractLsb' 4 1 ≠ 0) (.acmp sd (sa.extractLsb' 0 4) (sb.extractLsb' 0 4))
    | _ => .illegal 0x03#8

/-- Major 0x0C, V3 format (R103, R106). -/
noncomputable def dec0C (fn : BitVec 4) (g : BitVec 3) (b : BitVec 6) (a : BitVec 6) (d : BitVec 6) : Dec :=
  match fn.toNat with
    | 0 => chk (a.extractLsb' 5 1 ≠ 0) (.vmovsLo d (a.extractLsb' 0 5) b g)
    | 1 => chk (a.extractLsb' 5 1 ≠ 0) (.vmovsHi d (a.extractLsb' 0 5) b g)
    | 2 => chk (g ≠ 0 || d.extractLsb' 5 1 ≠ 0) (.smovv (d.extractLsb' 0 5) a b)
    | 3 => chk (b.extractLsb' 5 1 ≠ 0) (.vadds d a (b.extractLsb' 0 5) g)
    | 4 => chk (b.extractLsb' 5 1 ≠ 0) (.vmuls d a (b.extractLsb' 0 5) g)
    | 5 => chk (b.extractLsb' 5 1 ≠ 0) (.vfadds d a (b.extractLsb' 0 5) g)
    | 6 => chk (b.extractLsb' 5 1 ≠ 0) (.vfmuls d a (b.extractLsb' 0 5) g)
    | _ => .illegal 0x03#8

/-- Major 0x0D, VI format (R103, R106). -/
noncomputable def dec0D (fn : BitVec 4) (i : BitVec 9) (a : BitVec 6) (d : BitVec 6) : Dec :=
  match fn.toNat with
    | 0 => chk (a ≠ 0) (.wfld d i)
    | 1 => chk (i ≠ 0 || a ≠ 0 || d.extractLsb' 5 1 ≠ 0) (.wfs (d.extractLsb' 0 5))
    | 2 => chk (i ≠ 0 || a ≠ 0 || d.extractLsb' 5 1 ≠ 0) (.visit (d.extractLsb' 0 5))
    | 3 => chk (i ≠ 0 || a ≠ 0 || d.extractLsb' 5 1 ≠ 0) (.emget (d.extractLsb' 0 5))
    | 4 => chk (i ≠ 0 || a.extractLsb' 5 1 ≠ 0 || d ≠ 0) (.emput (a.extractLsb' 0 5))
    | 5 => chk (i ≠ 0 || a.extractLsb' 3 3 ≠ 0 || d.extractLsb' 5 1 ≠ 0) (.emand (d.extractLsb' 0 5) (a.extractLsb' 0 3))
    | 6 => chk (i ≠ 0 || a.extractLsb' 3 3 ≠ 0 || d.extractLsb' 5 1 ≠ 0) (.emor (d.extractLsb' 0 5) (a.extractLsb' 0 3))
    | 7 => chk (i ≠ 0 || a ≠ 0 || d.extractLsb' 5 1 ≠ 0) (.rdtime (d.extractLsb' 0 5))
    | 8 => chk (i ≠ 0 || a ≠ 0 || d.extractLsb' 5 1 ≠ 0) (.rdcnt (d.extractLsb' 0 5))
    | 9 => chk (i ≠ 0 || a ≠ 0 || d.extractLsb' 5 1 ≠ 0) (.pcount (d.extractLsb' 0 5))
    | 10 => chk (i ≠ 0 || a ≠ 0 || d.extractLsb' 5 1 ≠ 0) (.fcrget (d.extractLsb' 0 5))
    | 11 => chk (i ≠ 0 || a.extractLsb' 5 1 ≠ 0 || d ≠ 0) (.fcrput (a.extractLsb' 0 5))
    | 12 => chk (a ≠ 0 || d.extractLsb' 5 1 ≠ 0) (.lpget (d.extractLsb' 0 5) i)
    | 13 => chk (i ≠ 0 || a ≠ 0 || d.extractLsb' 5 1 ≠ 0) (.rdenergy (d.extractLsb' 0 5))
    | 14 => chk (i ≠ 0 || a ≠ 0 || d.extractLsb' 5 1 ≠ 0) (.rdgang (d.extractLsb' 0 5))
    | 15 => chk (i ≠ 0 || a ≠ 0 || d.extractLsb' 5 1 ≠ 0) (.rdcore (d.extractLsb' 0 5))
    | _ => .illegal 0x03#8

/-- Major 0x10, B format (R103, R106). -/
noncomputable def dec10 (o : BitVec 20) (cond : BitVec 2) (p : BitVec 3) : Dec :=
  match cond.toNat with
    | 0 => chk (p ≠ 0) (.br o)
    | 1 => chk (false) (.brAny p o)
    | 2 => chk (false) (.brAll p o)
    | 3 => chk (false) (.brNone p o)
    | _ => .illegal 0x03#8

/-- Major 0x11, J format (R103, R106). -/
noncomputable def dec11 (o : BitVec 20) (sd : BitVec 5) : Dec :=
  chk (false) (.jal sd o)

/-- Major 0x12, S format (R103, R106). -/
noncomputable def dec12 (z : BitVec 4) (fn : BitVec 6) (sb : BitVec 5) (sa : BitVec 5) (sd : BitVec 5) : Dec :=
  match fn.toNat with
    | 0 => chk (z ≠ 0 || sb ≠ 0 || sd ≠ 0) (.jr sa)
    | 1 => chk (z ≠ 0 || sb ≠ 0) (.jalr sd sa)
    | _ => .illegal 0x03#8

/-- Major 0x13, L format (R103, R106). -/
noncomputable def dec13 (e : BitVec 17) (im : BitVec 1) (c : BitVec 5) (l : BitVec 2) : Dec :=
  chk (false) (.loop l c im e)

/-- Major 0x14, L format (R103, R106). -/
noncomputable def dec14 (e : BitVec 17) (im : BitVec 1) (c : BitVec 5) (l : BitVec 2) : Dec :=
  chk (e ≠ 0 || im ≠ 0 || c ≠ 0) (.lbrk l)

/-- Major 0x15, W format (R103, R106). -/
noncomputable def dec15 (z : BitVec 7) (t : BitVec 4) (c : BitVec 4) (s : BitVec 5) (l : BitVec 5) : Dec :=
  chk (z ≠ 0) (.wait l s c t)

/-- Major 0x16, E format (R103, R106). -/
noncomputable def dec16 (i : BitVec 6) (s3 : BitVec 5) (s2 : BitVec 5) (s1 : BitVec 5) (fn : BitVec 4) : Dec :=
  match fn.toNat with
    | 0 => chk (i ≠ 0 || s3 ≠ 0 || s2 ≠ 0 || s1 ≠ 0) (.bar)
    | 1 => chk (i ≠ 0 || s3 ≠ 0 || s2 ≠ 0 || s1 ≠ 0) (.barCl)
    | 2 => chk (i ≠ 0 || s3 ≠ 0 || s2 ≠ 0 || s1 ≠ 0) (.commit)
    | 3 => chk (i ≠ 0 || s3 ≠ 0 || s2 ≠ 0 || s1 ≠ 0) (.halt)
    | 4 => chk (i ≠ 0 || s3 ≠ 0 || s2 ≠ 0 || s1 ≠ 0) (.yield)
    | 5 => chk (i ≠ 0 || s3 ≠ 0 || s2 ≠ 0 || s1 ≠ 0) (.nop)
    | 6 => chk (i ≠ 0 || s3 ≠ 0 || s2 ≠ 0) (.sleep s1)
    | _ => .illegal 0x03#8

/-- Major 0x17, E format (R103, R106). -/
noncomputable def dec17 (i : BitVec 6) (s3 : BitVec 5) (s2 : BitVec 5) (s1 : BitVec 5) (fn : BitVec 4) : Dec :=
  match fn.toNat with
    | 0 => chk (s3 ≠ 0 || s2 ≠ 0 || s1 ≠ 0) (.trap i)
    | 1 => chk (s3 ≠ 0 || s2 ≠ 0 || s1 ≠ 0) (.sys i)
    | 2 => chk (i ≠ 0 || s3 ≠ 0 || s2 ≠ 0 || s1 ≠ 0) (.eret)
    | 3 => chk (s3 ≠ 0 || s2 ≠ 0 || s1 ≠ 0) (.brk i)
    | _ => .illegal 0x03#8

/-- Major 0x18, M format (R103, R106). -/
noncomputable def dec18 (fn : BitVec 4) (i : BitVec 5) (v : BitVec 6) (a : BitVec 4) (d : BitVec 6) : Dec :=
  match fn.toNat with
    | 0 => chk (false) (.ldB8Z d a v i)
    | 1 => chk (false) (.ldB8S d a v i)
    | 2 => chk (false) (.ldB16Z d a v i)
    | 3 => chk (false) (.ldB16S d a v i)
    | 4 => chk (false) (.ldB32 d a v i)
    | 5 => chk (false) (.ldB64 d a v i)
    | 6 => chk (false) (.ldB128 d a v i)
    | 7 => chk (false) (.ldE d a v i)
    | 8 => chk (false) (.ldEI d a v i)
    | 9 => chk (v ≠ 0) (.ldUn d a i)
    | 10 => chk (false) (.ldNc d a v i)
    | 11 => need (i.extractLsb' 3 2 = 1#2) (false) (.ldAcq d a v (i.extractLsb' 0 3))
    | _ => .illegal 0x03#8

/-- Major 0x19, M format (R103, R106). -/
noncomputable def dec19 (fn : BitVec 4) (i : BitVec 5) (v : BitVec 6) (a : BitVec 4) (d : BitVec 6) : Dec :=
  match fn.toNat with
    | 0 => chk (false) (.stB8 d a v i)
    | 1 => chk (false) (.stB16 d a v i)
    | 2 => chk (false) (.stB32 d a v i)
    | 3 => chk (false) (.stB64 d a v i)
    | 4 => chk (false) (.stB128 d a v i)
    | 5 => chk (false) (.stE d a v i)
    | 6 => chk (false) (.stEI d a v i)
    | 7 => need (i.extractLsb' 3 2 = 2#2) (false) (.stRel d a v (i.extractLsb' 0 3))
    | 8 => chk (false) (.stB4 d a v i)
    | 9 => chk (false) (.stB1 d a v i)
    | _ => .illegal 0x03#8

/-- Major 0x1A, M format (R103, R106). -/
noncomputable def dec1A (fn : BitVec 4) (i : BitVec 5) (v : BitVec 6) (a : BitVec 4) (d : BitVec 6) : Dec :=
  match fn.toNat with
    | 0 => chk (v ≠ 0 || d.extractLsb' 5 1 ≠ 0) (.ldsB64 (d.extractLsb' 0 5) a i)
    | 1 => chk (v ≠ 0 || d.extractLsb' 5 1 ≠ 0) (.ldsB32 (d.extractLsb' 0 5) a i)
    | 2 => chk (v ≠ 0 || d.extractLsb' 5 1 ≠ 0) (.stsB64 (d.extractLsb' 0 5) a i)
    | 3 => chk (v ≠ 0 || d.extractLsb' 5 1 ≠ 0) (.stsB32 (d.extractLsb' 0 5) a i)
    | 4 => chk (v ≠ 0 || d.extractLsb' 4 2 ≠ 0) (.lda (d.extractLsb' 0 4) a i)
    | 5 => chk (v ≠ 0 || d.extractLsb' 4 2 ≠ 0) (.sta (d.extractLsb' 0 4) a i)
    | 6 => need (i.extractLsb' 3 2 = 1#2) (v ≠ 0 || d.extractLsb' 5 1 ≠ 0) (.ldsAcq (d.extractLsb' 0 5) a (i.extractLsb' 0 3))
    | 7 => need (i.extractLsb' 3 2 = 2#2) (v ≠ 0 || d.extractLsb' 5 1 ≠ 0) (.stsRel (d.extractLsb' 0 5) a (i.extractLsb' 0 3))
    | _ => .illegal 0x03#8

/-- Major 0x1B, M format (R103, R106). -/
noncomputable def dec1B (fn : BitVec 4) (i : BitVec 5) (v : BitVec 6) (a : BitVec 4) (d : BitVec 6) : Dec :=
  match fn.toNat with
    | 0 => chk (false) (.lspB32 d a v i)
    | 1 => chk (v ≠ 0 || d.extractLsb' 5 1 ≠ 0) (.lspB64 (d.extractLsb' 0 5) a i)
    | 2 => chk (v ≠ 0 || d.extractLsb' 4 2 ≠ 0) (.lspB128 (d.extractLsb' 0 4) a i)
    | 3 => chk (false) (.sspB32 d a v i)
    | 4 => chk (v ≠ 0 || d.extractLsb' 5 1 ≠ 0) (.sspB64 (d.extractLsb' 0 5) a i)
    | 5 => chk (v ≠ 0 || d.extractLsb' 4 2 ≠ 0) (.sspB128 (d.extractLsb' 0 4) a i)
    | _ => .illegal 0x03#8

/-- Major 0x1C, M format (R103, R106). -/
noncomputable def dec1C (fn : BitVec 4) (i : BitVec 5) (v : BitVec 6) (a : BitVec 4) (d : BitVec 6) : Dec :=
  match fn.toNat with
    | 0 => chk (false) (.atomAdd d a v (i.extractLsb' 0 3) (i.extractLsb' 3 2))
    | 1 => chk (false) (.atomFadd d a v (i.extractLsb' 0 3) (i.extractLsb' 3 2))
    | 2 => chk (false) (.atomMinS d a v (i.extractLsb' 0 3) (i.extractLsb' 3 2))
    | 3 => chk (false) (.atomMaxS d a v (i.extractLsb' 0 3) (i.extractLsb' 3 2))
    | 4 => chk (false) (.atomMinZ d a v (i.extractLsb' 0 3) (i.extractLsb' 3 2))
    | 5 => chk (false) (.atomMaxZ d a v (i.extractLsb' 0 3) (i.extractLsb' 3 2))
    | 6 => chk (false) (.atomAnd d a v (i.extractLsb' 0 3) (i.extractLsb' 3 2))
    | 7 => chk (false) (.atomOr d a v (i.extractLsb' 0 3) (i.extractLsb' 3 2))
    | 8 => chk (false) (.atomXor d a v (i.extractLsb' 0 3) (i.extractLsb' 3 2))
    | 9 => chk (false) (.atomXchg d a v (i.extractLsb' 0 3) (i.extractLsb' 3 2))
    | 10 => chk (false) (.atomCas d a v (i.extractLsb' 0 3) (i.extractLsb' 3 2))
    | 11 => chk (false) (.atomAdd64 d a v (i.extractLsb' 0 3) (i.extractLsb' 3 2))
    | 12 => chk (false) (.atomCas64 d a v (i.extractLsb' 0 3) (i.extractLsb' 3 2))
    | 13 => chk (false) (.atomInc d a v (i.extractLsb' 0 3) (i.extractLsb' 3 2))
    | 14 => chk (false) (.redMemAdd d a v (i.extractLsb' 0 3) (i.extractLsb' 3 2))
    | 15 => chk (false) (.redMemFadd d a v (i.extractLsb' 0 3) (i.extractLsb' 3 2))
    | _ => .illegal 0x03#8

/-- Major 0x1D, M format (R103, R106). -/
noncomputable def dec1D (fn : BitVec 4) (i : BitVec 5) (v : BitVec 6) (a : BitVec 4) (d : BitVec 6) : Dec :=
  match fn.toNat with
    | 0 => chk (v ≠ 0 || a ≠ 0 || d ≠ 0) (.fence (i.extractLsb' 0 3) (i.extractLsb' 3 2))
    | 1 => chk (v ≠ 0 || d ≠ 0) (.mon a i)
    | 2 => chk (i ≠ 0 || v ≠ 0 || a ≠ 0 || d ≠ 0) (.mwait)
    | 3 => chk (d ≠ 0) (.cflush a v i)
    | 4 => chk (d ≠ 0) (.cinv a v i)
    | 5 => chk (i ≠ 0 || v ≠ 0 || a ≠ 0 || d ≠ 0) (.ifence)
    | 6 => chk (i ≠ 0 || v ≠ 0 || a ≠ 0 || d.extractLsb' 5 1 ≠ 0) (.dtens (d.extractLsb' 0 5))
    | 7 => chk (i ≠ 0 || v ≠ 0 || a ≠ 0 || d.extractLsb' 5 1 ≠ 0) (.ttag (d.extractLsb' 0 5))
    | 8 => chk (false) (.pref d a v i)
    | _ => .illegal 0x03#8

/-- Major 0x20, E format (R103, R106). -/
noncomputable def dec20 (i : BitVec 6) (s3 : BitVec 5) (s2 : BitVec 5) (s1 : BitVec 5) (fn : BitVec 4) : Dec :=
  match fn.toNat with
    | 0 => chk (s2.extractLsb' 4 1 ≠ 0 || s1.extractLsb' 4 1 ≠ 0) (.tdset (s1.extractLsb' 0 4) (s2.extractLsb' 0 4) s3 i)
    | 1 => chk (s1.extractLsb' 4 1 ≠ 0) (.tdoff (s1.extractLsb' 0 4) s2 s3 i)
    | 2 => chk (s3 ≠ 0 || s1.extractLsb' 4 1 ≠ 0) (.tdpl (s1.extractLsb' 0 4) s2 i)
    | 3 => chk (s3 ≠ 0 || s2.extractLsb' 4 1 ≠ 0) (.tdget s1 (s2.extractLsb' 0 4) i)
    | _ => .illegal 0x03#8

/-- Major 0x21, E format (R103, R106). -/
noncomputable def dec21 (i : BitVec 6) (s3 : BitVec 5) (s2 : BitVec 5) (s1 : BitVec 5) (fn : BitVec 4) : Dec :=
  match fn.toNat with
    | 0 => chk (i ≠ 0 || s3 ≠ 0 || s2 ≠ 0 || s1.extractLsb' 4 1 ≠ 0) (.tload (s1.extractLsb' 0 4))
    | 1 => chk (i ≠ 0 || s3 ≠ 0 || s2 ≠ 0 || s1.extractLsb' 4 1 ≠ 0) (.tloadT (s1.extractLsb' 0 4))
    | 2 => chk (i ≠ 0 || s3 ≠ 0 || s2 ≠ 0 || s1.extractLsb' 4 1 ≠ 0) (.tloadSp (s1.extractLsb' 0 4))
    | 3 => chk (i ≠ 0 || s3 ≠ 0 || s2 ≠ 0 || s1.extractLsb' 4 1 ≠ 0) (.tloadRaw (s1.extractLsb' 0 4))
    | _ => .illegal 0x03#8

/-- Major 0x22, E format (R103, R106). -/
noncomputable def dec22 (i : BitVec 6) (s3 : BitVec 5) (s2 : BitVec 5) (s1 : BitVec 5) (fn : BitVec 4) : Dec :=
  match fn.toNat with
    | 0 => chk (s3 ≠ 0 || s2 ≠ 0 || s1.extractLsb' 4 1 ≠ 0) (.tstore (s1.extractLsb' 0 4) i)
    | 1 => chk (s3 ≠ 0 || s2 ≠ 0 || s1.extractLsb' 4 1 ≠ 0) (.tstoreT (s1.extractLsb' 0 4) i)
    | 2 => chk (s3 ≠ 0 || s2 ≠ 0 || s1.extractLsb' 4 1 ≠ 0) (.tstorePair (s1.extractLsb' 0 4) i)
    | 3 => chk (s3 ≠ 0 || s2 ≠ 0 || s1.extractLsb' 4 1 ≠ 0) (.tstoreAdd (s1.extractLsb' 0 4) i)
    | _ => .illegal 0x03#8

/-- Major 0x23, T format (R103, R106). -/
noncomputable def dec23 (mode : BitVec 5) (g : BitVec 3) (z : BitVec 1) (n : BitVec 1) (m : BitVec 1) (b : BitVec 4) (a : BitVec 4) (acc : BitVec 6) : Dec :=
  match mode.toNat with
    | 0 => group (acc.extractLsb' 0 2 = 0) (false) (.mma (acc.extractLsb' 2 4) a b m n z g)
    | 1 => group (acc.extractLsb' 0 2 = 0) (n ≠ 0 || m ≠ 0) (.mmxXor (acc.extractLsb' 2 4) a b z g)
    | 2 => group (acc.extractLsb' 0 2 = 0) (n ≠ 0 || m ≠ 0) (.mmxAnd (acc.extractLsb' 2 4) a b z g)
    | 3 => group (acc.extractLsb' 0 2 = 0) (false) (.mms (acc.extractLsb' 2 4) a b m n z g)
    | 4 => group (acc.extractLsb' 0 2 = 0) (false) (.mml (acc.extractLsb' 2 4) a b m n z g)
    | 16 => chk (false) (.mmaQ acc a b m n z g)
    | 17 => chk (n ≠ 0 || m ≠ 0) (.mmxXorQ acc a b z g)
    | 18 => chk (n ≠ 0 || m ≠ 0) (.mmxAndQ acc a b z g)
    | 19 => chk (false) (.mmsQ acc a b m n z g)
    | 20 => chk (false) (.mmlQ acc a b m n z g)
    | _ => .illegal 0x03#8

/-- Major 0x24, VI format (R103, R106). -/
noncomputable def dec24 (fn : BitVec 4) (i : BitVec 9) (a : BitVec 6) (d : BitVec 6) : Dec :=
  match fn.toNat with
    | 0 => chk (i ≠ 0 || a ≠ 0 || d ≠ 0) (.tfence)
    | 1 => chk (i ≠ 0 || a ≠ 0) (.accz d)
    | 2 => chk (i.extractLsb' 6 3 ≠ 0) (.accrd d a (i.extractLsb' 0 3) (i.extractLsb' 3 3))
    | 3 => chk (i.extractLsb' 4 5 ≠ 0) (.accrdp d a (i.extractLsb' 0 3) (i.extractLsb' 3 1))
    | 4 => chk (i.extractLsb' 5 4 ≠ 0) (.accwr d a (i.extractLsb' 0 3) (i.extractLsb' 3 2))
    | 5 => chk (i ≠ 0 || a ≠ 0) (.accneg d)
    | _ => .illegal 0x03#8

/-- Major 0x28, E format (R103, R106). -/
noncomputable def dec28 (i : BitVec 6) (s3 : BitVec 5) (s2 : BitVec 5) (s1 : BitVec 5) (fn : BitVec 4) : Dec :=
  match fn.toNat with
    | 0 => chk (false) (.copyMm s1 s2 s3 (i.extractLsb' 0 3) (i.extractLsb' 3 3))
    | 1 => chk (false) (.copyMs s1 s2 s3 (i.extractLsb' 0 3) (i.extractLsb' 3 3))
    | 2 => chk (false) (.copyMb s1 s2 s3 (i.extractLsb' 0 3) (i.extractLsb' 3 3))
    | 3 => chk (false) (.copyMl s1 s2 s3 (i.extractLsb' 0 3) (i.extractLsb' 3 3))
    | 4 => chk (false) (.copyMt s1 s2 s3 (i.extractLsb' 0 3) (i.extractLsb' 3 3))
    | 5 => chk (false) (.copySm s1 s2 s3 (i.extractLsb' 0 3) (i.extractLsb' 3 3))
    | 6 => chk (false) (.copyBg s1 s2 s3 (i.extractLsb' 0 3) (i.extractLsb' 3 3))
    | 7 => chk (false) (.copyPut s1 s2 s3 (i.extractLsb' 0 3) (i.extractLsb' 3 3))
    | 8 => chk (false) (.copyGet s1 s2 s3 (i.extractLsb' 0 3) (i.extractLsb' 3 3))
    | _ => .illegal 0x03#8

/-- Major 0x29, E format (R103, R106). -/
noncomputable def dec29 (i : BitVec 6) (s3 : BitVec 5) (s2 : BitVec 5) (s1 : BitVec 5) (fn : BitVec 4) : Dec :=
  match fn.toNat with
    | 0 => chk (i.extractLsb' 3 3 ≠ 0 || s3 ≠ 0) (.tgset s1 s2 (i.extractLsb' 0 3))
    | 1 => chk (i.extractLsb' 3 3 ≠ 0 || s3 ≠ 0 || s2 ≠ 0) (.tgresv s1 (i.extractLsb' 0 3))
    | 2 => chk (i.extractLsb' 3 3 ≠ 0 || s3 ≠ 0 || s2 ≠ 0) (.tgpost s1 (i.extractLsb' 0 3))
    | 3 => chk (i.extractLsb' 3 3 ≠ 0 || s3 ≠ 0 || s2 ≠ 0) (.tgtake s1 (i.extractLsb' 0 3))
    | 4 => chk (i.extractLsb' 3 3 ≠ 0 || s3 ≠ 0 || s2 ≠ 0) (.tgfree s1 (i.extractLsb' 0 3))
    | 5 => chk (i.extractLsb' 3 3 ≠ 0 || s3 ≠ 0 || s2 ≠ 0) (.tgstat s1 (i.extractLsb' 0 3))
    | 6 => chk (i.extractLsb' 3 3 ≠ 0 || s3 ≠ 0 || s2 ≠ 0 || s1 ≠ 0) (.tgclose (i.extractLsb' 0 3))
    | _ => .illegal 0x03#8

/-- Major 0x2A, E format (R103, R106). -/
noncomputable def dec2A (i : BitVec 6) (s3 : BitVec 5) (s2 : BitVec 5) (s1 : BitVec 5) (fn : BitVec 4) : Dec :=
  match fn.toNat with
    | 0 => chk (s3 ≠ 0) (.give s1 s2 i)
    | 1 => chk (i ≠ 0 || s3 ≠ 0) (.bwait s1 s2)
    | 2 => chk (s3 ≠ 0 || s2 ≠ 0) (.bstat s1 i)
    | 3 => chk (s3 ≠ 0 || s2 ≠ 0 || s1 ≠ 0) (.bdrain i)
    | 4 => chk (s3 ≠ 0 || s2 ≠ 0 || s1 ≠ 0) (.bzero i)
    | 5 => chk (s3 ≠ 0 || s2 ≠ 0) (.bmap s1 i)
    | 6 => chk (s3 ≠ 0 || s2 ≠ 0 || s1 ≠ 0) (.bunmap i)
    | _ => .illegal 0x03#8

/-- Major 0x2B, E format (R103, R106). -/
noncomputable def dec2B (i : BitVec 6) (s3 : BitVec 5) (s2 : BitVec 5) (s1 : BitVec 5) (fn : BitVec 4) : Dec :=
  match fn.toNat with
    | 0 => chk (false) (.lease s1 s2 s3 i)
    | 1 => chk (i ≠ 0 || s3 ≠ 0 || s2 ≠ 0) (.unlease s1)
    | 2 => chk (s3 ≠ 0) (.lrenew s1 s2 i)
    | 3 => chk (i ≠ 0 || s3 ≠ 0) (.lstat s1 s2)
    | _ => .illegal 0x03#8

/-- Major 0x2C, E format (R103, R106). -/
noncomputable def dec2C (i : BitVec 6) (s3 : BitVec 5) (s2 : BitVec 5) (s1 : BitVec 5) (fn : BitVec 4) : Dec :=
  match fn.toNat with
    | 0 => chk (i ≠ 0 || s3 ≠ 0 || s2 ≠ 0 || s1 ≠ 0) (.estInit)
    | 1 => chk (i ≠ 0 || s3 ≠ 0 || s2 ≠ 0) (.estAdd s1)
    | 2 => chk (i ≠ 0 || s3 ≠ 0) (.estAddw s1 s2)
    | 3 => chk (i ≠ 0 || s3 ≠ 0 || s2 ≠ 0 || s1 ≠ 0) (.estClose)
    | 4 => chk (i ≠ 0 || s3 ≠ 0) (.estRead s1 s2)
    | 5 => chk (i ≠ 0) (.estWait s1 s2 s3)
    | _ => .illegal 0x03#8

/-- Major 0x2D, E format (R103, R106). -/
noncomputable def dec2D (i : BitVec 6) (s3 : BitVec 5) (s2 : BitVec 5) (s1 : BitVec 5) (fn : BitVec 4) : Dec :=
  match fn.toNat with
    | 0 => chk (i ≠ 0 || s3 ≠ 0) (.launch s1 s2)
    | 1 => chk (i ≠ 0 || s3 ≠ 0 || s2 ≠ 0) (.depDec s1)
    | 2 => chk (i ≠ 0 || s3 ≠ 0) (.depAdd s1 s2)
    | 3 => chk (i ≠ 0 || s3 ≠ 0) (.cancel s1 s2)
    | 4 => chk (i ≠ 0 || s3 ≠ 0) (.lnstat s1 s2)
    | 5 => chk (i ≠ 0) (.gang s1 s2 s3)
    | 6 => chk (i ≠ 0 || s3 ≠ 0) (.snap s1 s2)
    | 7 => chk (i ≠ 0 || s3 ≠ 0) (.faultDone s1 s2)
    | _ => .illegal 0x03#8

/-- Major 0x2E, E format (R103, R106). -/
noncomputable def dec2E (i : BitVec 6) (s3 : BitVec 5) (s2 : BitVec 5) (s1 : BitVec 5) (fn : BitVec 4) : Dec :=
  match fn.toNat with
    | 0 => chk (i ≠ 0 || s3 ≠ 0 || s2 ≠ 0) (.collPut s1)
    | 1 => chk (i ≠ 0 || s3 ≠ 0 || s2 ≠ 0) (.collRed s1)
    | 2 => chk (i ≠ 0) (.welt s1 s2 s3)
    | 3 => chk (i ≠ 0) (.wchk s1 s2 s3)
    | 4 => chk (s3 ≠ 0 || s2 ≠ 0) (.cstat s1 i)
    | _ => .illegal 0x03#8

/-- Major 0x2F, E format (R103, R106). -/
noncomputable def dec2F (i : BitVec 6) (s3 : BitVec 5) (s2 : BitVec 5) (s1 : BitVec 5) (fn : BitVec 4) : Dec :=
  match fn.toNat with
    | 0 => chk (i ≠ 0 || s3 ≠ 0 || s2 ≠ 0) (.rng s1)
    | 1 => chk (i ≠ 0 || s3 ≠ 0 || s2 ≠ 0) (.rngF s1)
    | 2 => chk (i ≠ 0 || s3 ≠ 0 || s2 ≠ 0) (.rngkey s1)
    | _ => .illegal 0x03#8

/-- Major 0x30, E format (R103, R106). -/
noncomputable def dec30 (i : BitVec 6) (s3 : BitVec 5) (s2 : BitVec 5) (s1 : BitVec 5) (fn : BitVec 4) : Dec :=
  match fn.toNat with
    | 0 => chk (i.extractLsb' 2 4 ≠ 0 || s3 ≠ 0 || s2 ≠ 0) (.aestr s1 (i.extractLsb' 0 2))
    | 1 => chk (i.extractLsb' 2 4 ≠ 0 || s3 ≠ 0 || s2 ≠ 0) (.qpop s1 (i.extractLsb' 0 2))
    | 2 => chk (i.extractLsb' 2 4 ≠ 0 || s3 ≠ 0 || s2 ≠ 0) (.qstat s1 (i.extractLsb' 0 2))
    | 3 => chk (i.extractLsb' 2 4 ≠ 0 || s3 ≠ 0 || s2 ≠ 0 || s1 ≠ 0) (.aestop (i.extractLsb' 0 2))
    | _ => .illegal 0x03#8

/-- Major 0x38, E format (R103, R106). -/
noncomputable def dec38 (i : BitVec 6) (s3 : BitVec 5) (s2 : BitVec 5) (s1 : BitVec 5) (fn : BitVec 4) : Dec :=
  match fn.toNat with
    | 0 => chk (s3 ≠ 0 || s2 ≠ 0) (.sget s1 i)
    | 1 => chk (s3 ≠ 0 || s2 ≠ 0) (.sset s1 i)
    | 2 => chk (i ≠ 0) (.tlbinv s1 s2 s3)
    | 3 => chk (i.extractLsb' 1 5 ≠ 0 || s3 ≠ 0 || s2 ≠ 0) (.tlbinvc s1 (i.extractLsb' 0 1))
    | 4 => chk (i ≠ 0 || s3 ≠ 0) (.boost s1 s2)
    | 5 => chk (i ≠ 0 || s3 ≠ 0 || s2 ≠ 0) (.wake s1)
    | 6 => chk (i ≠ 0 || s3 ≠ 0 || s2 ≠ 0) (.fabort s1)
    | _ => .illegal 0x03#8

/-- The compact format (R101, R102): every halfword with bit 0 clear but 0x0000. -/
noncomputable def decodeHalf (h : BitVec 16) : Dec :=
  if h = 0 then .illegal 0x01#8 else
  let g := h.extractLsb' 15 1
  let a := h.extractLsb' 10 5
  let d := h.extractLsb' 5 5
  match (h.extractLsb' 1 4).toNat with
    | 0 => .ok (.compactMov d a g)
    | 1 => .ok (.compactAdd d a g)
    | 2 => .ok (.compactSub d a g)
    | 3 => .ok (.compactMul d a g)
    | 4 => .ok (.compactAnd d a g)
    | 5 => .ok (.compactOr d a g)
    | 6 => .ok (.compactXor d a g)
    | 7 => .ok (.compactShl d a g)
    | 8 => .ok (.compactShrZ d a g)
    | 9 => .ok (.compactShrS d a g)
    | 10 => .ok (.compactFadd d a g)
    | 11 => .ok (.compactFsub d a g)
    | 12 => .ok (.compactFmul d a g)
    | 13 => .ok (.compactFmin d a g)
    | 14 => .ok (.compactFmax d a g)
    | 15 => .ok (.compactFabs d a g)
    | _ => .illegal 0x03#8

/-- The 32-bit formats (R103), by the major opcode in bits 6:1. -/
noncomputable def decodeWord (w : BitVec 32) : Dec :=
  if w = 0xFFFF_FFFF#32 then .illegal 0x07#8 else
  match (w.extractLsb' 1 6).toNat with
  | 0x01 => dec01 (w.extractLsb' 28 4) (w.extractLsb' 25 3) (w.extractLsb' 19 6) (w.extractLsb' 13 6) (w.extractLsb' 7 6)
  | 0x02 => dec02 (w.extractLsb' 28 4) (w.extractLsb' 19 9) (w.extractLsb' 13 6) (w.extractLsb' 7 6)
  | 0x03 => dec03 (w.extractLsb' 28 4) (w.extractLsb' 25 3) (w.extractLsb' 19 6) (w.extractLsb' 13 6) (w.extractLsb' 7 6)
  | 0x04 => dec04 (w.extractLsb' 28 4) (w.extractLsb' 25 3) (w.extractLsb' 19 6) (w.extractLsb' 13 6) (w.extractLsb' 7 6)
  | 0x05 => dec05 (w.extractLsb' 28 4) (w.extractLsb' 25 3) (w.extractLsb' 19 6) (w.extractLsb' 13 6) (w.extractLsb' 7 6)
  | 0x06 => dec06 (w.extractLsb' 28 4) (w.extractLsb' 25 3) (w.extractLsb' 19 6) (w.extractLsb' 13 6) (w.extractLsb' 7 6)
  | 0x07 => dec07 (w.extractLsb' 28 4) (w.extractLsb' 25 3) (w.extractLsb' 19 6) (w.extractLsb' 13 6) (w.extractLsb' 7 6)
  | 0x08 => dec08 (w.extractLsb' 28 4) (w.extractLsb' 22 6) (w.extractLsb' 17 5) (w.extractLsb' 12 5) (w.extractLsb' 7 5)
  | 0x09 => dec09 (w.extractLsb' 17 15) (w.extractLsb' 12 5) (w.extractLsb' 7 5)
  | 0x0A => dec0A (w.extractLsb' 17 15) (w.extractLsb' 12 5) (w.extractLsb' 7 5)
  | 0x0B => dec0B (w.extractLsb' 28 4) (w.extractLsb' 22 6) (w.extractLsb' 17 5) (w.extractLsb' 12 5) (w.extractLsb' 7 5)
  | 0x0C => dec0C (w.extractLsb' 28 4) (w.extractLsb' 25 3) (w.extractLsb' 19 6) (w.extractLsb' 13 6) (w.extractLsb' 7 6)
  | 0x0D => dec0D (w.extractLsb' 28 4) (w.extractLsb' 19 9) (w.extractLsb' 13 6) (w.extractLsb' 7 6)
  | 0x10 => dec10 (w.extractLsb' 12 20) (w.extractLsb' 10 2) (w.extractLsb' 7 3)
  | 0x11 => dec11 (w.extractLsb' 12 20) (w.extractLsb' 7 5)
  | 0x12 => dec12 (w.extractLsb' 28 4) (w.extractLsb' 22 6) (w.extractLsb' 17 5) (w.extractLsb' 12 5) (w.extractLsb' 7 5)
  | 0x13 => dec13 (w.extractLsb' 15 17) (w.extractLsb' 14 1) (w.extractLsb' 9 5) (w.extractLsb' 7 2)
  | 0x14 => dec14 (w.extractLsb' 15 17) (w.extractLsb' 14 1) (w.extractLsb' 9 5) (w.extractLsb' 7 2)
  | 0x15 => dec15 (w.extractLsb' 25 7) (w.extractLsb' 21 4) (w.extractLsb' 17 4) (w.extractLsb' 12 5) (w.extractLsb' 7 5)
  | 0x16 => dec16 (w.extractLsb' 26 6) (w.extractLsb' 21 5) (w.extractLsb' 16 5) (w.extractLsb' 11 5) (w.extractLsb' 7 4)
  | 0x17 => dec17 (w.extractLsb' 26 6) (w.extractLsb' 21 5) (w.extractLsb' 16 5) (w.extractLsb' 11 5) (w.extractLsb' 7 4)
  | 0x18 => dec18 (w.extractLsb' 28 4) (w.extractLsb' 23 5) (w.extractLsb' 17 6) (w.extractLsb' 13 4) (w.extractLsb' 7 6)
  | 0x19 => dec19 (w.extractLsb' 28 4) (w.extractLsb' 23 5) (w.extractLsb' 17 6) (w.extractLsb' 13 4) (w.extractLsb' 7 6)
  | 0x1A => dec1A (w.extractLsb' 28 4) (w.extractLsb' 23 5) (w.extractLsb' 17 6) (w.extractLsb' 13 4) (w.extractLsb' 7 6)
  | 0x1B => dec1B (w.extractLsb' 28 4) (w.extractLsb' 23 5) (w.extractLsb' 17 6) (w.extractLsb' 13 4) (w.extractLsb' 7 6)
  | 0x1C => dec1C (w.extractLsb' 28 4) (w.extractLsb' 23 5) (w.extractLsb' 17 6) (w.extractLsb' 13 4) (w.extractLsb' 7 6)
  | 0x1D => dec1D (w.extractLsb' 28 4) (w.extractLsb' 23 5) (w.extractLsb' 17 6) (w.extractLsb' 13 4) (w.extractLsb' 7 6)
  | 0x20 => dec20 (w.extractLsb' 26 6) (w.extractLsb' 21 5) (w.extractLsb' 16 5) (w.extractLsb' 11 5) (w.extractLsb' 7 4)
  | 0x21 => dec21 (w.extractLsb' 26 6) (w.extractLsb' 21 5) (w.extractLsb' 16 5) (w.extractLsb' 11 5) (w.extractLsb' 7 4)
  | 0x22 => dec22 (w.extractLsb' 26 6) (w.extractLsb' 21 5) (w.extractLsb' 16 5) (w.extractLsb' 11 5) (w.extractLsb' 7 4)
  | 0x23 => dec23 (w.extractLsb' 27 5) (w.extractLsb' 24 3) (w.extractLsb' 23 1) (w.extractLsb' 22 1) (w.extractLsb' 21 1) (w.extractLsb' 17 4) (w.extractLsb' 13 4) (w.extractLsb' 7 6)
  | 0x24 => dec24 (w.extractLsb' 28 4) (w.extractLsb' 19 9) (w.extractLsb' 13 6) (w.extractLsb' 7 6)
  | 0x28 => dec28 (w.extractLsb' 26 6) (w.extractLsb' 21 5) (w.extractLsb' 16 5) (w.extractLsb' 11 5) (w.extractLsb' 7 4)
  | 0x29 => dec29 (w.extractLsb' 26 6) (w.extractLsb' 21 5) (w.extractLsb' 16 5) (w.extractLsb' 11 5) (w.extractLsb' 7 4)
  | 0x2A => dec2A (w.extractLsb' 26 6) (w.extractLsb' 21 5) (w.extractLsb' 16 5) (w.extractLsb' 11 5) (w.extractLsb' 7 4)
  | 0x2B => dec2B (w.extractLsb' 26 6) (w.extractLsb' 21 5) (w.extractLsb' 16 5) (w.extractLsb' 11 5) (w.extractLsb' 7 4)
  | 0x2C => dec2C (w.extractLsb' 26 6) (w.extractLsb' 21 5) (w.extractLsb' 16 5) (w.extractLsb' 11 5) (w.extractLsb' 7 4)
  | 0x2D => dec2D (w.extractLsb' 26 6) (w.extractLsb' 21 5) (w.extractLsb' 16 5) (w.extractLsb' 11 5) (w.extractLsb' 7 4)
  | 0x2E => dec2E (w.extractLsb' 26 6) (w.extractLsb' 21 5) (w.extractLsb' 16 5) (w.extractLsb' 11 5) (w.extractLsb' 7 4)
  | 0x2F => dec2F (w.extractLsb' 26 6) (w.extractLsb' 21 5) (w.extractLsb' 16 5) (w.extractLsb' 11 5) (w.extractLsb' 7 4)
  | 0x30 => dec30 (w.extractLsb' 26 6) (w.extractLsb' 21 5) (w.extractLsb' 16 5) (w.extractLsb' 11 5) (w.extractLsb' 7 4)
  | 0x38 => dec38 (w.extractLsb' 26 6) (w.extractLsb' 21 5) (w.extractLsb' 16 5) (w.extractLsb' 11 5) (w.extractLsb' 7 4)
  | _ => .illegal 0x02#8

/-- The bits of an instruction: a halfword or a word (R100). -/
inductive Enc where
  | half (h : BitVec 16)
  | word (w : BitVec 32)
  deriving DecidableEq, Repr

/-- The encoding of an instruction (R101, R103, R106); an event has none. -/
def encode : Instr → Option Enc
  | .vadd d a b g => some (.word (encV3 1#6 (0#4) g b a d))
  | .vsub d a b g => some (.word (encV3 1#6 (1#4) g b a d))
  | .vmul d a b g => some (.word (encV3 1#6 (2#4) g b a d))
  | .vmulhS d a b g => some (.word (encV3 1#6 (3#4) g b a d))
  | .vmulhZ d a b g => some (.word (encV3 1#6 (4#4) g b a d))
  | .vminS d a b g => some (.word (encV3 1#6 (5#4) g b a d))
  | .vmaxS d a b g => some (.word (encV3 1#6 (6#4) g b a d))
  | .vminZ d a b g => some (.word (encV3 1#6 (7#4) g b a d))
  | .vmaxZ d a b g => some (.word (encV3 1#6 (8#4) g b a d))
  | .vand d a b g => some (.word (encV3 1#6 (9#4) g b a d))
  | .vor d a b g => some (.word (encV3 1#6 (10#4) g b a d))
  | .vxor d a b g => some (.word (encV3 1#6 (11#4) g b a d))
  | .vshl d a b g => some (.word (encV3 1#6 (12#4) g b a d))
  | .vshrZ d a b g => some (.word (encV3 1#6 (13#4) g b a d))
  | .vshrS d a b g => some (.word (encV3 1#6 (14#4) g b a d))
  | .vandn d a b g => some (.word (encV3 1#6 (15#4) g b a d))
  | .vaddi d a i => some (.word (encVI 2#6 (0#4) i a d))
  | .vsubi d a i => some (.word (encVI 2#6 (1#4) i a d))
  | .vmuli d a i => some (.word (encVI 2#6 (2#4) i a d))
  | .vmulhSi d a i => some (.word (encVI 2#6 (3#4) i a d))
  | .vmulhZi d a i => some (.word (encVI 2#6 (4#4) i a d))
  | .vminSi d a i => some (.word (encVI 2#6 (5#4) i a d))
  | .vmaxSi d a i => some (.word (encVI 2#6 (6#4) i a d))
  | .vminZi d a i => some (.word (encVI 2#6 (7#4) i a d))
  | .vmaxZi d a i => some (.word (encVI 2#6 (8#4) i a d))
  | .vandi d a i => some (.word (encVI 2#6 (9#4) i a d))
  | .vori d a i => some (.word (encVI 2#6 (10#4) i a d))
  | .vxori d a i => some (.word (encVI 2#6 (11#4) i a d))
  | .vshli d a i => some (.word (encVI 2#6 (12#4) i a d))
  | .vshrZi d a i => some (.word (encVI 2#6 (13#4) i a d))
  | .vshrSi d a i => some (.word (encVI 2#6 (14#4) i a d))
  | .vandni d a i => some (.word (encVI 2#6 (15#4) i a d))
  | .vfadd d a b g => some (.word (encV3 3#6 (0#4) g b a d))
  | .vfsub d a b g => some (.word (encV3 3#6 (1#4) g b a d))
  | .vfmul d a b g => some (.word (encV3 3#6 (2#4) g b a d))
  | .vfmac d a b g => some (.word (encV3 3#6 (3#4) g b a d))
  | .vfnmac d a b g => some (.word (encV3 3#6 (4#4) g b a d))
  | .vfmin d a b g => some (.word (encV3 3#6 (5#4) g b a d))
  | .vfmax d a b g => some (.word (encV3 3#6 (6#4) g b a d))
  | .vfabs d a g => some (.word (encV3 3#6 (7#4) g (0#6) a d))
  | .vfneg d a g => some (.word (encV3 3#6 (8#4) g (0#6) a d))
  | .vfcopys d a b g => some (.word (encV3 3#6 (9#4) g b a d))
  | .vfrcp d a g => some (.word (encV3 3#6 (10#4) g (0#6) a d))
  | .vfrsq d a g => some (.word (encV3 3#6 (11#4) g (0#6) a d))
  | .vfsqrt d a g => some (.word (encV3 3#6 (12#4) g (0#6) a d))
  | .vfexp2 d a g => some (.word (encV3 3#6 (13#4) g (0#6) a d))
  | .vflog2 d a g => some (.word (encV3 3#6 (14#4) g (0#6) a d))
  | .vfround d a b g => some (.word (encV3 3#6 (15#4) g b a d))
  | .vcmpEq p a b g => some (.word (encV3 4#6 (0#4) g b a (0#3 ++ p)))
  | .vcmpNe p a b g => some (.word (encV3 4#6 (1#4) g b a (0#3 ++ p)))
  | .vcmpLtS p a b g => some (.word (encV3 4#6 (2#4) g b a (0#3 ++ p)))
  | .vcmpLeS p a b g => some (.word (encV3 4#6 (3#4) g b a (0#3 ++ p)))
  | .vcmpGtS p a b g => some (.word (encV3 4#6 (4#4) g b a (0#3 ++ p)))
  | .vcmpGeS p a b g => some (.word (encV3 4#6 (5#4) g b a (0#3 ++ p)))
  | .vcmpLtZ p a b g => some (.word (encV3 4#6 (6#4) g b a (0#3 ++ p)))
  | .vcmpLeZ p a b g => some (.word (encV3 4#6 (7#4) g b a (0#3 ++ p)))
  | .vcmpFeq p a b g => some (.word (encV3 4#6 (8#4) g b a (0#3 ++ p)))
  | .vcmpFne p a b g => some (.word (encV3 4#6 (9#4) g b a (0#3 ++ p)))
  | .vcmpFlt p a b g => some (.word (encV3 4#6 (10#4) g b a (0#3 ++ p)))
  | .vcmpFle p a b g => some (.word (encV3 4#6 (11#4) g b a (0#3 ++ p)))
  | .vcmpFgt p a b g => some (.word (encV3 4#6 (12#4) g b a (0#3 ++ p)))
  | .vcmpFge p a b g => some (.word (encV3 4#6 (13#4) g b a (0#3 ++ p)))
  | .vcmpFuno p a b g => some (.word (encV3 4#6 (14#4) g b a (0#3 ++ p)))
  | .vcmpFord p a b g => some (.word (encV3 4#6 (15#4) g b a (0#3 ++ p)))
  | .cvtF32S32 d a g => some (.word (encV3 5#6 (0#4) g (0#6) a d))
  | .cvtF32Z32 d a g => some (.word (encV3 5#6 (1#4) g (0#6) a d))
  | .cvtS32F32 d a g => some (.word (encV3 5#6 (2#4) g (0#6) a d))
  | .cvtZ32F32 d a g => some (.word (encV3 5#6 (3#4) g (0#6) a d))
  | .cvtF16x2F32 d a b g => some (.word (encV3 5#6 (4#4) g b a d))
  | .cvtF32F16lo d a g => some (.word (encV3 5#6 (5#4) g (0#6) a d))
  | .cvtF32F16hi d a g => some (.word (encV3 5#6 (6#4) g (0#6) a d))
  | .cvtBf16x2F32 d a b g => some (.word (encV3 5#6 (7#4) g b a d))
  | .cvtF32Bf16lo d a g => some (.word (encV3 5#6 (8#4) g (0#6) a d))
  | .cvtF32Bf16hi d a g => some (.word (encV3 5#6 (9#4) g (0#6) a d))
  | .cvtE4m3F32 d a n g => some (.word (encV3 5#6 (10#4) g n a d))
  | .cvtE5m2F32 d a n g => some (.word (encV3 5#6 (11#4) g n a d))
  | .cvtLns6F32 d a n g => some (.word (encV3 5#6 (12#4) g n a d))
  | .cvtF32E4m3 d a n g => some (.word (encV3 5#6 (13#4) g n a d))
  | .cvtF32E5m2 d a n g => some (.word (encV3 5#6 (14#4) g n a d))
  | .cvtF32Lns6 d a n g => some (.word (encV3 5#6 (15#4) g n a d))
  | .vsel d a b k => some (.word (encV3 6#6 (0#4) k b a d))
  | .vperm d a b g => some (.word (encV3 6#6 (1#4) g b a d))
  | .vshflUp d a n g => some (.word (encV3 6#6 (2#4) g n a d))
  | .vshflDn d a n g => some (.word (encV3 6#6 (3#4) g n a d))
  | .vshflX d a n g => some (.word (encV3 6#6 (4#4) g n a d))
  | .vpopc d a g => some (.word (encV3 6#6 (5#4) g (0#6) a d))
  | .vclz d a g => some (.word (encV3 6#6 (6#4) g (0#6) a d))
  | .vbrev d a g => some (.word (encV3 6#6 (7#4) g (0#6) a d))
  | .vlaneid d g => some (.word (encV3 6#6 (8#4) g (0#6) (0#6) d))
  | .vbcast d a n g => some (.word (encV3 6#6 (9#4) g n a d))
  | .vmovs d a g => some (.word (encV3 6#6 (10#4) g (0#6) (0#1 ++ a) d))
  | .ballot p a g => some (.word (encV3 6#6 (11#4) g (0#6) a (0#3 ++ p)))
  | .pmovFromScalar d a => some (.word (encV3 6#6 (12#4) (0#3) (0#6) (0#1 ++ a) (0#3 ++ d)))
  | .pmovToScalar d a => some (.word (encV3 6#6 (12#4) (0#3) (1#6) (0#3 ++ a) (0#1 ++ d)))
  | .pand d a b => some (.word (encV3 6#6 (13#4) (0#3) (0#3 ++ b) (0#3 ++ a) (0#3 ++ d)))
  | .por d a b => some (.word (encV3 6#6 (14#4) (0#3) (0#3 ++ b) (0#3 ++ a) (0#3 ++ d)))
  | .pnot d a => some (.word (encV3 6#6 (15#4) (0#3) (0#6) (0#3 ++ a) (0#3 ++ d)))
  | .redAdd d a g => some (.word (encV3 7#6 (0#4) g (0#6) a (0#1 ++ d)))
  | .redFadd d a g => some (.word (encV3 7#6 (1#4) g (0#6) a (0#1 ++ d)))
  | .redMinS d a g => some (.word (encV3 7#6 (2#4) g (0#6) a (0#1 ++ d)))
  | .redMaxS d a g => some (.word (encV3 7#6 (3#4) g (0#6) a (0#1 ++ d)))
  | .redFmin d a g => some (.word (encV3 7#6 (4#4) g (0#6) a (0#1 ++ d)))
  | .redFmax d a g => some (.word (encV3 7#6 (5#4) g (0#6) a (0#1 ++ d)))
  | .redAnd d a g => some (.word (encV3 7#6 (6#4) g (0#6) a (0#1 ++ d)))
  | .redOr d a g => some (.word (encV3 7#6 (7#4) g (0#6) a (0#1 ++ d)))
  | .scanAdd d a g => some (.word (encV3 7#6 (8#4) g (0#6) a d))
  | .scanFadd d a g => some (.word (encV3 7#6 (9#4) g (0#6) a d))
  | .redFadd2 d a g => some (.word (encV3 7#6 (10#4) g (0#6) a (0#1 ++ d)))
  | .sadd d a b => some (.word (encS 8#6 (0#4) (0#6) b a d))
  | .ssub d a b => some (.word (encS 8#6 (0#4) (1#6) b a d))
  | .smul d a b => some (.word (encS 8#6 (0#4) (2#6) b a d))
  | .smulhS d a b => some (.word (encS 8#6 (0#4) (3#6) b a d))
  | .sdivS d a b => some (.word (encS 8#6 (0#4) (4#6) b a d))
  | .sdivZ d a b => some (.word (encS 8#6 (0#4) (5#6) b a d))
  | .sand d a b => some (.word (encS 8#6 (0#4) (6#6) b a d))
  | .sor d a b => some (.word (encS 8#6 (0#4) (7#6) b a d))
  | .sxor d a b => some (.word (encS 8#6 (0#4) (8#6) b a d))
  | .sshl d a b => some (.word (encS 8#6 (0#4) (9#6) b a d))
  | .sshrZ d a b => some (.word (encS 8#6 (0#4) (10#6) b a d))
  | .sshrS d a b => some (.word (encS 8#6 (0#4) (11#6) b a d))
  | .sminS d a b => some (.word (encS 8#6 (0#4) (12#6) b a d))
  | .smaxS d a b => some (.word (encS 8#6 (0#4) (13#6) b a d))
  | .seq d a b => some (.word (encS 8#6 (0#4) (14#6) b a d))
  | .sltS d a b => some (.word (encS 8#6 (0#4) (15#6) b a d))
  | .sltZ d a b => some (.word (encS 8#6 (0#4) (16#6) b a d))
  | .saddi d a i => some (.word (encSI 9#6 i a d))
  | .sins d a i => some (.word (encSI 10#6 i a d))
  | .aadd d a b => some (.word (encS 11#6 (0#4) (0#6) b (0#1 ++ a) (0#1 ++ d)))
  | .asub d a b => some (.word (encS 11#6 (0#4) (1#6) b (0#1 ++ a) (0#1 ++ d)))
  | .amov d a => some (.word (encS 11#6 (0#4) (2#6) (0#5) (0#1 ++ a) (0#1 ++ d)))
  | .aset d a => some (.word (encS 11#6 (0#4) (3#6) (0#5) a (0#1 ++ d)))
  | .aget d a n => some (.word (encS 11#6 (0#4) (4#6) n (0#1 ++ a) d))
  | .ahi d a b => some (.word (encS 11#6 (0#4) (5#6) b (0#1 ++ a) (0#1 ++ d)))
  | .acmp d a b => some (.word (encS 11#6 (0#4) (6#6) (0#1 ++ b) (0#1 ++ a) d))
  | .vmovsLo d a n g => some (.word (encV3 12#6 (0#4) g n (0#1 ++ a) d))
  | .vmovsHi d a n g => some (.word (encV3 12#6 (1#4) g n (0#1 ++ a) d))
  | .smovv d a n => some (.word (encV3 12#6 (2#4) (0#3) n a (0#1 ++ d)))
  | .vadds d a b g => some (.word (encV3 12#6 (3#4) g (0#1 ++ b) a d))
  | .vmuls d a b g => some (.word (encV3 12#6 (4#4) g (0#1 ++ b) a d))
  | .vfadds d a b g => some (.word (encV3 12#6 (5#4) g (0#1 ++ b) a d))
  | .vfmuls d a b g => some (.word (encV3 12#6 (6#4) g (0#1 ++ b) a d))
  | .wfld d f => some (.word (encVI 13#6 (0#4) f (0#6) d))
  | .wfs d => some (.word (encVI 13#6 (1#4) (0#9) (0#6) (0#1 ++ d)))
  | .visit d => some (.word (encVI 13#6 (2#4) (0#9) (0#6) (0#1 ++ d)))
  | .emget d => some (.word (encVI 13#6 (3#4) (0#9) (0#6) (0#1 ++ d)))
  | .emput a => some (.word (encVI 13#6 (4#4) (0#9) (0#1 ++ a) (0#6)))
  | .emand d a => some (.word (encVI 13#6 (5#4) (0#9) (0#3 ++ a) (0#1 ++ d)))
  | .emor d a => some (.word (encVI 13#6 (6#4) (0#9) (0#3 ++ a) (0#1 ++ d)))
  | .rdtime d => some (.word (encVI 13#6 (7#4) (0#9) (0#6) (0#1 ++ d)))
  | .rdcnt d => some (.word (encVI 13#6 (8#4) (0#9) (0#6) (0#1 ++ d)))
  | .pcount d => some (.word (encVI 13#6 (9#4) (0#9) (0#6) (0#1 ++ d)))
  | .fcrget d => some (.word (encVI 13#6 (10#4) (0#9) (0#6) (0#1 ++ d)))
  | .fcrput a => some (.word (encVI 13#6 (11#4) (0#9) (0#1 ++ a) (0#6)))
  | .lpget d k => some (.word (encVI 13#6 (12#4) k (0#6) (0#1 ++ d)))
  | .rdenergy d => some (.word (encVI 13#6 (13#4) (0#9) (0#6) (0#1 ++ d)))
  | .rdgang d => some (.word (encVI 13#6 (14#4) (0#9) (0#6) (0#1 ++ d)))
  | .rdcore d => some (.word (encVI 13#6 (15#4) (0#9) (0#6) (0#1 ++ d)))
  | .br o => some (.word (encB 16#6 o (0#2) (0#3)))
  | .brAny p o => some (.word (encB 16#6 o (1#2) p))
  | .brAll p o => some (.word (encB 16#6 o (2#2) p))
  | .brNone p o => some (.word (encB 16#6 o (3#2) p))
  | .jal d o => some (.word (encJ 17#6 o d))
  | .jr a => some (.word (encS 18#6 (0#4) (0#6) (0#5) a (0#5)))
  | .jalr d a => some (.word (encS 18#6 (0#4) (1#6) (0#5) a d))
  | .loop l c i e => some (.word (encL 19#6 e i c l))
  | .lbrk l => some (.word (encL 20#6 (0#17) (0#1) (0#5) l))
  | .wait l s c t => some (.word (encW 21#6 (0#7) t c s l))
  | .bar => some (.word (encE 22#6 (0#6) (0#5) (0#5) (0#5) (0#4)))
  | .barCl => some (.word (encE 22#6 (0#6) (0#5) (0#5) (0#5) (1#4)))
  | .commit => some (.word (encE 22#6 (0#6) (0#5) (0#5) (0#5) (2#4)))
  | .halt => some (.word (encE 22#6 (0#6) (0#5) (0#5) (0#5) (3#4)))
  | .yield => some (.word (encE 22#6 (0#6) (0#5) (0#5) (0#5) (4#4)))
  | .nop => some (.word (encE 22#6 (0#6) (0#5) (0#5) (0#5) (5#4)))
  | .sleep s => some (.word (encE 22#6 (0#6) (0#5) (0#5) s (6#4)))
  | .trap n => some (.word (encE 23#6 n (0#5) (0#5) (0#5) (0#4)))
  | .sys n => some (.word (encE 23#6 n (0#5) (0#5) (0#5) (1#4)))
  | .eret => some (.word (encE 23#6 (0#6) (0#5) (0#5) (0#5) (2#4)))
  | .brk n => some (.word (encE 23#6 n (0#5) (0#5) (0#5) (3#4)))
  | .ldB8Z d a v i => some (.word (encM 24#6 (0#4) i v a d))
  | .ldB8S d a v i => some (.word (encM 24#6 (1#4) i v a d))
  | .ldB16Z d a v i => some (.word (encM 24#6 (2#4) i v a d))
  | .ldB16S d a v i => some (.word (encM 24#6 (3#4) i v a d))
  | .ldB32 d a v i => some (.word (encM 24#6 (4#4) i v a d))
  | .ldB64 d a v i => some (.word (encM 24#6 (5#4) i v a d))
  | .ldB128 d a v i => some (.word (encM 24#6 (6#4) i v a d))
  | .ldE d a v i => some (.word (encM 24#6 (7#4) i v a d))
  | .ldEI d a v i => some (.word (encM 24#6 (8#4) i v a d))
  | .ldUn d a i => some (.word (encM 24#6 (9#4) i (0#6) a d))
  | .ldNc d a v i => some (.word (encM 24#6 (10#4) i v a d))
  | .ldAcq d a v s => some (.word (encM 24#6 (11#4) (1#2 ++ s) v a d))
  | .stB8 d a v i => some (.word (encM 25#6 (0#4) i v a d))
  | .stB16 d a v i => some (.word (encM 25#6 (1#4) i v a d))
  | .stB32 d a v i => some (.word (encM 25#6 (2#4) i v a d))
  | .stB64 d a v i => some (.word (encM 25#6 (3#4) i v a d))
  | .stB128 d a v i => some (.word (encM 25#6 (4#4) i v a d))
  | .stE d a v i => some (.word (encM 25#6 (5#4) i v a d))
  | .stEI d a v i => some (.word (encM 25#6 (6#4) i v a d))
  | .stRel d a v s => some (.word (encM 25#6 (7#4) (2#2 ++ s) v a d))
  | .stB4 d a v i => some (.word (encM 25#6 (8#4) i v a d))
  | .stB1 d a v i => some (.word (encM 25#6 (9#4) i v a d))
  | .ldsB64 d a i => some (.word (encM 26#6 (0#4) i (0#6) a (0#1 ++ d)))
  | .ldsB32 d a i => some (.word (encM 26#6 (1#4) i (0#6) a (0#1 ++ d)))
  | .stsB64 d a i => some (.word (encM 26#6 (2#4) i (0#6) a (0#1 ++ d)))
  | .stsB32 d a i => some (.word (encM 26#6 (3#4) i (0#6) a (0#1 ++ d)))
  | .lda d a i => some (.word (encM 26#6 (4#4) i (0#6) a (0#2 ++ d)))
  | .sta d a i => some (.word (encM 26#6 (5#4) i (0#6) a (0#2 ++ d)))
  | .ldsAcq d a s => some (.word (encM 26#6 (6#4) (1#2 ++ s) (0#6) a (0#1 ++ d)))
  | .stsRel d a s => some (.word (encM 26#6 (7#4) (2#2 ++ s) (0#6) a (0#1 ++ d)))
  | .lspB32 d s v i => some (.word (encM 27#6 (0#4) i v s d))
  | .lspB64 d s i => some (.word (encM 27#6 (1#4) i (0#6) s (0#1 ++ d)))
  | .lspB128 d s i => some (.word (encM 27#6 (2#4) i (0#6) s (0#2 ++ d)))
  | .sspB32 d s v i => some (.word (encM 27#6 (3#4) i v s d))
  | .sspB64 d s i => some (.word (encM 27#6 (4#4) i (0#6) s (0#1 ++ d)))
  | .sspB128 d s i => some (.word (encM 27#6 (5#4) i (0#6) s (0#2 ++ d)))
  | .atomAdd d a v s o => some (.word (encM 28#6 (0#4) (o ++ s) v a d))
  | .atomFadd d a v s o => some (.word (encM 28#6 (1#4) (o ++ s) v a d))
  | .atomMinS d a v s o => some (.word (encM 28#6 (2#4) (o ++ s) v a d))
  | .atomMaxS d a v s o => some (.word (encM 28#6 (3#4) (o ++ s) v a d))
  | .atomMinZ d a v s o => some (.word (encM 28#6 (4#4) (o ++ s) v a d))
  | .atomMaxZ d a v s o => some (.word (encM 28#6 (5#4) (o ++ s) v a d))
  | .atomAnd d a v s o => some (.word (encM 28#6 (6#4) (o ++ s) v a d))
  | .atomOr d a v s o => some (.word (encM 28#6 (7#4) (o ++ s) v a d))
  | .atomXor d a v s o => some (.word (encM 28#6 (8#4) (o ++ s) v a d))
  | .atomXchg d a v s o => some (.word (encM 28#6 (9#4) (o ++ s) v a d))
  | .atomCas d a v s o => some (.word (encM 28#6 (10#4) (o ++ s) v a d))
  | .atomAdd64 d a v s o => some (.word (encM 28#6 (11#4) (o ++ s) v a d))
  | .atomCas64 d a v s o => some (.word (encM 28#6 (12#4) (o ++ s) v a d))
  | .atomInc d a v s o => some (.word (encM 28#6 (13#4) (o ++ s) v a d))
  | .redMemAdd d a v s o => some (.word (encM 28#6 (14#4) (o ++ s) v a d))
  | .redMemFadd d a v s o => some (.word (encM 28#6 (15#4) (o ++ s) v a d))
  | .fence s o => some (.word (encM 29#6 (0#4) (o ++ s) (0#6) (0#4) (0#6)))
  | .mon a i => some (.word (encM 29#6 (1#4) i (0#6) a (0#6)))
  | .mwait => some (.word (encM 29#6 (2#4) (0#5) (0#6) (0#4) (0#6)))
  | .cflush a v i => some (.word (encM 29#6 (3#4) i v a (0#6)))
  | .cinv a v i => some (.word (encM 29#6 (4#4) i v a (0#6)))
  | .ifence => some (.word (encM 29#6 (5#4) (0#5) (0#6) (0#4) (0#6)))
  | .dtens s => some (.word (encM 29#6 (6#4) (0#5) (0#6) (0#4) (0#1 ++ s)))
  | .ttag s => some (.word (encM 29#6 (7#4) (0#5) (0#6) (0#4) (0#1 ++ s)))
  | .pref n a v i => some (.word (encM 29#6 (8#4) i v a n))
  | .tdset t a s i => some (.word (encE 32#6 i s (0#1 ++ a) (0#1 ++ t) (0#4)))
  | .tdoff t a b k => some (.word (encE 32#6 k b a (0#1 ++ t) (1#4)))
  | .tdpl t v p => some (.word (encE 32#6 p (0#5) v (0#1 ++ t) (2#4)))
  | .tdget d t k => some (.word (encE 32#6 k (0#5) (0#1 ++ t) d (3#4)))
  | .tload t => some (.word (encE 33#6 (0#6) (0#5) (0#5) (0#1 ++ t) (0#4)))
  | .tloadT t => some (.word (encE 33#6 (0#6) (0#5) (0#5) (0#1 ++ t) (1#4)))
  | .tloadSp t => some (.word (encE 33#6 (0#6) (0#5) (0#5) (0#1 ++ t) (2#4)))
  | .tloadRaw t => some (.word (encE 33#6 (0#6) (0#5) (0#5) (0#1 ++ t) (3#4)))
  | .tstore t c => some (.word (encE 34#6 c (0#5) (0#5) (0#1 ++ t) (0#4)))
  | .tstoreT t c => some (.word (encE 34#6 c (0#5) (0#5) (0#1 ++ t) (1#4)))
  | .tstorePair t c => some (.word (encE 34#6 c (0#5) (0#5) (0#1 ++ t) (2#4)))
  | .tstoreAdd t c => some (.word (encE 34#6 c (0#5) (0#5) (0#1 ++ t) (3#4)))
  | .mma c a b m n z g => some (.word (encT 35#6 (0#5) g z n m b a (c ++ 0#2)))
  | .mmxXor c a b z g => some (.word (encT 35#6 (1#5) g z (0#1) (0#1) b a (c ++ 0#2)))
  | .mmxAnd c a b z g => some (.word (encT 35#6 (2#5) g z (0#1) (0#1) b a (c ++ 0#2)))
  | .mms c a b m n z g => some (.word (encT 35#6 (3#5) g z n m b a (c ++ 0#2)))
  | .mml c a b m n z g => some (.word (encT 35#6 (4#5) g z n m b a (c ++ 0#2)))
  | .mmaQ c a b m n z g => some (.word (encT 35#6 (16#5) g z n m b a c))
  | .mmxXorQ c a b z g => some (.word (encT 35#6 (17#5) g z (0#1) (0#1) b a c))
  | .mmxAndQ c a b z g => some (.word (encT 35#6 (18#5) g z (0#1) (0#1) b a c))
  | .mmsQ c a b m n z g => some (.word (encT 35#6 (19#5) g z n m b a c))
  | .mmlQ c a b m n z g => some (.word (encT 35#6 (20#5) g z n m b a c))
  | .tfence => some (.word (encVI 36#6 (0#4) (0#9) (0#6) (0#6)))
  | .accz d => some (.word (encVI 36#6 (1#4) (0#9) (0#6) d))
  | .accrd d a r f => some (.word (encVI 36#6 (2#4) (0#3 ++ f ++ r) a d))
  | .accrdp d a r p => some (.word (encVI 36#6 (3#4) (0#5 ++ p ++ r) a d))
  | .accwr d a r p => some (.word (encVI 36#6 (4#4) (0#4 ++ p ++ r) a d))
  | .accneg d => some (.word (encVI 36#6 (5#4) (0#9) (0#6) d))
  | .copyMm a b c g k => some (.word (encE 40#6 (k ++ g) c b a (0#4)))
  | .copyMs a b c g k => some (.word (encE 40#6 (k ++ g) c b a (1#4)))
  | .copyMb a b c g k => some (.word (encE 40#6 (k ++ g) c b a (2#4)))
  | .copyMl a b c g k => some (.word (encE 40#6 (k ++ g) c b a (3#4)))
  | .copyMt a b c g k => some (.word (encE 40#6 (k ++ g) c b a (4#4)))
  | .copySm a b c g k => some (.word (encE 40#6 (k ++ g) c b a (5#4)))
  | .copyBg a b c g k => some (.word (encE 40#6 (k ++ g) c b a (6#4)))
  | .copyPut a b c g k => some (.word (encE 40#6 (k ++ g) c b a (7#4)))
  | .copyGet a b c g k => some (.word (encE 40#6 (k ++ g) c b a (8#4)))
  | .tgset a b n => some (.word (encE 41#6 (0#3 ++ n) (0#5) b a (0#4)))
  | .tgresv d n => some (.word (encE 41#6 (0#3 ++ n) (0#5) (0#5) d (1#4)))
  | .tgpost a n => some (.word (encE 41#6 (0#3 ++ n) (0#5) (0#5) a (2#4)))
  | .tgtake d n => some (.word (encE 41#6 (0#3 ++ n) (0#5) (0#5) d (3#4)))
  | .tgfree a n => some (.word (encE 41#6 (0#3 ++ n) (0#5) (0#5) a (4#4)))
  | .tgstat d n => some (.word (encE 41#6 (0#3 ++ n) (0#5) (0#5) d (5#4)))
  | .tgclose n => some (.word (encE 41#6 (0#3 ++ n) (0#5) (0#5) (0#5) (6#4)))
  | .give d m k => some (.word (encE 42#6 k (0#5) m d (0#4)))
  | .bwait d m => some (.word (encE 42#6 (0#6) (0#5) m d (1#4)))
  | .bstat d k => some (.word (encE 42#6 k (0#5) (0#5) d (2#4)))
  | .bdrain k => some (.word (encE 42#6 k (0#5) (0#5) (0#5) (3#4)))
  | .bzero k => some (.word (encE 42#6 k (0#5) (0#5) (0#5) (4#4)))
  | .bmap d k => some (.word (encE 42#6 k (0#5) (0#5) d (5#4)))
  | .bunmap k => some (.word (encE 42#6 k (0#5) (0#5) (0#5) (6#4)))
  | .lease d a b t => some (.word (encE 43#6 t b a d (0#4)))
  | .unlease a => some (.word (encE 43#6 (0#6) (0#5) (0#5) a (1#4)))
  | .lrenew d a t => some (.word (encE 43#6 t (0#5) a d (2#4)))
  | .lstat d a => some (.word (encE 43#6 (0#6) (0#5) a d (3#4)))
  | .estInit => some (.word (encE 44#6 (0#6) (0#5) (0#5) (0#5) (0#4)))
  | .estAdd v => some (.word (encE 44#6 (0#6) (0#5) (0#5) v (1#4)))
  | .estAddw v b => some (.word (encE 44#6 (0#6) (0#5) b v (2#4)))
  | .estClose => some (.word (encE 44#6 (0#6) (0#5) (0#5) (0#5) (3#4)))
  | .estRead v a => some (.word (encE 44#6 (0#6) (0#5) a v (4#4)))
  | .estWait v a b => some (.word (encE 44#6 (0#6) b a v (5#4)))
  | .launch d a => some (.word (encE 45#6 (0#6) (0#5) a d (0#4)))
  | .depDec a => some (.word (encE 45#6 (0#6) (0#5) (0#5) a (1#4)))
  | .depAdd a b => some (.word (encE 45#6 (0#6) (0#5) b a (2#4)))
  | .cancel d a => some (.word (encE 45#6 (0#6) (0#5) a d (3#4)))
  | .lnstat d a => some (.word (encE 45#6 (0#6) (0#5) a d (4#4)))
  | .gang d a b => some (.word (encE 45#6 (0#6) b a d (5#4)))
  | .snap d a => some (.word (encE 45#6 (0#6) (0#5) a d (6#4)))
  | .faultDone a b => some (.word (encE 45#6 (0#6) (0#5) b a (7#4)))
  | .collPut a => some (.word (encE 46#6 (0#6) (0#5) (0#5) a (0#4)))
  | .collRed a => some (.word (encE 46#6 (0#6) (0#5) (0#5) a (1#4)))
  | .welt a b c => some (.word (encE 46#6 (0#6) c b a (2#4)))
  | .wchk d a b => some (.word (encE 46#6 (0#6) b a d (3#4)))
  | .cstat d k => some (.word (encE 46#6 k (0#5) (0#5) d (4#4)))
  | .rng d => some (.word (encE 47#6 (0#6) (0#5) (0#5) d (0#4)))
  | .rngF d => some (.word (encE 47#6 (0#6) (0#5) (0#5) d (1#4)))
  | .rngkey a => some (.word (encE 47#6 (0#6) (0#5) (0#5) a (2#4)))
  | .aestr a q => some (.word (encE 48#6 (0#4 ++ q) (0#5) (0#5) a (0#4)))
  | .qpop d q => some (.word (encE 48#6 (0#4 ++ q) (0#5) (0#5) d (1#4)))
  | .qstat d q => some (.word (encE 48#6 (0#4 ++ q) (0#5) (0#5) d (2#4)))
  | .aestop q => some (.word (encE 48#6 (0#4 ++ q) (0#5) (0#5) (0#5) (3#4)))
  | .sget d n => some (.word (encE 56#6 n (0#5) (0#5) d (0#4)))
  | .sset a n => some (.word (encE 56#6 n (0#5) (0#5) a (1#4)))
  | .tlbinv a b c => some (.word (encE 56#6 (0#6) c b a (2#4)))
  | .tlbinvc a f => some (.word (encE 56#6 (0#5 ++ f) (0#5) (0#5) a (3#4)))
  | .boost d a => some (.word (encE 56#6 (0#6) (0#5) a d (4#4)))
  | .wake a => some (.word (encE 56#6 (0#6) (0#5) (0#5) a (5#4)))
  | .fabort d => some (.word (encE 56#6 (0#6) (0#5) (0#5) d (6#4)))
  | .compactMov d a g => some (.half (encC g a d 0#4))
  | .compactAdd d a g => some (.half (encC g a d 1#4))
  | .compactSub d a g => some (.half (encC g a d 2#4))
  | .compactMul d a g => some (.half (encC g a d 3#4))
  | .compactAnd d a g => some (.half (encC g a d 4#4))
  | .compactOr d a g => some (.half (encC g a d 5#4))
  | .compactXor d a g => some (.half (encC g a d 6#4))
  | .compactShl d a g => some (.half (encC g a d 7#4))
  | .compactShrZ d a g => some (.half (encC g a d 8#4))
  | .compactShrS d a g => some (.half (encC g a d 9#4))
  | .compactFadd d a g => some (.half (encC g a d 10#4))
  | .compactFsub d a g => some (.half (encC g a d 11#4))
  | .compactFmul d a g => some (.half (encC g a d 12#4))
  | .compactFmin d a g => some (.half (encC g a d 13#4))
  | .compactFmax d a g => some (.half (encC g a d 14#4))
  | .compactFabs d a g => some (.half (encC g a d 15#4))
  | .barrierRelease _ _ => none
  | .commitWriteOut _ => none
  | .flockEnd _ => none
  | .sleepTimerExpiry _ => none
  | .mwaitWake _ => none
  | .tileLoadComplete _ => none
  | .tileStoreComplete _ => none
  | .tileOperationComplete _ => none
  | .copyChunkSend _ => none
  | .engineTroughReserve _ => none
  | .chunkIngress _ _ => none
  | .copyStampWrite _ => none
  | .leaseExpiry _ _ => none
  | .mergeVisit _ => none
  | .streamFetch _ _ => none
  | .illegalInstruction _ _ => none
  | .fetchFault _ => none
  | .loadComplete _ => none
  | .storeComplete _ => none
  | .deferredFaultDelivery _ => none
  | .blockingConditionMet _ => none
  | .launchReady _ => none
  | .foldPlacement _ => none
  | .foldStart _ => none
  | .donation _ _ _ => none
  | .foldEnd _ => none
  | .launchRetirement _ => none
  | .parkedFoldRedispatch _ _ _ => none
  | .admitContext _ => none
  | .preEmpt _ => none
  | .resume _ => none
  | .kill _ => none
  | .routineTimeout _ => none
  | .gangAckReceive _ _ _ _ _ => none
  | .gangDecision _ => none
  | .timeBaseSync _ => none
  | .timeDivisionSlot => none
  | .tokenRefill _ _ _ => none
  | .currentEmergency _ _ => none
  | .passCountLower _ => none
  | .boostLeaseExpiry _ => none
  | .coreWake _ _ => none
  | .energyCopyRefresh _ => none
  | .supplyLossWarning => none
  | .coldReset _ _ => none
  | .sealBoot => none
  | .extendM3 => none
  | .report => none
  | .checkpointMarkerCopy => none
  | .registerWrite _ _ => none
  | .hostAccess _ _ _ => none
  | .remoteRequest _ _ _ _ => none
  | .remoteAccessRefusal _ _ _ _ => none
  | .remoteAccessTimeout _ _ _ _ => none
  | .switchCombine _ _ => none
  | .switchCombineTimeout _ => none
  | .snapshotArm => none
  | .snapshotLineCopy _ => none
  | .snapshotStamp => none
  | .remoteLineWriteBack _ => none
  | .uncorrectableSoftError _ => none

/-- What the decoder reads from an encoding. -/
noncomputable def decodeEnc : Enc → Dec
  | .half h => decodeHalf h
  | .word w => decodeWord w

/-- The bytes of an encoding as memory holds them, the first at the lowest address (R4, R100). -/
def Enc.bytes : Enc → List Byte
  | .half h => [h.extractLsb' 0 8, h.extractLsb' 8 8]
  | .word w => [w.extractLsb' 0 8, w.extractLsb' 8 8, w.extractLsb' 16 8, w.extractLsb' 24 8]

/-- The instruction at the head of a list of bytes and the bytes after it (R100): bit 0 of the first halfword gives the
length. None when the list is too short. -/
noncomputable def decodeBytes : List Byte → Option (Dec × Enc × List Byte)
  | b0 :: b1 :: rest =>
    if b0.getLsbD 0 then
      match rest with
      | b2 :: b3 :: rest' => some (decodeWord (b3 ++ b2 ++ b1 ++ b0), .word (b3 ++ b2 ++ b1 ++ b0), rest')
      | _ => none
    else some (decodeHalf (b1 ++ b0), .half (b1 ++ b0), rest)
  | _ => none

/-- The first `n` bytes of the number `w`, lowest first. -/
def leBytes (n w : Nat) : List Byte := (List.range n).map fun k => BitVec.ofNat 8 (w / 2 ^ (8 * k))

/-- The four bytes of an instruction whose bits, numbered as the opcode table numbers them, are `w`, with every bit from
`nbits` up zero. -/
def tableBytes (nbits w : Nat) : List Byte := leBytes 4 (w % 2 ^ nbits)

/-- The instruction the decoder reads from the bits `w` of an opcode-table row. -/
noncomputable def decodeTableWord (nbits w : Nat) : Option Instr :=
  match decodeBytes (tableBytes nbits w) with
  | some (.ok i, _, _) => some i
  | _ => none

end Sys2Proof
end

