-- ==== Sys2Proof/Config.lean ====
section
/-!
DEFINITION. What the machine fixes once: the sizes of its memories (R1, R329), and the free values. A free value is an opaque
constant without a body: nothing in Lean can evaluate it, so a statement about it holds for every value. Those that
stand for a fresh unknown are applied to the counter `State.free` (log entry 2); those that stand for a function the
spec bounds or names without giving it are applied to its operands (log entries 6 and 7).
-/
namespace Sys2Proof.Config

/-- Bytes of bonded DRAM: 384 GB, decimal (R1, R5). -/
def dramBytes : Nat := 384000000000
/-- System-physical base of the second-tier memory (R329). -/
def tierBase : Nat := 2 ^ 44
/-- Bytes of second-tier memory: 768 GB, decimal (R1, R5). -/
def tierBytes : Nat := 768000000000
/-- System-physical base of the device registers, where the Plewick window stands (R329, R366). -/
def plewickBase : Nat := 2 ^ 48
/-- Bytes of the Plewick window (R366). -/
def plewickBytes : Nat := 2 ^ 20
/-- System-physical base of host memory (R329). -/
def hostBase : Nat := 2 ^ 50
/-- System-physical base of the domain aperture (R329). -/
def apertureBase : Nat := 2 ^ 51

/-- An unknown byte. -/
opaque freeByte : Nat → BitVec 8
/-- An unknown lane word. -/
opaque freeWord : Nat → BitVec 32
/-- An unknown scalar. -/
opaque freeDWord : Nat → BitVec 64
/-- An unknown address. -/
opaque freeAddr : Nat → BitVec 72
/-- An unknown choice among finitely many. -/
opaque freeChoice : Nat → Nat

/-- The value of `vfrcp`, by its operand and `fcr.rm`, where it lies within the bound of R121. -/
opaque rcpValue : BitVec 32 → BitVec 2 → BitVec 32
/-- The value of `vfrsq`, by its operand and `fcr.rm`, where it lies within the bound of R121. -/
opaque rsqValue : BitVec 32 → BitVec 2 → BitVec 32
/-- The value of `vfexp2`, by its operand and `fcr.rm`, where it lies within the bound of R121. -/
opaque exp2Value : BitVec 32 → BitVec 2 → BitVec 32
/-- The value of `vflog2`, by its operand and `fcr.rm`, where it lies within the bound of R121. -/
opaque log2Value : BitVec 32 → BitVec 2 → BitVec 32

/-- How the lines of bonded DRAM spread over the stacks (R270), which the spec does not say: any order of the lines, as swaps one after another of two
lines each. -/
opaque stackSwaps : List (Nat × Nat)
/-- Lines of bonded DRAM: eight stacks of 48 GB, two on each die, hold them all (R1). -/
def stackLines : Nat := dramBytes / 64 / 8
/-- The place of a line, counted through the stacks. -/
def stackPlace (line : Nat) : Nat :=
  stackSwaps.foldl (fun l x => if l = x.1 % (8 * stackLines) then x.2 % (8 * stackLines) else if l = x.2 % (8 * stackLines) then x.1 % (8 * stackLines) else l) line
/-- The die whose stacks hold an address of bonded DRAM. -/
def stackDie (pa : Nat) : Nat := stackPlace (pa / 64) / stackLines / 2

/-- The DRAM channels and the Nalad lanes of the device, and the partition that owns each (R304): the spec gives each partition channels
and lanes, and not which. -/
opaque channelCount : Nat
opaque channelOwner : Nat → Nat
opaque laneCount : Nat
opaque laneOwner : Nat → Nat
/-- The channel on which a line of this device's memory lies (R304, R330, R342), by a number that is taken modulo the count. -/
opaque lineChannel : Nat → Nat

/-- ML-DSA-65 (R365, R370, R372), which the spec names and does not give: whether a signature over a message verifies under a public
key, and the signature of a message by a secret key. -/
opaque mlDsaVerify : List (BitVec 8) → List (BitVec 8) → List (BitVec 8) → Bool
opaque mlDsaSign : List (BitVec 8) → List (BitVec 8) → List (BitVec 8)
/-- The fused key under which boot images verify (R365). -/
opaque fusedKey : List (BitVec 8)
/-- Whether a signature over a boot image verifies under the fused key (R365). -/
def signatureOk (image signature : List (BitVec 8)) : Bool := mlDsaVerify fusedKey image signature
/-- The device's key pair, generated at manufacture (R370): the bytes of its public key, and its secret key. -/
opaque publicKeyByte : Nat → BitVec 8
opaque secretKey : List (BitVec 8)
/-- The public key: 1,952 bytes (R370). -/
def publicKey : List (BitVec 8) := (List.range 1952).map publicKeyByte
/-- The device's signature over a report (R372). -/
def signature (report : List (BitVec 8)) : List (BitVec 8) := mlDsaSign secretKey report
/-- The hash of the boot image's header and body (R365). -/
opaque bootHash : BitVec 384
/-- The hash of the Plewick block's own firmware (R365). -/
opaque firmwareHash : BitVec 384
/-- The fused minimum security version (R365). -/
opaque minimumVersion : Nat
/-- Whether the power budget of a partition has room for a boost lease (R319), at the n-th question. -/
opaque budgetRoom : Nat → Bool

end Sys2Proof.Config
end

