-- ==== Sys2Proof/Machine/Bits.lean ====
section
/-!
DEFINITION. Bit fields, extensions, byte order, exact integer square root, tables keyed by numbers, and the mixing function of
R39: the small operations that the rest of the machine is written with.
-/
namespace Sys2Proof.Machine

/-- The field of `x` from bit `lo`, `w` bits wide (the helper `bits` of R7). -/
def field (x lo w : Nat) : Nat := x / 2 ^ lo % 2 ^ w

/-- The signed value of the low `w` bits of `x`. -/
def signed (w x : Nat) : Int := if 2 ^ (w - 1) ≤ x % 2 ^ w then (x % 2 ^ w : Int) - 2 ^ w else (x % 2 ^ w : Int)

/-- The low `w` bits of an integer. -/
def lowBits (w : Nat) (x : Int) : Nat := (x % (2 ^ w : Int)).toNat

/-- Sign extension of a scalar to an address (R129). -/
def sextAddr (x : DWord) : Addr := x.signExtend 72

/-- The number whose bytes, lowest first, are `bs` (R4). -/
def fromBytes : List Byte → Nat
  | [] => 0
  | b :: bs => b.toNat + 256 * fromBytes bs

/-- The first `n` bytes of `x`, lowest first (R4). -/
def toBytes : Nat → Nat → List Byte
  | 0, _ => []
  | n + 1, x => BitVec.ofNat 8 x :: toBytes n (x / 256)

/-- The bits of a number as a list of `n`, lowest first. -/
def bitList (n x : Nat) : List Bool := (List.range n).map fun k => x.testBit k

/-- The reversal of the low `n` bits of `x` (R38). -/
def bitReverse : Nat → Nat → Nat
  | 0, _ => 0
  | n + 1, x => (x % 2) * 2 ^ n + bitReverse n (x / 2)

/-- The number of ones among the low `n` bits. -/
def popCount : Nat → Nat → Nat
  | 0, _ => 0
  | n + 1, x => x % 2 + popCount n (x / 2)

/-- The integer square root, bit by bit from bit `k - 1` down. -/
def isqrtFrom : Nat → Nat → Nat → Nat
  | 0, _, r => r
  | k + 1, x, r => isqrtFrom k x (if (r + 2 ^ k) * (r + 2 ^ k) ≤ x then r + 2 ^ k else r)

/-- The integer square root. -/
def isqrt (x : Nat) : Nat := isqrtFrom (x.log2 / 2 + 1) x 0

/-- The mixing function of R39. -/
def mix64 (x0 : DWord) : DWord :=
  let x1 := (x0 ^^^ (x0 >>> 30)) * 0xBF58476D1CE4E5B9#64
  let x2 := (x1 ^^^ (x1 >>> 27)) * 0x94D049BB133111EB#64
  x2 ^^^ (x2 >>> 31)

/-- The entry of a table under key `k`. -/
def lookup {α : Type} (t : List (Nat × α)) (k : Nat) : Option α := (t.find? fun e => e.1 == k).map (·.2)

/-- A table with the entry under `k` replaced, keys rising. -/
def store {α : Type} : List (Nat × α) → Nat → α → List (Nat × α)
  | [], k, v => [(k, v)]
  | (j, w) :: t, k, v => if j < k then (j, w) :: store t k v else if j = k then (k, v) :: t else (k, v) :: (j, w) :: t

/-- A list with its first element that satisfies `p` replaced by its image. -/
def updateFirst {α : Type} (p : α → Bool) (f : α → α) : List α → List α
  | [] => []
  | x :: xs => if p x then f x :: xs else x :: updateFirst p f xs

/-- A list sorted by a key, stable. -/
def insertBy {α : Type} (le : α → α → Bool) (x : α) : List α → List α
  | [] => [x]
  | y :: ys => if le y x then y :: insertBy le x ys else x :: y :: ys

/-- Insertion sort, stable. -/
def sortBy {α : Type} (le : α → α → Bool) : List α → List α
  | [] => []
  | x :: xs => (sortBy le xs).foldl (fun acc y => insertBy le y acc) [x]

/-- The least index below `n` from `k` on that satisfies `p`. -/
def firstIndex (p : Nat → Bool) : Nat → Nat → Option Nat
  | 0, _ => none
  | n + 1, k => if p k then some k else firstIndex p n (k + 1)

/-- Whether two spans of bytes meet. -/
def overlap (a la b lb : Nat) : Bool := decide (a < b + lb ∧ b < a + la ∧ 0 < la ∧ 0 < lb)

end Sys2Proof.Machine
end

