-- ==== Sys2Proof/Machine/State.lean ====
section
/-!
DEFINITION. The state of a Kamrek: everything the spec gives the machine, as plain data. INVENTORY.md lists each field with the
rule that names it and its value at reset. The fields `agenda`, `beat`, `round`, `free` and `nextId` of `State`, and the identifiers of
flocks, folds, launches, copy jobs and operations, are the model's own (log entries 1 and 2).
-/
namespace Sys2Proof.Machine

/-- Why a step stops the machine. -/
inductive Fault where
  /-- An access reached a system-physical address of this device's region at which the spec places no memory and no
  register (R329). Raised by any access of a supervisor flock to memory; a flock of a partition becomes `Status.stuck` with it in its stead, for
  no stop of a partition reaches another (R304). Safe: the model stops where the spec says nothing. -/
  | noSuchAddress (address : Nat)
  deriving DecidableEq, Repr

/-- Why a step has no meaning. -/
inductive Refusal where
  /-- The instruction has no meaning in this model. Raised by no instruction of it. Safe. -/
  | notModelled (mnemonic : String)
  /-- The access reached a device register whose effect the spec does not give (R329, R366). Raised by any access of a supervisor flock to
  memory, and held by `Status.stuck` as `noSuchAddress` is. Safe: the model stops where the spec says nothing. -/
  | deviceRegister (address : Nat)
  deriving DecidableEq, Repr

/-- What keeps a flock of a partition, or a stream, where it is (R304): what an access of a supervisor flock, which belongs to no partition, ends the
step with. -/
inductive Stop where
  | fault (f : Fault)
  | refusal (r : Refusal)
  deriving DecidableEq, Repr

/-- Memory as address and byte pairs. Canonical form: addresses strictly rising, no zero byte; an unlisted address reads 0. -/
abbrev Mem := List Host.Cell

/-- The wait-counter classes (R99, R115). -/
inductive Class where
  | loads | stores | copies | tiles
  deriving DecidableEq, Repr

/-- A fault or trap as its taker records it: the fields of `ecause` and `faddr` (R284). -/
structure TrapInfo where
  kind : BitVec 8
  detail : BitVec 8 := 0
  access : BitVec 8 := 0
  lane : Option (BitVec 5) := none
  addr : Addr := 0
  /-- The address is system-physical: that of a descriptor of `snap` (R342). -/
  physical : Bool := false
  deriving DecidableEq, Repr

/-- A register that an operation in flight writes, with its value before and the value it is to get; `bad` when another
write met it, which leaves it undefined (R117). -/
inductive Dest where
  | vector (r : BitVec 6) (old new : Lanes) (bad : Bool)
  | scalar (r : BitVec 5) (old new : DWord) (bad : Bool)
  | address (r : BitVec 4) (old new : Addr) (bad : Bool)
  deriving DecidableEq, Repr

/-- A range of scratch addresses: base and length in bytes. -/
structure Span where
  base : Nat
  len : Nat
  deriving DecidableEq, Repr

/-- A counted operation that its flock issued (R115 to R117). -/
structure PendOp where
  /-- The model's number of the operation. -/
  id : Nat
  cls : Class
  /-- Whether the operation itself is complete; the counter also waits for the earlier ones of its class (R116). -/
  done : Bool
  /-- The address of its instruction. -/
  pc : Addr
  dests : List Dest
  /-- Accumulator tiles that it writes, and whether it is a matrix instruction (R193). -/
  tiles : List Nat
  matrix : Bool
  /-- Scratch it writes, scratch it reads (R191, R192) and operand registers it reads (R192). -/
  writes : List Span
  reads : List Span
  readRegs : List (BitVec 6)
  /-- A `tfence` stood after it: later matrix instructions wait for it (R191). -/
  fenced : Bool
  /-- The flags it ORs into `fcr` when it completes (R77). -/
  ofFlag : Bool
  nvFlag : Bool
  /-- The deferred fault found in its data (R175). -/
  fault : Option TrapInfo
  /-- The copy job that performs it. -/
  job : Option Nat
  /-- The system-physical places of the bytes of memory that it reaches (R59, R272, R314). -/
  places : List Nat
  deriving DecidableEq, Repr

/-- A deferred fault that waits for a boundary (R175): the operation, the address of its instruction, and the fault. -/
structure Deferred where
  op : Nat
  pc : Addr
  info : TrapInfo
  deriving DecidableEq, Repr

/-- A hardware loop level (R93, R135). -/
structure LoopLevel where
  start : Addr := 0
  fin : Addr := 0
  count : DWord := 0
  armed : Bool := false
  deriving DecidableEq, Repr

/-- A layout record (R176, R177), its multi-byte fields as numbers. -/
structure Layout where
  base : Addr := 0
  rank : Nat := 0
  rows : Nat := 0
  columns : Nat := 0
  planes : Nat := 0
  flags : BitVec 8 := 0
  sparse : Nat := 0
  offset : Nat := 0
  tag : DWord := 0
  extents : List Nat := []
  strides : List Int := []
  deriving DecidableEq, Repr

/-- What a tile descriptor is bound to (R179). -/
inductive Binding where
  | unbound | scratch | registers
  deriving DecidableEq, Repr

/-- A tile descriptor (R179). -/
structure TileDesc where
  binding : Binding := .unbound
  layout : Layout := {}
  record : Addr := 0
  format : BitVec 5 := 0
  signed : Bool := false
  scratch : Word := 0
  coords : List Nat := [0, 0, 0, 0, 0]
  vbase : Nat := 0
  planes : Nat := 0
  deriving DecidableEq, Repr

/-- A stream descriptor (R230). -/
structure StreamDesc where
  base : Addr
  flags : BitVec 8
  counts : List Nat
  laneStride : Int
  strides : List Int
  flockStride : Int
  visitStride : Int
  deriving DecidableEq, Repr

/-- A running stream: the entry that it fetches next, and whether a fault holds it (R231, R233). An entry at an address for which the spec gives no effect
never comes, and keeps its name here (log entry 129). -/
structure Stream where
  desc : StreamDesc
  next : Nat
  held : Bool
  stop : Option Stop := none
  deriving DecidableEq, Repr

/-- An entry of an operand queue (R231, R233); `broken` when its data holds an uncorrectable soft error (R237). -/
structure QueueEntry where
  lanes : Lanes
  fault : Option TrapInfo
  broken : Option Addr
  index : Nat
  /-- As in `PendOp`. -/
  places : List Nat := []
  deriving DecidableEq, Repr

/-- An operand queue (R93, R231); `raised` when a `qpop` has raised the fault of the head entry (R233). -/
structure Queue where
  entries : List QueueEntry := []
  stream : Option Stream := none
  raised : Bool := false
  deriving DecidableEq, Repr

/-- A flock's monitor (R166). -/
structure Monitor where
  line : Nat := 0
  armed : Bool := false
  event : Bool := false
  deriving DecidableEq, Repr

/-- An estimate: count, mean and M2 (FP64 bits), and the non-finite bit (R45, R47). -/
structure Estimate where
  n : Nat := 0
  mean : DWord := 0
  m2 : DWord := 0
  nonfinite : Bool := false
  deriving DecidableEq, Repr

/-- An estimate deposited by a flock (R48). -/
structure Deposit where
  field : Nat
  est : Estimate
  deriving DecidableEq, Repr

/-- One addition of a held reduction (R64): the system-physical address, the operand, and the lane and virtual address that a machine check
of it names (R303). -/
structure HeldAdd where
  address : Nat
  value : Word
  lane : Option (BitVec 5)
  va : Addr
  deriving DecidableEq, Repr

/-- A commit-buffer entry (R64): a 64-byte line with a bit enable for every bit and the tensor tag of its last store, or
held reductions with the flock field, the address and the operation number of the instruction that issued them. -/
inductive CommitEntry where
  | line (address : Nat) (enable data : BitVec 512) (tag : BitVec 16)
  | reduction (field : Nat) (float : Bool) (items : List HeldAdd) (tag : BitVec 16) (pc : Addr) (op : Nat)
  deriving DecidableEq, Repr

/-- What a blocked instruction waits for (R99, R139, R141, R165, R191, R202). -/
inductive Block where
  | wait (l s c t : Nat)
  | saturated (c : Class)
  | fence (order : BitVec 2)
  | storesDone
  | allDone
  | operands
  | reserve (trough : Nat)
  | take (trough : Nat)
  | bank (mask : BitVec 8)
  | drain (slot : Nat)
  | estimate (record : Addr) (bound : DWord)
  | queue (q : BitVec 2)
  deriving DecidableEq, Repr

/-- What a flock is doing. -/
inductive Status where
  | running
  | blocked (b : Block)
  /-- Arrived at a barrier instance, of the cluster gang or of the fold, and whether by `commit` (R140, R141). -/
  | barrier (cluster commit : Bool)
  /-- Past the barrier of a `commit`, until the fold has written its buffer (R66). -/
  | committing
  | halting
  | sleeping (till : DWord)
  | waiting
  /-- Stalled on a page fault whose park-list entry carries this generation (R289). -/
  | stalled (generation : DWord)
  /-- Its access to another device is out since an instant: the machine check that a refusal raises (R330). -/
  | remote (t : TrapInfo) (since : DWord)
  /-- A flock of a partition whose access the spec gives no effect: it stays at its instruction, and every other flock goes on (R304, log
  entry 129). -/
  | stuck (why : Stop)
  | yielded
  | ended
  deriving DecidableEq, Repr

/-- The routine, entered through a vector, in which a flock is (R109, R293 to R296, R312). -/
inductive Routine where
  | none | trap | save | resume | gangAbort
  deriving DecidableEq, Repr

/-- A flock (R93, R97): one program counter and its register files. -/
structure Flock where
  id : Nat
  /-- The fold it belongs to; 0 for a supervisor flock. -/
  fold : Nat
  ctx : Nat
  core : Nat
  field : Nat
  privileged : Bool
  secure : Bool
  v : Vector Lanes 64
  s : Vector DWord 32
  a : Vector Addr 16
  p : Vector Mask 8
  em : Mask
  fcr : Word
  loops : Vector LoopLevel 4
  td : Vector TileDesc 16
  queues : Vector Queue 4
  pc : Addr
  pend : List PendOp
  /-- Scratch spans that the fold wrote since this flock's last `tfence` (R159, R191, R192). -/
  unfenced : List Span
  monitor : Monitor
  /-- The `mwait` in which a trap found it, which is over when the routine returns (R168). -/
  waitedAt : Option Addr
  wakePending : Bool
  /-- How many `wake`s have reached it, by which a core tells that one did (R322). -/
  wakes : Nat
  epc : Addr
  ecause : DWord
  faddr : Addr
  dpc : Addr
  tinfo : DWord
  routine : Routine
  /-- The first operation number of the routine: faults of earlier ones wait for its `eret` (R175). -/
  entered : Nat
  /-- How many routines it has entered: an instruction that was trapped starts afresh (R202). -/
  entries : Nat
  /-- A pre-emption waits for this flock's `eret` (R296). -/
  preempt : Bool
  key : DWord
  draw : DWord
  est : Estimate
  ttag : BitVec 16
  deferred : List Deferred
  buf : List CommitEntry
  status : Status
  deriving DecidableEq, Repr

/-- An accumulator pair: sum and compensation (R86). -/
structure Pair where
  s : Word := 0
  c : Word := 0
  deriving DecidableEq, Repr

/-- An accumulator tile: entry (r, n) at index 32 r + n (R93). -/
abbrev Tile := Vector Pair 256

/-- The owner of storage (R260, R263): the context, which admission of its number it is (R267), and its world. -/
structure Owner where
  ctx : Nat
  life : Nat
  secure : Bool
  deriving DecidableEq, Repr

/-- The registers that a flock left, by its place among the four flocks of a granule (R18, R260). -/
structure RegistersLeft where
  place : Nat
  v : Vector Lanes 64
  s : Vector DWord 32
  a : Vector Addr 16
  p : Vector Mask 8
  deriving DecidableEq, Repr

/-- What a fold left in a granule (R260): registers of its flocks, accumulator tiles, local scratch from an address on, or the bytes that
its commit buffer held. -/
inductive Left where
  | registers (flocks : List RegistersLeft)
  | tiles (ts : List Tile)
  | bytes (base : Nat) (cells : Mem)
  | buffer (values : List Byte)
  deriving DecidableEq, Repr

/-- A granule of a core's pool (R258, R260): its last owner, and what that owner's folds left there. -/
structure Granule where
  owner : Option Owner := none
  left : List Left := []
  deriving DecidableEq, Repr

/-- Local scratch: the bytes written, and the granules of it that the same owner used before, with what it left there: a byte
not written since is zero or a value left (R260). Elsewhere an unlisted byte is zero. -/
structure Scratch where
  cells : Mem := []
  reused : List (Nat × List Left) := []
  seed : Nat := 0
  deriving DecidableEq, Repr

/-- The states of a trough slot (R212). -/
inductive SlotState where
  | empty | reserved | posted | filled | taken | released
  deriving DecidableEq, Repr

/-- A request that waits at a trough (R269): a flock at an instruction, with the routines it had entered by then, or a copy job. -/
structure Waiter where
  agent : Nat
  pc : Addr
  job : Bool
  entries : Nat := 0
  deriving DecidableEq, Repr

/-- A trough (R212). `head` is the ring position of the next slot to be reserved, `slots` lists the slots that are not
empty, oldest first. -/
structure Trough where
  set : Bool := false
  base : Nat := 0
  logSize : Nat := 6
  count : Nat := 0
  closed : Bool := false
  head : Nat := 0
  slots : List (Nat × SlotState) := []
  /-- The flocks that hold reserved and taken slots (R212, R268). -/
  holders : List (Nat × Nat) := []
  /-- Requests for an empty and for a filled slot, in order of arrival (R269). -/
  reserving : List Waiter := []
  taking : List Waiter := []
  deriving DecidableEq, Repr

/-- A fold on a core (R8 to R23). -/
structure Fold where
  id : Nat
  launch : Nat
  ctx : Nat
  visit : Nat
  index : Nat
  core : Nat
  position : Nat
  half : Bool
  regs : Nat
  acc : Nat
  commit : Nat
  accs : Vector Tile 64
  scratch : Scratch
  bmap : Vector (Option (BitVec 4)) 8
  arrival : BitVec 8
  troughs : Vector Trough 8
  buf : List CommitEntry
  /-- Completed barrier instances of the fold and of the cluster gang (R141, R297). -/
  bars : Nat
  clusterBars : Nat
  deposits : List Deposit
  /-- Granules of its share that the same owner used before it, with what it left there (R260). -/
  stale : List (Nat × List Left)
  started : Bool
  /-- The final commit is in memory (R66). -/
  committed : Bool
  /-- When its write-out first asked a device that does not answer, and the devices that had not answered when it last looked in time (R330, R374). -/
  outSince : Option (DWord × List Nat) := none
  deriving DecidableEq, Repr

/-- A launch header (R27), as it was read at acceptance. -/
structure Header where
  magic : Word
  flags : Word
  widths : List Nat
  extents : List Nat
  seed : DWord
  entry : Addr
  access : Addr
  partition : DWord
  priority : Nat
  confidence : Nat
  minN : Nat
  finite : Nat
  stride : Nat
  start : DWord
  deadline : DWord
  energy : DWord
  target : DWord
  record : Addr
  predecessor : Addr
  mode : Nat
  threshold : Word
  argument : Addr
  rngBase : DWord
  rngLength : DWord
  orderKey : DWord
  stamp : Addr
  deriving DecidableEq, Repr

/-- The slot map of a stopping launch (R57). -/
structure SlotMap where
  base : Addr
  stride : Nat
  size : Nat
  deriving DecidableEq, Repr

/-- A gang descriptor (R222), with the own send stamp (R310). -/
structure Gang where
  ident : DWord
  generation : DWord
  members : Nat
  index : Nat
  window : DWord
  guard : DWord
  sent : DWord
  decided : Bool
  deriving DecidableEq, Repr

/-- A launch (R24 to R36, R49 to R62). -/
structure Launch where
  id : Nat
  ctx : Nat
  header : Addr
  hdr : Header
  seq : Nat
  depth : Nat
  status : BitVec 8
  secure : Bool
  slots : Option SlotMap
  population : Nat
  gang : Option Gang
  /-- The launch that its subscription names (R60). -/
  predecessor : Option Nat
  /-- Its provisional subscription was met at a check point (R61). -/
  provisional : Bool
  /-- The half widths at its own check points so far (R61). -/
  checks : List DWord := []
  /-- The next position of the visiting order, and the visit number it gets. -/
  position : Nat
  visits : Nat
  started : List Nat
  ended : List Nat
  /-- Deposits of ended visits that are not merged yet. -/
  deposits : List (Nat × List Deposit)
  /-- Visits merged, the record's estimate, half width, state and flags (R41, R42). -/
  version : Nat
  est : Estimate
  half : DWord
  state : Nat
  rflags : Nat
  /-- Software wrote the record since acceptance, or a fold broke R58, which leaves the record's values and the stop visit unknown (R43, R59). -/
  spoiled : Bool := false
  /-- The system-physical places of the record's bytes where it was written last (R43). -/
  recordAt : List Nat := []
  /-- The visits whose folds wrote memory under the stop flag, with the system-physical places that they wrote (R58). -/
  wrote : List (Nat × Nat) := []
  /-- The places at which folds of the launch broke R58: those that they wrote outside their own slots, and those that they read although another fold
  wrote them (R59). -/
  strays : List Nat := []
  /-- The launch is closing: its final status and its stop visit, once known. -/
  closing : Option (BitVec 8 × Nat)
  /-- The moment of R30 has come: everything that readiness asks for has held at one instant. -/
  due : Bool := false
  deriving DecidableEq, Repr

/-- A dispatch record in a cluster's queue (R33, R34). -/
structure Dispatch where
  launch : Nat
  visit : Nat
  index : Nat
  cluster : Nat
  deriving DecidableEq, Repr

/-- A chunk on its way (R207, R224, R333). -/
structure Chunk where
  index : Nat
  /-- The elements packed from bit 0, and the scale bytes of Microscaling elements. -/
  bits : Nat
  scales : List Nat
  width : Nat
  count : Nat
  format : BitVec 5
  w1 : Nat
  w2 : DWord
  w3 : DWord
  withSums : Bool
  hop : Nat
  identity : DWord
  attempts : Nat
  /-- When it first left the core of its source, or left a switch that combined it (R330), and the combining entries that were in force when it was sent
  (R338). -/
  since : Option DWord := none
  entries : List Nat := []
  /-- Jobs of this device whose chunks a switch has added into it (R338). -/
  partners : List Nat := []
  deriving DecidableEq, Repr

/-- One end of a copy: a layout record with its format, a packed image in scratch, or a trough (R204, R205). -/
inductive CopyEnd where
  | record (layout : Layout) (format : BitVec 5)
  | image (address : Nat)
  | trough (number : Nat)
  deriving DecidableEq, Repr

/-- What the copy engine does with a job: copies, or a collective step that writes or reduces (R204, R227). -/
inductive JobKind where
  | mm | ms | mb | ml | mt | sm | bg | put | get | collPut | collRed
  deriving DecidableEq, Repr

/-- A copy or collective step in the engine (R204 to R211, R227). -/
structure CopyJob where
  id : Nat
  kind : JobKind
  flock : Nat
  fold : Nat
  ctx : Nat
  secure : Bool
  privileged : Bool
  src : CopyEnd
  dst : CopyEnd
  start : List Nat
  width : Nat
  total : Nat
  rounding : Word
  stamp : Addr
  seq : Nat
  identity : DWord
  next : Nat
  chunk : Option Chunk
  /-- The chunk as the source formed it, until its destination has it (R334); and whether a switch has added it into another
  job's chunk, which goes on in its place (R338). -/
  formed : Option Chunk := none
  riding : Bool := false
  /-- The core of the flock that issued it. -/
  core : Nat := 0
  /-- Since when it asks a source that does not answer (R330). -/
  asked : Option DWord := none
  /-- The trough slot reserved for it (R214). -/
  slot : Option Nat
  status : Nat
  failedChunks : List Nat
  stopped : Bool
  deriving DecidableEq, Repr

/-- A lease (R218, R273): handle, virtual base, length, expiry, and the spans of system-physical memory whose lines it pins. -/
structure Lease where
  handle : Nat
  base : Addr
  len : Nat
  expiry : DWord
  spans : List (Nat × Nat)
  deriving DecidableEq, Repr

/-- A context (R234, R306), and the system registers of a supervisor flock. -/
structure Context where
  state : Nat := 0
  secure : Bool := false
  share : Nat := 0
  guestRoot : Nat := 0
  systemRoot : Nat := 0
  energy : DWord := 0
  tvec : Addr := 0
  svec : Addr := 0
  mxsb4 : Addr := 0
  mxsb6 : Addr := 0
  parkb : Addr := 0
  errq : Addr := 0
  fgen : DWord := 0
  copySeq : Nat := 1
  acceptSeq : Nat := 1
  leases : List Lease := []
  boost : Option DWord := none
  /-- Records written to and popped from the error ring (R228), and the sticky lost bit. -/
  ringIn : Nat := 0
  ringOut : Nat := 0
  lost : Bool := false
  /-- A pre-emption is in progress, with the tag of its command, its shepherd's die (R307) and its time (R296); and the commands to
  pre-empt that came meanwhile, which are answered with it. -/
  preempting : Option (Word × BitVec 2 × DWord) := none
  preemptAlso : List (Word × BitVec 2) := []
  /-- How often its number was admitted (R267). -/
  life : Nat := 0
  deriving DecidableEq, Repr

/-- Where a bank is (R261). -/
inductive BankPlace where
  | pooled
  | mapped (core slot : Nat)
  | held (fold slot : Nat)
  /-- Drained by the copies of a fold that has left its core, before it returns to the pool (R265, R287). -/
  | draining (fold : Nat)
  deriving DecidableEq, Repr

/-- A bank of a cluster (R261): place, last owner, contents. -/
structure Bank where
  place : BankPlace := .pooled
  owner : Option Owner := none
  cells : Mem := []
  deriving DecidableEq, Repr

/-- What sent a request to a core's mesh port (R314): a counted operation, the chunk of a copy job, the fetch of an entry of an operand
queue, the write-out of a fold's commit buffer, or the fetch of an instruction. -/
inductive Asker where
  | op (n : Nat)
  | chunk (job : Nat)
  | entry (flock : Nat) (queue : BitVec 2) (index : Nat)
  | commit (fold : Nat)
  | fetch (flock : Nat)
  deriving DecidableEq, Repr

/-- A request that waits at a core's mesh port: its context, and the tokens that it still needs (R314). -/
structure Request where
  ctx : Nat
  asker : Asker
  tokens : Nat
  deriving DecidableEq, Repr

/-- A core: its granules (R258, R260), the token buckets of its port with the refill window they were set for and the requests that wait
there, in order of arrival (R314, R315), and its status word (R323): the word without wake reasons as it last stood, the words that it has yet to write, oldest first, and when it woke
last (R322). -/
structure CoreInfo where
  granules : List Granule := List.replicate 16 {}
  buckets : List (Nat × Nat) := []
  window : Nat := 0
  port : List Request := []
  shown : Option Nat := none
  due : List Nat := []
  wokeAt : Option DWord := none
  deriving DecidableEq, Repr

/-- A cluster: pass code (R98), current emergency (R317) and the time of the last step of its pass count. -/
structure Cluster where
  pass : BitVec 2 := 0
  emergency : Bool := false
  lowered : DWord := 0
  deriving DecidableEq, Repr

/-- A partition (R304, R366). -/
structure Partition where
  clusters : BitVec 32 := 0
  slices : BitVec 64 := 0
  tag : BitVec 16 := 0
  secure : Bool := false
  energy : DWord := 0
  /-- Its DRAM channels and its Nalad lanes (R304, log entry 21). -/
  channels : List Nat := []
  lanes : List Nat := []
  deriving DecidableEq, Repr

/-- What bring-up sealed (R366). -/
structure Setup where
  control : Nat := 0
  device : Nat := 0
  partitions : List Partition := []
  timeMap : List Byte := []
  shepherdSecure : BitVec 4 := 0
  hostBase : Nat := 0
  hostLength : Nat := 0
  deriving DecidableEq, Repr

/-- The Plewick block (R364 to R373). -/
structure Plewick where
  status : DWord := 0
  m : Vector (BitVec 384) 4 := Vector.replicate 4 0
  sealed : Bool := false
  sealedBlock : List Byte := []
  /-- The operation that runs (R371), and whether a secure agent asked for it. -/
  request : Option (Nat × Bool) := none
  marker : Option (List Byte) := none
  /-- The seal word was written and the block has not acted on it (R366). -/
  sealing : Bool := false
  deriving DecidableEq, Repr

/-- A TLB (R282): of a core, of the tile address engine of a core, or the nested TLB of a die. -/
inductive TlbHolder where
  | core (n : Nat)
  | ahead (n : Nat)
  | nested (die : Nat)
  deriving DecidableEq, Repr

/-- What a translation finds for a page: its system-physical base, its attributes (R280), and the level of the leaf of the system
stage (R284). A nested translation has no format, geometry or privilege. -/
structure Leaf where
  base : Nat
  format : BitVec 5 := 0
  raw : Bool := false
  priv : Bool := false
  x : Bool
  w : Bool
  r : Bool
  ns : Bool
  level : Nat := 0
  deriving DecidableEq, Repr

/-- A translation that a TLB holds (R282): context, page of the virtual address (guest-physical in a nested TLB), and what the walk
found. Accesses at the offsets listed in `hidden` use the tables in its stead (R283). -/
structure TlbEntry where
  holder : TlbHolder
  ctx : Nat
  page : Nat
  leaf : Leaf
  hidden : List Nat := []
  deriving DecidableEq, Repr

/-- Who holds code that was fetched before (R170): a core's instruction cache, or a flock that has yet to issue it. -/
inductive CodeHolder where
  | core (n : Nat)
  | flock (n : Nat)
  deriving DecidableEq, Repr

/-- A line that carries a tensor tag (R171, R172): the tag, the context that set it, and for each byte the values it has
held since. -/
structure TagLine where
  line : Nat
  tag : BitVec 16
  ctx : Nat
  history : List (Nat × Byte)
  deriving DecidableEq, Repr

/-- A command word that the launch unit has yet to act on (R307). -/
structure Command where
  die : BitVec 2
  word : DWord
  secure : Bool
  deriving DecidableEq, Repr

/-- A saved fold with its flocks (R297). -/
structure SavedFold where
  fold : Fold
  flocks : List Flock
  /-- Its entry of the park list, and its blocks of the save pool. -/
  slot : Nat
  generation : DWord
  blocks : Nat
  firstBlock : Nat
  deriving DecidableEq, Repr

/-- A parked or stalled item of the park list, by its slot (R288): what to re-dispatch or replay. -/
structure Parked where
  ctx : Nat
  slot : Nat
  launch : Nat
  visit : Nat
  index : Nat
  /-- The stalled flock; none for a parked fold. -/
  flock : Option Nat
  generation : DWord
  installed : Bool
  /-- Its entry was freed at a resume (R292), or by a reply, which lets it go at once (R291). -/
  freed : Bool := false
  replied : Bool := false
  /-- The cluster where its gang stands (R300). -/
  cluster : Option Nat
  /-- The core on which it was parked (R320). -/
  core : Nat := 0
  deriving DecidableEq, Repr

/-- A snapshot in progress (R342 to R346). -/
structure Snapshot where
  ctx : Nat
  at_ : DWord
  ranges : List (Nat × Nat)
  dest : Nat
  stamp : Nat
  armed : Bool
  /-- Lines still to be copied, as system-physical line addresses with the destination of each. -/
  pending : List (Nat × Nat)
  /-- Lines copied that carried an uncorrectable soft error (R346). -/
  damaged : List Nat
  deriving DecidableEq, Repr

/-- A chunk that a switch holds: its port, the job of this device that sent it (0 for another device's), and when it arrived. -/
structure Held where
  port : Nat
  chunk : Chunk
  job : Nat
  since : DWord
  deriving DecidableEq, Repr

/-- A combining entry of a switch (R338): the switch, by its hop on the way of this device's chunks, the step it serves, its input ports
and its output port, whether it is in force for chunks sent now, and the chunks it holds. -/
structure Combine where
  id : Nat
  hop : Nat
  coll : Nat
  step : Nat
  portP : Nat
  portQ : Nat
  portOut : Nat
  inForce : Bool
  held : List Held
  deriving DecidableEq, Repr

/-- An acknowledgement of a gang member that has arrived (R311): gang, generation, member, when it was sent and when it came. -/
structure Ack where
  gang : DWord
  generation : DWord
  member : Nat
  sent : DWord
  arrived : DWord
  deriving DecidableEq, Repr

/-- What energy is charged for (R326): a flock that issues, its save and restore routines among what it issues; a copy job; a lease of a
context; ballast after a load step of a partition; scrubbing and tests; and what is idle. -/
inductive Activity where
  | issue (flock : Nat)
  | engine (job : Nat)
  | lease (ctx handle : Nat)
  | ballast (partition : Nat)
  | test
  | idle
  deriving DecidableEq, Repr

/-- Another device of the domain that answers (R328, R330): the tags of its partitions, each over a span of its DRAM (first byte, length),
and the switches on the way. -/
structure Peer where
  tags : List (Nat × Nat × BitVec 16)
  switches : Nat
  deriving DecidableEq, Repr

/-- How a chunk of another device reaches this device's memory (R333, R335): the first bit of each element there, none for one outside the
destination's extents; whether the elements are added to what stands there, and under which saturation; the tag of the partition that sent
it (R330) and the tensor tag that it writes. -/
structure Inbound where
  places : List (Option Nat)
  reduce : Bool
  sat : Bool
  tag : BitVec 16
  tensor : BitVec 16
  deriving DecidableEq, Repr

/-- A move that is still to come: the model's own choice of which agent acts next, and what the outside world does. -/
inductive Move where
  /-- The agent named by an event row acts. -/
  | act (event : Instr)
  /-- The flock of this number is the next to issue. -/
  | turn (flock : Nat)
  /-- The decrements and additions of dependency counters that these flocks issue next arrive in one cycle (R31). -/
  | together (flocks : List Nat)
  /-- Time passes: nanoseconds of the time base (R309). -/
  | tick (ns : Nat)
  /-- Energy in microjoules is charged for an activity (R326). -/
  | charge (activity : Activity) (uj : Nat)
  /-- A TLB takes the translation of the page of an address (R282), or drops it. -/
  | tlbFill (holder : TlbHolder) (ctx : Nat) (address : Nat)
  | tlbDrop (holder : TlbHolder) (ctx : Nat) (page : Nat)
  /-- From now on accesses at these offsets of a page use the tables, and all others what the TLB holds (R283). -/
  | tlbHide (holder : TlbHolder) (ctx : Nat) (page : Nat) (offsets : List Nat)
  /-- This device's L2 takes a clean copy of a line of another device's memory, or drops it (R257). -/
  | lineFill (line : Nat)
  | lineDrop (line : Nat)
  /-- This device's L2 writes a dirty line back and keeps it (R257, R325). -/
  | lineClean (line : Nat)
  /-- Another device's memory changes at its home (R240, R257), or the host's memory does (R152, R167). -/
  | farWrite (cells : List (Nat × Byte))
  /-- A core's instruction cache or a flock takes a halfword of code at a system-physical address, or drops it (R170, R174). -/
  | code (holder : CodeHolder) (place : Nat) (held : Bool)
  /-- The launch unit issues the next dispatch record of a launch to a cluster's queue (R33). -/
  | dispatch (launch : Nat) (cluster : Nat)
  /-- A chunk from another device reaches a port of a combining switch (R338). -/
  | chunk (entry : Nat) (port : Nat) (chunk : Chunk)
  /-- A chunk that another device sent reaches its destination here, with some bits flipped on the way (R333, R334). -/
  | arrive (way : Inbound) (chunk : Chunk) (flip : Nat)
  /-- A peer of the domain answers from now on, or no longer (R330). -/
  | peer (device : Nat) (p : Option Peer)
  /-- The fabric manager gives a switch a combining entry, or takes it out of force (R338). -/
  | combining (c : Combine)
  | uncombine (entry : Nat)
  deriving DecidableEq, Repr

/-- The machine. -/
structure State where
  /-- The flock whose turn it is to issue, and its fold. -/
  cur : Flock
  fold : Fold
  flocks : List Flock
  folds : List Fold
  /-- Folds that left their cores and whose copies are still to complete (R287). -/
  departed : List Fold
  mem : Mem
  /-- Bits of other devices' memory that this device's L2 holds dirty (address, enabled bits, data), and the bytes that it holds clean
  (R151, R257). -/
  remote : List (Nat × Byte × Byte)
  clean : Mem
  /-- Lines of this device's memory that its L2 holds dirty (R325, log entry 99). -/
  dirty : List Nat
  /-- The lines that the L2 is known to hold, the least recently used first (R272, log entry 123). -/
  used : List Nat
  /-- What bytes held before a write to memory that is not complete: the operation, the address and the byte (R324). -/
  inFlight : List (Nat × Nat × Byte)
  /-- Lines that carry an uncorrectable error (R302), and scratch bytes and accumulator entries of folds that do. -/
  broken : List SoftErrorPlace
  tlb : List TlbEntry
  /-- Halfwords of code that fetch may still show, by holder and system-physical address (R170, R174). -/
  code : List (CodeHolder × Nat × BitVec 16)
  tags : List TagLine
  contexts : List (Nat × Context)
  launches : List Launch
  dispatch : List Dispatch
  jobs : List CopyJob
  /-- The context whose background copy was served last (R341). -/
  bgTurn : Nat
  commands : List Command
  saved : List SavedFold
  parked : List Parked
  /-- At most one for each partition (R342). -/
  snapshots : List Snapshot
  combining : List Combine
  peers : List (Nat × Peer)
  /-- Acknowledgements of gang members (R311). -/
  acks : List Ack
  banks : List (Nat × Bank)
  cores : List (Nat × CoreInfo)
  clusters : List (Nat × Cluster)
  plewick : Plewick
  setup : Setup
  time : DWord
  /-- What is left of a step of the time base that is slewed, and the nanoseconds that have not yet made up one of the slew (R309). -/
  slew : Int
  slewCarry : Nat
  /-- The position in the time-division schedule (R313). -/
  slot : Nat
  /-- Every core has stopped: after a supply-loss warning (R324), or held in reset by a failed boot (R364). -/
  stopped : Bool
  /-- Device overhead energy, microjoules (R305, R326). -/
  overhead : DWord
  agenda : List Move
  /-- Instructions that the current flock has issued since another agent last had a turn, and how often others had one. -/
  beat : Nat
  round : Nat
  free : Nat
  nextId : Nat
  deriving DecidableEq, Repr

/-- A flock with every register at the value the model names for reset (log entry 4). -/
def Flock.blank (id fold ctx core field : Nat) (pc : Addr) : Flock where
  id := id
  fold := fold
  ctx := ctx
  core := core
  field := field
  privileged := false
  secure := false
  v := Vector.replicate 64 Lanes.zero
  s := Vector.replicate 32 0
  a := Vector.replicate 16 0
  p := Vector.replicate 8 0
  em := 0
  fcr := 0
  loops := Vector.replicate 4 {}
  td := Vector.replicate 16 {}
  queues := Vector.replicate 4 {}
  pc := pc
  pend := []
  unfenced := []
  monitor := {}
  waitedAt := none
  wakePending := false
  wakes := 0
  epc := 0
  ecause := 0
  faddr := 0
  dpc := 0
  tinfo := 0
  routine := .none
  entered := 0
  entries := 0
  preempt := false
  key := 0
  draw := 0
  est := {}
  ttag := 0
  deferred := []
  buf := []
  status := .running

/-- The number under which a supervisor flock's own system registers stand: 512 plus its die (log entry 8). -/
def supervisorContext (die : Nat) : Nat := 512 + die

/-- The supervisor flock of a die as it starts at cold reset (R364). -/
def Flock.supervisor (die : Nat) (entry : Addr) : Flock :=
  { Flock.blank die 0 (supervisorContext die) (256 + die) 0 entry with privileged := true, secure := true, em := 0xFFFFFFFF }

/-- The place holder where the current flock belongs to no fold (R130). -/
def Fold.absent : Fold where
  id := 0
  launch := 0
  ctx := 0
  visit := 0
  index := 0
  core := 0
  position := 0
  half := false
  regs := 0
  acc := 0
  commit := 0
  accs := Vector.replicate 64 (Vector.replicate 256 {})
  scratch := {}
  bmap := Vector.replicate 8 none
  arrival := 0
  troughs := Vector.replicate 8 {}
  buf := []
  bars := 0
  clusterBars := 0
  deposits := []
  stale := []
  started := false
  committed := false

/-- The machine right after a cold reset: four supervisor flocks stand at the entry of the boot image (R364), nothing is
sealed, and no memory byte is other than zero. The boot image itself is not part of the machine: its entry is taken as
address 0 (log entry 5). -/
def State.reset : State where
  cur := Flock.supervisor 0 0
  fold := Fold.absent
  flocks := [Flock.supervisor 1 0, Flock.supervisor 2 0, Flock.supervisor 3 0]
  folds := []
  departed := []
  mem := []
  remote := []
  clean := []
  dirty := []
  used := []
  inFlight := []
  broken := []
  tlb := []
  code := []
  tags := []
  contexts := []
  launches := []
  dispatch := []
  jobs := []
  bgTurn := 0
  commands := []
  saved := []
  parked := []
  snapshots := []
  combining := []
  peers := []
  acks := []
  banks := []
  cores := []
  clusters := []
  plewick := { m := ((Vector.replicate 4 0).set 0 Config.firmwareHash).set 1 Config.bootHash }
  setup := {}
  time := 0
  slew := 0
  slewCarry := 0
  slot := 0
  stopped := false
  overhead := 0
  agenda := []
  beat := 0
  round := 0
  free := 0
  nextId := 4

end Sys2Proof.Machine
end

