-- ==== Sys2Proof/Machine/Mem.lean ====
section
/-!
DEFINITION. Memory as a canonical list of cells, the regions of R329, and the one operation by which any agent writes
system-physical memory: it keeps a running snapshot (R344), the tensor tags (R171), the monitors (R167), the shepherd lines
(R307) and the Plewick window (R366, R371) in step with the write.
-/
namespace Sys2Proof.Machine

/-- The byte at an address; an unlisted address reads 0 (log entry 3). -/
def Mem.read (m : Mem) (a : Nat) : Byte := (lookup m a).getD 0

/-- The memory with one byte written, canonical form kept. -/
def Mem.write : Mem → Nat → Byte → Mem
  | [], a, b => if b = 0 then [] else [(a, b)]
  | (k, c) :: t, a, b =>
    if k < a then (k, c) :: Mem.write t a b
    else if k = a then (if b = 0 then t else (a, b) :: t)
    else if b = 0 then (k, c) :: t else (a, b) :: (k, c) :: t

/-- Whether every cell lies above `lo` (none: any address), addresses strictly rising and no byte zero. -/
def Mem.wfFrom : Option Nat → Mem → Bool
  | _, [] => true
  | lo, (a, b) :: t => (match lo with | none => true | some l => decide (l < a)) && b != 0 && Mem.wfFrom (some a) t

/-- The canonical form. -/
def Mem.wf (m : Mem) : Bool := Mem.wfFrom none m

/-- Several bytes written in order. -/
def Mem.writeAll (m : Mem) (ws : List (Nat × Byte)) : Mem := ws.foldl (fun m w => m.write w.1 w.2) m

/-- The bytes `n` from address `a` on. -/
def Mem.bytes (m : Mem) (a n : Nat) : List Byte := (List.range n).map fun k => m.read (a + k)

/-- Consecutive bytes as writes. -/
def cellsAt (a : Nat) (bs : List Byte) : List (Nat × Byte) := bs.zipIdx.map fun e => (a + e.2, e.1)

/-! Storage with old contents (R260): a granule has 32 KiB, of which four flocks' vector registers take 8 KiB each, or 16 tiles 2 KiB
each (R17). -/

/-- Byte `k` of a word. -/
def wordByte (w : Word) (k : Nat) : Byte := w.extractLsb' (8 * k) 8

/-- The byte that was left at an offset of a granule; 0 where nothing was. -/
def Left.byte (o : Nat) : Left → Byte
  | .registers fs =>
    match fs.find? fun f => f.place == o / 8192 with
    | some f => wordByte (((f.v[o % 8192 / 128]?).bind fun v => v[o % 128 / 4]?).getD 0) (o % 4)
    | none => 0
  | .tiles ts =>
    match (ts[o / 2048]?).bind fun t => t[o % 2048 / 8]? with
    | some e => wordByte (if o % 8 < 4 then e.s else e.c) (o % 4)
    | none => 0
  | .bytes base cells => Mem.read cells (base + o)
  | .buffer _ => 0

/-- The bytes that may stand at an offset of a granule after what was left there: of a commit buffer any byte that it held. -/
def Left.bytesAt (o : Nat) : Left → List Byte
  | .buffer vs => vs
  | l => [Left.byte o l]

/-- A byte that nothing has written since its owner came back: zero or one of the values it may have (R260). -/
def oneOf (n : Nat) (vs : List Byte) : Byte := (0 :: vs).getD (Config.freeChoice n % (vs.length + 1)) 0

def staleByte (n : Nat) (ls : List Left) (o : Nat) : Byte := oneOf (n + o) (ls.flatMap (Left.bytesAt o))

/-- What a granule of a scratch holds beneath what was written since. -/
def Scratch.old (c : Scratch) (a : Nat) : Option (List Left) := lookup c.reused (a / 32768)

def Scratch.read (c : Scratch) (a : Nat) : Byte :=
  (lookup c.cells a).getD (match c.old a with | some ls => staleByte (c.seed + a / 32768 * 32768) ls (a % 32768) | none => 0)

def Scratch.write (c : Scratch) (a : Nat) (b : Byte) : Scratch :=
  { c with cells := if (c.old a).isSome then store c.cells a b else c.cells.write a b }

/-! Tables of the state. -/

def State.ctx (s : State) (n : Nat) : Context := (lookup s.contexts n).getD {}
def State.setCtx (s : State) (n : Nat) (c : Context) : State := { s with contexts := store s.contexts n c }
def State.core (s : State) (n : Nat) : CoreInfo := (lookup s.cores n).getD {}
def State.setCore (s : State) (n : Nat) (c : CoreInfo) : State := { s with cores := store s.cores n c }
def State.cluster (s : State) (n : Nat) : Cluster := (lookup s.clusters n).getD {}
def State.setCluster (s : State) (n : Nat) (c : Cluster) : State := { s with clusters := store s.clusters n c }
/-- Bank `b` of cluster `n` stands under the number 16 n + b. -/
def State.bank (s : State) (n : Nat) : Bank := (lookup s.banks n).getD {}
def State.setBank (s : State) (n : Nat) (b : Bank) : State := { s with banks := store s.banks n b }

def State.launch? (s : State) (n : Nat) : Option Launch := s.launches.find? fun l => l.id == n
def State.setLaunch (s : State) (l : Launch) : State :=
  { s with launches := s.launches.map fun k => if k.id = l.id then l else k }

def State.allFlocks (s : State) : List Flock := s.cur :: s.flocks
def State.flock? (s : State) (n : Nat) : Option Flock := s.allFlocks.find? fun f => f.id == n
def State.mapFlocks (s : State) (g : Flock → Flock) : State := { s with cur := g s.cur, flocks := s.flocks.map g }
def State.setFlock (s : State) (f : Flock) : State := s.mapFlocks fun k => if k.id = f.id then f else k

def State.allFolds (s : State) : List Fold := if s.fold.id = 0 then s.folds else s.fold :: s.folds
def State.fold? (s : State) (n : Nat) : Option Fold := s.allFolds.find? fun f => f.id == n
def State.setFold (s : State) (f : Fold) : State :=
  { s with fold := if s.fold.id = f.id then f else s.fold, folds := s.folds.map fun k => if k.id = f.id then f else k }

/-- A context as the owner of storage (R260, R267). -/
def State.owner (s : State) (ctx : Nat) : Owner := { ctx := ctx, life := (s.ctx ctx).life, secure := (s.ctx ctx).secure }

/-- A supervisor flock runs on a shepherd core (R3). -/
def Flock.supervises (f : Flock) : Bool := decide (256 ≤ f.core)

/-- The die of a shepherd core (R3). -/
def Flock.die (f : Flock) : Nat := f.core - 256

/-! Regions (R329, R375). -/

inductive Region where
  | dram | tier | registers | host
  | aperture (device : Nat)
  | hole
  deriving DecidableEq, Repr

/-- The region of a system-physical address. -/
def regionOf (a : Nat) : Region :=
  match a / 2 ^ 50 % 4 with
  | 0 =>
    if a < Config.dramBytes then .dram
    else if Config.tierBase ≤ a ∧ a < Config.tierBase + Config.tierBytes then .tier
    else if Config.plewickBase ≤ a then .registers
    else .hole
  | 1 => .host
  | _ => .aperture (a / 2 ^ 40 % 2 ^ 11)

/-- A line of this device's own memory (R329). -/
def ownLine (a : Nat) : Bool := regionOf a == .dram || regionOf a == .tier

/-- A byte of another device's memory (R329). -/
def isFar (a : Nat) : Bool := decide (Config.apertureBase ≤ a)

/-- Offsets of the Plewick window at which the spec places a register (R366, R371). -/
def plewickOffset (o : Nat) : Bool :=
  decide (0x40000 ≤ o ∧ o < 0x40040) || decide (0x41000 ≤ o ∧ o < 0x41100)

def configBase : Nat := Config.plewickBase + 0x41000
def requestBase : Nat := Config.plewickBase + 0x40000

/-- A byte with the bits of a mask replaced. -/
def blend (old enable data : Byte) : Byte := (old &&& ~~~enable) ||| (data &&& enable)

/-- A byte with the bits laid over it that the L2 holds dirty (R151, R257). -/
def State.dirtied (s : State) (a : Nat) (b : Byte) : Byte :=
  match lookup s.remote a with
  | some w => blend b w.1 w.2
  | none => b

/-- The byte that an agent of this device reads: of another device's memory the L2 copy, dirty bits over clean ones, comes first (R257). -/
def State.read (s : State) (a : Nat) : Byte := s.dirtied a ((lookup s.clean a).getD (s.mem.read a))

def State.bytes (s : State) (a n : Nat) : List Byte := (List.range n).map fun k => s.read (a + k)
def State.readNat (s : State) (a n : Nat) : Nat := fromBytes (s.bytes a n)

/-- A fresh free-value number, `n` of them taken. -/
def State.draw (s : State) (n : Nat) : Nat × State := (s.free, { s with free := s.free + n })

/-- The partition of a context: its number is 64 p + c (R306). -/
def State.partitionOf (s : State) (ctx : Nat) : Partition := s.setup.partitions.getD (ctx / 64) {}

/-- Whether the partition at an offset of a peer's DRAM has a tag. -/
def Peer.grants (p : Peer) (tag : BitVec 16) (offset : Nat) : Bool :=
  decide (offset < Config.dramBytes) && p.tags.any fun t => decide (t.1 ≤ offset ∧ offset < t.1 + t.2.1) && t.2.2 == tag

/-- Whether another device answers an access at an offset with this partition's tag (R330). -/
def State.peerAnswers (s : State) (ctx device offset : Nat) : Bool :=
  match lookup s.peers device with
  | some p => p.grants (s.partitionOf ctx).tag offset
  | none => false

/-- Whether a byte takes a write of a context's: one of another device is refused where that device does not answer (R330). -/
def State.takesWrite (s : State) (ctx pa : Nat) : Bool :=
  match regionOf pa with
  | .aperture d => s.peerAnswers ctx d (pa % 2 ^ 40)
  | _ => true

/-- Whether 4 µs have passed since an instant: an answer to what was asked then is not taken any more (R330). -/
def State.late (s : State) (since : DWord) : Bool := decide (since.toNat + 4000 ≤ s.time.toNat)

/-! What writes meet. -/

/-- Offsets in the control area of the words that only the device writes (R305, R306): the overhead counter, the status words, and in
each partition block the partition's counter and the counters of its contexts. -/
def controlOffset (o : Nat) : Bool :=
  let q := (o - 0x1000) % 0x4000
  decide (0x100 ≤ o ∧ o < 0x108) || decide (0x180 ≤ o ∧ o < 0x1A0) || decide (0x800 ≤ o ∧ o < 0x1000) ||
  (decide (0x1000 ≤ o ∧ o < 0x21000) && (decide (q < 8) || decide (0x100 ≤ q ∧ q < 0x2100 ∧ 0x18 ≤ (q - 0x100) % 128 ∧ (q - 0x100) % 128 < 0x20)))

/-- The word of the device alone in which a byte lies, by its address. -/
def State.hardwareWord (s : State) (a : Nat) : Option Nat :=
  let c := s.setup.control
  if s.plewick.sealed && decide (c ≤ a) && controlOffset (a - c) then some (c + (a - c) / 8 * 8) else none

/-- What software's writes leave: a word of the device alone that they touch becomes unknown, until the device writes it (R305), and so does the whole
record of a launch, with the launch's values and stop visit (R43). -/
def State.hideWords (s : State) (ws : List (Nat × Byte)) : List (Nat × Byte) × State :=
  let words := (ws.filterMap fun w => s.hardwareWord w.1).eraseDups
  let hit := fun (l : Launch) => ws.any fun w => l.recordAt.contains w.1
  let places := words.flatMap (fun a => (List.range 8).map fun k => a + k) ++ (s.launches.filter hit).flatMap fun l => l.recordAt
  if places.isEmpty then (ws, s) else
  let (n, s1) := s.draw places.length
  ((ws.filter fun w => !places.contains w.1) ++ places.zipIdx.map fun e => (e.1, Config.freeByte (n + e.2)),
    { s1 with launches := s1.launches.map fun l => if hit l then { l with spoiled := true } else l })

/-- Writes that the Plewick window ignores: to a sealed configuration block (R366), and to the operation word while an
operation runs (R371). -/
def State.ignored (s : State) (a : Nat) : Bool :=
  (s.plewick.sealed && decide (configBase ≤ a ∧ a < configBase + 0x100)) ||
  (s.plewick.request.isSome && decide (requestBase ≤ a ∧ a < requestBase + 8))

/-- Whether some write touches a span. -/
def touches (ws : List (Nat × Byte)) (a n : Nat) : Bool := ws.any fun w => decide (a ≤ w.1 ∧ w.1 < a + n)

/-- The command words that the writes leave non-zero (R307), in die order. -/
def State.newCommands (s : State) (ws : List (Nat × Byte)) (secure : Bool) : List Command :=
  if !s.plewick.sealed then [] else
  [0#2, 1#2, 2#2, 3#2].filterMap fun d =>
    let a := s.setup.control + 64 * d.toNat + 8
    if touches ws a 8 && s.readNat a 8 != 0 then some { die := d, word := BitVec.ofNat 64 (s.readNat a 8), secure := secure } else none

/-- The Plewick block takes notice of a write to its seal word or its operation word (R366, R371). -/
def State.notifyPlewick (s : State) (ws : List (Nat × Byte)) (secure : Bool) : State :=
  let sealNow := touches ws (configBase + 0xF8) 8 && s.readNat (configBase + 0xF8) 8 == 1 && !s.plewick.sealed
  let ask := touches ws requestBase 8 && s.plewick.request.isNone
  { s with plewick := { s.plewick with
      sealing := s.plewick.sealing || sealNow,
      request := if ask then some (s.readNat requestBase 8, secure) else s.plewick.request } }

/-- The launch unit and the Plewick block take notice of writes by a world (R307, R366, R371). -/
def State.notice (s : State) (ws : List (Nat × Byte)) (secure : Bool) : State :=
  ({ s with commands := s.commands ++ s.newCommands ws secure }).notifyPlewick ws secure

/-! Effects of writes. -/

/-- The lines that writes touch set the event bits of the monitors on them (R167). -/
def State.signal (s : State) (lines : List Nat) : State :=
  s.mapFlocks fun f =>
    if f.monitor.armed && lines.contains f.monitor.line then { f with monitor := { f.monitor with event := true } } else f

/-- What a snapshot copies of a line: its bytes, or unknown ones where the line carries an uncorrectable error (R344, R346). -/
def State.snapBytes (s : State) (n line : Nat) : List Byte :=
  if s.broken.contains (.line line) then (List.range 64).map fun k => Config.freeByte (n + k) else s.mem.bytes line 64

/-- Whether the instant of a snapshot has come: writes from it on find the homes armed (R342 to R345). -/
def State.begun (s : State) (sn : Snapshot) : Bool := sn.armed || decide (sn.at_ ≤ s.time)

/-- A snapshot that copies some lines, and the writes that do it, with unknown bytes from `n` on (R344). Another device refuses bytes that do not
carry a tag of its own (R330). -/
def Snapshot.keep (s : State) (n : Nat) (lines : List Nat) (sn : Snapshot) : Snapshot × List (Nat × Byte) :=
  if !s.begun sn then (sn, []) else
  let hit := sn.pending.filter fun p => lines.contains p.1
  ({ sn with
      pending := sn.pending.filter fun p => !lines.contains p.1
      damaged := sn.damaged ++ (hit.filter fun p => s.broken.contains (.line p.1)).map fun p => p.1 },
    (hit.zipIdx.flatMap fun e => cellsAt e.1.2 (s.snapBytes (n + 64 * e.2) e.1.1)).filter fun w => s.takesWrite sn.ctx w.1)

/-- The lines to which snapshots whose instant has come copy some lines. -/
def State.copiesOf (s : State) (lines : List Nat) : List Nat :=
  (s.snapshots.filter s.begun).flatMap fun sn => (sn.pending.filter fun p => lines.contains p.1).flatMap fun p =>
    [p.2 / 64 * 64, (p.2 + 63) / 64 * 64]

/-- Some lines and those that the copies of them change, whose own old values other snapshots keep, and so on. -/
def State.changing (s : State) : Nat → List Nat → List Nat
  | 0, ls => ls
  | n + 1, ls => s.changing n (ls ++ ((s.copiesOf ls).filter fun l => !ls.contains l).eraseDups)

/-- Lines are the last that the L2 used, of those that it can hold (R257, R272). -/
def State.touchLines (s : State) (ls : List Nat) : State :=
  { s with used := (s.used.filter fun l => !ls.contains l) ++ ls.filter fun l => ownLine l || isFar l }

/-- Snapshots whose instant has come write the old value of each line that a write, or such a copy, is about to change (R344). The copies are writes
of software: a sealed configuration block ignores them (R366), and they touch what such writes touch. -/
def State.keepOld (s : State) (lines0 : List Nat) : State :=
  if !s.snapshots.any s.begun then s else
  let lines := s.changing (s.snapshots.flatMap fun sn => sn.pending).length lines0
  let each := 64 * (s.snapshots.flatMap fun sn => sn.pending).length
  let (n, s1) := s.draw (each * s.snapshots.length)
  let kept := s1.snapshots.zipIdx.map fun e => Snapshot.keep s1 (n + each * e.2) lines e.1
  let (ws, s2) := s1.hideWords ((kept.flatMap fun k => k.2).filter fun w => !s1.ignored w.1)
  let touched := (ws.map fun w => w.1 / 64 * 64).eraseDups
  let s3 := State.signal { s2 with
    mem := s2.mem.writeAll ws, snapshots := kept.map fun k => k.1
    dirty := (s2.dirty ++ touched).eraseDups
    inFlight := s2.inFlight.filter fun o => !ws.any fun w => w.1 == o.2.1
    tags := s2.tags.filter fun t => !touched.contains t.line } touched
  kept.foldl (fun t k => t.notice (k.2.filter fun w => !s1.ignored w.1) (s.partitionOf k.1.ctx).secure) (s3.touchLines touched)

/-- The tag of a line after a write with tag `t` by context `ctx` (R171, R172): the bytes of the line as they were are the
first that it has held. -/
def State.tagLine (s : State) (t : BitVec 16) (ctx : Nat) (line : Nat) (ws : List (Nat × Byte)) : List TagLine → List TagLine
  | [] =>
    if t = 0 then []
    else [{ line := line, tag := t, ctx := ctx,
            history := (List.range 64).map (fun k => (line + k, s.read (line + k))) ++ ws }]
  | l :: ls =>
    if l.line = line then
      if t = 0 then ls
      else if l.tag = t ∧ l.ctx = ctx then { l with history := l.history ++ ws } :: ls
      else { line := line, tag := t, ctx := ctx,
             history := (List.range 64).map (fun k => (line + k, s.read (line + k))) ++ ws } :: ls
    else l :: State.tagLine s t ctx line ws ls

/-- The lines that a list of writes touches. -/
def linesOf (ws : List (Nat × Byte)) : List Nat := (ws.map fun w => w.1 / 64 * 64).eraseDups

/-- The lines that some bytes lie in. -/
def linesIn (as : List Nat) : List Nat := (as.map fun a => a / 64 * 64).eraseDups

/-- The lines that some bytes lie in: how many no L1 may hold, because they lie with the host or another device (R152, R340), and how many
others (R314). -/
def askOf (as : List Nat) : Nat × Nat := (((linesIn as).filter fun l => !ownLine l).length, ((linesIn as).filter ownLine).length)

def PendOp.asks (o : PendOp) : Nat × Nat := askOf o.places
def QueueEntry.asks (e : QueueEntry) : Nat × Nat := askOf e.places

/-- Whether a request waits for tokens at the port of a core (R314). -/
def State.atPort (s : State) (a : Asker) : Bool := s.cores.any fun c => c.2.port.any fun r => r.asker == a

/-- The dirty bits at some addresses of other devices' memory are written back: exactly these bits change at the home, and a clean copy that
the L2 keeps shows them too (R151, R257). -/
def State.writeBackAt (s : State) (p : Nat → Bool) : State :=
  { s with
    mem := s.mem.writeAll ((s.remote.filter fun c => p c.1).map fun c => (c.1, blend (s.mem.read c.1) c.2.1 c.2.2))
    clean := s.clean.map fun c => (c.1, if p c.1 then s.dirtied c.1 c.2 else c.2)
    remote := s.remote.filter fun c => !p c.1 }

/-- Whether both bytes that an element over two lines of another device's memory may lie in, the last of one line and the first of the next, are
dirty. -/
def State.joined (s : State) (last : Nat) : Bool :=
  last % 64 == 63 && (lookup s.remote last).isSome && (lookup s.remote (last + 1)).isSome

/-- Whether a dirty byte is written back with some lines: it lies in one, or an element may lie in it and in the line beside it that is one, whose two
halves reach their homes together (R244). -/
def State.goesBack (s : State) (lines : List Nat) (a : Nat) : Bool :=
  lines.contains (a / 64 * 64) || (s.joined a && lines.contains (a + 1)) || (s.joined (a - 1) && lines.contains ((a - 1) / 64 * 64))

/-- The dirty bits of some lines are written back. -/
def State.writeBack (s : State) (lines : List Nat) : State := s.writeBackAt (s.goesBack lines)

/-- Of lines of other devices' memory whose last byte and the first of the next were written at home together, clean copies are dropped: an element over
the two lines is then read whole (R244, log entry 130). -/
def State.dropTorn (s : State) (as : List Nat) : State :=
  let torn := (as.filter fun a => a % 64 == 63 && as.contains (a + 1)).flatMap fun a => [a - 63, a + 1]
  { s with clean := s.clean.filter fun c => !torn.contains (c.1 / 64 * 64) }

/-- Some lines are written back, those of this device's own memory among them (R325), and stay in the L2. -/
def State.cleanLines (s : State) (lines : List Nat) : State :=
  { s.writeBack lines with dirty := s.dirty.filter fun l => !lines.contains l }

/-- All dirty remote lines of this device's L2 are written back, as a release at domain or system scope does (R257). -/
def State.flushRemote (s : State) : State := s.writeBackAt fun _ => true

/-- Lines leave the L2: dirty bytes are written back, clean copies are dropped, and filled again a line carries no tag (R169, R171). -/
def State.evict (s : State) (lines : List Nat) : State :=
  let s1 := s.cleanLines lines
  { s1 with
    clean := s1.clean.filter fun c => !lines.contains (c.1 / 64 * 64)
    tags := s.tags.filter fun t => !lines.contains t.line }

/-- Lines of other devices' memory that take a tensor tag anew, and hold dirty bytes: these are written back first, since the tag does not
cover them (R171, R172). -/
def State.newlyTagged (s : State) (t : BitVec 16) (ctx : Nat) (lines : List Nat) : List Nat :=
  if t = 0 then [] else
  lines.filter fun l => isFar l && !s.tags.any fun x => x.line == l && x.tag == t && x.ctx == ctx

/-- Bytes of system-physical memory change, as an agent of a context and a world writes them: the write is serialised here (R240), or enters
the L2 copy of another device's line (R257). -/
def State.put (s : State) (ws0 : List (Nat × Byte)) (t : BitVec 16) (ctx : Nat) (secure : Bool) : State :=
  let ws := ws0.filter fun w => !s.ignored w.1
  let s1 := (s.keepOld (linesOf ws)).writeBack (s.newlyTagged t ctx (linesOf ws))
  let tags := (linesOf ws).foldl (fun ts line => s1.tagLine t ctx line (ws.filter fun w => w.1 / 64 * 64 == line) ts) s1.tags
  let s2 := { s1 with
    mem := s1.mem.writeAll (ws.filter fun w => !isFar w.1)
    remote := (ws.filter fun (w : Nat × Byte) => isFar w.1).foldl (fun (m : List (Nat × Byte × Byte)) (w : Nat × Byte) => store m w.1 ((0xFF : Byte), w.2)) s1.remote
    dirty := (s1.dirty ++ (linesOf ws).filter ownLine).eraseDups
    inFlight := s1.inFlight.filter fun o => !ws.any fun w => w.1 == o.2.1
    tags := tags }
  ((s2.signal (linesOf ws)).touchLines (linesOf ws)).notice ws secure

/-- The device itself writes, without a tensor tag. -/
def State.hwWrite (s : State) (a : Nat) (bs : List Byte) : State := s.put (cellsAt a bs) 0 0 true

/-- The address of a context's descriptor (R305, R306). -/
def State.descriptor (s : State) (ctx : Nat) : Nat := s.setup.control + 0x1000 + 0x4000 * (ctx / 64) + 0x100 + 128 * (ctx % 64)

/-- Software of a context and a world writes. -/
def State.write (s : State) (ws : List (Nat × Byte)) (t : BitVec 16) (ctx : Nat) (secure : Bool) : State :=
  (s.hideWords ws).2.put (s.hideWords ws).1 t ctx secure

end Sys2Proof.Machine
end

