-- ==== Sys2Proof/Machine/Xlate.lean ====
section
/-!
DEFINITION. Translation (R278 to R283), what may stand in the way of an instruction, and the checks that every access to memory
makes before it touches a byte (R175 orders 2 to 4, R330).
-/
namespace Sys2Proof.Machine

/-- What keeps an instruction from its effect. -/
inductive Bad where
  /-- It takes a fault or trap. -/
  | trap (t : TrapInfo)
  /-- It blocks (R99, R139, R202). -/
  | block (b : Block)
  /-- Its access to another device is out and has no answer that lets it go on: the machine check that follows (R330). -/
  | remote (t : TrapInfo)
  /-- It runs without its result, for its data holds an uncorrectable soft error, and takes the deferred machine check (R303). -/
  | soft (t : TrapInfo)
  /-- The spec says nothing of the address. -/
  | stop (f : Fault)
  /-- The spec says nothing of the device register. -/
  | refuse (r : Refusal)
  deriving DecidableEq, Repr

/-- What an access needs (R280), with its code in `ecause` (R284). -/
structure Need where
  r : Bool := false
  w : Bool := false
  x : Bool := false
  code : BitVec 8 := 0
  deriving DecidableEq, Repr

def Need.load : Need := { r := true, code := 1 }
def Need.store : Need := { w := true, code := 2 }
def Need.atomic : Need := { r := true, w := true, code := 3 }
def Need.fetch : Need := { x := true, code := 4 }
def Need.engineRead : Need := { r := true, code := 6 }
def Need.engineWrite : Need := { w := true, code := 6 }

/-- Who accesses memory: the context whose tables translate (none: addresses are system-physical, log entry 9), the privilege,
the world, and the core whose TLBs serve it (none for a unit without a core). -/
structure Agent where
  space : Option Nat
  ctx : Nat
  privileged : Bool
  secure : Bool
  core : Option Nat
  deriving DecidableEq, Repr

/-- Whether a format code and a geometry code go together (R71, R72). -/
def formatOk (fmt geo : Nat) : Bool :=
  if fmt = 6 || fmt = 7 || fmt = 8 then geo == 1 else decide (fmt ≤ 0x11) && geo == 0

/-- The lowest address bit that indexes a table level (R278). -/
def levelShift (lvl : Nat) : Nat := 16 + 13 * lvl

/-- Whether a valid entry breaks the map of R279. -/
def entryBad (guest : Bool) (lvl e : Nat) : Bool :=
  let leaf := field e 1 1
  field e 60 4 != 0 || (lvl == 0 && leaf == 0) || (decide (3 ≤ lvl) && leaf == 1) ||
  (!guest && field e 52 8 != 0) ||
  (leaf == 0 && field e 2 14 != 0) ||
  (leaf == 1 && (field e 16 (levelShift lvl - 16) != 0 ||
    (if guest then field e 15 1 != 0 || !formatOk (field e 10 5) (field e 7 3) else field e 6 9 != 0)))

/-- The state of a context (R306): free once software has written 0 into the state byte of its descriptor. -/
def State.stateOf (s : State) (ctx : Nat) : Nat :=
  if s.plewick.sealed && s.mem.read (s.descriptor ctx) == 0 then 0 else (s.ctx ctx).state

/-! What a context's system tables map, leaf by leaf (R279, R280): for checks that start from a system-physical address (R175, R368). -/

/-- A leaf: the address it maps from, the address it maps to, the size as a power of two, and its entry. -/
structure Mapping where
  source : Nat
  target : Nat
  shift : Nat
  entry : Nat
  deriving DecidableEq, Repr

/-- The indices of the valid entries of a table of `n` entries at a system-physical address. -/
def State.validEntries (s : State) (table n : Nat) : List Nat :=
  (s.mem.filter fun c => decide (table ≤ c.1 ∧ c.1 < table + 8 * n) && c.1 % 8 == 0 && c.2.getLsbD 0).map fun c => (c.1 - table) / 8

/-- The leaves of the system tables below a table, for guest-physical addresses from `source` on. -/
def State.sysMaps (s : State) : List Nat → Nat → Nat → List Mapping
  | [], _, _ => []
  | lvl :: rest, table, source =>
    (s.validEntries table (if lvl = 3 then 32 else 8192)).flatMap fun i =>
      let e := s.readNat (table + 8 * i) 8
      let from_ := source + i * 2 ^ levelShift lvl
      let addr := field e 16 44 * 2 ^ 16
      if entryBad false lvl e then []
      else if field e 1 1 = 1 then [{ source := from_, target := addr, shift := levelShift lvl, entry := e }]
      else s.sysMaps rest addr from_

def State.systemMaps (s : State) (ctx : Nat) : List Mapping := s.sysMaps [3, 2, 1, 0] (s.ctx ctx).systemRoot 0

/-- Whether bytes of system-physical memory lie in a secure page: the system tables of some context map it with the ns bit clear (R279, R368,
log entry 87). -/
def State.secureSpan (s : State) (a n : Nat) : Bool :=
  s.contexts.any fun c => decide (c.1 < 512) && s.stateOf c.1 != 0 &&
    (s.systemMaps c.1).any fun m => overlap a n m.target (2 ^ m.shift) && field m.entry 15 1 == 0

/-- The checks of a translated byte that depend on where it lies (R329, R330). -/
def State.reach (s : State) (g : Agent) (va : Addr) (pa : Nat) : Except Bad Unit :=
  match regionOf pa with
  | .hole => .error (.stop (.noSuchAddress pa))
  | .registers =>
    if decide (pa < Config.plewickBase + Config.plewickBytes) && plewickOffset (pa - Config.plewickBase) then .ok ()
    else .error (.refuse (.deviceRegister pa))
  | .aperture d => if s.peerAnswers g.ctx d (pa % 2 ^ 40) then .ok () else .error (.remote { kind := 0x30, addr := va })
  | _ => .ok ()

/-- An address of the domain aperture with the device's own number: a reserved encoding of the system stage (R330). -/
def State.ownNumber (s : State) (pa : Nat) : Bool := regionOf pa == .aperture s.setup.device

/-- A translation fault, its access and address still to be named (R284). -/
def walkFault (detail : Nat) : Bad := .trap { kind := 0x10, detail := BitVec.ofNat 8 detail }

/-- A table entry, where its memory answers (R280, R330); one in error gives the access that consumes it a machine check (R303). An entry that has no
answer is named by where it lies. -/
def State.tableEntry (s : State) (g : Agent) (pa : Nat) : Except Bad Nat :=
  match s.reach g (BitVec.ofNat 72 pa) pa with
  | .error b => .error b
  | .ok _ => if s.broken != [] && s.broken.contains (.line (pa / 64 * 64)) then .error (.soft { kind := 0x30 }) else .ok (s.readNat pa 8)

/-- A system walk from a table at `table` down the levels (R280): the leaf's address, entry and level. -/
def State.sysWalk (s : State) (g : Agent) (gpa : Nat) : List Nat → Nat → Except Bad (Nat × Nat × Nat)
  | [], _ => .error (walkFault 8)
  | lvl :: rest, table =>
    let idx := if lvl = 3 then field gpa 55 5 else field gpa (levelShift lvl) 13
    match s.tableEntry g (table + 8 * idx) with
    | .error b => .error b
    | .ok e =>
      if field e 0 1 = 0 then .error (walkFault (8 + lvl))
      else if entryBad false lvl e then .error (walkFault (24 + lvl))
      else
        let addr := field e 16 44 * 2 ^ 16
        if field e 1 1 = 1 then .ok (addr + gpa % 2 ^ levelShift lvl, e, lvl)
        else if s.ownNumber addr then .error (walkFault (24 + lvl))
        else s.sysWalk g gpa rest addr

/-- What a system walk finds for the page of a guest-physical address. A root that lies in the domain aperture under the device's own number is a
reserved encoding of the first level (R330, log entry 127). -/
def State.sysLeaf (s : State) (g : Agent) (ctx gpa : Nat) : Except Bad Leaf :=
  if s.ownNumber (s.ctx ctx).systemRoot then .error (walkFault 27) else
  match s.sysWalk g (gpa / 2 ^ 16 * 2 ^ 16) [3, 2, 1, 0] (s.ctx ctx).systemRoot with
  | .error b => .error b
  | .ok (pa, y, lvl) => .ok {
      base := pa, x := field y 4 1 == 1, w := field y 3 1 == 1, r := field y 2 1 == 1, ns := field y 15 1 == 1, level := lvl }

/-- The die of a core (R2, R3). -/
def dieOf (core : Nat) : Nat := if core < 256 then core / 64 else core - 256

/-- Whether a TLB serves an agent: those of its core, and the nested TLB of its die (R282, log entry 10). -/
def Agent.uses (g : Agent) : TlbHolder → Bool
  | .core n => g.core == some n
  | .ahead n => g.core == some n
  | .nested die => match g.core with | some n => dieOf n == die | none => true

def TlbHolder.isNested : TlbHolder → Bool
  | .nested _ => true
  | _ => false

/-- What a TLB that serves an agent holds of a page, for an access at an offset in it (R282, R283). -/
def State.held (s : State) (g : Agent) (nested : Bool) (ctx page offset : Nat) : Option Leaf :=
  (s.tlb.find? fun e => e.holder.isNested == nested && g.uses e.holder && e.ctx == ctx && e.page == page && !e.hidden.contains offset).map
    fun e => e.leaf

/-- The system stage for a guest-physical address, for an access at an offset: the nested TLB, else a walk. -/
def State.sysPage (s : State) (g : Agent) (ctx gpa offset : Nat) : Except Bad Leaf :=
  match s.held g true ctx (gpa / 2 ^ 16) offset with
  | some l => .ok l
  | none => s.sysLeaf g ctx gpa

/-- A guest walk (R280): the guest-physical address and the leaf entry. -/
def State.guestWalk (s : State) (g : Agent) (ctx va offset : Nat) : List Nat → Nat → Except Bad (Nat × Nat)
  | [], _ => .error (walkFault 0)
  | lvl :: rest, table =>
    let idx := if lvl = 4 then field va 68 4 else field va (levelShift lvl) 13
    match s.sysPage g ctx (table + 8 * idx) offset with
    | .error b => .error b
    | .ok l =>
      let pa := l.base + (table + 8 * idx) % 2 ^ 16
      if s.ownNumber pa then .error (walkFault (24 + l.level)) else
      match s.tableEntry g pa with
      | .error b => .error b
      | .ok e =>
        if field e 0 1 = 0 then .error (walkFault lvl)
        else if entryBad true lvl e then .error (walkFault (16 + lvl))
        else
          let addr := field e 16 44 * 2 ^ 16
          if field e 1 1 = 1 then .ok (addr + va % 2 ^ levelShift lvl, e) else s.guestWalk g ctx va offset rest addr

/-- The walk for the page of a virtual address in a context's tables, permissions combined (R280). -/
def State.walk (s : State) (g : Agent) (ctx : Nat) (va : Addr) : Except Bad Leaf :=
  let offset := va.toNat % 2 ^ 16
  match s.guestWalk g ctx (va.toNat / 2 ^ 16 * 2 ^ 16) offset [4, 3, 2, 1, 0] (s.ctx ctx).guestRoot with
  | .error b => .error b
  | .ok (gpa, e) =>
    match s.sysPage g ctx gpa offset with
    | .error b => .error b
    | .ok l => .ok { l with
        format := BitVec.ofNat 5 (field e 10 5), raw := field e 6 1 == 1, priv := field e 5 1 == 1
        x := field e 4 1 == 1 && l.x, w := field e 3 1 == 1 && l.w, r := field e 2 1 == 1 && l.r }

/-- The page of an address for an agent: what a TLB holds of it (R282, R283), else a walk. Without tables, for an agent that acts for no context, every
page is untyped and open to raw access, and it belongs to the secure world where the tables of some context map a part of it so; that is the model's
choice (log entry 9). -/
def State.page (s : State) (g : Agent) (va : Addr) : Except Bad Leaf :=
  match g.space with
  | none =>
    let base := va.toNat / 2 ^ 16 * 2 ^ 16
    if va.toNat < 2 ^ 52 then .ok { base := base, raw := true, x := true, w := true, r := true, ns := !s.secureSpan base (2 ^ 16) }
    else .error (walkFault 3)
  | some c =>
    match s.held g false c (va.toNat / 2 ^ 16) (va.toNat % 2 ^ 16) with
    | some l => .ok l
    | none => s.walk g c va

/-- The place of the acting context word of a shepherd's line (R305). -/
def State.shepherdLine (s : State) (die : Nat) : Nat := s.setup.control + 64 * die

/-- The acting context of a shepherd's line (R307), while it is admitted, resident or pre-empted. -/
def State.acting (s : State) (die : Nat) : Option Nat :=
  if s.plewick.sealed then
    let c := field (s.readNat (s.shepherdLine die) 8) 0 9
    let n := 64 * (c % 8) + c / 8
    if s.stateOf n = 1 || s.stateOf n = 2 || s.stateOf n = 3 then some n else none
  else none

/-! What a context's guest tables map, leaf by leaf (R278 to R280). -/

/-- The leaves of the guest tables below a table, for virtual addresses from `source` on. -/
def State.guestMaps (s : State) (g : Agent) (ctx : Nat) : List Nat → Nat → Nat → List Mapping
  | [], _, _ => []
  | lvl :: rest, table, source =>
    match s.sysPage g ctx table 0 with
    | .error _ => []
    | .ok l =>
      let pa := l.base + table % 2 ^ 16
      (s.validEntries pa (if lvl = 4 then 16 else 8192)).flatMap fun i =>
        let e := s.readNat (pa + 8 * i) 8
        let from_ := source + i * 2 ^ levelShift lvl
        let addr := field e 16 44 * 2 ^ 16
        if entryBad true lvl e then []
        else if field e 1 1 = 1 then [{ source := from_, target := addr, shift := levelShift lvl, entry := e }]
        else s.guestMaps g ctx rest addr from_

/-- The address that a leaf maps to another, if it does. -/
def Mapping.back (m : Mapping) (a : Nat) : Option Nat :=
  if m.target ≤ a ∧ a < m.target + 2 ^ m.shift then some (m.source + (a - m.target)) else none

/-- What keeps an agent from a write through two leaves, in the order of R175: the kind and the detail of a world or permission fault. -/
def writeBarred (g : Agent) (guest system : Nat) : Option (BitVec 8 × BitVec 8) :=
  let miss := (if field guest 3 1 = 1 ∧ field system 3 1 = 1 then 0 else 2) + (if field guest 5 1 = 1 ∧ !g.privileged then 8 else 0)
  if !g.secure && field system 15 1 = 0 then some (0x12, 0)
  else if miss = 0 then none else some (0x11, BitVec.ofNat 8 miss)

/-- The virtual addresses under which a context's tables show a system-physical address to an agent, each with what bars a write there. -/
def State.mappedAt (s : State) (g : Agent) (ctx pa : Nat) : List (Nat × Option (BitVec 8 × BitVec 8)) :=
  let guest := s.guestMaps g ctx [4, 3, 2, 1, 0] (s.ctx ctx).guestRoot 0
  (s.systemMaps ctx).flatMap fun y => match y.back pa with
    | none => []
    | some gpa => guest.filterMap fun m => (m.back gpa).map fun va => (va, writeBarred g m.entry y.entry)

/-- A flock as the agent of its accesses. -/
def State.agent (s : State) (f : Flock) : Agent :=
  { space := if f.supervises then s.acting f.die else some f.ctx
    ctx := if f.supervises then (s.acting f.die).getD f.ctx else f.ctx
    privileged := f.privileged, secure := f.secure, core := some f.core }

/-- Who made an access of a flock that is out: an access to system-physical memory uses no tables (R342). -/
def State.asker (s : State) (f : Flock) (t : TrapInfo) : Agent :=
  if t.physical then { s.agent f with space := none, secure := true } else s.agent f

/-- The access code of a machine check that another device may raise. -/
def Bad.coded (code : BitVec 8) : Bad → Bad
  | .remote t => .remote { t with access := code }
  | b => b

/-- What keeps an access at an address, with its access code (R284). -/
def Bad.at_ (code : BitVec 8) (va : Addr) : Bad → Bad
  | .trap t => .trap { t with access := code, addr := va }
  | .remote t => .remote { t with access := code, addr := va }
  | .soft t => .soft { t with access := code, addr := va }
  | b => b

/-- Translation, world and permission, in this order (R175), for one byte: its system-physical address and page. An address of
the domain aperture with the device's own number is a reserved encoding of the system stage (R330). -/
def State.locate (s : State) (g : Agent) (n : Need) (va : Addr) : Except Bad (Nat × Leaf) :=
  match s.page g va with
  | .error b => .error (b.at_ n.code va)
  | .ok e =>
    if s.ownNumber (e.base + va.toNat % 2 ^ 16) then .error ((walkFault (24 + e.level)).at_ n.code va)
    else if !g.secure && !e.ns then .error (.trap { kind := 0x12, access := n.code, addr := va })
    else
      let miss := (if n.r && !e.r then 1 else 0) + (if n.w && !e.w then 2 else 0) + (if n.x && !e.x then 4 else 0) +
        (if e.priv && !g.privileged then 8 else 0)
      if miss ≠ 0 then .error (.trap { kind := 0x11, detail := BitVec.ofNat 8 miss, access := n.code, addr := va })
      else .ok (e.base + va.toNat % 2 ^ 16, e)

/-- `locate`, then `reach`. -/
def State.translate (s : State) (g : Agent) (n : Need) (va : Addr) : Except Bad (Nat × Leaf) :=
  match s.locate g n va with
  | .error b => .error b
  | .ok (pa, e) =>
    match s.reach g va pa with
    | .error b => .error (b.coded n.code)
    | .ok _ => .ok (pa, e)

/-- Whether raw access to a page is permitted (R150). -/
def rawOk (e : Leaf) : Bool := e.format == 0 || e.raw

/-- A raw access to `n` bytes from `va`: each byte translated and checked in ascending order, the format last (R148, R150). -/
def State.rawBytes (s : State) (g : Agent) (need : Need) (va : Addr) : Nat → Except Bad (List Nat)
  | 0 => .ok []
  | n + 1 => do
    let (pa, e) ← s.translate g need va
    if !rawOk e then .error (.trap { kind := 0x14, access := need.code, addr := va })
    else
      let rest ← s.rawBytes g need (va + 1) n
      .ok (pa :: rest)

/-- As `rawBytes` without the check of the page's format (log entry 12). -/
def State.plainBytes (s : State) (g : Agent) (need : Need) (va : Addr) : Nat → Except Bad (List Nat)
  | 0 => .ok []
  | n + 1 => do
    let (pa, _) ← s.translate g need va
    let rest ← s.plainBytes g need (va + 1) n
    .ok (pa :: rest)

end Sys2Proof.Machine
end

