-- ==== Sys2Proof/Machine/Regs.lean ====
section
/-!
DEFINITION. The register files of a flock (R93, R94), the operations in flight that write them (R115 to R117), and what
becomes of a register or a tile that meets one of them (R117, R192, R193).
-/
namespace Sys2Proof.Machine

/-! Plain reads and writes. s0 and a0 read zero and p0 reads all ones; a write to them is discarded (R94). -/

def Flock.getV (f : Flock) (r : BitVec 6) : Lanes := f.v[r.toNat]'r.isLt
def Flock.setV (f : Flock) (r : BitVec 6) (x : Lanes) : Flock := { f with v := f.v.set r.toNat x r.isLt }
def Flock.getS (f : Flock) (r : BitVec 5) : DWord := if r = 0 then 0 else f.s[r.toNat]'r.isLt
def Flock.setS (f : Flock) (r : BitVec 5) (x : DWord) : Flock := if r = 0 then f else { f with s := f.s.set r.toNat x r.isLt }
def Flock.getA (f : Flock) (r : BitVec 4) : Addr := if r = 0 then 0 else f.a[r.toNat]'r.isLt
def Flock.setA (f : Flock) (r : BitVec 4) (x : Addr) : Flock := if r = 0 then f else { f with a := f.a.set r.toNat x r.isLt }
def Flock.getP (f : Flock) (r : BitVec 3) : Mask := if r = 0 then 0xFFFFFFFF else f.p[r.toNat]'r.isLt
def Flock.setP (f : Flock) (r : BitVec 3) (x : Mask) : Flock := if r = 0 then f else { f with p := f.p.set r.toNat x r.isLt }
def Flock.getTd (f : Flock) (r : BitVec 4) : TileDesc := f.td[r.toNat]'r.isLt
def Flock.setTd (f : Flock) (r : BitVec 4) (x : TileDesc) : Flock := { f with td := f.td.set r.toNat x r.isLt }
def Flock.getQ (f : Flock) (r : BitVec 2) : Queue := f.queues[r.toNat]'r.isLt
def Flock.setQ (f : Flock) (r : BitVec 2) (x : Queue) : Flock := { f with queues := f.queues.set r.toNat x r.isLt }
def Flock.getLoop (f : Flock) (r : BitVec 2) : LoopLevel := f.loops[r.toNat]'r.isLt
def Flock.setLoop (f : Flock) (r : BitVec 2) (x : LoopLevel) : Flock := { f with loops := f.loops.set r.toNat x r.isLt }

/-- A vector register named by a five-bit field (R93). -/
def vreg (r : BitVec 5) : BitVec 6 := r.zeroExtend 6

/-- The lanes of active(em, g) (R113). -/
def Flock.active (f : Flock) (g : BitVec 3) : Mask := f.em &&& f.getP g

/-- The bellwether under a guard: the lowest active lane (R16). -/
def Flock.bellwether (f : Flock) (g : BitVec 3) : Option (Fin 32) := lanes.find? fun i => (f.active g).on i

/-- The active lanes, ascending. -/
def activeLanes (m : Mask) : List (Fin 32) := lanes.filter fun i => m.on i

/-! Wait counters (R99, R115, R116). -/

/-- The operations of a class that count: those from the first that is not done on (R116). -/
def Flock.outstanding (f : Flock) (c : Class) : List PendOp := (f.pend.filter fun o => o.cls == c).dropWhile fun o => o.done

def Flock.count (f : Flock) (c : Class) : Nat := (f.outstanding c).length

/-- Where a counter saturates (R99). -/
def Class.limit : Class → Nat
  | .loads => 31
  | .stores => 31
  | .copies => 15
  | .tiles => 15

/-- The operations that no longer count are forgotten. -/
def Flock.sweep (f : Flock) : Flock :=
  { f with pend := f.pend.filter fun o => (f.outstanding o.cls).any fun p => p.id == o.id }

def Flock.countersZero (f : Flock) : Bool :=
  f.count .loads == 0 && f.count .stores == 0 && f.count .copies == 0 && f.count .tiles == 0

/-! Registers under way. -/

def Dest.isVector (r : BitVec 6) : Dest → Bool
  | .vector q _ _ _ => q == r
  | _ => false
def Dest.isScalar (r : BitVec 5) : Dest → Bool
  | .scalar q _ _ _ => q == r
  | _ => false
def Dest.isAddress (r : BitVec 4) : Dest → Bool
  | .address q _ _ _ => q == r
  | _ => false

/-- The destination after another write has met it (R117). -/
def Dest.spoil : Dest → Dest
  | .vector r o n _ => .vector r o n true
  | .scalar r o n _ => .scalar r o n true
  | .address r o n _ => .address r o n true

/-- Whether an operation that is not complete writes a register. -/
def Flock.busy (f : Flock) (p : Dest → Bool) : Bool := f.pend.any fun o => !o.done && o.dests.any p

/-- Whether an operation that is not complete reads a vector register as a matrix operand (R192). -/
def Flock.operand (f : Flock) (r : BitVec 6) : Bool := f.pend.any fun o => !o.done && o.readRegs.contains r

/-- Every destination under way that satisfies `p` has met another write. -/
def Flock.spoil (f : Flock) (p : Dest → Bool) : Flock :=
  { f with pend := f.pend.map fun o =>
      if o.done then o else { o with dests := o.dests.map fun d => if p d then d.spoil else d } }

/-- A vector, scalar, address, predicate or tile from what was left at an offset of a granule (R260). -/
def staleWord (n : Nat) (ls : List Left) (o : Nat) : Word :=
  staleByte n ls (o + 3) ++ staleByte n ls (o + 2) ++ staleByte n ls (o + 1) ++ staleByte n ls o
def staleLanes (n : Nat) (ls : List Left) (o : Nat) : Lanes := Lanes.build fun i => staleWord n ls (o + 4 * i.val)
def staleTile (n : Nat) (ls : List Left) (o : Nat) : Tile :=
  Vector.ofFn fun i : Fin 256 => { s := staleWord n ls (o + 8 * i.val), c := staleWord n ls (o + 8 * i.val + 4) }

/-- The values that a register of the flocks at one place of a granule was left with. -/
def registersLeft {α : Type} (place : Nat) (get : RegistersLeft → α) (ls : List Left) : List α :=
  ls.filterMap fun l => match l with
    | .registers fs => (fs.find? fun f => f.place == place).map get
    | _ => none

/-- A number of `k` bytes, each byte zero or that of a value left. -/
def staleNat (n k : Nat) (vs : List Nat) : Nat :=
  fromBytes ((List.range k).map fun b => oneOf (n + b) (vs.map fun v => BitVec.ofNat 8 (field v (8 * b) 8)))

/-- A vector of 32 free values. -/
def freshLanes (n : Nat) : Lanes := Lanes.build fun i => Config.freeWord (n + i.val)

/-- A tile of free values. -/
def freshTile (n : Nat) : Tile := Vector.ofFn fun i : Fin 256 => { s := Config.freeWord (n + 2 * i.val), c := Config.freeWord (n + 2 * i.val + 1) }

/-- A fold with tiles left undefined, their values drawn from `n` on. -/
def Fold.spoilTiles (fd : Fold) (n : Nat) : List Nat → Fold
  | [] => fd
  | t :: ts => Fold.spoilTiles { fd with accs := fd.accs.setIfInBounds t (freshTile n) } (n + 512) ts

/-- Tiles of a fold are left undefined (R192, R193). -/
def State.spoilTiles (s : State) (fd : Nat) (ts : List Nat) : State :=
  match ts, s.fold? fd with
  | [], _ => s
  | _, none => s
  | _, some f =>
    let (n, s1) := s.draw (512 * ts.length)
    s1.setFold (f.spoilTiles n ts)

/-- The current flock writes a vector register (R117, R192). -/
def State.putV (s : State) (r : BitVec 6) (x : Lanes) : State :=
  if s.cur.busy (Dest.isVector r) || s.cur.operand r then
    let tiles := (s.cur.pend.filter fun o => !o.done && o.readRegs.contains r).flatMap fun o => o.tiles
    let (n, s1) := s.draw 32
    { s1 with cur := (s1.cur.spoil (Dest.isVector r)).setV r (freshLanes n) }.spoilTiles s1.cur.fold tiles
  else { s with cur := s.cur.setV r x }

/-- The current flock writes a scalar register (R94, R117). -/
def State.putS (s : State) (r : BitVec 5) (x : DWord) : State :=
  if s.cur.busy (Dest.isScalar r) then
    let (n, s1) := s.draw 1
    { s1 with cur := (s1.cur.spoil (Dest.isScalar r)).setS r (Config.freeDWord n) }
  else { s with cur := s.cur.setS r x }

/-- The current flock writes an address register (R94, R117). -/
def State.putA (s : State) (r : BitVec 4) (x : Addr) : State :=
  if s.cur.busy (Dest.isAddress r) then
    let (n, s1) := s.draw 1
    { s1 with cur := (s1.cur.spoil (Dest.isAddress r)).setA r (Config.freeAddr n) }
  else { s with cur := s.cur.setA r x }

/-- The current flock writes a predicate register. -/
def State.putP (s : State) (r : BitVec 3) (x : Mask) : State := { s with cur := s.cur.setP r x }

/-- A vector with the lanes of a mask replaced (R113). -/
def Lanes.merge (old : Lanes) (m : Mask) (f : Fin 32 → Word) : Lanes := Lanes.build fun i => if m.on i then f i else old.at i

/-- The lanes of a mask of a vector register are written; with an empty mask nothing is (R113). -/
def State.putLanes (s : State) (d : BitVec 6) (m : Mask) (f : Fin 32 → Word) : State :=
  if m = 0 then s else s.putV d (Lanes.merge (s.cur.getV d) m f)

/-! Issue and completion of counted operations. -/

/-- An operation of a class with nothing to it yet. -/
def PendOp.start (id : Nat) (c : Class) (pc : Addr) : PendOp where
  id := id
  cls := c
  done := false
  pc := pc
  dests := []
  tiles := []
  matrix := false
  writes := []
  reads := []
  readRegs := []
  fenced := false
  ofFlag := false
  nvFlag := false
  fault := none
  job := none
  places := []

/-- An operation waits while its class is saturated (R99). -/
def State.room (s : State) (c : Class) : Except Bad Unit :=
  if s.cur.count c < c.limit then .ok () else .error (.block (.saturated c))

/-- The value that a register under way shows: none knows it (R117). -/
def Flock.cover (f : Flock) (n : Nat) : List Dest → Flock
  | [] => f
  | d :: ds =>
    let g := match d with
      | .vector r _ _ _ => f.setV r (freshLanes n)
      | .scalar r _ _ _ => f.setS r (Config.freeDWord n)
      | .address r _ _ _ => f.setA r (Config.freeAddr n)
    Flock.cover g (n + 32) ds

/-- Whether two destinations are one register. -/
def Dest.same (d : Dest) : Dest → Bool :=
  match d with
  | .vector r _ _ _ => Dest.isVector r
  | .scalar r _ _ _ => Dest.isScalar r
  | .address r _ _ _ => Dest.isAddress r

/-- Whether a destination is an operand register of a product under way (R192). -/
def Flock.operandDest (f : Flock) : Dest → Bool
  | .vector r _ _ _ => f.operand r
  | _ => false

/-- The current flock issues a counted operation: its destinations show unknown values until it completes; a register that already was a
destination under way, or an operand under way, is left undefined, and so is one under way that a product takes as an operand
(R117, R192). -/
def State.issue (s : State) (mk : PendOp → PendOp) (c : Class) : State :=
  let op0 := mk (PendOp.start s.nextId c s.cur.pc)
  let dests := op0.dests.map fun d => if s.cur.busy d.same || s.cur.operandDest d then d.spoil else d
  let operands := op0.dests.filterMap fun d => match d with | .vector r _ _ _ => some r | _ => none
  let hit := (s.cur.pend.filter fun o => !o.done && o.readRegs.any fun r => operands.contains r).flatMap fun o => o.tiles
  let (n, s1) := s.draw (32 * op0.dests.length)
  let f0 := op0.dests.foldl (fun f d => f.spoil d.same) s1.cur
  let f1 := op0.readRegs.foldl (fun f r => f.spoil (Dest.isVector r)) f0
  let f2 := (f1.cover n op0.dests)
  { s1 with cur := { f2 with pend := f2.pend ++ [{ op0 with dests := dests }] }, nextId := s1.nextId + 1 }.spoilTiles s.cur.fold hit

/-- A destination gets its value: the new one, the old one when the data was bad, an unknown one when it was spoiled. -/
def Dest.deliver (f : Flock) (n : Nat) (faulted : Bool) : Dest → Flock
  | .vector r o x bad => f.setV r (if bad then freshLanes n else if faulted then o else x)
  | .scalar r o x bad => f.setS r (if bad then Config.freeDWord n else if faulted then o else x)
  | .address r o x bad => f.setA r (if bad then Config.freeAddr n else if faulted then o else x)

/-- Bits ORed into `fcr`: `of` is bit 9 and `nv` bit 8 (R75). -/
def flagBits (ofl nv : Bool) : Word := (if ofl then 0x200 else 0) ||| (if nv then 0x100 else 0)

def Flock.raise (f : Flock) (ofl nv : Bool) : Flock := { f with fcr := f.fcr ||| flagBits ofl nv }

/-- An operation of a flock completes: registers, flags and a deferred fault (R77, R115, R175). -/
def Flock.complete (f : Flock) (n : Nat) (id : Nat) : Flock :=
  match f.pend.find? fun o => o.id == id && !o.done with
  | none => f
  | some o =>
    let f1 := o.dests.foldl (fun (g : Flock × Nat) d => (Dest.deliver g.1 g.2 o.fault.isSome d, g.2 + 32)) (f, n)
    let f2 := f1.1.raise o.ofFlag o.nvFlag
    let f3 := { f2 with pend := f2.pend.map fun (p : PendOp) => if p.id = id then { p with done := true } else p }
    let f4 : Flock := match o.fault with
      | none => f3
      | some t => { f3 with deferred := f3.deferred ++ [{ op := o.id, pc := o.pc, info := t }] }
    f4.sweep

/-- What an operation has written to scratch stands there unordered for the matrix instructions of its fold's flocks, until each fences it; a
`tfence` of its own flock after its issue has done so (R191, R192). -/
def Flock.landed (f : Flock) (o : PendOp) (fold issuer : Nat) : Flock :=
  if f.fold = fold ∧ fold ≠ 0 ∧ !(f.id == issuer && o.fenced) then { f with unfenced := o.writes ++ f.unfenced } else f

/-- What is in flight after an operation is complete: nothing of it, and nothing that it was written over (R324). -/
def State.landedWrites (s : State) (id : Nat) : List (Nat × Nat × Byte) :=
  let mine := (s.inFlight.filter fun o => o.1 == id).map fun o => o.2.1
  s.inFlight.filter fun o => o.1 != id && !(decide (o.1 < id) && mine.contains o.2.1)

/-- Completion in the state. -/
def State.complete (s : State) (flock id : Nat) : State :=
  match s.flock? flock with
  | none => s
  | some f =>
    let (n, s1) := s.draw 1024
    let s2 := { s1 with inFlight := s1.landedWrites id }.setFlock (f.complete n id)
    match f.pend.find? fun o => o.id == id && !o.done with
    | some o => if o.writes = [] then s2 else s2.mapFlocks fun g => g.landed o f.fold f.id
    | none => s2

end Sys2Proof.Machine
end

