-- ==== Sys2Proof/Machine/Park.lean ====
section
/-!
DEFINITION. What a fault may end besides its instruction: the accesses of the device itself to a context's memory, the error
ring (R228), the park list (R287, R288), the end of a fold, and the end of a launch by a fault, a cancellation or a gang
abort (R55, R56).
-/
namespace Sys2Proof.Machine

/-! The device's own accesses to a context's memory. -/

/-- A unit of the device that acts for a context, in its world; supervisors' own contexts stand at 512 and above (log entry 8), in the worlds of
their shepherds (R367, R368). -/
def State.unit (s : State) (ctx : Nat) : Agent :=
  { space := if 512 ≤ ctx then s.acting (ctx - 512) else some ctx
    ctx := ctx, privileged := true, core := none
    secure := if 512 ≤ ctx then !s.plewick.sealed || s.setup.shepherdSecure.getLsbD (ctx - 512) else (s.ctx ctx).secure }

/-- The bytes at a virtual address, or none where it does not translate. -/
def State.unitRead (s : State) (ctx : Nat) (va : Addr) (n : Nat) : Option (List Byte) :=
  match s.plainBytes (s.unit ctx) { r := true } va n with
  | .ok pas => some (pas.map s.read)
  | .error _ => none

/-- Bytes written at a virtual address by an agent; dropped where it does not translate. -/
def State.agentWrite (s : State) (g : Agent) (va : Addr) (bs : List Byte) : State :=
  match s.plainBytes g { w := true } va bs.length with
  | .ok pas => s.write (pas.zip bs) 0 g.ctx g.secure
  | .error _ => s

/-- Such bytes of a unit of the device. -/
def State.unitWrite (s : State) (ctx : Nat) (va : Addr) (bs : List Byte) : State := s.agentWrite (s.unit ctx) va bs

def State.unitNat (s : State) (ctx : Nat) (va : Addr) (n : Nat) : Option Nat := (s.unitRead ctx va n).map fromBytes

/-! The error ring (R228). -/

/-- Entries that a context's error ring holds. -/
def Context.ringCapacity (c : Context) : Nat := 2 ^ (c.errq.toNat % 16 + 4)

/-- The address of an entry of the ring. -/
def Context.ringEntry (c : Context) (k : Nat) : Addr :=
  BitVec.ofNat 72 (c.errq.toNat / 16 * 16 + 32 * (k % c.ringCapacity))

/-- An error record is appended to a context's ring by an agent of a world; a full or absent ring drops it and sets the lost bit (log entry 13). -/
def State.errorRecordBy (s : State) (g : Agent) (ctx : Nat) (identity : DWord) (hop kind status : Nat) (stamp : Addr) : State :=
  let c := s.ctx ctx
  let bs := toBytes 8 identity.toNat ++ [BitVec.ofNat 8 hop, BitVec.ofNat 8 kind] ++ toBytes 2 status ++ toBytes 4 0 ++ toBytes 16 stamp.toNat
  let fits := c.errq != 0 && decide (c.ringIn - c.ringOut < c.ringCapacity) && (s.plainBytes g { w := true } (c.ringEntry c.ringIn) 32).isOk
  if fits then (s.agentWrite g (c.ringEntry c.ringIn) bs).setCtx ctx { c with ringIn := c.ringIn + 1 }
  else s.setCtx ctx { c with lost := true }

/-- An error record in the world of the context. -/
def State.errorRecord (s : State) (ctx : Nat) (identity : DWord) (hop kind status : Nat) (stamp : Addr) : State :=
  s.errorRecordBy (s.unit ctx) ctx identity hop kind status stamp

/-! The park list (R288). -/

/-- The words of `ecause` (R284). -/
def TrapInfo.cause (t : TrapInfo) : DWord :=
  BitVec.ofNat 64 (t.detail.toNat * 2 ^ 24 + t.access.toNat * 2 ^ 16 +
    (match t.lane with | some l => 2 ^ 15 + l.toNat * 2 ^ 8 | none => 0) + t.kind.toNat)

/-- A page fault: a translation fault without reserved encoding, or a permission fault (R285). -/
def TrapInfo.isPageFault (t : TrapInfo) : Bool := (t.kind == 0x10 && !t.detail.getLsbD 4) || t.kind == 0x11

/-- What the hardware reads of a park list: entries in use, capacity, pool base, pool size and blocks in use. None when the
list counts as full whatever it holds. -/
def State.parkHeader (s : State) (ctx : Nat) : Option (Nat × Nat × Nat × Nat × Nat) :=
  let base := (s.ctx ctx).parkb
  match s.plainBytes (s.unit ctx) { r := true, w := true } base 64 with
  | .error _ => none
  | .ok pas =>
    let w := fun k n => fromBytes ((pas.drop k).take n |>.map s.read)
    if w 8 8 = 0 ∨ 65536 < w 8 8 then none else some (w 0 8, w 8 8, w 0x10 9, w 0x20 8, w 0x28 8)

def State.parkEntry (s : State) (ctx slot : Nat) : Addr := (s.ctx ctx).parkb + BitVec.ofNat 72 (0x40 + 0x40 * slot)

/-- The kind byte of a slot, where it translates with read and write permission. -/
def State.slotKind (s : State) (ctx k : Nat) : Option Byte :=
  match s.plainBytes (s.unit ctx) { r := true, w := true } (s.parkEntry ctx k) 1 with
  | .ok pas => (pas.map s.read).head?
  | .error _ => none

/-- The lowest free slot of a park list. The list counts as full at a slot that cannot be reached. -/
def State.parkSlot (s : State) (ctx : Nat) : Option Nat :=
  match s.parkHeader ctx with
  | none => none
  | some (_, cap, _) =>
    (firstIndex (fun k => match s.slotKind ctx k with | some b => b == 0 | none => true) cap 0).filter fun k => s.slotKind ctx k == some 0

/-- An entry is written into the lowest free slot, then the count; none when the list is full. -/
def State.parkAdd (s : State) (ctx kind : Nat) (installed : Bool) (generation : DWord) (address header : Addr) (visit : Nat)
    (cause : DWord) (field block : Nat) : Option (State × Nat) :=
  match s.parkHeader ctx, s.parkSlot ctx with
  | some (used, _), some k =>
    let bs := [BitVec.ofNat 8 kind, if installed then 1 else 0] ++ toBytes 6 0 ++ toBytes 8 generation.toNat ++
      toBytes 16 address.toNat ++ toBytes 16 header.toNat ++ toBytes 8 visit ++ toBytes 4 cause.toNat ++ toBytes 2 field ++ toBytes 2 block
    match s.plainBytes (s.unit ctx) { r := true, w := true } (s.parkEntry ctx k) 64 with
    | .error _ => none
    | .ok _ => some ((s.unitWrite ctx (s.parkEntry ctx k) bs).unitWrite ctx (s.ctx ctx).parkb (toBytes 8 (used + 1)), k)
  | _, _ => none

/-- An entry is freed and the count rewritten. -/
def State.parkFree (s : State) (ctx slot : Nat) : State :=
  let s1 := s.unitWrite ctx (s.parkEntry ctx slot) [0]
  match s1.parkHeader ctx with
  | none => s1
  | some (used, _) => s1.unitWrite ctx (s1.ctx ctx).parkb (toBytes 8 (used - 1))

/-- The entry of a parked fold or stalled flock is freed, if a resume has not freed it already. -/
def State.freeEntry (s : State) (k : Parked) : State := if k.freed then s else s.parkFree k.ctx k.slot

/-- The save-pool blocks in use by a context's saved folds are written into the park list (R288). -/
def State.writeBlocks (s : State) (ctx : Nat) : State :=
  let n := ((s.saved.filter fun k => k.fold.ctx == ctx).map fun k => k.blocks).foldl (· + ·) 0
  s.unitWrite ctx ((s.ctx ctx).parkb + 0x28) (toBytes 8 n)

/-- A saved fold is forgotten: its entry and its save-pool blocks are freed. -/
def State.forgetSaved (s : State) (k : SavedFold) : State :=
  (State.parkFree { s with saved := s.saved.filter fun q => q.fold.id != k.fold.id } k.fold.ctx k.slot).writeBlocks k.fold.ctx

/-! The end of a fold. -/

/-- The bank slot of the core behind a fold's slot k (R20). -/
def Fold.coreSlot (f : Fold) (k : Nat) : Nat := if f.half then 4 * f.position + k else k

/-- The number of the bank in a fold's slot, if one is mapped. -/
def Fold.bankIn (f : Fold) (k : Nat) : Option Nat := (f.bmap[k]?.getD none).map fun b => 16 * (f.core / 8) + b.toNat

/-- The scratch that a copy uses: the images it reads and writes, and the trough slot it fills. -/
def CopyJob.spans (j : CopyJob) : List Span :=
  let n := (j.total * j.width + 7) / 8
  [j.src, j.dst].flatMap fun e => match e with
    | .image a => [⟨a, n⟩]
    | .trough _ => (j.slot.map fun a => (⟨a, n⟩ : Span)).toList
    | .record _ _ => []

/-- The scratch address of a slot's window (R159). -/
def slotBase (k : Nat) : Nat := 0x1000000 + k * 0x80000

/-- Whether a copy of a fold still uses one of its slots. -/
def State.slotBusy (s : State) (fold k : Nat) : Bool :=
  s.jobs.any fun j => j.fold == fold && j.spans.any fun x => overlap x.base x.len (slotBase k) 0x80000

/-- A fold's banks return to the pool with their contents; one that copies still use is drained first (R215, R265, R287). -/
def State.poolBanks (s : State) (f : Fold) : State :=
  (List.range 8).foldl (fun t k => match f.bankIn k with
    | none => t
    | some b => t.setBank b { t.bank b with place := if s.slotBusy f.id k then .draining f.id else .pooled }) s

/-- Banks that the copies of folds which left have drained return to the pool, and folds without copies are forgotten. -/
def State.releaseDeparted (s : State) : State :=
  let pool := fun (t : State) (f : Fold) => (List.range 8).foldl (fun u k => match f.bankIn k with
    | none => u
    | some b => if (u.bank b).place = .draining f.id ∧ !u.slotBusy f.id k then u.setBank b { u.bank b with place := .pooled } else u) t
  let s1 := s.departed.foldl pool s
  { s1 with departed := s1.departed.filter fun f => s1.jobs.any fun j => j.fold == f.id }

/-- The granules of a core that a fold takes: its share (R258). -/
def shareOf (half : Bool) (position : Nat) : List Nat := if half then (List.range 8).map fun k => 8 * position + k else List.range 16

/-- The bytes that an entry of a commit buffer holds. -/
def CommitEntry.values (e : CommitEntry) : List Byte :=
  match e with
  | .line _ _ d _ => (List.range 64).map fun k => d.extractLsb' (8 * k) 8
  | .reduction _ _ items _ _ _ => items.flatMap fun x => toBytes 4 x.value.toNat

/-- What a fold leaves in granule k of its share (R258, R260). -/
def State.leaves (s : State) (f : Fold) (k : Nat) : Left :=
  if k < f.regs then
    .registers ((s.allFlocks.filter fun g => g.fold == f.id && g.field / 4 == k).map fun g =>
      { place := g.field % 4, v := g.v, s := g.s, a := g.a, p := g.p })
  else if k < f.regs + f.acc then .tiles ((f.accs.toList.drop (16 * (k - f.regs))).take 16)
  else if k < f.regs + f.acc + f.commit then
    .buffer (((f.buf ++ (s.allFlocks.filter fun g => g.fold == f.id).flatMap fun g => g.buf).flatMap CommitEntry.values).eraseDups)
  else .bytes (32768 * (k - f.regs - f.acc - f.commit)) f.scratch.cells

/-- Granules of a fold's core, by their numbers in its share, keep what they are given. -/
def State.keepLeft (s : State) (f : Fold) (what : Nat → Option Left) : State :=
  let share := shareOf f.half f.position
  let kept := fun (e : Granule × Nat) =>
    if share.contains e.2 then { e.1 with left := (what (share.idxOf e.2)).toList ++ e.1.left } else e.1
  s.setCore f.core { s.core f.core with granules := (s.core f.core).granules.zipIdx.map kept }

/-- The granules of a fold's core keep what it leaves there. -/
def State.leaveCore (s : State) (f : Fold) : State := s.keepLeft f fun k => some (s.leaves f k)

/-- The granules of a fold, by their numbers in its share, that a step has changed from what they held before, with that. -/
def State.overwritten (s t : State) (g f : Fold) : List (Nat × Left) :=
  (List.range 16).filterMap fun k => if s.leaves g k = t.leaves f k then none else some (k, s.leaves g k)

/-- Where a step has changed what a fold holds in a granule, what it held before may show when the granule comes back to its owner (R260). -/
def State.keepOverwritten (t s : State) : State :=
  t.allFolds.foldl (fun u f => match s.fold? f.id with
    | none => u
    | some g => match s.overwritten t g f with
      | [] => u
      | old => u.keepLeft f fun k => lookup old k) t

/-- A fold leaves its core: its flocks cease to exist, its banks return to the pool, and copies that it issued go on (R287). The current flock,
when it is one of them, stays as an ended flock. -/
def State.removeFold (s : State) (f : Fold) : State :=
  let s1 := (s.leaveCore f).poolBanks f
  { s1 with
    cur := if s1.cur.fold = f.id ∧ f.id ≠ 0 then { s1.cur with status := .ended, fold := 0, buf := [], monitor := {} } else s1.cur
    fold := if s1.fold.id = f.id then Fold.absent else s1.fold
    flocks := s1.flocks.filter fun k => k.fold != f.id || f.id == 0
    folds := s1.folds.filter fun k => k.id != f.id
    departed := if s1.jobs.any fun j => j.fold == f.id then s1.departed ++ [f] else s1.departed }

/-! Pre-emption in progress (R295 to R297, R307). -/

/-- The done word of a shepherd line (R307). -/
def State.doneWord (s : State) (die : BitVec 2) (tag : Word) (result : Nat) : State :=
  s.hwWrite (s.setup.control + 64 * die.toNat + 0x10) (toBytes 8 (tag.toNat * 2 ^ 32 + result))

/-- The state byte of a context is written, in the machine and in its descriptor. -/
def State.setContextState (s : State) (ctx st : Nat) : State :=
  (s.setCtx ctx { s.ctx ctx with state := st }).hwWrite (s.descriptor ctx) [BitVec.ofNat 8 st]

/-- The copy of the energy counter in a context's descriptor is rewritten (R327). -/
def State.refreshEnergy (s : State) (ctx : Nat) : State :=
  s.hwWrite (s.descriptor ctx + 0x18) (toBytes 8 (s.ctx ctx).energy.toNat)

/-- Every flock of a context that is being pre-empted has yielded or ended: the context reaches state 3 and the command is
answered (R296, R307); a boost lease that a save routine was granted goes with it (R320). Folds that keep their cores because `svec` is 0 and they are not restartable must end first (R295). -/
def State.finishPreempt (s : State) (ctx : Nat) : State :=
  match (s.ctx ctx).preempting with
  | none => s
  | some (tag, die, _) =>
    if s.allFlocks.all fun f => f.ctx != ctx || f.supervises || f.status == .yielded || f.status == .ended then
      let s1 := s.setCtx ctx { s.ctx ctx with preempting := none, preemptAlso := [], boost := none }
      (s.ctx ctx).preemptAlso.foldl (fun t c => t.doneWord c.2 c.1 0) (((s1.setContextState ctx 3).refreshEnergy ctx).doneWord die tag 0)
    else s

/-! The end of a launch. -/

def Header.flag (h : Header) (k : Nat) : Bool := h.flags.getLsbD k
def Header.determ (h : Header) : Bool := h.flag 2
def Header.restart (h : Header) : Bool := h.flag 3
def Header.stop (h : Header) : Bool := h.flag 4
/-- The cluster-gang size g, 0 when there is no gang (R25). -/
def Header.gangSize (h : Header) : Nat := if field h.flags.toNat 8 4 ≤ 1 then 0 else field h.flags.toNat 8 4
/-- The number of folds N (R11). -/
def Header.total (h : Header) : Nat := h.extents.getD 2 1 * h.extents.getD 3 1 * h.extents.getD 4 1 * h.extents.getD 5 1

/-- The 64 bytes of a launch's estimator record (R41, R42). A count above 2^64 - 1, which its field cannot show, stands modulo 2^64 (log entry 108). -/
def Launch.recordBytes (l : Launch) : List Byte :=
  toBytes 8 l.est.n ++ toBytes 8 l.est.mean.toNat ++ toBytes 8 l.est.m2.toNat ++ toBytes 8 l.half.toNat ++
  toBytes 8 l.version ++ toBytes 8 l.state ++ toBytes 8 l.population ++ toBytes 8 l.rflags

/-- Where a launch's record stands is known from the last write of it on (R43). -/
def State.setRecordAt (s : State) (id : Nat) (places : List Nat) : State :=
  { s with launches := s.launches.map fun l => if l.id = id then { l with recordAt := places } else l }

/-- The record as the launch stands is written, at once (R43); one that software wrote holds unknown values. The write is none of software's to this
record, and it is one to any other that lies there (log entry 50). -/
def State.writeRecord (s : State) (l : Launch) : State :=
  if l.hdr.record = 0 then s else
  let (n, s1) := s.draw 64
  let bs := if l.spoiled then (List.range 64).map fun k => Config.freeByte (n + k) else l.recordBytes
  match s1.plainBytes (s1.unit l.ctx) { w := true } l.hdr.record 64 with
  | .ok pas => ((s1.setRecordAt l.id []).unitWrite l.ctx l.hdr.record bs).setRecordAt l.id pas
  | .error _ => s1

/-- The stop visit of a launch that is ended early (R56). -/
def Launch.cutoff (l : Launch) : Nat :=
  if l.hdr.record ≠ 0 then l.version
  else (firstIndex (fun k => !l.ended.contains k) (l.ended.length + 1) 0).getD 0

/-- Every fold of a launch that satisfies `p` by its visit is cancelled, parked and saved ones with it (R55). Copies that they issued run on, and
no retirement waits for them (log entry 90). -/
def State.cancelFolds (s : State) (launch : Nat) (p : Nat → Bool) : State :=
  let live := s.allFolds.filter fun f => f.launch == launch && p f.visit
  let s1 := live.foldl (fun t f => t.removeFold f) s
  let park := s1.parked.filter fun k => k.launch == launch && p k.visit
  let s2 := park.foldl State.freeEntry s1
  let held := s2.saved.filter fun k => k.fold.launch == launch && p k.fold.visit
  let s3 := held.foldl (fun t k => (t.poolBanks k.fold).forgetSaved k) s2
  { s3 with
    parked := s3.parked.filter fun k => !(k.launch == launch && p k.visit)
    dispatch := s3.dispatch.filter fun d => d.launch != launch }

/-- A launch is ended with a final status by a cancellation, a fault or a gang abort: its remaining folds are cancelled, its
deposits discarded and its record left in state 6 (R55, R56). Its retirement writes follow at LAUNCH_RETIREMENT. A launch that is closing
already keeps its status, and folds that still run, as in a gang abort (R312), are cancelled. -/
def State.closeLaunch (s : State) (id : Nat) (status : BitVec 8) : State :=
  let s1 := s.cancelFolds id fun _ => true
  match s1.launch? id with
  | none => s
  | some l =>
    if l.closing.isSome then s1.finishPreempt l.ctx else
    let l1 : Launch := { l with closing := some (status, l.cutoff), deposits := [], state := 6 }
    ((s1.setLaunch l1).writeRecord l1).finishPreempt l.ctx

/-- A fold is aborted and parked (R287): its flocks end, its buffer and deposits are discarded, its banks return, and its
dispatch record goes to the park list; a full list ends the launch (R288). A fold of a launch that is ending, as after a gang abort, is not parked
(R312). -/
def State.abortPark (s : State) (f : Fold) (t : Option TrapInfo) : State :=
  match s.launch? f.launch with
  | none => s.removeFold f
  | some l =>
    let gen := (s.ctx f.ctx).fgen
    let s1 := s.removeFold f
    if l.closing.isSome then s1.finishPreempt f.ctx else
    match s1.parkAdd f.ctx 1 t.isNone gen ((t.map fun t => t.addr).getD 0) l.header f.visit ((t.map TrapInfo.cause).getD 0) 0 0 with
    | none => s1.closeLaunch f.launch 0x14
    | some (s2, k) =>
      let entry : Parked := { ctx := f.ctx, slot := k, launch := f.launch, visit := f.visit, index := f.index
                              flock := none, generation := gen, installed := t.isNone, core := f.core
                              cluster := if l.hdr.gangSize = 0 then none else some (f.core / 8) }
      State.finishPreempt { s2 with parked := s2.parked ++ [entry] } f.ctx

end Sys2Proof.Machine
end

