-- ==== Sys2Proof/Machine/Ops.lean ====
section
/-!
DEFINITION. The operations that every meaning is written with: going on to the next instruction (R136), taking a trap or fault
(R285, R286, R289, R293, R312), returning from a routine (R294), the end of a meaning (`settle`), and the scratch space of a
fold (R158, R159).
-/
namespace Sys2Proof.Machine

/-- What an instruction does: a next state, a stop, or no meaning. -/
abbrev Result := Host.Outcome State Fault Refusal

/-! Going on (R136). -/

/-- The loop levels from the innermost on, at the completion of the instruction at `pc` (R136): the next address, if a level
sends the flow back, and the levels. -/
def Flock.loopStep (f : Flock) (pc next : Addr) : List (BitVec 2) → Flock
  | [] => { f with pc := next }
  | n :: ns =>
    let l := f.getLoop n
    if l.armed && l.fin == pc then
      if 1 < l.count.toNat then { (f.setLoop n { l with count := l.count - 1 }) with pc := l.start }
      else Flock.loopStep (f.setLoop n { l with count := 0, armed := false }) pc next ns
    else Flock.loopStep f pc next ns

/-- The flock after an instruction of `len` bytes completed without redirecting the program counter. Inside a routine the loop
levels are neither matched nor changed (R294). -/
def Flock.advance (f : Flock) (len : Nat) : Flock :=
  if f.routine = .none then f.loopStep f.pc (f.pc + BitVec.ofNat 72 len) [3, 2, 1, 0]
  else { f with pc := f.pc + BitVec.ofNat 72 len }

/-- The current flock goes on after an instruction of `len` bytes. -/
def State.goOn (s : State) (len : Nat) : State := { s with cur := s.cur.advance len }

/-- The current flock goes on after a 32-bit instruction. -/
def State.advance (s : State) : State := s.goOn 4

/-- The end of a meaning: the next state after a 32-bit instruction. -/
def done (s : State) : Result := .next s.advance

/-! Taking a trap (R285, R293). -/

/-- A flock enters a routine at a vector: it saves where it goes on, and becomes privileged (R293). A deferred fault also saves
the address of its instruction (R175). A flock that waits in `mwait` is to return from it when the routine does (R168). A vector with bit 0 set
is gone to as it is (log entry 91). -/
def Flock.enter (f : Flock) (r : Routine) (vector epc : Addr) (dpc : Option Addr) (t : TrapInfo) (nextOp : Nat) : Flock :=
  { f with
    epc := epc, ecause := t.cause, faddr := t.addr, dpc := dpc.getD f.dpc
    privileged := true, routine := r, entered := nextOp, entries := f.entries + 1, pc := vector, status := .running
    waitedAt := if f.status = .waiting then some f.pc else f.waitedAt }

/-- A flock is ended by a fault that nothing can take: its launch ends with status 0x14, and a supervisor ends alone (R285). -/
def State.endFaulted (s : State) : State :=
  if s.cur.supervises then { s with cur := { s.cur with status := .ended } }
  else s.closeLaunch s.fold.launch 0x14

/-- A page fault of a launch's flock (R286): a restartable fold is parked, and any other flock stalls (R289). -/
def State.takePageFault (s : State) (t : TrapInfo) : State :=
  match s.launch? s.fold.launch with
  | none => s.endFaulted
  | some l =>
    if l.hdr.restart then s.abortPark s.fold (some t)
    else
      let gen := (s.ctx s.cur.ctx).fgen
      match s.parkAdd s.cur.ctx 2 false gen t.addr l.header s.fold.visit t.cause s.cur.field 0 with
      | none => s.closeLaunch l.id 0x14
      | some (s1, k) =>
        { s1 with
          cur := { s1.cur with status := .stalled gen }
          parked := s1.parked ++ [{ ctx := s.cur.ctx, slot := k, launch := l.id, visit := s.fold.visit, index := s.fold.index
                                    flock := some s.cur.id, generation := gen, installed := false, cluster := none }] }

/-- Whether a routine is one in which a trap ends the launch: a trap or save routine, and that of a gang abort, which `tvec` starts
(R285, R312). A trap in a resume routine goes where any other goes (log entry 74). -/
def Routine.fatal : Routine → Bool
  | .none => false
  | .resume => false
  | _ => true

/-- The current flock takes a trap or fault: where it goes by its kind (R285), with `epc` the address at which it would go on.
A trap inside a routine, and one while `tvec` is 0, ends the launch or the supervisor. -/
def State.takeTrap (s : State) (t : TrapInfo) (epc : Addr) (dpc : Option Addr := none) : State :=
  if t.kind = 0x20 ∨ t.kind = 0x21 then s.endFaulted
  else if s.cur.routine.fatal then s.endFaulted
  else if t.isPageFault && !s.cur.supervises then s.takePageFault t
  else
    let vector := (s.ctx s.cur.ctx).tvec
    if vector = 0 then s.endFaulted
    else { s with cur := s.cur.enter .trap vector epc dpc t s.nextId }

/-- A precise trap at the current instruction. -/
def State.trapHere (s : State) (t : TrapInfo) : State := s.takeTrap t s.cur.pc

/-- The trap-info word of an illegal instruction (R112). -/
def illegalInfo (cause : BitVec 8) (enc : BitVec 32) : DWord := BitVec.ofNat 64 (cause.toNat * 2 ^ 32 + enc.toNat)

/-- An illegal instruction traps at its first halfword, with its cause and encoding in `tinfo` (R110, R112). -/
def State.illegal (s : State) (cause : BitVec 8) (enc : BitVec 32) : State :=
  { s with cur := { s.cur with tinfo := illegalInfo cause enc } }.trapHere { kind := 0x01, detail := cause }

/-- The error record of a soft error that an access of the current flock consumes (R228, R303). It comes of no chunk and no stamp: identity, hop index,
stamp status and stamp address are 0, which is the model's choice (log entry 131). -/
def State.softRecord (s : State) (t : Option TrapInfo) : State :=
  match t with
  | none => s
  | some _ => s.errorRecord s.cur.ctx 0 0 4 0 0

/-- A fault found in the data of an instruction that is not counted, delivered as a deferred one (R175, R237). -/
def State.defer (s : State) (t : TrapInfo) : State :=
  { s with cur := { s.cur with deferred := s.cur.deferred ++ [{ op := s.nextId, pc := s.cur.pc, info := t }] }, nextId := s.nextId + 1 }

/-- An access for which the spec gives no effect: a flock of a partition stays at its instruction for good, with the name of what stops it, and the other
flocks go on (R304, log entry 129); a supervisor flock, which belongs to no partition, ends the step by name. -/
def State.halt (s : State) (why : Stop) : Result :=
  if s.cur.supervises then (match why with | .fault f => .fault f | .refusal r => .refused r)
  else .next { s with cur := { s.cur with status := .stuck why } }

/-- The end of a meaning that may be kept from its effect: a fault found at issue leaves everything as it was (R148, R203), a
blocking instruction is executed again (R202), and one whose data is in error completes without its result (R303). A store whose translation
reads an entry in error raises no machine check (R175); it leaves the error record and writes nothing (log entry 102). -/
def State.settle (s : State) : Except Bad State → Result
  | .ok t => .next t
  | .error (.trap i) => .next (s.trapHere i)
  | .error (.block b) => .next { s with cur := { s.cur with status := .blocked b } }
  | .error (.remote t) => .next { s with cur := { s.cur with status := .remote t s.time } }
  | .error (.soft t) =>
    let s1 := s.softRecord (some t)
    .next (if t.access = Need.store.code then s1 else s1.defer t).advance
  | .error (.stop f) => s.halt (.fault f)
  | .error (.refuse r) => s.halt (.refusal r)

/-- The return from a routine (R294, R312): a supervisor stays privileged, and the end of a gang-abort routine ends the flock. A
pre-emption that waited is taken with `epc` the address returned to (R296). A wait that the trap found goes on only where the flock returns to
it (R168). Of the pre-emption and a fault that waited for the same return, the pre-emption comes first (log entry 120). -/
def State.leaveRoutine (s : State) : State :=
  let f := s.cur
  if f.routine = .gangAbort then { s with cur := { f with status := .ended, routine := .none } }
  else
    let g := { f with
      pc := f.epc, routine := .none, privileged := f.supervises, waitedAt := f.waitedAt.filter fun a => a == f.epc }
    if f.preempt then
      { s with cur := { g with preempt := false }.enter .save (s.ctx f.ctx).svec f.epc none { kind := 0x31 } s.nextId }
    else { s with cur := g }

/-! The word of the current instruction, for the causes found by a meaning (R96, R109, R212). -/

/-- The halfword of code that a holder has at a place. -/
def State.heldBy (s : State) (h : CodeHolder) (pa : Nat) : Option (BitVec 16) := (s.code.find? fun c => c.1 == h && c.2.1 == pa).map fun c => c.2.2

/-- Code at a place that the current flock has fetched before, or that its core's instruction cache holds (R170, R174). -/
def State.heldCode (s : State) (pa : Nat) : Option (BitVec 16) := (s.heldBy (.flock s.cur.id) pa).or (s.heldBy (.core s.cur.core) pa)

/-- The halfword at an even address as fetch reads it, or the fetch fault (R301); a line in error, its own or that of a table entry, gives a
machine check at the instruction itself (R303, log entry 60). -/
def State.fetchHalf (s : State) (n : Need) (va : Addr) : Except Bad (BitVec 16) :=
  match s.translate (s.agent s.cur) n va with
  | .error (.soft t) => .error (.trap t)
  | .error b => .error b
  | .ok (pa, _) =>
    match s.heldCode pa with
    | some h => .ok h
    | none =>
      if s.broken.contains (.line (pa / 64 * 64)) then .error (.trap { kind := 0x30, access := n.code, addr := va })
      else .ok (s.read (pa + 1) ++ s.read pa)

/-- The fault of a fetch (R301). One of a line in error is a machine check like a deferred one: an error record, and `dpc` (R303). -/
def State.fetchFault (s : State) (b : Bad) : Result :=
  match b with
  | .trap t => if t.kind = 0x30 then .next ((s.softRecord (some t)).takeTrap t s.cur.pc (some s.cur.pc)) else .next (s.trapHere t)
  | _ => s.settle (.error b)

/-- The encoding at the program counter, as `tinfo` shows it (R112): the halfword, and the next one when bit 0 is set, as fetch reads them.
What cannot be fetched reads zero. -/
def State.currentWord (s : State) : BitVec 32 :=
  let half := fun (va : Addr) => match s.fetchHalf Need.fetch va with | .ok h => h | .error _ => 0
  let lo := half s.cur.pc
  if lo.getLsbD 0 then half (s.cur.pc + 2) ++ lo else 0#16 ++ lo

/-- A cause of R111 found by the meaning of an instruction. -/
def State.illegalHere (s : State) (cause : BitVec 8) : State := s.illegal cause s.currentWord

/-- A privileged function runs in a privileged flock only (R109). -/
def State.privileged (s : State) (r : Result) : Result := if s.cur.privileged then r else .next (s.illegalHere 0x06)

/-! Scratch (R158, R159). -/

/-- Bytes of a fold's local scratch (R17, R259). -/
def Fold.localBytes (f : Fold) : Nat :=
  if f.id = 0 then 0 else ((if f.half then 8 else 16) - f.regs - f.acc - f.commit) * 32768

/-- Slots that a fold owns (R20). -/
def Fold.slots (f : Fold) : Nat := if f.id = 0 then 0 else if f.half then 4 else 8

/-- Where a scratch address lies: in local scratch, in a mapped bank, in an owned slot without a bank, or nowhere. -/
inductive Place where
  | pool
  | bank (number : Nat) (offset : Nat)
  | detached
  | nowhere
  deriving DecidableEq, Repr

/-- The slot whose window holds an address from 0x0100_0000 on. -/
def slotOf (a : Nat) : Nat := (a - 0x1000000) / 0x80000

def Fold.place (f : Fold) (a : Nat) : Place :=
  if a < f.localBytes then .pool
  else if 0x1000000 ≤ a ∧ slotOf a < f.slots then
    match f.bankIn (slotOf a) with
    | some b => .bank b ((a - 0x1000000) % 0x80000)
    | none => .detached
  else .nowhere

/-- The check of a scratch range (R159): it lies wholly in one valid range. -/
def Fold.checkScratch (f : Fold) (code : BitVec 8) (a n : Nat) : Except Bad Unit :=
  let fault := fun (k : BitVec 8) => Except.error (Bad.trap { kind := k, access := code, addr := BitVec.ofNat 72 a })
  match f.place a with
  | .nowhere => fault 0x16
  | .detached => fault 0x17
  | .pool => if a + n ≤ f.localBytes then .ok () else fault 0x16
  | .bank _ o => if o + n ≤ 0x80000 then .ok () else fault 0x16

/-- A byte of a fold's scratch. -/
def State.scratchByte (s : State) (f : Fold) (a : Nat) : Byte :=
  match f.place a with
  | .pool => f.scratch.read a
  | .bank b o => (s.bank b).cells.read o
  | _ => 0

/-- A fold on a core, or one that has left it and whose copies go on (R287). -/
def State.anyFold? (s : State) (n : Nat) : Option Fold := (s.fold? n).or (s.departed.find? fun f => f.id == n)

/-- Such a fold changes. -/
def State.setAnyFold (s : State) (f : Fold) : State :=
  { s.setFold f with departed := s.departed.map fun k => if k.id = f.id then f else k }

/-- Whether a byte of a fold's scratch is in error (R303): an error in a bank goes where the bank goes. -/
def State.scratchBad (s : State) (fold a : Nat) : Bool :=
  match s.anyFold? fold with
  | none => false
  | some f => match f.place a with
    | .bank b o => s.broken.contains (.bank b o)
    | _ => s.broken.contains (.scratch fold a)

def State.scratchBytes (s : State) (f : Fold) (a n : Nat) : List Byte := (List.range n).map fun k => s.scratchByte f (a + k)

/-- A byte of a fold's scratch is written. -/
def State.scratchPut (s : State) (fd : Nat) (a : Nat) (b : Byte) : State :=
  match s.anyFold? fd with
  | none => s
  | some f =>
    match f.place a with
    | .pool => s.setAnyFold { f with scratch := f.scratch.write a b }
    | .bank n o => s.setBank n { s.bank n with cells := (s.bank n).cells.write o b }
    | _ => s

/-! Scratch that a trough shares with something else (R268). -/

/-- The slot of a trough that a scratch address lies in. -/
def Trough.slotAt (t : Trough) (a : Nat) : Option Nat :=
  if t.set && decide (t.base ≤ a ∧ a < t.base + t.count * 2 ^ t.logSize) then some ((a - t.base) / 2 ^ t.logSize) else none

/-- The slots of a fold's troughs that meet the footprint of another of them. -/
def Fold.overlaps (f : Fold) : List Span :=
  let ts := (f.troughs.toList.zipIdx).filter fun t => t.1.set
  ts.flatMap fun t => ts.flatMap fun u =>
    if t.2 = u.2 then [] else
    ((List.range t.1.count).map fun k => (⟨t.1.base + k * 2 ^ t.1.logSize, 2 ^ t.1.logSize⟩ : Span)).filter fun x =>
      overlap x.base x.len u.1.base (u.1.count * 2 ^ u.1.logSize)

/-- Whether a write of a scratch byte leaves it undefined: the byte lies in a slot that overlaps another trough, or a flock's scratch store
names it in a slot that the flock does not hold. -/
def Fold.spoils (f : Fold) (storing : Option Nat) (a : Nat) : Bool :=
  (f.overlaps.any fun x => decide (x.base ≤ a ∧ a < x.base + x.len)) ||
  match storing with
  | none => false
  | some flock => f.troughs.toList.any fun t => match t.slotAt a with | some k => !t.holders.contains (k, flock) | none => false

/-- The bytes that a write leaves. -/
def State.scratchKept (s : State) (fd a : Nat) (bs : List Byte) (storing : Option Nat) : List Byte × State :=
  match s.anyFold? fd with
  | none => (bs, s)
  | some f =>
    if !(f.troughs.toList.any fun t => t.set) then (bs, s) else
    let (n, s1) := s.draw bs.length
    (bs.zipIdx.map fun b => if f.spoils storing (a + b.2) then Config.freeByte (n + b.2) else b.1, s1)

/-- Spans of a fold's scratch are left undefined. -/
def State.spoilSpans (s : State) (fd : Nat) (xs : List Span) : State :=
  if xs = [] then s else
  let cells := xs.flatMap fun x => (List.range x.len).map fun k => x.base + k
  let (n, s1) := s.draw cells.length
  cells.zipIdx.foldl (fun t c => t.scratchPut fd c.1 (Config.freeByte (n + c.2))) s1

/-- The overlapping slots of the current fold's troughs are left undefined. -/
def State.spoilOverlaps (s : State) : State := s.spoilSpans s.fold.id s.fold.overlaps

/-- The slots that a range meets and that a flock does not hold: its scratch store leaves all their bytes undefined. -/
def Fold.strays (f : Fold) (flock a n : Nat) : List Span :=
  f.troughs.toList.flatMap fun t => if !t.set then [] else
    ((List.range t.count).filter fun k => overlap (t.base + k * 2 ^ t.logSize) (2 ^ t.logSize) a n && !t.holders.contains (k, flock)).map
      fun k => ⟨t.base + k * 2 ^ t.logSize, 2 ^ t.logSize⟩

/-- Bytes of a fold's scratch are written: tiles of a matrix instruction under way whose operand image is touched are left
undefined (R192). A scratch store of the current flock is one that `tfence` has yet to order (R159). -/
def State.scratchWrite (s0 : State) (fd a : Nat) (bs0 : List Byte) (store : Bool) : State :=
  let (bs, s) := s0.scratchKept fd a bs0 (if store then some s0.cur.id else none)
  let n := bs.length
  let strays := if store then (match s.fold? fd with | some f => f.strays s.cur.id a n | none => []) else []
  let hit := s.allFlocks.flatMap fun f => if f.fold = fd ∧ fd ≠ 0 then
      (f.pend.filter fun o => !o.done && o.reads.any fun r => (⟨a, n⟩ :: strays).any fun x => overlap r.base r.len x.base x.len).flatMap fun o => o.tiles
    else []
  let s1 := ((cellsAt a bs).foldl (fun t w => t.scratchPut fd w.1 w.2) s).spoilSpans fd strays
  let s2 := if store then s1.mapFlocks fun f => if f.fold = fd ∧ fd ≠ 0 then { f with unfenced := ⟨a, n⟩ :: f.unfenced } else f else s1
  if hit = [] then s2 else s2.spoilTiles fd hit

end Sys2Proof.Machine
end

