-- ==== Sys2Proof/Machine/Operands.lean ====
section
/-!
DEFINITION. The operand forms of the lane instructions (R101, R103, R113) and the address forms of the memory instructions (R145,
R158): what each field of an encoding stands for.
-/
namespace Sys2Proof.Machine

/-- Lane `i` of a vector register. -/
def Flock.lane (f : Flock) (r : BitVec 6) (i : Fin 32) : Word := (f.getV r).at i

/-- The guard of a compact instruction: p1 when g is set (R101, R102). -/
def compactGuard (g : BitVec 1) : BitVec 3 := if g = 1 then 1 else 0

/-- The immediate of the VI format as a lane word (R119). -/
def imm9 (i : BitVec 9) : Word := i.signExtend 32

/-- Three-operand lane form: every active lane gets f of its lanes of a and b. -/
def laneOp (f : Word → Word → Word) (d a b : BitVec 6) (g : BitVec 3) (len : Nat) (s : State) : Result :=
  .next ((s.putLanes d (s.cur.active g) fun i => f (s.cur.lane a i) (s.cur.lane b i)).goOn len)

/-- Immediate lane form, without a guard. -/
def laneImm (f : Word → Word → Word) (d a : BitVec 6) (i : BitVec 9) (s : State) : Result :=
  .next ((s.putLanes d (s.cur.active 0) fun k => f (s.cur.lane a k) (imm9 i)).goOn 4)

/-- The bit address of a lane or flock access (R145): base in bytes, offset in units of `size` bits. -/
def bitAddress (base : Addr) (off : Int) (size : Nat) : Nat :=
  ((8 * (base.toNat : Int) + off * size) % 2 ^ 75).toNat

/-- The byte address of a bit address. -/
def byteOf (b : Nat) : Addr := BitVec.ofNat 72 (b / 8)

/-- The lane offset and immediate of the M format (R145). -/
def Flock.laneOffset (f : Flock) (v : BitVec 6) (i : Int) (k : Fin 32) : Int := (f.lane v k).toInt + i

/-- The bit address that lane `k` forms. -/
def Flock.laneBits (f : Flock) (a : BitVec 4) (v : BitVec 6) (i : Int) (size : Nat) (k : Fin 32) : Nat :=
  bitAddress (f.getA a) (f.laneOffset v i k) size

/-- The byte address that a flock-wide access forms, without a lane offset. -/
def Flock.flockAddress (f : Flock) (a : BitVec 4) (i : Int) (size : Nat) : Addr := byteOf (bitAddress (f.getA a) i (8 * size))

/-- A scratch address (R158): the base scalar's low 32 bits, an offset in units of `size` bytes, modulo 2^32. -/
def scratchAddress (base : DWord) (off : Int) (size : Nat) : Nat :=
  (((base.toNat % 2 ^ 32 : Nat) : Int) + off * size).emod (2 ^ 32) |>.toNat

/-- A scalar that holds a memory address supplies its low 64 bits; the bits above come from the instruction's own address
(R134, R200). -/
def Flock.pointer (f : Flock) (x : DWord) : Addr := f.pc.extractLsb' 64 8 ++ x

end Sys2Proof.Machine
end

