-- ==== Sys2Proof/Machine/Branch.lean ====
section
/-!
DEFINITION. Branches, calls and hardware loops, majors 0x10 to 0x14 (R104, R133 to R137).
-/
namespace Sys2Proof.Machine

/-- The target of a B or J form: the instruction's address plus twice the signed offset (R104). -/
def Flock.target (f : Flock) (o : BitVec 20) : Addr := f.pc + (o.signExtend 72 <<< 1)

/-- The flow is redirected: no loop level is matched (R136). -/
def State.jump (s : State) (a : Addr) : State := { s with cur := { s.cur with pc := a } }

/-- The whole flock branches, or goes on (R133). -/
def branch (taken : Bool) (o : BitVec 20) (s : State) : Result :=
  if taken then .next (s.jump (s.cur.target o)) else done s

def execBr (o : BitVec 20) (s : State) : Result := branch true o s
def execBrAny (p : BitVec 3) (o : BitVec 20) (s : State) : Result := branch (s.cur.getP p &&& s.cur.em != 0) o s
def execBrAll (p : BitVec 3) (o : BitVec 20) (s : State) : Result := branch (s.cur.getP p &&& s.cur.em == s.cur.em) o s
def execBrNone (p : BitVec 3) (o : BitVec 20) (s : State) : Result := branch (s.cur.getP p &&& s.cur.em == 0) o s

/-- Bits 63:0 of the address after the call (R134). -/
def Flock.link (f : Flock) : DWord := (f.pc + 4).setWidth 64

def execJal (d : BitVec 5) (o : BitVec 20) (s : State) : Result := .next ((s.putS d s.cur.link).jump (s.cur.target o))

/-- The target of `jr` and `jalr`: the scalar below bits 71:64 of the instruction's own address (R134). -/
def Flock.jumpTarget (f : Flock) (a : BitVec 5) : Addr := f.pointer (f.getS a)

/-- A target with bit 0 set is illegal at the jump, cause 0x08 (R100). -/
def execJr (a : BitVec 5) (s : State) : Result :=
  let t := s.cur.jumpTarget a
  if t.getLsbD 0 then .next (s.illegalHere 0x08) else .next (s.jump t)

def execJalr (d a : BitVec 5) (s : State) : Result :=
  let t := s.cur.jumpTarget a
  if t.getLsbD 0 then .next (s.illegalHere 0x08) else .next ((s.putS d s.cur.link).jump t)

/-- The length of an instruction by its first halfword (R100). -/
def lengthOf (h : BitVec 16) : Nat := if h.getLsbD 0 then 4 else 2

/-- The count: the field itself, or the scalar that it names (R104, R135). -/
def Flock.loopCount (f : Flock) (c : BitVec 5) (i : BitVec 1) : DWord := if i = 1 then c.setWidth 64 else f.getS c

/-- The end of a loop: the instruction's address plus twice the offset (R104). -/
def Flock.loopEnd (f : Flock) (e : BitVec 17) : Addr := f.pc + (e.setWidth 72 <<< 1)

/-- Inside a routine `loop` is a `nop` (R294). With count 0 it disarms the level and goes past the instruction at the end, whose
first halfword is fetched for its length (R135). -/
def execLoop (l : BitVec 2) (c : BitVec 5) (i : BitVec 1) (e : BitVec 17) (s : State) : Result :=
  if s.cur.routine ≠ .none then done s
  else
    let fin := s.cur.loopEnd e
    let old := s.cur.getLoop l
    if s.cur.loopCount c i = 0 then
      match s.fetchHalf Need.fetch fin with
      | .error b => s.fetchFault b
      | .ok h => .next ({ s with cur := s.cur.setLoop l { old with count := 0, armed := false } }.jump (fin + BitVec.ofNat 72 (lengthOf h)))
    else
      done { s with cur := s.cur.setLoop l { start := s.cur.pc + 4, fin := fin, count := s.cur.loopCount c i, armed := true } }

/-- Levels `l` and above are disarmed (R137). -/
def Flock.disarm (f : Flock) (l : BitVec 2) : Flock :=
  { f with loops := Vector.ofFn fun k : Fin 4 =>
      if l.toNat ≤ k.val then { f.loops[k.val] with count := 0, armed := false } else f.loops[k.val] }

def execLbrk (l : BitVec 2) (s : State) : Result :=
  if s.cur.routine ≠ .none then done s else done { s with cur := s.cur.disarm l }

end Sys2Proof.Machine
end

