-- ==== Sys2Proof/Machine/Float.lean ====
section
/-!
DEFINITION. Floating point (R67 to R81, R120, R121): values as exact dyadic numbers, one rounding to any binary format, and the
exact operations whose results are rounded once. Formats LNS6 and the integers, and Microscaling blocks, are here too.
-/
namespace Sys2Proof.Machine

/-- A value: NaN, an infinity, or the number (-1)^neg m 2^e. Zero has a sign. -/
inductive Num where
  | nan
  | inf (neg : Bool)
  | fin (neg : Bool) (m : Nat) (e : Int)
  deriving DecidableEq, Repr

/-- A binary format (R67): width, fraction bits, bias, pattern of the largest finite magnitude, infinity and canonical NaN. -/
structure Fmt where
  width : Nat
  frac : Nat
  bias : Nat
  top : Nat
  inf : Option Nat
  nan : Option Nat
  deriving DecidableEq, Repr

def fp64 : Fmt := ⟨64, 52, 1023, 0x7FEFFFFFFFFFFFFF, some 0x7FF0000000000000, some 0x7FF8000000000000⟩
def fp32 : Fmt := ⟨32, 23, 127, 0x7F7FFFFF, some 0x7F800000, some 0x7FC00000⟩
def fp16 : Fmt := ⟨16, 10, 15, 0x7BFF, some 0x7C00, some 0x7E00⟩
def bf16 : Fmt := ⟨16, 7, 127, 0x7F7F, some 0x7F80, some 0x7FC0⟩
def e4m3 : Fmt := ⟨8, 3, 7, 0x7E, none, some 0x7F⟩
def e5m2 : Fmt := ⟨8, 2, 15, 0x7B, some 0x7C, some 0x7E⟩
def e2m1 : Fmt := ⟨4, 1, 1, 0x7, none, none⟩
def e3m2 : Fmt := ⟨6, 2, 3, 0x1F, none, none⟩
def e2m3 : Fmt := ⟨6, 3, 1, 0x1F, none, none⟩

/-- The sign bit of a pattern. -/
def Fmt.sign (f : Fmt) (x : Nat) : Bool := x.testBit (f.width - 1)

/-- The value of a pattern (R67). -/
def Fmt.decode (f : Fmt) (x : Nat) : Num :=
  let mag := x % 2 ^ (f.width - 1)
  if mag ≤ f.top then
    let e := mag / 2 ^ f.frac
    let m := mag % 2 ^ f.frac
    if e = 0 then .fin (f.sign x) m (1 - f.bias - f.frac)
    else .fin (f.sign x) (m + 2 ^ f.frac) (e - f.bias - f.frac)
  else if f.inf = some mag then .inf (f.sign x) else .nan

/-- Whether a magnitude that lies between `r` and `r + 1` is rounded up: `half` compares the part left off with one half,
`zero` says that nothing is left off. Mode 0 nearest even, 1 towards -∞, 2 towards +∞, 3 towards zero (R75). -/
def roundUp (rm : BitVec 2) (neg : Bool) (odd : Bool) (half : Ordering) (zero : Bool) : Bool :=
  match rm.toNat with
  | 0 => half == .gt || (half == .eq && odd)
  | 1 => neg && !zero
  | 2 => !neg && !zero
  | _ => false

/-- m 2^e, and a little more when `sticky`, as a multiple of 2^q, rounded. -/
def roundTo (rm : BitVec 2) (neg : Bool) (m : Nat) (e : Int) (sticky : Bool) (q : Int) : Nat :=
  if q ≤ e then
    let r := m * 2 ^ (e - q).toNat
    if roundUp rm neg (r % 2 == 1) .lt (!sticky) then r + 1 else r
  else
    let k := (q - e).toNat
    let r := m / 2 ^ k
    let left := m % 2 ^ k
    let half := if 2 * left < 2 ^ k then Ordering.lt else if 2 * left = 2 ^ k && !sticky then .eq else .gt
    if roundUp rm neg (r % 2 == 1) half (left == 0 && !sticky) then r + 1 else r

/-- The magnitude pattern of m 2^e in a format whose exponent range were unbounded above (R78: how overflow is judged). -/
def Fmt.roundMag (f : Fmt) (rm : BitVec 2) (neg : Bool) (m : Nat) (e : Int) (sticky : Bool) : Nat :=
  if m = 0 then 0 else
  let top : Int := m.log2 + e
  let q : Int := max top (1 - f.bias) - f.frac
  let r := roundTo rm neg m e sticky q
  (q + f.frac + f.bias - 1).toNat * 2 ^ f.frac + r

/-- A pattern with a sign. -/
def Fmt.withSign (f : Fmt) (neg : Bool) (mag : Nat) : Nat := if neg then mag + 2 ^ (f.width - 1) else mag

/-- A result with the flags `of` and `nv` that it raises (R75). -/
structure Flagged (α : Type) where
  val : α
  ofl : Bool := false
  nv : Bool := false
  deriving DecidableEq, Repr

/-- IEEE 754 overflow under a rounding mode: whether the result is the infinity rather than the largest finite value. -/
def overflowToInf (rm : BitVec 2) (neg : Bool) : Bool :=
  match rm.toNat with
  | 0 => true
  | 1 => neg
  | 2 => !neg
  | _ => false

/-- Encoding of a value in a format (R78), `sticky` where the value lies a little beyond m 2^e in magnitude. -/
def Fmt.encode (f : Fmt) (rm : BitVec 2) (sat : Bool) (x : Num) (sticky : Bool := false) : Flagged Nat :=
  match x with
  | .nan => { val := f.nan.getD 0 }
  | .inf neg =>
    if sat then { val := f.withSign neg f.top, ofl := true } else
    match f.inf, f.nan with
    | some i, _ => { val := f.withSign neg i }
    | none, some n => { val := n, ofl := true }
    | none, none => { val := f.withSign neg f.top, ofl := true }
  | .fin neg m e =>
    let mag := f.roundMag rm neg m e sticky
    if mag ≤ f.top then { val := f.withSign neg mag } else
    if sat then { val := f.withSign neg f.top, ofl := true } else
    match f.inf, f.nan with
    | some i, _ => { val := f.withSign neg (if overflowToInf rm neg then i else f.top), ofl := true }
    | none, some n => { val := n, ofl := true }
    | none, none => { val := f.withSign neg f.top, ofl := true }

/-- The negation of a value. -/
def Num.neg : Num → Num
  | .nan => .nan
  | .inf s => .inf (!s)
  | .fin s m e => .fin (!s) m e

/-- The signed integer multiple of 2^e that a finite value is, for an exponent not above its own. -/
def Num.scaled (s : Bool) (m : Nat) (e q : Int) : Int :=
  let k : Int := m * 2 ^ (e - q).toNat
  if s then -k else k

/-- The exact sum of two values and whether it is invalid (R78). A zero sum of opposite values is negative only under mode 1
(log entry 11). -/
def Num.add (rm : BitVec 2) (x y : Num) : Flagged Num :=
  match x, y with
  | .nan, _ => { val := .nan }
  | _, .nan => { val := .nan }
  | .inf s, .inf t => if s = t then { val := .inf s } else { val := .nan, nv := true }
  | .inf s, _ => { val := .inf s }
  | _, .inf t => { val := .inf t }
  | .fin s m e, .fin t n f =>
    let q := min e f
    let sum := Num.scaled s m e q + Num.scaled t n f q
    if sum = 0 then
      let neg := if m = 0 && n = 0 && s = t then s else rm == 1#2
      { val := .fin neg 0 0 }
    else { val := .fin (decide (sum < 0)) sum.natAbs q }

/-- The exact product of two values and whether it is invalid (R78). -/
def Num.mul (x y : Num) : Flagged Num :=
  match x, y with
  | .nan, _ => { val := .nan }
  | _, .nan => { val := .nan }
  | .inf s, .inf t => { val := .inf (s != t) }
  | .inf s, .fin t n _ => if n = 0 then { val := .nan, nv := true } else { val := .inf (s != t) }
  | .fin s m _, .inf t => if m = 0 then { val := .nan, nv := true } else { val := .inf (s != t) }
  | .fin s m e, .fin t n f => { val := .fin (s != t) (m * n) (e + f) }

/-- Comparison of two values; none when either is NaN. Zeros are equal whatever their signs (R122). -/
def Num.compare (x y : Num) : Option Ordering :=
  match x, y with
  | .nan, _ => none
  | _, .nan => none
  | .inf s, .inf t => some (if s = t then .eq else if s then .lt else .gt)
  | .inf s, _ => some (if s then .lt else .gt)
  | _, .inf t => some (if t then .gt else .lt)
  | .fin s m e, .fin t n f =>
    let q := min e f
    some (Ord.compare (Num.scaled s m e q) (Num.scaled t n f q))

/-- Whether a value is NaN. -/
def Num.isNan : Num → Bool
  | .nan => true
  | _ => false

/-- Whether a value is finite. -/
def Num.isFinite : Num → Bool
  | .fin _ _ _ => true
  | _ => false

/-- Whether a value is a zero. -/
def Num.isZero : Num → Bool
  | .fin _ m _ => m == 0
  | _ => false

/-- The sign of a value. -/
def Num.isNeg : Num → Bool
  | .nan => false
  | .inf s => s
  | .fin s _ _ => s

/-- The value of an integer. -/
def Num.ofInt (x : Int) : Num := .fin (decide (x < 0)) x.natAbs 0

/-- The square root of a finite non-negative m 2^e to at least 64 bits, with a sticky bit. -/
def sqrtMag (m : Nat) (e : Int) : Nat × Int × Bool :=
  let e0 := if e % 2 = 0 then e else e - 1
  let m0 := if e % 2 = 0 then m else 2 * m
  let k : Nat := 70
  let x := m0 * 2 ^ (2 * k)
  let r := isqrt x
  (r, e0 / 2 - k, r * r != x)

/-- The quotient of two finite magnitudes to at least 64 bits, with a sticky bit. -/
def divMag (m : Nat) (e : Int) (n : Nat) (f : Int) : Nat × Int × Bool :=
  let k : Nat := 70 + n.log2
  (m * 2 ^ k / n, e - f - k, m * 2 ^ k % n != 0)

/-! Operations on FP64 patterns, each rounded once to nearest even (R46, R50, R51). -/

def f64 (x : DWord) : Num := fp64.decode x.toNat
def toF64 (x : Num) (sticky : Bool := false) : DWord := BitVec.ofNat 64 (fp64.encode 0 false x sticky).val
def f64Add (x y : DWord) : DWord := toF64 ((f64 x).add 0 (f64 y)).val
def f64Sub (x y : DWord) : DWord := toF64 ((f64 x).add 0 (f64 y).neg).val
def f64Mul (x y : DWord) : DWord := toF64 ((f64 x).mul (f64 y)).val
def Num.ofNat (n : Nat) : Num := .fin false n 0
def f64OfNat (n : Nat) : DWord := toF64 (Num.ofNat n)

/-- The quotient of two values rounded to FP64, IEEE 754 in its special cases. -/
def f64DivBy (x y : Num) : DWord :=
  match x, y with
  | .nan, _ => toF64 .nan
  | _, .nan => toF64 .nan
  | .inf _, .inf _ => toF64 .nan
  | .inf s, .fin t _ _ => toF64 (.inf (s != t))
  | .fin s _ _, .inf t => toF64 (.fin (s != t) 0 0)
  | .fin s m e, .fin t n f =>
    if n = 0 then (if m = 0 then toF64 .nan else toF64 (.inf (s != t)))
    else
      let (r, g, sticky) := divMag m e n f
      toF64 (.fin (s != t) r g) sticky

/-- The FP64 quotient. -/
def f64Div (x y : DWord) : DWord := f64DivBy (f64 x) (f64 y)

/-- The FP64 square root. -/
def f64Sqrt (x : DWord) : DWord :=
  match f64 x with
  | .nan => toF64 .nan
  | .inf s => if s then toF64 .nan else toF64 (.inf false)
  | .fin s m e =>
    if m = 0 then x else if s then toF64 .nan else
    let (r, g, sticky) := sqrtMag m e
    toF64 (.fin false r g) sticky

/-! Operations on FP32 words. -/

def f32 (x : Word) : Num := fp32.decode x.toNat

/-- A value rounded to FP32 with its flags, `fcr.sat` not acting (R120). -/
def toF32 (rm : BitVec 2) (x : Flagged Num) (sticky : Bool := false) : Flagged Word :=
  let r := fp32.encode rm false x.val sticky
  { val := BitVec.ofNat 32 r.val, ofl := r.ofl, nv := x.nv }

/-- FP32 rounded to nearest even without flags. -/
def rne32 (x : Num) : Word := (toF32 0 { val := x }).val

def f32Add (rm : BitVec 2) (x y : Word) : Flagged Word := toF32 rm ((f32 x).add rm (f32 y))
def f32Sub (rm : BitVec 2) (x y : Word) : Flagged Word := toF32 rm ((f32 x).add rm (f32 y).neg)
def f32Mul (rm : BitVec 2) (x y : Word) : Flagged Word := toF32 rm ((f32 x).mul (f32 y))

/-- d + x y rounded once; `neg` subtracts the product (R120 fn 3 and 4). A NaN operand gives no `nv`. -/
def f32Fma (rm : BitVec 2) (neg : Bool) (d x y : Word) : Flagged Word :=
  let p := (f32 x).mul (f32 y)
  let q := if neg then p.val.neg else p.val
  if (f32 d).isNan then toF32 rm { val := .nan } else
  let r := (f32 d).add rm q
  toF32 rm { val := r.val, nv := p.nv || r.nv }

/-- The smaller or larger FP32 operand, -0 below +0 (R120 fn 5 and 6). -/
def f32MinMax (larger : Bool) (x y : Word) : Word :=
  if (f32 x).isNan || (f32 y).isNan then 0x7FC00000#32 else
  let less := match (f32 x).compare (f32 y) with
    | some .lt => true
    | some .eq => (f32 x).isNeg && !(f32 y).isNeg
    | _ => false
  if less != larger then x else y

/-- The correctly rounded square root (R120 fn 12, R121). -/
def f32Sqrt (rm : BitVec 2) (x : Word) : Flagged Word :=
  match f32 x with
  | .nan => { val := 0x7FC00000#32 }
  | .inf s => if s then { val := 0x7FC00000#32, nv := true } else { val := x }
  | .fin s m e =>
    if m = 0 then { val := x } else if s then { val := 0x7FC00000#32, nv := true } else
    let (r, g, sticky) := sqrtMag m e
    toF32 rm { val := .fin false r g } sticky

/-- Rounding to an integral FP32 value (R120 fn 15): mode 0 nearest even, 1 floor, 2 ceil, 3 truncate. -/
def f32Round (mode : BitVec 2) (x : Word) : Word :=
  match f32 x with
  | .nan => 0x7FC00000#32
  | .inf _ => x
  | .fin s m e => rne32 (.fin s (roundTo mode s m e false 0) 0)

/-! The approximations of R121. Each gives the value that the device gives where it lies within the bound, and the correctly
rounded value otherwise; what the device gives is unknown (log entry 6). -/

/-- Whether c lies within `bound` 2^q of some value between lo and hi, all three multiples of a common power of two. -/
def nearInterval (c : Num) (lo hi bound : Num) : Bool :=
  match (c.add 0 hi.neg).val.compare bound, (lo.add 0 c.neg).val.compare bound with
  | some o, some p => o != .gt && p != .gt
  | _, _ => false

/-- The unit in the last place of a finite FP32 value, times k. -/
def ulps (k : Nat) (x : Word) : Num :=
  let e := field x.toNat 23 8
  .fin false k ((if e = 0 then 1 else (e : Int)) - 150)

/-- m 2^e and the next multiple of 2^e, as bounds of a positive or negative value. -/
def bracket (neg : Bool) (m : Nat) (e : Int) (sticky : Bool) : Num × Num :=
  let a := Num.fin neg m e
  let b := Num.fin neg (if sticky then m + 1 else m) e
  if neg then (b, a) else (a, b)

def f32Rcp (rm : BitVec 2) (x : Word) : Flagged Word :=
  match f32 x with
  | .nan => { val := 0x7FC00000#32 }
  | .inf s => { val := if s then 0x80000000#32 else 0#32 }
  | .fin s m e =>
    if m = 0 then { val := if s then 0xFF800000#32 else 0x7F800000#32 } else
    let (q, f, sticky) := divMag 1 0 m e
    let exact := toF32 rm { val := .fin s q f } sticky
    if exact.ofl then exact else
    let (lo, hi) := bracket s q f sticky
    let guess := Config.rcpValue x rm
    if (f32 guess).isFinite && nearInterval (f32 guess) lo hi (ulps 1 (toF32 0 { val := .fin s q f } sticky).val)
    then { val := guess } else exact

def f32Rsq (rm : BitVec 2) (x : Word) : Flagged Word :=
  match f32 x with
  | .nan => { val := 0x7FC00000#32 }
  | .inf s => if s then { val := 0x7FC00000#32, nv := true } else { val := 0#32 }
  | .fin s m e =>
    if m = 0 then { val := if s then 0xFF800000#32 else 0x7F800000#32 }
    else if s then { val := 0x7FC00000#32, nv := true } else
    let (r, g, _) := sqrtMag m e
    let (q, f, _) := divMag 1 0 r g
    let exact := toF32 rm { val := .fin false q f } true
    let (lo, hi) := (Num.fin false (q - 2 ^ 4) f, Num.fin false (q + 2 ^ 4) f)
    let guess := Config.rsqValue x rm
    if (f32 guess).isFinite && nearInterval (f32 guess) lo hi (ulps 2 (toF32 0 { val := .fin false q f } true).val)
    then { val := guess } else exact

/-- The fixed-point constants 2^(2^-k), k from 1, in 96 fraction bits, for as many k as the list is long. -/
def rootsOfTwo : Nat → Nat → List Nat
  | 0, _ => []
  | n + 1, c => let r := isqrt (c * 2 ^ 96); r :: rootsOfTwo n r

/-- 2^f for a fraction f given by its 64 bits, highest first, in 96 fraction bits. -/
def powFraction (bs : List Bool) (roots : List Nat) : Nat :=
  (bs.zip roots).foldl (fun acc br => if br.1 then acc * br.2 / 2 ^ 96 else acc) (2 ^ 96)

def f32Exp2 (rm : BitVec 2) (x : Word) : Flagged Word :=
  match f32 x with
  | .nan => { val := 0x7FC00000#32 }
  | .inf s => { val := if s then 0#32 else 0x7F800000#32 }
  | .fin s m e =>
    if m = 0 then { val := 0x3F800000#32 } else
    -- the exponent in units of 2^-64, rounded down; beyond 2^10 every value overflows or is below half the least subnormal
    let far := decide (10 < (m.log2 : Int) + e)
    let scaledDown := if far then (if s then -(2 ^ 74 : Int) else 2 ^ 74)
      else
        let k := if 0 ≤ e + 64 then (m : Int) * 2 ^ (e + 64).toNat else (m / 2 ^ (-(e + 64)).toNat : Nat)
        let exactly := decide (0 ≤ e + 64) || m % 2 ^ (-(e + 64)).toNat == 0
        if s then (if exactly then -k else -k - 1) else k
    let n := scaledDown / 2 ^ 64
    let frac := (scaledDown % 2 ^ 64).toNat
    let whole := decide (0 ≤ e) || m % 2 ^ (-e).toNat == 0
    if whole then toF32 rm { val := .fin false 1 n } else
    let y := powFraction (bitList 64 frac).reverse (rootsOfTwo 64 (2 ^ 97))
    let (lo, hi) := (Num.fin false (y - 2 ^ 40) (n - 96), Num.fin false (y + 2 ^ 40) (n - 96))
    let exact := toF32 rm { val := .fin false y (n - 96) } true
    if exact.ofl then exact else
    let guess := Config.exp2Value x rm
    if (f32 guess).isFinite && !(f32 guess).isNeg && nearInterval (f32 guess) lo hi (ulps 2 (toF32 0 { val := .fin false y (n - 96) } true).val)
    then { val := guess } else exact

/-- The fraction bits of log2 of y 2^-128, y between 2^128 and 2^129, by repeated squaring. -/
def logBits : Nat → Nat → Nat → Nat
  | 0, _, acc => acc
  | n + 1, y, acc =>
    let z := y * y / 2 ^ 128
    if 2 ^ 129 ≤ z then logBits n (z / 2) (2 * acc + 1) else logBits n z (2 * acc)

def f32Log2 (rm : BitVec 2) (x : Word) : Flagged Word :=
  match f32 x with
  | .nan => { val := 0x7FC00000#32 }
  | .inf s => if s then { val := 0x7FC00000#32, nv := true } else { val := x }
  | .fin s m e =>
    if m = 0 then { val := 0xFF800000#32 }
    else if s then { val := 0x7FC00000#32, nv := true } else
    let top : Int := m.log2 + e
    let power := m == 2 ^ m.log2
    if power && top == 0 then { val := 0 } else
    let y := m * 2 ^ (128 - m.log2)
    let total : Int := top * 2 ^ 56 + logBits 56 y 0
    let value := fun (k : Int) => Num.fin (decide (k < 0)) k.natAbs (-56)
    let exact := if power then toF32 rm { val := Num.ofInt top }
      else toF32 rm { val := Num.fin (decide (total < 0)) (if total < 0 then (total + 1).natAbs else total.natAbs) (-56) } true
    let u := ulps 2 (toF32 0 { val := value total }).val
    let bound := if top = 0 || top = -1 then
        (if u.compare (.fin false 1 (-22)) == some .lt then Num.fin false 1 (-22) else u) else u
    let guess := Config.log2Value x rm
    if (f32 guess).isFinite && nearInterval (f32 guess) (value total) (value (if power then total else total + 1)) bound then { val := guess } else exact

/-! LNS6 (R69, R79). -/

/-- T[f] of R69, in units of 2^-12. -/
def lnsTable (f : Nat) : Nat := [4096, 4871, 5793, 6889].getD f 0

/-- The signed log field of an LNS6 code. -/
def lnsLog (x : Nat) : Int := signed 5 x

/-- The magnitude of a log field. -/
def lnsMag (l : Int) : Num := .fin false (lnsTable (l % 4).toNat) (l / 4 - 12)

/-- The value of an LNS6 code (R69). -/
def lnsDecode (x : Nat) : Num :=
  if lnsLog x = -16 then (if x.testBit 5 then .nan else .fin false 0 0)
  else match lnsMag (lnsLog x) with
    | .fin _ m e => .fin (x.testBit 5) m e
    | n => n

/-- The log fields of the candidates of R79, with zero as -16. -/
def lnsCandidates : List Int := (List.range 32).map fun (k : Nat) => (k : Int) - 16

/-- The magnitude of a candidate in units of 2^-16. -/
def lnsUnits (l : Int) : Nat := if l = -16 then 0 else lnsTable (l % 4).toNat * 2 ^ (l / 4 + 4).toNat

/-- Encoding to LNS6 (R79, R78). -/
def lnsEncode (sat : Bool) (x : Num) : Flagged Nat :=
  match x with
  | .nan => { val := 0x30 }
  | .inf s => if sat then { val := 15 + (if s then 32 else 0), ofl := true } else { val := 0x30, ofl := true }
  | .fin s m e =>
    -- |x| against 15081 2^-10, the threshold 14.7275390625
    let q := min e (-16)
    let a := m * 2 ^ (e - q).toNat
    let unit := 2 ^ (-16 - q).toNat
    if 15081 * 2 ^ 6 * unit < a then (if sat then { val := 15 + (if s then 32 else 0), ofl := true } else { val := 0x30, ofl := true })
    else
      let dist := fun (l : Int) => ((a : Int) - lnsUnits l * unit).natAbs
      let best := lnsCandidates.foldl (fun b l =>
        if dist l < dist b then l else if dist l = dist b && l % 2 = 0 then l else b) (-16)
      if best = -16 then { val := 0x10 } else { val := lowBits 5 best + (if s then 32 else 0) }

/-! Integer formats (R70, R78, R81). -/

/-- The range of an n-bit integer format. -/
def intRange (n : Nat) (isSigned : Bool) : Int × Int := if isSigned then (-(2 ^ (n - 1)), 2 ^ (n - 1) - 1) else (0, 2 ^ n - 1)

/-- An integer in an n-bit format (R78, integer row). -/
def intEncode (n : Nat) (isSigned sat : Bool) (x : Int) : Flagged Nat :=
  let (lo, hi) := intRange n isSigned
  if lo ≤ x ∧ x ≤ hi then { val := lowBits n x }
  else if sat then { val := lowBits n (if x < lo then lo else hi), ofl := true }
  else { val := lowBits n x, ofl := true }

/-- A value converted to an n-bit integer format (R81, R78). -/
def intOfNum (rm : BitVec 2) (n : Nat) (isSigned sat : Bool) (x : Num) : Flagged Nat :=
  match x with
  | .nan => { val := 0, nv := true }
  | .inf s =>
    if sat then { val := lowBits n (if s then (intRange n isSigned).1 else (intRange n isSigned).2), ofl := true }
    else { val := 0, nv := true }
  | .fin s m e =>
    let r := roundTo rm s m e false 0
    intEncode n isSigned sat (if s then -(r : Int) else r)

/-! Microscaling elements (R68, R80). -/

/-- An element encoded against a scale byte (R80, second case). -/
def mxElement (f : Fmt) (rm : BitVec 2) (scale : Nat) (x : Num) : Flagged Nat :=
  if scale = 0xFF || x.isNan then { val := 0, nv := true }
  else match x with
    | .fin s m e => f.encode rm false (.fin s m (e - (scale - 127)))
    | y => f.encode rm false y

/-- The exponent of the largest element value (R80). -/
def mxEmax (f : Fmt) : Int := if f = e3m2 then 4 else 2

/-- A whole block encoded (R80): the scale byte and the elements. -/
def mxBlock (f : Fmt) (rm : BitVec 2) (sat : Bool) (xs : List Num) : Flagged (Nat × List Nat) :=
  if xs.any (fun x => x.isNan || (!x.isFinite && !sat)) then { val := (0xFF, xs.map fun _ => 0), nv := true }
  else
    let clamp := fun (x : Num) => match x with | .inf s => Num.fin s (2 ^ 24 - 1) 104 | y => y
    let ys := xs.map clamp
    let tops := ys.filterMap fun y => match y with | .fin _ m e => if m = 0 then none else some ((m.log2 : Int) + e) | _ => none
    let e : Int := match tops with
      | [] => 0
      | t :: ts => max (-127) (min 127 (ts.foldl max t - mxEmax f))
    let el := fun (y : Num) => match y with | .fin s m g => (f.encode rm false (.fin s m (g - e))).val | _ => 0
    { val := ((e + 127).toNat, ys.map el), ofl := xs.any fun x => !x.isFinite }

/-- The value of a Microscaling element under its scale byte (R68). -/
def mxDecode (f : Fmt) (scale x : Nat) : Num :=
  if scale = 0xFF then .nan
  else match f.decode x with
    | .fin s m e => .fin s m (e + (scale - 127))
    | y => y

end Sys2Proof.Machine
end

