-- ==== Sys2Proof/Machine/Flags.lean ====
section
/-!
DEFINITION. The flock control register `fcr` (R75 to R77): its fields, and how an instruction ORs the flags of its active lanes
into it.
-/
namespace Sys2Proof.Machine

/-- The rounding mode, bits 1:0. -/
def Flock.rm (f : Flock) : BitVec 2 := f.fcr.extractLsb' 0 2

/-- Saturation, bit 2. -/
def Flock.sat (f : Flock) : Bool := f.fcr.getLsbD 2

/-- The bits that `fcrput` writes: 9:8 and 2:0 (R75). -/
def fcrWritable : Word := 0x307

def Flock.putFcr (f : Flock) (x : Word) : Flock := { f with fcr := (f.fcr &&& ~~~fcrWritable) ||| (x &&& fcrWritable) }

/-- Whether some active lane raises `of`. -/
def anyOf (m : Mask) (f : Fin 32 → Flagged Word) : Bool := (activeLanes m).any fun i => (f i).ofl

/-- Whether some active lane raises `nv`. -/
def anyNv (m : Mask) (f : Fin 32 → Flagged Word) : Bool := (activeLanes m).any fun i => (f i).nv

/-- Lanes of a register are written with results that carry flags (R76, R120). -/
def State.putFlagged (s : State) (d : BitVec 6) (m : Mask) (f : Fin 32 → Flagged Word) : State :=
  { s with cur := s.cur.raise (anyOf m f) (anyNv m f) }.putLanes d m fun i => (f i).val

end Sys2Proof.Machine
end

