-- ==== Sys2Proof/Machine/Vector.lean ====
section
/-!
DEFINITION. Vector integer instructions, majors 0x01 and 0x02 (R119), and their compact forms (R102).
-/
namespace Sys2Proof.Machine

/-! The results f(x, y) of R119. -/

def wAdd (x y : Word) : Word := x + y
def wSub (x y : Word) : Word := x - y
def wMul (x y : Word) : Word := x * y
/-- Bits 63:32 of the signed product. -/
def wMulhS (x y : Word) : Word := BitVec.ofInt 32 (x.toInt * y.toInt / 2 ^ 32)
/-- Bits 63:32 of the unsigned product. -/
def wMulhZ (x y : Word) : Word := BitVec.ofNat 32 (x.toNat * y.toNat / 2 ^ 32)
def wMinS (x y : Word) : Word := if x.toInt ≤ y.toInt then x else y
def wMaxS (x y : Word) : Word := if x.toInt ≤ y.toInt then y else x
def wMinZ (x y : Word) : Word := if x.toNat ≤ y.toNat then x else y
def wMaxZ (x y : Word) : Word := if x.toNat ≤ y.toNat then y else x
def wAnd (x y : Word) : Word := x &&& y
def wOr (x y : Word) : Word := x ||| y
def wXor (x y : Word) : Word := x ^^^ y
def wShl (x y : Word) : Word := if 32 ≤ y.toNat then 0 else x <<< y.toNat
def wShrZ (x y : Word) : Word := if 32 ≤ y.toNat then 0 else x >>> y.toNat
def wShrS (x y : Word) : Word := x.sshiftRight (if 32 ≤ y.toNat then 31 else y.toNat)
def wAndn (x y : Word) : Word := x &&& ~~~y

def execVadd (d a b : BitVec 6) (g : BitVec 3) (s : State) : Result := laneOp wAdd d a b g 4 s
def execVsub (d a b : BitVec 6) (g : BitVec 3) (s : State) : Result := laneOp wSub d a b g 4 s
def execVmul (d a b : BitVec 6) (g : BitVec 3) (s : State) : Result := laneOp wMul d a b g 4 s
def execVmulhS (d a b : BitVec 6) (g : BitVec 3) (s : State) : Result := laneOp wMulhS d a b g 4 s
def execVmulhZ (d a b : BitVec 6) (g : BitVec 3) (s : State) : Result := laneOp wMulhZ d a b g 4 s
def execVminS (d a b : BitVec 6) (g : BitVec 3) (s : State) : Result := laneOp wMinS d a b g 4 s
def execVmaxS (d a b : BitVec 6) (g : BitVec 3) (s : State) : Result := laneOp wMaxS d a b g 4 s
def execVminZ (d a b : BitVec 6) (g : BitVec 3) (s : State) : Result := laneOp wMinZ d a b g 4 s
def execVmaxZ (d a b : BitVec 6) (g : BitVec 3) (s : State) : Result := laneOp wMaxZ d a b g 4 s
def execVand (d a b : BitVec 6) (g : BitVec 3) (s : State) : Result := laneOp wAnd d a b g 4 s
def execVor (d a b : BitVec 6) (g : BitVec 3) (s : State) : Result := laneOp wOr d a b g 4 s
def execVxor (d a b : BitVec 6) (g : BitVec 3) (s : State) : Result := laneOp wXor d a b g 4 s
def execVshl (d a b : BitVec 6) (g : BitVec 3) (s : State) : Result := laneOp wShl d a b g 4 s
def execVshrZ (d a b : BitVec 6) (g : BitVec 3) (s : State) : Result := laneOp wShrZ d a b g 4 s
def execVshrS (d a b : BitVec 6) (g : BitVec 3) (s : State) : Result := laneOp wShrS d a b g 4 s
def execVandn (d a b : BitVec 6) (g : BitVec 3) (s : State) : Result := laneOp wAndn d a b g 4 s

def execVaddi (d a : BitVec 6) (i : BitVec 9) (s : State) : Result := laneImm wAdd d a i s
def execVsubi (d a : BitVec 6) (i : BitVec 9) (s : State) : Result := laneImm wSub d a i s
def execVmuli (d a : BitVec 6) (i : BitVec 9) (s : State) : Result := laneImm wMul d a i s
def execVmulhSi (d a : BitVec 6) (i : BitVec 9) (s : State) : Result := laneImm wMulhS d a i s
def execVmulhZi (d a : BitVec 6) (i : BitVec 9) (s : State) : Result := laneImm wMulhZ d a i s
def execVminSi (d a : BitVec 6) (i : BitVec 9) (s : State) : Result := laneImm wMinS d a i s
def execVmaxSi (d a : BitVec 6) (i : BitVec 9) (s : State) : Result := laneImm wMaxS d a i s
def execVminZi (d a : BitVec 6) (i : BitVec 9) (s : State) : Result := laneImm wMinZ d a i s
def execVmaxZi (d a : BitVec 6) (i : BitVec 9) (s : State) : Result := laneImm wMaxZ d a i s
def execVandi (d a : BitVec 6) (i : BitVec 9) (s : State) : Result := laneImm wAnd d a i s
def execVori (d a : BitVec 6) (i : BitVec 9) (s : State) : Result := laneImm wOr d a i s
def execVxori (d a : BitVec 6) (i : BitVec 9) (s : State) : Result := laneImm wXor d a i s
def execVshli (d a : BitVec 6) (i : BitVec 9) (s : State) : Result := laneImm wShl d a i s
def execVshrZi (d a : BitVec 6) (i : BitVec 9) (s : State) : Result := laneImm wShrZ d a i s
def execVshrSi (d a : BitVec 6) (i : BitVec 9) (s : State) : Result := laneImm wShrS d a i s
def execVandni (d a : BitVec 6) (i : BitVec 9) (s : State) : Result := laneImm wAndn d a i s

/-! Compact forms: d is the first source as well, registers v0 to v31, guard p1 or none (R101, R102). -/

/-- `vor d, a, a`. -/
def execCompactMov (d a : BitVec 5) (g : BitVec 1) (s : State) : Result := laneOp wOr (vreg d) (vreg a) (vreg a) (compactGuard g) 2 s
def execCompactAdd (d a : BitVec 5) (g : BitVec 1) (s : State) : Result := laneOp wAdd (vreg d) (vreg d) (vreg a) (compactGuard g) 2 s
def execCompactSub (d a : BitVec 5) (g : BitVec 1) (s : State) : Result := laneOp wSub (vreg d) (vreg d) (vreg a) (compactGuard g) 2 s
def execCompactMul (d a : BitVec 5) (g : BitVec 1) (s : State) : Result := laneOp wMul (vreg d) (vreg d) (vreg a) (compactGuard g) 2 s
def execCompactAnd (d a : BitVec 5) (g : BitVec 1) (s : State) : Result := laneOp wAnd (vreg d) (vreg d) (vreg a) (compactGuard g) 2 s
def execCompactOr (d a : BitVec 5) (g : BitVec 1) (s : State) : Result := laneOp wOr (vreg d) (vreg d) (vreg a) (compactGuard g) 2 s
def execCompactXor (d a : BitVec 5) (g : BitVec 1) (s : State) : Result := laneOp wXor (vreg d) (vreg d) (vreg a) (compactGuard g) 2 s
def execCompactShl (d a : BitVec 5) (g : BitVec 1) (s : State) : Result := laneOp wShl (vreg d) (vreg d) (vreg a) (compactGuard g) 2 s
def execCompactShrZ (d a : BitVec 5) (g : BitVec 1) (s : State) : Result := laneOp wShrZ (vreg d) (vreg d) (vreg a) (compactGuard g) 2 s
def execCompactShrS (d a : BitVec 5) (g : BitVec 1) (s : State) : Result := laneOp wShrS (vreg d) (vreg d) (vreg a) (compactGuard g) 2 s

end Sys2Proof.Machine
end

