-- ==== Sys2Proof/Machine/Reduce.lean ====
section
/-!
DEFINITION. The compensated addition of R86, and reductions and scans over lanes, major 0x07 (R125), in the orders of R91.
-/
namespace Sys2Proof.Machine

/-- RNE(x + y) in FP32, no flag. -/
def rneAdd (x y : Word) : Word := (f32Add 0 x y).val
/-- RNE(x - y) in FP32, no flag. -/
def rneSub (x y : Word) : Word := (f32Sub 0 x y).val

/-- TwoSum (R86). -/
def twoSum (a : Pair) (p : Word) : Pair :=
  let t := rneAdd a.s p
  if !(f32 a.s).isFinite || !(f32 p).isFinite || !(f32 t).isFinite then { s := t, c := 0 }
  else
    let q := rneSub t a.s
    let e := rneAdd (rneSub a.s (rneSub t q)) (rneSub p q)
    { s := t, c := rneAdd a.c e }

/-- The values of the active lanes, ascending. -/
def Flock.activeValues (f : Flock) (a : BitVec 6) (g : BitVec 3) : List Word := (activeLanes (f.active g)).map (f.lane a)

/-- A reduction writes the scalar once, even when no lane is active (R125). -/
def reduce (f : List Word → DWord) (d : BitVec 5) (a : BitVec 6) (g : BitVec 3) (s : State) : Result :=
  done (s.putS d (f (s.cur.activeValues a g)))

/-- Adjacent results are summed, level by level, with the flags of every addition (R91, `red.fadd`). -/
def pairSums (rm : BitVec 2) : List Word → List (Flagged Word)
  | x :: y :: t => f32Add rm x y :: pairSums rm t
  | _ => []

/-- The pairwise tree over `n` levels: the sum and the flags. -/
def treeSum (rm : BitVec 2) : Nat → List Word → Bool → Bool → Flagged Word
  | 0, xs, o, n => { val := xs.headD 0, ofl := o, nv := n }
  | k + 1, xs, o, n =>
    let ys := pairSums rm xs
    treeSum rm k (ys.map fun y => y.val) (o || ys.any fun y => y.ofl) (n || ys.any fun y => y.nv)

def negZero : Word := 0x80000000

def execRedAdd (d : BitVec 5) (a : BitVec 6) (g : BitVec 3) (s : State) : Result :=
  reduce (fun xs => (xs.foldl (· + ·) 0).setWidth 64) d a g s
def execRedFadd (d : BitVec 5) (a : BitVec 6) (g : BitVec 3) (s : State) : Result :=
  let m := s.cur.active g
  let r := treeSum s.cur.rm 5 (lanes.map fun i => if m.on i then s.cur.lane a i else negZero) false false
  done ({ s with cur := s.cur.raise r.ofl r.nv }.putS d (r.val.setWidth 64))
def execRedMinS (d : BitVec 5) (a : BitVec 6) (g : BitVec 3) (s : State) : Result :=
  reduce (fun xs => (xs.foldl wMinS 0x7FFFFFFF#32).signExtend 64) d a g s
def execRedMaxS (d : BitVec 5) (a : BitVec 6) (g : BitVec 3) (s : State) : Result :=
  reduce (fun xs => (xs.foldl wMaxS 0x80000000#32).signExtend 64) d a g s
def execRedFmin (d : BitVec 5) (a : BitVec 6) (g : BitVec 3) (s : State) : Result :=
  reduce (fun xs => (xs.foldl (f32MinMax false) 0x7F800000#32).setWidth 64) d a g s
def execRedFmax (d : BitVec 5) (a : BitVec 6) (g : BitVec 3) (s : State) : Result :=
  reduce (fun xs => (xs.foldl (f32MinMax true) 0xFF800000#32).setWidth 64) d a g s
def execRedAnd (d : BitVec 5) (a : BitVec 6) (g : BitVec 3) (s : State) : Result :=
  reduce (fun xs => (xs.foldl (· &&& ·) 0xFFFFFFFF#32).setWidth 64) d a g s
def execRedOr (d : BitVec 5) (a : BitVec 6) (g : BitVec 3) (s : State) : Result :=
  reduce (fun xs => (xs.foldl (· ||| ·) 0#32).setWidth 64) d a g s

/-- The active lanes up to and including lane i. -/
def upTo (m : Mask) (i : Fin 32) : List (Fin 32) := (activeLanes m).filter fun k => decide (k ≤ i)

def execScanAdd (d a : BitVec 6) (g : BitVec 3) (s : State) : Result :=
  let m := s.cur.active g
  done (s.putLanes d m fun i => ((upTo m i).map (s.cur.lane a)).foldl (· + ·) 0)

/-- The running sum from -0.0, its flags those of its last addition. -/
def runningSum (rm : BitVec 2) (xs : List Word) : Flagged Word :=
  xs.foldl (fun t x => f32Add rm t.val x) { val := negZero }

def execScanFadd (d a : BitVec 6) (g : BitVec 3) (s : State) : Result :=
  let m := s.cur.active g
  done (s.putFlagged d m fun i => runningSum s.cur.rm ((upTo m i).map (s.cur.lane a)))

/-- The TwoSum chain from (-0.0, +0.0), to nearest even, no flag: s(d) gets s and s(d + 1) gets c. -/
def execRedFadd2 (d : BitVec 5) (a : BitVec 6) (g : BitVec 3) (s : State) : Result :=
  let r := (s.cur.activeValues a g).foldl twoSum { s := negZero, c := 0 }
  done ((s.putS d (r.s.setWidth 64)).putS (d + 1) (r.c.setWidth 64))

end Sys2Proof.Machine
end

