-- ==== Sys2Proof/Machine/VFloat.lean ====
section
/-!
DEFINITION. Vector float instructions, major 0x03 (R120, R121), compares, major 0x04 (R122), and the compact float forms (R102).
-/
namespace Sys2Proof.Machine

/-- Two-operand lane form with flags, rounded by `fcr.rm`. -/
def floatOp (f : BitVec 2 → Word → Word → Flagged Word) (d a b : BitVec 6) (g : BitVec 3) (len : Nat) (s : State) : Result :=
  .next ((s.putFlagged d (s.cur.active g) fun i => f s.cur.rm (s.cur.lane a i) (s.cur.lane b i)).goOn len)

/-- One-operand lane form with flags. -/
def floatOp1 (f : BitVec 2 → Word → Flagged Word) (d a : BitVec 6) (g : BitVec 3) (s : State) : Result :=
  .next ((s.putFlagged d (s.cur.active g) fun i => f s.cur.rm (s.cur.lane a i)).goOn 4)

/-- One-operand lane form without flags; a NaN gives the canonical NaN (R120). -/
def quietOp1 (f : Word → Word) (d a : BitVec 6) (g : BitVec 3) (len : Nat) (s : State) : Result :=
  .next ((s.putLanes d (s.cur.active g) fun i =>
    if (f32 (s.cur.lane a i)).isNan then 0x7FC00000#32 else f (s.cur.lane a i)).goOn len)

def fAbs (x : Word) : Word := x &&& 0x7FFFFFFF
def fNeg (x : Word) : Word := x ^^^ 0x80000000
/-- a with bit 31 taken from b; a NaN in either gives the canonical NaN. -/
def fCopys (x y : Word) : Word :=
  if (f32 x).isNan || (f32 y).isNan then 0x7FC00000#32 else (x &&& 0x7FFFFFFF) ||| (y &&& 0x80000000)

def execVfadd (d a b : BitVec 6) (g : BitVec 3) (s : State) : Result := floatOp f32Add d a b g 4 s
def execVfsub (d a b : BitVec 6) (g : BitVec 3) (s : State) : Result := floatOp f32Sub d a b g 4 s
def execVfmul (d a b : BitVec 6) (g : BitVec 3) (s : State) : Result := floatOp f32Mul d a b g 4 s
/-- RN(d + a b), rounded once. -/
def execVfmac (d a b : BitVec 6) (g : BitVec 3) (s : State) : Result :=
  done (s.putFlagged d (s.cur.active g) fun i => f32Fma s.cur.rm false (s.cur.lane d i) (s.cur.lane a i) (s.cur.lane b i))
/-- RN(d - a b), rounded once. -/
def execVfnmac (d a b : BitVec 6) (g : BitVec 3) (s : State) : Result :=
  done (s.putFlagged d (s.cur.active g) fun i => f32Fma s.cur.rm true (s.cur.lane d i) (s.cur.lane a i) (s.cur.lane b i))
def execVfmin (d a b : BitVec 6) (g : BitVec 3) (s : State) : Result := laneOp (f32MinMax false) d a b g 4 s
def execVfmax (d a b : BitVec 6) (g : BitVec 3) (s : State) : Result := laneOp (f32MinMax true) d a b g 4 s
def execVfabs (d a : BitVec 6) (g : BitVec 3) (s : State) : Result := quietOp1 fAbs d a g 4 s
def execVfneg (d a : BitVec 6) (g : BitVec 3) (s : State) : Result := quietOp1 fNeg d a g 4 s
def execVfcopys (d a b : BitVec 6) (g : BitVec 3) (s : State) : Result := laneOp fCopys d a b g 4 s
def execVfrcp (d a : BitVec 6) (g : BitVec 3) (s : State) : Result := floatOp1 f32Rcp d a g s
def execVfrsq (d a : BitVec 6) (g : BitVec 3) (s : State) : Result := floatOp1 f32Rsq d a g s
def execVfsqrt (d a : BitVec 6) (g : BitVec 3) (s : State) : Result := floatOp1 f32Sqrt d a g s
def execVfexp2 (d a : BitVec 6) (g : BitVec 3) (s : State) : Result := floatOp1 f32Exp2 d a g s
def execVflog2 (d a : BitVec 6) (g : BitVec 3) (s : State) : Result := floatOp1 f32Log2 d a g s
/-- The mode 0 to 3 stands in b (R108): nearest even, floor, ceil, truncate. -/
def execVfround (d a b : BitVec 6) (g : BitVec 3) (s : State) : Result := quietOp1 (f32Round (b.extractLsb' 0 2)) d a g 4 s

def execCompactFadd (d a : BitVec 5) (g : BitVec 1) (s : State) : Result := floatOp f32Add (vreg d) (vreg d) (vreg a) (compactGuard g) 2 s
def execCompactFsub (d a : BitVec 5) (g : BitVec 1) (s : State) : Result := floatOp f32Sub (vreg d) (vreg d) (vreg a) (compactGuard g) 2 s
def execCompactFmul (d a : BitVec 5) (g : BitVec 1) (s : State) : Result := floatOp f32Mul (vreg d) (vreg d) (vreg a) (compactGuard g) 2 s
def execCompactFmin (d a : BitVec 5) (g : BitVec 1) (s : State) : Result := laneOp (f32MinMax false) (vreg d) (vreg d) (vreg a) (compactGuard g) 2 s
def execCompactFmax (d a : BitVec 5) (g : BitVec 1) (s : State) : Result := laneOp (f32MinMax true) (vreg d) (vreg d) (vreg a) (compactGuard g) 2 s
def execCompactFabs (d a : BitVec 5) (g : BitVec 1) (s : State) : Result := quietOp1 fAbs (vreg d) (vreg a) (compactGuard g) 2 s

/-! Compares (R122). -/

/-- A mask built lane by lane. -/
def maskOf (f : Fin 32 → Bool) : Mask := BitVec.ofBoolListLE (lanes.map f) |>.setWidth 32

/-- The active bits of pd are set to the condition; the others keep their values. -/
def compareOp (c : Word → Word → Bool) (p : BitVec 3) (a b : BitVec 6) (g : BitVec 3) (s : State) : Result :=
  let m := s.cur.active g
  done (s.putP p ((s.cur.getP p &&& ~~~m) ||| (maskOf (fun i => c (s.cur.lane a i) (s.cur.lane b i)) &&& m)))

/-- A float condition on the order of two values; a NaN gives `unordered`. -/
def floatCond (test : Ordering → Bool) (unordered : Bool) (x y : Word) : Bool :=
  match (f32 x).compare (f32 y) with
  | some o => test o
  | none => unordered

def execVcmpEq (p : BitVec 3) (a b : BitVec 6) (g : BitVec 3) (s : State) : Result := compareOp (fun x y => x == y) p a b g s
def execVcmpNe (p : BitVec 3) (a b : BitVec 6) (g : BitVec 3) (s : State) : Result := compareOp (fun x y => x != y) p a b g s
def execVcmpLtS (p : BitVec 3) (a b : BitVec 6) (g : BitVec 3) (s : State) : Result := compareOp (fun x y => x.slt y) p a b g s
def execVcmpLeS (p : BitVec 3) (a b : BitVec 6) (g : BitVec 3) (s : State) : Result := compareOp (fun x y => x.sle y) p a b g s
def execVcmpGtS (p : BitVec 3) (a b : BitVec 6) (g : BitVec 3) (s : State) : Result := compareOp (fun x y => y.slt x) p a b g s
def execVcmpGeS (p : BitVec 3) (a b : BitVec 6) (g : BitVec 3) (s : State) : Result := compareOp (fun x y => y.sle x) p a b g s
def execVcmpLtZ (p : BitVec 3) (a b : BitVec 6) (g : BitVec 3) (s : State) : Result := compareOp (fun x y => x.ult y) p a b g s
def execVcmpLeZ (p : BitVec 3) (a b : BitVec 6) (g : BitVec 3) (s : State) : Result := compareOp (fun x y => x.ule y) p a b g s
def execVcmpFeq (p : BitVec 3) (a b : BitVec 6) (g : BitVec 3) (s : State) : Result := compareOp (floatCond (fun o => o == .eq) false) p a b g s
def execVcmpFne (p : BitVec 3) (a b : BitVec 6) (g : BitVec 3) (s : State) : Result := compareOp (floatCond (fun o => o != .eq) true) p a b g s
def execVcmpFlt (p : BitVec 3) (a b : BitVec 6) (g : BitVec 3) (s : State) : Result := compareOp (floatCond (fun o => o == .lt) false) p a b g s
def execVcmpFle (p : BitVec 3) (a b : BitVec 6) (g : BitVec 3) (s : State) : Result := compareOp (floatCond (fun o => o != .gt) false) p a b g s
def execVcmpFgt (p : BitVec 3) (a b : BitVec 6) (g : BitVec 3) (s : State) : Result := compareOp (floatCond (fun o => o == .gt) false) p a b g s
def execVcmpFge (p : BitVec 3) (a b : BitVec 6) (g : BitVec 3) (s : State) : Result := compareOp (floatCond (fun o => o != .lt) false) p a b g s
def execVcmpFuno (p : BitVec 3) (a b : BitVec 6) (g : BitVec 3) (s : State) : Result := compareOp (floatCond (fun _ => false) true) p a b g s
def execVcmpFord (p : BitVec 3) (a b : BitVec 6) (g : BitVec 3) (s : State) : Result := compareOp (floatCond (fun _ => true) false) p a b g s

end Sys2Proof.Machine
end

