-- ==== Sys2Proof/Machine/Move.lean ====
section
/-!
DEFINITION. Lane movement and predicates, major 0x06 (R124), and vector with scalar, major 0x0C (R126).
-/
namespace Sys2Proof.Machine

/-- Each active lane gets f of its number. -/
def laneFrom (f : Fin 32 → Word) (d : BitVec 6) (g : BitVec 3) (s : State) : Result :=
  done (s.putLanes d (s.cur.active g) f)

/-- A lane number from a value below 32; others are cut to five bits. -/
def laneNo (n : Nat) : Fin 32 := ⟨n % 32, Nat.mod_lt _ (by decide)⟩

/-- Bit i of pk chooses a, else b; the guard field names pk (R124). -/
def execVsel (d a b : BitVec 6) (k : BitVec 3) (s : State) : Result :=
  laneFrom (fun i => if (s.cur.getP k).on i then s.cur.lane a i else s.cur.lane b i) d 0 s
def execVperm (d a b : BitVec 6) (g : BitVec 3) (s : State) : Result :=
  laneFrom (fun i => s.cur.lane a (laneNo (s.cur.lane b i).toNat)) d g s
def execVshflUp (d a n : BitVec 6) (g : BitVec 3) (s : State) : Result :=
  laneFrom (fun i => s.cur.lane a (if n.toNat ≤ i.val then laneNo (i.val - n.toNat) else i)) d g s
def execVshflDn (d a n : BitVec 6) (g : BitVec 3) (s : State) : Result :=
  laneFrom (fun i => s.cur.lane a (if i.val + n.toNat ≤ 31 then laneNo (i.val + n.toNat) else i)) d g s
def execVshflX (d a n : BitVec 6) (g : BitVec 3) (s : State) : Result :=
  laneFrom (fun i => s.cur.lane a (laneNo (i.val ^^^ n.toNat))) d g s
def execVpopc (d a : BitVec 6) (g : BitVec 3) (s : State) : Result :=
  laneFrom (fun i => BitVec.ofNat 32 (popCount 32 (s.cur.lane a i).toNat)) d g s
def execVclz (d a : BitVec 6) (g : BitVec 3) (s : State) : Result :=
  laneFrom (fun i => let x := (s.cur.lane a i).toNat; BitVec.ofNat 32 (if x = 0 then 32 else 31 - x.log2)) d g s
def execVbrev (d a : BitVec 6) (g : BitVec 3) (s : State) : Result :=
  laneFrom (fun i => BitVec.ofNat 32 (bitReverse 32 (s.cur.lane a i).toNat)) d g s
def execVlaneid (d : BitVec 6) (g : BitVec 3) (s : State) : Result := laneFrom (fun i => BitVec.ofNat 32 i.val) d g s
def execVbcast (d a n : BitVec 6) (g : BitVec 3) (s : State) : Result := laneFrom (fun _ => s.cur.lane a (laneNo n.toNat)) d g s
def execVmovs (d : BitVec 6) (a : BitVec 5) (g : BitVec 3) (s : State) : Result := laneFrom (fun _ => (s.cur.getS a).setWidth 32) d g s

/-- The whole of pd is written: the active lanes with a non-zero word. -/
def execBallot (p : BitVec 3) (a : BitVec 6) (g : BitVec 3) (s : State) : Result :=
  done (s.putP p (maskOf (fun i => s.cur.lane a i != 0) &&& s.cur.active g))
def execPmovFromScalar (d : BitVec 3) (a : BitVec 5) (s : State) : Result := done (s.putP d ((s.cur.getS a).setWidth 32))
def execPmovToScalar (d : BitVec 5) (a : BitVec 3) (s : State) : Result := done (s.putS d ((s.cur.getP a).setWidth 64))
def execPand (d a b : BitVec 3) (s : State) : Result := done (s.putP d (s.cur.getP a &&& s.cur.getP b))
def execPor (d a b : BitVec 3) (s : State) : Result := done (s.putP d (s.cur.getP a ||| s.cur.getP b))
def execPnot (d a : BitVec 3) (s : State) : Result := done (s.putP d (~~~(s.cur.getP a)))

/-! Major 0x0C (R126). -/

/-- Lane n alone, when it is active. -/
def oneLane (x : Word) (d n : BitVec 6) (g : BitVec 3) (s : State) : Result :=
  done (s.putLanes d (s.cur.active g &&& (1#32 <<< n.toNat)) fun _ => x)

/-- The low word of a scalar. -/
def Flock.lowWord (f : Flock) (r : BitVec 5) : Word := (f.getS r).setWidth 32

def execVmovsLo (d : BitVec 6) (a : BitVec 5) (n : BitVec 6) (g : BitVec 3) (s : State) : Result := oneLane (s.cur.lowWord a) d n g s
def execVmovsHi (d : BitVec 6) (a : BitVec 5) (n : BitVec 6) (g : BitVec 3) (s : State) : Result :=
  oneLane ((s.cur.getS a).extractLsb' 32 32) d n g s
/-- Flock-wide: lane n is read whether or not it is active. -/
def execSmovv (d : BitVec 5) (a n : BitVec 6) (s : State) : Result :=
  done (s.putS d ((s.cur.lane a (laneNo n.toNat)).setWidth 64))
def execVadds (d a : BitVec 6) (b : BitVec 5) (g : BitVec 3) (s : State) : Result :=
  laneFrom (fun i => s.cur.lane a i + s.cur.lowWord b) d g s
def execVmuls (d a : BitVec 6) (b : BitVec 5) (g : BitVec 3) (s : State) : Result :=
  laneFrom (fun i => s.cur.lane a i * s.cur.lowWord b) d g s
def execVfadds (d a : BitVec 6) (b : BitVec 5) (g : BitVec 3) (s : State) : Result :=
  done (s.putFlagged d (s.cur.active g) fun i => f32Add s.cur.rm (s.cur.lane a i) (s.cur.lowWord b))
def execVfmuls (d a : BitVec 6) (b : BitVec 5) (g : BitVec 3) (s : State) : Result :=
  done (s.putFlagged d (s.cur.active g) fun i => f32Mul s.cur.rm (s.cur.lane a i) (s.cur.lowWord b))

end Sys2Proof.Machine
end

