-- ==== Sys2Proof/Machine/Special.lean ====
section
/-!
DEFINITION. The work identifier (R8 to R12) and the special registers of a flock and its core, major 0x0D (R130 to R132).
-/
namespace Sys2Proof.Machine

/-- The launch of the current fold. -/
def State.launch (s : State) : Option Launch := s.launch? s.fold.launch

/-- A width w_j of a header (R8). -/
def Header.width (h : Header) (j : Nat) : Nat := h.widths.getD j 0

/-- Where field j of a work identifier begins (R8). -/
def Header.fieldAt (h : Header) (j : Nat) : Nat := (h.widths.take j).foldl (· + ·) 0

/-- The work identifier of a flock with its lane field zero (R8, R10). -/
def Header.identifier (h : Header) (flock index : Nat) : Nat :=
  index * 2 ^ (h.width 0 + h.width 1) + flock * 2 ^ h.width 0

/-- The lane field of physical lane i (R12). -/
def Header.laneField (h : Header) (i : Nat) : Nat := i % 2 ^ h.width 0

/-- Lanes in the order of their logical thread indices: the lane field first (R65). -/
def Header.threadOrder (h : Header) (xs : List (Fin 32)) : List (Fin 32) :=
  sortBy (fun i j => decide (h.laneField i.val ≤ h.laneField j.val)) xs

/-- Field f of the work identifier of lane i (R8, R12). -/
def Header.workField (h : Header) (flock index i f : Nat) : Nat :=
  field (h.identifier flock index + h.laneField i) (h.fieldAt f) (h.width f)

/-- The work identifier of the current flock with lane field zero; 0 in a supervisor (R130). -/
def State.workIdentifier (s : State) : Nat :=
  match s.launch with
  | some l => l.hdr.identifier s.cur.field s.fold.index
  | none => 0

def execWfld (d : BitVec 6) (f : BitVec 9) (s : State) : Result :=
  laneFrom (fun i => match s.launch with
    | some l => BitVec.ofNat 32 (l.hdr.workField s.cur.field s.fold.index i.val f.toNat)
    | none => 0) d 0 s

/-- Sets a scalar and goes on. -/
def setScalar (d : BitVec 5) (x : DWord) (s : State) : Result := done (s.putS d x)

def execWfs (d : BitVec 5) (s : State) : Result := setScalar d (BitVec.ofNat 64 s.workIdentifier) s
/-- The fold's visit number; 0 in a supervisor (R130). -/
def execVisit (d : BitVec 5) (s : State) : Result := setScalar d (BitVec.ofNat 64 s.fold.visit) s
def execEmget (d : BitVec 5) (s : State) : Result := setScalar d (s.cur.em.setWidth 64) s
def execEmput (a : BitVec 5) (s : State) : Result := done { s with cur := { s.cur with em := s.cur.lowWord a } }
def execEmand (d : BitVec 5) (a : BitVec 3) (s : State) : Result :=
  done ({ s with cur := { s.cur with em := s.cur.em &&& s.cur.getP a } }.putS d (s.cur.em.setWidth 64))
def execEmor (d : BitVec 5) (a : BitVec 3) (s : State) : Result :=
  done ({ s with cur := { s.cur with em := s.cur.em ||| s.cur.getP a } }.putS d (s.cur.em.setWidth 64))
def execRdtime (d : BitVec 5) (s : State) : Result := setScalar d s.time s

/-- The wait counters as R99 maps them. -/
def Flock.counterWord (f : Flock) : DWord :=
  BitVec.ofNat 64 (f.count .loads + f.count .stores * 2 ^ 8 + f.count .copies * 2 ^ 16 + f.count .tiles * 2 ^ 24)

def execRdcnt (d : BitVec 5) (s : State) : Result := setScalar d s.cur.counterWord s

/-- Whether a context's boost lease runs at an instant: it ends when the time base passes its end (R320). -/
def Context.boostRuns (c : Context) (now : DWord) : Bool := match c.boost with | some till => decide (now ≤ till) | none => false

/-- Whether the boost clock runs in a cluster: it holds folds of one context only, and that context holds a boost lease (R319). -/
def State.boosted (s : State) (cluster : Nat) : Option Nat :=
  match s.allFolds.filter fun f => f.core / 8 == cluster with
  | [] => none
  | f :: fs => if (s.ctx f.ctx).boostRuns s.time && fs.all fun g => g.ctx == f.ctx then some f.ctx else none

/-- The pass code that a cluster runs at: 0 while it is boosted (R98, R319). -/
def State.passCode (s : State) (cluster : Nat) : BitVec 2 := if (s.boosted cluster).isSome then 0 else (s.cluster cluster).pass

/-- `pcr` as the current flock reads it (R98). -/
def State.pcr (s : State) : DWord :=
  if s.cur.supervises then 0
  else BitVec.ofNat 64 ((s.passCode (s.cur.core / 8)).toNat + if s.boosted (s.cur.core / 8) = some s.cur.ctx then 4 else 0)

def execPcount (d : BitVec 5) (s : State) : Result := setScalar d s.pcr s
def execFcrget (d : BitVec 5) (s : State) : Result := setScalar d (s.cur.fcr.setWidth 64) s
def execFcrput (a : BitVec 5) (s : State) : Result := done { s with cur := s.cur.putFcr (s.cur.lowWord a) }

/-- Item bits 1:0 of loop level bits 3:2 of k: start, end, count, armed (R130). -/
def execLpget (d : BitVec 5) (k : BitVec 9) (s : State) : Result :=
  let l := s.cur.getLoop (k.extractLsb' 2 2)
  setScalar d (match (k.extractLsb' 0 2).toNat with
    | 0 => l.start.setWidth 64
    | 1 => l.fin.setWidth 64
    | 2 => l.count
    | _ => if l.armed then 1 else 0) s

/-- The energy counter of the context for which the flock works (R327). -/
def execRdenergy (d : BitVec 5) (s : State) : Result := setScalar d (s.ctx (s.agent s.cur).ctx).energy s

/-- The gang word (R131); 0 in a supervisor. -/
def State.gangWord (s : State) : DWord :=
  match s.launch with
  | none => 0
  | some l =>
    let g := l.hdr.gangSize
    BitVec.ofNat 64 ((if l.hdr.flag 7 then 256 else 0) + g * 16 + if g = 0 then 0 else s.fold.visit % g)

def execRdgang (d : BitVec 5) (s : State) : Result := setScalar d s.gangWord s

/-- Whether the current fold's launch sets the deterministic flag. -/
def State.determ (s : State) : Bool := match s.launch with | some l => l.hdr.determ | none => false

/-- Whether the launch of the current fold holds stores in the commit buffer (R160). -/
def State.buffered (s : State) : Bool := match s.launch with | some l => l.hdr.determ || l.hdr.restart | none => false

/-- The core word (R131). -/
def State.coreWord (s : State) : DWord := BitVec.ofNat 64 (s.cur.core + (if s.cur.supervises then 0 else s.fold.position) * 512)

/-- Under the deterministic flag a trap of kind 5 (R132). -/
def execRdcore (d : BitVec 5) (s : State) : Result :=
  if s.determ then .next (s.trapHere { kind := 0x05 }) else setScalar d s.coreWord s

end Sys2Proof.Machine
end

