-- ==== Sys2Proof/Machine/Access.lean ====
section
/-!
DEFINITION. Accesses of a flock to memory: the checks that all lanes pass before any lane performs its access (R148, R150, R175), the
commit buffer that may hold a store (R64, R160), and the write-back of remote lines at a wide acquire or release (R257).
-/
namespace Sys2Proof.Machine

/-! Checks. -/

/-- What the format of a byte's page must be. -/
inductive PageRule where
  /-- No demand. -/
  | any
  /-- A raw access: untyped, or the raw bit set (R150). -/
  | raw
  /-- This format; `ok` says whether the instruction has a meaning for it (R146, R154, R156). -/
  | typed (format : BitVec 5) (ok : Bool)
  /-- Untyped: a scale byte (R74). -/
  | untyped
  /-- This format: a byte that is not accessed itself, in the other page of a Microscaling block that spans two (R150). -/
  | shared (format : BitVec 5)
  deriving DecidableEq, Repr

def PageRule.allows (r : PageRule) (e : Leaf) : Bool :=
  match r with
  | .any => true
  | .raw => rawOk e
  | .typed f ok => ok && e.format == f
  | .untyped => e.format == 0
  | .shared f => e.format == f

/-- Whether a byte is only held to the demand on its page. -/
def PageRule.isShared : PageRule → Bool
  | .shared _ => true
  | _ => false

/-- A byte that an access touches, with the demand on its page. -/
abbrev Touch := Addr × PageRule

/-- The bytes from an address on, under one demand. -/
def touchesFrom (va : Addr) (n : Nat) (r : PageRule) : List Touch := (List.range n).map fun k => (va + BitVec.ofNat 72 k, r)

/-- The limits that the launch's flags set to an access (R59, R63, R64, R164). -/
structure Guard where
  need : Need
  /-- An atomic or a memory reduction (R59). -/
  atomic : Bool := false
  /-- The access is barred altogether (R63, R164). -/
  barred : Bool := false
  /-- Entries of the commit buffer that are free; none when the access is not held in it. -/
  free : Option Nat := none
  /-- Each lane takes an entry of its own: a held reduction. -/
  each : Bool := false
  deriving DecidableEq, Repr

/-- Whether an address lies in the slot region, and whether in the fold's own slot (R57). -/
def SlotMap.region (m : SlotMap) (total : Nat) (va : Addr) : Bool :=
  decide (m.base.toNat ≤ va.toNat ∧ va.toNat < m.base.toNat + total * m.stride)
def SlotMap.own (m : SlotMap) (visit : Nat) (va : Addr) : Bool :=
  decide (m.base.toNat + visit * m.stride ≤ va.toNat ∧ va.toNat < m.base.toNat + visit * m.stride + m.size)

/-- A byte that the stop flag forbids to the current fold (R59). -/
def State.forbidden (s : State) (atomic : Bool) (va : Addr) : Bool :=
  match s.launch with
  | none => false
  | some l =>
    match l.slots with
    | none => false
    | some m => !m.own s.fold.visit va && (atomic || m.region l.hdr.total va)

/-- The fault of one byte, or its system-physical address: orders 2 to 8 of R175. -/
def State.checkByte (s : State) (k : Guard) (t : Touch) : Except Bad (Addr × Nat) :=
  match s.locate (s.agent s.cur) k.need t.1 with
  | .error b => .error b
  | .ok (pa, e) =>
    if !t.2.allows e then .error (.trap { kind := 0x14, access := k.need.code, addr := t.1 })
    else if !t.2.isShared && (k.barred || s.forbidden k.atomic t.1) then .error (.trap { kind := 0x20, access := k.need.code, addr := t.1 })
    else .ok (t.1, pa)

/-- The lane in which a fault was found is named in it. -/
def Bad.inLane (l : Option (Fin 32)) : Bad → Bad
  | .trap t => .trap { t with lane := l.map fun i => BitVec.ofNat 5 i.val }
  | .remote t => .remote { t with lane := l.map fun i => BitVec.ofNat 5 i.val }
  | .soft t => .soft { t with lane := l.map fun i => BitVec.ofNat 5 i.val }
  | b => b

/-- What one lane of an access does. -/
structure LaneAccess where
  lane : Option (Fin 32)
  aligned : Bool
  va : Addr
  touches : List Touch
  /-- Bytes that a store only reads: the scale of a block that it writes in part. -/
  readOnly : List Addr := []
  deriving DecidableEq, Repr

/-- The bytes of a lane that passed its checks, virtual and system-physical. -/
abbrev LaneBytes := Option (Fin 32) × List (Addr × Nat)

/-- The entries of the commit buffer as the bytes of an access claim them (R64): the lines that have one, and how many were added. -/
structure Claims where
  lines : List Nat
  added : Nat := 0
  deriving DecidableEq, Repr

/-- The claims after a byte that is written asks for the entry of a line; none when the buffer has no more. -/
def Guard.claim (k : Guard) (c : Claims) (line : Nat) : Option Claims :=
  match k.free with
  | none => some c
  | some n =>
    if c.lines.contains line then some c
    else if n ≤ c.added then none
    else some { lines := line :: c.lines, added := c.added + 1 }

/-- The entry that a byte of a lane asks for: its line's, or for a held reduction the lane's own. -/
def Guard.entry (k : Guard) (lane : Nat) (pa : Nat) : Nat := if k.each then 2 ^ 52 + lane else pa / 64 * 64

/-- The bytes of one lane in ascending address order with all the faults that R175 finds at issue, commit-overflow the last of them: the first
byte that faults decides (R148). A byte that is not accessed itself is no byte of the lane. -/
def State.checkHeld (s : State) (k : Guard) (lane : Nat) (readOnly : List Addr) : List Touch → Claims →
    Except Bad (List (Addr × Nat) × Claims)
  | [], c => .ok ([], c)
  | t :: ts, c =>
    match s.checkByte k t with
    | .error b => .error b
    | .ok x =>
      if t.2.isShared then s.checkHeld k lane readOnly ts c else
      match (if readOnly.contains t.1 then some c else k.claim c (k.entry lane x.2)) with
      | none => .error (.trap { kind := 0x21, access := k.need.code, addr := t.1 })
      | some c1 =>
        match s.checkHeld k lane readOnly ts c1 with
        | .error b => .error b
        | .ok r => .ok (x :: r.1, r.2)

/-- The bytes of one lane, checked: alignment first (R148). -/
def State.checkLane (s : State) (k : Guard) (lane : Nat) (l : LaneAccess) (c : Claims) : Except Bad (List (Addr × Nat) × Claims) :=
  if !l.aligned then .error (.trap { kind := 0x13, access := k.need.code, addr := l.va }) else s.checkHeld k lane l.readOnly l.touches c

/-- The lanes of an access, ascending; the fault of the lowest lane is the one taken (R148). -/
def State.checkLanes (s : State) (k : Guard) : List LaneAccess → Claims → Except Bad (List LaneBytes)
  | [], _ => .ok []
  | l :: ls, c =>
    match s.checkLane k ((l.lane.map fun i => i.val).getD 0) l c with
    | .error b => .error (b.inLane l.lane)
    | .ok r =>
      match s.checkLanes k ls r.2 with
      | .error b => .error b
      | .ok rest => .ok ((l.lane, r.1) :: rest)

/-- What lies where the spec places nothing, and what another device must answer, stops an access that found no fault. A store
that the commit buffer holds asks no other device yet (R374). -/
def State.reachAll (s : State) (code : BitVec 8) (held : Bool) : List (Addr × Nat) → Except Bad Unit
  | [] => .ok ()
  | b :: bs =>
    match s.reach (s.agent s.cur) b.1 b.2 with
    | .error (.remote t) => if held then s.reachAll code held bs else .error (Bad.coded code (.remote t))
    | .error e => .error e
    | .ok _ => s.reachAll code held bs

/-- `reachAll` for every lane of an access. -/
def State.reachLanes (s : State) (code : BitVec 8) (held : Bool) : List LaneBytes → Except Bad Unit
  | [] => .ok ()
  | p :: ps =>
    match s.reachAll code held p.2 with
    | .error b => .error (b.inLane p.1)
    | .ok _ => s.reachLanes code held ps

/-- The lines of a buffer. -/
def bufferLines (es : List CommitEntry) : List Nat := es.filterMap fun e => match e with | .line a _ _ _ => some a | _ => none

/-- The places of a plan. -/
def planPlaces (plan : List LaneBytes) : List Nat := plan.flatMap fun p => p.2.map fun b => b.2

/-- All checks of an access (R148). -/
def State.checkAccess (s : State) (k : Guard) (ls : List LaneAccess) : Except Bad (List LaneBytes) := do
  let plan ← s.checkLanes k ls { lines := bufferLines s.cur.buf }
  s.reachLanes k.need.code k.free.isSome plan
  .ok plan

/-! The commit buffer (R64, R160). -/

/-- The enabled bits and the data that an entry holds for a byte. -/
def CommitEntry.at (e : CommitEntry) (pa : Nat) : Byte × Byte :=
  match e with
  | .line a en d _ => if pa / 64 * 64 = a then (en.extractLsb' (8 * (pa % 64)) 8, d.extractLsb' (8 * (pa % 64)) 8) else (0, 0)
  | .reduction _ _ _ _ _ _ => (0, 0)

/-- A byte with what a buffer holds laid over it. -/
def overlay (es : List CommitEntry) (pa : Nat) (b : Byte) : Byte :=
  es.foldl (fun x e => blend x (e.at pa).1 (e.at pa).2) b

/-- The byte that the current flock loads: its own buffered bits, then its fold's, then memory's (R64, R160). -/
def State.loadByte (s : State) (pa : Nat) : Byte := overlay s.cur.buf pa (overlay s.fold.buf pa (s.read pa))

/-- Bits of one byte to be written. -/
structure BitWrite where
  address : Nat
  enable : Byte
  data : Byte
  deriving DecidableEq, Repr

/-- Whole bytes. -/
def wholeBytes (pas : List (Addr × Nat)) (bs : List Byte) : List BitWrite :=
  (pas.zip bs).map fun p => { address := p.1.2, enable := 0xFF, data := p.2 }

/-- A buffer with some bits of one byte written, under the tensor tag of the store. -/
def bufferPut (es : List CommitEntry) (w : BitWrite) (tag : BitVec 16) : List CommitEntry :=
  let line := w.address / 64 * 64
  let en := (w.enable.setWidth 512 : BitVec 512) <<< (8 * (w.address % 64))
  let d := (w.data.setWidth 512 : BitVec 512) <<< (8 * (w.address % 64))
  let isLine := fun e => match e with | CommitEntry.line a _ _ _ => a == line | _ => false
  if es.any isLine then
    updateFirst isLine (fun e => match e with
      | .line a n x _ => .line a (n ||| en) ((x &&& ~~~en) ||| (d &&& en)) tag
      | r => r) es
  else es ++ [.line line en (d &&& en) tag]

/-- The bytes that bit writes leave, in a table over memory: a later write lies over an earlier one. -/
def State.blendAll (s : State) (ws : List BitWrite) : List (Nat × Byte) :=
  ws.foldl (fun t w => store t w.address (blend ((lookup t w.address).getD (s.read w.address)) w.enable w.data)) []

/-- The bits of a byte that are dirty after some bit writes: those that were, and those written (R151). -/
def State.dirtyBits (s : State) (ws : List BitWrite) (a : Nat) : Byte :=
  ((ws.filter fun w => w.address == a).map fun w => w.enable).foldl (· ||| ·) (((lookup s.remote a).map fun w => w.1).getD 0)

/-- Of the bytes of other devices' memory that some bit writes changed, after which `s` is the state, the bits dirty before and the bits
written are dirty, and no other (R151). -/
def State.enableBits (s before : State) (ws : List BitWrite) : State :=
  { s with remote := s.remote.map fun c =>
      (c.1, if ws.any fun w => w.address == c.1 then (before.dirtyBits ws c.1, c.2.2) else c.2) }

/-- Bit writes of an agent of a context and a world (R151). -/
def State.writeBits (s : State) (ws : List BitWrite) (tag : BitVec 16) (ctx : Nat) (secure : Bool) : State :=
  let s1 := s.writeBack (s.newlyTagged tag ctx (ws.map fun w => w.address / 64 * 64).eraseDups)
  (s1.write (s1.blendAll ws) tag ctx secure).enableBits s1 ws

/-! The slots of a launch under the stop flag (R57 to R59). -/

/-- The system-physical spans of the slot of a visit, page by page where its context's tables map them. -/
def State.slotSpans (s : State) (l : Launch) (m : SlotMap) (visit : Nat) : List (Nat × Nat) :=
  let lo := m.base.toNat + visit * m.stride
  (List.range ((lo % 2 ^ 16 + m.size + 2 ^ 16 - 1) / 2 ^ 16)).filterMap fun k =>
    let from_ := max lo ((lo / 2 ^ 16 + k) * 2 ^ 16)
    match s.page (s.unit l.ctx) (BitVec.ofNat 72 from_) with
    | .ok e => some (e.base + from_ % 2 ^ 16, min (lo + m.size) ((lo / 2 ^ 16 + k + 1) * 2 ^ 16) - from_)
    | .error _ => none

/-- A fold broke R58 at some places: from then on the record and the stop visit of its launch are unknown, and the outputs with them (R59, log entry 49). -/
def Launch.breach (l : Launch) (places : List Nat) : Launch :=
  if places.isEmpty then l else { l with spoiled := true, strays := (l.strays ++ places).eraseDups }

/-- A fold writes some places of memory: those outside its own slot break R58 in a launch under the stop flag. -/
def State.noteStray (s : State) (fold : Nat) (places : List Nat) : State :=
  match s.anyFold? fold with
  | none => s
  | some f => { s with launches := s.launches.map fun l =>
      match if l.id = f.launch then l.slots else none with
      | none => l
      | some m =>
        let spans := s.slotSpans l m f.visit
        { l with wrote := (l.wrote ++ places.map fun a => (f.visit, a)).eraseDups }.breach
          (places.filter fun a => !spans.any fun x => decide (x.1 ≤ a ∧ a < x.1 + x.2)) }

/-- Folds read some places of memory, each under its number: those that another fold of a launch under the stop flag wrote break R58. -/
def State.noteReads (s : State) (reads : List (Nat × Nat)) : State :=
  { s with launches := s.launches.map fun l => if l.wrote.isEmpty then l else l.breach (reads.filterMap fun r =>
      match s.anyFold? r.1 with
      | some f => if f.launch == l.id && l.wrote.any fun w => w.2 == r.2 && w.1 != f.visit then some r.2 else none
      | none => none) }

/-- The current flock reads some places of memory by a unit. -/
def State.unitReads (s : State) (places : List Nat) : State := s.noteReads (places.map fun a => (s.cur.fold, a))

/-- The places of the outputs of a launch under the stop flag: its record, the slots of the visits that have started, and what its folds wrote
elsewhere. -/
def State.outputs (s : State) (l : Launch) : List Nat :=
  let slots := match l.slots with
    | none => []
    | some m => l.started.flatMap fun v => (s.slotSpans l m v).flatMap fun x => (List.range x.2).map fun k => x.1 + k
  (l.recordAt ++ l.strays ++ slots).eraseDups

/-- The device leaves bytes of memory unknown. -/
def State.unknownBytes (s : State) (places : List Nat) (ctx : Nat) : State :=
  let (n, s1) := s.draw places.length
  s1.put (places.zipIdx.map fun e => (e.1, Config.freeByte (n + e.2))) 0 ctx (s.unit ctx).secure

/-- Where memory has changed between a machine and the next, or a breach of R58 has just been found, the outputs of the launch that broke it are unknown. -/
def State.spoilOutputs (s t u : State) (l : Launch) : State :=
  if l.strays.isEmpty || ((s.launch? l.id).any (fun k => k.strays == l.strays) && s.mem == t.mem && s.remote == t.remote) then u
  else u.unknownBytes ((t.outputs l).filter fun a => (t.hardwareWord a).isNone) l.ctx

/-- The outputs of every launch that broke R58 are unknown after a step that changes memory (R59). -/
def State.settleBreaches (s t : State) : State := t.launches.foldl (s.spoilOutputs t) t

/-- Writes of the current flock reach memory. -/
def State.memoryStore (s : State) (ws : List BitWrite) : State :=
  (s.writeBits ws s.cur.ttag (s.agent s.cur).ctx s.cur.secure).noteStray s.cur.fold (ws.map fun w => w.address)

/-- A store of the current flock: into its buffer where its launch holds stores back (R160), else to memory. -/
def State.storeBits (s : State) (ws : List BitWrite) : State :=
  if s.buffered then { s with cur := { s.cur with buf := ws.foldl (fun es w => bufferPut es w s.cur.ttag) s.cur.buf } }
  else s.memoryStore ws

/-- Entries of the commit buffer of the current fold that are free (R64). A line that stands in a flock's own buffer and in its fold's takes an
entry in each (log entry 88). -/
def State.bufferRoom (s : State) : Option Nat :=
  if s.buffered then
    let used := ((s.allFlocks.filter fun f => f.fold == s.fold.id).map fun f => f.buf.length).foldl (· + ·) s.fold.buf.length
    some (448 * s.fold.commit - used)
  else none

/-- The guard of a load, and of a store. -/
def loadGuard : Guard := { need := Need.load }
def State.storeGuard (s : State) : Guard := { need := Need.store, free := s.bufferRoom }

/-! Remote lines (R257). -/

/-- The dirty remote lines are written back, and every remote line is invalidated, as an acquire at domain or system scope does: filled again, it carries no
tag (R171). -/
def State.refreshRemote (s : State) : State :=
  { s.flushRemote with clean := [], tags := s.tags.filter fun t => !isFar t.line }

/-- Scope codes of domain and system (R245). -/
def wide (scope : BitVec 3) : Bool := decide (4 ≤ scope.toNat)

/-- A release, and an acquire, at a scope. -/
def State.release (s : State) (scope : BitVec 3) : State := if wide scope then s.flushRemote else s
def State.acquire (s : State) (scope : BitVec 3) : State := if wide scope then s.refreshRemote else s

/-- The operation that the current flock has just issued writes some addresses until it completes; they held what `before` shows, and what
was in flight there still is (R324). -/
def State.flying (s before : State) (as : List Nat) : State :=
  let own := as.eraseDups.filter fun a => !isFar a
  { s with inFlight := s.inFlight ++ (before.inFlight.filter fun o => own.contains o.2.1) ++
      own.map fun a => (before.nextId, a, before.mem.read a) }

/-! Soft errors (R303). -/

/-- The bits of a byte that the current flock loads from memory: no buffered store lies over them. -/
def State.memoryBits (s : State) (pa : Nat) : Byte :=
  overlay s.cur.buf pa (overlay s.fold.buf pa 0xFF) &&& ~~~overlay s.cur.buf pa (overlay s.fold.buf pa 0)

/-- Whether some bits that are loaded of a byte come from a line in error. -/
def State.badByte (s : State) (pa : Nat) (bits : Byte := 0xFF) : Bool :=
  s.broken.contains (.line (pa / 64 * 64)) && s.memoryBits pa &&& bits != 0

/-- The machine check of the first byte in error among those that a lane of an access consumes, each with the bits of it that it does. -/
def State.laneCheck (s : State) (access : BitVec 8) (bits : Addr → Byte) (p : LaneBytes) : Option TrapInfo :=
  p.2.findSome? fun b =>
    if s.broken != [] && s.badByte b.2 (bits b.1) then
      some { kind := 0x30, access := access, lane := p.1.map fun i => BitVec.ofNat 5 i.val, addr := b.1 }
    else none

/-- The machine check of an access that consumes whole bytes. -/
def State.machineCheck (s : State) (access : BitVec 8) (plan : List LaneBytes) : Option TrapInfo :=
  plan.findSome? (s.laneCheck access fun _ => 0xFF)

end Sys2Proof.Machine
end

