-- ==== Sys2Proof/Machine/Cvt.lean ====
section
/-!
DEFINITION. Conversions, major 0x05 (R123), by the rules of R78 to R81 under the `fcr` of the flock.
-/
namespace Sys2Proof.Machine

/-- Each active lane gets f of its lane of a and its old lane of d. -/
def convert (f : Word → Word → Flagged Word) (d a : BitVec 6) (g : BitVec 3) (s : State) : Result :=
  done (s.putFlagged d (s.cur.active g) fun i => f (s.cur.lane a i) (s.cur.lane d i))

/-- A result of fewer bits as a lane word. -/
def asWord (x : Flagged Nat) : Flagged Word := { val := BitVec.ofNat 32 x.val, ofl := x.ofl, nv := x.nv }

/-- A value of a narrower format as FP32: exact, and an infinity stays one whatever `fcr.sat` holds (log entry 83). -/
def widen (x : Num) : Flagged Word := { val := rne32 x }

/-- Byte `n` of a word replaced. -/
def setByte (w : Word) (n : Nat) (b : Nat) : Word :=
  (w &&& ~~~(0xFF#32 <<< (8 * n))) ||| (BitVec.ofNat 32 (b % 256) <<< (8 * n))

/-- Two halves packed, the high one from b. -/
def packHalves (f : Fmt) (d a b : BitVec 6) (g : BitVec 3) (s : State) : Result :=
  done (s.putFlagged d (s.cur.active g) fun i =>
    let lo := f.encode s.cur.rm s.cur.sat (f32 (s.cur.lane a i))
    let hi := f.encode s.cur.rm s.cur.sat (f32 (s.cur.lane b i))
    { val := BitVec.ofNat 32 (hi.val * 2 ^ 16 + lo.val), ofl := lo.ofl || hi.ofl, nv := lo.nv || hi.nv })

/-- Byte n of d takes an encoding of a; the other bytes are kept. -/
def intoByte (f : Num → Flagged Nat) (n : BitVec 6) (x old : Word) : Flagged Word :=
  let r := f (f32 x)
  { val := setByte old n.toNat r.val, ofl := r.ofl, nv := r.nv }

def byteAt (x : Word) (n : Nat) : Nat := field x.toNat (8 * n) 8

def execCvtF32S32 (d a : BitVec 6) (g : BitVec 3) (s : State) : Result :=
  convert (fun x _ => toF32 s.cur.rm { val := Num.ofInt x.toInt }) d a g s
def execCvtF32Z32 (d a : BitVec 6) (g : BitVec 3) (s : State) : Result :=
  convert (fun x _ => toF32 s.cur.rm { val := Num.ofInt x.toNat }) d a g s
def execCvtS32F32 (d a : BitVec 6) (g : BitVec 3) (s : State) : Result :=
  convert (fun x _ => asWord (intOfNum s.cur.rm 32 true s.cur.sat (f32 x))) d a g s
def execCvtZ32F32 (d a : BitVec 6) (g : BitVec 3) (s : State) : Result :=
  convert (fun x _ => asWord (intOfNum s.cur.rm 32 false s.cur.sat (f32 x))) d a g s
def execCvtF16x2F32 (d a b : BitVec 6) (g : BitVec 3) (s : State) : Result := packHalves fp16 d a b g s
def execCvtF32F16lo (d a : BitVec 6) (g : BitVec 3) (s : State) : Result :=
  convert (fun x _ => widen (fp16.decode (field x.toNat 0 16))) d a g s
def execCvtF32F16hi (d a : BitVec 6) (g : BitVec 3) (s : State) : Result :=
  convert (fun x _ => widen (fp16.decode (field x.toNat 16 16))) d a g s
def execCvtBf16x2F32 (d a b : BitVec 6) (g : BitVec 3) (s : State) : Result := packHalves bf16 d a b g s
def execCvtF32Bf16lo (d a : BitVec 6) (g : BitVec 3) (s : State) : Result :=
  convert (fun x _ => widen (bf16.decode (field x.toNat 0 16))) d a g s
def execCvtF32Bf16hi (d a : BitVec 6) (g : BitVec 3) (s : State) : Result :=
  convert (fun x _ => widen (bf16.decode (field x.toNat 16 16))) d a g s
def execCvtE4m3F32 (d a n : BitVec 6) (g : BitVec 3) (s : State) : Result :=
  convert (intoByte (fun x => e4m3.encode s.cur.rm s.cur.sat x) n) d a g s
def execCvtE5m2F32 (d a n : BitVec 6) (g : BitVec 3) (s : State) : Result :=
  convert (intoByte (fun x => e5m2.encode s.cur.rm s.cur.sat x) n) d a g s
def execCvtLns6F32 (d a n : BitVec 6) (g : BitVec 3) (s : State) : Result :=
  convert (intoByte (fun x => lnsEncode s.cur.sat x) n) d a g s
def execCvtF32E4m3 (d a n : BitVec 6) (g : BitVec 3) (s : State) : Result :=
  convert (fun x _ => widen (e4m3.decode (byteAt x n.toNat))) d a g s
def execCvtF32E5m2 (d a n : BitVec 6) (g : BitVec 3) (s : State) : Result :=
  convert (fun x _ => widen (e5m2.decode (byteAt x n.toNat))) d a g s
/-- Bits 7:6 of the byte are ignored. -/
def execCvtF32Lns6 (d a n : BitVec 6) (g : BitVec 3) (s : State) : Result :=
  convert (fun x _ => widen (lnsDecode (byteAt x n.toNat % 64))) d a g s

end Sys2Proof.Machine
end

