-- ==== Sys2Proof/Machine/Elem.lean ====
section
/-!
DEFINITION. Elements of typed pages (R71 to R74, R146, R154, R156): widths, values, encodings, and the bytes that a lane's element
and its scale byte touch.
-/
namespace Sys2Proof.Machine

/-- What the code of R71 names. -/
inductive Elem where
  | untyped
  | float (f : Fmt)
  | mx (f : Fmt)
  | lns
  | int (bits : Nat) (isSigned : Bool)
  | reserved
  deriving DecidableEq, Repr

/-- The format codes of R71. -/
def elemOf (code : BitVec 5) : Elem :=
  match code.toNat with
  | 0x00 => .untyped
  | 0x01 => .float fp32
  | 0x02 => .float fp16
  | 0x03 => .float bf16
  | 0x04 => .float e4m3
  | 0x05 => .float e5m2
  | 0x06 => .mx e2m1
  | 0x07 => .mx e3m2
  | 0x08 => .mx e2m3
  | 0x09 => .lns
  | 0x0A => .int 8 true
  | 0x0B => .int 8 false
  | 0x0C => .int 4 true
  | 0x0D => .int 4 false
  | 0x0E => .int 2 true
  | 0x0F => .int 2 false
  | 0x10 => .int 1 true
  | 0x11 => .int 1 false
  | _ => .reserved

/-- The width of an element in bits (R71); a byte of an untyped page counts as one (R205). -/
def Elem.width : Elem → Nat
  | .untyped => 8
  | .float f => f.width
  | .mx f => f.width
  | .lns => 6
  | .int n _ => n
  | .reserved => 8

def Elem.isInt : Elem → Bool
  | .int _ _ => true
  | _ => false

def Elem.isMx : Elem → Bool
  | .mx _ => true
  | _ => false

/-- Formats with a floating or logarithmic value, or an integer: those that `ld.e` reads. -/
def Elem.hasValue : Elem → Bool
  | .untyped => false
  | .reserved => false
  | _ => true

/-- The value of an element, under its block's scale byte where it has one (R67 to R70). -/
def Elem.value (e : Elem) (scale x : Nat) : Num :=
  match e with
  | .float f => f.decode x
  | .mx f => mxDecode f scale x
  | .lns => lnsDecode x
  | .int n true => Num.ofInt (signed n x)
  | .int n false => Num.ofInt (field x 0 n)
  | _ => .nan

/-- The lane word that `ld.e` gives (R154). -/
def Elem.word (e : Elem) (sat : Bool) (scale x : Nat) : Word :=
  BitVec.ofNat 32 (fp32.encode 0 (e.isMx && sat) (e.value scale x)).val

/-- The lane word that `ld.e.i` gives (R154). -/
def Elem.intWord (e : Elem) (x : Nat) : Word :=
  match e with
  | .int n true => BitVec.ofInt 32 (signed n x)
  | .int n false => BitVec.ofNat 32 (field x 0 n)
  | _ => 0

/-- The element that a value gives in a format, rounded once, outside whole Microscaling blocks (R156, R196). -/
def Elem.encodeNum (e : Elem) (rm : BitVec 2) (sat : Bool) (scale : Nat) (x : Num) : Flagged Nat :=
  match e with
  | .float f => f.encode rm sat x
  | .mx f => mxElement f rm scale x
  | .lns => lnsEncode sat x
  | .int n b => intOfNum rm n b sat x
  | _ => { val := 0 }

/-- The element that `st.e` writes for an FP32 lane value (R156): an FP32 page takes the value as it is. -/
def Elem.encode (e : Elem) (rm : BitVec 2) (sat : Bool) (scale : Nat) (x : Word) : Flagged Nat :=
  if e = .float fp32 then { val := if (f32 x).isNan then 0x7FC00000 else x.toNat } else e.encodeNum rm sat scale (f32 x)

/-- The element that `st.e.i` writes (R156). -/
def Elem.encodeInt (e : Elem) (sat : Bool) (x : Word) : Flagged Nat :=
  match e with
  | .int n true => intEncode n true sat x.toInt
  | .int n false => intEncode n false sat x.toNat
  | _ => { val := 0 }

/-- The `e` and `i` forms have a meaning for a format (R154, R156). -/
def Elem.admits (e : Elem) (asInt : Bool) : Bool := if asInt then e.isInt else e.hasValue

/-! Where elements lie. -/

/-- The bytes that the bits from `bit` on touch. -/
def bitTouches (bit w : Nat) (r : PageRule) : List Touch :=
  touchesFrom (byteOf bit) ((bit + w - 1) / 8 - bit / 8 + 1) r

/-- The address of the scale byte of the block that holds a bit address (R73, R74). -/
def scaleAddress (c : Context) (f : Fmt) (bit : Nat) : Addr :=
  (if f = e2m1 then c.mxsb4 else c.mxsb6) + BitVec.ofNat 72 (bit / (32 * f.width))

/-- Where a Microscaling block spans two pages, the page that its element does not lie in is held to the element's format too: at its first byte of
the block (R150, log entry 114). -/
def blockTouches (f : Fmt) (code : BitVec 5) (bit : Nat) (own : List Touch) : List Touch :=
  let first := bit / (32 * f.width) * (4 * f.width)
  let last := first + 4 * f.width - 1
  (if first / 2 ^ 16 < bit / 8 / 2 ^ 16 then [(BitVec.ofNat 72 first, .shared code)] else []) ++ own ++
  if (bit + f.width - 1) / 8 / 2 ^ 16 < last / 2 ^ 16 then [(BitVec.ofNat 72 (last / 2 ^ 16 * 2 ^ 16), .shared code)] else []

/-- An element with its scale byte and what else its block is held to, in ascending address order. -/
def elemTouches (c : Context) (code : BitVec 5) (asInt : Bool) (bit : Nat) : List Touch :=
  let e := elemOf code
  let own := bitTouches bit e.width (.typed code (e.admits asInt))
  match e with
  | .mx f => insertBy (fun a b => decide (a.1.toNat ≤ b.1.toNat)) (scaleAddress c f bit, .untyped) (blockTouches f code bit own)
  | _ => own

/-- The bits that an element at a bit address takes of a byte; of its scale byte all. -/
def elemBits (bit w : Nat) (va : Addr) : Byte :=
  let k := (va - byteOf bit).toNat
  if k ≤ (bit + w - 1) / 8 - bit / 8 then BitVec.ofNat 8 ((2 ^ w - 1) * 2 ^ (bit % 8) / 2 ^ (8 * k)) else 0xFF

/-- The system-physical address that a plan gives a virtual one. -/
def placeOf (bs : List (Addr × Nat)) (va : Addr) : Nat := ((bs.find? fun b => b.1 == va).map fun b => b.2).getD 0

/-- The bits of an element as the current flock loads them. -/
def State.loadBits (s : State) (bs : List (Addr × Nat)) (bit w : Nat) : Nat :=
  let n := (bit + w - 1) / 8 - bit / 8 + 1
  field (fromBytes ((List.range n).map fun k => s.loadByte (placeOf bs (byteOf bit + BitVec.ofNat 72 k)))) (bit % 8) w

/-- The context whose registers hold the bases of scale bytes: the acting one for a supervisor (R74, log entry 8). -/
def State.scaleBases (s : State) : Context := s.ctx (s.agent s.cur).ctx

/-- The scale byte of an element as the current flock loads it. -/
def State.loadScale (s : State) (e : Elem) (bs : List (Addr × Nat)) (bit : Nat) : Nat :=
  match e with
  | .mx f => (s.loadByte (placeOf bs (scaleAddress s.scaleBases f bit))).toNat
  | _ => 0

/-- Bits written from bit address `bit` on. -/
def bitWrites (bs : List (Addr × Nat)) (bit w x : Nat) : List BitWrite :=
  let n := (bit + w - 1) / 8 - bit / 8 + 1
  (List.range n).map fun k => {
    address := placeOf bs (byteOf bit + BitVec.ofNat 72 k)
    enable := BitVec.ofNat 8 ((2 ^ w - 1) * 2 ^ (bit % 8) / 2 ^ (8 * k))
    data := BitVec.ofNat 8 (x % 2 ^ w * 2 ^ (bit % 8) / 2 ^ (8 * k)) }

/-- The format of the page that holds the address register's own value, translated at issue (R146): a fault there is that of the
lowest active lane. -/
def State.baseFormat (s : State) (need : Need) (lane : Option (Fin 32)) (a : Addr) : Except Bad (BitVec 5) :=
  match s.locate (s.agent s.cur) need a with
  | .error b => .error (b.inLane lane)
  | .ok (_, e) =>
    if e.format = 0 then .error ((Bad.trap { kind := 0x14, access := need.code, addr := a }).inLane lane) else .ok e.format

/-- The access of lane `k` to an element. -/
def State.elemAccess (s : State) (code : BitVec 5) (asInt : Bool) (bits : Fin 32 → Nat) (k : Fin 32) : LaneAccess :=
  { lane := some k, aligned := bits k % (elemOf code).width == 0, va := byteOf (bits k)
    touches := elemTouches s.scaleBases code asInt (bits k) }

end Sys2Proof.Machine
end

