-- ==== Sys2Proof/Machine/Loads.lean ====
section
/-!
DEFINITION. Lane loads, major 0x18 (R145 to R154). A load is performed when it issues; its destinations show unknown values until it
completes (R115, R117).
-/
namespace Sys2Proof.Machine

/-- The access of lane `k` to `n` bytes as they lie in memory (R150). -/
def rawAccess (n : Nat) (bits : Fin 32 → Nat) (k : Fin 32) : LaneAccess :=
  { lane := some k, aligned := (byteOf (bits k)).toNat % n == 0, va := byteOf (bits k), touches := touchesFrom (byteOf (bits k)) n .raw }

/-- The bytes that a plan gives to a lane. -/
def laneBytes (plan : List LaneBytes) (i : Fin 32) : List (Addr × Nat) :=
  ((plan.find? fun p => p.1 == some i).map fun p => p.2).getD []

/-- The destinations of a lane access: registers d, d + 1, … get `f lane k` in the lanes of the mask. -/
def Flock.groupDests (fl : Flock) (d : BitVec 6) (n : Nat) (m : Mask) (f : Fin 32 → Nat → Word) : List Dest :=
  (List.range n).map fun k =>
    let r := d + BitVec.ofNat 6 k
    .vector r (fl.getV r) (Lanes.merge (fl.getV r) m fun i => f i k) false

/-- The loads-class operation of a plan: `f` gives the word of a lane for the k-th register, and `fault` is the machine check of its data. -/
def State.issueLoad (s : State) (plan : List LaneBytes) (fault : Option TrapInfo) (d : BitVec 6) (regs : Nat) (m : Mask)
    (f : Fin 32 → Nat → Word) : State :=
  let dests := s.cur.groupDests d regs m f
  (s.softRecord fault).issue (fun o => { o with dests := dests, fault := fault, places := planPlaces plan }) .loads

/-- A raw lane load of `n` bytes into `regs` registers; `after` orders an acquire. -/
def laneLoad (n regs : Nat) (pick : List Byte → Nat → Word) (d : BitVec 6) (bits : Fin 32 → Nat) (after : State → State) (s : State) :
    Result :=
  let m := s.cur.active 0
  if m = 0 then done s else
  s.settle (do
    s.room .loads
    let plan ← s.checkAccess loadGuard ((activeLanes m).map (rawAccess n bits))
    .ok (after (s.issueLoad plan (s.machineCheck 1 plan) d regs m fun i k => pick ((laneBytes plan i).map fun b => s.loadByte b.2) k)).advance)

/-- The word of four bytes from the 4 k-th on. -/
def pickWord (bs : List Byte) (k : Nat) : Word := BitVec.ofNat 32 (fromBytes ((bs.drop (4 * k)).take 4))
def pickZero (bs : List Byte) (_ : Nat) : Word := BitVec.ofNat 32 (fromBytes bs)
def pickSigned (bits : Nat) (bs : List Byte) (_ : Nat) : Word := BitVec.ofInt 32 (signed bits (fromBytes bs))

def execLdB8Z (d : BitVec 6) (a : BitVec 4) (v : BitVec 6) (i : BitVec 5) (s : State) : Result :=
  laneLoad 1 1 pickZero d (s.cur.laneBits a v i.toInt 8) id s
def execLdB8S (d : BitVec 6) (a : BitVec 4) (v : BitVec 6) (i : BitVec 5) (s : State) : Result :=
  laneLoad 1 1 (pickSigned 8) d (s.cur.laneBits a v i.toInt 8) id s
def execLdB16Z (d : BitVec 6) (a : BitVec 4) (v : BitVec 6) (i : BitVec 5) (s : State) : Result :=
  laneLoad 2 1 pickZero d (s.cur.laneBits a v i.toInt 16) id s
def execLdB16S (d : BitVec 6) (a : BitVec 4) (v : BitVec 6) (i : BitVec 5) (s : State) : Result :=
  laneLoad 2 1 (pickSigned 16) d (s.cur.laneBits a v i.toInt 16) id s
def execLdB32 (d : BitVec 6) (a : BitVec 4) (v : BitVec 6) (i : BitVec 5) (s : State) : Result :=
  laneLoad 4 1 pickWord d (s.cur.laneBits a v i.toInt 32) id s
def execLdB64 (d : BitVec 6) (a : BitVec 4) (v : BitVec 6) (i : BitVec 5) (s : State) : Result :=
  laneLoad 8 2 pickWord d (s.cur.laneBits a v i.toInt 64) id s
def execLdB128 (d : BitVec 6) (a : BitVec 4) (v : BitVec 6) (i : BitVec 5) (s : State) : Result :=
  laneLoad 16 4 pickWord d (s.cur.laneBits a v i.toInt 128) id s
/-- The same values as `ld.b32`; placement in the caches is not modelled (R153). -/
def execLdNc (d : BitVec 6) (a : BitVec 4) (v : BitVec 6) (i : BitVec 5) (s : State) : Result :=
  laneLoad 4 1 pickWord d (s.cur.laneBits a v i.toInt 32) id s
/-- The M ordered format has no immediate (R145). -/
def execLdAcq (d : BitVec 6) (a : BitVec 4) (v : BitVec 6) (sc : BitVec 3) (s : State) : Result :=
  laneLoad 4 1 pickWord d (s.cur.laneBits a v 0 32) (fun t => t.acquire sc) s

/-- One word read once for the flock and written to every active lane (R153 fn 9). -/
def execLdUn (d : BitVec 6) (a : BitVec 4) (i : BitVec 5) (s : State) : Result :=
  let m := s.cur.active 0
  if m = 0 then done s else
  let va := s.cur.flockAddress a i.toInt 4
  s.settle (do
    s.room .loads
    let plan ← s.checkAccess loadGuard [{ lane := s.cur.bellwether 0, aligned := va.toNat % 4 == 0, va := va, touches := touchesFrom va 4 .raw }]
    let x := pickWord ((plan.flatMap fun p => p.2).map fun b => s.loadByte b.2) 0
    .ok (s.issueLoad plan (s.machineCheck 1 plan) d 1 m fun _ _ => x).advance)

/-- A typed lane load (R154): `asInt` for `ld.e.i`. -/
def typedLoad (asInt : Bool) (d : BitVec 6) (a : BitVec 4) (v : BitVec 6) (i : BitVec 5) (s : State) : Result :=
  let m := s.cur.active 0
  if m = 0 then done s else
  s.settle (do
    s.room .loads
    let code ← s.baseFormat Need.load (s.cur.bellwether 0) (s.cur.getA a)
    let e := elemOf code
    let bits := s.cur.laneBits a v i.toInt e.width
    let plan ← s.checkAccess loadGuard ((activeLanes m).map (s.elemAccess code asInt bits))
    let word := fun (k : Fin 32) =>
      let bs := laneBytes plan k
      let x := s.loadBits bs (bits k) e.width
      if asInt then e.intWord x else e.word s.cur.sat (s.loadScale e bs (bits k)) x
    let fault := plan.findSome? fun p => s.laneCheck 1 (elemBits (bits (p.1.getD 0)) e.width) p
    .ok (s.issueLoad plan fault d 1 m fun k _ => word k).advance)

def execLdE (d : BitVec 6) (a : BitVec 4) (v : BitVec 6) (i : BitVec 5) (s : State) : Result := typedLoad false d a v i s
def execLdEI (d : BitVec 6) (a : BitVec 4) (v : BitVec 6) (i : BitVec 5) (s : State) : Result := typedLoad true d a v i s

end Sys2Proof.Machine
end

