-- ==== Sys2Proof/Machine/Stores.lean ====
section
/-!
DEFINITION. Lane stores, major 0x19 (R145 to R151, R155, R156, R160). A store is performed when it issues, in memory or in the commit
buffer; the stores counter falls when it completes (R115).
-/
namespace Sys2Proof.Machine

/-- The active lanes in the order in which a later one supplies a bit: by number (R149), and in a launch that holds stores back by
logical thread index, the lane field first (R65). -/
def State.storeOrder (s : State) (m : Mask) : List (Fin 32) :=
  match s.buffered, s.launch with
  | true, some l => l.hdr.threadOrder (activeLanes m)
  | _, _ => activeLanes m

/-- The stores-class operation whose bits are written (R77). -/
def State.issueStore (s : State) (ws : List BitWrite) (ofl nv : Bool) : State :=
  let places := if s.buffered then [] else ws.map fun w => w.address
  ((s.storeBits ws).issue (fun o => { o with ofFlag := ofl, nvFlag := nv, places := places }) .stores).flying s places

/-- A raw lane store of `n` bytes: `f` gives the bytes of a lane; `before` orders a release. -/
def laneStore (n : Nat) (f : Fin 32 → List Byte) (bits : Fin 32 → Nat) (before : State → State) (s : State) : Result :=
  let m := s.cur.active 0
  if m = 0 then done s else
  s.settle (do
    s.room .stores
    let plan ← s.checkAccess s.storeGuard ((activeLanes m).map (rawAccess n bits))
    .ok ((before s).issueStore ((s.storeOrder m).flatMap fun i => wholeBytes (laneBytes plan i) (f i)) false false).advance)

/-- The bytes of the words that a lane holds in `regs` registers. -/
def Flock.groupBytes (f : Flock) (d : BitVec 6) (regs : Nat) (i : Fin 32) : List Byte :=
  (List.range regs).flatMap fun k => toBytes 4 (f.lane (d + BitVec.ofNat 6 k) i).toNat

def execStB8 (d : BitVec 6) (a : BitVec 4) (v : BitVec 6) (i : BitVec 5) (s : State) : Result :=
  laneStore 1 (fun k => (s.cur.groupBytes d 1 k).take 1) (s.cur.laneBits a v i.toInt 8) id s
def execStB16 (d : BitVec 6) (a : BitVec 4) (v : BitVec 6) (i : BitVec 5) (s : State) : Result :=
  laneStore 2 (fun k => (s.cur.groupBytes d 1 k).take 2) (s.cur.laneBits a v i.toInt 16) id s
def execStB32 (d : BitVec 6) (a : BitVec 4) (v : BitVec 6) (i : BitVec 5) (s : State) : Result :=
  laneStore 4 (s.cur.groupBytes d 1) (s.cur.laneBits a v i.toInt 32) id s
def execStB64 (d : BitVec 6) (a : BitVec 4) (v : BitVec 6) (i : BitVec 5) (s : State) : Result :=
  laneStore 8 (s.cur.groupBytes d 2) (s.cur.laneBits a v i.toInt 64) id s
def execStB128 (d : BitVec 6) (a : BitVec 4) (v : BitVec 6) (i : BitVec 5) (s : State) : Result :=
  laneStore 16 (s.cur.groupBytes d 4) (s.cur.laneBits a v i.toInt 128) id s

/-- A release in memory writes remote lines back before its own store (R257); a buffered one is a release only when its commit
writes it (R160). -/
def State.releaseBefore (sc : BitVec 3) (s : State) : State := if s.buffered then s else s.release sc

def execStRel (d : BitVec 6) (a : BitVec 4) (v : BitVec 6) (sc : BitVec 3) (s : State) : Result :=
  laneStore 4 (s.cur.groupBytes d 1) (s.cur.laneBits a v 0 32) (State.releaseBefore sc) s

/-- A store of `w` bits of each lane word, `w` below 8 (R151). -/
def bitStore (w : Nat) (d : BitVec 6) (bits : Fin 32 → Nat) (s : State) : Result :=
  let m := s.cur.active 0
  if m = 0 then done s else
  s.settle (do
    s.room .stores
    let plan ← s.checkAccess s.storeGuard ((activeLanes m).map fun k =>
      { lane := some k, aligned := bits k % w == 0, va := byteOf (bits k), touches := bitTouches (bits k) w .raw })
    let ws := (s.storeOrder m).flatMap fun k => bitWrites (laneBytes plan k) (bits k) w (s.cur.lane d k).toNat
    .ok (s.issueStore ws false false).advance)

def execStB4 (d : BitVec 6) (a : BitVec 4) (v : BitVec 6) (i : BitVec 5) (s : State) : Result :=
  bitStore 4 d (s.cur.laneBits a v i.toInt 4) s
def execStB1 (d : BitVec 6) (a : BitVec 4) (v : BitVec 6) (i : BitVec 5) (s : State) : Result :=
  bitStore 1 d (s.cur.laneBits a v i.toInt 1) s

/-! Typed stores (R156). -/

/-- An element to be written: its bit address, the bytes found for it, its value, and its encoding alone. -/
structure Item where
  bit : Nat
  places : List (Addr × Nat)
  num : Num
  alone : Flagged Nat

/-- The last of some bit addresses, given with values, that names element `j` of block `b`. -/
def lastNaming {α : Type} (items : List (Nat × α)) (w b j : Nat) : Option α :=
  ((items.filter fun k => k.1 / w == 32 * b + j).getLast?).map fun k => k.2

/-- Whether some bit addresses name every element of block `b`. -/
def blockWhole (bits : List Nat) (w b : Nat) : Bool := (List.range 32).all fun j => bits.any fun k => k / w == 32 * b + j

/-- The writes of a block encoded whole (R80): its elements and its scale byte. -/
def State.wholeBlock (s : State) (f : Fmt) (items : List Item) (b : Nat) : Flagged (List BitWrite) :=
  let value := fun j => (lastNaming (items.map fun i => (i.bit, i.num)) f.width b j).getD .nan
  let places := items.flatMap fun i => i.places
  let r := mxBlock f s.cur.rm s.cur.sat ((List.range 32).map value)
  let els := r.val.2.zipIdx.flatMap fun e => bitWrites places (f.width * (32 * b + e.2)) f.width e.1
  let sa := scaleAddress s.scaleBases f (32 * f.width * b)
  { val := els ++ [{ address := placeOf places sa, enable := 0xFF, data := BitVec.ofNat 8 r.val.1 }], ofl := r.ofl, nv := r.nv }

/-- The writes of some elements in order: Microscaling blocks that they name whole, and every other element alone. -/
def State.typedWrites (s : State) (e : Elem) (items : List Item) : List (Flagged (List BitWrite)) :=
  let alone := fun (i : Item) =>
    ({ val := bitWrites i.places i.bit e.width i.alone.val, ofl := i.alone.ofl, nv := i.alone.nv } : Flagged (List BitWrite))
  match e with
  | .mx f =>
    let blocks := (items.map fun i => i.bit / (32 * f.width)).eraseDups
    blocks.flatMap fun b =>
      let mine := items.filter fun i => i.bit / (32 * f.width) == b
      if blockWhole (mine.map fun i => i.bit) f.width b then [s.wholeBlock f mine b] else mine.map alone
  | _ => items.map alone

/-- The scale byte that an element's store only reads: that of a block which is not written whole. -/
def scaleOnly (c : Context) (e : Elem) (bits : List Nat) (bit : Nat) : List Addr :=
  match e with
  | .mx f => if blockWhole bits f.width (bit / (32 * f.width)) then [] else [scaleAddress c f bit]
  | _ => []

/-- The item of lane `k`. -/
def State.laneItem (s : State) (e : Elem) (asInt : Bool) (d : BitVec 6) (bits : Fin 32 → Nat) (plan : List LaneBytes) (k : Fin 32) : Item :=
  let bs := laneBytes plan k
  let x := s.cur.lane d k
  { bit := bits k, places := bs, num := f32 x
    alone := if asInt then e.encodeInt s.cur.sat x else e.encode s.cur.rm s.cur.sat (s.loadScale e bs (bits k)) x }

/-- A typed lane store: `asInt` for `st.e.i`. -/
def typedStore (asInt : Bool) (d : BitVec 6) (a : BitVec 4) (v : BitVec 6) (i : BitVec 5) (s : State) : Result :=
  let m := s.cur.active 0
  if m = 0 then done s else
  s.settle (do
    s.room .stores
    let code ← s.baseFormat Need.store (s.cur.bellwether 0) (s.cur.getA a)
    let e := elemOf code
    let bits := s.cur.laneBits a v i.toInt e.width
    let all := (activeLanes m).map bits
    let plan ← s.checkAccess s.storeGuard ((activeLanes m).map fun k =>
      { s.elemAccess code asInt bits k with readOnly := scaleOnly s.scaleBases e all (bits k) })
    let ws := s.typedWrites e ((s.storeOrder m).map (s.laneItem e asInt d bits plan))
    .ok (s.issueStore (ws.flatMap fun w => w.val) (ws.any fun w => w.ofl) (ws.any fun w => w.nv)).advance)

def execStE (d : BitVec 6) (a : BitVec 4) (v : BitVec 6) (i : BitVec 5) (s : State) : Result := typedStore false d a v i s
def execStEI (d : BitVec 6) (a : BitVec 4) (v : BitVec 6) (i : BitVec 5) (s : State) : Result := typedStore true d a v i s

end Sys2Proof.Machine
end

