-- ==== Sys2Proof/Machine/ScalarMem.lean ====
section
/-!
DEFINITION. Scalar loads and stores, major 0x1A (R157): flock-wide, whatever `em` holds.
-/
namespace Sys2Proof.Machine

/-- A flock-wide raw access of `n` bytes. -/
def flockAccess (n : Nat) (va : Addr) : LaneAccess :=
  { lane := none, aligned := va.toNat % n == 0, va := va, touches := touchesFrom va n .raw }

/-- A flock-wide load of `n` bytes: `mk` makes the destination and says whether the data is a bad pointer. -/
def flockLoad (n : Nat) (va : Addr) (mk : List Byte → Dest × Bool) (after : State → State) (s : State) : Result :=
  s.settle (do
    s.room .loads
    let plan ← s.checkAccess loadGuard [flockAccess n va]
    let r := mk ((plan.flatMap fun p => p.2).map fun b => s.loadByte b.2)
    let check := s.machineCheck 1 plan
    let fault := match check with
      | some t => some t
      | none => if r.2 then some { kind := 0x15, access := 1, addr := va } else none
    .ok (after ((s.softRecord check).issue (fun o => { o with dests := [r.1], fault := fault, places := planPlaces plan }) .loads)).advance)

/-- A flock-wide store. -/
def flockStore (va : Addr) (bs : List Byte) (before : State → State) (s : State) : Result :=
  s.settle (do
    s.room .stores
    let plan ← s.checkAccess s.storeGuard [flockAccess bs.length va]
    .ok ((before s).issueStore (wholeBytes (plan.flatMap fun p => p.2) bs) false false).advance)

/-- A scalar destination. -/
def Flock.scalarDest (f : Flock) (d : BitVec 5) (bs : List Byte) : Dest × Bool :=
  (.scalar d (f.getS d) (BitVec.ofNat 64 (fromBytes bs)) false, false)

/-- An address destination: bytes 15:9 must be zero (R157). -/
def Flock.addressDest (f : Flock) (d : BitVec 4) (bs : List Byte) : Dest × Bool :=
  (.address d (f.getA d) (BitVec.ofNat 72 (fromBytes (bs.take 9))) false, decide (fromBytes (bs.drop 9) ≠ 0))

def execLdsB64 (d : BitVec 5) (a : BitVec 4) (i : BitVec 5) (s : State) : Result :=
  flockLoad 8 (s.cur.flockAddress a i.toInt 8) (s.cur.scalarDest d) id s
def execLdsB32 (d : BitVec 5) (a : BitVec 4) (i : BitVec 5) (s : State) : Result :=
  flockLoad 4 (s.cur.flockAddress a i.toInt 4) (s.cur.scalarDest d) id s
def execStsB64 (d : BitVec 5) (a : BitVec 4) (i : BitVec 5) (s : State) : Result :=
  flockStore (s.cur.flockAddress a i.toInt 8) (toBytes 8 (s.cur.getS d).toNat) id s
def execStsB32 (d : BitVec 5) (a : BitVec 4) (i : BitVec 5) (s : State) : Result :=
  flockStore (s.cur.flockAddress a i.toInt 4) (toBytes 4 (s.cur.getS d).toNat) id s
def execLda (d : BitVec 4) (a : BitVec 4) (i : BitVec 5) (s : State) : Result :=
  flockLoad 16 (s.cur.flockAddress a i.toInt 16) (s.cur.addressDest d) id s
def execSta (d : BitVec 4) (a : BitVec 4) (i : BitVec 5) (s : State) : Result :=
  flockStore (s.cur.flockAddress a i.toInt 16) (toBytes 16 (s.cur.getA d).toNat) id s
def execLdsAcq (d : BitVec 5) (a : BitVec 4) (sc : BitVec 3) (s : State) : Result :=
  flockLoad 8 (s.cur.flockAddress a 0 8) (s.cur.scalarDest d) (fun t => t.acquire sc) s
def execStsRel (d : BitVec 5) (a : BitVec 4) (sc : BitVec 3) (s : State) : Result :=
  flockStore (s.cur.flockAddress a 0 8) (toBytes 8 (s.cur.getS d).toNat) (State.releaseBefore sc) s

end Sys2Proof.Machine
end

