-- ==== Sys2Proof/Machine/Scratch.lean ====
section
/-!
DEFINITION. Scratch loads and stores, major 0x1B (R158, R159). Their alignment is that of R146. They never translate and never enter
the commit buffer.
-/
namespace Sys2Proof.Machine

/-- The check of one scratch access: alignment, then range (R175 orders 1 and 5). -/
def Fold.scratchCheck (f : Fold) (code : BitVec 8) (n : Nat) (l : Option (Fin 32) × Nat) : Except Bad Unit :=
  if l.2 % n ≠ 0 then .error ((Bad.trap { kind := 0x13, access := code, addr := BitVec.ofNat 72 l.2 }).inLane l.1)
  else match f.checkScratch code l.2 n with
    | .error b => .error (b.inLane l.1)
    | .ok _ => .ok ()

/-- The accesses of the lanes, ascending: the first that faults decides. -/
def Fold.scratchChecks (f : Fold) (code : BitVec 8) (n : Nat) : List (Option (Fin 32) × Nat) → Except Bad Unit
  | [] => .ok ()
  | l :: ls => do
    f.scratchCheck code n l
    f.scratchChecks code n ls

/-- The machine check of the first scratch byte in error (R303); `faddr` holds its scratch address. -/
def State.scratchError (s : State) (n : Nat) (ls : List (Option (Fin 32) × Nat)) : Option TrapInfo :=
  ls.findSome? fun l => (List.range n).findSome? fun k =>
    if s.broken != [] && s.scratchBad s.cur.fold (l.2 + k) then
      some { kind := 0x30, access := 1, lane := l.1.map fun i => BitVec.ofNat 5 i.val, addr := BitVec.ofNat 72 (l.2 + k) }
    else none

/-- Bytes of the current fold's scratch. -/
def State.ownScratch (s : State) (a n : Nat) : List Byte := s.scratchBytes s.fold a n

/-- A scratch load: `mk` makes the destinations and says whether the data is a bad pointer. -/
def scratchLoad (n : Nat) (ls : List (Option (Fin 32) × Nat)) (mk : List Dest × Bool) (s : State) : Result :=
  s.settle (do
    s.room .loads
    s.fold.scratchChecks 1 n ls
    let check := s.scratchError n ls
    let fault := match check with
      | some t => some t
      | none => if mk.2 then some { kind := 0x15, access := 1, addr := BitVec.ofNat 72 ((ls.map fun l => l.2).headD 0) } else none
    .ok ((s.softRecord check).issue (fun o => { o with
      dests := mk.1, fault := fault, reads := ls.map fun l => ⟨l.2, n⟩ }) .loads).advance)

/-- A scratch store of the bytes `f` gives for each access, in order. -/
def scratchStore (n : Nat) (ls : List (Option (Fin 32) × Nat)) (f : Option (Fin 32) → List Byte) (s : State) : Result :=
  s.settle (do
    s.room .stores
    s.fold.scratchChecks 2 n ls
    let t := ls.foldl (fun (u : State) l => u.scratchWrite s.cur.fold l.2 (f l.1) true) s
    .ok (t.issue (fun o => { o with writes := ls.map fun l => ⟨l.2, n⟩ }) .stores).advance)

/-- The accesses of the active lanes. -/
def Flock.scratchLanes (f : Flock) (x : BitVec 4) (v : BitVec 6) (i : BitVec 5) : List (Option (Fin 32) × Nat) :=
  (activeLanes (f.active 0)).map fun k => (some k, scratchAddress (f.getS (x.setWidth 5)) ((f.lane v k).toInt + i.toInt) 4)

/-- The one access of a flock-wide form. -/
def Flock.scratchOne (f : Flock) (x : BitVec 4) (i : BitVec 5) (n : Nat) : List (Option (Fin 32) × Nat) :=
  [(none, scratchAddress (f.getS (x.setWidth 5)) i.toInt n)]

/-- The bytes at the one address. -/
def State.scratchData (s : State) (ls : List (Option (Fin 32) × Nat)) (n : Nat) : List Byte :=
  s.ownScratch ((ls.map fun l => l.2).headD 0) n

def execLspB32 (d : BitVec 6) (x : BitVec 4) (v : BitVec 6) (i : BitVec 5) (s : State) : Result :=
  let m := s.cur.active 0
  if m = 0 then done s else
  let at_ := fun (k : Fin 32) => scratchAddress (s.cur.getS (x.setWidth 5)) ((s.cur.lane v k).toInt + i.toInt) 4
  scratchLoad 4 (s.cur.scratchLanes x v i) (s.cur.groupDests d 1 m fun k _ => pickWord (s.ownScratch (at_ k) 4) 0, false) s

def execLspB64 (d : BitVec 5) (x : BitVec 4) (i : BitVec 5) (s : State) : Result :=
  let ls := s.cur.scratchOne x i 8
  let r := s.cur.scalarDest d (s.scratchData ls 8)
  scratchLoad 8 ls ([r.1], r.2) s

def execLspB128 (d : BitVec 4) (x : BitVec 4) (i : BitVec 5) (s : State) : Result :=
  let ls := s.cur.scratchOne x i 16
  let r := s.cur.addressDest d (s.scratchData ls 16)
  scratchLoad 16 ls ([r.1], r.2) s

/-- Of several lanes that write one byte the highest supplies it (R149). -/
def execSspB32 (d : BitVec 6) (x : BitVec 4) (v : BitVec 6) (i : BitVec 5) (s : State) : Result :=
  if s.cur.active 0 = 0 then done s else
  scratchStore 4 (s.cur.scratchLanes x v i) (fun l => match l with | some k => s.cur.groupBytes d 1 k | none => []) s

def execSspB64 (d : BitVec 5) (x : BitVec 4) (i : BitVec 5) (s : State) : Result :=
  scratchStore 8 (s.cur.scratchOne x i 8) (fun _ => toBytes 8 (s.cur.getS d).toNat) s

def execSspB128 (d : BitVec 4) (x : BitVec 4) (i : BitVec 5) (s : State) : Result :=
  scratchStore 16 (s.cur.scratchOne x i 16) (fun _ => toBytes 16 (s.cur.getA d).toNat) s

end Sys2Proof.Machine
end

