-- ==== Sys2Proof/Machine/Atomic.lean ====
section
/-!
DEFINITION. Atomics and memory reductions, major 0x1C (R161 to R164).
-/
namespace Sys2Proof.Machine

/-- What an atomic does: bytes of the location, registers that get the old value, registers that hold operands, and the new value
by the old one and the operand words. -/
structure AtomOp where
  size : Nat
  results : Nat
  operands : Nat
  new : Nat → List Nat → Nat

/-- A one-word atomic. -/
def wordAtom (f : Word → Word → Word) : AtomOp :=
  { size := 4, results := 1, operands := 1, new := fun old xs => (f (BitVec.ofNat 32 old) (BitVec.ofNat 32 (xs.getD 0 0))).toNat }

/-- The guard of an atomic (R59, R63, R164): `returns` for those that return the old value. Under the deterministic flag a reduction
takes an entry of the commit buffer for each lane. -/
def State.atomGuard (s : State) (returns : Bool) : Guard :=
  let entries := !(s.cur.buf.isEmpty && s.fold.buf.isEmpty)
  { need := Need.atomic, atomic := true
    barred := if s.determ then returns else s.buffered && entries
    free := if s.determ then s.bufferRoom else none
    each := true }

/-- The bytes of a location under a table of bytes already written. -/
def State.tableNat (s : State) (t : List (Nat × Byte)) (bs : List (Addr × Nat)) : Nat :=
  fromBytes (bs.map fun b => (lookup t b.2).getD (s.read b.2))

/-- The operand words of a lane. -/
def Flock.operandWords (f : Flock) (d : BitVec 6) (n : Nat) (i : Fin 32) : List Nat :=
  (List.range n).map fun k => (f.lane (d + BitVec.ofNat 6 k) i).toNat

/-- The lanes of an atomic in ascending order (R162): the bytes they leave and the old value of each lane. A location whose line is in
error is not written (log entry 15). -/
def State.atomLanes (s : State) (op : AtomOp) (d : BitVec 6) (plan : List LaneBytes) : List (Nat × Byte) × List (Nat × Nat) :=
  plan.foldl (fun acc p =>
    let i := p.1.getD 0
    let old := s.tableNat acc.1 p.2
    let bad := p.2.any fun b => s.broken.contains (.line (b.2 / 64 * 64))
    let new := toBytes op.size (op.new old (s.cur.operandWords d op.operands i))
    let t := if bad then acc.1 else (p.2.zip new).foldl (fun t e => store t e.1.2 e.2) acc.1
    (t, acc.2 ++ [(i.val, old)])) ([], [])

/-- The lines of other devices' memory that some places lie in: an atomic there is performed at the home, and this device's L2 keeps
nothing of them (R163, R257). -/
def farLines (as : List Nat) : List Nat := ((as.filter fun a => isFar a).map fun a => a / 64 * 64).eraseDups

/-- A write of an atomic or a memory reduction by some agent, performed at the homes of what lies with other devices. -/
def State.homeWrite (s : State) (as : List Nat) (write : State → State) : State :=
  (write (s.evict (farLines as))).evict (farLines as)

/-- The checked access of an atomic. -/
def State.atomPlan (s : State) (returns : Bool) (size : Nat) (a : BitVec 4) (v : BitVec 6) : Except Bad (List LaneBytes) :=
  s.checkAccess (s.atomGuard returns) ((activeLanes (s.cur.active 0)).map (rawAccess size (s.cur.laneBits a v 0 (8 * size))))

/-- The scope at which an atomic acts: one on another device's memory acts at domain scope at least (R163). -/
def atomScope (sc : BitVec 3) (plan : List LaneBytes) : BitVec 3 := if farLines (planPlaces plan) = [] || wide sc then sc else 4

/-- The state in which the lanes of an atomic read their locations: what it releases is written back, and what lies with other devices is
read at its home. -/
def State.atomBefore (s : State) (plan : List LaneBytes) (sc : BitVec 3) (rel : Bool) : State :=
  (if rel then s.release (atomScope sc plan) else s).evict (farLines (planPlaces plan))

/-- The locations change in memory (R162, R163): order code bit 1 releases before, bit 0 acquires after. -/
def State.atomStore (s : State) (op : AtomOp) (d : BitVec 6) (plan : List LaneBytes) (sc : BitVec 3) (rel acq : Bool) : State :=
  let s1 := s.atomBefore plan sc rel
  let s2 := s1.homeWrite (planPlaces plan) fun t => t.write (t.atomLanes op d plan).1 s.cur.ttag (s.agent s.cur).ctx s.cur.secure
  if acq then s2.acquire (atomScope sc plan) else s2

/-- An atomic that returns the old values. -/
def atomic (op : AtomOp) (d : BitVec 6) (a : BitVec 4) (v : BitVec 6) (sc : BitVec 3) (o : BitVec 2) (s : State) : Result :=
  let m := s.cur.active 0
  if m = 0 then done s else
  s.settle (do
    s.room .loads
    let plan ← s.atomPlan true op.size a v
    let olds := ((s.atomBefore plan sc (o.getLsbD 1)).atomLanes op d plan).2
    let fault := s.machineCheck 3 plan
    let dests := s.cur.groupDests d op.results m fun i k => BitVec.ofNat 32 (((lookup olds i.val).getD 0) / 2 ^ (32 * k))
    let t := s.atomStore op d plan sc (o.getLsbD 1) (o.getLsbD 0)
    .ok (((t.softRecord fault).issue (fun q => { q with dests := dests, fault := fault, places := planPlaces plan }) .loads).flying s (planPlaces plan)).advance)

def atomAdd : AtomOp := wordAtom fun x y => x + y
def atomFadd : AtomOp := wordAtom fun x y => (f32Add 0 x y).val
def atomMinS : AtomOp := wordAtom fun x y => if x.toInt ≤ y.toInt then x else y
def atomMaxS : AtomOp := wordAtom fun x y => if x.toInt ≤ y.toInt then y else x
def atomMinZ : AtomOp := wordAtom fun x y => if x.toNat ≤ y.toNat then x else y
def atomMaxZ : AtomOp := wordAtom fun x y => if x.toNat ≤ y.toNat then y else x
def atomAnd : AtomOp := wordAtom fun x y => x &&& y
def atomOr : AtomOp := wordAtom fun x y => x ||| y
def atomXor : AtomOp := wordAtom fun x y => x ^^^ y
def atomXchg : AtomOp := wordAtom fun _ y => y
def atomInc : AtomOp := wordAtom fun x y => if y.toNat ≤ x.toNat then 0 else x + 1
def atomCas : AtomOp :=
  { size := 4, results := 1, operands := 2, new := fun old xs => if old = xs.getD 0 0 then xs.getD 1 0 else old }

/-- A 64-bit operand from two words, the low one first. -/
def pairAt (xs : List Nat) (k : Nat) : Nat := xs.getD k 0 + 2 ^ 32 * xs.getD (k + 1) 0

def atomAdd64 : AtomOp :=
  { size := 8, results := 2, operands := 2, new := fun old xs => (old + pairAt xs 0) % 2 ^ 64 }
def atomCas64 : AtomOp :=
  { size := 8, results := 2, operands := 4, new := fun old xs => if old = pairAt xs 0 then pairAt xs 2 else old }

def execAtomAdd (d : BitVec 6) (a : BitVec 4) (v : BitVec 6) (sc : BitVec 3) (o : BitVec 2) (s : State) : Result := atomic atomAdd d a v sc o s
def execAtomFadd (d : BitVec 6) (a : BitVec 4) (v : BitVec 6) (sc : BitVec 3) (o : BitVec 2) (s : State) : Result := atomic atomFadd d a v sc o s
def execAtomMinS (d : BitVec 6) (a : BitVec 4) (v : BitVec 6) (sc : BitVec 3) (o : BitVec 2) (s : State) : Result := atomic atomMinS d a v sc o s
def execAtomMaxS (d : BitVec 6) (a : BitVec 4) (v : BitVec 6) (sc : BitVec 3) (o : BitVec 2) (s : State) : Result := atomic atomMaxS d a v sc o s
def execAtomMinZ (d : BitVec 6) (a : BitVec 4) (v : BitVec 6) (sc : BitVec 3) (o : BitVec 2) (s : State) : Result := atomic atomMinZ d a v sc o s
def execAtomMaxZ (d : BitVec 6) (a : BitVec 4) (v : BitVec 6) (sc : BitVec 3) (o : BitVec 2) (s : State) : Result := atomic atomMaxZ d a v sc o s
def execAtomAnd (d : BitVec 6) (a : BitVec 4) (v : BitVec 6) (sc : BitVec 3) (o : BitVec 2) (s : State) : Result := atomic atomAnd d a v sc o s
def execAtomOr (d : BitVec 6) (a : BitVec 4) (v : BitVec 6) (sc : BitVec 3) (o : BitVec 2) (s : State) : Result := atomic atomOr d a v sc o s
def execAtomXor (d : BitVec 6) (a : BitVec 4) (v : BitVec 6) (sc : BitVec 3) (o : BitVec 2) (s : State) : Result := atomic atomXor d a v sc o s
def execAtomXchg (d : BitVec 6) (a : BitVec 4) (v : BitVec 6) (sc : BitVec 3) (o : BitVec 2) (s : State) : Result := atomic atomXchg d a v sc o s
def execAtomCas (d : BitVec 6) (a : BitVec 4) (v : BitVec 6) (sc : BitVec 3) (o : BitVec 2) (s : State) : Result := atomic atomCas d a v sc o s
def execAtomAdd64 (d : BitVec 6) (a : BitVec 4) (v : BitVec 6) (sc : BitVec 3) (o : BitVec 2) (s : State) : Result := atomic atomAdd64 d a v sc o s
def execAtomCas64 (d : BitVec 6) (a : BitVec 4) (v : BitVec 6) (sc : BitVec 3) (o : BitVec 2) (s : State) : Result := atomic atomCas64 d a v sc o s
def execAtomInc (d : BitVec 6) (a : BitVec 4) (v : BitVec 6) (sc : BitVec 3) (o : BitVec 2) (s : State) : Result := atomic atomInc d a v sc o s

/-- The entries that a reduction puts into the commit buffer, one for each lane in the order of logical thread indices (R64 to R66, R164). -/
def State.heldReductions (s : State) (float : Bool) (d : BitVec 6) (plan : List LaneBytes) : List CommitEntry :=
  (s.storeOrder (s.cur.active 0)).map fun i =>
    let bs := laneBytes plan i
    .reduction s.cur.field float [{
      address := (bs.map fun b => b.2).headD 0, value := s.cur.lane d i
      lane := some (BitVec.ofNat 5 i.val), va := (bs.map fun b => b.1).headD 0 }] s.cur.ttag s.cur.pc s.nextId

/-- A memory reduction: order codes 1 and 3 act as 0 and 2 (R163). -/
def reduction (float : Bool) (d : BitVec 6) (a : BitVec 4) (v : BitVec 6) (sc : BitVec 3) (o : BitVec 2) (s : State) : Result :=
  if s.cur.active 0 = 0 then done s else
  let op := if float then atomFadd else atomAdd
  s.settle (do
    s.room .stores
    let plan ← s.atomPlan false 4 a v
    if s.determ then
      .ok ({ s with cur := { s.cur with buf := s.cur.buf ++ s.heldReductions float d plan } }.issue id .stores).advance
    else
      let fault := s.machineCheck 3 plan
      let t := s.atomStore op d plan sc (o.getLsbD 1) false
      .ok (((t.softRecord fault).issue (fun q => { q with fault := fault, places := planPlaces plan }) .stores).flying s (planPlaces plan)).advance)

def execRedMemAdd (d : BitVec 6) (a : BitVec 4) (v : BitVec 6) (sc : BitVec 3) (o : BitVec 2) (s : State) : Result := reduction false d a v sc o s
def execRedMemFadd (d : BitVec 6) (a : BitVec 4) (v : BitVec 6) (sc : BitVec 3) (o : BitVec 2) (s : State) : Result := reduction true d a v sc o s

end Sys2Proof.Machine
end

