-- ==== Sys2Proof/Machine/Layout.lean ====
section
/-!
DEFINITION. Layout records (R176 to R178, R181): their fields and checks, and where the entries of a tile lie.
-/
namespace Sys2Proof.Machine

/-- A little-endian field of a record. -/
def recordNat (bs : List Byte) (off n : Nat) : Nat := fromBytes ((bs.drop off).take n)

/-- The fields of a layout record (R176). -/
def Layout.parse (bs : List Byte) : Layout where
  base := BitVec.ofNat 72 (recordNat bs 0 9)
  rank := recordNat bs 0x10 1
  rows := recordNat bs 0x11 1
  columns := recordNat bs 0x12 1
  planes := recordNat bs 0x13 1
  flags := BitVec.ofNat 8 (recordNat bs 0x14 1)
  sparse := recordNat bs 0x15 1
  offset := recordNat bs 0x16 2
  tag := BitVec.ofNat 64 (recordNat bs 0x18 8)
  extents := (List.range 5).map fun j => recordNat bs (0x20 + 4 * j) 4
  strides := (List.range 5).map fun j => signed 64 (recordNat bs (0x40 + 8 * j) 8)

def Layout.pad (l : Layout) : Bool := l.flags.getLsbD 0
def Layout.welt (l : Layout) : Bool := l.flags.getLsbD 1
def Layout.kform (l : Layout) : Bool := l.flags.getLsbD 2
def Layout.raw (l : Layout) : Bool := l.flags.getLsbD 3
def Layout.rsign (l : Layout) : Bool := l.flags.getLsbD 4

/-- Whether every byte from `off` on is zero. -/
def recordZero (bs : List Byte) (off n : Nat) : Bool := ((bs.drop off).take n).all fun b => b == 0

/-- The fields keep R176 and R177. -/
def Layout.fieldsOk (l : Layout) (bs : List Byte) : Bool :=
  recordZero bs 0x09 7 && recordZero bs 0x34 12 && recordZero bs 0x68 24 &&
  decide (1 ≤ l.rank ∧ l.rank ≤ 5) && (l.rows == 8 || l.rows == 32) && l.columns == 32 &&
  decide (1 ≤ l.planes ∧ l.planes ≤ 16) && l.flags.extractLsb' 5 3 == 0 && (!l.rsign || l.raw) &&
  (l.sparse == 0 || l.sparse == 2 || l.sparse == 4) &&
  ((List.range 5).all fun j =>
    if j < l.rank then decide (1 ≤ l.extents.getD j 0) else l.extents.getD j 0 == 0 && l.strides.getD j 0 == 0)

/-- The further demands of a tile record (R178). -/
def Layout.tileOk (l : Layout) : Bool := (!l.kform || l.rows == 32) && (l.sparse == 0 || !l.kform)

/-- The extent that bounds coordinate j (R181). -/
def Layout.bound (l : Layout) (j : Nat) : Nat := if j < l.rank then l.extents.getD j 1 else 1

/-- Whether coordinates lie in the extents (R181). -/
def Layout.inExtent (l : Layout) (xs : List Nat) : Bool := (List.range 5).all fun j => decide (xs.getD j 0 < l.bound j)

/-- The element index of coordinates (R181). -/
def Layout.index (l : Layout) (xs : List Nat) : Int :=
  (List.range 5).foldl (fun acc j => acc + l.strides.getD j 0 * xs.getD j 0) (l.offset : Int)

/-- The bit address of an element (R181). -/
def Layout.bitAt (l : Layout) (w : Nat) (xs : List Nat) : Nat := ((8 * (l.base.toNat : Int) + w * l.index xs) % 2 ^ 75).toNat

/-- The plane counts that a format permits (R82, R178). -/
def planesOk (e : Elem) (p : Nat) : Bool :=
  match e with
  | .float _ => decide (2 ≤ p ∧ p ≤ 16)
  | .mx _ => decide (2 ≤ p ∧ p ≤ 16)
  | .lns => p == 6
  | .int n _ => p == n
  | _ => false

/-- The plane counts of a raw record (R178). -/
def rawPlanesOk (p : Nat) : Bool := p == 1 || p == 2 || p == 4 || p == 8 || p == 16

/-- A fault of the tile or engine kind. -/
def engineFault (kind : BitVec 8) (va : Addr := 0) : Bad := .trap { kind := kind, access := 6, addr := va }

/-! Accesses of an engine over many elements: each kind of fault is looked for over all elements before the next (R198, R237). -/

/-- An element's byte that was found: what it touches, where it lies, and its page. -/
abbrev Found := Touch × Nat × Leaf

/-- Translation, world and permission of every byte. -/
def State.locateAll (s : State) (g : Agent) (n : Need) : List Touch → Except Bad (List Found)
  | [] => .ok []
  | t :: ts => do
    let (pa, e) ← s.locate g n t.1
    let rest ← s.locateAll g n ts
    .ok ((t, pa, e) :: rest)

/-- The first byte that breaks the demand on its page; `agree` demands besides that all pages have one format, which fixes the geometry (R72,
R186, R197). -/
def formatFault (agree : Bool) (fs : List Found) : Except Bad Unit :=
  match fs.find? fun f => !f.1.2.allows f.2.2 || (agree && some f.2.2.format != fs.head?.map fun g => g.2.2.format) with
  | some f => .error (engineFault 0x14 f.1.1)
  | none => .ok ()

/-- The first byte that the stop flag forbids (R59). -/
def State.legalFault (s : State) (atomic barred : Bool) (fs : List Found) : Except Bad Unit :=
  match fs.find? fun f => barred || s.forbidden atomic f.1.1 with
  | some f => .error (engineFault 0x20 f.1.1)
  | none => .ok ()

/-- Virtual and system-physical addresses alone. -/
def Found.place (f : Found) : Addr × Nat := (f.1.1, f.2.1)

/-- An entry of a tile: row, column, bit address and the bytes it touches. -/
structure Entry where
  row : Nat
  col : Nat
  bit : Nat
  touches : List Touch
  deriving DecidableEq, Repr

/-- An entry with the bytes found for it. -/
abbrev EntryBytes := Entry × List (Addr × Nat)

/-- The coordinates of entry (r, c) (R181). -/
def TileDesc.coordsAt (t : TileDesc) (transposed : Bool) (r c : Nat) : List Nat :=
  let d0 := if transposed then r else c
  let d1 := if transposed then c else r
  [t.coords.getD 0 0 + d0, t.coords.getD 1 0 + d1, t.coords.getD 2 0, t.coords.getD 3 0, t.coords.getD 4 0]

/-- Positions of a tile in row-major order. -/
def positions (rows : Nat) : List (Nat × Nat) := (List.range rows).flatMap fun r => (List.range 32).map fun c => (r, c)

/-- Whether some entry lies out of extent while pad is clear (R181). -/
def TileDesc.outOfExtent (t : TileDesc) (transposed : Bool) : Bool :=
  !t.layout.pad && (positions t.layout.rows).any fun p => !t.layout.inExtent (t.coordsAt transposed p.1 p.2)

/-- The entries in extent, each with what `touch` says of its bit address. -/
def TileDesc.entries (t : TileDesc) (transposed : Bool) (w : Nat) (touch : Nat → List Touch) : List Entry :=
  (positions t.layout.rows).filterMap fun p =>
    let xs := t.coordsAt transposed p.1 p.2
    if t.layout.inExtent xs then
      some { row := p.1, col := p.2, bit := t.layout.bitAt w xs, touches := touch (t.layout.bitAt w xs) }
    else none

/-- The entries with their bytes, after the checks of R198 orders 3 to 6; `footprint` is the check of order 4. -/
def State.checkEntries (s : State) (need : Need) (es : List Entry) (footprint : Except Bad Unit) (agree atomic barred held : Bool) :
    Except Bad (List EntryBytes) := do
  let found ← es.mapM fun e => s.locateAll (s.agent s.cur) need e.touches
  footprint
  formatFault agree found.flatten
  let own := found.map fun fs => fs.filter fun f => !f.1.2.isShared
  s.legalFault atomic barred own.flatten
  s.reachAll 6 held (own.flatten.map Found.place)
  .ok (es.zip (own.map fun fs => fs.map Found.place))

end Sys2Proof.Machine
end

