-- ==== Sys2Proof/Machine/TileDesc.lean ====
section
/-!
DEFINITION. The tile descriptor instructions, major 0x20 (R178 to R180).
-/
namespace Sys2Proof.Machine

/-- The bytes of a record, read by the current flock as they stand in memory, its own buffered bytes included. A record in error is consumed
with a machine check (R303). -/
def State.readRecord (s : State) (need : Need) (va : Addr) (n : Nat) : Except Bad (List Byte) := do
  let found ← s.locateAll (s.agent s.cur) need (touchesFrom va n .any)
  s.reachAll 6 false (found.map Found.place)
  match s.machineCheck 6 [(none, found.map Found.place)] with
  | some t => .error (.soft t)
  | none => .ok (found.map fun f => s.loadByte f.2.1)

/-- Whether a record that can be read breaks a test of its fields. -/
def recordBreaks (r : Except Bad (List Byte)) (ok : List Byte → Bool) : Bool :=
  match r with
  | .ok bs => !ok bs
  | .error _ => false

/-- The descriptor that `tdset` makes of a record (R178, R179), its faults in the order of R198: what the record holds comes before where it
lies, as far as it can be read, and the alignment of base last. -/
def State.bindTile (s : State) (record : Addr) (scratch : Word) : Except Bad TileDesc := do
  let r := s.readRecord Need.engineRead record 128
  if scratch.extractLsb' 0 6 ≠ 0 || recordBreaks r fun bs => (Layout.parse bs).fieldsOk bs && (Layout.parse bs).tileOk then
    .error (engineFault 0x19)
  else
  if record.extractLsb' 0 7 ≠ 0 then .error (engineFault 0x13 record) else
  let bs ← r
  let l := Layout.parse bs
  let (_, e) ← s.locate (s.agent s.cur) Need.engineRead l.base
  let kind := elemOf e.format
  let fits := if l.raw then rawPlanesOk l.planes && rawOk e else planesOk kind l.planes
  if !fits then .error (engineFault 0x14 l.base) else
  if 8 * l.base.toNat % (if l.raw then l.planes else kind.width) ≠ 0 then .error (engineFault 0x13 l.base) else
  .ok { binding := .scratch, layout := l, record := record, format := if l.raw then 0 else e.format
        signed := l.rsign, scratch := scratch, planes := l.planes }

def execTdset (t : BitVec 4) (a : BitVec 4) (x : BitVec 5) (i : BitVec 6) (s : State) : Result :=
  s.settle (do
    let d ← s.bindTile (s.cur.getA a + BitVec.ofNat 72 (128 * i.toNat)) ((s.cur.getS x).setWidth 32)
    .ok { s with cur := s.cur.setTd t d }.advance)

/-- The low and the high word of a scalar. -/
def lowHalf (x : DWord) : Nat := field x.toNat 0 32
def highHalf (x : DWord) : Nat := field x.toNat 32 32

def execTdoff (t : BitVec 4) (a b : BitVec 5) (k : BitVec 6) (s : State) : Result :=
  let d := s.cur.getTd t
  let x := s.cur.getS a
  let y := s.cur.getS b
  let cs := if k = 0 then [lowHalf x, highHalf x, lowHalf y, highHalf y, d.coords.getD 4 0]
    else d.coords.take 4 ++ [lowHalf x]
  done { s with cur := s.cur.setTd t { d with coords := cs } }

/-- P - 1 in bits 4:0 of the immediate, the sign in bit 5; the scratch address stays (R179). -/
def execTdpl (t : BitVec 4) (v : BitVec 5) (p : BitVec 6) (s : State) : Result :=
  let d : TileDesc := {
    binding := .registers, vbase := v.toNat, planes := p.toNat % 32 + 1, signed := p.getLsbD 5, scratch := (s.cur.getTd t).scratch }
  done { s with cur := s.cur.setTd t d }

/-- The state word (R180). -/
def TileDesc.word (d : TileDesc) : DWord :=
  BitVec.ofNat 64 (d.vbase * 2 ^ 16 + d.format.toNat * 2 ^ 11 + (if d.signed then 2 ^ 10 else 0) +
    (match d.binding with | .unbound => 0 | .scratch => 1 | .registers => 2) * 2 ^ 8 + d.planes)

/-- An item of a descriptor (R179). -/
def TileDesc.item (d : TileDesc) (k : Nat) : DWord :=
  let x := fun j => d.coords.getD j 0
  match k with
  | 0 => d.record.setWidth 64
  | 1 => (d.record.extractLsb' 64 8).setWidth 64
  | 2 => d.scratch.setWidth 64
  | 3 => BitVec.ofNat 64 (x 0 + 2 ^ 32 * x 1)
  | 4 => BitVec.ofNat 64 (x 2 + 2 ^ 32 * x 3)
  | 5 => BitVec.ofNat 64 (x 4)
  | _ => d.word

def execTdget (d : BitVec 5) (t : BitVec 4) (k : BitVec 6) (s : State) : Result :=
  done (s.putS d ((s.cur.getTd t).item k.toNat))

end Sys2Proof.Machine
end

