-- ==== Sys2Proof/Machine/Image.lean ====
section
/-!
DEFINITION. Tile images in scratch (R182 to R184): planes, sparse metadata and group records, and how the plane path forms them
(R83) and reads them back.
-/
namespace Sys2Proof.Machine

/-! Groups of eight (R83, R183). -/

/-- The binary exponent of a finite non-zero value: floor(log2 |x|). -/
def Num.exponent : Num → Option Int
  | .fin _ m e => if m = 0 then none else some ((m.log2 : Int) + e)
  | _ => none

/-- E of a group: that of its largest finite magnitude, 0 where there is none. -/
def groupExponent (xs : List Num) : Int :=
  match xs.filterMap Num.exponent with
  | [] => 0
  | e :: es => es.foldl max e

/-- The integer q of a value at exponent E and P planes. -/
def planeInt (p : Nat) (e : Int) (x : Num) : Int :=
  match x with
  | .fin s m f =>
    let r := roundTo 0 s m (f + (p - 2 - e)) false 0
    let q : Int := if s then -(r : Int) else r
    if q = 2 ^ (p - 1) then 2 ^ (p - 1) - 1 else q
  | _ => 0

/-- A mask with bit j set where the j-th value satisfies a test. -/
def maskBits (p : Num → Bool) (xs : List Num) : Nat := (xs.zipIdx.map fun x => if p x.1 then 2 ^ x.2 else 0).foldl (· + ·) 0

/-- The group record (R183). -/
def groupRecord (p : Nat) (xs : List Num) : Nat :=
  maskBits Num.isZero xs * 2 ^ 56 + maskBits Num.isNeg xs * 2 ^ 48 + maskBits (fun x => !x.isFinite && !x.isNan) xs * 2 ^ 40 +
    (if xs.any Num.isNan then 2 ^ 32 else 0) + lowBits 16 (groupExponent xs - ((p : Int) - 2))

/-- A list cut into its four groups of eight. -/
def groupsOf {α : Type} (xs : List α) : List (List α) := (List.range 4).map fun g => (xs.drop (8 * g)).take 8

/-- Whether x ranks at or above y (R184): NaN, infinities, then magnitudes. -/
def rankGe (x y : Num) : Bool :=
  match x, y with
  | .nan, _ => true
  | _, .nan => false
  | .inf _, _ => true
  | _, .inf _ => false
  | .fin _ m e, .fin _ n f =>
    match (Num.fin false m e).compare (.fin false n f) with
    | some .lt => false
    | _ => true

/-- The columns that a group of eight keeps, ascending (R184). -/
def keptColumns (n : Nat) (xs : List Num) : List Nat :=
  let order := sortBy (fun i j => rankGe (xs.getD i .nan) (xs.getD j .nan)) (List.range xs.length)
  sortBy (fun i j => decide (i ≤ j)) (order.take n)

/-- A group with its pruned elements +0.0. -/
def pruneGroup (n : Nat) (xs : List Num) : List Num :=
  xs.zipIdx.map fun x => if (keptColumns n xs).contains x.2 then x.1 else .fin false 0 0

/-! Footprints (R182). -/

/-- Whether an image has group records. -/
def Elem.grouped : Elem → Bool
  | .float _ => true
  | .mx _ => true
  | _ => false

/-- The element kind of a descriptor: a raw record's is an integer of P bits. -/
def TileDesc.kind (t : TileDesc) : Elem := if t.layout.raw then .int t.planes t.signed else elemOf t.format

/-- Bytes of planes, of metadata and of group records. -/
def TileDesc.planeBytes (t : TileDesc) : Nat :=
  if t.layout.sparse = 0 then 4 * t.planes * t.layout.rows else t.layout.sparse / 2 * t.planes * t.layout.rows
def TileDesc.metaBytes (t : TileDesc) : Nat := 2 * t.layout.sparse * t.layout.rows
def TileDesc.groupBytes (t : TileDesc) : Nat := if t.kind.grouped then 32 * t.layout.rows else 0
def TileDesc.footprint (t : TileDesc) : Nat := t.planeBytes + t.metaBytes + t.groupBytes

/-- The span of an image. -/
def TileDesc.span (t : TileDesc) : Span := ⟨t.scratch.toNat, t.footprint⟩

/-- The check of a footprint (R182, R198 order 4). -/
def State.checkFootprint (s : State) (t : TileDesc) : Except Bad Unit := s.fold.checkScratch 6 t.scratch.toNat t.footprint

/-! Building an image. -/

/-- A table of values by row and column. -/
abbrev Grid (α : Type) := List (List α)

def gridAt {α : Type} (g : Grid α) (d : α) (r c : Nat) : α := (g.getD r []).getD c d
/-- Rows become columns. -/
def flipGrid {α : Type} (g : Grid α) (d : α) : Grid α := (List.range 32).map fun c => (List.range g.length).map fun r => gridAt g d r c

/-- Plane words: word (b, r) holds in bit c the bit b of q (r, c). -/
def planeWords (p : Nat) (qs : Grid Int) : List Byte :=
  (List.range p).flatMap fun b => qs.flatMap fun row =>
    toBytes 4 ((row.zipIdx.map fun q => if (lowBits p q.1).testBit b then 2 ^ q.2 else 0).foldl (· + ·) 0)

/-- Sparse units and metadata: for each row the kept slots as column within the group and q. -/
def sparseUnits (p n : Nat) (slots : Grid (Nat × Int)) : List Byte :=
  (List.range p).flatMap fun b => slots.flatMap fun row =>
    toBytes (n / 2) ((row.zipIdx.map fun q => if (lowBits p q.1.2).testBit b then 2 ^ q.2 else 0).foldl (· + ·) 0)

def sparseMeta (n : Nat) (slots : Grid (Nat × Int)) : List Byte :=
  slots.flatMap fun row => toBytes (2 * n) ((row.zipIdx.map fun q => q.1.1 % 8 * 2 ^ (3 * q.2)).foldl (· + ·) 0)

/-- What a group of eight contributes to an image: q by column, the record, and the columns that it keeps. -/
structure FormedGroup where
  qs : List Int
  record : Nat
  kept : List Nat
  deriving DecidableEq, Repr

/-- The integer that a value of an integer, raw or LNS6 image is. -/
def wholeInt : Num → Int
  | .fin s m e => (if s then -1 else 1) * (roundTo 3 false m e false 0 : Int)
  | _ => 0

/-- A group of values, pruned to `n` of them unless `n` is 0. -/
def formGroup (p n : Nat) (grouped : Bool) (xs : List Num) : FormedGroup :=
  let ys := if n = 0 then xs else pruneGroup n xs
  { qs := ys.map fun y => if grouped then planeInt p (groupExponent ys) y else wholeInt y
    record := groupRecord p ys
    kept := if n = 0 then [] else keptColumns n xs }

/-- A group formed from bad data (R198): nothing of it is known. -/
def unknownGroup (n seed : Nat) : FormedGroup :=
  { qs := (List.range 8).map fun j => ((Config.freeWord (seed + j)).toNat : Int)
    record := (Config.freeDWord (seed + 8)).toNat
    kept := (List.range n).map fun j => Config.freeChoice (seed + 9 + j) % 8 }

/-- A value, with the number of the unknown in its place when its data is bad. -/
abbrev Datum := Num × Option Nat

/-- A group of data: all of it is unknown when one is and the group has a record or is pruned, and else the one. -/
def formData (p n : Nat) (grouped : Bool) (xs : List Datum) : FormedGroup :=
  match xs.findSome? fun x => x.2 with
  | none => formGroup p n grouped (xs.map fun x => x.1)
  | some seed =>
    if grouped || n != 0 then unknownGroup n seed
    else formGroup p 0 false (xs.map fun x => match x.2 with | none => x.1 | some k => Num.ofInt (Config.freeWord k).toNat)

/-- The slots of a row of a sparse image. -/
def groupSlots (gs : List FormedGroup) : List (Nat × Int) := gs.flatMap fun g => g.kept.map fun c => (c, g.qs.getD c 0)

/-- The image of a tile (R182): planes, metadata of a sparse image, and group records. Groups run along the rows, and in the B form
of a float or Microscaling image along the columns. -/
def tileImage (p n : Nat) (grouped kform : Bool) (xs : Grid Datum) : List Byte :=
  let flipped := grouped && kform
  let gs := (if flipped then flipGrid xs (.nan, none) else xs).map fun l => (groupsOf l).map (formData p n grouped)
  let lines := gs.map fun l => l.flatMap fun g => g.qs
  let rows := if flipped then flipGrid lines 0 else lines
  let slots := gs.map groupSlots
  (if n = 0 then planeWords p rows else sparseUnits p n slots ++ sparseMeta n slots) ++
    (if grouped then gs.flatMap fun l => l.flatMap fun g => toBytes 8 g.record else [])

/-! Reading an image back (R189). -/

/-- What a matrix instruction reads of a group: its scale term, the zero, sign and infinity masks, and NaN. -/
structure GroupInfo where
  t : Int
  zmask : Nat
  smask : Nat
  imask : Nat
  nan : Bool
  deriving DecidableEq, Repr

/-- The info of a group of integers. -/
def intGroup (qs : List Int) : GroupInfo :=
  let xs := qs.map Num.ofInt
  { t := 0, zmask := maskBits Num.isZero xs, smask := maskBits Num.isNeg xs, imask := 0, nan := false }

/-- The info that a record holds. -/
def recordGroup (x : Nat) : GroupInfo :=
  { t := signed 16 x, zmask := field x 56 8, smask := field x 48 8, imask := field x 40 8, nan := x.testBit 32 }

/-- A line of an operand: 32 values along K and four groups. -/
structure Line where
  q : List Int
  groups : List GroupInfo
  deriving DecidableEq, Repr

/-- The signedness of q (R185). -/
def TileDesc.qSigned (t : TileDesc) : Bool :=
  match t.binding, t.kind with
  | .registers, _ => t.signed
  | _, .int _ b => b
  | _, .float _ => true
  | _, .mx _ => true
  | _, _ => false

/-- A plane word's bits gathered: the value whose bit b is bit `c` of the b-th word. -/
def gather (isSigned : Bool) (words : List Nat) (c : Nat) : Int :=
  let x := (words.zipIdx.map fun w => if w.1.testBit c then 2 ^ w.2 else 0).foldl (· + ·) 0
  if isSigned then signed words.length x else x

/-- The q of a dense image, row by row. -/
def TileDesc.denseInts (t : TileDesc) (bs : List Byte) : Grid Int :=
  (List.range t.layout.rows).map fun r =>
    let words := (List.range t.planes).map fun b => recordNat bs (4 * (b * t.layout.rows + r)) 4
    (List.range 32).map fun c => gather t.qSigned words c

/-- The q of a sparse image with zeros at the pruned positions (R85). -/
def TileDesc.sparseInts (t : TileDesc) (bs : List Byte) : Grid Int :=
  let n := t.layout.sparse
  (List.range t.layout.rows).map fun r =>
    let units := (List.range t.planes).map fun b => recordNat bs (n / 2 * (b * t.layout.rows + r)) (n / 2)
    let info := recordNat bs (t.planeBytes + 2 * n * r) (2 * n)
    (List.range (4 * n)).foldl (fun row j => row.set (8 * (j / n) + field info (3 * j) 3) (gather t.qSigned units j)) (List.replicate 32 0)

/-- The lines of an image along K: rows of an A operand, columns of a B operand. -/
def TileDesc.lines (t : TileDesc) (roleB : Bool) (bs : List Byte) : List Line :=
  let grid := if t.layout.sparse = 0 then t.denseInts bs else t.sparseInts bs
  let qs := if roleB then flipGrid grid 0 else grid
  let at_ := t.planeBytes + t.metaBytes
  qs.zipIdx.map fun l =>
    { q := l.1
      groups := if t.kind.grouped then (List.range 4).map fun g => recordGroup (recordNat bs (at_ + 32 * l.2 + 8 * g) 8)
        else (groupsOf l.1).map intGroup }

/-- The lines of a register-bound A operand: plane b of row r is lane r of v(K + b) (R179). -/
def Flock.registerLines (f : Flock) (t : TileDesc) : List Line :=
  (List.range 32).map fun r =>
    let words := (List.range t.planes).map fun b =>
      (f.lane (BitVec.ofNat 6 (t.vbase + b)) ⟨r % 32, Nat.mod_lt _ (by decide)⟩).toNat
    let q := (List.range 32).map fun c => gather t.signed words c
    { q := q, groups := (groupsOf q).map intGroup }

end Sys2Proof.Machine
end

