-- ==== Sys2Proof/Machine/Sync.lean ====
section
/-!
DEFINITION. Waits, barriers, halt and sleep, majors 0x15 and 0x16 (R139 to R143), and the software traps, major 0x17 (R144).
-/
namespace Sys2Proof.Machine

/-- Whether the counters are at or below four bounds (R139). -/
def Flock.within (f : Flock) (l s c t : Nat) : Bool :=
  decide (f.count .loads ≤ l) && decide (f.count .stores ≤ s) && decide (f.count .copies ≤ c) && decide (f.count .tiles ≤ t)

/-- The current flock gets a status, its program counter unchanged. -/
def State.setStatus (s : State) (st : Status) : State := { s with cur := { s.cur with status := st } }

def execWait (l st : BitVec 5) (c t : BitVec 4) (s : State) : Result :=
  if s.cur.within l.toNat st.toNat c.toNat t.toNat then done s
  else .next (s.setStatus (.blocked (.wait l.toNat st.toNat c.toNat t.toNat)))

/-- A barrier (R141): it waits until the stores counter is 0, and arrives. A supervisor belongs to no fold, so its barrier is
passed at once (log entry 14). -/
def barrier (cluster commit : Bool) (s : State) : Result :=
  if s.cur.count .stores ≠ 0 then .next (s.setStatus (.blocked .storesDone))
  else if s.cur.supervises then done s
  else .next (s.setStatus (.barrier cluster commit))

def execBar (s : State) : Result := barrier false false s

/-- Whether the current fold belongs to a cluster gang (R23). -/
def State.ganged (s : State) : Bool := match s.launch with | some l => l.hdr.gangSize != 0 | none => false

/-- Without a cluster gang `bar.cl` acts as `bar` (R141). -/
def execBarCl (s : State) : Result := barrier s.ganged false s

/-- `commit` writes the buffer in deterministic and restartable launches, and otherwise acts as `bar` (R140, R66). -/
def execCommit (s : State) : Result := barrier false s.buffered s

/-- The flock ends once all its counters are 0: FLOCK_END (R142). -/
def execHalt (s : State) : Result := .next (s.setStatus .halting)

def execNop (s : State) : Result := done s

/-- A pending wake, or a time already reached, ends the sleep at once (R143, R236). -/
def execSleep (k : BitVec 5) (s : State) : Result :=
  let till := s.cur.getS k
  if s.cur.wakePending then done { s with cur := { s.cur with wakePending := false } }
  else if till ≠ 0 ∧ till ≤ s.time then done s
  else .next (s.setStatus (.sleeping till))

/-- A software trap: the instruction completes under R136, and the saved address is the next one (R138, R144). -/
def softTrap (kind : BitVec 8) (n : BitVec 6) (s : State) : Result :=
  .next (s.advance.takeTrap { kind := kind, detail := n.setWidth 8 } s.advance.cur.pc)

def execTrap (n : BitVec 6) (s : State) : Result := softTrap 0x02 n s
def execSys (n : BitVec 6) (s : State) : Result := softTrap 0x03 n s
/-- `brk` saves its own address and never completes (R138, R144). -/
def execBrk (n : BitVec 6) (s : State) : Result := .next (s.trapHere { kind := 0x04, detail := n.setWidth 8 })

/-- `eret` (R109, R111, R144, R294): an odd `epc` is cause 0x08, and a flock that is not privileged or not in a routine entered
through a vector is cause 0x06. -/
def execEret (s : State) : Result :=
  if s.cur.epc.getLsbD 0 then .next (s.illegalHere 0x08)
  else if !s.cur.privileged || s.cur.routine == .none then .next (s.illegalHere 0x06)
  else .next s.leaveRoutine

end Sys2Proof.Machine
end

