-- ==== Sys2Proof/Machine/TileLoad.lean ====
section
/-!
DEFINITION. Tile loads, major 0x21 (R185, R186). A load is performed when it issues; it counts until TILE_LOAD_COMPLETE.
-/
namespace Sys2Proof.Machine

/-- The forms of R185. -/
inductive LoadForm where
  | plain | transposed | sparse | raw
  deriving DecidableEq, Repr

/-- What a form requires of its descriptor (R185). -/
def TileDesc.loadOk (t : TileDesc) (f : LoadForm) : Bool :=
  t.binding == .scratch && t.layout.raw == (f == .raw) &&
  (if f = .sparse then (t.layout.sparse == 2 || t.layout.sparse == 4) && !t.layout.kform && t.kind != .lns else t.layout.sparse == 0)

/-- The width of an element of a descriptor (R178). -/
def TileDesc.width (t : TileDesc) : Nat := if t.layout.raw then t.planes else (elemOf t.format).width

/-- The bytes of an element of a tile load. -/
def TileDesc.loadTouch (t : TileDesc) (c : Context) (bit : Nat) : List Touch :=
  if t.layout.raw then bitTouches bit t.width .raw else elemTouches c t.format false bit

/-- The value that a tile load takes from an element: decoded as `ld.e` does; raw bits and LNS6 codes as integers (R185). -/
def State.tileValue (s : State) (t : TileDesc) (e : EntryBytes) : Num :=
  let x := s.loadBits e.2 e.1.bit t.width
  match t.kind with
  | .int n b => Num.ofInt (if b then signed n x else x)
  | .lns => Num.ofInt x
  | .float f => f.decode x
  | .mx f => f32 ((Elem.mx f).word s.cur.sat (s.loadScale (.mx f) e.2 e.1.bit) x)
  | _ => .nan

/-- What a pad entry reads as: zero (R181), whose code in an LNS6 image is 0b01_0000 (R69, log entry 111). -/
def TileDesc.padValue (t : TileDesc) : Num := match t.kind with | .lns => Num.ofInt 16 | _ => .fin false 0 0

/-- The data of a tile by row and column: pad reads zero (R181). -/
def State.tileGrid (s : State) (t : TileDesc) (es : List EntryBytes) (seed : Nat) : Grid Datum :=
  (List.range t.layout.rows).map fun r =>
    let row := es.filter fun e => e.1.row == r
    (List.range 32).map fun c =>
      match row.find? fun e => e.1.col == c with
      | none => (t.padValue, none)
      | some e => (s.tileValue t e, if s.broken != [] && e.2.any fun b => s.badByte b.2 (elemBits e.1.bit t.width b.1) then some (seed + 32 * (32 * r + c)) else none)

/-- The image that a load builds. -/
def State.loadImage (s : State) (t : TileDesc) (es : List EntryBytes) (seed : Nat) : List Byte :=
  tileImage t.planes t.layout.sparse t.kind.grouped t.layout.kform (s.tileGrid t es seed)

/-- A tile load (R185, R186): its elements are read when it issues, of the moments that R186 allows (log entry 118). -/
def tileLoad (form : LoadForm) (n : BitVec 4) (s : State) : Result :=
  let t := s.cur.getTd n
  let turned := form == .transposed
  s.settle (do
    s.room .copies
    if !t.loadOk form || t.outOfExtent turned then .error (engineFault 0x19) else
    let es := t.entries turned t.width (t.loadTouch s.scaleBases)
    let plan ← s.checkEntries Need.engineRead es (s.checkFootprint t) t.layout.raw false false false
    let fault := plan.findSome? fun e => s.laneCheck 6 (elemBits e.1.bit t.width) (none, e.2)
    let (seed, s1) := if fault.isSome then s.draw 32768 else (0, s)
    let bytes := s1.loadImage t plan seed
    let s2 := (s1.softRecord fault).scratchWrite s.cur.fold t.scratch.toNat bytes false
    .ok (s2.issue (fun o => { o with writes := [t.span], fault := fault, places := plan.flatMap fun e => e.2.map fun b => b.2 }) .copies).advance)

def execTload (t : BitVec 4) (s : State) : Result := tileLoad .plain t s
def execTloadT (t : BitVec 4) (s : State) : Result := tileLoad .transposed t s
def execTloadSp (t : BitVec 4) (s : State) : Result := tileLoad .sparse t s
def execTloadRaw (t : BitVec 4) (s : State) : Result := tileLoad .raw t s

/-- The oldest operation of a class that is not complete and satisfies a test. -/
def Flock.oldest (f : Flock) (c : Class) (p : PendOp → Bool) : Option PendOp := f.pend.find? fun o => o.cls == c && !o.done && p o

/-- The oldest such operation of a flock that does not wait for tokens at its core's port completes (R314). -/
def State.completeOldest (s : State) (flock : Nat) (c : Class) (p : PendOp → Bool) : State :=
  match (s.flock? flock).bind fun f => f.oldest c fun o => p o && !s.atPort (.op o.id) with
  | none => s
  | some o => s.complete flock o.id

/-- Event: the image of a flock's oldest tile load is written whole (R186). -/
def execTileLoadComplete (flock : Nat) (s : State) : Result :=
  .next (s.completeOldest flock .copies fun o => !o.writes.isEmpty && o.job.isNone)

end Sys2Proof.Machine
end

