-- ==== Sys2Proof/Machine/TileStore.lean ====
section
/-!
DEFINITION. Tile stores, major 0x22 (R196, R197), and what becomes of an accumulator tile that is touched while an operation on it is
under way (R117, R193).
-/
namespace Sys2Proof.Machine

/-! Tiles under way. -/

/-- The tiles of the flock's matrix instructions under way that write one of some tiles. -/
def Flock.matrixTiles (f : Flock) (ts : List Nat) : List Nat :=
  (f.pend.filter fun o => !o.done && o.matrix && o.tiles.any fun t => ts.contains t).flatMap fun o => o.tiles

/-- Whether an operation under way writes one of some tiles. -/
def PendOp.onTiles (o : PendOp) (ts : List Nat) : Bool := !o.done && o.tiles.any fun t => ts.contains t

/-- Whether an accumulator instruction under way of the current flock, or any operation under way of another flock of its fold, writes one of some tiles
(R93, R117, R193). -/
def State.tileBusy (s : State) (ts : List Nat) : Bool :=
  (s.cur.pend.any fun o => !o.matrix && o.onTiles ts) ||
  s.allFlocks.any fun g => g.fold == s.cur.fold && g.id != s.cur.id && g.pend.any fun o => o.onTiles ts

/-- Whether a matrix instruction under way of the flock writes one of some tiles. -/
def Flock.matrixRead (f : Flock) (ts : List Nat) : Bool := !(f.matrixTiles ts).isEmpty

/-- Whether a read of some tiles gives an undefined value (R117, R193). -/
def State.earlyRead (s : State) (ts : List Nat) : Bool := s.cur.matrixRead ts || s.tileBusy ts

/-- An unknown accumulator entry. -/
def freshPair (n : Nat) : Pair := { s := Config.freeWord n, c := Config.freeWord (n + 1) }

/-- `n` free values where they are needed. -/
def State.drawIf (s : State) (needed : Bool) (n : Nat) : Nat × State := if needed then s.draw n else (0, s)

/-- The tiles that such a read leaves undefined. -/
def State.spoilRead (s : State) (ts : List Nat) : State :=
  if (s.cur.matrixTiles ts).isEmpty then s else s.spoilTiles s.cur.fold (s.cur.matrixTiles ts)

/-- An accumulator tile of a fold. -/
def Fold.tile (f : Fold) (t : Nat) : Tile := f.accs[t]?.getD (Vector.replicate 256 {})

def Fold.setTile (f : Fold) (t : Nat) (x : Tile) : Fold := { f with accs := f.accs.setIfInBounds t x }

/-- Entry (r, n) of a tile. -/
def tileAt (x : Tile) (r n : Nat) : Pair := x[32 * r + n]?.getD {}

/-- Whether a tile number lies within the fold's accumulator granules (R96). -/
def State.tileOk (s : State) (t : Nat) : Bool := decide (t < 16 * s.fold.acc)

/-- Whether an accumulator entry holds an uncorrectable error (R303). -/
def State.badEntry (s : State) (t r n : Nat) : Bool := s.broken.contains (.accumulator s.cur.fold t r n)

/-! Tile stores. -/

/-- The forms of R196. -/
inductive StoreForm where
  | plain | transposed | pair | add
  deriving DecidableEq, Repr

/-- The exact value s + c of an entry (R87), with the sign of an exact zero under mode 1 as any sum has it (log entry 11). -/
def Pair.sum (p : Pair) (rm : BitVec 2) : Flagged Num := (f32 p.s).add rm (f32 p.c)

/-- The tiles that a store reads: one for 8 rows, four for 32. -/
def TileDesc.storeTiles (t : TileDesc) (m : Nat) : List Nat := if t.layout.rows = 8 then [m] else [m, m + 1, m + 2, m + 3]

/-- What a tile store needs of its descriptor and accumulator (R196). -/
def TileDesc.storeOk (t : TileDesc) (m : Nat) : Bool :=
  t.binding == .scratch && !t.layout.raw && t.layout.sparse == 0 && (t.layout.rows != 32 || m % 4 == 0)

/-- The bytes of an element of a tile store. -/
def TileDesc.storeTouch (t : TileDesc) (c : Context) (form : StoreForm) (bit : Nat) : List Touch :=
  match form with
  | .pair => bitTouches bit 64 .raw
  | .add => bitTouches bit t.width (.typed t.format (t.format == 1))
  | _ => elemTouches c t.format false bit

/-- The accumulator entry that goes to an element. -/
def State.storePair (s : State) (m : Nat) (e : Entry) : Pair := tileAt (s.fold.tile (m + e.row / 8)) (e.row % 8) e.col

/-- The writes of `tstore` and `tstore.t`. -/
def State.plainTile (s : State) (t : TileDesc) (m : Nat) (es : List EntryBytes) : List (Flagged (List BitWrite)) :=
  let kind := elemOf t.format
  s.typedWrites kind (es.map fun e =>
    let v := (s.storePair m e.1).sum s.cur.rm
    let r := kind.encodeNum s.cur.rm s.cur.sat (s.loadScale kind e.2 e.1.bit) v.val
    { bit := e.1.bit, places := e.2, num := v.val, alone := { r with nv := r.nv || v.nv } })

/-- The writes of `tstore.pair`: s, then c. -/
def State.pairTile (s : State) (m : Nat) (es : List EntryBytes) : List (Flagged (List BitWrite)) :=
  es.map fun e => let p := s.storePair m e.1; { val := bitWrites e.2 e.1.bit 64 (p.s.toNat + 2 ^ 32 * p.c.toNat) }

/-- The addends of `tstore.add`: RN(s + c) in FP32 under `fcr`. -/
def State.addends (s : State) (m : Nat) (es : List EntryBytes) : List (List (Addr × Nat) × Flagged Word) :=
  es.map fun e =>
    let v := (s.storePair m e.1).sum s.cur.rm
    let r := fp32.encode s.cur.rm s.cur.sat v.val
    (e.2, { val := BitVec.ofNat 32 r.val, ofl := r.ofl, nv := r.nv || v.nv })

/-- Bit writes with unknown data: every enabled bit of the k-th takes one of the k-th unknown byte. -/
def unknownWrites (n : Nat) (ws : List BitWrite) : List BitWrite := ws.zipIdx.map fun w => { w.1 with data := Config.freeByte (n + w.2) }

/-- The entries of a tile store that are formed with one: the whole block of a Microscaling element that the store names whole (R80), else
the entry alone. -/
def blockMates (e : Elem) (es : List EntryBytes) (x : EntryBytes) : List EntryBytes :=
  match e with
  | .mx f =>
    let block := fun (y : EntryBytes) => y.1.bit / (32 * f.width)
    if blockWhole (es.map fun y => y.1.bit) f.width (block x) then es.filter fun y => block y == block x else [x]
  | _ => [x]

/-- The entries of a store whose value is unknown: those in error, and those of a tile that an operation under way writes which is no matrix
instruction of the flock (R117, R198). -/
def State.badEntries (s : State) (m : Nat) (es : List EntryBytes) : List EntryBytes :=
  es.filter fun e => s.badEntry (m + e.1.row / 8) (e.1.row % 8) e.1.col || s.tileBusy [m + e.1.row / 8]

/-- Whether a later entry of a plain store reaches the element of one, and supplies its value (R181). -/
def supplied (es : List EntryBytes) (e : EntryBytes) : Bool :=
  es.any fun x => x.1.bit == e.1.bit && (decide (e.1.row < x.1.row) || (x.1.row == e.1.row && decide (e.1.col < x.1.col)))

/-- The writes of a tile store, those at some bytes and bits unknown. -/
def State.hideWrites (s : State) (hide : BitWrite → Bool) (ws : List BitWrite) : List BitWrite × State :=
  if ws.any hide then
    let (n, s1) := s.draw ws.length
    ((ws.zip (unknownWrites n ws)).map fun w => if hide w.1 then w.2 else w.1, s1)
  else (ws, s)

/-- FP32 additions at locations in order, each seeing the one before (R161, R162); a location in error is not written (log entry 15). -/
def State.addAll (s : State) (xs : List (List Nat × Word)) : List (Nat × Byte) :=
  xs.foldl (fun t x =>
    if x.1.any fun a => s.broken.contains (.line (a / 64 * 64)) then t else
    let old := fromBytes (x.1.map fun a => (lookup t a).getD (s.read a))
    let new := toBytes 4 (f32Add 0 (BitVec.ofNat 32 old) x.2).val.toNat
    (x.1.zip new).foldl (fun u c => store u c.1 c.2) t) []

/-- The held reductions of a tile store: one entry for each line, ascending address within it (R197). -/
def tileReductions (fieldNo : Nat) (tag : BitVec 16) (pc : Addr) (op : Nat) (xs : List HeldAdd) : List CommitEntry :=
  ((xs.map fun x => x.address / 64 * 64).eraseDups).map fun line =>
    .reduction fieldNo true (sortBy (fun x y => decide (x.address ≤ y.address)) (xs.filter fun x => x.address / 64 * 64 == line)) tag pc op

/-- An addend of a tile store as the commit buffer holds it. -/
def heldAddend (bs : List (Addr × Nat)) (x : Word) : HeldAdd :=
  { address := (bs.map fun b => b.2).headD 0, value := x, lane := none, va := (bs.map fun b => b.1).headD 0 }

/-- The first error among the accumulator entries that a store reads (R303). -/
def State.storeError (s : State) (m : Nat) (es : List EntryBytes) : Option TrapInfo :=
  if s.broken != [] && es.any fun e => s.badEntry (m + e.1.row / 8) (e.1.row % 8) e.1.col then
    some { kind := 0x30, access := 6 }
  else none

/-- Entries of the buffer that writes to some lines take. -/
def Flock.newLines (f : Flock) (ws : List BitWrite) : Nat :=
  ((ws.map fun w => w.address / 64 * 64).eraseDups.filter fun l => !(bufferLines f.buf).contains l).length

/-- The commit-overflow of a tile store (R197, R198 order 7). -/
def roomFor (room : Option Nat) (n : Nat) : Except Bad Unit :=
  match room with
  | some k => if n ≤ k then .ok () else .error (engineFault 0x21)
  | none => .ok ()

/-- A tile store whose entries passed their checks. Where a matrix instruction under way writes one of its tiles, every element is unknown
(R193). -/
def State.storeTile (s : State) (t : TileDesc) (form : StoreForm) (m : Nat) (es : List EntryBytes) : Except Bad State :=
  let tiles := t.storeTiles m
  let places := es.flatMap fun e => e.2.map fun b => b.2
  let all := !(s.cur.matrixTiles tiles).isEmpty
  let bad := s.badEntries m es
  if form = .add then
    let (n, s0) := if all || !bad.isEmpty then s.draw es.length else (0, s)
    let xs := ((es.zip (s.addends m es)).zipIdx).map fun x =>
      (x.1.2.1, if all || bad.contains x.1.1 then Config.freeWord (n + x.2) else x.1.2.2.val)
    let flags := (s.addends m es).map fun x => x.2
    let mk := fun (fault : Option TrapInfo) (o : PendOp) =>
      { o with ofFlag := flags.any fun x => x.ofl, nvFlag := flags.any fun x => x.nv, fault := fault, places := if s.determ then [] else places }
    let fault := s.storeError m es
    if s.determ then
      let rs := tileReductions s.cur.field s.cur.ttag s.cur.pc s.nextId (xs.map fun x => heldAddend x.1 x.2)
      do
        roomFor s.bufferRoom rs.length
        .ok (({ s0 with cur := { s0.cur with buf := s0.cur.buf ++ rs } }.softRecord fault).issue (mk fault) .copies |>.spoilRead tiles)
    else
      let found := fault.or (s.machineCheck 6 (es.map fun e => (none, e.2)))
      let s1 := s0.homeWrite places fun u =>
        u.write (u.addAll (xs.map fun x => (x.1.map fun b => b.2, x.2))) s.cur.ttag (s.agent s.cur).ctx s.cur.secure
      .ok (((s1.softRecord found).issue (mk found) .copies).flying s places |>.spoilRead tiles)
  else
    let write := fun (xs : List EntryBytes) => if form = .pair then s.pairTile m xs else s.plainTile t m xs
    let ws := write es
    let formed := ((bad.filter fun e => !supplied es e).flatMap fun e => write (if form = .pair then [e] else blockMates (elemOf t.format) es e)).flatMap fun w => w.val
    let hide := fun (w : BitWrite) => all || formed.any fun x => x.address == w.address && x.enable == w.enable
    let (bits, s0) := s.hideWrites hide (ws.flatMap fun w => w.val)
    let fault := s.storeError m es
    let out := if s.buffered then [] else places
    do
      roomFor s.bufferRoom (s.cur.newLines bits)
      .ok ((((s0.storeBits bits).softRecord fault).issue (fun o => { o with
        ofFlag := ws.any fun w => w.ofl, nvFlag := ws.any fun w => w.nv, fault := fault, places := out }) .copies).flying s out |>.spoilRead tiles)

/-- A tile store (R196, R197). -/
def tileStore (form : StoreForm) (n : BitVec 4) (c : BitVec 6) (s : State) : Result :=
  let t := s.cur.getTd n
  let m := c.toNat
  let turned := form == .transposed
  if !s.tileOk m then .next (s.illegalHere 0x05) else
  s.settle (do
    s.room .copies
    if !t.storeOk m || t.outOfExtent turned then .error (engineFault 0x19) else
    let w := if form = .pair then 64 else t.width
    let es := t.entries turned w (t.storeTouch s.scaleBases form)
    let barred := form == .add && s.buffered && !s.determ && !(s.cur.buf.isEmpty && s.fold.buf.isEmpty)
    let held := if form = .add then s.determ else s.buffered
    let plan ← s.checkEntries Need.engineWrite es (.ok ()) (form == .pair) (form == .add) barred held
    let t ← s.storeTile t form m plan
    .ok t.advance)

def execTstore (t : BitVec 4) (c : BitVec 6) (s : State) : Result := tileStore .plain t c s
def execTstoreT (t : BitVec 4) (c : BitVec 6) (s : State) : Result := tileStore .transposed t c s
def execTstorePair (t : BitVec 4) (c : BitVec 6) (s : State) : Result := tileStore .pair t c s
def execTstoreAdd (t : BitVec 4) (c : BitVec 6) (s : State) : Result := tileStore .add t c s

/-- Event: a flock's oldest tile store has written its elements (R197). -/
def execTileStoreComplete (flock : Nat) (s : State) : Result :=
  .next (s.completeOldest flock .copies fun o => o.writes.isEmpty && o.job.isNone)

end Sys2Proof.Machine
end

