-- ==== Sys2Proof/Machine/Matrix.lean ====
section
/-!
DEFINITION. The matrix instructions, major 0x23 (R187 to R193), with the products of R84, R89 and R90. A product is formed when its
instruction issues; it counts until TILE_OPERATION_COMPLETE, and what may change its operands in between leaves its tiles
undefined (R192).
-/
namespace Sys2Proof.Machine

/-- The modes of R188. -/
inductive Mode where
  | mma | mms | mml | xor | and
  deriving DecidableEq, Repr

/-! Group products. -/

/-- The sign of an FP32 word inverted; NaN stays canonical. -/
def negWord (x : Word) : Word := if (f32 x).isNan then 0x7FC00000 else x ^^^ 0x80000000

/-- A signed integer times a power of two, rounded once to FP32. -/
def rneScaled (x : Int) (e : Int) : Word := rne32 (.fin (decide (x < 0)) x.natAbs e)

/-- The exact integer dot product. -/
def dot (xs ys : List Int) : Int := (xs.zip ys).foldl (fun acc p => acc + p.1 * p.2) 0

/-- The product of a group with a non-finite element (R84); none where every element is finite. -/
def specialProduct (a b : GroupInfo) : Option Num :=
  let js := List.range 8
  let inf := fun j => a.imask.testBit j || b.imask.testBit j
  let bad := fun j => (a.imask.testBit j && b.zmask.testBit j) || (b.imask.testBit j && a.zmask.testBit j)
  let sign := fun j => a.smask.testBit j != b.smask.testBit j
  if a.nan || b.nan then some .nan
  else if js.any bad then some .nan
  else if js.any fun j => inf j && sign j then (if js.any fun j => inf j && !sign j then some .nan else some (.inf true))
  else if js.any inf then some (.inf false)
  else none

/-- The group product of the plane path (R84), negated where the modifiers say so (R189). -/
def planeProduct (neg : Bool) (qa qb : List Int) (a b : GroupInfo) : Word :=
  match specialProduct a b with
  | some x => if neg then negWord (rne32 x) else rne32 x
  | none => rneScaled (if neg then -dot qa qb else dot qa qb) (a.t + b.t)

/-- The product of two LNS6 codes in units of 2^-20 (R89); none for NaN. -/
def lnsProduct (x y : Nat) : Option Int :=
  if (lnsDecode x).isNan || (lnsDecode y).isNan then none
  else if (lnsDecode x).isZero || (lnsDecode y).isZero then some 0
  else
    let l := lnsLog x + lnsLog y
    let q : Int := lnsTable (l % 4).toNat * 2 ^ (l / 4 + 8).toNat
    some (if x.testBit 5 != y.testBit 5 then -q else q)

/-- The group product of the LNS6 path (R89). -/
def lnsGroup (neg : Bool) (qa qb : List Int) : Word :=
  let ps := (qa.zip qb).map fun p => lnsProduct p.1.toNat p.2.toNat
  if ps.any Option.isNone then 0x7FC00000
  else
    let g := ps.foldl (fun (acc : Int) p => acc + p.getD 0) 0
    rneScaled (if neg then -g else g) (-20)

/-- The groups of two lines, paired. -/
def groupPairs (a b : Line) : List ((List Int × GroupInfo) × (List Int × GroupInfo)) :=
  ((groupsOf a.q).zip a.groups).zip ((groupsOf b.q).zip b.groups)

/-- The four products of an entry, ascending K. -/
def products (mode : Mode) (neg : Bool) (a b : Line) : List Word :=
  (groupPairs a b).map fun g =>
    if mode = .mml then lnsGroup neg g.1.1 g.2.1 else planeProduct neg g.1.1 g.2.1 g.1.2 g.2.2

/-- Products enter the pair in order; with accumulate-disable the first replaces it (R87, R189). -/
def accumulate (az : Bool) (old : Pair) (ps : List Word) : Pair :=
  match az, ps with
  | true, p :: rest => rest.foldl twoSum { s := p, c := 0 }
  | _, _ => ps.foldl twoSum old

/-- The count of a binary mode (R90): the stored bits alone. -/
def bitCount (mode : Mode) (a b : Line) : Nat :=
  ((a.q.zip b.q).filter fun p => if mode = .xor then lowBits 1 p.1 != lowBits 1 p.2 else lowBits 1 p.1 == 1 && lowBits 1 p.2 == 1).length

/-- One entry of a quarter operation (R189). -/
def entryUpdate (mode : Mode) (neg az : Bool) (a b : Line) (old : Pair) : Pair :=
  match mode with
  | .xor => { s := (if az then 0 else old.s) + BitVec.ofNat 32 (bitCount mode a b), c := 0 }
  | .and => { s := (if az then 0 else old.s) + BitVec.ofNat 32 (bitCount mode a b), c := 0 }
  | _ => accumulate az old (products mode neg a b)

/-- A quarter operation on a tile: eight A rows against 32 B columns. -/
def quarter (mode : Mode) (neg az : Bool) (as bs : List Line) (old : Tile) : Tile :=
  Vector.ofFn fun i : Fin 256 =>
    match as[i.val / 32]?, bs[i.val % 32]? with
    | some a, some b => entryUpdate mode neg az a b (tileAt old (i.val / 32) (i.val % 32))
    | _, _ => tileAt old (i.val / 32) (i.val % 32)

/-! Operands (R188). -/

/-- The formats that a mode accepts; register-bound operands have none. -/
def TileDesc.modeFormat (t : TileDesc) (mode : Mode) : Bool :=
  t.binding == .registers ||
  (match mode, t.kind with
   | .mml, .lns => true
   | .mml, _ => false
   | .xor, .int 1 _ => true
   | .xor, _ => false
   | .and, .int 1 _ => true
   | .and, _ => false
   | _, .lns => false
   | _, _ => true)

/-- Binding, row count, sparsity and K form of tdA. R188 names no sparsity for `mmx` and `mml`, whose tdA `tload` must have loaded: N = 2 or 4
is refused there; and `mms` takes a raw record of N = 2 or 4, which `tload.sp` cannot have loaded, as it stands (log entry 75). -/
def TileDesc.operandA (t : TileDesc) (mode : Mode) (oneTile : Bool) : Bool :=
  match t.binding with
  | .unbound => false
  | .registers => mode == .mma
  | .scratch =>
    t.layout.rows == (if oneTile then 8 else 32) && !(t.kind.grouped && t.layout.kform) &&
      (if mode = .mms then t.layout.sparse == 2 || t.layout.sparse == 4 else t.layout.sparse == 0)

/-- The same of tdB. -/
def TileDesc.operandB (t : TileDesc) : Bool :=
  t.binding == .scratch && t.layout.rows == 32 && t.layout.sparse == 0 && (!t.kind.grouped || t.layout.kform)

/-- The span of a scratch-bound operand. -/
def TileDesc.spans (t : TileDesc) : List Span := if t.binding = .scratch then [t.span] else []

/-- The registers of a register-bound operand. -/
def TileDesc.regs (t : TileDesc) : List (BitVec 6) :=
  if t.binding = .registers then (List.range t.planes).map fun b => BitVec.ofNat 6 (t.vbase + b) else []

def State.checkOperand (s : State) (t : TileDesc) : Except Bad Unit :=
  if t.binding = .scratch then s.checkFootprint t else .ok ()

/-- The checks of the operands, in the order of R198. -/
def State.checkOperands (s : State) (mode : Mode) (oneTile : Bool) (a b : TileDesc) : Except Bad Unit := do
  if !(a.operandA mode oneTile && b.operandB) then .error (engineFault 0x19) else
  s.checkOperand a
  s.checkOperand b
  if !(a.modeFormat mode && b.modeFormat mode) then .error (engineFault 0x14) else .ok ()

/-- The lines of an operand as scratch and the registers hold them. -/
def State.operandLines (s : State) (t : TileDesc) (roleB : Bool) : List Line :=
  if t.binding = .registers then s.cur.registerLines t
  else t.lines roleB (s.ownScratch t.scratch.toNat t.footprint)

/-- Whether two spans of scratch meet. -/
def Span.meets (x y : Span) : Bool := overlap x.base x.len y.base y.len

/-- Whether an operand image is being written, or was written by a store that no `tfence` of the flock followed (R191, R192). -/
def State.imageUnsettled (s : State) (t : TileDesc) : Bool :=
  t.spans.any fun x =>
    (s.cur.unfenced.any fun y => x.meets y) ||
    s.allFlocks.any fun f => f.fold == s.cur.fold && f.pend.any fun o => !o.done && o.writes.any fun y => x.meets y

/-- The machine check of operands and accumulators in error (R303). -/
def State.matrixError (s : State) (ts : List Nat) (az : Bool) (a b : TileDesc) : Option TrapInfo :=
  if s.broken = [] then none else
  let spans := a.spans ++ b.spans
  match spans.findSome? fun x => ((List.range x.len).find? fun k => s.scratchBad s.cur.fold (x.base + k)).map fun k => x.base + k with
  | some a => some { kind := 0x30, access := 6, addr := BitVec.ofNat 72 a }
  | none =>
    if !az && ts.any fun t => (List.range 256).any fun i => s.badEntry t (i / 32) (i % 32) then some { kind := 0x30, access := 6 } else none

/-! The instruction. -/

/-- The quarters that take part in a flock-wide form (R187). -/
def Flock.quarters (f : Flock) (g : BitVec 3) : List Nat :=
  (List.range 4).filter fun q => (f.active g).extractLsb' (8 * q) 8 != 0

/-- Tiles take new contents in turn: the k-th of the list from the A rows 8 r on. -/
def Fold.multiply (fd : Fold) (mode : Mode) (neg az : Bool) (as bs : List Line) : List (Nat × Nat) → Fold
  | [] => fd
  | (t, r) :: rest => Fold.multiply (fd.setTile t (quarter mode neg az ((as.drop (8 * r)).take 8) bs (fd.tile t))) mode neg az as bs rest

/-- A matrix instruction that takes part, on the tiles of `work` with the A rows of each (R189). Operands under way leave every tile of it
undefined (R192), and an accumulator instruction under way, or an operation of another flock, the tile that it writes (R117, R193). -/
def State.multiply (s : State) (mode : Mode) (neg az : Bool) (a b : TileDesc) (work : List (Nat × Nat)) : State :=
  let ts := work.map fun w => w.1
  let fault := s.matrixError ts az a b
  let unsettled := s.imageUnsettled a || s.imageUnsettled b || a.regs.any fun r => s.cur.busy (Dest.isVector r)
  let spoiled := ts.filter fun t => unsettled || s.tileBusy [t]
  let s1 := if fault.isSome then s else
    s.setFold (s.fold.multiply mode neg az (s.operandLines a false) (s.operandLines b true) work)
  let s2 := s1.spoilTiles s.cur.fold spoiled
  (s2.softRecord fault).issue (fun o => { o with
    tiles := ts, matrix := true, reads := a.spans ++ b.spans, readRegs := a.regs, fault := fault }) .tiles

/-- Whether an operation that a `tfence` covers is not complete (R191). -/
def Flock.fencedWork (f : Flock) : Bool := f.pend.any fun o => !o.done && o.fenced

/-- A matrix instruction: `m` the first tile, `oneTile` the quarter form. -/
def matrixOp (mode : Mode) (oneTile : Bool) (m : Nat) (ta tb : BitVec 4) (na nb z : BitVec 1) (g : BitVec 3) (s : State) : Result :=
  let tiles := if oneTile then [m] else [m, m + 1, m + 2, m + 3]
  if !(tiles.all s.tileOk) then .next (s.illegalHere 0x05) else
  let work := if oneTile then (if s.cur.active g = 0 then [] else [(m, 0)]) else (s.cur.quarters g).map fun q => (m + q, q)
  if work.isEmpty then done s else
  let a := s.cur.getTd ta
  let b := s.cur.getTd tb
  s.settle (do
    if s.cur.fencedWork then .error (.block .operands) else
    s.room .tiles
    s.checkOperands mode oneTile a b
    .ok (s.multiply mode (na != nb) (z == 1) a b work).advance)

def execMma (c ta tb : BitVec 4) (m n z : BitVec 1) (g : BitVec 3) (s : State) : Result := matrixOp .mma false (4 * c.toNat) ta tb m n z g s
def execMmxXor (c ta tb : BitVec 4) (z : BitVec 1) (g : BitVec 3) (s : State) : Result := matrixOp .xor false (4 * c.toNat) ta tb 0 0 z g s
def execMmxAnd (c ta tb : BitVec 4) (z : BitVec 1) (g : BitVec 3) (s : State) : Result := matrixOp .and false (4 * c.toNat) ta tb 0 0 z g s
def execMms (c ta tb : BitVec 4) (m n z : BitVec 1) (g : BitVec 3) (s : State) : Result := matrixOp .mms false (4 * c.toNat) ta tb m n z g s
def execMml (c ta tb : BitVec 4) (m n z : BitVec 1) (g : BitVec 3) (s : State) : Result := matrixOp .mml false (4 * c.toNat) ta tb m n z g s
def execMmaQ (c : BitVec 6) (ta tb : BitVec 4) (m n z : BitVec 1) (g : BitVec 3) (s : State) : Result := matrixOp .mma true c.toNat ta tb m n z g s
def execMmxXorQ (c : BitVec 6) (ta tb : BitVec 4) (z : BitVec 1) (g : BitVec 3) (s : State) : Result := matrixOp .xor true c.toNat ta tb 0 0 z g s
def execMmxAndQ (c : BitVec 6) (ta tb : BitVec 4) (z : BitVec 1) (g : BitVec 3) (s : State) : Result := matrixOp .and true c.toNat ta tb 0 0 z g s
def execMmsQ (c : BitVec 6) (ta tb : BitVec 4) (m n z : BitVec 1) (g : BitVec 3) (s : State) : Result := matrixOp .mms true c.toNat ta tb m n z g s
def execMmlQ (c : BitVec 6) (ta tb : BitVec 4) (m n z : BitVec 1) (g : BitVec 3) (s : State) : Result := matrixOp .mml true c.toNat ta tb m n z g s

/-- Event: a flock's oldest operation of the tiles class has written every tile and register it writes (R115, R187, R194). -/
def execTileOperationComplete (flock : Nat) (s : State) : Result := .next (s.completeOldest flock .tiles fun _ => true)

end Sys2Proof.Machine
end

