-- ==== Sys2Proof/Machine/AccOps.lean ====
section
/-!
DEFINITION. `tfence` and the accumulator instructions, major 0x24 (R191, R194, R195).
-/
namespace Sys2Proof.Machine

/-- Whether an operation writes a vector register or scratch: what `tfence` covers (R191). -/
def PendOp.feeds (o : PendOp) : Bool :=
  o.cls == .stores || !o.writes.isEmpty || o.dests.any fun d => match d with | .vector _ _ _ _ => true | _ => false

/-- Whether an operation is a copy into a trough, whose slot may not be known yet. -/
def State.fillsSlot (s : State) (o : PendOp) : Bool := s.jobs.any fun j => o.job == some j.id && j.kind == .mt

/-- Operations under way that write vector registers or scratch are waited for by later matrix instructions. -/
def execTfence (s : State) : Result :=
  done { s with cur := { s.cur with unfenced := [], pend := s.cur.pend.map fun o =>
    if !o.done && (o.feeds || s.fillsSlot o) then { o with fenced := true } else o } }

/-- An accumulator instruction that writes a tile (R117, R193): a tile under way is left undefined. One that consumes an entry in error
leaves its tile unwritten (R303). -/
def State.writeTile (s : State) (t : Nat) (x : Tile) (fault : Option TrapInfo) : State :=
  let early := s.cur.matrixTiles [t] ++ (if s.tileBusy [t] then [t] else [])
  let s1 := if fault.isSome then s else s.setFold (s.fold.setTile t x)
  let s2 := if early.isEmpty then s1 else s1.spoilTiles s.cur.fold early
  (s2.softRecord fault).issue (fun o => { o with tiles := [t], fault := fault }) .tiles

/-- The frame of the tile writers. -/
def tileWriter (d : BitVec 6) (fault : Option TrapInfo) (f : Tile → Tile) (s : State) : Result :=
  if !s.tileOk d.toNat then .next (s.illegalHere 0x05) else
  s.settle (do
    s.room .tiles
    .ok (s.writeTile d.toNat (f (s.fold.tile d.toNat)) fault).advance)

def execAccz (d : BitVec 6) (s : State) : Result := tileWriter d none (fun _ => Vector.replicate 256 {}) s

/-- The machine check of a whole tile (R303). -/
def State.tileError (s : State) (t : Nat) : Option TrapInfo :=
  if s.broken != [] && (List.range 256).any fun i => s.badEntry t (i / 32) (i % 32) then some { kind := 0x30, access := 6 } else none

def execAccneg (d : BitVec 6) (s : State) : Result :=
  tileWriter d (s.tileError d.toNat) (fun x => x.map fun p => { s := negWord p.s, c := negWord p.c }) s

/-- An accumulator instruction with no active lane has no effect but its count (R113, R194). -/
def countedOnly (t : Nat) (s : State) : Result :=
  if !s.tileOk t then .next (s.illegalHere 0x05) else
  s.settle (do
    s.room .tiles
    .ok (s.issue id .tiles).advance)

/-- Row r of a tile with the entries of a mask changed. -/
def setRow (x : Tile) (r : Nat) (m : Mask) (f : Fin 32 → Pair → Pair) : Tile :=
  Vector.ofFn fun i : Fin 256 =>
    let n : Fin 32 := ⟨i.val % 32, Nat.mod_lt _ (by decide)⟩
    if i.val / 32 = r ∧ m.on n then f n (tileAt x r n.val) else tileAt x (i.val / 32) (i.val % 32)

/-- Part 0 writes s and clears c, part 1 writes c, part 2 writes s (R194). -/
def Pair.put (p : Pair) (part : BitVec 2) (w : Word) : Pair :=
  if part = 0 then { s := w, c := 0 } else if part = 1 then { p with c := w } else { p with s := w }

def execAccwr (d a : BitVec 6) (r : BitVec 3) (p : BitVec 2) (s : State) : Result :=
  if s.cur.active 0 = 0 then countedOnly d.toNat s else
  tileWriter d none (fun x => setRow x r.toNat (s.cur.active 0) fun n e => e.put p (s.cur.lane a n)) s

/-! Reads (R195). -/

/-- The readout of an entry in a format code. -/
def Pair.readout (p : Pair) (rm : BitVec 2) (sat : Bool) (fmt : BitVec 3) : Flagged Word :=
  let v := p.sum rm
  let get := fun (f : Fmt) => let r := f.encode rm sat v.val; ({ val := BitVec.ofNat 32 r.val, ofl := r.ofl, nv := r.nv || v.nv } : Flagged Word)
  match fmt.toNat with
  | 0 => get fp32
  | 1 => get fp16
  | 2 => get bf16
  | 3 => let r := intOfNum rm 32 true sat v.val; { val := BitVec.ofNat 32 r.val, ofl := r.ofl, nv := r.nv || v.nv }
  | _ => { val := p.s }

/-- The machine check of accumulator entries in error (R303). -/
def State.rowError (s : State) (t r : Nat) (m : Mask) : Option TrapInfo :=
  if s.broken = [] then none
  else ((activeLanes m).find? fun n => s.badEntry t r n.val).map fun n => { kind := 0x30, access := 6, lane := some (BitVec.ofNat 5 n.val) }

/-- A read of row r of a tile into a vector register. Of a tile under way the active lanes get unknown values (R117); where a matrix
instruction of the flock writes it, the whole register is undefined (R193). -/
def tileReader (d a : BitVec 6) (r : BitVec 3) (f : Pair → Flagged Word) (s : State) : Result :=
  let t := a.toNat
  let m := s.cur.active 0
  if m = 0 then countedOnly t s else
  if !s.tileOk t then .next (s.illegalHere 0x05) else
  s.settle (do
    s.room .tiles
    let (k, s0) := s.drawIf (s.earlyRead [t]) 64
    let entry := fun (n : Fin 32) => if s.earlyRead [t] then freshPair (k + 2 * n.val) else tileAt (s.fold.tile t) r.toNat n.val
    let read := fun (n : Fin 32) => f (entry n)
    let fault := s.rowError t r.toNat m
    let new := Lanes.merge (s.cur.getV d) m fun n => (read n).val
    let s1 := s0.spoilRead [t]
    .ok ((s1.softRecord fault).issue (fun o => { o with
      dests := [.vector d (s.cur.getV d) new (s.cur.matrixRead [t])]
      ofFlag := anyOf m read, nvFlag := anyNv m read, fault := fault }) .tiles).advance)

def execAccrd (d a : BitVec 6) (r f : BitVec 3) (s : State) : Result := tileReader d a r (fun p => p.readout s.cur.rm s.cur.sat f) s
def execAccrdp (d a : BitVec 6) (r : BitVec 3) (p : BitVec 1) (s : State) : Result :=
  tileReader d a r (fun e => { val := if p = 0 then e.s else e.c }) s

end Sys2Proof.Machine
end

