-- ==== Sys2Proof/Machine/Trough.lean ====
section
/-!
DEFINITION. Troughs, major 0x29 (R212, R213, R268, R269).
-/
namespace Sys2Proof.Machine

/-! The kinds of R201. -/

/-- A B-kind instruction acts once, when the flock has a bellwether under p0. -/
def once (s : State) (r : Result) : Result := if s.cur.active 0 = 0 then done s else r

/-- A fault without an address. -/
def plainFault (kind : BitVec 8) : Bad := .trap { kind := kind }

/-! The ring (R212). -/

/-- A slot that is filled or beyond. -/
def SlotState.filledOrBeyond : SlotState → Bool
  | .filled => true
  | .taken => true
  | .released => true
  | _ => false

/-- Posted slots become filled while every slot before them is filled or beyond. -/
def fillSlots : List (Nat × SlotState) → List (Nat × SlotState)
  | [] => []
  | (k, st) :: rest =>
    if st = .posted then (k, .filled) :: fillSlots rest
    else if st.filledOrBeyond then (k, st) :: fillSlots rest
    else (k, st) :: rest

/-- The ring after a change: released slots at its tail become empty. -/
def Trough.settle (t : Trough) : Trough := { t with slots := (fillSlots t.slots).dropWhile fun e => e.2 == .released }

def Trough.free (t : Trough) : Nat := t.count - t.slots.length
def Trough.countOf (t : Trough) (p : SlotState → Bool) : Nat := (t.slots.filter fun e => p e.2).length
def Trough.filled (t : Trough) : Nat := t.countOf fun st => st == .filled
/-- The scratch address of a slot. -/
def Trough.address (t : Trough) (k : Nat) : Nat := t.base + k * 2 ^ t.logSize

/-- The next empty slot becomes reserved; its address, if a slot is empty. -/
def Trough.reserve (t : Trough) : Option (Nat × Trough) :=
  if t.free = 0 then none
  else some (t.address t.head, { t with head := (t.head + 1) % t.count, slots := t.slots ++ [(t.head, .reserved)] })

/-- The slot that starts at an address and is in a state changes to another; none when there is no such slot. -/
def Trough.change (t : Trough) (a : Nat) (old new : SlotState) : Option Trough :=
  let hit := fun (e : Nat × SlotState) => t.address e.1 == a && e.2 == old
  if t.slots.any hit then some (Trough.settle { t with
    slots := t.slots.map fun e => if hit e then (e.1, new) else e, holders := t.holders.filter fun h => t.address h.1 != a })
  else none

/-- The oldest filled slot becomes taken. -/
def Trough.take (t : Trough) : Option (Nat × Trough) :=
  match t.slots.find? fun e => e.2 == .filled with
  | none => none
  | some (k, _) => some (t.address k, { t with slots := updateFirst (fun e => e.2 == .filled) (fun e => (e.1, .taken)) t.slots })

/-- The flock that takes the oldest filled slot holds it (R268). -/
def Trough.heldBy (t : Trough) (flock : Nat) : List (Nat × Nat) :=
  match t.slots.find? fun e => e.2 == .filled with
  | none => t.holders
  | some (k, _) => t.holders ++ [(k, flock)]

/-- The state word of `tgstat` (R213). -/
def Trough.word (t : Trough) : DWord :=
  BitVec.ofNat 64 ((if t.closed then 2 ^ 63 else 0) + t.countOf (fun st => st == .taken) * 2 ^ 48 +
    t.countOf (fun st => st == .reserved || st == .posted) * 2 ^ 32 + t.filled * 2 ^ 16 + t.free)

def Fold.trough (f : Fold) (n : BitVec 3) : Trough := f.troughs[n.toNat]'n.isLt
def Fold.setTrough (f : Fold) (n : BitVec 3) (t : Trough) : Fold := { f with troughs := f.troughs.set n.toNat t n.isLt }
def State.setTrough (s : State) (n : BitVec 3) (t : Trough) : State := { s with fold := s.fold.setTrough n t }

/-! Order of arrival (R269). -/

/-- Whether a waiting request still stands: a flock that is at the same instruction and has entered no routine since (R202), or a job that
exists. -/
def State.stands (s : State) (w : Waiter) : Bool :=
  if w.job then s.jobs.any fun j => j.id == w.agent
  else s.allFlocks.any fun f => f.id == w.agent && f.pc == w.pc && f.entries == w.entries && (match f.status with | .running => true | .blocked _ => true | _ => false)

/-- The requests that still stand. -/
def State.waiting (s : State) (ws : List Waiter) : List Waiter := ws.filter s.stands

/-- Whether a request may be served: none that still stands arrived before it. -/
def State.mayServe (s : State) (ws : List Waiter) (w : Waiter) : Bool :=
  match s.waiting ws with
  | [] => true
  | v :: _ => v == w

/-- A request joins the end of a queue, once. -/
def joinQueue (ws : List Waiter) (w : Waiter) : List Waiter := if ws.contains w then ws else ws ++ [w]

def Flock.waiter (f : Flock) : Waiter := { agent := f.id, pc := f.pc, job := false, entries := f.entries }

/-! The instructions. -/

/-- tg4 to tg7 do not exist in a half-core fold (R212). -/
def troughOp (n : BitVec 3) (s : State) (r : Result) : Result :=
  if s.fold.half && n.getLsbD 2 then .next (s.illegalHere 0x05) else r

/-- An instruction on a trough that was never set faults (R213). -/
def Trough.ready (t : Trough) : Except Bad Unit := if t.set then .ok () else .error (plainFault 0x1B)

/-- A trough's slots can be reached: one set in a slot whose bank is gone is unusable (R266, R268). -/
def State.troughReach (s : State) (t : Trough) : Except Bad Unit := s.fold.checkScratch 0 t.base (t.count * 2 ^ t.logSize)

/-- What an instruction that reaches a trough's addresses asks of it first (R213, R237). -/
def State.troughUsable (s : State) (t : Trough) : Except Bad Unit := do
  t.ready
  s.troughReach t

/-- `tgset`: every check that gives a trough fault, then the footprint (R213, R237). Requests that wait at the trough keep their order (R269). -/
def execTgset (a b : BitVec 5) (n : BitVec 3) (s : State) : Result :=
  troughOp n s <| once s <| s.settle (do
    let base := ((s.cur.getS a).extractLsb' 0 32).toNat
    let w := (s.cur.getS b).toNat
    let count := field w 0 16
    let z := field w 16 8
    if count = 0 ∨ 1024 < count ∨ z < 6 ∨ 16 < z ∨ field w 24 40 ≠ 0 ∨ base % 64 ≠ 0 ∨ !(s.fold.trough n).slots.isEmpty then
      .error (plainFault 0x1B)
    else
      s.fold.checkScratch 0 base (count * 2 ^ z)
      .ok (s.setTrough n {
        set := true, base := base, logSize := z, count := count
        reserving := (s.fold.trough n).reserving, taking := (s.fold.trough n).taking }).spoilOverlaps.advance)

def execTgresv (d : BitVec 5) (n : BitVec 3) (s : State) : Result :=
  troughOp n s <| once s <| s.settle (do
    let t := s.fold.trough n
    s.troughUsable t
    if t.closed then .error (plainFault 0x1B) else
    match (if s.mayServe t.reserving s.cur.waiter then t.reserve else none) with
    | some (a, u) =>
      .ok ((s.setTrough n { u with
        holders := u.holders ++ [(t.head, s.cur.id)], reserving := u.reserving.filter fun w => w != s.cur.waiter }).putS d (BitVec.ofNat 64 a)).advance
    | none => .ok ((s.setTrough n { t with reserving := joinQueue t.reserving s.cur.waiter }).setStatus (.blocked (.reserve n.toNat))))

/-- A slot named by its address changes state, or a trough fault (R213). -/
def troughChange (a : BitVec 5) (n : BitVec 3) (old new : SlotState) (s : State) : Result :=
  troughOp n s <| once s <| s.settle (do
    let t := s.fold.trough n
    s.troughUsable t
    match t.change (s.cur.getS a).toNat old new with
    | some u => .ok (s.setTrough n u).advance
    | none => .error (plainFault 0x1B))

/-- The flock's earlier scratch stores are already performed: the release at fold scope asks for nothing more. -/
def execTgpost (a : BitVec 5) (n : BitVec 3) (s : State) : Result := troughChange a n .reserved .posted s
def execTgfree (a : BitVec 5) (n : BitVec 3) (s : State) : Result := troughChange a n .taken .released s

def execTgtake (d : BitVec 5) (n : BitVec 3) (s : State) : Result :=
  troughOp n s <| once s <| s.settle (do
    let t := s.fold.trough n
    s.troughUsable t
    let leave := fun (u : Trough) => { u with taking := u.taking.filter fun w => w != s.cur.waiter }
    match (if s.mayServe t.taking s.cur.waiter then t.take else none) with
    | some (a, u) => .ok ((s.setTrough n { leave u with holders := t.heldBy s.cur.id }).putS d (BitVec.ofNat 64 a)).advance
    | none =>
      if t.closed && t.filled == 0 then .ok ((s.setTrough n (leave t)).putS d 0).advance
      else .ok ((s.setTrough n { t with taking := joinQueue t.taking s.cur.waiter }).setStatus (.blocked (.take n.toNat))))

/-- `tgstat` and `tgclose` reach no slot. -/
def execTgstat (d : BitVec 5) (n : BitVec 3) (s : State) : Result :=
  troughOp n s <| s.settle (do
    (s.fold.trough n).ready
    .ok (s.putS d (s.fold.trough n).word).advance)

def execTgclose (n : BitVec 3) (s : State) : Result :=
  troughOp n s <| once s <| s.settle (do
    (s.fold.trough n).ready
    .ok (s.setTrough n { s.fold.trough n with closed := true }).advance)

end Sys2Proof.Machine
end

