-- ==== Sys2Proof/Machine/Bank.lean ====
section
/-!
DEFINITION. Banks, major 0x2A (R215 to R217, R261 to R266).
-/
namespace Sys2Proof.Machine

/-- A fault of a slot. -/
def slotFault (kind : BitVec 8) (k : Nat) : Bad := .trap { kind := kind, addr := BitVec.ofNat 72 (slotBase k) }

/-- The slot is one that the fold owns (R215). -/
def State.ownsSlot (s : State) (k : Nat) : Except Bad Unit := if k < s.fold.slots then .ok () else .error (slotFault 0x16 k)

/-- The bank in an owned slot; an empty slot is a detached-bank fault (R215). -/
def State.bankOf (s : State) (k : Nat) : Except Bad Nat := do
  s.ownsSlot k
  match s.fold.bankIn k with
  | some b => .ok b
  | none => .error (slotFault 0x17 k)

/-- Whether an operation under way reads or writes a slot's window. -/
def PendOp.inSlot (o : PendOp) (k : Nat) : Bool :=
  !o.done && (o.reads ++ o.writes).any fun x => overlap x.base x.len (slotBase k) 0x80000

/-- Whether a copy waits for a slot of a trough that stands in slot k of its fold (R214). -/
def Fold.awaits (f : Fold) (k : Nat) (j : CopyJob) : Bool :=
  match j.dst with
  | .trough n =>
    let t := f.trough (BitVec.ofNat 3 n)
    j.fold == f.id && j.slot.isNone && !j.stopped && t.set && overlap t.base (t.count * 2 ^ t.logSize) (slotBase k) 0x80000
  | _ => false

/-- Every access of the fold to slot k is complete, copies into its troughs there among them (R215, R266). -/
def State.drained (s : State) (k : Nat) : Bool :=
  (s.allFlocks.all fun f => f.fold != s.fold.id || f.pend.all fun o => !o.inSlot k) && s.jobs.all fun j => !s.fold.awaits k j

/-- A blocking wait for the drain of a slot. -/
def State.drain (s : State) (k : Nat) : Except Bad Unit := if s.drained k then .ok () else .error (.block (.drain k))

def execBdrain (k : BitVec 6) (s : State) : Result :=
  once s <| s.settle (do
    let _ ← s.bankOf k.toNat
    s.drain k.toNat
    .ok s.advance)

/-- A slot of a fold holds what the fold's flocks have not fenced: writes of another agent, unordered for their matrix instructions (R191,
R192, log entry 103). -/
def State.unfence (s : State) (fold k : Nat) : State :=
  s.mapFlocks fun f => if f.fold = fold ∧ fold ≠ 0 then { f with unfenced := ⟨slotBase k, 0x80000⟩ :: f.unfenced } else f

def execBzero (k : BitVec 6) (s : State) : Result :=
  once s <| s.settle (do
    let b ← s.bankOf k.toNat
    s.drain k.toNat
    .ok ((s.setBank b { s.bank b with cells := [] }).unfence s.cur.fold k.toNat).advance)

/-- The bank-map register of a slot changes (R262). -/
def Fold.setSlot (f : Fold) (k : Nat) (b : Option (BitVec 4)) : Fold := { f with bmap := f.bmap.setIfInBounds k b }

def execBunmap (k : BitVec 6) (s : State) : Result :=
  once s <| s.settle (do
    let b ← s.bankOf k.toNat
    s.drain k.toNat
    .ok (({ s with fold := s.fold.setSlot k.toNat none }).setBank b { s.bank b with place := .pooled }).advance)

/-- The bank that `bmap` takes (R263): the lowest pooled one of the fold's own, else the lowest pooled one, which is zeroed. -/
def State.freeBank (s : State) (cluster : Nat) (owner : Owner) : Option (Nat × Bool) :=
  let pooled := (List.range 16).filter fun b => (s.bank (16 * cluster + b)).place == .pooled
  match pooled.find? fun b => (s.bank (16 * cluster + b)).owner == some owner with
  | some b => some (b, false)
  | none => pooled.head?.map fun b => (b, true)

def execBmap (d : BitVec 5) (k : BitVec 6) (s : State) : Result :=
  once s <| s.settle (do
    s.ownsSlot k.toNat
    if (s.fold.bankIn k.toNat).isSome then .error (plainFault 0x1C) else
    let cluster := s.fold.core / 8
    let owner := s.owner s.fold.ctx
    match s.freeBank cluster owner with
    | none => .ok (s.putS d 0xFFFFFFFFFFFFFFFF).advance
    | some (b, zero) =>
      let n := 16 * cluster + b
      let bank := s.bank n
      let t := { s with fold := s.fold.setSlot k.toNat (some (BitVec.ofNat 4 b)) }.setBank n
        { bank with place := .mapped s.fold.core (s.fold.coreSlot k.toNat), owner := some owner, cells := if zero then [] else bank.cells }
      .ok ((t.unfence s.cur.fold k.toNat).putS d (BitVec.ofNat 64 b)).advance)

/-- The word of `bstat` (R215). -/
def Fold.slotWord (f : Fold) (k : Nat) : DWord :=
  BitVec.ofNat 64 ((match f.bmap[k]?.getD none with | some b => b.toNat + 256 | none => 0) + (if f.arrival.getLsbD k then 512 else 0))

def execBstat (d : BitVec 5) (k : BitVec 6) (s : State) : Result :=
  s.settle (do
    s.ownsSlot k.toNat
    .ok (s.putS d (s.fold.slotWord k.toNat)).advance)

/-- The lowest set bit of an arrival word. -/
def lowestBit (x : BitVec 8) : Nat := (firstIndex (fun k => x.getLsbD k) 8 0).getD 0

def execBwait (d m : BitVec 5) (s : State) : Result :=
  let mask := (s.cur.getS m).extractLsb' 0 8
  let hit := s.fold.arrival &&& mask
  once s <|
  if mask = 0 then done (s.putS d 8)
  else if hit = 0 then .next (s.setStatus (.blocked (.bank mask)))
  else
    let k := lowestBit hit
    done ({ s with fold := { s.fold with arrival := s.fold.arrival &&& ~~~(1#8 <<< k) } }.putS d (BitVec.ofNat 64 k))

/-! Give (R216, R217, R266). -/

/-- What becomes of the member that a give names. -/
inductive Receiver where
  | live (f : Fold)
  | away
  | ended
  deriving DecidableEq, Repr

/-- Member m of the current fold's cluster gang: the fold of the same gang with that member index (R23, R131). A member that is
parked or saved has not ended and owns no slot for now (log entry 17). -/
def State.member (s : State) (g m : Nat) : Receiver :=
  let visit := s.fold.visit / g * g + m
  match s.allFolds.find? fun f => f.launch == s.fold.launch && f.visit == visit with
  | some f => .live f
  | none =>
    if s.parked.any (fun p => p.launch == s.fold.launch && p.visit == visit) ||
        s.saved.any (fun p => p.fold.launch == s.fold.launch && p.fold.visit == visit) then .away else .ended

/-- The lowest empty slot that a fold owns. -/
def Fold.emptySlot (f : Fold) : Option Nat := firstIndex (fun k => (f.bankIn k).isNone) f.slots 0

/-- Bank `b` moves from the giver's slot k to a receiver's slot j, with writes that no flock of the receiver has fenced (log entry 103). -/
def State.moveBank (s : State) (k : Nat) (f : Fold) (j b : Nat) : State :=
  let giver := { s.fold.setSlot k none with arrival := s.fold.arrival &&& ~~~(1#8 <<< k) }
  let taker := { f.setSlot j (some (BitVec.ofNat 4 b)) with arrival := f.arrival ||| (1#8 <<< j) }
  (((s.setFold giver).setFold taker).setBank b { s.bank b with place := .mapped f.core (f.coreSlot j) }).unfence f.id j

def execGive (d m : BitVec 5) (k : BitVec 6) (s : State) : Result :=
  once s <| s.settle (do
    let b ← s.bankOf k.toNat
    let m := (s.cur.getS m).toNat % 8
    let g := match s.launch with | some l => l.hdr.gangSize | none => 0
    let answer := fun (n : Nat) => Except.ok (s.putS d (BitVec.ofNat 64 n)).advance
    if g ≤ m then answer 2
    else if m = s.fold.visit % g then answer 4
    else
      match s.member g m with
      | .ended => answer 2
      | .away => do
        s.drain k.toNat
        answer 1
      | .live f => do
        s.drain k.toNat
        match f.emptySlot with
        | none => answer 1
        | some j => .ok ((s.moveBank k.toNat f j b).putS d (BitVec.ofNat 64 (j * 256))).advance)

end Sys2Proof.Machine
end

