-- ==== Sys2Proof/Machine/Rng.lean ====
section
/-!
DEFINITION. Random numbers, major 0x2F (R229).
-/
namespace Sys2Proof.Machine

/-- The counter of lane i at the current draw, less the base of the launch's range. -/
def State.drawOffset (s : State) (i : Fin 32) : DWord :=
  let n := match s.launch with | some l => l.hdr.total | none => 0
  BitVec.ofNat 64 (s.cur.draw.toNat * (n * 512) + s.fold.visit * 512 + s.cur.field * 32 + i.val)

/-- Base and length of the launch's range; a supervisor belongs to no launch and holds no counter (log entry 18). -/
def State.drawRange (s : State) : DWord × DWord :=
  match s.launch with
  | some l => (l.hdr.rngBase, l.hdr.rngLength)
  | none => (0, 0)

/-- The 64 random bits of a lane. -/
def State.drawBits (s : State) (i : Fin 32) : DWord := mix64 (mix64 (s.drawRange.1 + s.drawOffset i) ^^^ s.cur.key)

/-- Whether the counter of an active lane lies out of the range. -/
def State.drawOut (s : State) : Bool := (activeLanes (s.cur.active 0)).any fun i => decide (s.drawRange.2 ≤ s.drawOffset i)

/-- A draw: `f` makes a lane's word of its 64 bits. -/
def draw (f : DWord → Word) (d : BitVec 5) (s : State) : Result :=
  s.settle (
    if s.drawOut then .error (plainFault 0x1F)
    else .ok ({ s with cur := { s.cur with draw := s.cur.draw + 1 } }.putLanes (vreg d) (s.cur.active 0) fun i => f (s.drawBits i)).advance)

def execRng (d : BitVec 5) (s : State) : Result := draw (fun x => x.setWidth 32) d s

/-- Bits 63:40 times 2^-24, exact. -/
def unitFloat (x : DWord) : Word := rne32 (.fin false (x.toNat / 2 ^ 40) (-24))

def execRngF (d : BitVec 5) (s : State) : Result := draw unitFloat d s
def execRngkey (a : BitVec 5) (s : State) : Result := done { s with cur := { s.cur with key := s.cur.getS a } }

end Sys2Proof.Machine
end

