-- ==== Sys2Proof/Machine/Lease.lean ====
section
/-!
DEFINITION. Leases of L2 ways, major 0x2B (R218, R270, R273 to R275).
-/
namespace Sys2Proof.Machine

/-- The context for which the current flock's engine work is done: its own, or the one that its supervisor acts for (R304). -/
def State.work (s : State) : Nat := (s.agent s.cur).ctx

/-- Whether the current flock may name a context: a non-secure shepherd only those of non-secure partitions (R367). What it asks of another is turned away
as if there were no such context (log entry 137). -/
def State.mayName (s : State) (ctx : Nat) : Bool := !s.cur.supervises || s.cur.secure || !(s.partitionOf ctx).secure

/-! Which set of which slice holds a line (R270). -/

/-- Die, slice and set of a line of this device's bonded or second-tier memory. The die of another device's line is taken as that of a second-tier one (log
entry 123). -/
def l2Set (pa : Nat) : Nat × Nat × Nat :=
  let die := if pa < Config.tierBase then Config.stackDie pa else field pa 12 2
  (die, field pa 6 4 ^^^ field pa 10 4 ^^^ field pa 14 4 ^^^ field pa 18 4, field pa 10 11)

/-- The lines of a span. -/
def spanLines (x : Nat × Nat) : List Nat := (List.range (x.2 / 64)).map fun k => x.1 + 64 * k

/-- Lease ways of a set. -/
def leaseWays : Nat := 8

/-- Whether every set that new spans reach has room beside the spans that are leased already (R273). -/
def roomInSets (held new : List (Nat × Nat)) : Bool :=
  let mine := (new.flatMap spanLines).map l2Set
  let theirs := (held.flatMap spanLines).map l2Set
  mine.all fun k => decide (mine.count k + theirs.count k ≤ leaseWays)

/-! Live leases. -/

/-- A lease is held until the time base reaches its expiry (R275). -/
def State.leases (s : State) (ctx : Nat) : List Lease := (s.ctx ctx).leases.filter fun l => decide (s.time < l.expiry)

/-- A lease of a context by its handle. -/
def State.lease? (s : State) (ctx h : Nat) : Option Lease := (s.leases ctx).find? fun l => l.handle == h

/-- The spans of every lease that is held. -/
def State.leasedSpans (s : State) : List (Nat × Nat) :=
  s.contexts.flatMap fun c => (s.leases c.1).flatMap fun l => l.spans

/-- Whether a line lies under a lease that is held. -/
def State.leasedLine (s : State) (line : Nat) : Bool := s.leasedSpans.any fun x => decide (x.1 ≤ line ∧ line < x.1 + x.2)

/-- The expiry of a lease taken now for 2^d microseconds. -/
def State.leaseEnd (s : State) (d : BitVec 6) : DWord := s.time + BitVec.ofNat 64 (1000 * 2 ^ d.toNat)

/-- The system-physical span of the part of a range within its k-th page; none when the page does not translate for the flock or
lies outside this device's bonded and second-tier memory (R273, log entry 19). -/
def State.leasePage (s : State) (va : Addr) (n k : Nat) : Option (Nat × Nat) :=
  let first := va.toNat % 2 ^ 16
  let lo := if k = 0 then first else k * 2 ^ 16
  let hi := min (first + n) ((k + 1) * 2 ^ 16)
  match s.locate (s.agent s.cur) {} (va + BitVec.ofNat 72 (lo - first)) with
  | .error _ => none
  | .ok (pa, _) => if regionOf pa = .dram ∨ regionOf pa = .tier then some (pa, hi - lo) else none

/-- The spans of a range. -/
def State.leaseSpans (s : State) (va : Addr) (n : Nat) : Option (List (Nat × Nat)) :=
  (List.range ((va.toNat % 2 ^ 16 + n - 1) / 2 ^ 16 + 1)).mapM (s.leasePage va n)

/-- The lowest free handle: which of several `lease` takes is open (log entry 115). -/
def State.freeHandle (s : State) (ctx : Nat) : Option Nat := firstIndex (fun h => (s.lease? ctx h).isNone) 15 1

/-- The lease that a request gets, if any (R218, R273). -/
def State.grantLease (s : State) (va : Addr) (n : Nat) (d : BitVec 6) : Option Lease := do
  if !s.mayName s.work then none else
  let h ← s.freeHandle s.work
  let spans ← s.leaseSpans va n
  if roomInSets s.leasedSpans spans then some { handle := h, base := va, len := n, expiry := s.leaseEnd d, spans := spans } else none

def execLease (d a b : BitVec 5) (t : BitVec 6) (s : State) : Result :=
  once s <| s.settle (
    let va := s.cur.pointer (s.cur.getS a)
    let n := (s.cur.getS b).toNat
    if va.toNat % 64 ≠ 0 ∨ n % 64 ≠ 0 ∨ n < 64 ∨ 2 ^ 24 < n then .error (plainFault 0x1A)
    else
      match s.grantLease va n t with
      | none => .ok (s.putS d 0).advance
      | some l =>
        let c := s.ctx s.work
        .ok ((s.setCtx s.work { c with leases := s.leases s.work ++ [l] }).putS d (BitVec.ofNat 64 l.handle)).advance)

/-- The handle that a scalar names: bits 3:0. -/
def Flock.handle (f : Flock) (a : BitVec 5) : Nat := (f.getS a).toNat % 16

/-- The lease that a scalar names, of the context for which the current flock works. -/
def State.namedLease (s : State) (a : BitVec 5) : Option Lease := if s.mayName s.work then s.lease? s.work (s.cur.handle a) else none

def execUnlease (a : BitVec 5) (s : State) : Result :=
  let c := s.ctx s.work
  once s <| done (s.setCtx s.work { c with leases := c.leases.filter fun l => l.handle != s.cur.handle a || !s.mayName s.work })

def execLrenew (d a : BitVec 5) (t : BitVec 6) (s : State) : Result :=
  once s <|
  match s.namedLease a with
  | none => done (s.putS d 0)
  | some l =>
    let c := s.ctx s.work
    let renewed := (s.leases s.work).map fun k => if k.handle = l.handle then { k with expiry := s.leaseEnd t } else k
    done ((s.setCtx s.work { c with leases := renewed }).putS d 1)

def execLstat (d a : BitVec 5) (s : State) : Result :=
  once s <| done (s.putS d (match s.namedLease a with | some l => l.expiry | none => 0))

/-- Event: the expiry of a lease is reached and its lines become ordinary ones (R275). -/
def execLeaseExpiry (ctx handle : Nat) (s : State) : Result :=
  let c := s.ctx ctx
  .next (s.setCtx ctx { c with leases := c.leases.filter fun l => !(l.handle == handle && decide (l.expiry ≤ s.time)) })

end Sys2Proof.Machine
end

