-- ==== Sys2Proof/Machine/MemSync.lean ====
section
/-!
DEFINITION. Fences, monitors, cache maintenance and tensor tags, major 0x1D (R165 to R173).
-/
namespace Sys2Proof.Machine

/-- Whether a fence of an order code completes (R165): bit 0 waits for the loads, bit 1 for the stores. -/
def Flock.fenceDone (f : Flock) (o : BitVec 2) : Bool :=
  (!o.getLsbD 0 || f.count .loads == 0) && (!o.getLsbD 1 || f.count .stores == 0)

/-- At domain and system scope remote lines are written back, and by an acquire invalidated (R257). -/
def State.fenced (s : State) (sc : BitVec 3) (o : BitVec 2) : State := if o.getLsbD 0 then s.acquire sc else s.release sc

def execFence (sc : BitVec 3) (o : BitVec 2) (s : State) : Result :=
  if s.cur.fenceDone o then done (s.fenced sc o) else .next (s.setStatus (.blocked (.fence o)))

/-- `mon` (R152, R166): translation, world, permission, format, and the range last (R175); the stop flag does not speak of it (R59). The line is
kept as a system-physical line. -/
def execMon (a : BitVec 4) (i : BitVec 5) (s : State) : Result :=
  let va := s.cur.flockAddress a i.toInt 64
  s.settle (do
    let (pa, e) ← s.locate (s.agent s.cur) Need.load va
    if !rawOk e then .error (.trap { kind := 0x14, access := 1, addr := va })
    else if isFar pa then .error (.trap { kind := 0x18, access := 1, addr := va })
    else
      s.reachAll 1 false [(va, pa)]
      .ok { s with cur := { s.cur with monitor := { line := pa / 64 * 64, armed := true, event := false } } }.advance)

/-- A flock after a return of `mwait`: the event bit is clear, and outside a routine no wait of an earlier one is still open (R168). -/
def Flock.afterWait (f : Flock) : Flock :=
  { f with monitor := { f.monitor with event := false }, wakePending := false, waitedAt := if f.routine = .none then none else f.waitedAt }

/-- The trap that found the flock in the `mwait` at its program counter has returned (R168). -/
def Flock.waitOver (f : Flock) : Bool := f.routine == .none && f.waitedAt == some f.pc

/-- Without an armed monitor `mwait` returns at once and clears nothing; a pending wake makes it return (R168, R236), and so does the return of
a trap taken during the wait. -/
def execMwait (s : State) : Result :=
  if s.cur.wakePending || s.cur.waitOver then done { s with cur := s.cur.afterWait }
  else if !s.cur.monitor.armed then done s
  else if s.cur.monitor.event then done { s with cur := s.cur.afterWait }
  else .next (s.setStatus .waiting)

/-- Event: a waiting flock whose event bit is set, or at which a `wake` was aimed, goes on (R168). -/
def execMwaitWake (flock : Nat) (s : State) : Result :=
  .next (s.mapFlocks fun f =>
    if f.id = flock ∧ f.status = .waiting ∧ (f.monitor.event || f.wakePending) then
      { f.afterWait with status := .running }.advance 4
    else f)

/-- The lines that some lanes name, checked for translation, world and read permission only; the lowest lane that faults decides (R148,
R169). -/
def State.linesNamed (s : State) (va : Fin 32 → Addr) : List (Fin 32) → Except Bad (List Nat)
  | [] => .ok []
  | k :: ks =>
    match s.locate (s.agent s.cur) Need.load (va k) with
    | .error b => .error (b.inLane (some k))
    | .ok r =>
      match s.linesNamed va ks with
      | .error b => .error b
      | .ok ls => .ok (r.1 / 64 * 64 :: ls)

/-- The lines that the active lanes name. -/
def State.namedLines (s : State) (a : BitVec 4) (v : BitVec 6) (i : BitVec 5) : Except Bad (List Nat) :=
  s.linesNamed (fun k => byteOf (s.cur.laneBits a v i.toInt 512 k)) (activeLanes (s.cur.active 0))

/-- The dirty bytes of the lines reach their homes (R169, R257). -/
def execCflush (a : BitVec 4) (v : BitVec 6) (i : BitVec 5) (s : State) : Result :=
  s.settle (do
    let ls ← s.namedLines a v i
    .ok (s.cleanLines ls).advance)

/-- As `cflush`, and the lines are invalidated (R169). -/
def execCinv (a : BitVec 4) (v : BitVec 6) (i : BitVec 5) (s : State) : Result :=
  s.settle (do
    let ls ← s.namedLines a v i
    .ok (s.evict ls).advance)

/-- What the flock has fetched and what its core's instruction cache holds is discarded (R170, log entry 16). -/
def execIfence (s : State) : Result :=
  done { s with code := s.code.filter fun c => c.1 != .core s.cur.core && c.1 != .flock s.cur.id }

/-- Each byte of a discarded line becomes one that it has held since the line took its tag (R172). -/
def discardLine (t : TagLine) (n : Nat) : List (Nat × Byte) :=
  (List.range 64).map fun k =>
    let a := t.line + k
    let held := (t.history.filter fun c => c.1 == a).map fun c => c.2
    (a, held.getD (Config.freeChoice (n + k) % held.length) 0)

/-- The lines of a tag that a context set. -/
def State.tagged (s : State) (tag : BitVec 16) (ctx : Nat) : List TagLine := s.tags.filter fun t => t.tag == tag && t.ctx == ctx

/-- The lines of a tag that a context set are discarded. Those of another device's memory lose what the L2 holds of them, and then read as
their home holds them (R257). -/
def State.discard (s : State) (tag : BitVec 16) (ctx : Nat) : State :=
  let near := (s.tagged tag ctx).filter fun t => !isFar t.line
  let far := ((s.tagged tag ctx).filter fun t => isFar t.line).map fun t => t.line
  let s1 := s.keepOld (near.map fun t => t.line)
  let (n, s2) := s1.draw (64 * near.length)
  let ws := near.zipIdx.flatMap fun e => discardLine e.1 (n + 64 * e.2)
  { s2 with
    mem := s2.mem.writeAll ws
    remote := s2.remote.filter fun c => !far.contains (c.1 / 64 * 64)
    clean := s2.clean.filter fun c => !far.contains (c.1 / 64 * 64)
    dirty := s2.dirty.filter fun l => !near.any fun t => t.line == l
    inFlight := s2.inFlight.filter fun o => !ws.any fun w => w.1 == o.2.1
    tags := s2.tags.filter fun t => !(t.tag == tag && t.ctx == ctx) }

/-- The fault of the first line that the context's tables show the flock at no address where it may write it: that of the lowest address at which
they show it (R175, R368, log entry 29); without tables every line may be written. -/
def State.discardFault (s : State) (g : Agent) : List TagLine → Option TrapInfo
  | [] => none
  | t :: ts =>
    match g.space with
    | none => none
    | some c =>
      let at_ := s.mappedAt g c t.line
      if at_.any fun m => m.2.isNone then s.discardFault g ts
      else
        let m := ((sortBy (fun a b => decide (a.1 ≤ b.1)) at_).head?).getD (0, none)
        let k := m.2.getD (0x11, 2)
        some { kind := k.1, detail := k.2, access := 2, addr := BitVec.ofNat 72 m.1 }

def execDtens (x : BitVec 5) (s : State) : Result :=
  let t := (s.cur.getS x).extractLsb' 0 16
  let g := s.agent s.cur
  if t = 0 then done s else
  match s.discardFault g (s.tagged t g.ctx) with
  | some f => .next (s.trapHere f)
  | none => done (s.discard t g.ctx)

def execTtag (x : BitVec 5) (s : State) : Result := done { s with cur := { s.cur with ttag := (s.cur.getS x).extractLsb' 0 16 } }

/-- A hint that changes no value and raises no fault (R173); a place other than 0 and 1 does not decode. -/
def execPref (_n : BitVec 6) (_a : BitVec 4) (_v : BitVec 6) (_i : BitVec 5) (s : State) : Result := done s

end Sys2Proof.Machine
end

