-- ==== Sys2Proof/Machine/System.lean ====
section
/-!
DEFINITION. System registers and system functions, major 0x38 (R234 to R236, R109).
-/
namespace Sys2Proof.Machine

/-! System registers (R234). -/

/-- Bits 63:0 and bits 71:64 of a 72-bit register. -/
def addrLow (x : Addr) : DWord := x.setWidth 64
def addrHigh (x : Addr) : DWord := x.toNat / 2 ^ 64 |> BitVec.ofNat 64

/-- The context identifier of the flock's context; 0 in a supervisor that acts for none (log entry 8). -/
def State.contextNumber (s : State) : DWord := if s.work < 512 then BitVec.ofNat 64 s.work else 0

/-- The value of a system register; none for an unassigned number. -/
def State.sysRead (s : State) (n : Nat) : Option DWord :=
  let f := s.cur
  let c := s.ctx f.ctx
  match n with
  | 0 => some f.tinfo
  | 1 => some (addrLow f.epc)
  | 2 => some (addrHigh f.epc)
  | 3 => some f.ecause
  | 4 => some (addrLow f.faddr)
  | 5 => some (addrHigh f.faddr)
  | 6 => some (addrLow c.tvec)
  | 7 => some (addrHigh c.tvec)
  | 8 => some (addrLow c.svec)
  | 9 => some (addrHigh c.svec)
  | 10 => some (addrLow c.mxsb4)
  | 11 => some (addrHigh c.mxsb4)
  | 12 => some (addrLow c.mxsb6)
  | 13 => some (addrHigh c.mxsb6)
  | 14 => some s.contextNumber
  | 15 => some (s.ctx s.work).fgen
  | 16 => some (addrLow c.parkb)
  | 17 => some (addrHigh c.parkb)
  | 18 => some (addrLow c.errq)
  | 19 => some (addrHigh c.errq)
  | 20 => some s.time
  | 21 => some (s.ctx s.work).energy
  | 22 => some (addrLow f.dpc)
  | 23 => some (addrHigh f.dpc)
  | _ => none

/-- An unassigned number is cause 0x08, which comes before the check of privilege (R111). -/
def execSget (d : BitVec 5) (n : BitVec 6) (s : State) : Result :=
  match s.sysRead n.toNat with
  | some x => s.privileged (done (s.putS d x))
  | none => .next (s.illegalHere 0x08)

/-- One half of a 72-bit register replaced. -/
def putLow (r : Addr) (x : DWord) : Addr := r.extractLsb' 64 8 ++ x
def putHigh (r : Addr) (x : DWord) : Addr := x.extractLsb' 0 8 ++ r.extractLsb' 0 64

/-- A system register is written; none for a read-only register and an unassigned number. Where `errq` is written the ring goes on at the new place with the
counts of entries written and popped that it had, which the spec leaves open (log entry 13). -/
def State.sysWrite (s : State) (n : Nat) (x : DWord) : Option State :=
  let c := s.ctx s.cur.ctx
  let put := fun (k : Context) => some (s.setCtx s.cur.ctx k)
  match n with
  | 1 => some { s with cur := { s.cur with epc := putLow s.cur.epc x } }
  | 2 => some { s with cur := { s.cur with epc := putHigh s.cur.epc x } }
  | 6 => put { c with tvec := putLow c.tvec x }
  | 7 => put { c with tvec := putHigh c.tvec x }
  | 8 => put { c with svec := putLow c.svec x }
  | 9 => put { c with svec := putHigh c.svec x }
  | 10 => put { c with mxsb4 := putLow c.mxsb4 x }
  | 11 => put { c with mxsb4 := putHigh c.mxsb4 x }
  | 12 => put { c with mxsb6 := putLow c.mxsb6 x }
  | 13 => put { c with mxsb6 := putHigh c.mxsb6 x }
  | 16 => put { c with parkb := putLow c.parkb x }
  | 17 => put { c with parkb := putHigh c.parkb x }
  | 18 => put { c with errq := putLow c.errq x }
  | 19 => put { c with errq := putHigh c.errq x }
  | _ => none

/-- A read-only register is cause 0x04, an unassigned number cause 0x08; both come before the check of privilege (R111). -/
def execSset (a : BitVec 5) (n : BitVec 6) (s : State) : Result :=
  match s.sysWrite n.toNat (s.cur.getS a) with
  | some t => s.privileged (done t)
  | none => .next (s.illegalHere (if n.toNat < 24 then 0x04 else 0x08))

/-! Translation caches (R235, R282, R283). -/

/-- The page of a virtual address given by a scalar and the scalar with its bits above 63. -/
def pageOf (lo hi : DWord) : Nat := (field hi.toNat 0 8 * 2 ^ 64 + lo.toNat) / 2 ^ 16

/-- The guest-physical pages through which a context's tables translate a virtual address: those of the table entries, and the page itself. -/
def State.guestPages (s : State) (g : Agent) (ctx va : Nat) : List Nat → Nat → List Nat
  | [], _ => []
  | lvl :: rest, table =>
    let gpa := table + 8 * (if lvl = 4 then field va 68 4 else field va (levelShift lvl) 13)
    gpa / 2 ^ 16 :: match s.sysPage g ctx gpa 0 with
      | .error _ => []
      | .ok l =>
        match s.tableEntry g (l.base + gpa % 2 ^ 16) with
        | .error _ => []
        | .ok e =>
          let addr := field e 16 44 * 2 ^ 16
          if field e 0 1 = 0 || entryBad true lvl e then []
          else if field e 1 1 = 1 then [(addr + va % 2 ^ levelShift lvl) / 2 ^ 16]
          else s.guestPages g ctx va rest addr

/-- Whether an entry belongs to a context of the current flock's partition that it may name. A supervisor that acts for no context has no partition, and
clears no entry: the model's choice (log entry 138). -/
def State.ownEntry (s : State) (e : TlbEntry) : Bool := e.ctx / 64 == s.work / 64 && s.mayName e.ctx

/-- The entries of a page, and the nested ones through which its translation goes (log entry 10). -/
def execTlbinv (a b c : BitVec 5) (s : State) : Result :=
  s.privileged <| once s <|
  let page := pageOf (s.cur.getS a) (s.cur.getS c)
  let ctx := (s.cur.getS b).toNat
  let guest := s.guestPages (s.agent s.cur) ctx (page * 2 ^ 16) [4, 3, 2, 1, 0] (s.ctx ctx).guestRoot
  done { s with tlb := s.tlb.filter fun e =>
    !(s.ownEntry e && e.ctx == ctx && if e.holder.isNested then guest.contains e.page else e.page == page) }

/-- All ones name every context of the partition. Bit 0 of f clears nested entries too. -/
def execTlbinvc (a : BitVec 5) (f : BitVec 1) (s : State) : Result :=
  s.privileged <| once s <|
  let named := fun (e : TlbEntry) => s.cur.getS a == 0xFFFFFFFFFFFFFFFF || e.ctx == (s.cur.getS a).toNat
  done { s with tlb := s.tlb.filter fun e => !(s.ownEntry e && named e && (f == 1 || !e.holder.isNested)) }

/-! Boost leases (R319). -/

/-- Whether a current emergency is in force in a cluster that holds a fold of a context. -/
def State.emergencyFor (s : State) (ctx : Nat) : Bool :=
  s.allFolds.any fun f => f.ctx == ctx && (s.cluster (f.core / 8)).emergency

/-- Whether the power budget has room is the power controller's answer, drawn afresh (R319). -/
def execBoost (d a : BitVec 5) (s : State) : Result :=
  let ask := min (field (s.cur.getS a).toNat 0 20) 1000000
  let c := s.ctx s.work
  let (n, t) := s.draw 1
  once s <|
  if ask = 0 ∨ c.boostRuns s.time ∨ s.emergencyFor s.work ∨ Config.budgetRoom n = false ∨ s.mayName s.work = false then done (t.putS d 0)
  else done ((t.setCtx s.work { c with boost := some (s.time + BitVec.ofNat 64 ask) }).putS d (BitVec.ofNat 64 ask))

/-! Wake (R236). -/

/-- A flock at which a wake is aimed: a sleep or a wait ends, and any other flock that has not ended keeps the wake. -/
def Flock.woken (f : Flock) : Flock :=
  let g := { f with wakes := f.wakes + 1 }
  match f.status with
  | .sleeping _ => { g with status := .running }.advance 4
  | .waiting => { g.afterWait with status := .running }.advance 4
  | .ended => f
  | _ => { g with wakePending := true }

/-- The visit of the fold that a wake names: the flock's own or a member of its cluster gang. -/
def State.wakeVisit (s : State) (x : Nat) : Option Nat :=
  if x.testBit 8 then
    let g := match s.launch with | some l => l.hdr.gangSize | none => 0
    if field x 4 4 < g then some (s.fold.visit / g * g + field x 4 4) else none
  else some s.fold.visit

/-- The flocks of a fold, on a core or saved, with one woken. -/
def State.wakeFlock (s : State) (launch visit fieldNo : Nat) : State :=
  let ids := (s.allFolds.filter fun f => f.launch == launch && f.visit == visit).map fun f => f.id
  let hit := fun (f : Flock) => ids.contains f.fold && f.field == fieldNo
  { s.mapFlocks (fun f => if hit f then f.woken else f) with
    saved := s.saved.map fun k => if k.fold.launch = launch ∧ k.fold.visit = visit then
        { k with flocks := k.flocks.map fun f => if f.field = fieldNo then { f with wakePending := true } else f } else k }

def execWake (a : BitVec 5) (s : State) : Result :=
  once s <|
  let x := (s.cur.getS a).toNat
  match s.launch, s.wakeVisit x with
  | some l, some v => done (s.wakeFlock l.id v (field x 0 4))
  | _, _ => done s

/-! Fold abort (R235, R287). -/

def execFabort (d : BitVec 5) (s : State) : Result :=
  s.privileged <| once s <|
  match s.launch with
  | some l => if l.hdr.restart then .next (s.abortPark s.fold none) else done (s.putS d 1)
  | none => done (s.putS d 1)

end Sys2Proof.Machine
end

