-- ==== Sys2Proof/Machine/Estimator.lean ====
section
/-!
DEFINITION. Estimators, major 0x2C (R41 to R53, R61, R62, R219), and the merge of visits into a launch's record.
-/
namespace Sys2Proof.Machine

/-! Estimates (R45 to R50). -/

/-- A NaN or an infinity is not added; it sets the sticky bit (R47). -/
def Estimate.exclude (e : Estimate) : Estimate := { e with nonfinite := true }

/-- The single-value update (R46): the quotient by the count is rounded once (R7, log entry 79). -/
def Estimate.add (e : Estimate) (x : DWord) : Estimate :=
  let n := e.n + 1
  let d := f64Sub x e.mean
  let mean := f64Add e.mean (f64DivBy (f64 d) (Num.ofNat n))
  { e with n := n, mean := mean, m2 := f64Add e.m2 (f64Mul d (f64Sub x mean)) }

/-- combine(a, b); the sticky bits are carried apart (R50). -/
def Estimate.combine (a b : Estimate) : Estimate :=
  if b.n = 0 then a
  else if a.n = 0 then { b with nonfinite := a.nonfinite }
  else
    let n := a.n + b.n
    let d := f64Sub b.mean a.mean
    let mean := f64Add a.mean (f64Mul d (f64Div (f64OfNat b.n) (f64OfNat n)))
    let m2 := f64Add (f64Add a.m2 b.m2) (f64Mul (f64Mul d d) (f64Div (f64Mul (f64OfNat a.n) (f64OfNat b.n)) (f64OfNat n)))
    { a with n := n, mean := mean, m2 := m2 }

/-- Lane values are added in ascending lane order; `f` adds one that is finite. -/
def estAdds (f : Estimate → DWord → Estimate) (v : BitVec 5) (s : State) : Result :=
  let xs := s.cur.activeValues (vreg v) 0
  let e := xs.foldl (fun e x => if (f32 x).isFinite then f e (toF64 (f32 x)) else e.exclude) s.cur.est
  done { s with cur := { s.cur with est := e } }

def execEstInit (s : State) : Result := done { s with cur := { s.cur with est := {} } }
def execEstAdd (v : BitVec 5) (s : State) : Result := estAdds Estimate.add v s
/-- A count of 0 adds nothing: `combine` leaves the estimator as it is. -/
def execEstAddw (v b : BitVec 5) (s : State) : Result :=
  estAdds (fun e x => e.combine { n := (s.cur.getS b).toNat, mean := x }) v s

/-- `est.close` (R48): a legality fault where the launch has no record, and in a supervisor flock, which has no launch (log entry 89). -/
def execEstClose (s : State) : Result :=
  once s <| s.settle (
    let record := match s.launch with | some l => l.hdr.record | none => 0
    if record = 0 then .error (plainFault 0x20)
    else
      let d : Deposit := { field := s.cur.field, est := s.cur.est }
      .ok { s with cur := { s.cur with est := {} }, fold := { s.fold with deposits := s.fold.deposits ++ [d] } }.advance)

/-! Reading a record (R62, R219). -/

/-- The address of a record that a scalar names. -/
def Flock.recordAddress (f : Flock) (a : BitVec 5) : Addr := f.pointer (f.getS a)

/-- The 64 bytes of a record, as one raw flock-wide load. -/
def State.recordLoad (s : State) (va : Addr) : Except Bad (List LaneBytes × List Byte) := do
  let plan ← s.checkAccess loadGuard [flockAccess 64 va]
  .ok (plan, (plan.flatMap fun p => p.2).map fun b => s.loadByte b.2)

/-- Lane j below 16 gets bytes 4j to 4j + 3, whatever `em` holds. -/
def recordLanes (old : Lanes) (bs : List Byte) : Lanes := Lanes.merge old 0xFFFF fun i => pickWord bs i.val

def execEstRead (v a : BitVec 5) (s : State) : Result :=
  s.settle (do
    s.room .loads
    let (plan, bs) ← s.recordLoad (s.cur.recordAddress a)
    let fault := s.machineCheck 1 plan
    let d := vreg v
    .ok ((s.softRecord fault).issue (fun o => { o with
      dests := [.vector d (s.cur.getV d) (recordLanes (s.cur.getV d) bs) false], fault := fault, places := planPlaces plan }) .loads).advance)

/-- Twice a half width at or below a bound, as FP64: an infinite 2h meets none, and a NaN is never met (R53, R61, R62). -/
def narrow (h : DWord) (bound : Num) : Bool :=
  let w := f64 (f64Mul 0x4000000000000000 h)
  w.isFinite && (match w.compare bound with | some .lt => true | some .eq => true | _ => false)

/-- Whether a record ends an `est.wait`. -/
def recordMeets (bs : List Byte) (bound : DWord) : Bool :=
  decide (2 ≤ fromBytes ((bs.drop 0x28).take 8)) || narrow (BitVec.ofNat 64 (fromBytes ((bs.drop 0x18).take 8))) (f64 bound)

def execEstWait (v a b : BitVec 5) (s : State) : Result :=
  let va := s.cur.recordAddress a
  let bound := s.cur.getS b
  s.settle (do
    let (plan, bs) ← s.recordLoad va
    match s.machineCheck 1 plan with
    | some t => .ok ((s.softRecord (some t)).defer t).advance
    | none =>
      if recordMeets bs bound then .ok (s.putV (vreg v) (recordLanes (s.cur.getV (vreg v)) bs)).advance
      else .error (.block (.estimate va bound)))

/-! Merging (R49, R51, R53, R55, R61). -/

/-- The half width's factor by confidence code: the FP64 values nearest to 1.6449, 1.9600, 2.5758 and 3.2905. -/
def confidenceFactor (code : Nat) : DWord :=
  [0x3FFA5182A9930BE1, 0x3FFF5C28F5C28F5C, 0x40049B3D07C84B5E, 0x400A52F1A9FBE76D].getD code 0

/-- Minimum count, confidence and finite-population flag: without the stop flag their bytes are not read (R27, log entry 20). -/
def Header.minCount (h : Header) : Nat := if h.stop then max h.minN 2 else 2
def Header.factor (h : Header) : DWord := confidenceFactor (if h.stop then h.confidence else 0)
def Header.finitePopulation (h : Header) : Bool := h.stop && h.finite == 1

/-- The half width after a merge (R51): each quotient of counts or by a count is exact before its one rounding (R7, log entry 79). -/
def Launch.halfWidth (l : Launch) (e : Estimate) : DWord :=
  if e.n < l.hdr.minCount then 0x7FF0000000000000
  else
    let v := f64DivBy (f64 e.m2) (Num.ofNat (e.n - 1))
    let w := if !l.hdr.finitePopulation then v
      else if l.population ≤ e.n then 0
      else f64Mul v (f64DivBy (Num.ofNat (l.population - e.n)) (Num.ofNat (l.population - 1)))
    f64Mul l.hdr.factor (f64Sqrt (f64DivBy (f64 w) (Num.ofNat e.n)))

/-- The deposits of a visit in the order of R49. -/
def Launch.depositsOf (l : Launch) (k : Nat) : List Deposit :=
  sortBy (fun a b => decide (a.field ≤ b.field)) ((lookup l.deposits k).getD [])

/-- The launch after the merge of its next visit, before the check point. -/
def Launch.merge (l : Launch) : Launch :=
  let ds := l.depositsOf l.version
  let e := ds.foldl (fun a d => a.combine d.est) l.est
  let nonfin := l.rflags.testBit 0 || ds.any fun d => d.est.nonfinite
  let fpc := l.rflags.testBit 1 || (l.hdr.finitePopulation && decide (l.hdr.minCount ≤ e.n))
  { l with
    est := e, half := l.halfWidth e, version := l.version + 1
    rflags := (if nonfin then 1 else 0) + (if fpc then 2 else 0) + (if l.rflags.testBit 2 then 4 else 0)
    deposits := l.deposits.filter fun d => d.1 != l.version }

/-- Whether a check point falls after the version that stands (R53). -/
def Launch.atCheckPoint (l : Launch) : Bool :=
  l.version == l.hdr.total || (l.hdr.stop && l.version % 2 ^ l.hdr.stride == 0)

/-- The final state of a check point, if its launch stops there (R49, R53). -/
def State.stopState (s : State) (l : Launch) : Option Nat :=
  if !l.atCheckPoint then none
  else if l.hdr.stop && (f64 l.hdr.target).isFinite && narrow l.half (f64 l.hdr.target) then some 2
  else if l.version = l.hdr.total then some 5
  else if l.hdr.deadline ≠ 0 ∧ l.hdr.deadline < s.time then some 3
  else if l.hdr.energy ≠ 0 ∧ l.hdr.energy < (s.ctx l.ctx).energy then some 4
  else none

/-- Whether a check point meets a launch's provisional subscription (R61). -/
def Launch.met (l pred : Launch) : Bool :=
  l.predecessor == some pred.id && l.hdr.mode == 2 && l.closing.isNone && !l.provisional && narrow pred.half (f32 l.hdr.threshold)

/-- Whether a check point that a launch has passed meets a subscription to it: the moment does not depend on when the subscriber was accepted
(R54, R61). -/
def Launch.hasMet (pred : Launch) (h : Header) : Bool := h.mode == 2 && pred.checks.any fun x => narrow x (f32 h.threshold)

/-- A launch stops at its version with a final state (R55): nothing of a later visit remains, and it is closing. -/
def State.stopAt (s : State) (l : Launch) (final : Nat) : State :=
  let k := l.version
  let l1 := { l with closing := some (if final = 5 then 0x10 else 0x11, k), deposits := l.deposits.filter fun d => decide (d.1 < k) }
  ((s.setLaunch l1).cancelFolds l.id fun v => decide (k ≤ v)).finishPreempt l.ctx

/-- A merge into a record that software wrote leaves its values unknown, to the launch unit and, byte by byte, in memory (R43); so does a breach of R58 (R59). -/
def Launch.scramble (l : Launch) (n : Nat) : Launch :=
  { l with
    est := { n := (Config.freeDWord n).toNat, mean := Config.freeDWord (n + 1), m2 := Config.freeDWord (n + 2) }
    half := Config.freeDWord (n + 3), rflags := (Config.freeDWord (n + 4)).toNat, spoiled := true }

/-- The merge of the next visit into the record as it stands. -/
def State.mergeInto (s : State) (l : Launch) : Launch × State :=
  if l.spoiled then
    let (n, s1) := s.draw 6
    (l.merge.scramble n, s1)
  else (l.merge, s)

/-- Whether and how a launch whose stop visit is unknown stops after a merge (R43). -/
def Launch.unknownStop (l : Launch) (n : Nat) : Option Nat :=
  if l.version = l.hdr.total then some 5
  else if !l.hdr.stop then none
  else match Config.freeChoice n % 4 with | 0 => none | k => some (k + 1)

/-- The merge of the next visit, with the record write and what its check point does. -/
def State.mergeNext (s0 : State) (l0 : Launch) : State :=
  let (l, s) := s0.mergeInto l0
  let met := fun (k : Launch) => l.hdr.stop && l.atCheckPoint && k.met l
  let any := s.launches.any met
  let final := if l.spoiled then l.unknownStop (s.free - 1) else s.stopState l
  let l1 := { l with
    rflags := if any && !l.rflags.testBit 2 then l.rflags + 4 else l.rflags
    checks := if l.atCheckPoint then l.checks ++ [l.half] else l.checks
    state := match final with | some n => n | none => if any && l.state == 0 then 1 else l.state }
  let s1 := { s with launches := s.launches.map fun k => if met k then { k with provisional := true } else k }
  let s2 := (s1.setLaunch l1).writeRecord l1
  match final with
  | none => s2
  | some n => s2.stopAt ((s2.launch? l1.id).getD l1) n

/-- Event: the merge sequencer merges a launch's next visit once its fold has ended (R49). -/
def execMergeVisit (launch : Nat) (s : State) : Result :=
  match s.launch? launch with
  | none => .next s
  | some l =>
    if l.hdr.record ≠ 0 ∧ l.closing = none ∧ l.version < l.hdr.total ∧ l.ended.contains l.version then .next (s.mergeNext l) else .next s

end Sys2Proof.Machine
end

