-- ==== Sys2Proof/Machine/Header.lean ====
section
/-!
DEFINITION. Launch headers: their layout (R27), the checks of R28 and R29, and the visiting orders (R11, R38).
-/
namespace Sys2Proof.Machine

/-! Layout (R27). -/

/-- A 72-bit address in the first nine bytes of a field. -/
def recordAddr (bs : List Byte) (off : Nat) : Addr := BitVec.ofNat 72 (recordNat bs off 9)
def recordDWord (bs : List Byte) (off : Nat) : DWord := BitVec.ofNat 64 (recordNat bs off 8)

/-- The header that 256 bytes hold. -/
def Header.parse (bs : List Byte) : Header where
  magic := BitVec.ofNat 32 (recordNat bs 0x00 4)
  flags := BitVec.ofNat 32 (recordNat bs 0x04 4)
  widths := (List.range 6).map fun j => recordNat bs (0x08 + j) 1
  extents := (List.range 6).map fun j => recordNat bs (0x10 + 4 * j) 4
  seed := recordDWord bs 0x28
  entry := recordAddr bs 0x30
  access := recordAddr bs 0x40
  partition := recordDWord bs 0x50
  priority := recordNat bs 0x58 1
  confidence := recordNat bs 0x59 1
  minN := recordNat bs 0x5A 1
  finite := recordNat bs 0x5B 1
  stride := recordNat bs 0x5C 1
  start := recordDWord bs 0x60
  deadline := recordDWord bs 0x68
  energy := recordDWord bs 0x70
  target := recordDWord bs 0x78
  record := recordAddr bs 0x80
  predecessor := recordAddr bs 0x90
  mode := recordNat bs 0x99 1
  threshold := BitVec.ofNat 32 (recordNat bs 0x9C 4)
  argument := recordAddr bs 0xA0
  rngBase := recordDWord bs 0xB0
  rngLength := recordDWord bs 0xB8
  orderKey := recordDWord bs 0xC8
  stamp := recordAddr bs 0xE0

/-- Reserved bytes are zero: those of the widths, the five plain address fields, and the rest of R27 and R60. The status word is not looked at
(log entry 77). -/
def headerReservedOk (bs : List Byte) : Bool :=
  recordZero bs 0x0E 2 && ([0x30, 0x40, 0x80, 0xA0, 0xE0].all fun o => recordZero bs (o + 9) 7) && recordZero bs 0x5D 3 &&
  recordZero bs 0x9A 2 && recordZero bs 0xF0 16

/-- Granules of the partition word (R17). -/
def Header.regs (h : Header) : Nat := field h.partition.toNat 0 5
def Header.acc (h : Header) : Nat := field h.partition.toNat 5 5
def Header.commit (h : Header) : Nat := field h.partition.toNat 10 5
/-- A half-core launch (R19). -/
def Header.half (h : Header) : Bool := decide (h.regs + h.acc + h.commit ≤ 8)
/-- F, the width of a fold index (R9). -/
def Header.indexWidth (h : Header) : Nat := h.width 2 + h.width 3 + h.width 4 + h.width 5
def Header.extent (h : Header) (j : Nat) : Nat := h.extents.getD j 0

/-! Checks (R28, R29). -/

/-- Reserved fields and flag encodings (R25, R27, R60, R232). -/
def Header.encodingOk (h : Header) (bs : List Byte) : Bool :=
  headerReservedOk bs && field h.flags.toNat 12 20 == 0 && field h.flags.toNat 0 2 != 3 && decide (field h.flags.toNat 8 4 ≤ 8) &&
  !h.entry.getLsbD 0 && h.access.extractLsb' 0 6 == 0 && decide (h.mode ≤ 2)

/-- Widths and extents (R9). -/
def Header.extentsOk (h : Header) : Bool :=
  decide (h.width 0 ≤ 5 ∧ h.width 1 ≤ 4 ∧ h.indexWidth ≤ 54) &&
  (List.range 6).all fun j =>
    decide (1 ≤ h.extent j ∧ h.extent j ≤ 2 ^ h.width j ∧ (j < 2 ∨ h.extent j ≤ 2 ^ 32 - 1))

/-- The partition word (R18). -/
def Header.partitionOk (h : Header) : Bool :=
  decide (h.regs + h.acc + h.commit ≤ 16 ∧ 1 ≤ h.regs ∧ h.regs ≤ 8 ∧ h.acc ≤ 4 ∧ h.extent 1 ≤ 4 * h.regs ∧ field h.partition.toNat 15 49 = 0) &&
  (h.commit != 0 || !(h.determ || h.restart))

/-- The header fields of a stopping launch, the record and the slot map apart (R44). The alignment of a record that a launch without the stop flag
names is not checked (log entry 81). -/
def Header.stopOk (h : Header) : Bool :=
  !h.stop ||
  (decide (h.stride ≤ 20 ∧ h.finite ≤ 1) && h.record != 0 && h.record.extractLsb' 0 6 == 0 && h.argument != 0 &&
    !(f64 h.target).isNan && (!(f64 h.target).isNeg || (f64 h.target).isZero))

/-- Whether two ranges of counters modulo 2^64 share one (R221). -/
def rangesMeet (b1 l1 b2 l2 : DWord) : Bool := l1 != 0 && l2 != 0 && (decide (b2 - b1 < l1) || decide (b1 - b2 < l2))

/-- The launches of a context that are live. -/
def State.liveOf (s : State) (ctx : Nat) : List Launch := s.launches.filter fun l => l.ctx == ctx

/-- The live launch of a context that an address heads; of several the oldest (log entry 113). -/
def State.heads (s : State) (ctx : Nat) (va : Addr) : Option Launch := (s.liveOf ctx).find? fun l => l.header == va

/-- The codes that apply by the header's own bytes and the launching flock. -/
def State.headerCodes (s : State) (h : Header) (bs : List Byte) (gangOk : Bool) : List Nat :=
  let depth := match s.launch with | some l => l.depth + 1 | none => 0
  let child := match s.launch with | some l => l.hdr.flag 5 | none => true
  (if h.magic = 0x4B4C0001 then [] else [0x20]) ++
  (if h.encodingOk bs && gangOk && h.stopOk then [] else [0x21]) ++
  (if h.extentsOk then [] else [0x22]) ++
  (if h.partitionOk then [] else [0x23]) ++
  (if child && decide (depth ≤ 4) then [] else [0x24]) ++
  (if h.stop && h.flag 5 then [0x25] else []) ++
  (if 7 < h.priority || (h.stop && decide (3 < h.confidence)) then [0x26] else [])

/-- The slot map that 32 bytes hold, or none where it breaks R57. -/
def SlotMap.parse (bs : List Byte) : Option SlotMap :=
  let m : SlotMap := { base := recordAddr bs 0, stride := recordNat bs 0x10 8, size := recordNat bs 0x18 8 }
  if recordZero bs 9 7 && m.stride % 64 == 0 && decide (m.size ≤ m.stride) then some m else none

/-- Whether a subscription names a launch that R60 admits. -/
def State.subscriptionOk (s : State) (ctx : Nat) (h : Header) : Bool :=
  h.mode == 0 || (match s.heads ctx h.predecessor with | some p => p.hdr.stop | none => false)

/-- The codes that depend on the launch unit's live launches (R221, R308). -/
def State.unitCodes (s : State) (ctx : Nat) (h : Header) : List Nat :=
  let clash := (s.liveOf ctx).any fun l => l.hdr.seed == h.seed && rangesMeet l.hdr.rngBase l.hdr.rngLength h.rngBase h.rngLength
  (if !h.flag 6 && clash then [0x27] else []) ++
  (if 4096 ≤ (s.launches.filter fun l => l.ctx / 64 == ctx / 64).length then [0x28] else [])

/-- The lowest of some codes. -/
def lowestCode (cs : List Nat) : Option Nat := cs.foldl (fun m c => match m with | some k => some (min k c) | none => some c) none

/-! Visiting orders (R11, R38). -/

/-- Bit F - 1 - j of the nested order's index. -/
def nestedBit (seed : DWord) (k j : Nat) : Bool :=
  let prefix_ := k % 2 ^ j
  let x := seed ^^^ (BitVec.ofNat 64 prefix_ * 0x9E3779B97F4A7C15#64) ^^^ (BitVec.ofNat 64 j <<< 56)
  xor (k.testBit j) ((mix64 x).getLsbD 0)

/-- The fold index of a position. -/
def Header.foldIndex (h : Header) (k : Nat) : Nat :=
  let f := h.indexWidth
  match field h.flags.toNat 0 2 with
  | 0 => k
  | 1 => bitReverse f k ^^^ field h.seed.toNat 0 f
  | _ => ((List.range f).map fun j => if nestedBit h.seed k j then 2 ^ (f - 1 - j) else 0).foldl (· + ·) 0

/-- Where field j of a fold index begins within it. -/
def Header.indexAt (h : Header) (j : Nat) : Nat := h.fieldAt j - (h.width 0 + h.width 1)

/-- A fold index in extent (R10). -/
def Header.inExtent (h : Header) (x : Nat) : Bool :=
  [2, 3, 4, 5].all fun j => decide (field x (h.indexAt j) (h.width j) < h.extent j)

/-- The first position from `k` on whose fold index is in extent, among the next `n`. -/
def Header.nextPosition (h : Header) : Nat → Nat → Option Nat
  | 0, _ => none
  | n + 1, k => if h.inExtent (h.foldIndex k) then some k else h.nextPosition n (k + 1)

/-- The next dispatch of a launch: its position, and the fold index there. -/
def Launch.nextDispatch (l : Launch) : Option (Nat × Nat) :=
  (l.hdr.nextPosition (2 ^ l.hdr.indexWidth - l.position) l.position).map fun k => (k, l.hdr.foldIndex k)

end Sys2Proof.Machine
end

