-- ==== Sys2Proof/Machine/LaunchUnit.lean ====
section
/-!
DEFINITION. The launch functions, major 0x2D: submission and acceptance (R24 to R29, R41, R220 to R222, R307, R308), dependency
counters (R31), cancellation (R56), gang launches (R310), snapshots (R223, R342) and fault replies (R291).
-/
namespace Sys2Proof.Machine

/-- Bytes in error that an instruction's unit consumes for it: a machine check, and no result (R303). -/
def State.unitSound (s : State) (need : Need) (places : List (Addr × Nat)) : Except Bad Unit :=
  match places.find? fun p => s.broken.contains (.line (p.2 / 64 * 64)) with
  | some p => .error (.soft { kind := 0x30, access := need.code, addr := p.1 })
  | none => .ok ()

/-- Bytes from a virtual address on with the addresses they were found at. -/
def placesFrom (va : Addr) (pas : List Nat) : List (Addr × Nat) := pas.zipIdx.map fun p => (va + BitVec.ofNat 72 p.2, p.1)

/-- Bytes that a unit reads for the current flock: checked as a load without a demand on the page's format, and read from memory. -/
def State.unitLoad (s : State) (need : Need) (va : Addr) (n : Nat) : Except Bad (List Byte) := do
  let pas ← s.plainBytes (s.agent s.cur) need va n
  s.unitSound need (placesFrom va pas)
  .ok (pas.map s.read)

/-- The header address that a scalar names. -/
def Flock.headerAddress (f : Flock) (a : BitVec 5) : Addr := f.pointer (f.getS a)

/-- A header address is a multiple of 256 (R27, R220). -/
def headerAligned (va : Addr) : Bool := va.toNat % 256 == 0

/-- The status word of a header is written (R28). -/
def State.headerStatus (s : State) (ctx : Nat) (va : Addr) (code : Nat) : State := s.unitWrite ctx (va + 0xD0) (toBytes 8 code)

/-! Acceptance (R29). -/

/-- The acceptance number after one: after 2^48 - 1 comes 1. -/
def nextSequence (n : Nat) : Nat := if n = 2 ^ 48 - 1 then 1 else n + 1

/-- The first number from `n` on that no live launch holds. -/
def freeSequence (held : List Nat) : Nat → Nat → Nat
  | 0, n => n
  | k + 1, n => if held.contains n then freeSequence held k (nextSequence n) else n

/-- A gang descriptor (R222), with the own send stamp. -/
def Gang.parse (bs : List Byte) (now : DWord) : Option Gang :=
  let n := recordNat bs 0x10 4
  let i := recordNat bs 0x14 4
  if recordZero bs 0x28 24 && decide (2 ≤ n ∧ n ≤ 1152 ∧ i < n) then
    some { ident := recordDWord bs 0x00, generation := recordDWord bs 0x08, members := n, index := i
           window := recordDWord bs 0x18, guard := recordDWord bs 0x20, sent := now, decided := false }
  else none

/-- A launch is accepted: it gets its number, its context becomes resident, its record is written, and it waits (R29, R41). A launch without the
stop flag that names a record has it written too (log entry 81). -/
def State.accept (s : State) (va : Addr) (h : Header) (slots : Option SlotMap) (population : Nat) (gang : Option Gang) : State × Nat :=
  let c := s.work
  let seq := freeSequence ((s.liveOf c).map fun l => l.seq) s.launches.length (s.ctx c).acceptSeq
  let pred := if h.mode = 0 then none else s.heads c h.predecessor
  let l : Launch := {
    id := s.nextId, ctx := c, header := va, hdr := h, seq := seq
    depth := match s.launch with | some p => p.depth + 1 | none => 0
    status := 0x01, secure := (s.ctx c).secure, slots := slots, population := population, gang := gang
    predecessor := pred.map fun p => p.id
    provisional := pred.any fun p => p.hasMet h
    position := 0, visits := 0, started := [], ended := [], deposits := []
    version := 0, est := {}, half := 0x7FF0000000000000, state := 0, rflags := 0, closing := none }
  let s1 : State := { s with launches := s.launches ++ [l], nextId := s.nextId + 1 }
  let s2 : State := s1.setCtx c { s1.ctx c with acceptSeq := nextSequence seq }
  let s3 := if s2.stateOf c = 1 then s2.setContextState c 2 else s2
  ((s3.writeRecord l).headerStatus c va 0x01, seq)

/-- The population that a record holds, and the slot map, as the launch unit reads them; the codes that they give (R44, R57). Where they do not translate
the launching flock takes the fault (log entry 112). -/
def State.stopData (s : State) (h : Header) : Except Bad (Option SlotMap × Nat × List Nat) := do
  let n ← if h.record = 0 then .ok 0 else do
    let bs ← s.unitLoad Need.load (h.record + 0x30) 8
    .ok (fromBytes bs)
  if !h.stop then .ok (none, n, []) else
    let bs ← s.unitLoad Need.load h.argument 32
    let m := SlotMap.parse bs
    .ok (m, n, (if m.isNone then [0x21] else []) ++ (if h.finite = 1 ∧ n < 2 then [0x21] else []))

/-- Whether a supervisor may launch: it acts for a context, of its own world or a non-secure one (R307, R367). Folds may. -/
def State.mayLaunch (s : State) : Bool := !s.cur.supervises || (decide (s.work < 512) && (s.cur.secure || !(s.ctx s.work).secure))

/-- A supervisor's load of its acting context consumes the shepherd's line (R303, R307). The load has no virtual address: that `faddr` holds the line's
system-physical one is the model's choice (log entry 131). -/
def State.actingSound (s : State) : Except Bad Unit :=
  let a := s.shepherdLine s.cur.die
  if s.cur.supervises && s.plewick.sealed then s.unitSound Need.load [(BitVec.ofNat 72 a, a)] else .ok ()

/-- A supervisor that may not launch for the context it acts for has the status of the header written in its own world: a page of the other world
gives it a world fault (R368, log entry 128). -/
def State.statusOpen (s : State) (va : Addr) : Except Bad Unit :=
  if 512 ≤ s.work then .ok () else
  match s.locateAll (s.agent s.cur) Need.store (touchesFrom (va + 0xD0) 8 .any) with
  | .error (.trap t) => if t.kind = 0x12 then .error (.trap t) else .ok ()
  | _ => .ok ()

/-- A header is submitted: the acceptance number, 0 when it is rejected. `gang` is the descriptor of a gang launch (R220). -/
def State.submit (s : State) (va : Addr) (gang : Option Addr) : Except Bad (State × Nat) := do
  let reject := fun (code : Nat) => Except.ok (s.headerStatus s.work va code, 0)
  if !headerAligned va then .ok (s, 0) else
  s.actingSound
  if !s.mayLaunch then do
    s.statusOpen va
    reject 0x21
  else
  let bs ← s.unitLoad Need.load va 256
  let h := Header.parse bs
  let g ← match gang with
    | none => .ok (none, !h.flag 7)
    | some a =>
      if h.magic ≠ 0x4B4C0001 ∨ !h.flag 7 then .ok (none, false) else
      let ds ← s.unitLoad Need.load a 64
      .ok (Gang.parse ds s.time, (Gang.parse ds s.time).isSome)
  let codes := s.headerCodes h bs g.2
  match codes with
  | 0x20 :: _ => reject 0x20
  | 0x21 :: _ => reject 0x21
  | _ => do
    let (slots, population, more) ← s.stopData h
    let all := codes ++ more ++ (if s.subscriptionOk s.work h then [] else [0x21]) ++ s.unitCodes s.work h
    match lowestCode all with
    | some code => reject code
    | none => .ok (s.accept va h slots population g.1)

def execLaunch (d a : BitVec 5) (s : State) : Result :=
  once s <| s.settle (do
    let (t, n) ← s.submit (s.cur.headerAddress a) none
    .ok (t.putS d (BitVec.ofNat 64 n)).advance)

/-- The acknowledgement that acceptance sends reaches other devices only (R310). -/
def execGang (d a b : BitVec 5) (s : State) : Result :=
  let desc := s.cur.pointer (s.cur.getS b)
  once s <| s.settle (do
    if desc.toNat % 64 ≠ 0 then .error (.trap { kind := 0x13, addr := desc }) else
    let (t, n) ← s.submit (s.cur.headerAddress a) (some desc)
    .ok (t.putS d (BitVec.ofNat 64 n)).advance)

/-! Dependency counters (R31, R220). -/

/-- A misaligned header address of a function other than `launch` and `gang`. -/
def checkHeader (va : Addr) : Except Bad Unit := if headerAligned va then .ok () else .error (.trap { kind := 0x13, addr := va })

/-- The counter of a header changes as `f` says, indivisibly at its home; none is a fault of a kind. -/
def dependency (kind : BitVec 8) (f : Nat → Option Nat) (a : BitVec 5) (s : State) : Result :=
  let va := s.cur.headerAddress a
  once s <| s.settle (do
    checkHeader va
    let pas ← s.plainBytes (s.agent s.cur) Need.atomic (va + 0xC0) 8
    s.unitSound Need.atomic (placesFrom (va + 0xC0) pas)
    let s1 := s.evict (farLines pas)
    match f (fromBytes (pas.map s1.read)) with
    | none => .error (plainFault kind)
    | some x => .ok (s1.homeWrite pas fun t => t.write (pas.zip (toBytes 8 x)) 0 s.work s.cur.secure).advance)

def execDepDec (a : BitVec 5) (s : State) : Result := dependency 0x22 (fun x => if x = 0 then none else some (x - 1)) a s
def execDepAdd (a b : BitVec 5) (s : State) : Result :=
  dependency 0x23 (fun x => if 2 ^ 64 ≤ x + (s.cur.getS b).toNat then none else some (x + (s.cur.getS b).toNat)) a s

/-! Cancellation and status (R56, R220). -/

/-- The live launch that a header address names, of a context that the current flock may name (R367). -/
def State.headNamed (s : State) (va : Addr) : Option Launch := if s.mayName s.work then s.heads s.work va else none

/-- The result is written before the launch ends: the flock may be one of its own. -/
def execCancel (d a : BitVec 5) (s : State) : Result :=
  let va := s.cur.headerAddress a
  once s <| s.settle (do
    checkHeader va
    match s.headNamed va with
    | none => .ok (s.putS d 1).advance
    | some l => .ok ((s.putS d 0).advance.closeLaunch l.id 0x12))

def execLnstat (d a : BitVec 5) (s : State) : Result :=
  let va := s.cur.headerAddress a
  s.settle (do
    checkHeader va
    match s.headNamed va with
    | some l => .ok (s.putS d (BitVec.ofNat 64 (l.status.toNat + l.ended.length % 2 ^ 48 * 256))).advance
    | none => do
      let bs ← s.unitLoad Need.load (va + 0xD0) 8
      .ok (s.putS d (BitVec.ofNat 64 (fromBytes bs % 256))).advance)

/-! Snapshots (R223, R342). -/

/-- Ranges of a snapshot descriptor. -/
def snapRanges (bs : List Byte) : List (Nat × Nat) :=
  (List.range (recordNat bs 0x08 8)).map fun i => (recordNat bs (0x40 + 32 * i) 9, recordNat bs (0x50 + 32 * i) 8)

/-- A well-formed descriptor (R223). -/
def snapOk (bs : List Byte) : Bool :=
  let n := recordNat bs 0x08 8
  decide (1 ≤ n ∧ n ≤ 6) && recordZero bs 0x19 7 && recordZero bs 0x29 7 && recordZero bs 0x30 16 &&
  (List.range n).all fun i =>
    recordZero bs (0x49 + 32 * i) 7 && recordZero bs (0x58 + 32 * i) 8 &&
    recordNat bs (0x40 + 32 * i) 9 % 64 == 0 && recordNat bs (0x50 + 32 * i) 8 % 64 == 0

/-- Whether a line of this device's memory lies on a channel of a partition (R304, log entry 21). -/
def State.ownsLine (s : State) (p line : Nat) : Bool :=
  (s.setup.partitions.getD p {}).channels.contains (Config.lineChannel line % Config.channelCount)

/-- Whether a range lies in a partition's memory. -/
def State.rangeOwned (s : State) (p : Nat) (r : Nat × Nat) : Bool :=
  (regionOf r.1 == .dram && decide (r.1 + r.2 ≤ Config.dramBytes) || regionOf r.1 == .tier && decide (r.1 + r.2 ≤ Config.tierBase + Config.tierBytes)) &&
  (spanLines r).all fun line => s.ownsLine p line

/-- The lines of the ranges with their destinations, packed end to end (R342). -/
def snapLines (dest : Nat) : List (Nat × Nat) → List (Nat × Nat)
  | [] => []
  | r :: rs => ((spanLines r).map fun line => (line, dest + (line - r.1))) ++ snapLines (dest + r.2) rs

/-- The snapshot that a descriptor asks for, or none (R342). -/
def State.snapOf (s : State) (bs : List Byte) : Option Snapshot :=
  let rs := snapRanges bs
  let dest := recordNat bs 0x10 9
  let size := rs.foldl (fun n r => n + r.2) 0
  let at_ := recordDWord bs 0x00
  let p := s.work / 64
  if snapOk bs && rs.all (s.rangeOwned p) && rs.all (fun r => !overlap dest size r.1 r.2) &&
      decide (s.time.toNat + 10000 ≤ at_.toNat) && s.snapshots.all (fun k => k.ctx / 64 != p) && s.mayName s.work then
    some { ctx := s.work, at_ := at_, ranges := rs, dest := dest, stamp := recordNat bs 0x20 9, armed := false
           pending := snapLines dest rs, damaged := [] }
  else none

/-- An access to system-physical memory that has no answer says so. -/
def Bad.physical : Bad → Bad
  | .remote t => .remote { t with physical := true }
  | b => b

/-- A non-secure flock takes a world fault for the first of some spans of system-physical memory that reaches a secure page (R368). -/
def State.spansOpen (s : State) (code : BitVec 8) : List (Nat × Nat) → Except Bad Unit
  | [] => .ok ()
  | r :: rs =>
    if !s.cur.secure && s.secureSpan r.1 r.2 then .error (.trap { kind := 0x12, access := code, addr := BitVec.ofNat 72 r.1 })
    else s.spansOpen code rs

/-- Bytes at a system-physical address. -/
def State.physicalLoad (s : State) (pa n : Nat) : Except Bad (List Byte) := do
  s.spansOpen Need.load.code [(pa, n)]
  let pas ← (s.plainBytes (s.asker s.cur { kind := 0, physical := true }) Need.load (BitVec.ofNat 72 pa) n).mapError Bad.physical
  s.unitSound Need.load (placesFrom (BitVec.ofNat 72 pa) pas)
  .ok (pas.map s.read)

/-- `snap` (R220, R342). The ranges, the destination and the stamp of a snapshot that would start keep to the flock's world (R368, log entry 87). -/
def execSnap (d a : BitVec 5) (s : State) : Result :=
  let va := s.cur.pointer (s.cur.getS a)
  s.privileged <| once s <| s.settle (do
    if va.toNat % 256 ≠ 0 then .error (.trap { kind := 0x13, addr := va }) else
    let bs ← s.physicalLoad va.toNat 256
    match s.snapOf bs with
    | none => .ok (s.putS d 1).advance
    | some sn => do
      s.spansOpen Need.engineRead.code sn.ranges
      s.spansOpen Need.engineWrite.code [(sn.dest, (sn.ranges.map fun r => r.2).sum), (sn.stamp, 8)]
      .ok ({ s with snapshots := s.snapshots ++ [sn] }.putS d 0).advance)

/-! Fault replies (R291). -/

/-- A stalled flock issues its instruction again (R289). -/
def State.replay (s : State) (flock : Nat) : State :=
  s.mapFlocks fun f => match f.status with
    | .stalled _ => if f.id = flock then { f with status := .running } else f
    | _ => f

/-- An entry that a reply reaches in a resident context is freed: a stalled flock replays, a parked fold may go. -/
def State.replyTo (s : State) (k : Parked) : State :=
  match k.flock with
  | some f => ({ s with parked := s.parked.filter fun q => q != k }.replay f).freeEntry k
  | none => State.freeEntry { s with parked := s.parked.map fun q =>
      if q = k then { q with installed := true, freed := true, replied := true } else q } k

/-- The installed byte of an entry is set. -/
def State.markInstalled (s : State) (ctx slot : Nat) : State := s.unitWrite ctx (s.parkEntry ctx slot + 1) [1]

/-- `fault.done` for a context and a generation. -/
def State.reply (s : State) (ctx : Nat) (gen : DWord) : State :=
  let hit := s.parked.filter fun k => k.ctx == ctx && k.generation == gen && !k.freed
  if s.stateOf ctx = 2 ∧ (s.ctx ctx).fgen = gen then hit.foldl State.replyTo s
  else
    let held := s.saved.filter fun k => k.fold.ctx == ctx && k.generation == gen
    let s1 := hit.foldl (fun t k => t.markInstalled ctx k.slot) s
    let s2 := held.foldl (fun t k => t.markInstalled ctx k.slot) s1
    { s2 with parked := s2.parked.map fun k => if k.ctx = ctx ∧ k.generation = gen then { k with installed := true } else k }

def execFaultDone (a b : BitVec 5) (s : State) : Result :=
  s.privileged <| once s <|
  let ctx := (s.cur.getS a).toNat
  if ctx < 512 ∧ s.mayName ctx = true then done (s.reply ctx (s.cur.getS b)) else done s

end Sys2Proof.Machine
end

