-- ==== Sys2Proof/Machine/Welt.lean ====
section
/-!
DEFINITION. Chunks and welts (R207, R224, R225, R332, R335): the sums over a chunk's elements and the tests that they must pass.
-/
namespace Sys2Proof.Machine

/-- W1 over bits packed from bit 0: the sum of their 32-bit words modulo 2^31 - 1. -/
def weltSum (bits n : Nat) : Nat := ((List.range ((n + 31) / 32)).foldl (fun t k => t + field bits (32 * k) 32) 0) % (2 ^ 31 - 1)

/-- An element's value as `ld.e` decodes it (R154); an integer is its value. -/
def Elem.weltValue (e : Elem) (sat : Bool) (scale x : Nat) : Num :=
  match e with
  | .int _ _ => e.value scale x
  | _ => f32 (e.word sat scale x)

/-- The FP64 sum of values in order. -/
def sum64 (xs : List Num) : DWord := xs.foldl (fun t x => f64Add t (toF64 x)) 0

/-- The magnitude of a value. -/
def Num.abs : Num → Num
  | .nan => .nan
  | .inf _ => .inf false
  | .fin _ m e => .fin false m e

/-- W2 and W3; both 0 when an element is not finite. -/
def weltSums (xs : List Num) : DWord × DWord :=
  if xs.all Num.isFinite then (sum64 xs, sum64 (xs.map Num.abs)) else (0, 0)

/-- Exact sum and difference of FP64 values. -/
def exactSub (x y : Num) : Num := (x.add 0 y.neg).val

/-- |d| ≤ 2^-m W3 + 2^-50 n, exactly; never where one of them is a NaN (log entry 96). -/
def withinBound (d : Num) (m : Nat) (w3 : DWord) (n : Nat) : Bool :=
  let bound := (((f64 w3).mul (.fin false 1 (-(m : Int)))).val.add 0 (.fin false n (-50))).val
  match d.abs.compare bound with
  | some .gt => false
  | some _ => true
  | none => false

/-- The test of R225, the second input absent. -/
def sumAgrees (sent got : DWord) (w3 : DWord) (n : Nat) : Bool := withinBound (exactSub (f64 got) (f64 sent)) 23 w3 n

/-- Fraction width of a float format (R335). -/
def Elem.fraction : Elem → Nat
  | .float f => f.frac
  | _ => 0

/-- An integer value as a multiple of 2^w within n of zero (R335). -/
def wrapsOnly (d : Num) (w n : Nat) : Bool :=
  match d with
  | .fin _ m e =>
    let x := if 0 ≤ e then m * 2 ^ e.toNat else m / 2 ^ (-e).toNat
    let whole := decide (0 ≤ e) || m % 2 ^ (-e).toNat == 0
    whole && x % 2 ^ w == 0 && decide (x / 2 ^ w ≤ n)
  | _ => false

/-- The test that an agent makes of the elements it formed by a reduction (R335). -/
def reductionAgrees (e : Elem) (outs : List Num) (wa wb : DWord) : Bool :=
  if !outs.all Num.isFinite then true
  else
    let w := weltSums outs
    let d := exactSub (exactSub (f64 w.1) (f64 wa)) (f64 wb)
    match e with
    | .int n _ => wrapsOnly d n outs.length
    | _ => withinBound d e.fraction w.2 outs.length

/-- The sum of two elements of a format, rounded once to nearest even; integers wrap (R227, R338). -/
def Elem.combine (e : Elem) (sat : Bool) (a b : Nat) : Nat :=
  match e with
  | .int n _ => (a + b) % 2 ^ n
  | _ => (e.encodeNum 0 sat 0 ((e.value 0 a).add 0 (e.value 0 b)).val).val

/-- Formats that a reduction accepts (R335). -/
def Elem.reducible : Elem → Bool
  | .float _ => true
  | .int _ _ => true
  | _ => false

/-- The elements of a chunk. -/
def Chunk.elements (c : Chunk) (bits : Nat) : List Nat := (List.range c.count).map fun k => field bits (c.width * k) c.width

/-- Elements packed from bit 0. -/
def packBits (w : Nat) : List Nat → Nat
  | [] => 0
  | x :: xs => x % 2 ^ w + 2 ^ w * packBits w xs

/-- The decoded values of a chunk's elements. -/
def Chunk.values (c : Chunk) (sat : Bool) (bits : Nat) : List Num :=
  (c.elements bits).zipIdx.map fun x => (elemOf c.format).weltValue sat (c.scales.getD x.2 0) x.1

/-- The 32 bytes of a welt (R224). -/
def weltBytes (w1 count : Nat) (format : BitVec 5) (hop : Nat) (w2 w3 identity : DWord) : List Byte :=
  toBytes 4 w1 ++ toBytes 2 count ++ [format.setWidth 8, BitVec.ofNat 8 hop] ++ toBytes 8 w2.toNat ++ toBytes 8 w3.toNat ++
  toBytes 8 identity.toNat

end Sys2Proof.Machine
end

