-- ==== Sys2Proof/Machine/Copy.lean ====
section
/-!
DEFINITION. Copies, major 0x28 (R204 to R211, R214, R375): the checks at issue, and the copy engine's steps, which are events.
-/
namespace Sys2Proof.Machine

/-! Regions (R375). -/

def JobKind.sourceIn : JobKind → Region → Bool
  | .get, .aperture _ => true
  | .get, _ => false
  | _, .dram => true
  | _, .tier => true
  | _, .host => true
  | _, _ => false

/-- Collective steps may have their destination on this or another device (R226). -/
def JobKind.destIn : JobKind → Region → Bool
  | .bg, .host => true
  | .bg, .tier => true
  | .bg, _ => false
  | .put, .aperture _ => true
  | .put, _ => false
  | .collPut, .aperture _ => true
  | .collRed, .aperture _ => true
  | _, .dram => true
  | _, .tier => true
  | _, _ => false

def JobKind.collective : JobKind → Bool
  | .collPut => true
  | .collRed => true
  | _ => false

/-! Layout records of a copy (R205, R206). -/

/-- The fields that a copy uses keep R176 and R177: tile rows, columns and sparsity are ignored, and planes but for a raw record. -/
def Layout.copyOk (l : Layout) (bs : List Byte) : Bool :=
  recordZero bs 0x09 7 && recordZero bs 0x34 12 && recordZero bs 0x68 24 && decide (1 ≤ l.rank ∧ l.rank ≤ 5) &&
  l.flags.extractLsb' 5 3 == 0 && (!l.rsign || l.raw) && (!l.raw || rawPlanesOk l.planes) &&
  ((List.range 5).all fun j =>
    if j < l.rank then decide (1 ≤ l.extents.getD j 0) else l.extents.getD j 0 == 0 && l.strides.getD j 0 == 0)

/-- The element width (R205). -/
def Layout.copyWidth (l : Layout) (format : BitVec 5) : Nat := if l.raw then l.planes else (elemOf format).width

/-- Faults found at issue, each with its place in the order of R237. -/
abbrev Found1 := List (Nat × Bad)

/-- The first fault in the order of R237. -/
def firstFound (fs : Found1) : Except Bad Unit :=
  match fs.foldl (fun (m : Option (Nat × Bad)) f => match m with | some k => if f.1 < k.1 then some f else m | none => some f) none with
  | some f => .error f.2
  | none => .ok ()

/-- A fault where a demand fails. -/
def demand (ok : Bool) (order : Nat) (b : Bad) : Found1 := if ok then [] else [(order, b)]

def copyOperand : Bad := engineFault 0x1A

/-- What is known of one record of a copy. -/
structure CopySide where
  layout : Option Layout := none
  page : Option Leaf := none
  faults : Found1 := []
  deriving DecidableEq, Repr

/-- The place of a fault of a record in the order of R237: the machine checks, of data in error and of a device that does not answer, come last. -/
def Bad.order : Bad → Nat
  | .soft _ => 10
  | .remote _ => 10
  | _ => 3

/-- What a record that can be read gives, its base page translated (R206); `ok` says in which regions it may lie. The width of a raw record
does not rest on its page. -/
def State.copyRecord (s : State) (need : Need) (ok : Region → Bool) (bs : List Byte) : CopySide :=
  let l := Layout.parse bs
  if !l.copyOk bs then { faults := [(1, copyOperand)] } else
  match s.locate (s.agent s.cur) need l.base with
  | .error b =>
    { layout := some l, faults := [(b.order, b)] ++ demand (!l.raw || 8 * l.base.toNat % l.planes == 0) 1 copyOperand }
  | .ok (pa, e) =>
    { layout := some l, page := some e
      faults := demand (ok (regionOf pa) && (!l.raw || rawOk e) && 8 * l.base.toNat % l.copyWidth e.format == 0) 1 copyOperand }

/-- A record at an address: its alignment, and what it holds as far as it can be read. -/
def State.copySide (s : State) (need : Need) (ok : Region → Bool) (va : Addr) : CopySide :=
  let aligned := demand (va.extractLsb' 0 7 == 0) 2 (engineFault 0x13 va)
  match s.readRecord Need.engineRead va 128 with
  | .error b => { faults := aligned ++ [(b.order, b)] }
  | .ok bs => { s.copyRecord need ok bs with faults := aligned ++ (s.copyRecord need ok bs).faults }

def CopySide.width (c : CopySide) : Option Nat :=
  match c.layout, c.page with
  | some l, some e => some (l.copyWidth e.format)
  | some l, none => if l.raw then some l.planes else none
  | none, _ => none

/-! The element set (R205). -/

/-- How many coordinates the set has in each dimension. -/
def Layout.counts (l : Layout) (start : List Nat) : List Nat := (List.range 5).map fun j => l.bound j - start.getD j 0

def Layout.elements (l : Layout) (start : List Nat) : Nat := (l.counts start).foldl (· * ·) 1

/-- The coordinates of the k-th element, dimension 0 innermost. -/
def coordsOf : List Nat → List Nat → Nat → List Nat
  | n :: ns, st :: sts, k => (st + k % n) :: coordsOf ns sts (k / n)
  | _, _, _ => []

def Layout.elementAt (l : Layout) (start : List Nat) (k : Nat) : List Nat := coordsOf (l.counts start) start k

/-- Whether every element lies in the extents of another record. -/
def Layout.covers (d l : Layout) : Bool := (List.range 5).all fun j => decide (l.bound j ≤ d.bound j)

/-- The bytes of the elements of a record, those outside its extents left out. -/
def Layout.elementBytes (l set : Layout) (start : List Nat) (w : Nat) : List Addr :=
  (List.range (set.elements start)).flatMap fun k =>
    let x := set.elementAt start k
    if l.inExtent x then (bitTouches (l.bitAt w x) w .any).map fun t => t.1 else []

/-! Issue. -/

/-- One end as an instruction names it. -/
inductive EndName where
  | record (va : Addr)
  | image (address : Nat) (slot : Option Bool)
  | trough (number : DWord)
  deriving DecidableEq, Repr

/-- Bytes of a packed image. -/
def imageBytes (k w : Nat) : Nat := (k * w + 7) / 8

/-- The trough that a copy names, or none (R214). -/
def State.copyTrough (s : State) (n : DWord) : Option Trough :=
  if s.fold.id = 0 ∨ (if s.fold.half then 4 else 8) ≤ n.toNat then none else some (s.fold.trough (n.setWidth 3))

/-- Faults of an image or trough end for a payload of some bytes, of which the least that it may have is known first. -/
def State.endFaults (s : State) (e : EndName) (bytes least : Option Nat) : Found1 :=
  match e with
  | .record _ => []
  | .image a slot =>
    demand (a % 64 == 0) 1 copyOperand ++
    (match bytes with
      | none => []
      | some n =>
        let kind := match slot with | none => true | some b => b == decide (0x1000000 ≤ a)
        if !kind then [(4, .trap { kind := 0x16, access := 6, addr := BitVec.ofNat 72 a })] else
        match s.fold.checkScratch 6 a n with
        | .error b => [(4, b)]
        | .ok _ => [])
  | .trough n =>
    match s.copyTrough n with
    | none => [(1, copyOperand)]
    | some t =>
      if !t.set then [(6, engineFault 0x1B)] else
      (match least with | some k => demand (decide (k ≤ 2 ^ t.logSize)) 1 copyOperand | none => []) ++
      (match s.fold.checkScratch 6 t.base (t.count * 2 ^ t.logSize) with | .error b => [(4, b)] | .ok _ => [])

/-- Faults of a stamp address (R206); 0 writes no stamp. -/
def State.stampFaults (s : State) (va : Addr) : Found1 :=
  if va = 0 then []
  else if va.toNat % 8 ≠ 0 then [(2, engineFault 0x13 va)]
  else match s.locateAll (s.agent s.cur) Need.engineWrite (touchesFrom va 8 .any) with
    | .error b => [(b.order, b)]
    | .ok _ => []

/-- The whole range of some bytes: from the lowest to the highest. -/
def hull (bs : List Addr) : Option (Nat × Nat) :=
  bs.foldl (fun (m : Option (Nat × Nat)) b => match m with
    | none => some (b.toNat, b.toNat)
    | some r => some (min r.1 b.toNat, max r.2 b.toNat)) none

/-- The first byte of a range that the stop flag forbids (R59): the range's first, the slot region's, or the one past the own slot. -/
def State.firstForbidden (s : State) (atomic : Bool) (lo hi : Nat) : Option Addr :=
  let edges := match s.launch.bind fun l => l.slots with
    | some m => [m.base.toNat, m.base.toNat + s.fold.visit * m.stride + m.size]
    | none => []
  ((sortBy (fun a b => decide (a ≤ b)) ((lo :: edges).filter fun a =>
    decide (lo ≤ a ∧ a ≤ hi) && s.forbidden atomic (BitVec.ofNat 72 a))).head?).map (BitVec.ofNat 72)

/-- The legality fault of a copy's whole source or destination range (R59, R206). -/
def State.rangeFaults (s : State) (atomic : Bool) (bs : List Addr) : Found1 :=
  match (hull bs).bind fun r => s.firstForbidden atomic r.1 r.2 with
  | some a => [(7, engineFault 0x20 a)]
  | none => []

/-- Whether a held lease of the flock's context covers a byte (R218). -/
def State.leased (s : State) (a : Addr) : Bool :=
  (s.leases s.work).any fun l => decide (l.base.toNat ≤ a.toNat ∧ a.toNat < l.base.toNat + l.len)

/-- What a copy asks for. -/
structure CopyAsk where
  kind : JobKind
  src : EndName
  dst : EndName
  start : List Nat
  stamp : Addr
  identity : DWord := 0
  deriving DecidableEq, Repr

/-- A copy that passed its checks: its record ends, width and element count. -/
structure CopyPlan where
  src : Option (Layout × BitVec 5)
  dst : Option (Layout × BitVec 5)
  width : Nat
  total : Nat
  deriving DecidableEq, Repr

/-- The sides of a copy that are records. -/
def State.sideOf (s : State) (need : Need) (ok : Region → Bool) (e : EndName) : Option CopySide :=
  match e with
  | .record va => some (s.copySide need ok va)
  | _ => none

/-- Faults of the two records together: the extents (R205), the formats (R206), and what a collective step needs (R227, R335). No rule names the fault
of a step from a record without the welt bit, and of one on a raw or untyped record (log entry 105). -/
def pairFaults (k : JobKind) (a b : CopySide) : Found1 :=
  (match a.layout, b.layout with
    | some l, some d => demand (d.pad || d.covers l) 1 copyOperand ++ demand (!k.collective || l.welt) 1 copyOperand
    | _, _ => []) ++
  (match a.page, b.page with
    | some e, some f => demand (e.format == f.format && a.width == b.width) 5 (engineFault 0x14)
    | _, _ => []) ++
  (match a.layout, b.layout, a.page with
    | some l, some d, some e =>
      demand (!k.collective || (e.format != 0 && !l.raw && !d.raw)) 5 (engineFault 0x14) ++
      demand (k != .collRed || (elemOf e.format).reducible) 5 (engineFault 0x14)
    | _, _, _ => [])

/-- Whether the destination of a kind is memory (R210). -/
def EndName.isMemory : EndName → Bool
  | .record _ => true
  | _ => false

/-- The width of the smallest elements (R71): what the page of a record would give is unknown where it does not translate, and a payload too
long for these is too long for any. -/
def leastWidth : Nat := 1

/-- Every check that an issuing copy makes, in the order of R237; the machine checks come last, after those of the leases and the ranges as far as the
elements are known. The legality fault of a launch that holds stores back is given to `coll.red` too (log
entry 105). -/
def State.copyCheck (s : State) (q : CopyAsk) : Except Bad CopyPlan := do
  let a := s.sideOf Need.engineRead q.kind.sourceIn q.src
  let b := s.sideOf Need.engineWrite q.kind.destIn q.dst
  let main := a.orElse fun _ => b
  let total := (main.bind fun c => c.layout).map fun l => l.elements q.start
  let width := main.bind fun c => c.width
  let bytes := match total, width with | some k, some w => some (imageBytes k w) | _, _ => none
  let least := total.map fun k => imageBytes k (width.getD leastWidth)
  let size := (match total with | some k => demand (k != 0) 1 copyOperand | none => []) ++
    (match total with | some k => demand (decide (k * width.getD leastWidth ≤ 2 ^ 35)) 1 copyOperand | none => [])
  let pair := match a, b with | some x, some y => pairFaults q.kind x y | _, _ => []
  let early := (match a with | some c => c.faults | none => []) ++ (match b with | some c => c.faults | none => []) ++ size ++ pair ++
    s.endFaults q.src bytes least ++ s.endFaults q.dst bytes least ++ s.stampFaults q.stamp
  let barred := demand (!(q.dst.isMemory && s.buffered)) 7 (engineFault 0x20)
  let layoutOf := fun (c : Option CopySide) => c.bind fun x => x.layout
  let ranges := fun (w : Nat) (set : Layout) =>
    let bytesOf := fun (c : Option CopySide) => match layoutOf c with | some l => l.elementBytes set q.start w | none => []
    let lease : Found1 := if q.kind = .ml then
        match (bytesOf b).find? fun x => !s.leased x with
        | some x => [(6, engineFault 0x1D x)]
        | none => []
      else []
    lease ++ s.rangeFaults false (bytesOf a) ++ s.rangeFaults (q.kind == .collRed) (bytesOf b)
  match early, width, total, layoutOf main with
  | [], some w, some k, some set => do
    firstFound (ranges w set ++ barred)
    let end_ := fun (c : Option CopySide) => c.bind fun x => match x.layout, x.page with | some l, some e => some (l, e.format) | _, _ => none
    .ok { src := end_ a, dst := end_ b, width := w, total := k }
  | fs, w, _, set => do
    let rest := match w, set with
      | some w, some set => if fs.all fun f => f.1 == 10 then ranges w set else []
      | _, _ => []
    firstFound (fs ++ rest ++ barred)
    .error copyOperand

/-- An end as the engine holds it. -/
def EndName.hold (e : EndName) (r : Option (Layout × BitVec 5)) : CopyEnd :=
  match e, r with
  | .image a _, _ => .image a
  | .trough n, _ => .trough (n.toNat % 8)
  | .record _, some (l, f) => .record l f
  | .record _, none => .image 0

/-- The scratch that an end covers: of a trough none before the engine has reserved a slot (R214). -/
def EndName.span (e : EndName) (bytes : Nat) : List Span :=
  match e with
  | .image a _ => [⟨a, bytes⟩]
  | _ => []

/-- Switches on the way to the device that an address lies on: none within this device (R333). -/
def State.switchesTo (s : State) (pa : Option Nat) : Nat :=
  match pa.map regionOf with
  | some (.aperture d) => match lookup s.peers d with | some p => p.switches | none => 0
  | _ => 0

/-- A copy joins the queue of its trough as it is issued: when its request arrives there is open (R214, R269, log entry 119). -/
def State.joinTrough (s : State) (job : Nat) (e : EndName) : State :=
  match e with
  | .trough n =>
    let k : BitVec 3 := n.setWidth 3
    let t := s.fold.trough k
    s.setTrough k { t with reserving := joinQueue t.reserving { agent := job, pc := 0, job := true } }
  | _ => s

/-- The copy engine accepts a copy: it gets its sequence number and is counted (R208). -/
def State.acceptCopy (s : State) (q : CopyAsk) (p : CopyPlan) : State :=
  let c := s.ctx s.work
  let g := s.agent s.cur
  let job : CopyJob := {
    id := s.nextId, kind := q.kind, flock := s.cur.id, fold := s.cur.fold, ctx := g.ctx, secure := g.secure, privileged := g.privileged
    src := q.src.hold p.src, dst := q.dst.hold p.dst, start := q.start, width := p.width, total := p.total, rounding := s.cur.fcr
    stamp := q.stamp, seq := c.copySeq, identity := q.identity, next := 0, chunk := none
    core := s.cur.core, slot := none, status := 0, failedChunks := [], stopped := false }
  let s1 : State := { s with jobs := s.jobs ++ [job], nextId := s.nextId + 1 }
  let s2 : State := (s1.setCtx s.work { c with copySeq := nextSequence c.copySeq }).joinTrough job.id q.dst
  let bytes := imageBytes p.total p.width
  s2.issue (fun o => { o with writes := q.dst.span bytes, reads := q.src.span bytes, job := some job.id }) .copies

/-- A copy or collective step is issued. -/
def issueCopy (q : CopyAsk) (s : State) : Result :=
  s.settle (do
    s.room .copies
    let p ← s.copyCheck q
    .ok (s.acceptCopy q p).advance)

/-- The start coordinates of R204. -/
def Flock.startCoords (f : Flock) (k : BitVec 3) : List Nat :=
  if k = 0 then [0, 0, 0, 0, 0] else (List.range 5).map fun j => (f.getTd (k.setWidth 4)).coords.getD j 0

/-- The stamp address in a scalar: 0 for none (R208), whatever bits 71:64 the instruction's address would give it (log entry 92). -/
def Flock.stampAddress (f : Flock) (c : BitVec 5) : Addr := if f.getS c = 0 then 0 else f.pointer (f.getS c)

/-- A scalar as a record, and as a scratch address. -/
def Flock.recordEnd (f : Flock) (a : BitVec 5) : EndName := .record (f.pointer (f.getS a))
def Flock.imageEnd (f : Flock) (a : BitVec 5) (slot : Option Bool) : EndName := .image ((f.getS a).toNat % 2 ^ 32) slot

/-- A copy: once for the flock, its bellwether taken under the guard (R201, R204). -/
def copy (kind : JobKind) (src dst : EndName) (c : BitVec 5) (g k : BitVec 3) (s : State) : Result :=
  if s.cur.active g = 0 then done s
  else issueCopy { kind := kind, src := src, dst := dst, start := s.cur.startCoords k, stamp := s.cur.stampAddress c } s

def execCopyMm (a b c : BitVec 5) (g k : BitVec 3) (s : State) : Result := copy .mm (s.cur.recordEnd a) (s.cur.recordEnd b) c g k s
def execCopyMs (a b c : BitVec 5) (g k : BitVec 3) (s : State) : Result := copy .ms (s.cur.recordEnd a) (s.cur.imageEnd b (some false)) c g k s
def execCopyMb (a b c : BitVec 5) (g k : BitVec 3) (s : State) : Result := copy .mb (s.cur.recordEnd a) (s.cur.imageEnd b (some true)) c g k s
def execCopyMl (a b c : BitVec 5) (g k : BitVec 3) (s : State) : Result := copy .ml (s.cur.recordEnd a) (s.cur.recordEnd b) c g k s
def execCopyMt (a b c : BitVec 5) (g k : BitVec 3) (s : State) : Result := copy .mt (s.cur.recordEnd a) (.trough (s.cur.getS b)) c g k s
def execCopySm (a b c : BitVec 5) (g k : BitVec 3) (s : State) : Result := copy .sm (s.cur.imageEnd a none) (s.cur.recordEnd b) c g k s
/-- The background class is a matter of bandwidth (R211, R341). -/
def execCopyBg (a b c : BitVec 5) (g k : BitVec 3) (s : State) : Result := copy .bg (s.cur.recordEnd a) (s.cur.recordEnd b) c g k s
def execCopyPut (a b c : BitVec 5) (g k : BitVec 3) (s : State) : Result := copy .put (s.cur.recordEnd a) (s.cur.recordEnd b) c g k s
def execCopyGet (a b c : BitVec 5) (g k : BitVec 3) (s : State) : Result := copy .get (s.cur.recordEnd a) (s.cur.recordEnd b) c g k s

end Sys2Proof.Machine
end

