-- ==== Sys2Proof/Machine/Engine.lean ====
section
/-!
DEFINITION. The copy engine at work: chunks read and sent (R207, R332), received and checked at every hop (R333 to R336, R338), written at
the destination (R209), and the stamp that ends a copy (R208).
-/
namespace Sys2Proof.Machine

def State.job? (s : State) (n : Nat) : Option CopyJob := s.jobs.find? fun j => j.id == n
def State.setJob (s : State) (j : CopyJob) : State := { s with jobs := s.jobs.map fun k => if k.id = j.id then j else k }

/-- The engine acts with the world and privilege of the flock that issued the work (R367). -/
def CopyJob.agent (j : CopyJob) : Agent :=
  { space := if j.ctx < 512 then some j.ctx else none, ctx := j.ctx, privileged := j.privileged, secure := j.secure
    core := some j.core }

/-- The saturation in force at issue (R227). -/
def CopyJob.sat (j : CopyJob) : Bool := j.rounding.getLsbD 2

/-- Elements of a whole chunk (R207). -/
def CopyJob.perChunk (j : CopyJob) : Nat := 32768 / j.width
def CopyJob.chunks (j : CopyJob) : Nat := (j.total + j.perChunk - 1) / j.perChunk
/-- Elements of chunk c. -/
def CopyJob.countOf (j : CopyJob) (c : Nat) : Nat := min j.perChunk (j.total - c * j.perChunk)

/-- The record whose extents the element set follows, and its format: the source's, or the destination's for a packed source. -/
def CopyJob.setRecord (j : CopyJob) : Layout :=
  match j.src, j.dst with
  | .record l _, _ => l
  | _, .record l _ => l
  | _, _ => {}

def CopyJob.format (j : CopyJob) : BitVec 5 :=
  match j.src, j.dst with
  | .record _ f, _ => f
  | _, .record _ f => f
  | _, _ => 0

/-- The coordinates of an element. -/
def CopyJob.coords (j : CopyJob) (k : Nat) : List Nat := j.setRecord.elementAt j.start k

/-! Bytes that the engine reaches (R206, R208). -/

/-- The system-physical address of a payload byte, or the status that ends the copy. A byte that fails two checks has the status of the first
made here, and a raw record's page of the same format without its raw bit disagrees in format (log entry 93). -/
def State.engineByte (s : State) (g : Agent) (need : Need) (ok : Region → Bool) (l : Layout) (format : BitVec 5) (va : Addr) : Except Nat Nat :=
  match s.locate g need va with
  | .error (.trap t) => .error (if t.kind = 0x10 then 3 else 4)
  | .error (.remote _) => .error 7
  | .error (.soft _) => .error 6
  | .error _ => .error 3
  | .ok (pa, e) =>
    if !ok (regionOf pa) then .error 9
    else if e.format ≠ format ∨ (l.raw && !rawOk e) then .error 5
    else match s.reach g va pa with
      | .error (.remote _) => .error 7
      | .error _ => .error 9
      | .ok _ => .ok pa

/-- The bytes of an element, virtual and system-physical. -/
def State.engineBytes (s : State) (g : Agent) (need : Need) (ok : Region → Bool) (l : Layout) (format : BitVec 5) (bit w : Nat) :
    Except Nat (List (Addr × Nat)) :=
  (bitTouches bit w .any).mapM fun t => do
    let pa ← s.engineByte g need ok l format t.1
    .ok (t.1, pa)

/-- A byte as the engine reads it: what this device has written and not yet written back, since an issue happens after every earlier access of
its flock (R252), else what its home holds (R204, R210). -/
def State.homeByte (s : State) (pa : Nat) : Byte := s.dirtied pa (s.mem.read pa)

/-- The bits of an element whose bytes are known. -/
def State.homeBits (s : State) (bs : List (Addr × Nat)) (bit w : Nat) : Nat :=
  field (fromBytes (bs.map fun b => s.homeByte b.2)) (bit % 8) w

/-- Whether the chunks of a job carry W2 and W3 (R207): the source is a typed record with its welt bit; a raw record's elements have no
values (log entry 94). -/
def CopyJob.sums (j : CopyJob) : Bool := match j.src with | .record l f => l.welt && !l.raw && f != 0 | _ => false

/-- The scale byte of a Microscaling element of which a job forms sums, or the status that ends the copy: it is checked as a byte of an
untyped page (R74, log entry 22). -/
def State.engineScale (s : State) (j : CopyJob) (format : BitVec 5) (bit : Nat) : Except Nat Nat :=
  match elemOf format with
  | .mx f =>
    if !j.sums then .ok 0 else do
    let pa ← s.engineByte j.agent Need.engineRead (fun _ => true) {} 0 (scaleAddress (s.ctx j.ctx) f bit)
    if s.broken != [] && s.broken.contains (.line (pa / 64 * 64)) then .error 6 else .ok (s.homeByte pa).toNat
  | _ => .ok 0

/-- The source bits of element k with its scale byte, or the status that ends the copy. -/
def State.readElement (s : State) (j : CopyJob) (k : Nat) : Except Nat (Nat × Nat) :=
  match j.src with
  | .record l format => do
    let bit := l.bitAt j.width (j.coords k)
    let bs ← s.engineBytes j.agent Need.engineRead j.kind.sourceIn l format bit j.width
    if s.broken != [] && bs.any fun b => s.broken.contains (.line (b.2 / 64 * 64)) then .error 6
    else do
      let scale ← s.engineScale j format bit
      .ok (s.homeBits bs bit j.width, scale)
  | .image a =>
    let n := (k * j.width + j.width - 1) / 8 - k * j.width / 8 + 1
    let from_ := a + k * j.width / 8
    if s.broken != [] && (List.range n).any fun i => s.scratchBad j.fold (from_ + i) then .error 6
    else match s.anyFold? j.fold with
      | some f => .ok (field (fromBytes (s.scratchBytes f from_ n)) (k * j.width % 8) j.width, 0)
      | none => .ok (field (Config.freeByte (s.free + k)).toNat 0 j.width, 0)
  | .trough _ => .error 9

/-! Failing. -/

/-- The identity of chunk c (R224, R227). -/
def CopyJob.identityOf (j : CopyJob) (c : Nat) : DWord :=
  if j.kind.collective then BitVec.ofNat 64 (j.identity.toNat / 2 ^ 32 * 2 ^ 32 + (j.identity.toNat + c) % 2 ^ 32) else BitVec.ofNat 64 c

/-- The kind of error record that a status gives (R228): transport, arithmetic, soft error, and copy failure for the others, status 7 of a collective
step among them (log entry 122). -/
def recordKind (status : Nat) : Nat := match status with | 1 => 1 | 2 => 2 | 6 => 4 | _ => 3

/-- The record of a failure at a hop, in the world of the flock that issued the work (R367). -/
def State.jobRecord (s : State) (j : CopyJob) (c hop status : Nat) : State :=
  s.errorRecordBy { s.unit j.ctx with secure := j.secure } j.ctx (j.identityOf c) hop (recordKind status) status j.stamp

/-- Bytes of other devices' memory change at their homes, which is a write of software (R43), and no element over two lines is torn (R244). -/
def State.homeCells (s : State) (cells : List (Nat × Byte)) : State :=
  let t := (s.hideWords cells).2
  let ws := (s.hideWords cells).1
  State.dropTorn { t with mem := t.mem.writeAll ws } (ws.map fun w => w.1)

/-- Bits written at their homes by the engine: what this device wrote of those lines before is written back first (R252). -/
def State.engineStore (s : State) (tag : BitVec 16) (ctx : Nat) (secure : Bool) (ws : List BitWrite) : State :=
  let far := ws.filter fun w => isFar w.address
  let s1 := (s.write (s.blendAll (ws.filter fun w => !isFar w.address)) tag ctx secure).writeBack
    (far.map fun w => w.address / 64 * 64).eraseDups
  let cells := far.foldl (fun t w => store t w.address (blend ((lookup t w.address).getD (s1.mem.read w.address)) w.enable w.data)) []
  s1.homeCells cells

/-- A copy write takes the low bits of its record's tensor tag (R171). -/
def Layout.copyTag (l : Layout) : BitVec 16 := l.tag.setWidth 16

/-- Element k's bits at a destination record; nothing outside its extents (R205), and nothing where it does not translate. -/
def State.elementWrites (s : State) (j : CopyJob) (l : Layout) (format : BitVec 5) (k x : Nat) : List BitWrite :=
  if !l.inExtent (j.coords k) then [] else
  let bit := l.bitAt j.width (j.coords k)
  match s.engineBytes j.agent Need.engineWrite j.kind.destIn l format bit j.width with
  | .ok bs => bitWrites bs bit j.width x
  | .error _ => []

/-- A chunk's elements written into the packed image at scratch address a; the last byte of the whole image is filled with zeros. -/
def State.imageWrite (s : State) (j : CopyJob) (a c bits : Nat) : State :=
  let from_ := c * j.perChunk * j.width
  let n := j.countOf c * j.width
  let b0 := from_ / 8
  let len := (from_ + n - 1) / 8 - b0 + 1
  match s.anyFold? j.fold with
  | none => s
  | some f =>
    let old := fromBytes (s.scratchBytes f (a + b0) len)
    let sh := from_ % 8
    let high := if c + 1 = j.chunks then 0 else old / 2 ^ (sh + n) * 2 ^ (sh + n)
    s.scratchWrite j.fold (a + b0) (toBytes len (old % 2 ^ sh + bits % 2 ^ n * 2 ^ sh + high)) false

/-- The scratch address of a job's image. -/
def CopyJob.imageAt (j : CopyJob) : Nat := match j.dst with | .image a => a | _ => j.slot.getD 0

/-- The destination of a chunk gets these bits. -/
def State.chunkWrite (s : State) (j : CopyJob) (c : Nat) (bits : Nat) : State :=
  match j.dst with
  | .record l format =>
    let ws := (List.range (j.countOf c)).flatMap fun i => s.elementWrites j l format (c * j.perChunk + i) (field bits (j.width * i) j.width)
    (s.engineStore l.copyTag j.ctx j.secure ws).noteStray j.fold (ws.map fun w => w.address)
  | _ => s.imageWrite j j.imageAt c bits

/-- The bytes of a failed chunk's destination are undefined (R207, R336). -/
def State.chunkSpoil (s : State) (j : CopyJob) (c : Nat) : State :=
  let (n, s1) := s.draw 4096
  s1.chunkWrite j c (fromBytes ((List.range 4096).map fun k => Config.freeByte (n + k)))

/-- The chunk that a job is at fails with a status found at a hop: a copy stops there (R208), a collective step goes on to the next chunk
(R336). A failed reduction leaves its destination as it was, and bytes that another device refuses keep theirs (R330). -/
def State.failChunk (s : State) (j : CopyJob) (hop status : Nat) : State :=
  let s1 := if j.kind = .collRed then s else s.chunkSpoil j j.next
  let k : CopyJob := { j with
    chunk := none, formed := none, riding := false, asked := none, status := if j.status = 0 then status else j.status
    failedChunks := j.failedChunks ++ [j.next], next := if j.kind.collective then j.next + 1 else j.next, stopped := !j.kind.collective }
  (s1.setJob k).jobRecord j j.next hop status

/-- The jobs of this device whose elements a chunk of a job carries: its own, and those that a switch has added (R338). -/
def CopyJob.carried (j : CopyJob) (c : Chunk) : List Nat := j.id :: c.partners

/-- A chunk fails for every job whose elements it carries (R336). -/
def State.failAll (s : State) (j : CopyJob) (c : Chunk) (hop status : Nat) : State :=
  (j.carried c).foldl (fun t id => match t.job? id with | some k => t.failChunk k hop status | none => t) s

/-- The source of a job's chunk sends it again as it formed it, with its counter at 0, up to three times (R207, R334). -/
def State.sendAgain (s : State) (hop : Nat) (id : Nat) : State :=
  match s.job? id with
  | none => s
  | some j =>
    match j.formed with
    | none => s
    | some f =>
      if f.attempts < 3 then
        let again : Chunk := { f with attempts := f.attempts + 1 }
        s.setJob { j with chunk := some again, formed := some again, riding := false }
      else s.failChunk j hop 1

/-- A transport mismatch at a hop (R207, R334). -/
def State.mismatch (s : State) (j : CopyJob) (c : Chunk) (hop : Nat) : State := (j.carried c).foldl (fun t id => t.sendAgain hop id) s

/-! Sending. -/

/-- Whether a switch holds a chunk of a job. -/
def State.heldBySwitch (s : State) (job : Nat) : Bool := s.combining.any fun e => e.held.any fun h => h.job == job

/-- Whether a job has a chunk to send: a copy into a trough has its slot first (R214). -/
def State.sendable (s : State) (j : CopyJob) : Bool :=
  !j.stopped && j.chunk.isNone && !j.riding && decide (j.next < j.chunks) && !s.heldBySwitch j.id && (j.kind != .mt || j.slot.isSome)

/-- The background copies that are first of their contexts and have a chunk to send (R341). -/
def State.background (s : State) : List CopyJob :=
  (s.jobs.filter fun j => j.kind == .bg).filter fun j =>
    s.sendable j && ((s.jobs.find? fun k => k.kind == .bg && k.ctx == j.ctx).map fun k => k.id) == some j.id

/-- The background copy that is served next: contexts take turns, by number (R341, log entry 76). -/
def State.backgroundNext (s : State) : Option CopyJob :=
  let least := fun (js : List CopyJob) => js.foldl (fun (m : Option CopyJob) j => match m with
    | some k => if j.ctx < k.ctx then some j else m
    | none => some j) none
  (least (s.background.filter fun j => decide (s.bgTurn < j.ctx))).or (least s.background)

/-- Whether a job may send its next chunk. -/
def State.maySend (s : State) (j : CopyJob) : Bool :=
  s.sendable j && (j.kind != .bg || (s.backgroundNext.map fun k => k.id) == some j.id)

/-- The combining entries in force for a chunk that is sent now (R338). -/
def State.entriesFor (s : State) (identity : DWord) : List Nat :=
  (s.combining.filter fun e => e.inForce && e.coll == field identity.toNat 40 24 && e.step == field identity.toNat 32 8).map fun e => e.id

/-- The chunk that the source end forms (R207, R224): sums only for a typed source record with its welt bit. -/
def CopyJob.form (j : CopyJob) (xs : List (Nat × Nat)) : Chunk :=
  let bits := packBits j.width (xs.map fun x => x.1)
  let c : Chunk := { index := j.next, bits := bits, scales := xs.map fun x => x.2, width := j.width, count := xs.length
                     format := j.format, w1 := weltSum bits (j.width * xs.length), w2 := 0, w3 := 0, withSums := j.sums, hop := 0
                     identity := j.identityOf j.next, attempts := 0 }
  if j.sums then { c with w2 := (weltSums (c.values j.sat bits)).1, w3 := (weltSums (c.values j.sat bits)).2 } else c

/-- The old bits of a destination element, with its status where it cannot be reached. -/
def State.oldElement (s : State) (j : CopyJob) (l : Layout) (format : BitVec 5) (k : Nat) : Except Nat Nat :=
  if !l.inExtent (j.coords k) then .ok 0 else do
    let bit := l.bitAt j.width (j.coords k)
    let bs ← s.engineBytes j.agent { r := j.kind == .collRed, w := true, code := 6 } j.kind.destIn l format bit j.width
    if j.kind == .collRed && s.broken != [] && bs.any fun b => s.broken.contains (.line (b.2 / 64 * 64)) then .error 6
    else .ok (s.homeBits bs bit j.width)

/-- The old elements of a chunk's destination record. -/
def State.oldElements (s : State) (j : CopyJob) (c : Nat) : Except Nat (List Nat) :=
  match j.dst with
  | .record l format => (List.range (j.countOf c)).mapM fun i => s.oldElement j l format (c * j.perChunk + i)
  | _ => .ok []

/-- The elements that a reduction leaves, and whether the agent's own test passes (R335). -/
def Chunk.reduceWith (c : Chunk) (sat : Bool) (bits : Nat) (old : List Nat) : List Nat × Bool :=
  let e := elemOf c.format
  let outs := ((c.elements bits).zip old).map fun x => e.combine sat x.1 x.2
  let vals := outs.map fun x => e.weltValue sat 0 x
  (outs, reductionAgrees e vals c.w2 (weltSums (old.map fun x => e.weltValue sat 0 x)).1)

/-! Answers of other devices (R330). -/

/-- The other device that an address of an agent's lies on, and the offset there; none where a table of its translation does. -/
def State.farDevice (s : State) (g : Agent) (va : Addr) : Option (Nat × Nat) :=
  match s.page g va with
  | .error _ => none
  | .ok e =>
    let pa := e.base + va.toNat % 2 ^ 16
    match regionOf pa with
    | .aperture d => some (d, pa % 2 ^ 40)
    | _ => none

/-- What keeps an access to another device from its answer. -/
inductive NoAnswer where
  /-- The device refuses it, for its offset or its tag. -/
  | refused
  /-- Nothing answers. -/
  | silent
  deriving DecidableEq, Repr

/-- Why an address of an agent of a context gets no answer, its own place or that of a table that it is translated through; none where it does. -/
def State.noAnswer (s : State) (g : Agent) (va : Addr) : Option NoAnswer :=
  match s.farDevice g va with
  | none =>
    match s.page g va with
    | .error (.remote t) =>
      match regionOf t.addr.toNat with
      | .aperture d => if (lookup s.peers d).isSome then some .refused else some .silent
      | _ => some .silent
    | _ => none
  | some (d, o) =>
    if s.peerAnswers g.ctx d o then none else if (lookup s.peers d).isSome then some .refused else some .silent

/-- Why the first of some bytes that gets no answer gets none. -/
def State.firstNoAnswer (s : State) (g : Agent) (vas : List Addr) : Option NoAnswer := vas.findSome? (s.noAnswer g)

/-- The event that an access to some bytes without answer ends with has come: a refusal that comes in time, and 4 µs without one (R330). What answers later
is not heard. -/
def State.unanswered (s : State) (why : NoAnswer) (since : DWord) (g : Agent) (vas : List Addr) : Bool :=
  match why with
  | .refused => !s.late since && s.firstNoAnswer g vas == some .refused
  | .silent => s.late since

/-- Whether some bytes lie with another device, or are translated through a table that does and gives no answer. -/
def State.asksFar (s : State) (g : Agent) (vas : List Addr) : Bool := vas.any fun va => (s.farDevice g va).isSome || (s.noAnswer g va).isSome

/-- The bytes of a job's next chunk at one of its ends, where that is a record. -/
def CopyJob.reaches (j : CopyJob) : CopyEnd → List Addr
  | .record l _ => (List.range (j.countOf j.next)).flatMap fun i =>
      let x := j.coords (j.next * j.perChunk + i)
      if l.inExtent x then (bitTouches (l.bitAt j.width x) j.width .any).map fun t => t.1 else []
  | _ => []

/-- Whether a job's chunk asks other devices and 4 µs have passed since it left (R330). -/
def State.chunkLate (s : State) (j : CopyJob) (c : Chunk) : Bool := c.since.any s.late && s.asksFar j.agent (j.reaches j.dst)

/-- A job's chunk is done with: it goes on to its next. -/
def State.nextChunk (s : State) (id : Nat) : State :=
  match s.job? id with
  | some j => s.setJob { j with chunk := none, formed := none, riding := false, next := j.next + 1 }
  | none => s

/-- Whether the next chunk of a job meets, at some bytes, a device that does not answer at all: it is out until that device answers, or 4 µs
have passed. -/
def State.jobSilent (s : State) (j : CopyJob) (vas : List Addr) : Bool := s.firstNoAnswer j.agent vas == some .silent

/-- The scale bytes that a job reads for its next chunk (R74, `State.engineScale`). -/
def State.scaleReaches (s : State) (j : CopyJob) : List Addr :=
  match j.src with
  | .record l format =>
    (match elemOf format with
      | .mx f =>
        if !j.sums then [] else
        ((List.range (j.countOf j.next)).map fun i => scaleAddress (s.ctx j.ctx) f (l.bitAt j.width (j.coords (j.next * j.perChunk + i)))).eraseDups
      | _ => [])
  | _ => []

/-- The bytes that a job asks for to form its next chunk. -/
def State.sourceReaches (s : State) (j : CopyJob) : List Addr := j.reaches j.src ++ s.scaleReaches j

/-- Switches between the ends of a job's next chunk, by the pages that it lies in at either end (R333); of several routes the longest (log entry
101). -/
def State.switchesOf (s : State) (j : CopyJob) : Nat :=
  let pages := (((j.reaches j.src ++ j.reaches j.dst).map fun b => b.toNat / 2 ^ 16).eraseDups)
  (pages.map fun p => s.switchesTo (match s.page j.agent (BitVec.ofNat 72 (p * 2 ^ 16)) with
    | .ok e => some e.base
    | .error _ => none)).foldl max 0

/-- Event: the engine reads the elements of a job's next chunk, forms the chunk and sends it. A source that does not answer at all is asked until
it does, or 4 µs have passed (R330). -/
def execCopyChunkSend (job : Nat) (s : State) : Result :=
  match s.job? job with
  | none => .next s
  | some j =>
    if !s.maySend j || j.asked.any s.late then .next s else
    match (List.range (j.countOf j.next)).mapM fun i => s.readElement j (j.next * j.perChunk + i) with
    | .error status =>
      if status = 7 && s.jobSilent j (s.sourceReaches j) then .next (s.setJob { j with asked := some (j.asked.getD s.time) })
      else .next (s.failChunk j 0 status)
    | .ok xs =>
      let c : Chunk := { j.form xs with
        entries := if j.kind.collective then s.entriesFor (j.identityOf j.next) else [] }
      let s1 := s.setJob { j with chunk := some c, formed := some c, asked := none }
      .next (if j.kind = .bg then { s1 with bgTurn := j.ctx } else s1)

/-! Receiving. -/

/-- A chunk that its destination received whole is tested and written; an answer of another device that comes late is not taken. -/
def State.deliver (s : State) (j : CopyJob) (c : Chunk) (bits hop : Nat) : State :=
  if s.chunkLate j c then s else
  match s.oldElements j j.next with
  | .error status => if status = 7 && s.jobSilent j (j.reaches j.dst) then s else s.failAll j c hop status
  | .ok old =>
    let go := fun (t : State) => (j.carried c).foldl State.nextChunk t
    if j.kind = .collRed then
      let r := c.reduceWith j.sat bits old
      if r.2 then go (s.chunkWrite j j.next (packBits j.width r.1)) else s.failAll j c hop 2
    else if c.withSums && !(sumAgrees c.w2 (weltSums (c.values j.sat bits)).1 (weltSums (c.values j.sat bits)).2 c.count) then
      s.failAll j c hop 2
    else go (s.chunkWrite j j.next bits)

/-- The combining entry at a hop that was in force when a chunk was sent (R338). -/
def State.entryFor (s : State) (c : Chunk) (hop : Nat) : Option Combine :=
  s.combining.find? fun e => e.hop == hop && c.entries.contains e.id

def State.setEntry (s : State) (e : Combine) : State := { s with combining := s.combining.map fun k => if k.id = e.id then e else k }

/-- The port at which this device's chunk enters a combining switch: p unless a chunk of its identity waits there (log entry 23). -/
def Combine.portFor (e : Combine) (identity : DWord) : Nat :=
  if e.held.any fun h => h.port == e.portP && h.chunk.identity == identity then e.portQ else e.portP

/-- Jobs whose chunks have just left: the 4 µs of R330 begin (log entry 133). -/
def State.startClock (s : State) (ids : List Nat) : State :=
  let out := fun (c : Chunk) => { c with since := some s.time }
  { s with jobs := s.jobs.map fun j => if ids.contains j.id then { j with chunk := j.chunk.map out, formed := j.formed.map out } else j }

/-- A job at the next hop of its chunk, which has left its core. W1 is recomputed there (R334). -/
def State.ingress (s : State) (j : CopyJob) (c : Chunk) (flip : Nat) : State :=
  let size := c.width * c.count
  let hop := c.hop + 1
  let bits := c.bits ^^^ flip % 2 ^ size
  if 15 < hop ∨ weltSum bits size ≠ c.w1 then s.mismatch j c hop
  else if hop ≤ s.switchesOf j then
    let c1 := { c with bits := bits, hop := hop }
    match s.entryFor c hop with
    | some e =>
      let h : Held := { port := e.portFor c.identity, chunk := c1, job := j.id, since := s.time }
      (s.setEntry { e with held := e.held ++ [h] }).setJob { j with chunk := none }
    | none => s.setJob { j with chunk := some c1 }
  else s.deliver j c bits hop

/-- Event: a chunk arrives at its next hop with some bits flipped on the way. Its requests have passed the port of the core
before (R314), and its 4 µs begin when it leaves there. -/
def execChunkIngress (job flip : Nat) (s : State) : Result :=
  match s.job? job with
  | none => .next s
  | some j =>
    match j.chunk with
    | none => .next s
    | some c =>
      if s.atPort (.chunk job) then .next s
      else if c.since.isSome then .next (s.ingress j c flip)
      else
        let s1 := s.startClock [job]
        match s1.job? job with
        | none => .next s1
        | some k => .next (s1.ingress k { c with since := some s.time } flip)

/-! Troughs (R214, R269). -/

/-- The scratch that the operation of a job writes is known (R192). -/
def State.jobWrites (s : State) (j : CopyJob) (x : Span) : State :=
  s.mapFlocks fun f => if f.id = j.flock then
      { f with pend := f.pend.map fun (o : PendOp) => if o.job = some j.id then { o with writes := [x] } else o }
    else f

/-- Event: the engine reserves a slot for a `copy.mt`; a trough closed before, or gone with its fold, ends the copy with status 8. -/
def execEngineTroughReserve (job : Nat) (s : State) : Result :=
  match s.job? job with
  | none => .next s
  | some j =>
    match j.dst with
    | .trough n =>
      if j.slot.isSome || j.stopped then .next s else
      let end_ := fun (t : State) => (t.setJob { j with stopped := true, status := 8 }).jobRecord j 0 0 8
      let me : Waiter := { agent := j.id, pc := 0, job := true }
      match s.fold? j.fold with
      | none => .next (end_ s)
      | some f =>
        let k := BitVec.ofNat 3 n
        let t := f.trough k
        let leave := fun (u : Trough) => { u with reserving := u.reserving.filter fun w => w != me }
        if t.closed then .next (end_ (s.setFold (f.setTrough k (leave t))))
        else
          match (if s.mayServe t.reserving me then t.reserve else none) with
          | some (a, u) => .next (((s.setFold (f.setTrough k (leave u))).setJob { j with slot := some a }).jobWrites j ⟨a, imageBytes j.total j.width⟩)
          | none => .next s
    | _ => .next s

/-- A slot that a copy filled is posted (R214). -/
def State.postSlot (s : State) (j : CopyJob) : State :=
  match j.dst, j.slot, s.fold? j.fold with
  | .trough n, some a, some f =>
    match (f.trough (BitVec.ofNat 3 n)).change a .reserved .posted with
    | some t => s.setFold (f.setTrough (BitVec.ofNat 3 n) t)
    | none => s
  | _, _, _ => s

/-! The stamp (R208, R209). -/

/-- Every chunk of a job is written or has failed. -/
def State.jobDone (s : State) (j : CopyJob) : Bool :=
  j.stopped || (j.chunk.isNone && !j.riding && decide (j.chunks ≤ j.next) && !s.heldBySwitch j.id)

/-- The stamp word: status and sequence number. -/
def stampWord (status seq : Nat) : List Byte := toBytes 8 (status * 2 ^ 48 + seq % 2 ^ 48)

/-- The stamp is written where its address translates at that moment (log entry 116): a release at system scope (R209, R253, R257). -/
def State.writeStamp (s : State) (j : CopyJob) : State :=
  if j.stamp = 0 then s else
  match s.plainBytes j.agent { w := true } j.stamp 8 with
  | .ok pas =>
    (s.flushRemote.engineStore 0 j.ctx j.secure (wholeBytes (pas.map fun p => (j.stamp, p)) (stampWord j.status j.seq))).noteStray j.fold pas
  | .error _ => s

/-- The flock's operation that a job performs completes. -/
def State.completeJob (s : State) (j : CopyJob) : State :=
  match (s.flock? j.flock).bind fun f => f.pend.find? fun o => o.job == some j.id with
  | some o => s.complete j.flock o.id
  | none => s

/-- Event: every payload write is performed, the stamp is written, and the copy is complete. -/
def execCopyStampWrite (job : Nat) (s : State) : Result :=
  match s.job? job with
  | none => .next s
  | some j =>
    if !s.jobDone j then .next s else
    let s1 := if j.status = 0 then s.postSlot j else s
    let s2 := s1.writeStamp j
    .next ({ s2 with jobs := s2.jobs.filter fun k => k.id != j.id }.completeJob j).releaseDeparted

end Sys2Proof.Machine
end

