-- ==== Sys2Proof/Machine/Collective.lean ====
section
/-!
DEFINITION. Welts and collectives, major 0x2E (R224 to R228), and the combining switches (R338).
-/
namespace Sys2Proof.Machine

/-! Collective steps (R226, R227). -/

/-- The step that a record of 64 bytes describes. -/
def stepAsk (kind : JobKind) (bs : List Byte) : CopyAsk :=
  { kind := kind, src := .record (recordAddr bs 0x00), dst := .record (recordAddr bs 0x10), start := [0, 0, 0, 0, 0]
    stamp := recordAddr bs 0x20, identity := recordDWord bs 0x30 }

/-- Reserved bytes of a step record are zero. -/
def stepOk (bs : List Byte) : Bool := recordZero bs 0x09 7 && recordZero bs 0x19 7 && recordZero bs 0x29 7 && recordZero bs 0x38 8

/-- The fault of a step whose record is misaligned: a wrong operand, as far as the record can be read, comes first (R237). -/
def State.misalignedStep (s : State) (kind : JobKind) (va : Addr) : Bad :=
  match s.readRecord Need.engineRead va 64 with
  | .error _ => engineFault 0x13 va
  | .ok bs =>
    match s.copyCheck (stepAsk kind bs) with
    | .error (.trap t) => if t.kind = 0x1A then .trap t else engineFault 0x13 va
    | _ => engineFault 0x13 va

/-- A collective step: what its record holds, as far as it can be read, its alignment (R226, R237), then the checks of a copy. A record with
bytes other than zero where R226 has zeros is a copy-operand fault (log entry 105). -/
def collective (kind : JobKind) (a : BitVec 5) (s : State) : Result :=
  let va := s.cur.pointer (s.cur.getS a)
  once s <|
  if recordBreaks (s.readRecord Need.engineRead va 64) stepOk then s.settle (.error copyOperand) else
  if va.toNat % 64 ≠ 0 then s.settle (.error (s.misalignedStep kind va)) else
  match s.readRecord Need.engineRead va 64 with
  | .error b => s.settle (.error b)
  | .ok bs => issueCopy (stepAsk kind bs) s

def execCollPut (a : BitVec 5) (s : State) : Result := collective .collPut a s
def execCollRed (a : BitVec 5) (s : State) : Result := collective .collRed a s

/-! `welt` and `wchk` (R225). -/

/-- The format of a chunk's pages: a fault where they differ. -/
def chunkFormat (fs : List Found) : Except Bad (BitVec 5) :=
  match fs with
  | [] => .ok 0
  | f :: rest =>
    match rest.find? fun g => g.2.2.format != f.2.2.format with
    | some g => .error (engineFault 0x14 g.1.1)
    | none => .ok f.2.2.format

/-- Elements in a chunk of some bytes: the whole ones, and bits past the last of them are no part of its sums (log entry 97). -/
def chunkCount (format : BitVec 5) (bytes : Nat) : Nat := 8 * bytes / (elemOf format).width

/-- The address of the scale byte of element k of a chunk, where its format has one (R74). -/
def State.scaleOf (s : State) (va : Addr) (format : BitVec 5) (k : Nat) : Option Addr :=
  match elemOf format with
  | .mx f => some (scaleAddress s.scaleBases f (8 * va.toNat + (elemOf format).width * k))
  | _ => none

/-- A chunk that a flock decodes: its format, its bytes, and the scale bytes of its elements. -/
structure ChunkFound where
  format : BitVec 5
  bytes : List Found
  scales : List Found
  deriving DecidableEq, Repr

/-- The welt of the n elements of a chunk, as the flock decodes them: W1, W2 and W3. -/
def State.formWelt (s : State) (va : Addr) (n : Nat) (c : ChunkFound) : Nat × DWord × DWord :=
  let e := elemOf c.format
  let bits := fromBytes (c.bytes.map fun b => s.loadByte b.2.1) % 2 ^ (e.width * n)
  let scale := fun (k : Nat) =>
    match (s.scaleOf va c.format k).bind fun a => c.scales.find? fun f => f.1.1 == a with
    | some f => (s.loadByte f.2.1).toNat
    | none => 0
  let vals := (List.range n).map fun k => e.weltValue s.cur.sat (scale k) (field bits (e.width * k) e.width)
  (weltSum bits (e.width * n), if c.format = 0 then (0, 0) else weltSums vals)

/-- Translation, world and permission of a chunk of some bytes and of its scale bytes, then their formats (R74, R225, R237). -/
def State.chunkAt (s : State) (va : Addr) (len : Nat) : Except Bad ChunkFound := do
  let found ← s.locateAll (s.agent s.cur) Need.engineRead (touchesFrom va len .any)
  let format ← chunkFormat found
  let places := ((List.range (chunkCount format len)).filterMap fun k => s.scaleOf va format k).eraseDups
  let scales ← s.locateAll (s.agent s.cur) Need.engineRead (places.map fun a => (a, .untyped))
  formatFault false scales
  .ok { format := format, bytes := found, scales := scales }

/-- The places that a flock reads of a chunk. -/
def ChunkFound.all (c : ChunkFound) : List Found := c.bytes ++ c.scales

/-- Under the deterministic or the restartable flag the welt enters the commit buffer as a store does (log entry 106). -/
def execWelt (a b c : BitVec 5) (s : State) : Result :=
  let va := s.cur.pointer (s.cur.getS a)
  let len := (s.cur.getS b).toNat
  let out := s.cur.pointer (s.cur.getS c)
  once s <| s.settle (do
    if len = 0 ∨ 4096 < len then .error copyOperand else
    if out.toNat % 32 ≠ 0 then .error (engineFault 0x13 out) else
    let dest ← s.locateAll (s.agent s.cur) Need.engineWrite (touchesFrom out 32 .any)
    let c ← s.chunkAt va len
    s.legalFault false false c.all
    s.legalFault false false dest
    s.reachAll 6 false (c.all.map Found.place)
    s.reachAll 6 s.buffered (dest.map Found.place)
    let n := chunkCount c.format len
    match s.machineCheck 6 [(none, c.all.map Found.place)] with
    | some t => .error (.soft t)
    | none =>
      let w := s.formWelt va n c
      let ws := wholeBytes (dest.map Found.place) (weltBytes w.1 n c.format 0 w.2.1 w.2.2 0)
      roomFor s.bufferRoom (s.cur.newLines ws)
      .ok ((s.unitReads (c.all.map fun f => f.2.1)).storeBits ws).advance)

/-- Elements of the smallest width that 4,096 bytes hold. -/
def mostElements : Nat := 8 * 4096 / leastWidth

/-- The element count of a welt: 0 means 65,536 (R224). -/
def weltCount (bs : List Byte) : Nat := if recordNat bs 4 2 = 0 then 65536 else recordNat bs 4 2

/-- `wchk` takes its chunk's length from the welt's count and the width of the page's format (log entry 95). A count that is too long in any
format is refused before the chunk is translated, and a welt that no device answers for is reported after what is wrong with the operands besides
(R237). -/
def execWchk (d a b : BitVec 5) (s : State) : Result :=
  let va := s.cur.pointer (s.cur.getS a)
  let ref := s.cur.pointer (s.cur.getS b)
  once s <| s.settle (do
    let refs ← s.locateAll (s.agent s.cur) Need.engineRead (touchesFrom ref 32 .any)
    match s.reachAll 6 false (refs.map Found.place) with
    | .error b => do
      let _ ← s.locate (s.agent s.cur) Need.engineRead va
      s.legalFault false false refs
      .error b
    | .ok _ => do
    let bs := refs.map fun f => s.loadByte f.2.1
    let n := weltCount bs
    if mostElements < n then .error copyOperand else
    let (_, e) ← s.locate (s.agent s.cur) Need.engineRead va
    let len := (n * (elemOf e.format).width + 7) / 8
    if 4096 < len then .error copyOperand else
    let c ← s.chunkAt va len
    s.legalFault false false refs
    s.legalFault false false c.all
    s.reachAll 6 false (c.all.map Found.place)
    match s.machineCheck 6 [(none, refs.map Found.place ++ c.all.map Found.place)] with
    | some t => .error (.soft t)
    | none =>
      let w := s.formWelt va n c
      let result : Nat := if w.1 ≠ recordNat bs 0 4 then 1 else if sumAgrees (recordDWord bs 8) w.2.1 w.2.2 n then 0 else 2
      .ok ((s.unitReads ((refs ++ c.all).map fun f => f.2.1)).putS d (BitVec.ofNat 64 result)).advance)

/-! The error ring (R228). -/

/-- A field of the oldest entry of a context's ring: 0 when the ring is empty. -/
def State.ringField (s : State) (ctx off n : Nat) : Nat :=
  let c := s.ctx ctx
  if c.ringIn ≤ c.ringOut then 0 else (s.unitNat ctx (c.ringEntry c.ringOut + BitVec.ofNat 72 off) n).getD 0

/-- The first byte in error among some bytes of the oldest entry, of its own line or of a table entry that it is found through (R303). -/
def State.ringError (s : State) (ctx off n : Nat) : Option Addr :=
  let c := s.ctx ctx
  let va := c.ringEntry c.ringOut + BitVec.ofNat 72 off
  if s.broken = [] ∨ c.ringIn ≤ c.ringOut then none else
  match s.plainBytes (s.unit ctx) { r := true } va n with
  | .ok pas => ((placesFrom va pas).find? fun p => s.broken.contains (.line (p.2 / 64 * 64))).map fun p => p.1
  | .error (.soft _) => some va
  | .error _ => none

/-- The end of a `cstat`: its destination gets the word, or stays as it is where that was read from a ring entry in error, which is a machine check (R303).
That the entry is popped and the lost bit cleared all the same is the model's choice (log entry 117). -/
def State.ringAnswer (s : State) (d : BitVec 5) (word : DWord) (bad : Option Addr) : State :=
  match bad with
  | none => s.putS d word
  | some a => (s.softRecord (some { kind := 0x30, access := 1, addr := a })).defer { kind := 0x30, access := 1, addr := a }

/-- k = 0 pops the oldest entry; k = 1 looks at it and clears the lost bit. A supervisor's ring is the one that its own `errq` names (log entry 8). -/
def execCstat (d : BitVec 5) (k : BitVec 6) (s : State) : Result :=
  let n := s.cur.ctx
  let c := s.ctx n
  if k.toNat = 0 then
    once s <| done ((s.setCtx n { c with ringOut := if c.ringOut < c.ringIn then c.ringOut + 1 else c.ringOut }).ringAnswer d
      (BitVec.ofNat 64 (s.ringField n 0 8)) (s.ringError n 0 8))
  else if k.toNat = 1 then
    let word := s.ringField n 8 1 + s.ringField n 9 1 * 2 ^ 8 + s.ringField n 0x0A 2 * 2 ^ 16 + if c.lost then 2 ^ 63 else 0
    once s <| done ((s.setCtx n { c with lost := false }).ringAnswer d (BitVec.ofNat 64 word) (s.ringError n 8 4))
  else .next (s.illegalHere 0x08)

/-! Combining switches (R338). -/

/-- Whether of two held chunks the later came within 100 µs of the earlier (R338). -/
def Held.inTime (h k : Held) : Bool := decide (h.since.toNat ≤ k.since.toNat + 100000 ∧ k.since.toNat ≤ h.since.toNat + 100000)

/-- Two held chunks of one identity, from p and from q, that came in time for each other. -/
def Combine.pair (e : Combine) : Option (Held × Held) :=
  e.held.findSome? fun h =>
    if h.port = e.portP then
      (e.held.find? fun k => k.port == e.portQ && k.chunk.identity == h.chunk.identity && h.inTime k).map fun k => (h, k)
    else none

/-- The combined chunk as a switch at a hop forwards it, with some bits of the output flipped, and whether it passes the switch's test. Where its inputs come
with different hop counters R338 names none for it: it carries the entry's own hop, which is the model's choice (log entry 134). -/
def combineChunks (hop : Nat) (p q : Chunk) (flip : Nat) : Chunk × Bool :=
  let e := elemOf p.format
  let size := p.width * p.count
  let outs := ((p.elements p.bits).zip (q.elements q.bits)).map fun x => e.combine false x.1 x.2
  let bits := packBits p.width outs ^^^ flip % 2 ^ size
  let c : Chunk := { p with bits := bits, w1 := weltSum bits size, withSums := true, attempts := 0, hop := hop }
  let vals := c.values false bits
  ({ c with w2 := (weltSums vals).1, w3 := (weltSums vals).2 }, reductionAgrees e vals p.w2 q.w2)

/-- A held chunk of this device's failed at a switch. -/
def State.switchFail (s : State) (h : Held) : State :=
  match s.job? h.job with
  | some j => s.failAll j h.chunk h.chunk.hop 2
  | none => s

/-- The combined chunk in the place of a held one of a job, with the jobs whose elements it carries besides. -/
def CopyJob.carry (j : CopyJob) (h : Held) (c : Chunk) (others : List Nat) : CopyJob :=
  { j with chunk := some { c with
      index := h.chunk.index, entries := h.chunk.entries, partners := h.chunk.partners ++ others } }

/-- The combined chunk goes on in the place of one job's; another job of this device rides on it until it is delivered. The time that a switch held a chunk is
none of the 4 µs of R330 (log entry 133). -/
def State.forward (s : State) (p q : Held) (c : Chunk) : State :=
  (match s.job? p.job, s.job? q.job with
  | some j, some k => (s.setJob (j.carry p c (k.carried q.chunk))).setJob { k with chunk := none, riding := true }
  | some j, none => s.setJob (j.carry p c [])
  | none, some k => s.setJob (k.carry q c [])
  | none, none => s).startClock [p.job, q.job]

/-- Event: a switch adds two chunks of one identity, element by element, tests the result and forwards one chunk. -/
def execSwitchCombine (entry flip : Nat) (s : State) : Result :=
  match s.combining.find? fun e => e.id == entry with
  | none => .next s
  | some e =>
    match e.pair with
    | none => .next s
    | some (p, q) =>
      let r := combineChunks e.hop p.chunk q.chunk flip
      let s1 := s.setEntry { e with held := e.held.filter fun h => h != p && h != q }
      if r.2 then .next (s1.forward p q r.1) else .next ((s1.switchFail p).switchFail q)

/-- Whether a held chunk has waited 100 µs for a partner that has not come in that time (R338). -/
def Combine.overdue (e : Combine) (now : DWord) (h : Held) : Bool :=
  decide (h.since.toNat + 100000 ≤ now.toNat) && !e.held.any fun k => k.port != h.port && k.chunk.identity == h.chunk.identity && h.inTime k

/-- Event: the partner of a held chunk did not come in time; the chunk is discarded as a transport mismatch at that hop. -/
def execSwitchCombineTimeout (entry : Nat) (s : State) : Result :=
  match s.combining.find? fun e => e.id == entry with
  | none => .next s
  | some e =>
    match e.held.find? (e.overdue s.time) with
    | none => .next s
    | some h =>
      let s1 := s.setEntry { e with held := e.held.filter fun k => k != h }
      match s.job? h.job with
      | some j => .next ((s1.startClock (j.carried h.chunk)).mismatch j h.chunk h.chunk.hop)
      | none => .next s1

end Sys2Proof.Machine
end

