-- ==== Sys2Proof/Machine/Streams.lean ====
section
/-!
DEFINITION. The affine access engine, major 0x30 (R230 to R233): streams, the operand queues, and the engine's fetches, which are events.
-/
namespace Sys2Proof.Machine

/-! Descriptors (R230). -/

/-- The descriptor that 64 bytes hold, or none where R230 refuses it. -/
def StreamDesc.parse (bs : List Byte) : Option StreamDesc :=
  let flags := BitVec.ofNat 8 (recordNat bs 9 1)
  if flags.extractLsb' 2 6 == 0 && flags != 3 && recordZero bs 0x0A 6 then
    some {
      base := recordAddr bs 0, flags := flags
      counts := [recordNat bs 0x10 4, recordNat bs 0x14 4, recordNat bs 0x18 4]
      laneStride := signed 32 (recordNat bs 0x1C 4)
      strides := [signed 64 (recordNat bs 0x20 8), signed 64 (recordNat bs 0x28 8), signed 64 (recordNat bs 0x30 8)]
      flockStride := signed 32 (recordNat bs 0x38 4), visitStride := signed 32 (recordNat bs 0x3C 4) }
  else none

/-- Entries of a stream. -/
def StreamDesc.total (d : StreamDesc) : Nat := d.counts.foldl (· * ·) 1

/-- The address of a lane's element of entry k, i0 innermost. -/
def StreamDesc.address (d : StreamDesc) (flockField visit k : Nat) (i : Fin 32) : Addr :=
  let n0 := d.counts.getD 0 1
  let n1 := d.counts.getD 1 1
  BitVec.ofInt 72 ((d.base.toNat : Int) + flockField * d.flockStride + visit * d.visitStride + (k % n0 : Nat) * d.strides.getD 0 0 +
    (k / n0 % n1 : Nat) * d.strides.getD 1 0 + (k / (n0 * n1) : Nat) * d.strides.getD 2 0 + (i.val : Int) * d.laneStride)

/-- A stream starts behind the entries still queued; an empty one is over at once. -/
def Queue.start (q : Queue) (d : StreamDesc) : Queue :=
  if d.total = 0 then q else { q with stream := some { desc := d, next := 0, held := false } }

/-! Instructions (R231). -/

def streamFault : Bad := plainFault 0x1E

/-- A descriptor that R230 refuses raises the stream fault (log entry 25). The machine checks come last (R237). -/
def execAestr (a : BitVec 5) (q : BitVec 2) (s : State) : Result :=
  let va := s.cur.pointer (s.cur.getS a)
  let running := (s.cur.getQ q).stream.isSome
  s.settle (do
    if va.toNat % 64 ≠ 0 then .error (.trap { kind := 0x13, access := 1, addr := va }) else
    let found ← (s.locateAll (s.agent s.cur) Need.load (touchesFrom va 64 .any)).mapError fun b => if b.order = 10 ∧ running then streamFault else b
    if running then .error streamFault else
    s.reachAll 1 false (found.map Found.place)
    s.unitSound Need.load (found.map Found.place)
    match StreamDesc.parse (found.map fun f => s.loadByte f.2.1) with
    | none => .error streamFault
    | some d => .ok { s with cur := s.cur.setQ q ((s.cur.getQ q).start d) }.advance)

/-- The `qpop` that raised a fault is issued again: the engine may fetch the faulted entry again (R233). -/
def Queue.release (q : Queue) : Queue := { q with stream := q.stream.map fun st => { st with held := false } }

/-- The fault of the head entry is raised. -/
def Queue.raise (q : Queue) : Queue := { q with raised := true }

/-- `qpop`: a head entry that carries a fault raises it and stays; issued again, once the fault is dealt with, it waits for the engine to
fetch the entry again (R231, R233, R286). An entry in error is popped: its machine check is of the `qpop` that consumes it (R237, R303, log entry 117). An entry whose request waits at the port has not come yet (R314). -/
def execQpop (d : BitVec 5) (n : BitVec 2) (s : State) : Result :=
  let q := s.cur.getQ n
  match q.entries with
  | [] => if q.stream.isSome then .next (s.setStatus (.blocked (.queue n))) else s.settle (.error streamFault)
  | e :: rest =>
    if s.atPort (.entry s.cur.id n e.index) then .next (s.setStatus (.blocked (.queue n))) else
    match e.fault with
    | some t =>
      if q.raised then .next ({ s with cur := s.cur.setQ n q.release }.setStatus (.blocked (.queue n)))
      else .next ({ s with cur := s.cur.setQ n q.raise }.trapHere t)
    | none =>
      let s1 := { s with cur := s.cur.setQ n { q with entries := rest } }
      match e.broken with
      | some a =>
        let t : TrapInfo := { kind := 0x30, access := 1, addr := a }
        done ((s1.softRecord (some t)).defer t)
      | none => done (s1.putLanes (vreg d) (s.cur.active 0) fun i => e.lanes.at i)

/-- The word of `qstat`. Bit 9 shows a fault that stays with the entry, and not that its data is in error (log entry 117). -/
def Queue.word (q : Queue) : DWord :=
  BitVec.ofNat 64 (q.entries.length + (if q.stream.isSome then 256 else 0) +
    match q.entries with | e :: _ => (if e.fault.isSome then 512 else 0) | [] => 0)

def execQstat (d : BitVec 5) (q : BitVec 2) (s : State) : Result := setScalar d (s.cur.getQ q).word s
def execAestop (q : BitVec 2) (s : State) : Result := done { s with cur := s.cur.setQ q {} }

/-! Fetching (R231, R233). -/

/-- The state as a flock sees it, to check what it accesses. -/
def State.as (s : State) (f : Flock) : State := { s with cur := f, fold := (s.fold? f.fold).getD Fold.absent }

/-- The access of a lane to its element: a raw word, or an element of at least 8 bits of the page that holds it. R230 states an alignment for typed streams
only; that a raw word lies at a multiple of 4, and takes an alignment fault elsewhere, is the model's choice (log entry 24). -/
def State.streamAccess (s : State) (d : StreamDesc) (va : Addr) (i : Fin 32) : LaneAccess × BitVec 5 :=
  if d.flags = 0 then ({ lane := some i, aligned := va.toNat % 4 == 0, va := va, touches := touchesFrom va 4 .raw }, 0)
  else
    let code := match s.page (s.agent s.cur) va with | .ok e => e.format | .error _ => 0
    let e := elemOf code
    let n := e.width / 8
    let ok := e.admits (d.flags == 2) && decide (8 ≤ e.width)
    ({ lane := some i, aligned := n == 0 || va.toNat % n == 0, va := va
       touches := touchesFrom va (max n 1) (.typed code ok) }, code)

/-- A lane's word from the bytes of its element. -/
def StreamDesc.word (d : StreamDesc) (code : BitVec 5) (bs : List Byte) : Word :=
  if d.flags = 0 then BitVec.ofNat 32 (fromBytes bs)
  else if d.flags = 2 then (elemOf code).intWord (fromBytes bs)
  else (elemOf code).word false 0 (fromBytes bs)

/-- The entry that a fetch brings; `s` is the state as the flock sees it. An access that has no answer is a machine check (R330), and so is one
whose translation reads a table entry in error, as data in error is (R303). -/
def State.fetchEntry (s : State) (d : StreamDesc) (k : Nat) : Except Bad QueueEntry :=
  let ls := lanes.map fun i => s.streamAccess d (d.address s.cur.field s.fold.visit k i) i
  let bad := fun (t : TrapInfo) => Except.ok { lanes := Lanes.zero, fault := some t, broken := none, index := k }
  match s.checkAccess loadGuard (ls.map fun l => l.1) with
  | .error (.trap t) => bad t
  | .error (.remote t) => bad t
  | .error (.soft t) => .ok { lanes := Lanes.zero, fault := none, broken := some t.addr, index := k }
  | .error b => .error b
  | .ok plan =>
    let word := fun (i : Fin 32) => d.word ((ls.map fun l => l.2).getD i.val 0) ((laneBytes plan i).map fun b => s.read b.2)
    let broken := (plan.flatMap fun p => p.2).find? fun b => s.broken.contains (.line (b.2 / 64 * 64))
    .ok { lanes := Lanes.build word, fault := none, broken := broken.map fun b => b.1, index := k, places := planPlaces plan }

/-- The queue after a fetched entry: it replaces the entry that faulted, or joins the end; a fault holds the stream, and the last
entry ends it. -/
def Queue.take (q : Queue) (st : Stream) (e : QueueEntry) (again : Bool) : Queue :=
  let entries := (if again then q.entries.dropLast else q.entries) ++ [e]
  if e.fault.isSome then { entries := entries, stream := some { st with held := true, next := e.index + 1 } }
  else if st.desc.total ≤ e.index + 1 then { entries := entries, stream := none }
  else { entries := entries, stream := some { st with next := e.index + 1, held := false } }

/-- The entry that a queue's stream fetches next, if it may fetch, and whether it does so again. -/
def Queue.wanted (q : Queue) : Option (Stream × Nat × Bool) :=
  match q.stream with
  | none => none
  | some st =>
    if st.held || st.stop.isSome then none else
    match q.entries.getLast? with
    | some e => if e.fault.isSome then some (st, e.index, true) else if q.entries.length < 16 then some (st, st.next, false) else none
    | none => some (st, st.next, false)

/-- The queue whose stream fetches from where the spec gives an access no effect (R304, log entry 129). -/
def Queue.halt (q : Queue) (b : Bad) : Queue :=
  { q with stream := q.stream.map fun st => { st with
      stop := match b with | .stop x => some (.fault x) | .refuse r => some (.refusal r) | _ => none } }

/-- Event: the engine fetches the next entry of a flock's queue. -/
def execStreamFetch (flock : Nat) (n : BitVec 2) (s : State) : Result :=
  match s.flock? flock with
  | none => .next s
  | some f =>
    match (f.getQ n).wanted with
    | none => .next s
    | some (st, k, again) =>
      match (s.as f).fetchEntry st.desc k with
      | .ok e => .next (s.setFlock (f.setQ n ((f.getQ n).take st e again)))
      | .error b => .next (s.setFlock (f.setQ n ((f.getQ n).halt b)))

end Sys2Proof.Machine
end

