-- ==== Sys2Proof/Machine/Delivery.lean ====
section
/-!
DEFINITION. What happens to a flock besides its instructions: it becomes the one that issues, it traps on an encoding or a fetch
(R110, R112, R301), its operations complete (R115, R116), a deferred fault reaches it (R175), and a blocking instruction may go
on (R202).
-/
namespace Sys2Proof.Machine

/-! The flock that issues. -/

/-- The flocks besides the current one, by number. -/
def joinFlock (f : Flock) (fs : List Flock) : List Flock := insertBy (fun a b => decide (a.id ≤ b.id)) f fs

/-- The folds besides the current one's, by number. -/
def joinFold (f : Fold) (fs : List Fold) : List Fold := if f.id = 0 then fs else insertBy (fun a b => decide (a.id ≤ b.id)) f fs

/-- Flock `n` becomes the current one, with its fold. A flock of a fold that has left its core ceases to exist when it stops being
the current one. -/
def State.turnTo (s : State) (n : Nat) : State :=
  if s.cur.id = n then s else
  match s.flocks.find? fun f => f.id == n with
  | none => s
  | some f =>
    let rest := s.flocks.filter fun k => k.id != n
    let gone := s.cur.fold == 0 && !s.cur.supervises
    { s with
      cur := f
      flocks := if gone then rest else joinFlock s.cur rest
      fold := (s.fold? f.fold).getD Fold.absent
      folds := (joinFold s.fold s.folds).filter fun k => k.id != f.fold || f.fold == 0 }

/-- Something happens to flock `n` as if it were the current one. -/
def State.onFlock (s : State) (n : Nat) (g : State → State) : State :=
  match s.flock? n with
  | none => s
  | some _ => (g (s.turnTo n)).turnTo s.cur.id

/-! Illegal instructions and fetch faults. -/

/-- What fetch finds at the program counter (R100, R301): a fault on the first halfword or on the second alone, or the bytes. -/
inductive Fetched where
  | fault (second : Bool)
  | bytes (bs : List Byte)
  deriving DecidableEq, Repr

def halfBytes (h : BitVec 16) : List Byte := [h.extractLsb' 0 8, h.extractLsb' 8 8]

def State.fetch (s : State) : Fetched :=
  match s.fetchHalf Need.fetch s.cur.pc with
  | .error _ => .fault false
  | .ok h =>
    if h.getLsbD 0 then
      match s.fetchHalf { Need.fetch with code := 5 } (s.cur.pc + 2) with
      | .error _ => .fault true
      | .ok g => .bytes (halfBytes h ++ halfBytes g)
    else .bytes (halfBytes h)

/-- The pattern that `tinfo` shows (R112). -/
def Enc.pattern : Enc → BitVec 32
  | .half h => h.setWidth 32
  | .word w => w

/-- The number whose bytes these are, lowest first. -/
def bytesPattern (bs : List Byte) : BitVec 32 := bs.foldr (fun b w => w <<< 8 ||| b.setWidth 32) 0

/-- Whether the current flock runs and this pattern stands where it fetches. -/
def State.finds (s : State) (enc : BitVec 32) : Bool :=
  s.cur.status == .running &&
  match s.fetch with
  | .fault _ => false
  | .bytes bs => bytesPattern bs == enc

/-- Event: the pattern at the program counter is not an instruction (R110); at no other time is `tinfo` written so (R112). Here the pattern is held
against what fetch reads; `State.mayAct` holds the cause against the decoder, and no step runs this event without it. -/
def execIllegalInstruction (cause : BitVec 8) (enc : BitVec 32) (s : State) : Result :=
  if s.finds enc then .next (s.illegal cause enc) else .next s

/-- Event: the first halfword, or the second one alone, cannot be fetched (R301). `tinfo` is not written. -/
def execFetchFault (second : Bool) (s : State) : Result :=
  if s.cur.status ≠ .running ∨ s.fetch ≠ .fault second then .next s else
  let need : Need := { x := true, code := if second then 5 else 4 }
  match s.fetchHalf need (if second then s.cur.pc + 2 else s.cur.pc) with
  | .ok _ => .next s
  | .error b => s.fetchFault b

/-! Completion (R115, R116). -/

/-- Event: the data of a flock's oldest load has arrived. -/
def execLoadComplete (flock : Nat) (s : State) : Result := .next (s.completeOldest flock .loads fun _ => true)

/-- Event: a flock's oldest store is performed. -/
def execStoreComplete (flock : Nat) (s : State) : Result := .next (s.completeOldest flock .stores fun _ => true)

/-! Deferred faults (R175). -/

/-- The pending fault whose consuming instruction issued first, of those that are not held until the end of a routine. -/
def Flock.deliverable (f : Flock) : Option Deferred :=
  (f.deferred.filter fun d => f.routine == .none || decide (f.entered ≤ d.op)).foldl
    (fun m d => match m with | some e => if e.op ≤ d.op then some e else some d | none => some d) none

/-- Whether a flock stands at an instruction boundary, or in an instruction that waits there. -/
def Flock.atBoundary (f : Flock) : Bool :=
  match f.status with
  | .stalled _ => false
  | .remote _ _ => false
  | .stuck _ => false
  | .yielded => false
  | .ended => false
  | _ => true

/-- A flock at the boundary at which a trap finds it: a sleep is complete, its loop levels stepped as after any instruction (R136, R143). -/
def Flock.boundary (f : Flock) : Flock :=
  match f.status with
  | .sleeping _ => { f with status := .running }.advance 4
  | _ => f

/-- The address at which a flock goes on after a trap: that of an instruction in which it waits (log entry 58). -/
def Flock.resumeAt (f : Flock) : Addr := f.boundary.pc

/-- The current flock takes its first deliverable fault. -/
def State.deliverFault (s : State) : State :=
  match s.cur.deliverable with
  | none => s
  | some d =>
    if !s.cur.atBoundary then s else
    { s with cur := { s.cur.boundary with deferred := s.cur.deferred.filter fun e => e != d } }.takeTrap d.info s.cur.resumeAt (some d.pc)

/-- Event: a deferred fault is taken at an instruction boundary of its flock. -/
def execDeferredFaultDelivery (flock : Nat) (s : State) : Result := .next (s.onFlock flock State.deliverFault)

/-! Blocking instructions (R202). -/

/-- Whether the engine has news for `qpop` on queue n: an entry that has come and may be taken or raised, or no stream any more. -/
def State.queueReady (s : State) (n : BitVec 2) : Bool :=
  let q := s.cur.getQ n
  match q.entries with
  | [] => q.stream.isNone
  | e :: _ => (e.fault.isNone || !q.raised) && !s.atPort (.entry s.cur.id n e.index)

/-- Whether the condition for which the current flock's instruction waits holds. A trough that is closed wakes a flock that waits for a slot of it,
which takes the trough fault (log entry 110). -/
def State.conditionMet (s : State) : Block → Bool
  | .wait l st c t => s.cur.within l st c t
  | .saturated c => decide (s.cur.count c < c.limit)
  | .fence o => s.cur.fenceDone o
  | .storesDone => s.cur.count .stores == 0
  | .allDone => s.cur.countersZero
  | .operands => !s.cur.fencedWork
  | .reserve n =>
    let t := s.fold.trough (BitVec.ofNat 3 n)
    t.closed || (s.mayServe t.reserving s.cur.waiter && t.reserve.isSome)
  | .take n =>
    let t := s.fold.trough (BitVec.ofNat 3 n)
    (t.closed && t.filled == 0) || (s.mayServe t.taking s.cur.waiter && t.take.isSome)
  | .bank mask => s.fold.arrival &&& mask != 0
  | .drain k => s.drained k
  | .estimate va bound =>
    match s.recordLoad va with
    | .ok (plan, bs) => (s.machineCheck 1 plan).isSome || recordMeets bs bound
    | .error _ => true
  | .queue q => s.queueReady q

/-- Whether what lies at the address of an access to another device has an answer by now (R330). -/
def State.answered (s : State) (t : TrapInfo) : Bool :=
  match s.translate (s.asker s.cur t) {} t.addr with
  | .error (.remote _) => false
  | _ => true

/-- The current flock proceeds with its blocked instruction where the condition holds, and issues one again whose access to another device
had no answer and has one in time. -/
def State.proceed (s : State) : State :=
  match s.cur.status with
  | .blocked b => if s.conditionMet b then s.setStatus .running else s
  | .remote t since => if s.answered t && !s.late since then s.setStatus .running else s
  | _ => s

/-- Event: the condition of a blocked instruction holds and its flock proceeds with it. -/
def execBlockingConditionMet (flock : Nat) (s : State) : Result := .next (s.onFlock flock State.proceed)

end Sys2Proof.Machine
end

