-- ==== Sys2Proof/Machine/Barrier.lean ====
section
/-!
DEFINITION. Barriers complete (R141), the commit buffers of flocks merge and are written to memory (R64 to R66, R255, R374), and
flocks wake by the clock (R143).
-/
namespace Sys2Proof.Machine

/-! Merging (R65). -/

/-- An entry joins a buffer: a line lies bit by bit over the same line there, a reduction goes behind. -/
def joinEntry (es : List CommitEntry) (e : CommitEntry) : List CommitEntry :=
  match e with
  | .line a en d tag =>
    let isLine := fun k => match k with | CommitEntry.line b _ _ _ => b == a | _ => false
    if es.any isLine then
      updateFirst isLine (fun k => match k with
        | .line b n x _ => .line b (n ||| en) ((x &&& ~~~en) ||| (d &&& en)) tag
        | r => r) es
    else es ++ [e]
  | .reduction _ _ _ _ _ _ => es ++ [e]

/-- Buffers in ascending flock field merge into a fold's: of one bit, the highest flock field's stands. -/
def mergeBuffers (buf : List CommitEntry) (fs : List Flock) : List CommitEntry :=
  ((sortBy (fun a b => decide (a.field ≤ b.field)) fs).flatMap fun f => f.buf).foldl joinEntry buf

/-- The flocks of a fold on a core. -/
def State.flocksOf (s : State) (fold : Nat) : List Flock := s.allFlocks.filter fun f => f.fold == fold && fold != 0

/-- The buffers of a fold's flocks move into the fold's. -/
def State.mergeFold (s : State) (f : Fold) : State :=
  { s.setFold { f with buf := mergeBuffers f.buf (s.flocksOf f.id) } with
    cur := if s.cur.fold = f.id then { s.cur with buf := [] } else s.cur
    flocks := s.flocks.map fun k => if k.fold = f.id then { k with buf := [] } else k }

/-! Barriers (R141). -/

/-- Whether a flock counts as arrived at the next instance of a barrier. -/
def Flock.arrived (f : Flock) (cluster : Bool) : Bool :=
  match f.status with
  | .barrier c _ => c == cluster
  | .ended => true
  | _ => false

/-- The visits of the cluster gang of a visit, or its own alone (R23). -/
def Launch.gangOf (l : Launch) (visit : Nat) : List Nat :=
  let g := l.hdr.gangSize
  if g = 0 then [visit] else (List.range g).filterMap fun m =>
    let v := visit / g * g + m
    if v < l.hdr.total then some v else none

/-- The visits of the cluster gang of a fold. -/
def State.gangVisits (s : State) (f : Fold) : List Nat :=
  match s.launch? f.launch with
  | none => [f.visit]
  | some l => l.gangOf f.visit

/-- Whether a member of a gang keeps none of a barrier's flocks waiting: its visit has ended, or all its flocks have arrived. A member
that is parked or saved keeps them waiting. -/
def State.memberArrived (s : State) (launch visit : Nat) (cluster : Bool) : Bool :=
  (match s.launch? launch with | some l => l.ended.contains visit | none => false) ||
  match s.allFolds.find? fun k => k.launch == launch && k.visit == visit with
  | some k => k.started && (s.flocksOf k.id).all fun f => f.arrived cluster
  | none => false

/-- The folds whose flocks leave a barrier together. -/
def State.barrierFolds (s : State) (f : Fold) (cluster : Bool) : List Fold :=
  if cluster then s.allFolds.filter fun k => k.launch == f.launch && (s.gangVisits f).contains k.visit else [f]

/-- A flock leaves a barrier: one at a `commit` waits for the write of the buffer. Where some flocks of a fold reach one instance by `bar` and others by
`commit`, R66 does not say which of them wait for the token: here those at `bar` go on at once, which is the model's choice (log entry 132). -/
def Flock.leaveBarrier (f : Flock) (cluster : Bool) : Flock :=
  match f.status with
  | .barrier c commit =>
    if c ≠ cluster then f
    else if commit then { f with status := .committing }
    else { f with status := .running }.advance 4
  | _ => f

/-- A fold completes an instance of a barrier. -/
def Fold.countBarrier (f : Fold) (cluster : Bool) : Fold :=
  if cluster then { f with clusterBars := f.clusterBars + 1 } else { f with bars := f.bars + 1 }

/-- Event: every flock has arrived, and they leave the barrier. -/
def execBarrierRelease (fold : Nat) (cluster : Bool) (s : State) : Result :=
  match s.fold? fold with
  | none => .next s
  | some f =>
    let ready := (if cluster then s.gangVisits f else [f.visit]).all fun v => s.memberArrived f.launch v cluster
    let some_ := (s.flocksOf fold).any fun k => match k.status with | .barrier c _ => c == cluster | _ => false
    if !ready || !some_ then .next s else
    let fs := s.barrierFolds f cluster
    let held := match s.launch? f.launch with | some l => l.hdr.determ || l.hdr.restart | none => false
    let s1 := if held then fs.foldl State.mergeFold s else s
    let s2 := fs.foldl (fun t k => match t.fold? k.id with | some g => t.setFold (g.countBarrier cluster) | none => t) s1
    .next (s2.mapFlocks fun k => if fs.any fun g => g.id == k.fold then k.leaveBarrier cluster else k)

/-! Commit (R66, R255, R374). -/

/-- The address that decides whether an entry is refused, and whether it is. -/
def State.refused (s : State) (ctx : Nat) (e : CommitEntry) : Bool :=
  match e with
  | .line a _ _ _ => !s.takesWrite ctx a
  | .reduction _ _ items _ _ _ => items.any fun x => !s.takesWrite ctx x.address

/-- The places that an entry of a commit buffer writes. -/
def CommitEntry.places : CommitEntry → List Nat
  | .line a _ _ _ => [a]
  | .reduction _ _ items _ _ _ => items.map fun x => x.address

/-- The other devices that an entry writes to. -/
def CommitEntry.devices (e : CommitEntry) : List Nat :=
  e.places.filterMap fun a => match regionOf a with | .aperture d => some d | _ => none

/-- The devices that some entries ask and that do not answer at all. -/
def State.silentDevices (s : State) (es : List CommitEntry) : List Nat :=
  ((es.flatMap CommitEntry.devices).filter fun d => (lookup s.peers d).isNone).eraseDups

/-- Whether a write-out still waits for an answer: 4 µs at most from its first request (R330, R374). -/
def State.outWaits (s : State) (f : Fold) (es : List CommitEntry) : Bool :=
  !(s.silentDevices es).isEmpty && !f.outSince.any fun x => s.late x.1

/-- The devices from which no answer to a write-out has come in 4 µs: one that comes later is not taken. -/
def State.unheard (s : State) (f : Fold) (es : List CommitEntry) : List Nat :=
  match f.outSince with
  | some x => if s.late x.1 then x.2 ++ s.silentDevices es else []
  | none => []

/-- The bytes that a line entry writes. -/
def lineWrites (a : Nat) (en d : BitVec 512) : List BitWrite :=
  (List.range 64).filterMap fun k =>
    let m := en.extractLsb' (8 * k) 8
    if m = 0 then none else some { address := a + k, enable := m, data := d.extractLsb' (8 * k) 8 }

/-- A held reduction consumes a location in error: an error record, and the deferred machine check of the flock that issued it, if it has not
ended (R303). -/
def State.reduceError (s : State) (fold ctx fieldNo : Nat) (pc : Addr) (op : Nat) (x : HeldAdd) : State :=
  (s.errorRecord ctx 0 0 4 0 0).mapFlocks fun f =>
    if f.fold = fold ∧ fold ≠ 0 ∧ f.field = fieldNo ∧ f.status ≠ .ended then
      { f with deferred := f.deferred ++ [{ op := op, pc := pc, info := { kind := 0x30, access := 3, lane := x.lane, addr := x.va } }] }
    else f

/-- One element of a held reduction is added at its home; a location whose line is in error is left as it is (log entry 15). -/
def State.reduceAt (s : State) (ctx : Nat) (secure float : Bool) (tag : BitVec 16) (x : HeldAdd) : State :=
  let a := x.address
  let old : Word := BitVec.ofNat 32 ((s.evict (farLines [a])).readNat a 4)
  let new : Word := if float then (f32Add 0 old x.value).val else old + x.value
  s.homeWrite [a] fun t => t.write (cellsAt a (toBytes 4 new.toNat)) tag ctx secure

/-- An entry is written to memory; each is a release (R255), and dirty lines of other devices go with it. -/
def State.writeEntry (s : State) (fold ctx : Nat) (secure : Bool) (e : CommitEntry) : State :=
  match e with
  | .line a en d tag =>
    (((s.writeBits (lineWrites a en d) tag ctx secure).flushRemote).noteStray fold ((lineWrites a en d).map fun w => w.address))
  | .reduction fieldNo float items tag pc op =>
    (items.foldl (fun t x =>
      if t.broken != [] && t.broken.contains (.line (x.address / 64 * 64)) then t.reduceError fold ctx fieldNo pc op x
      else t.reduceAt ctx secure float tag x) s.flushRemote).flushRemote

/-- The order of R66: lines by address, then reductions by flock field, each flock's as issued (log entry 30). -/
def commitOrder (es : List CommitEntry) : List CommitEntry :=
  let lines := es.filter fun e => match e with | .line _ _ _ _ => true | _ => false
  let reds := es.filter fun e => match e with | .reduction _ _ _ _ _ _ => true | _ => false
  let address : CommitEntry → Nat := fun e => match e with | CommitEntry.line a _ _ _ => a | _ => 0
  let owner : CommitEntry → Nat := fun e => match e with | CommitEntry.reduction f _ _ _ _ _ => f | _ => 0
  sortBy (fun a b => decide (address a ≤ address b)) lines ++ sortBy (fun a b => decide (owner a ≤ owner b)) reds

/-- A fold's buffer is written to memory and empty. A refused or unanswered entry leaves an error record and ends the launch (R374). The hop index of the
record of an unanswered one is that of the last hop that answered, which is not known, and of a refused one 0 (R330, log entry 121). -/
def State.writeOut (s : State) (f : Fold) : State :=
  let secure := (s.ctx f.ctx).secure
  let es := commitOrder f.buf
  let silent := fun (e : CommitEntry) => e.devices.any (s.unheard f es).contains
  let ok := es.filter fun e => !(s.refused f.ctx e || silent e)
  let bad := es.filter fun e => s.refused f.ctx e || silent e
  let s1 := ok.foldl (fun t e => t.writeEntry f.id f.ctx secure e) (s.setFold { f with buf := [], outSince := none })
  if bad = [] then s1 else
  let (n, s2) := s1.draw bad.length
  (bad.zipIdx.foldl (fun t e => t.errorRecord f.ctx 0 (if silent e.1 then (Config.freeByte (n + e.2)).toNat else 0) 1 7 0) s2).closeLaunch f.launch 0x14

/-- Whether a fold may commit: its launch is not ending, and where it is deterministic the fold holds the token (R66). -/
def State.holdsToken (s : State) (f : Fold) : Bool :=
  match s.launch? f.launch with
  | none => false
  | some l => l.closing.isNone && (!l.hdr.determ || f.visit == 0 || l.ended.contains (f.visit - 1))

/-- Whether every flock of a fold has ended. -/
def State.foldDone (s : State) (f : Fold) : Bool := f.started && (s.flocksOf f.id).all fun k => k.status == .ended

/-- What a fold's next write-out writes: its buffer, and at its end those of its flocks. -/
def State.outgoing (s : State) (f : Fold) : List CommitEntry :=
  if s.foldDone f && !f.committed then f.buf ++ (s.flocksOf f.id).flatMap fun k => k.buf
  else if (s.flocksOf f.id).any fun k => k.status == .committing then f.buf else []

/-- Whether a fold's next write-out waits for a device that does not answer. -/
def State.commitWaits (s : State) (f : Fold) : Bool := s.outWaits f (s.outgoing f)

/-- Event: the fold's buffer enters memory, at a `commit` or finally at its end. Flocks at the `commit` go on once it is written and its requests are
past the core's mesh port (R314, log entry 125). -/
def execCommitWriteOut (fold : Nat) (s : State) : Result :=
  match s.fold? fold with
  | none => .next s
  | some f =>
    let held := match s.launch? f.launch with | some l => l.hdr.determ || l.hdr.restart | none => false
    let final := s.foldDone f && !f.committed
    if !held || !s.holdsToken f then .next s
    else if s.commitWaits f then
      .next (s.setFold { f with outSince := some ((f.outSince.map fun x => x.1).getD s.time, s.silentDevices (s.outgoing f)) })
    else if final then
      let s1 := s.mergeFold f
      match s1.fold? fold with
      | none => .next s1
      | some g => .next (s1.writeOut { g with committed := true })
    else if !(s.flocksOf fold).any fun k => k.status == .committing then .next s
    else if !f.buf.isEmpty then .next (s.writeOut f)
    else if s.atPort (.commit fold) then .next s
    else .next (s.mapFlocks fun k => if k.fold = fold ∧ k.status = .committing then { k with status := .running }.advance 4 else k)

/-! Sleeps (R143). -/

/-- Event: the time base reaches the time of a sleep. -/
def execSleepTimerExpiry (flock : Nat) (s : State) : Result :=
  .next (s.mapFlocks fun f => match f.status with
    | .sleeping till =>
      if f.id = flock ∧ till ≠ 0 ∧ till ≤ s.time then { f with status := .running }.advance 4 else f
    | _ => f)

end Sys2Proof.Machine
end

