-- ==== Sys2Proof/Machine/Folds.lean ====
section
/-!
DEFINITION. The launch unit at work (R19 to R23, R30 to R36, R52, R258 to R260, R300): launches become ready, folds are placed, started,
donated and re-dispatched, they end, and launches retire.
-/
namespace Sys2Proof.Machine

/-! Readiness (R30, R61). -/

/-- Whether the subscription of a waiting launch is met. -/
def State.subscriptionMet (s : State) (l : Launch) : Bool :=
  match l.predecessor with
  | none => true
  | some p => (s.launch? p).isNone || (l.hdr.mode == 2 && l.provisional)

/-- Whether nothing keeps a launch waiting at this instant (R30). A counter that does not translate keeps it waiting (log entry 78). -/
def State.mayReady (s : State) (l : Launch) : Bool :=
  l.status == 0x01 && l.closing.isNone && s.unitNat l.ctx (l.header + 0xC0) 8 == some 0 && decide (l.hdr.start ≤ s.time) && s.subscriptionMet l

/-- The launches for which the first such instant has come are marked: what happens to their counters later does not matter (R30). -/
def State.noteReady (s : State) : State :=
  { s with launches := s.launches.map fun l => if !l.due && s.mayReady l then { l with due := true } else l }

/-- Event: a waiting launch becomes ready. -/
def execLaunchReady (launch : Nat) (s : State) : Result :=
  match s.launch? launch with
  | none => .next s
  | some l =>
    if l.status = 0x01 ∧ l.closing = none ∧ (l.due || s.mayReady l) then
      .next ((s.setLaunch { l with status := 0x02 }).headerStatus l.ctx l.header 0x02)
    else .next s

/-! Room (R19 to R21). -/

/-- Whether folds of a context may be placed now: it is resident and no pre-emption of it is in progress. -/
def State.placing (s : State) (ctx : Nat) : Bool := s.stateOf ctx == 2 && (s.ctx ctx).preempting.isNone && !s.stopped

/-- Whether a core belongs to a partition. -/
def State.ownsCore (s : State) (p core : Nat) : Bool :=
  decide (core < 256) && ((s.setup.partitions.getD p {}).clusters.getLsbD (core / 8))

/-- The residency position that a fold of a partition word would take on a core, if it may be placed there. -/
def State.roomOn (s : State) (ctx : Nat) (half : Bool) (regs acc commit core : Nat) : Option Nat :=
  match s.allFolds.filter fun f => f.core == core with
  | [] => some 0
  | [f] => if f.half && half && f.ctx == ctx && f.regs == regs && f.acc == acc && f.commit == commit then some (1 - f.position) else none
  | _ => none

/-- Room for a launch's folds. -/
def State.roomFor (s : State) (l : Launch) (core : Nat) : Option Nat :=
  if s.ownsCore (l.ctx / 64) core then s.roomOn l.ctx l.hdr.half l.hdr.regs l.hdr.acc l.hdr.commit core else none

/-- Whether no member of a visit's cluster gang stands on a core: members stand on distinct ones (R23, R300). -/
def State.apart (s : State) (l : Launch) (visit core : Nat) : Bool :=
  l.hdr.gangSize == 0 || s.allFolds.all fun f => f.launch != l.id || f.core != core || !(l.gangOf visit).contains f.visit

/-! Placing (R22, R258, R260). -/

/-- The tiles of a fold: those of granules that its owner used before may hold what it left there, and the others are zero. -/
def startTiles (regs acc : Nat) (stale : List (Nat × List Left)) (n : Nat) : Vector Tile 64 :=
  Vector.ofFn fun t : Fin 64 =>
    match (if t.val < 16 * acc then lookup stale (regs + t.val / 16) else none) with
    | some ls => staleTile (n + 2048 * t.val) ls (2048 * (t.val % 16))
    | none => Vector.replicate 256 {}

/-- A fold's granules on a core change owner: those that its own owner used last, as numbers within its share with what was left there, the
tiles and the scratch. What a different owner left is zero (R260). -/
def State.claim (s : State) (ctx : Nat) (half : Bool) (regs acc commit core position : Nat) :
    State × List (Nat × List Left) × Vector Tile 64 × Scratch :=
  let me := s.owner ctx
  let share := shareOf half position
  let granules := (s.core core).granules
  let stale := (List.range share.length).filterMap fun k =>
    let g := granules.getD (share.getD k 0) {}
    if g.owner == some me then some (k, g.left) else none
  let (n, s1) := s.draw (2 ^ 21)
  let base := regs + acc + commit
  let taken := fun (e : Granule × Nat) =>
    if !share.contains e.2 then e.1 else if e.1.owner == some me then e.1 else { owner := some me }
  (s1.setCore core { s1.core core with granules := granules.zipIdx.map taken }, stale, startTiles regs acc stale n,
    { reused := stale.filterMap fun k => if base ≤ k.1 then some (k.1 - base, k.2) else none, seed := n + 2 ^ 20 })

/-- A context with a fold on a core has a bucket at its port, empty at first (R314, log entry 42). -/
def State.openBucket (s : State) (core ctx : Nat) : State :=
  if (lookup (s.core core).buckets ctx).isSome then s
  else s.setCore core { s.core core with buckets := store (s.core core).buckets ctx 0 }

/-- A fold is placed on a core. -/
def State.placeFold (s : State) (l : Launch) (visit index core position : Nat) : State :=
  let h := l.hdr
  let (s1, stale, accs, scratch) := s.claim l.ctx h.half h.regs h.acc h.commit core position
  let f : Fold := {
    id := s1.nextId, launch := l.id, ctx := l.ctx, visit := visit, index := index, core := core, position := position, half := h.half
    regs := h.regs, acc := h.acc, commit := h.commit, accs := accs, scratch := scratch
    bmap := Vector.replicate 8 none, arrival := 0, troughs := Vector.replicate 8 {}, buf := [], bars := 0, clusterBars := 0
    deposits := [], stale := stale, started := false, committed := false }
  State.openBucket { s1 with folds := s1.folds ++ [f], nextId := s1.nextId + 1 } core l.ctx

/-- Cores for some folds of a launch, the given core first, then the others of its cluster that are open to it, in ascending order; `visit` is
one of theirs. -/
def State.gangCores (s : State) (l : Launch) (visit n core : Nat) (free : Nat → Bool) : Option (List (Nat × Nat)) :=
  let room := fun (c : Nat) => if s.apart l visit c then s.roomFor l c else none
  let others := (List.range 8).filterMap fun k =>
    let c := core / 8 * 8 + k
    if c = core || !free c then none else (room c).map fun p => (c, p)
  match room core with
  | none => none
  | some p => if others.length + 1 < n then none else some (((core, p) :: others).take n)

/-! Dispatch (R11, R23, R32, R33, R52). -/

/-- The dispatch records of a launch that stand in a cluster's queue, in visit order. -/
def State.queued (s : State) (launch cluster : Nat) : List Dispatch :=
  sortBy (fun a b => decide (a.visit ≤ b.visit)) (s.dispatch.filter fun d => d.launch == launch && d.cluster == cluster)

/-- The next `n` visits of a launch that have no dispatch record yet, with their fold indices, and the launch past them. -/
def Launch.issue (l : Launch) : Nat → List (Nat × Nat) × Launch
  | 0 => ([], l)
  | n + 1 =>
    if l.hdr.total ≤ l.visits then ([], l) else
    match l.nextDispatch with
    | none => ([], l)
    | some (k, index) =>
      let r := Launch.issue { l with position := k + 1, visits := l.visits + 1 } n
      ((l.visits, index) :: r.1, r.2)

/-- Folds that are dispatched together: the members of a gang, or one. -/
def Header.group (h : Header) : Nat := if h.gangSize = 0 then 1 else h.gangSize

/-- Whether visit k lies in the window of R52. -/
def Launch.inWindow (l : Launch) (k : Nat) : Bool := l.hdr.record == 0 || decide (k < l.version + 256)

/-- What a launch would place next on a core of a cluster: visits and fold indices, and the launch and queue after it. -/
def State.nextFolds (s : State) (l : Launch) (cluster : Nat) : List (Nat × Nat) × Launch × List Dispatch :=
  match s.queued l.id cluster with
  | [] =>
    let r := l.issue l.hdr.group
    (r.1, r.2, s.dispatch)
  | d :: ds =>
    let mine := d :: ds.filter fun e => e.visit / l.hdr.group == d.visit / l.hdr.group
    (mine.map fun e => (e.visit, e.index), l, s.dispatch.filter fun e => !mine.contains e)

/-- Whether folds of a launch may run: it is ready or running and not closing, and its context is resident. -/
def State.open_ (s : State) (l : Launch) : Bool :=
  (l.status == 0x02 || l.status == 0x03) && l.closing.isNone && s.stateOf l.ctx == 2 && !s.stopped

/-- Whether a launch dispatches folds: no pre-emption of its context is in progress besides. -/
def State.dispatching (s : State) (l : Launch) : Bool := s.open_ l && (s.ctx l.ctx).preempting.isNone

/-- The order of R32. -/
def Launch.before (a b : Launch) : Bool :=
  decide (a.hdr.priority < b.hdr.priority ∨ (a.hdr.priority = b.hdr.priority ∧
    (a.hdr.orderKey < b.hdr.orderKey ∨ (a.hdr.orderKey = b.hdr.orderKey ∧ a.id ≤ b.id))))

/-- The clusters in which the unended members of a fold's cluster gang stand or are to be placed, the fold itself apart (R23, R300). -/
def State.gangClusters (s : State) (l : Launch) (visit : Nat) : List Nat :=
  let mate := fun (launch v : Nat) => launch == l.id && v != visit && v / l.hdr.group == visit / l.hdr.group
  ((s.allFolds.filter fun f => mate f.launch f.visit).map fun f => f.core / 8) ++
  ((s.saved.filter fun k => mate k.fold.launch k.fold.visit).map fun k => k.fold.core / 8) ++
  ((s.dispatch.filter fun d => mate d.launch d.visit).map fun d => d.cluster) ++
  (s.parked.filter fun k => k.flock.isNone && mate k.launch k.visit).filterMap fun k => k.cluster

/-- Whether a parked fold may be re-dispatched onto a core; one that a reply reached goes even while its context is being pre-empted (R290,
R291). -/
def State.mayRedispatch (s : State) (l : Launch) (k : Parked) (core : Nat) : Bool :=
  k.flock.isNone && k.installed && k.launch == l.id && (s.dispatching l || (k.replied && s.open_ l)) && (s.roomFor l core).isSome && s.apart l k.visit core &&
  (l.hdr.gangSize == 0 || (s.gangClusters l k.visit).all fun c => c == core / 8)

/-- The folds that a launch would place on a core, with the cores they get, the rest of a gang on cores of some kind. A parked fold that may go
there comes first (R287). -/
def State.placementOn (s : State) (l : Launch) (core : Nat) (free : Nat → Bool) :
    Option (List ((Nat × Nat) × (Nat × Nat)) × Launch × List Dispatch) :=
  if !s.dispatching l || s.parked.any fun k => s.mayRedispatch l k core then none else
  let r := s.nextFolds l (core / 8)
  if r.1.isEmpty || !r.1.all fun v => l.inWindow v.1 then none
  else (s.gangCores l ((r.1.head?.map fun v => v.1).getD 0) r.1.length core free).map fun cs => (r.1.zip cs, r.2)

/-- Whether a launch that stands before another in the order of R32 has a fold for a core. -/
def State.ahead (s : State) (l : Launch) (core : Nat) : Bool :=
  s.launches.any fun m => m.id != l.id && m.before l &&
    ((s.parked.any fun k => s.mayRedispatch m k core) || (s.placementOn m core fun _ => true).isSome)

/-- The folds that a launch places on a core: no member of a gang takes a core on which a launch before it has a fold to place (R32). -/
def State.placement (s : State) (l : Launch) (core : Nat) : Option (List ((Nat × Nat) × (Nat × Nat)) × Launch × List Dispatch) :=
  s.placementOn l core fun c => !s.ahead l c

/-- The first launch in the order of R32 that has a fold for a core: a parked one that may go there, or an undispatched one. -/
def State.firstFor (s : State) (core : Nat) : Option Launch :=
  (sortBy Launch.before s.launches).find? fun l => (s.parked.any fun k => s.mayRedispatch l k core) || (s.placement l core).isSome

/-- Event: a core with room receives the next undispatched fold of the first launch that has one placeable there. -/
def execFoldPlacement (core : Nat) (s : State) : Result :=
  match (s.firstFor core).bind fun l => s.placement l core with
  | none => .next s
  | some (folds, l, queue) =>
    .next (folds.foldl (fun t x => t.placeFold l x.1.1 x.1.2 x.2.1 x.2.2) (State.setLaunch { s with dispatch := queue } l))

/-- The launch unit issues the next dispatch records of a launch, a whole gang at once, to a cluster's queue (R33). -/
def State.dispatchTo (s : State) (launch cluster : Nat) : State :=
  match s.launch? launch with
  | none => s
  | some l =>
    if !s.dispatching l || !s.ownsCore (l.ctx / 64) (8 * cluster) then s else
    let r := l.issue l.hdr.group
    { s.setLaunch r.2 with
      dispatch := s.dispatch ++ r.1.map fun v => { launch := launch, visit := v.1, index := v.2, cluster := cluster } }

/-! Starting (R13, R22, R23, R33, R232, R260). -/

/-- Free values that the registers of a flock take. -/
def registerDraw : Nat := 40000

/-- Registers that stand in a granule which the same owner used before: each byte is zero or what was left there (R260). -/
def Flock.unknownRegisters (f : Flock) (n : Nat) (ls : List Left) : Flock :=
  let place := f.field % 4
  { f with
    v := Vector.ofFn fun r : Fin 64 => staleLanes n ls (8192 * place + 128 * r.val)
    s := Vector.ofFn fun r : Fin 32 =>
      BitVec.ofNat 64 (staleNat (n + 33000 + 8 * r.val) 8 (registersLeft place (fun l => (l.s[r.val]'r.isLt).toNat) ls))
    a := Vector.ofFn fun r : Fin 16 =>
      BitVec.ofNat 72 (staleNat (n + 34000 + 9 * r.val) 9 (registersLeft place (fun l => (l.a[r.val]'r.isLt).toNat) ls))
    p := Vector.ofFn fun r : Fin 8 =>
      BitVec.ofNat 32 (staleNat (n + 35000 + 4 * r.val) 4 (registersLeft place (fun l => (l.p[r.val]'r.isLt).toNat) ls)) }

/-- A flock of a fold as it starts. -/
def Flock.starting (f : Fold) (h : Header) (secure : Bool) (id fieldNo n : Nat) : Flock :=
  let g := { Flock.blank id f.id f.ctx f.core fieldNo h.entry with
    secure := secure, em := BitVec.ofNat 32 (2 ^ h.extent 0 - 1), key := h.seed }
  match lookup f.stale (fieldNo / 4) with
  | some ls => g.unknownRegisters n ls
  | none => g

/-- The machine check of a descriptor in error, of its own line or of a table entry, that a starting flock's access block names: a deferred fault at the
flock's first instruction (R303, log entry 124). -/
def Flock.badDescriptor (f : Flock) (va : Addr) : Flock :=
  { f with deferred := f.deferred ++ [{ op := f.id, pc := f.pc, info := { kind := 0x30, access := 1, addr := va } }] }

/-- The streams that the access block of a header starts; a descriptor that does not translate starts none (log entry 25). -/
def State.startStreams (s : State) (h : Header) (f : Flock) : Flock :=
  if h.access = 0 then f else
  (List.range 4).foldl (fun g q =>
    let va := h.access + BitVec.ofNat 72 (64 * q)
    match s.plainBytes (s.agent f) Need.load va 64 with
    | .error (.soft _) => g.badDescriptor va
    | .error _ => g
    | .ok pas =>
      if s.broken != [] && pas.any fun a => s.broken.contains (.line (a / 64 * 64)) then g.badDescriptor va else
      match StreamDesc.parse (pas.map s.read) with
      | none => g
      | some d => g.setQ (BitVec.ofNat 2 q) ((g.getQ (BitVec.ofNat 2 q)).start d)) f

/-- Whether a placed fold may start: every member of its gang is placed, and under the deterministic flag every fold of lower visit has
started. -/
def State.mayStart (s : State) (l : Launch) (f : Fold) : Bool :=
  !f.started && s.dispatching l && l.inWindow f.visit &&
  ((s.gangVisits f).all fun v => l.started.contains v || s.allFolds.any fun k => k.launch == l.id && k.visit == v) &&
  (!l.hdr.determ || (List.range f.visit).all fun v => l.started.contains v)

/-- All flocks of a placed fold start. -/
def State.startFold (s : State) (l : Launch) (f : Fold) : State :=
  let count := l.hdr.extent 1
  let secure := (s.ctx f.ctx).secure
  let (n, s1) := s.draw (registerDraw * count)
  let new := (List.range count).map fun k => s1.startStreams l.hdr (Flock.starting f l.hdr secure (s1.nextId + k) k (n + registerDraw * k))
  let s2 := { s1.setFold { f with started := true } with
    flocks := new.foldl (fun fs g => joinFlock g fs) s1.flocks, nextId := s1.nextId + count }
  let l1 := { l with status := 0x03, started := if l.started.contains f.visit then l.started else l.started ++ [f.visit] }
  let s3 := (new.flatMap fun g => g.deferred).foldl (fun t _ => t.errorRecord f.ctx 0 0 4 0 0) (s2.setLaunch l1)
  if l.status = 0x03 then s3 else s3.headerStatus l.ctx l.header 0x03

/-- Event: all flocks of a placed fold start. -/
def execFoldStart (fold : Nat) (s : State) : Result :=
  match s.fold? fold with
  | none => .next s
  | some f =>
    match s.launch? f.launch with
    | none => .next s
    | some l => if s.mayStart l f then .next (s.startFold l f) else .next s

/-! Donation (R34). -/

/-- Whether a cluster has nothing to do: no fold on its cores and no record in its queue. -/
def State.idle (s : State) (cluster : Nat) : Bool :=
  (s.allFolds.all fun f => f.core / 8 != cluster) && s.dispatch.all fun d => d.cluster != cluster

/-- Event: an idle cluster takes records of another cluster's queue: from the highest visit number down, at most half of the queue, and
gangs whole. -/
def execDonation (victim thief count : Nat) (s : State) : Result :=
  let queue := s.dispatch.filter fun d => d.cluster == victim
  let taken := (sortBy (fun a b => decide (b.visit ≤ a.visit)) queue).take count
  let members := fun (d : Dispatch) => match s.launch? d.launch with | some l => l.gangOf d.visit | none => [d.visit]
  let whole := taken.all fun d => (members d).all fun v => taken.any fun e => e.launch == d.launch && e.visit == v
  let partition := s.setup.partitions.any fun p => p.clusters.getLsbD victim && p.clusters.getLsbD thief
  if partition && s.idle thief && decide (2 * count ≤ queue.length) && whole then
    .next { s with dispatch := s.dispatch.map fun d => if taken.contains d then { d with cluster := thief } else d }
  else .next s

/-! Ending (R35, R36). -/

/-- Event: a fold whose flocks have all ended, and whose buffer is in memory, its requests past the core's port, ends. In a launch that a gang abort is ending, the buffer
is lost and the deposits are discarded (R312). -/
def execFoldEnd (fold : Nat) (s : State) : Result :=
  match s.fold? fold with
  | none => .next s
  | some f =>
    match s.launch? f.launch with
    | none => .next s
    | some l =>
      if !s.foldDone f then .next s
      else if l.closing.isSome then .next ((s.removeFold f).finishPreempt f.ctx)
      else if (l.hdr.determ || l.hdr.restart) && (!f.committed || s.atPort (.commit fold)) then .next s else
      let l1 := { l with
        ended := l.ended ++ [f.visit]
        deposits := if f.deposits.isEmpty then l.deposits else l.deposits ++ [(f.visit, f.deposits)] }
      .next (((s.removeFold f).setLaunch l1).finishPreempt f.ctx)

/-- The final status and the stop visit of a launch that retires now. -/
def State.retiring (s : State) (l : Launch) : Option (BitVec 8 × Nat) :=
  let busy := (s.allFolds.any fun f => f.launch == l.id) || (s.saved.any fun k => k.fold.launch == l.id) || s.parked.any fun k => k.launch == l.id
  if busy then none else
  match l.closing with
  | some x => some x
  | none => if l.hdr.record = 0 ∧ l.ended.length = l.hdr.total then some (0x10, l.hdr.total) else none

/-- The stamp of a launch: status in bits 63:48, acceptance number in bits 47:0. -/
def retirementStamp (status : BitVec 8) (seq : Nat) : Nat := status.toNat * 2 ^ 48 + seq

/-- A launch retires: K, the status, then the stamp, as a release at system scope (R36, R253). -/
def State.retireWith (s : State) (l : Launch) (status : BitVec 8) (k : Nat) : State :=
  let s1 := (s.flushRemote.unitWrite l.ctx (l.header + 0xD8) (toBytes 8 k)).headerStatus l.ctx l.header status.toNat
  let s2 := if l.hdr.stamp = 0 then s1 else (s1.unitWrite l.ctx l.hdr.stamp (toBytes 8 (retirementStamp status l.seq))).flushRemote
  { s2 with launches := s2.launches.filter fun j => j.id != l.id, dispatch := s2.dispatch.filter fun d => d.launch != l.id }

/-- A launch retires; the record and the stop visit of one whose record software wrote, or whose folds broke R58, are unknown (R43, R59). -/
def State.retire (s : State) (l : Launch) (status : BitVec 8) (k : Nat) : State :=
  if l.spoiled then
    let (n, s1) := s.draw 1
    (s1.writeRecord l).retireWith l status (Config.freeDWord n).toNat
  else s.retireWith l status k

/-- Event: a launch with nothing left to run retires. -/
def execLaunchRetirement (launch : Nat) (s : State) : Result :=
  match s.launch? launch with
  | none => .next s
  | some l =>
    match s.retiring l with
    | none => .next s
    | some (status, k) => .next (s.retire l status k)

end Sys2Proof.Machine
end

