-- ==== Sys2Proof/Machine/Contexts.lean ====
section
/-!
DEFINITION. Contexts come and go: the shepherd commands (R307), pre-emption and the save routine (R295 to R298), resume (R292,
R299, R300), and parked folds that go onto a core again (R287).
-/
namespace Sys2Proof.Machine

/-! Saving a fold (R297, R298). -/

/-- Blocks of the save pool that a fold's hidden state takes. -/
def Fold.saveBlocks (f : Fold) : Nat := 1 + 4 * f.commit

/-- The first of some free consecutive blocks of a context's save pool. -/
def State.freeBlocks (s : State) (ctx n size : Nat) : Option Nat :=
  let held := s.saved.filter fun k => k.fold.ctx == ctx
  if size < n then none
  else firstIndex (fun b => held.all fun k => !overlap b n k.firstBlock k.blocks) (size - n + 1) 0

/-- A fold's banks become held (R265). -/
def State.holdBanks (s : State) (f : Fold) : State :=
  (List.range 8).foldl (fun t k => match f.bankIn k with
    | none => t
    | some b => t.setBank b { t.bank b with place := .held f.id k }) s

/-- The flocks of a fold leave its core with it; the current one, if it is among them, stays behind as an ended flock. -/
def State.detachFold (s0 : State) (f : Fold) : State :=
  let s := s0.leaveCore f
  { s with
    cur := if s.cur.fold = f.id then { s.cur with status := .ended, fold := 0, buf := [], monitor := {} } else s.cur
    fold := if s.fold.id = f.id then Fold.absent else s.fold
    flocks := s.flocks.filter fun k => k.fold != f.id
    folds := s.folds.filter fun k => k.id != f.id }

/-- A fold that cannot be saved: a restartable one is aborted and parked, any other ends its launch (R297). -/
def State.cannotSave (s : State) (f : Fold) : State :=
  match s.launch? f.launch with
  | some l => if l.hdr.restart then s.abortPark f none else s.closeLaunch f.launch 0x14
  | none => s

/-- The hidden state of a fold is written into the save pool, in a form that the spec leaves open, and recorded. Bytes of a block that does not
translate are lost, and the fold is saved all the same (log entry 109). -/
def State.saveFold (s : State) (f : Fold) : State :=
  let n := f.saveBlocks
  match s.parkHeader f.ctx, s.launch? f.launch with
  | some (_, _, pool, size, _), some l =>
    match s.freeBlocks f.ctx n size with
    | none => s.cannotSave f
    | some b =>
      let gen := (s.ctx f.ctx).fgen
      match s.parkAdd f.ctx 3 false gen 0 l.header f.visit 0 0 b with
      | none => s.closeLaunch f.launch 0x14
      | some (s1, slot) =>
        let (x, s2) := s1.draw (8192 * n)
        let s3 := s2.unitWrite f.ctx (BitVec.ofNat 72 (pool + 8192 * b)) ((List.range (8192 * n)).map fun k => Config.freeByte (x + k))
        let k : SavedFold := { fold := f, flocks := s3.flocksOf f.id, slot := slot, generation := gen, blocks := n, firstBlock := b }
        let s4 := (s3.holdBanks f).detachFold f
        State.writeBlocks { s4 with saved := s4.saved ++ [k] } f.ctx
  | _, _ => s.closeLaunch f.launch 0x14

/-- Once every flock of a fold has yielded or ended, and one has yielded, the fold is saved (R297); a flock may also be the last by ending (log
entry 104). -/
def State.saveIfDone (s : State) (fold : Nat) : State :=
  let fs := s.flocksOf fold
  match s.fold? fold with
  | none => s
  | some f => if (fs.all fun k => k.status == .yielded || k.status == .ended) && fs.any fun k => k.status == .yielded then s.saveFold f else s

/-- Event: a flock at `halt` with all counters 0 ends (R142). A deferred fault that may be taken comes first (R175). -/
def execFlockEnd (flock : Nat) (s : State) : Result :=
  match s.flock? flock with
  | none => .next s
  | some f =>
    if f.status = .halting ∧ f.countersZero ∧ f.deliverable = none then
      .next (((s.setFlock { f with status := .ended, monitor := {} }).saveIfDone f.fold).finishPreempt f.ctx)
    else .next s

/-- `yield` (R143, R297): in a save routine it waits for the counters, and the last flock of a fold to yield has the fold saved. In any other
routine it has no effect, as outside one (log entry 98). -/
def execYield (s : State) : Result :=
  if s.cur.routine ≠ .save then done s
  else if !s.cur.countersZero then .next (s.setStatus (.blocked .allDone))
  else .next (((s.setStatus .yielded).saveIfDone s.cur.fold).finishPreempt s.cur.ctx)

/-! Pre-emption (R295, R296). -/

/-- A flock as a pre-emption reaches it: it vectors to `svec` at once, or after its routine; a save routine goes on. -/
def Flock.preempted (f : Flock) (svec : Addr) (nextOp : Nat) : Flock :=
  if f.status = .ended then f else
  match f.routine with
  | .none => f.boundary.enter .save svec f.resumeAt none { kind := 0x31 } nextOp
  | .save => f
  | _ => { f with preempt := true }

/-- Folds of a context that are placed and have not started go back to the queue of their cluster; a parked one goes back to its
place among the parked folds of the machine. -/
def State.unplace (s : State) (ctx : Nat) : State :=
  let waiting := s.allFolds.filter fun f => f.ctx == ctx && !f.started
  waiting.foldl (fun t f =>
    let t1 := t.removeFold f
    match t1.launch? f.launch with
    | none => t1
    | some l =>
      if l.started.contains f.visit then
        { t1 with parked := t1.parked ++ [{ core := f.core, ctx := ctx, slot := 0, launch := f.launch, visit := f.visit, index := f.index, flock := none
                                            generation := (t1.ctx ctx).fgen, installed := true, freed := true
                                            cluster := if l.hdr.gangSize = 0 then none else some (f.core / 8) }] }
      else { t1 with dispatch := t1.dispatch ++ [{ launch := f.launch, visit := f.visit, index := f.index, cluster := f.core / 8 }] }) s

/-- A resident context is pre-empted: its boost lease is surrendered (R320), and its flocks vector or, without `svec`, its restartable
folds are parked and the others go on. -/
def State.preemptContext (s : State) (ctx : Nat) (tag : Word) (die : BitVec 2) : State :=
  let s1 := (s.setCtx ctx { s.ctx ctx with boost := none, preempting := some (tag, die, s.time) }).unplace ctx
  let svec := (s1.ctx ctx).svec
  let s2 :=
    if svec = 0 then
      (s1.allFolds.filter fun f => f.ctx == ctx && (match s1.launch? f.launch with | some l => l.hdr.restart | none => false)).foldl
        (fun t f => t.abortPark f none) s1
    else s1.mapFlocks fun f => if f.ctx = ctx ∧ !f.supervises then f.preempted svec s1.nextId else f
  s2.finishPreempt ctx

/-- Event: a flock is still in its trap or resume routine, that of a gang abort among them, 100 µs after the pre-emption (R296). -/
def execRoutineTimeout (flock : Nat) (s : State) : Result :=
  match s.flock? flock with
  | none => .next s
  | some f =>
    match (s.ctx f.ctx).preempting, s.fold? f.fold with
    | some (_, _, since), some k =>
      if f.preempt ∧ f.status ≠ .ended ∧ (f.routine = .trap ∨ f.routine = .resume ∨ f.routine = .gangAbort) ∧ since + 100000 ≤ s.time then .next (s.cannotSave k)
      else .next s
    | _, _ => .next s

/-! Going onto a core again (R287, R299, R300). -/

/-- A flock of a saved fold as it starts again: its registers hold what R260 leaves in them, `em` and `fcr` are unknown, and it enters `svec` with
kind 0x33. -/
def Flock.resumed (f : Flock) (svec : Addr) (core n nextOp : Nat) (stale : List (Nat × List Left)) : Flock :=
  if f.status = .ended then { f with core := core } else
  let g := match lookup stale (f.field / 4) with
    | some ls => f.unknownRegisters n ls
    | none => { f with
        v := Vector.replicate 64 Lanes.zero, s := Vector.replicate 32 0, a := Vector.replicate 16 0, p := Vector.replicate 8 0 }
  let h := { g with
    core := core, em := Config.freeWord (n + 36000), preempt := false
    monitor := { f.monitor with event := f.monitor.event || f.monitor.armed }
    ecause := 0x33, privileged := true, routine := .resume, entered := nextOp, pc := svec, status := .running }
  h.putFcr (Config.freeWord (n + 36001))

/-- A fold's held banks are mapped into the same slots again (R265). -/
def State.mapBanks (s : State) (f : Fold) : State :=
  (List.range 8).foldl (fun t k => match f.bankIn k with
    | none => t
    | some b => t.setBank b { t.bank b with place := .mapped f.core (f.coreSlot k) }) s

/-- A context's boost lease ends (R320). -/
def State.endBoost (s : State) (ctx : Nat) : State := s.setCtx ctx { s.ctx ctx with boost := none }

/-- A saved fold is placed on a core with its hidden state, and its entry and blocks are freed. A boost lease that the context was granted while
it was pre-empted does not outlast a resume on another core (R320). -/
def State.restoreFold (s : State) (k : SavedFold) (core position : Nat) : State :=
  let f := k.fold
  let (s1, stale, accs, scratch) := s.claim f.ctx f.half f.regs f.acc f.commit core position
  let (n, s2) := s1.draw (registerDraw * k.flocks.length)
  let g := { f with core := core, position := position, accs := accs, scratch := scratch, stale := stale }
  let new := k.flocks.zipIdx.map fun e => e.1.resumed (s2.ctx f.ctx).svec core (n + registerDraw * e.2) s2.nextId stale
  let s3 := (s2.forgetSaved k).mapBanks g
  let s4 : State := { s3 with folds := joinFold g s3.folds, flocks := new.foldl (fun fs h => joinFlock h fs) s3.flocks }
  (if core = f.core then s4 else s4.endBoost f.ctx).openBucket core f.ctx

/-- The saved folds that are restored together with one: the members of its cluster gang, itself first. -/
def State.savedGroup (s : State) (k : SavedFold) : List SavedFold :=
  match s.launch? k.fold.launch with
  | none => [k]
  | some l => if l.hdr.gangSize = 0 then [k] else
    k :: s.saved.filter fun q => q.fold.launch == l.id && q.fold.visit != k.fold.visit && q.fold.visit / l.hdr.group == k.fold.visit / l.hdr.group

/-- Whether a saved fold goes only to its own cluster: it is a gang member or holds banks. -/
def State.bound (s : State) (k : SavedFold) : Bool :=
  (match s.launch? k.fold.launch with | some l => l.hdr.gangSize != 0 | none => false) ||
  (List.range 8).any fun n => (k.fold.bankIn n).isSome

/-- The position that a saved fold would take on a core, if it may go there. -/
def State.roomToRestore (s : State) (k : SavedFold) (core : Nat) : Option Nat :=
  let f := k.fold
  let apart := match s.launch? f.launch with | some l => s.apart l f.visit core | none => true
  if s.ownsCore (f.ctx / 64) core && apart && (!s.bound k || core / 8 == f.core / 8) then s.roomOn f.ctx f.half f.regs f.acc f.commit core else none

/-- Distinct cores for a group of saved folds, the first one's first. -/
def State.coresFor (s : State) (first : Nat) : List SavedFold → Option (List (Nat × Nat))
  | [] => some []
  | k :: ks =>
    match s.roomToRestore k first with
    | none => none
    | some p =>
      let others := (List.range 8).filterMap fun j =>
        let c := first / 8 * 8 + j
        if c = first then none else (s.roomToRestore k c).map fun q => (c, q)
      if others.length < ks.length then none else some ((first, p) :: others.take ks.length)

/-- A saved fold and its group are restored, the fold itself on a given core; nothing happens without room for all. -/
def State.restoreOn (s : State) (k : SavedFold) (core : Nat) : State :=
  let group := s.savedGroup k
  match s.coresFor core group with
  | none => s
  | some cs => (group.zip cs).foldl (fun t x => t.restoreFold x.1 x.2.1 x.2.2) s

/-- A saved fold is restored on the lowest core that has room for it and its group. -/
def State.restoreSaved (s : State) (fold : Nat) : State :=
  match s.saved.find? fun k => k.fold.id == fold with
  | none => s
  | some k =>
    match firstIndex (fun c => (s.coresFor c (s.savedGroup k)).isSome) 256 0 with
    | none => s
    | some c => s.restoreOn k c

/-- A fold that was just placed while its context is being pre-empted starts, and its flocks vector at once; without `svec` it is parked again
(R291, R295, log entry 100). -/
def State.vectorNew (s : State) (l : Launch) (visit : Nat) : State :=
  match s.allFolds.find? fun f => f.launch == l.id && f.visit == visit with
  | none => s
  | some f =>
    let svec := (s.ctx l.ctx).svec
    if (s.ctx l.ctx).preempting.isNone then s
    else if svec = 0 then s.abortPark f none
    else (s.startFold l f).mapFlocks fun g => if g.fold = f.id then g.preempted svec s.nextId else g

/-- The re-dispatch of a fold that was parked before a resume belongs to the resume: on another core than the fold's, it ends the boost lease of
its context (R292, R320, log entry 126). -/
def State.moveBoost (s : State) (k : Parked) (core : Nat) : State :=
  if k.generation ≠ (s.ctx k.ctx).fgen ∧ core ≠ k.core then s.endBoost k.ctx else s

/-- Event: a parked fold goes onto a core again, from its start, and its entry is freed; a saved fold that found no room at the resume
is restored (R299, R300). -/
def execParkedFoldRedispatch (launch visit core : Nat) (s : State) : Result :=
  match s.launch? launch with
  | none => .next s
  | some l =>
    match s.parked.find? fun k => k.launch == launch && k.visit == visit && k.flock.isNone with
    | some k =>
      match s.roomFor l core with
      | some position =>
        if !s.mayRedispatch l k core || (s.firstFor core).map (fun f => f.id) != some launch then .next s else
        .next (State.vectorNew (((State.freeEntry { s with parked := s.parked.filter fun q => q != k } k).moveBoost k core).placeFold l visit k.index core
          position) l visit)
      | none => .next s
    | none =>
      match s.saved.find? fun k => k.fold.launch == launch && k.fold.visit == visit with
      | some k => if s.placing l.ctx then .next (s.restoreOn k core) else .next s
      | none => .next s

/-! Shepherd commands (R307, R367). -/

/-- The fields of a command word. -/
def Command.op (c : Command) : Nat := field c.word.toNat 0 8
def Command.partition (c : Command) : Nat := field c.word.toNat 16 3
def Command.context (c : Command) : Nat := 64 * field c.word.toNat 16 3 + field c.word.toNat 8 6
def Command.tag (c : Command) : Word := c.word.extractLsb' 32 32
def Command.reservedOk (c : Command) : Bool := field c.word.toNat 14 2 == 0 && field c.word.toNat 19 13 == 0

/-- Whether a partition was created at the seal. -/
def State.hasPartition (s : State) (p : Nat) : Bool :=
  match s.setup.partitions[p]? with
  | some q => q.clusters != 0
  | none => false

/-- The first command of a die, and the machine with it taken away. -/
def State.nextCommand (s : State) (die : BitVec 2) : Option (Command × State) :=
  (s.commands.find? fun c => c.die == die).map fun c => (c, { s with commands := updateRest c s.commands })
where
  /-- A list without the first of some commands. -/
  updateRest (c : Command) : List Command → List Command
    | [] => []
    | x :: xs => if x = c then xs else x :: updateRest c xs

/-- Why a command is answered at once: 2 where there is no such context; 1 for a wrong field, an operation that does not exist, or a
context that the shepherd may not name. -/
def State.commandError (s : State) (c : Command) : Option Nat :=
  if !s.hasPartition c.partition then some 2
  else if !c.reservedOk || c.op = 0 || decide (4 < c.op) then some 1
  else if !c.secure && (s.setup.partitions.getD c.partition {}).secure then some 1
  else none

/-- A command of one operation is acted on. Another die's turn, or another operation's, changes nothing. -/
def State.command (s : State) (die : BitVec 2) (op : Nat) (act : State → Command → State) : Result :=
  match s.nextCommand die with
  | none => .next s
  | some (c, t) =>
    match s.commandError c with
    | some n => .next (t.doneWord die c.tag n)
    | none => if c.op = op then .next (act t c) else .next s

/-- Whether a context is free, for ADMIT: its state byte is 0, which software may write there. -/
def State.isFree (s : State) (ctx : Nat) : Bool := s.stateOf ctx == 0 && s.read (s.descriptor ctx) == 0

/-- The context that a descriptor describes (R306), one admission of its number further (R267). -/
def State.described (s : State) (ctx : Nat) : Context :=
  let d := s.descriptor ctx
  let addr := fun (o : Nat) => BitVec.ofNat 72 (s.readNat (d + o) 9)
  { state := 1, secure := s.readNat (d + 1) 1 == 1, share := s.readNat (d + 2) 1, guestRoot := s.readNat (d + 8) 8, systemRoot := s.readNat (d + 16) 8
    tvec := addr 0x20, svec := addr 0x30, mxsb4 := addr 0x40, mxsb6 := addr 0x50, parkb := addr 0x60, errq := addr 0x70, life := (s.ctx ctx).life + 1 }

/-- The check of a descriptor: its world is its partition's (R367), its share at most 64 sixty-fourths, its reserved bytes zero and its
roots aligned. -/
def State.descriptorOk (s : State) (ctx : Nat) : Bool :=
  let d := s.descriptor ctx
  let c := s.described ctx
  decide (s.readNat (d + 1) 1 ≤ 1) && c.secure == (s.partitionOf ctx).secure && decide (c.share ≤ 64) && s.readNat (d + 3) 5 == 0 &&
  c.guestRoot % 128 == 0 && c.systemRoot % 256 == 0

/-- The shares of a partition's contexts in states 1 to 3. -/
def State.shares (s : State) (p : Nat) : Nat :=
  ((s.contexts.filter fun c => c.1 / 64 == p && decide (c.1 < 512) && decide (1 ≤ s.stateOf c.1 ∧ s.stateOf c.1 ≤ 3)).map fun c => c.2.share).foldl (· + ·) 0

/-- Event: ADMIT. -/
def execAdmitContext (die : BitVec 2) (s : State) : Result :=
  s.command die 1 fun t c =>
    let n := c.context
    let k := t.described n
    if t.isFree n && t.descriptorOk n && decide (t.shares c.partition + k.share ≤ 64) then
      (((t.setCtx n k).setContextState n 1).refreshEnergy n).doneWord die c.tag 0
    else t.doneWord die c.tag 1

/-- Event: `pre-empt`. The command is answered once every flock has yielded or ended; one that comes while a pre-emption is in progress has no
effect (R296) and is answered with it (log entry 85). -/
def execPreEmpt (die : BitVec 2) (s : State) : Result :=
  s.command die 2 fun t c =>
    let k := t.ctx c.context
    if t.stateOf c.context ≠ 2 then t.doneWord die c.tag 1
    else if k.preempting.isNone then t.preemptContext c.context c.tag die
    else t.setCtx c.context { k with preemptAlso := k.preemptAlso ++ [(c.tag, die)] }

/-- Entries of stalled flocks and parked folds are freed, and the parked folds may go onto cores (R292). -/
def State.releaseParked (s : State) (ctx : Nat) : State :=
  let mine := s.parked.filter fun k => k.ctx == ctx
  let s1 := mine.foldl State.freeEntry s
  { s1 with
    parked := (s1.parked.filter fun k => k.ctx != ctx || k.flock.isNone).map fun k => if k.ctx = ctx then { k with installed := true, freed := true } else k }

/-- A pre-empted context becomes resident again, with the next generation. Its saved folds get free cores before its parked ones do (log entry 109). -/
def State.resumeContext (s : State) (ctx : Nat) : State :=
  let s1 := (s.setCtx ctx { s.ctx ctx with fgen := (s.ctx ctx).fgen + 1 }).setContextState ctx 2
  let s2 := s1.releaseParked ctx
  (s2.saved.filter fun k => k.fold.ctx == ctx).foldl (fun t k => t.restoreSaved k.fold.id) s2

/-- Event: `resume`. -/
def execResume (die : BitVec 2) (s : State) : Result :=
  s.command die 3 fun t c =>
    if t.stateOf c.context = 3 then (t.resumeContext c.context).doneWord die c.tag 0 else t.doneWord die c.tag 1

/-- A launch of a killed context ends and retires with status 0x12, whatever else was ending it. -/
def State.killLaunch (s : State) (id : Nat) : State :=
  let s1 := (s.closeLaunch id 0x12).cancelFolds id fun _ => true
  match s1.launch? id with
  | some l => (match l.closing with | some (_, k) => s1.retire l 0x12 k | none => s1)
  | none => s1

/-- A context is killed: its launches retire, its boost lease ends, and so do its leases, whose lines leave the L2 where no other context leases them
(R274, R275). -/
def State.killContext (s : State) (ctx : Nat) : State :=
  let s1 := (s.liveOf ctx).foldl (fun t l => t.killLaunch l.id) s
  let lines := ((((s1.leases ctx).flatMap fun l => l.spans).flatMap spanLines).eraseDups)
  let s2 := s1.finishPreempt ctx
  let s3 := s2.setCtx ctx { s2.ctx ctx with leases := [], boost := none }
  ((s3.evict (lines.filter fun l => !s3.leasedLine l)).setContextState ctx 4).refreshEnergy ctx

/-- Event: `kill`. -/
def execKill (die : BitVec 2) (s : State) : Result :=
  s.command die 4 fun t c =>
    let st := t.stateOf c.context
    if 1 ≤ st ∧ st ≤ 3 then (t.killContext c.context).doneWord die c.tag 0 else t.doneWord die c.tag 1

end Sys2Proof.Machine
end

