-- ==== Sys2Proof/Machine/Ports.lean ====
section
/-!
DEFINITION. The mesh port of a core (R314): what a step sends there, and the tokens that its requests take.
-/
namespace Sys2Proof.Machine

/-- The contexts with a resident fold on a core, ascending. -/
def State.contextsOn (s : State) (core : Nat) : List Nat :=
  sortBy (fun a b => decide (a ≤ b)) ((s.allFolds.filter fun f => f.core == core).map fun f => f.ctx).eraseDups

/-- Whether what sent a request is still under way. -/
def State.asking (s : State) : Asker → Bool
  | .op n => s.allFlocks.any fun f => f.pend.any fun o => o.id == n && !o.done
  | .chunk n => s.jobs.any fun j => j.id == n && j.formed.isSome
  | .entry n q k => match s.flock? n with
    | some f => (f.getQ q).entries.any fun e => e.index == k
    | none => false
  | .commit n => (s.fold? n).isSome
  | .fetch n => (s.flock? n).isSome

/-- The requests at a port take tokens in order of arrival, each of its context's bucket; one that has all its tokens goes on, and one of a context
without a fold on the core needs none. -/
def servePort (here : List Nat) : List Request → List (Nat × Nat) → List Request × List (Nat × Nat)
  | [], buckets => ([], buckets)
  | r :: rs, buckets =>
    let left := if here.contains r.ctx then (lookup buckets r.ctx).getD 0 else r.tokens
    let taken := min left r.tokens
    let rest := servePort here rs (if here.contains r.ctx then store buckets r.ctx (left - taken) else buckets)
    (if taken = r.tokens then rest.1 else { r with tokens := r.tokens - taken } :: rest.1, rest.2)

/-- A port with requests is served. -/
def State.serve (s : State) (core : Nat) : State :=
  let c := s.core core
  let r := servePort (s.contextsOn core) (c.port.filter fun r => s.asking r.asker) c.buckets
  s.setCore core { c with port := r.1, buckets := r.2 }

/-- What a step sends: the core, the context, the sender, and the lines that it asks for (`PendOp.asks`). -/
structure Sent where
  core : Nat
  ctx : Nat
  asker : Asker
  asks : Nat × Nat
  deriving DecidableEq, Repr

/-- The counted operations that the current flock has issued between a machine and the next. -/
def State.sentOps (s t : State) : List Sent :=
  if t.cur.supervises then [] else
  (t.cur.pend.filter fun o => decide (s.nextId ≤ o.id)).map fun o => { core := t.cur.core, ctx := t.cur.ctx, asker := .op o.id, asks := o.asks }

/-- How many ends of a job are memory, and not scratch. -/
def CopyJob.memoryEnds (j : CopyJob) : Nat := ([j.src, j.dst].filter fun e => match e with | .record _ _ => true | _ => false).length

/-- The chunks that the copy engine has formed, charged at the issuing core's port: a token for each 64 bytes that it reads from memory, and for each
that it writes there. -/
def State.sentChunks (s t : State) : List Sent :=
  t.jobs.filterMap fun j => match j.formed with
    | none => none
    | some c =>
      if decide (256 ≤ j.core) || (s.jobs.any fun k => k.id == j.id && k.formed.isSome) then none
      else some { core := j.core, ctx := j.ctx, asker := .chunk j.id, asks := (j.memoryEnds * ((c.width * c.count + 511) / 512), 0) }

/-- The entries that have come into the operand queues of a flock. -/
def Flock.sentEntries (f g : Flock) : List Sent :=
  if f.queues = g.queues || g.supervises then [] else
  [0#2, 1#2, 2#2, 3#2].flatMap fun q =>
    ((g.getQ q).entries.filter fun e => !(f.getQ q).entries.contains e).map fun e =>
      { core := g.core, ctx := g.ctx, asker := .entry g.id q e.index, asks := e.asks }

/-- The commit buffers that have been written out. -/
def State.sentCommits (s t : State) : List Sent :=
  s.allFolds.filterMap fun f =>
    match t.fold? f.id with
    | none => none
    | some g =>
      if (!f.committed && g.committed) || ((s.flocksOf f.id).any (fun k => k.status == .committing) && !f.buf.isEmpty && g.buf.isEmpty) then
        some { core := f.core, ctx := f.ctx, asker := .commit f.id, asks := askOf ((s.outgoing f).flatMap CommitEntry.places) }
      else none

/-! Issuing (R37, R175). -/

/-- Instructions that a flock issues in a row before other agents have their turn (R37, log entry 64). -/
def turnLength : Nat := 64

/-- Whether the current flock issues: it runs, its core has not stopped, no deferred fault is to be taken first (R175), its turn is not
over, and no fetch of its own waits at the mesh port (R314). -/
def State.issues (s : State) : Bool :=
  !s.stopped && s.cur.status == .running && s.cur.deliverable.isNone && decide (s.beat < turnLength) && !s.atPort (.fetch s.cur.id)

/-- The places of the instruction that the current flock fetches, those apart that its core is known to hold. -/
def State.fetchedPlaces (s : State) : List Nat :=
  match s.fetch with
  | .fault _ => []
  | .bytes bs => (List.range (bs.length / 2)).filterMap fun k =>
    match s.translate (s.agent s.cur) Need.fetch (s.cur.pc + BitVec.ofNat 72 (2 * k)) with
    | .ok (pa, _) => if (s.heldCode pa).isSome then none else some pa
    | .error _ => none

/-- The fetch of the instruction that the current flock issues; the flock's next instruction waits for its token (log entry 125). -/
def State.sentFetch (s : State) : List Sent :=
  if s.cur.supervises || s.agenda != [] || !s.issues then []
  else [{ core := s.cur.core, ctx := s.cur.ctx, asker := .fetch s.cur.id, asks := askOf s.fetchedPlaces }]

/-- All that a step sends. -/
def State.sent (s t : State) : List Sent :=
  (s.sentFetch ++ s.sentOps t ++ s.sentCommits t ++ s.sentChunks t ++ t.allFlocks.flatMap fun g => match s.flock? g.id with | some f => f.sentEntries g | none => []).filter
    fun x => x.asks != (0, 0)

/-- A request reaches its port: one token for each line that goes past the core, and how many of those do that an L1 may hold is open (R314, log
entry 42). -/
def State.send (s : State) (x : Sent) : State :=
  let (n, s1) := s.draw 1
  let tokens := x.asks.1 + Config.freeChoice n % (x.asks.2 + 1)
  let c := s1.core x.core
  s1.setCore x.core { c with port := c.port ++ [{ ctx := x.ctx, asker := x.asker, tokens := tokens }] }

/-- What a step sends reaches the ports, and every port with a request is served. -/
def State.settlePorts (s t : State) : State :=
  let u := (s.sent t).foldl State.send t
  ((u.cores.filter fun c => c.2.port != []).map fun c => c.1).foldl State.serve u

end Sys2Proof.Machine
end

