-- ==== Sys2Proof/Machine/Cache.lean ====
section
/-!
DEFINITION. The room that the L2 has for lines (R1, R270 to R274): the lines that the model knows to be there keep to the ways of their sets.
-/
namespace Sys2Proof.Machine

/-! Compression (R271). -/

/-- The words of n bytes of a line. -/
def wordsOf (n : Nat) (bs : List Byte) : List Nat := (List.range (bs.length / n)).map fun k => fromBytes ((bs.drop (n * k)).take n)

/-- Whether every word of w bytes is a signed delta of n bytes from the first, modulo the word (log entry 123). -/
def deltasFit (w n : Nat) (bs : List Byte) : Bool :=
  let ws := wordsOf w bs
  ws.all fun x =>
    let d := signed (8 * w) ((x + 2 ^ (8 * w) - ws.headD 0) % 2 ^ (8 * w))
    decide (-(2 ^ (8 * n - 1) : Int) ≤ d ∧ d < 2 ^ (8 * n - 1))

/-- The bytes in which a line is stored. -/
def storedSize (bs : List Byte) : Nat :=
  if bs.all fun b => b == 0 then 0
  else if (wordsOf 8 bs).all fun x => x == (wordsOf 8 bs).headD 0 then 8
  else if deltasFit 8 1 bs then 16
  else if deltasFit 4 1 bs then 20
  else if deltasFit 8 2 bs then 24
  else 64

/-- The data ways that lines of some stored sizes take: two compressed ones share a way, and a line of zeros has its tag only. -/
def waysFor (sizes : List Nat) : Nat :=
  (sizes.filter fun n => decide (32 < n)).length + ((sizes.filter fun n => decide (0 < n ∧ n ≤ 32)).length + 1) / 2

/-! Room (R270, R272). -/

/-- The lines that the L2 is known to hold: of this device's memory the dirty ones and those that carry a tensor tag, and those of other devices'
memory. -/
def State.cachedLines (s : State) : List Nat :=
  (s.dirty ++ (s.remote.map fun (c : Nat × Byte × Byte) => c.1 / 64 * 64) ++ (s.clean.map fun (c : Nat × Byte) => c.1 / 64 * 64) ++
    s.tags.map fun t => t.line).eraseDups

/-- Of some known lines the one used least recently (R272). -/
def State.leastUsed (s : State) (ls : List Nat) : Nat := ((ls.filter fun l => !s.used.contains l) ++ s.used.filter fun l => ls.contains l).headD 0

/-- Ways of a set that leases reserve. -/
def State.reservedWays (s : State) (set : Nat × Nat × Nat) : Nat := ((s.leasedSpans.flatMap spanLines).map l2Set).count set

/-- Whether unleased lines of a set fit beside its reserved ways: 16 data ways and 32 tags. -/
def State.fitsSet (s : State) (set : Nat × Nat × Nat) (lines : List Nat) : Bool :=
  lines.isEmpty ||
  decide (waysFor (lines.map fun l => storedSize (s.bytes l 64)) + s.reservedWays set ≤ 16 ∧ lines.length + s.reservedWays set ≤ 32)

/-- The unleased lines of the first set that holds more than it has room for. So few lines as lie in the ways that no lease may take always fit. -/
def State.crowded (s : State) : Option (List Nat) :=
  let ls := s.cachedLines
  if ls.length ≤ 16 - leaseWays then none else
  ((ls.map l2Set).eraseDups).findSome? fun k =>
    let mine := ls.filter fun l => l2Set l == k && !s.leasedLine l
    if s.fitsSet k mine then none else some mine

/-- Unleased lines leave crowded sets, n at most, the least recently used first (R272). -/
def State.fitCache : Nat → State → State
  | 0, s => s
  | n + 1, s =>
    match s.crowded with
    | none => s
    | some ls => State.fitCache n (s.evict [s.leastUsed ls])

/-- Every set of the L2 gets to hold no more than it has room for. -/
def State.fitCaches (s : State) : State := s.fitCache s.cachedLines.length

/-! Use (R272). -/

/-- The places that a step reaches in memory, each with the fold for which it does: those of the operations of some kind that have just been issued, of queue
entries that have just come, of the chunks that copy jobs have just formed, and of the instruction that was fetched. -/
def State.newPlaces (s t : State) (kind : PendOp → Bool) : List (Nat × Nat) :=
  let placesOf := fun (j : CopyJob) => (s.sourceReaches j).filterMap fun va =>
    match s.page j.agent va with | .ok e => some (e.base + va.toNat % 2 ^ 16) | .error _ => none
  (t.allFlocks.flatMap fun g => (((g.pend.filter fun o => decide (s.nextId ≤ o.id) && kind o).flatMap fun o => o.places) ++
    match s.flock? g.id with
    | none => []
    | some f => if f.queues = g.queues then [] else
      [0#2, 1#2, 2#2, 3#2].flatMap fun q => ((g.getQ q).entries.filter fun e => !(f.getQ q).entries.contains e).flatMap fun e => e.places).map
        fun a => (g.fold, a)) ++
  (t.jobs.flatMap fun j => match s.jobs.find? fun k => k.id == j.id with
    | some k => if k.formed.isNone && j.formed.isSome then (placesOf k).map fun a => (j.fold, a) else []
    | none => []) ++
  if s.agenda = [] ∧ s.issues = true then s.fetchedPlaces.map fun a => (s.cur.fold, a) else []

/-- The lines that a step reaches. -/
def State.reached (s t : State) : List Nat := linesIn ((s.newPlaces t fun _ => true).map fun x => x.2)

/-- Whether an operation reads memory: a load, an atomic with a result, or a tile load. -/
def PendOp.readsMemory (o : PendOp) : Bool := o.cls == .loads || (o.cls == .copies && !o.writes.isEmpty)

/-- What folds read in a step, where some launch under the stop flag has written memory (R58). -/
def State.foldReads (s t : State) : List (Nat × Nat) :=
  if t.launches.all fun l => l.wrote.isEmpty then [] else s.newPlaces t PendOp.readsMemory

/-- The lines that a step reads are the last used. A line of this device's memory may be read in an L1, which the L2 does not see: whether it is, is open
(log entry 123). The order is kept of known lines alone. -/
def State.useLines (s t : State) : State :=
  let known := t.cachedLines
  if known.isEmpty then { t with used := [] } else
  let ls := (s.reached t).filter fun l => known.contains l
  let (n, u) := t.draw ls.length
  let seen := (ls.zipIdx.filter fun e => isFar e.1 || Config.freeChoice (n + e.2) % 2 == 0).map fun e => e.1
  { u.touchLines seen with used := (u.touchLines seen).used.filter fun l => known.contains l }

end Sys2Proof.Machine
end

