-- ==== Sys2Proof/Machine/Power.lean ====
section
/-!
DEFINITION. Gang launches decide (R311, R312), the time base and its schedule (R309, R313), token buckets (R315), the pass count and boost
leases (R317 to R320), core status words (R321 to R323) and energy counters (R326, R327).
-/
namespace Sys2Proof.Machine

/-! Gang launches (R310 to R312). -/

/-- The last instants at which a member may send and at which an acknowledgement may arrive. -/
def Launch.sendBy (l : Launch) (g : Gang) : Nat := l.hdr.start.toNat + g.window.toNat
def Launch.arriveBy (l : Launch) (g : Gang) : Nat := l.sendBy g + g.guard.toNat

/-- Whether an acknowledgement counts for a launch. -/
def Launch.counts (l : Launch) (g : Gang) (a : Ack) : Bool :=
  g.ident == a.gang && g.generation == a.generation && decide (a.sent.toNat ≤ l.sendBy g) && decide (a.arrived.toNat ≤ l.arriveBy g)

/-- Event: an acknowledgement arrives, at the instant that the time base shows; it may come before the member's own header. -/
def execGangAckReceive (gang generation : BitVec 64) (member : Nat) (sent arrived : BitVec 64) (s : State) : Result :=
  if arrived ≠ s.time then .next s else
  .next { s with acks := s.acks ++ [{ gang := gang, generation := generation, member := member, sent := sent, arrived := arrived }] }

/-- Whether a member finds the gang complete: an acknowledgement that counts has come from every other member. -/
def State.gangComplete (s : State) (l : Launch) (g : Gang) : Bool :=
  decide (g.sent.toNat ≤ l.sendBy g) && (List.range g.members).all fun m => m == g.index || s.acks.any fun a => a.member == m && l.counts g a

/-- A flock of a launch that a gang abort ends (R312). -/
def Flock.gangAborted (f : Flock) (tvec : Addr) (nextOp : Nat) : Flock :=
  if f.status = .ended then f
  else if tvec = 0 then { f with status := .ended, monitor := {}, buf := [] }
  else { f.boundary.enter .gangAbort tvec f.resumeAt none { kind := 0x32 } nextOp with buf := [] }

/-- A member aborts its launch (R312): folds that have not started, parked ones and saved ones go, buffers and deposits are lost, the
record is left in state 6, and every flock takes the trap. K is fixed now: flocks that end with the routine do not add to it (log entry 82). -/
def State.gangAbort (s : State) (l : Launch) : State :=
  let running := (s.allFolds.filter fun f => f.launch == l.id && f.started).map fun f => f.id
  let live := (s.allFolds.filter fun f => f.launch == l.id && f.started).map fun f => f.visit
  let s1 := s.cancelFolds l.id fun v => !live.contains v
  let stalled := s1.parked.filter fun k => k.launch == l.id
  let s2 := stalled.foldl State.freeEntry { s1 with parked := s1.parked.filter fun k => k.launch != l.id }
  let l1 := { (s2.launch? l.id).getD l with
    closing := some (0x13, l.cutoff), deposits := [], state := 6, gang := l.gang.map fun g => { g with decided := true } }
  let s3 := (s2.setLaunch l1).writeRecord l1
  let s4 := running.foldl (fun t n => match t.fold? n with
    | some f => t.setFold { f with buf := [], deposits := [] }
    | none => t) s3
  let tvec := (s4.ctx l.ctx).tvec
  (s4.mapFlocks fun f => if running.contains f.fold then f.gangAborted tvec s4.nextId else f).finishPreempt l.ctx

/-- Event: at start + window + guard a member decides. -/
def execGangDecision (launch : Nat) (s : State) : Result :=
  match s.launch? launch with
  | none => .next s
  | some l =>
    match l.gang with
    | none => .next s
    | some g =>
      if g.decided || l.closing.isSome || decide (s.time.toNat < l.arriveBy g) then .next s
      else if s.gangComplete l g then .next (s.setLaunch { l with gang := some { g with decided := true } })
      else .next (s.gangAbort l)

/-! The time base (R309, R313). -/

/-- Event: a message of the grandmaster tells how far the time base stands behind it. A step forward of at most 1 µs is applied at once;
any other is slewed, so that the time base never decreases. A new step replaces one that is still being slewed (log entry 107). -/
def execTimeBaseSync (offset : Int) (s : State) : Result :=
  if 0 ≤ offset ∧ offset ≤ 1000 then .next { s with time := s.time + BitVec.ofNat 64 offset.toNat, slew := 0, slewCarry := 0 }
  else .next { s with slew := offset, slewCarry := 0 }

/-- The slew of a span of nanoseconds, those counted that did not make up a step before: at most 100 ppm of it. -/
def slewIn (slew : Int) (ns : Nat) : Int := max (-(ns / 10000 : Nat)) (min (ns / 10000 : Nat) slew)

/-- What is carried of a span to the next, while a slew goes on. -/
def slewRest (slew : Int) (ns : Nat) : Nat := if slew = 0 then 0 else ns % 10000

/-- The slot of the schedule at an instant: 64 cycles of 2.25 GHz are 256/9 ns. -/
def slotAt (time : DWord) : Nat := time.toNat * 9 / 256 % 16

/-- Event: a slot of the schedule begins. -/
def execTimeDivisionSlot (s : State) : Result := .next { s with slot := slotAt s.time }

/-! Token buckets (R314, R315). -/

/-- The buckets after a refill: base grants, and the pool divided among the waiting contexts. -/
def refill (share : Nat → Nat) (ctxs waiting : List Nat) (left : Nat → Nat) (sum : Nat) : List (Nat × Nat) :=
  let w := ctxs.filter fun c => waiting.contains c
  let pool := ((ctxs.filter fun c => !waiting.contains c).map left).foldl (· + ·) 0 + 16 * (64 - sum)
  let all := (w.map share).foldl (· + ·) 0
  let part := fun c => pool * share c / all
  let rest := pool - (w.map part).foldl (· + ·) 0
  ctxs.map fun c =>
    (c, 16 * share c + if w.contains c then part c + rest / w.length + (if w.idxOf c < rest % w.length then 1 else 0) else 0)

/-- The refill window of an instant: 1,024 cycles of 2.25 GHz are 4096/9 ns. -/
def windowAt (time : DWord) : Nat := time.toNat * 9 / 4096

/-- Event: a refill at a core's port, once in each window. Contexts wait with a request at the port, or, as the event tells, with one that the
device sends for them itself; `spent` tells the tokens that such requests took (log entry 42). -/
def execTokenRefill (core : Nat) (spent : List (Nat × Nat)) (waiting : List Nat) (s : State) : Result :=
  let ctxs := s.contextsOn core
  let left := fun c => ((lookup (s.core core).buckets c).getD 0) - (lookup spent c).getD 0
  let waiting := ((s.core core).port.map fun r => r.ctx) ++ waiting
  let sum := s.shares ((ctxs.headD 0) / 64)
  if windowAt s.time ≤ (s.core core).window then .next s else
  .next (s.setCore core { s.core core with
    window := windowAt s.time, buckets := refill (fun c => (s.ctx c).share) ctxs waiting left sum })

/-! Core status words (R321 to R323). -/

/-- Whether a flock may issue (R321). -/
def Flock.canIssue (f : Flock) : Bool := f.status == .running

/-- A core is gated when none of its flocks may issue. -/
def State.gated (s : State) (core : Nat) : Bool := s.allFlocks.all fun f => f.core != core || !f.canIssue

/-- The partition that owns a core, 0xFF for none. -/
def State.ownerOf (s : State) (core : Nat) : Nat := (firstIndex (fun p => s.ownsCore p core) 8 0).getD 0xFF

/-- The status word of a core, with wake reasons in bits 23:16. -/
def State.coreStatus (s : State) (core : Nat) (reasons : BitVec 8) : Nat :=
  let shepherd := decide (256 ≤ core)
  s.ownerOf core + (if shepherd then 0 else (s.passCode (core / 8)).toNat * 256) +
  (if !shepherd && (s.boosted (core / 8)).isSome then 1024 else 0) + (if s.gated core then 2048 else 0) + reasons.toNat * 65536

/-- Where a core's status word stands. -/
def State.coreWordAddress (s : State) (core : Nat) : Nat :=
  if core < 256 then s.setup.control + 0x800 + 8 * core else s.setup.control + 0x180 + 8 * (core - 256)

/-- The first of the words that a core has yet to write is written. -/
def State.writeDue (s : State) (core : Nat) : State :=
  match (s.core core).due with
  | [] => s
  | w :: rest => (s.setCore core { s.core core with due := rest }).hwWrite (s.coreWordAddress core) (toBytes 8 w)

/-- A core writes its status word as it stands, after those that are due; there is none before the control area exists. -/
def State.writeCoreStatus (s : State) (core : Nat) : State :=
  if s.plewick.sealed && decide (core < 260) then
    let s1 := (s.core core).due.foldl (fun t _ => t.writeDue core) s
    (s1.setCore core { s1.core core with shown := some (s1.coreStatus core 0) }).hwWrite (s.coreWordAddress core) (toBytes 8 (s.coreStatus core 0))
  else s

/-- The cores of a cluster write their words at a change of pass count or boost. -/
def State.writeClusterStatus (s : State) (cluster : Nat) : State :=
  (List.range 8).foldl (fun t k => t.writeCoreStatus (8 * cluster + k)) s

/-- Event: a core writes the word of its last wake, or of another change, with every reason that applied. -/
def execCoreWake (core : Nat) (reasons : BitVec 8) (s : State) : Result :=
  match (s.core core).due.head? with
  | some w => if field w 16 8 = reasons.toNat then .next (s.writeDue core) else .next s
  | none => .next s

/-! What a step changes of the status words (R321 to R323). The wake reasons are bits 0 to 7, for word bits 16 to 23. -/

/-- The reason that a blocking instruction goes on for. -/
def Block.reason : Block → Nat
  | .bank _ => 2
  | .reserve _ => 1
  | .take _ => 1
  | _ => 7

/-- What has come of that for which a flock waits. -/
def State.waitReason (t : State) (f : Flock) : List Nat :=
  match f.status with
  | .sleeping till => if till ≠ 0 ∧ till ≤ t.time then [3] else []
  | .waiting => if f.monitor.event then [0] else []
  | .blocked b => if (t.as f).conditionMet b then [b.reason] else []
  | .remote x _ => if (t.as f).answered x then [7] else []
  | _ => []

/-- Why a flock that could not issue before a step may issue in the machine after it: a trap that it has taken, a wake, and what has come of that for
which it waited; if none of these, what it waited for is done (R322, log entry 86). -/
def State.wakeReason (t : State) (f g : Flock) : List Nat :=
  let why := (if f.entries ≠ g.entries then [4] else []) ++
    (if f.wakes ≠ g.wakes ∨ (f.status = .waiting ∧ f.wakePending) then [6] else []) ++ t.waitReason f
  if why.isEmpty then (match f.status with | .blocked b => [b.reason] | _ => [7]) else why

/-- What else reaches a flock that issues already: a trap, an event of its monitor, a wake. -/
def lateReason (f g : Flock) : List Nat :=
  (if f.entries ≠ g.entries then [4] else []) ++ (if !f.monitor.event && g.monitor.event then [0] else []) ++
  if f.wakes ≠ g.wakes then [6] else []

/-- A word with the bits of some reasons set. -/
def reasonBits (why : List Nat) : Nat := ((List.range 8).filter fun k => why.contains k).foldl (fun n k => n + 2 ^ k) 0

/-- The reasons of a core's wake between a machine and the next: those of each of its flocks that may now issue; a flock that was not there has been
placed, and one that vectors at once is reached by a pre-emption too (R291, R295). With `late` also what reaches flocks that issue already. -/
def State.wakeReasons (s t : State) (core : Nat) (late : Bool) : Nat :=
  reasonBits ((t.allFlocks.filter fun g => g.core == core && g.canIssue).flatMap fun g =>
    match s.flock? g.id with
    | none => if g.routine = .save then [4, 5] else [5]
    | some f => if !f.canIssue then t.wakeReason f g else if late then lateReason f g else [])

/-- A core whose status word has changed between a machine and the next has the new one to write, with the reasons of a wake. -/
def State.settleCore (s t : State) (core : Nat) : State :=
  let base := t.coreStatus core 0
  if (t.core core).shown = some base then t else
  let wakes := s.gated core && !t.gated core
  let why := if wakes then s.wakeReasons t core false else 0
  let c := t.core core
  t.setCore core { c with
    due := c.due ++ [base + why * 65536], shown := some base, wokeAt := if wakes then some t.time else c.wokeAt }

/-- Reasons that apply at the instant of a core's last wake, whose word is still to be written, may have come in the same cycle, and are then set
in it with the others (R322, log entry 86). -/
def State.joinWake (s t : State) (core : Nat) : State :=
  let why := s.wakeReasons t core true
  let c := t.core core
  if why = 0 || s.gated core || c.wokeAt != some t.time then t else
  match c.due.reverse with
  | [] => t
  | w :: rest =>
    if field w 16 8 = 0 then t else
    let (n, u) := t.draw 1
    if Config.freeChoice n % 2 = 0 then u
    else u.setCore core { c with due := rest.reverse ++ [w % 65536 + (field w 16 8 ||| why) * 65536] }

/-- All cores, once the control area exists. -/
def State.settleCores (s t : State) : State :=
  if t.plewick.sealed then (List.range 260).foldl (fun u k => s.settleCore (s.joinWake u k) k) t else t

/-! The pass count and boost leases (R317 to R320). -/

/-- The pass code that an emergency raises a cluster's to: the one asked for where that is higher, else the next. -/
def raisedPass (old ask : BitVec 2) : BitVec 2 :=
  if ask ≠ 3 ∧ old.toNat < ask.toNat then ask else if old.toNat < 2 then old + 1 else old

/-- Event: a current emergency raises a cluster's pass count, and ends the boost lease that runs there. -/
def execCurrentEmergency (cluster : BitVec 5) (pass : BitVec 2) (s : State) : Result :=
  let n := cluster.toNat
  let c := s.cluster n
  let new := raisedPass c.pass pass
  let s1 := match s.boosted n with | some ctx => s.endBoost ctx | none => s
  .next ((s1.setCluster n { c with pass := new, emergency := true }).writeClusterStatus n)

/-- Event: the pass count goes down one step, at most once in 10 µs; the emergency counts as over (log entry 26). -/
def execPassCountLower (cluster : BitVec 5) (s : State) : Result :=
  let n := cluster.toNat
  let c := s.cluster n
  if c.pass = 0 ∨ s.time.toNat < c.lowered.toNat + 10000 then .next s
  else .next ((s.setCluster n { c with pass := c.pass - 1, emergency := false, lowered := s.time }).writeClusterStatus n)

/-- Event: the time base has passed the end of a boost lease, and the record of it goes. -/
def execBoostLeaseExpiry (ctx : Nat) (s : State) : Result :=
  match (s.ctx ctx).boost with
  | none => .next s
  | some till =>
    if s.time ≤ till then .next s else
    let clusters := ((s.allFolds.filter fun f => f.ctx == ctx).map fun f => f.core / 8).eraseDups
    .next (clusters.foldl State.writeClusterStatus (s.endBoost ctx))

/-! Energy (R326, R327). -/

/-- A counter with energy added; it never decreases. -/
def addEnergy (e : DWord) (uj : Nat) : DWord := BitVec.ofNat 64 (min (e.toNat + uj) (2 ^ 64 - 1))

/-- A context's counter; a supervisor flock that acts for none is part of the device. -/
def State.chargeDevice (s : State) (uj : Nat) : State :=
  let s1 := { s with overhead := addEnergy s.overhead uj }
  if s.plewick.sealed then s1.hwWrite (s.setup.control + 0x100) (toBytes 8 s1.overhead.toNat) else s1

def State.chargeContext (s : State) (ctx uj : Nat) : State :=
  if ctx < 512 then s.setCtx ctx { s.ctx ctx with energy := addEnergy (s.ctx ctx).energy uj } else s.chargeDevice uj

def State.chargePartition (s : State) (p uj : Nat) : State :=
  match s.setup.partitions[p]? with
  | none => s
  | some q =>
    let e := addEnergy q.energy uj
    let s1 := { s with setup := { s.setup with partitions := s.setup.partitions.set p { q with energy := e } } }
    if s.plewick.sealed then s1.hwWrite (s.setup.control + 0x1000 + 0x4000 * p) (toBytes 8 e.toNat) else s1

/-- Energy is charged for an activity, where R326 has it go: what the context's flocks issue, its engine operations and its leases to the
context. -/
def State.charge (s : State) (a : Activity) (uj : Nat) : State :=
  match a with
  | .issue flock => (match s.flock? flock with | some f => s.chargeContext f.ctx uj | none => s)
  | .engine job => (match s.jobs.find? fun j => j.id == job with | some j => s.chargeContext j.ctx uj | none => s)
  | .lease ctx handle => if (s.lease? ctx handle).isSome then s.chargeContext ctx uj else s
  | .ballast p => s.chargePartition p uj
  | .test => s.chargeDevice uj
  | .idle => s.chargeDevice uj

/-- Event: the copy of a context's energy counter in its descriptor is rewritten. -/
def execEnergyCopyRefresh (ctx : Nat) (s : State) : Result :=
  if ctx < 512 ∧ s.stateOf ctx ≠ 0 then .next (s.refreshEnergy ctx) else .next s

/-- The copies of all contexts are rewritten when a span of 10 µs ends (R327). -/
def State.settleEnergy (s t : State) : State :=
  if s.time.toNat / 10000 = t.time.toNat / 10000 then t else
  (t.contexts.filter fun c => decide (c.1 < 512) && t.stateOf c.1 != 0).foldl (fun u c => u.refreshEnergy c.1) t

end Sys2Proof.Machine
end

