-- ==== Sys2Proof/Machine/Sha3.lean ====
section
/-!
DEFINITION. SHA3-384, which R365, R370 and R372 name, as FIPS 202 defines it (log entry 7). A state of the permutation is a list of 25
lanes of 64 bits, lane (x, y) at x + 5 y.
-/
namespace Sys2Proof.Machine

/-- Lane (x, y), both taken modulo 5. -/
def lane25 (a : List DWord) (x y : Nat) : DWord := a.getD (x % 5 + 5 * (y % 5)) 0

/-- A state by its lanes. -/
def build25 (f : Nat → Nat → DWord) : List DWord := (List.range 25).map fun i => f (i % 5) (i / 5)

/-- The step theta. -/
def keccakTheta (a : List DWord) : List DWord :=
  let c := (List.range 5).map fun x => (List.range 5).foldl (fun t y => t ^^^ lane25 a x y) 0
  let d := (List.range 5).map fun x => c.getD ((x + 4) % 5) 0 ^^^ (c.getD ((x + 1) % 5) 0).rotateLeft 1
  build25 fun x y => lane25 a x y ^^^ d.getD x 0

/-- The rotations of the step rho. -/
def keccakOffsets : List Nat :=
  [0, 1, 62, 28, 27] ++ [36, 44, 6, 55, 20] ++ [3, 10, 43, 25, 39] ++ [41, 45, 15, 21, 8] ++ [18, 2, 61, 56, 14]

/-- The steps rho and pi: the lane at (x, y) comes from (x + 3 y, x). -/
def keccakRhoPi (a : List DWord) : List DWord :=
  build25 fun x y => (lane25 a (x + 3 * y) x).rotateLeft (keccakOffsets.getD ((x + 3 * y) % 5 + 5 * x) 0)

/-- The step chi. -/
def keccakChi (a : List DWord) : List DWord :=
  build25 fun x y => lane25 a x y ^^^ (~~~(lane25 a (x + 1) y) &&& lane25 a (x + 2) y)

/-- The round constants of the step iota. -/
def keccakConstants : List DWord :=
  [0x0000000000000001, 0x0000000000008082, 0x800000000000808A, 0x8000000080008000, 0x000000000000808B, 0x0000000080000001] ++
  [0x8000000080008081, 0x8000000000008009, 0x000000000000008A, 0x0000000000000088, 0x0000000080008009, 0x000000008000000A] ++
  [0x000000008000808B, 0x800000000000008B, 0x8000000000008089, 0x8000000000008003, 0x8000000000008002, 0x8000000000000080] ++
  [0x000000000000800A, 0x800000008000000A, 0x8000000080008081, 0x8000000000008080, 0x0000000080000001, 0x8000000080008008]

/-- The permutation: 24 rounds. -/
def keccak (a : List DWord) : List DWord :=
  keccakConstants.foldl (fun t c =>
    match keccakChi (keccakRhoPi (keccakTheta t)) with
    | [] => []
    | x :: xs => (x ^^^ c) :: xs) a

/-- Bytes of a block. -/
def sha3Rate : Nat := 104

/-- Lane `k` of a block of bytes. -/
def blockLane (bs : List Byte) (k : Nat) : DWord :=
  (List.range 8).foldl (fun t j => t ||| ((bs.getD (8 * k + j) 0).setWidth 64 <<< (8 * j))) 0

/-- A block enters the state. -/
def absorb (a : List DWord) (bs : List Byte) : List DWord :=
  keccak (a.zipIdx.map fun x => if x.2 < sha3Rate / 8 then x.1 ^^^ blockLane bs x.2 else x.1)

/-- A message with its padding: the suffix 01, then 1, zeros and 1. -/
def sha3Pad (bs : List Byte) : List Byte :=
  let n := sha3Rate - bs.length % sha3Rate
  bs ++ if n = 1 then [0x86] else 0x06 :: List.replicate (n - 2) 0 ++ [0x80]

/-- Some blocks enter the state in order. -/
def absorbAll (a : List DWord) (bs : List Byte) : Nat → List DWord
  | 0 => a
  | n + 1 => absorbAll (absorb a (bs.take sha3Rate)) (bs.drop sha3Rate) n

/-- The digest, its first byte in bits 7:0. -/
def sha3 (bs : List Byte) : BitVec 384 :=
  let padded := sha3Pad bs
  let a := absorbAll (List.replicate 25 0) padded (padded.length / sha3Rate)
  (List.range 6).foldl (fun t k => t ||| ((a.getD k 0).setWidth 384 <<< (64 * k))) 0

end Sys2Proof.Machine
end

