-- ==== Sys2Proof/Machine/Bringup.lean ====
section
/-!
DEFINITION. Bring-up and attestation (R364 to R373), and supply loss (R324, R325).
-/
namespace Sys2Proof.Machine

/-! The Plewick window (R366, R371). -/

/-- Bytes of the configuration block and of the request line. -/
def State.configNat (s : State) (off n : Nat) : Nat := fromBytes (s.mem.bytes (configBase + off) n)
def State.requestNat (s : State) (off n : Nat) : Nat := fromBytes (s.mem.bytes (requestBase + off) n)

/-- The bytes of a measurement register, and a register from bytes, lowest first. -/
def hashBytes (h : BitVec 384) : List Byte := toBytes 48 h.toNat

/-- The device identity: the hash of its public key (R370). -/
def identity : BitVec 384 := sha3 Config.publicKey

/-- A measurement register is extended (R365). -/
def Plewick.extend (p : Plewick) (k : Fin 4) (x : List Byte) : Plewick :=
  { p with m := p.m.set k.val (sha3 (hashBytes p.m[k.val] ++ x)) }

/-- The status word is written: the boot failure code in bits 7:0, an operation's result in bits 15:8. -/
def State.plewickStatus (s : State) (code result : Nat) : State :=
  let w := code + 256 * result
  State.hwWrite { s with plewick := { s.plewick with status := BitVec.ofNat 64 w } } (requestBase + 8) (toBytes 8 w)

/-! Supply loss (R324, R325). -/

/-- The marker; every local dirty line was written back. -/
def markerBytes (time : DWord) (written discarded : Nat) : List Byte :=
  toBytes 4 0x4D4B0001 ++ toBytes 4 0 ++ toBytes 8 time.toNat ++ toBytes 8 written ++ toBytes 8 (2 ^ 63 + discarded % 2 ^ 32)

/-- A byte under writes in flight: as the last of them leaves it, or as one of them found it (R324). -/
def State.tornByte (s : State) (n a : Nat) : Byte :=
  let olds := (s.inFlight.filter fun o => o.2.1 == a).map fun o => o.2.2
  (s.mem.read a :: olds).getD (Config.freeChoice (n + a) % (olds.length + 1)) 0

/-- The chunks of some jobs that are on their way, as far as each byte has arrived: all new, all old, or in part. -/
def State.landChunks (s : State) (n : Nat) : List CopyJob → State
  | [] => s
  | j :: js =>
    match j.chunk with
    | none => s.landChunks n js
    | some c =>
      let t := s.deliver { j with stamp := 0 } c c.bits 0
      let torn := (((s.mem ++ t.mem).filter fun w => s.mem.read w.1 != t.mem.read w.1).map fun w => w.1).eraseDups
      let mixed := torn.map fun a => (a, if Config.freeChoice (n + a) % 2 = 0 then s.mem.read a else t.mem.read a)
      State.landChunks { s with mem := s.mem.writeAll mixed } n js

/-- Memory after a supply loss: each byte of a write in flight is old or new, and a complete write stands. -/
def State.tornMemory (s : State) (n : Nat) : Mem :=
  let torn := ((s.inFlight.map fun o => o.2.1).eraseDups).map fun a => (a, s.tornByte n a)
  (State.landChunks { s with mem := s.mem.writeAll torn } n s.jobs).mem

/-- Event: the supply fails. Every core stops, what the cores held is lost, dirty lines of other devices are discarded and counted, and the
marker is sealed. -/
def execSupplyLossWarning (s : State) : Result :=
  let lines := (s.remote.map fun c => c.1 / 64 * 64).eraseDups.length
  let (n, s1) := s.draw 1
  .next { s1 with
    stopped := true, remote := [], clean := [], dirty := [], used := [], inFlight := [], mem := s.tornMemory n
    cur := { Flock.blank s.cur.id 0 s.cur.ctx s.cur.core 0 s.cur.pc with status := .ended }
    fold := Fold.absent, flocks := [], folds := [], departed := [], jobs := []
    plewick := { s.plewick with marker := some (markerBytes s.time s.dirty.length lines) } }

/-! Cold reset (R364, R365, R373). -/

/-- Fields of a boot image. -/
def imageNat (image : List Byte) (off n : Nat) : Nat := fromBytes ((image.drop off).take n)
def imageLength (image : List Byte) : Nat := imageNat image 4 4
def imageEntry (image : List Byte) : Nat := imageNat image 8 8
def imageBody (image : List Byte) : List Byte := (image.drop 64).take (imageLength image)

/-- The failure code of the first check that a boot image fails, in the order of R365; 0 when it passes. -/
def imageFailure (image : List Byte) : Nat :=
  let n := imageLength image
  if imageNat image 0 4 ≠ 0x4B420001 then 0x01
  else if n < 2 ^ 16 ∨ 2 ^ 26 < n ∨ n % 64 ≠ 0 then 0x02
  else if imageEntry image % 2 ≠ 0 ∨ n ≤ imageEntry image then 0x02
  else if imageNat image 0x10 4 < Config.minimumVersion then 0x03
  else if imageNat image 0x14 44 ≠ 0 then 0x02
  else if Config.signatureOk (image.take (64 + n)) ((image.drop (64 + n)).take 3309) then 0 else 0x04

/-- Whether a marker keeps the DRAM (R373). -/
def markerKeeps (m : Option (List Byte)) (refreshed : Bool) : Bool :=
  match m with
  | some bs => refreshed && fromBytes (bs.take 4) == 0x4D4B0001 && (fromBytes ((bs.drop 0x18).take 8)).testBit 63
  | none => false

/-- What a cold reset leaves of memory: the host's and other devices' memory, and with a valid marker this device's DRAM. -/
def State.keptMemory (s : State) (keep : Bool) : Mem :=
  s.mem.filter fun c => match regionOf c.1 with
    | .dram => keep
    | .tier => keep
    | .host => true
    | .aperture _ => true
    | _ => false

/-- The machine that a cold reset starts from: everything but what lies outside the device, the retained marker, the time base and the
model's own fields is as at reset. -/
def State.coldStart (s : State) (keep : Bool) : State :=
  { State.reset with
    mem := s.keptMemory keep
    broken := s.broken.filter fun p => match p with | .line a => (match regionOf a with | .host => true | .aperture _ => true | _ => keep) | _ => false
    peers := s.peers, combining := s.combining, time := s.time, agenda := s.agenda, free := s.free, nextId := s.nextId
    plewick := { marker := s.plewick.marker, m := Vector.replicate 4 0 } }

/-- A supervisor flock as the release of the cores starts it. -/
def supervisorAt (die entry : Nat) : Flock := Flock.supervisor die (BitVec.ofNat 72 entry)

/-- Event: a cold reset with the boot image of the flash. A failed check holds every core in reset and is reported. -/
def execColdReset (image : List (BitVec 8)) (refreshed : Bool) (s : State) : Result :=
  let s1 := s.coldStart (markerKeeps s.plewick.marker refreshed)
  let code := imageFailure image
  if code ≠ 0 then .next (State.plewickStatus { s1 with stopped := true } code 0)
  else
    let m1 := sha3 (image.take (64 + imageLength image))
    let e := imageEntry image
    .next { s1 with
      mem := s1.mem.writeAll (cellsAt 0 (imageBody image))
      plewick := { s1.plewick with m := ((Vector.replicate 4 0).set 0 Config.firmwareHash).set 1 m1 }
      cur := supervisorAt 0 e, flocks := [supervisorAt 1 e, supervisorAt 2 e, supervisorAt 3 e] }

/-! The seal (R366). -/

/-- Partition p of the configuration block. -/
def State.configPartition (s : State) (p : Nat) : Partition :=
  let o := 0x10 + 16 * p
  { clusters := BitVec.ofNat 32 (s.configNat o 4), slices := BitVec.ofNat 64 (s.configNat (o + 4) 8)
    tag := BitVec.ofNat 16 (s.configNat (o + 12) 2), secure := s.configNat (o + 15) 1 % 2 == 1
    channels := (List.range Config.channelCount).filter fun c => Config.channelOwner c == p
    lanes := (List.range Config.laneCount).filter fun c => Config.laneOwner c == p }

/-- Whether no cluster and no slice is named by two partitions. -/
def disjoint : List Partition → Bool
  | [] => true
  | p :: ps => (ps.all fun q => p.clusters &&& q.clusters == 0 && p.slices &&& q.slices == 0) && disjoint ps

/-- What the configuration block sets up. -/
def State.configured (s : State) : Setup :=
  { control := s.configNat 0 8, device := s.configNat 8 8, partitions := (List.range 8).map s.configPartition
    timeMap := s.mem.bytes (configBase + 0x90) 16, shepherdSecure := BitVec.ofNat 4 (s.configNat 0xA0 8)
    hostBase := s.configNat 0xA8 8, hostLength := s.configNat 0xB0 8 }

/-- The status word of a core at bring-up: its partition, and the reset values of the other bits (R323). -/
def State.resetStatus (s : State) (core : Nat) : Nat := s.ownerOf core

/-- Every core shows the word of bring-up. -/
def State.showReset (s : State) : State :=
  (List.range 260).foldl (fun t k => t.setCore k { t.core k with shown := some (s.resetStatus k), due := [] }) s

/-- The control area as it is created: counters of the device and the partitions, status words and the time-division map (R305). -/
def State.createControl (s0 : State) : State :=
  let s := s0.showReset
  let c := s.setup.control
  let words := fun (first n : Nat) => (List.range n).flatMap fun k => toBytes 8 (s.resetStatus (first + k))
  let s1 := (s.hwWrite (c + 0x100) (toBytes 8 s.overhead.toNat)).hwWrite (c + 0x180) (words 256 4)
  let s2 := (s1.hwWrite (c + 0x200) s.setup.timeMap).hwWrite (c + 0x800) (words 0 256)
  (List.range 8).foldl (fun t p => t.hwWrite (c + 0x1000 + 0x4000 * p) (toBytes 8 0)) s2

/-- Shepherds act in the worlds that the block gives their dies. -/
def Flock.inWorld (f : Flock) (worlds : BitVec 4) : Flock := if f.supervises then { f with secure := worlds.getLsbD f.die } else f

/-- Event: the seal word was written. -/
def execSeal (s : State) : Result :=
  if !s.plewick.sealing || s.plewick.sealed then .next s else
  let block := s.mem.bytes configBase 256
  let s1 : State := { s with plewick := { s.plewick with sealing := false } }
  let c := s.configured
  if !disjoint c.partitions then .next (s1.plewickStatus 0x10 0)
  else
    let p := { s1.plewick.extend 2 block with sealed := true, sealedBlock := block }
    let s2 : State := { s1 with plewick := p, setup := c }
    .next (s2.mapFlocks fun f => f.inWorld c.shepherdSecure).createControl

/-! Requests (R371, R372). -/

/-- Whether an argument range lies in this device's memory. -/
def argumentOk (a n : Nat) : Bool :=
  (regionOf a == .dram && decide (a + n ≤ Config.dramBytes)) || (regionOf a == .tier && decide (a + n ≤ Config.tierBase + Config.tierBytes))

/-- A request ends: its result is written last. -/
def State.endRequest (s : State) (result : Nat) : State :=
  State.plewickStatus { s with plewick := { s.plewick with request := none } } (s.plewick.status.toNat % 256) result

/-- An operation that was asked for: a secure requester's acts, with a result; a non-secure one's has result 2. -/
def State.request (s : State) (mine : Nat → Bool) (act : State → State × Nat) : Result :=
  match s.plewick.request with
  | none => .next s
  | some (op, secure) =>
    if !mine op then .next s
    else if !secure then .next (s.endRequest 2)
    else let r := act s; .next (r.1.endRequest r.2)

/-- Event: operation 1. An operation that does not exist is answered as a wrong argument. -/
def execExtendM3 (s : State) : Result :=
  s.request (fun op => op != 2 && op != 3) fun t =>
    let a := t.requestNat 0x10 9
    let n := t.requestNat 0x20 8
    if t.requestNat 0 8 = 1 ∧ 1 ≤ n ∧ n ≤ 4096 ∧ argumentOk a n then ({ t with plewick := t.plewick.extend 3 (t.bytes a n) }, 0) else (t, 1)

/-- The descriptors of every admitted context, in context order. That a context counts as admitted in the states 1 to 3, resident and pre-empted ones among
them, and a killed one (state 4) does not, is the model's reading (log entry 136). -/
def State.admittedDescriptors (s : State) : List Byte :=
  (List.range 512).flatMap fun n =>
    if 1 ≤ s.stateOf n ∧ s.stateOf n ≤ 3 then s.bytes (s.descriptor n) 128 else []

/-- The bytes of a report that its signature covers, by the nonce. Before the seal no block is sealed, and the hash of it is taken over no bytes: the model's
choice (log entry 136). -/
def State.reportBody (s : State) (nonce : List Byte) : List Byte :=
  toBytes 4 0x4B520001 ++ toBytes 4 1 ++ nonce ++ hashBytes identity ++ (s.plewick.m.toList.flatMap hashBytes) ++
  hashBytes (sha3 s.plewick.sealedBlock) ++ hashBytes (sha3 s.admittedDescriptors) ++
  toBytes 8 s.setup.device ++ toBytes 8 s.time.toNat

/-- A report. -/
def State.reportBytes (s : State) (nonce : List Byte) : List Byte :=
  s.reportBody nonce ++ (List.range 3309).map fun k => (Config.signature (s.reportBody nonce)).getD k 0

/-- Event: operation 2. -/
def execReport (s : State) : Result :=
  s.request (fun op => op == 2) fun t =>
    let a := t.requestNat 0x10 9
    if argumentOk a 3701 then (t.write (cellsAt a (t.reportBytes (t.bytes a 32))) 0 0 true, 0) else (t, 1)

/-- Event: operation 3. A store without a marker copies as zeros. -/
def execCheckpointMarkerCopy (s : State) : Result :=
  s.request (fun op => op == 3) fun t =>
    let a := t.requestNat 0x10 9
    if argumentOk a 32 then
      (State.write { t with plewick := { t.plewick with marker := none } } (cellsAt a (t.plewick.marker.getD (List.replicate 32 0))) 0 0 true, 0)
    else (t, 1)

/-! Registers without behaviour (R305). -/

/-- Whether a byte can be written: memory of this device or the host, or a register of the Plewick window. -/
def writable (a : Nat) : Bool :=
  match regionOf a with
  | .hole => false
  | .registers => decide (a < Config.plewickBase + Config.plewickBytes) && plewickOffset (a - Config.plewickBase)
  | .aperture _ => false
  | _ => true

/-- Event: a register or a control word is written, as software writes it: a word of the device alone becomes unknown. -/
def execRegisterWrite (address : Nat) (value : List (BitVec 8)) (s : State) : Result :=
  if (List.range value.length).all fun k => writable (address + k) then .next (s.write (cellsAt address value) 0 0 true) else .next s

end Sys2Proof.Machine
end

