-- ==== Sys2Proof/Machine/Fabric.lean ====
section
/-!
DEFINITION. What reaches the device from outside and what stays with its memory: host accesses (R339, R368), requests of other devices and
refusals of the device's own (R330), the snapshot's own steps (R342 to R346), write-backs (R257) and soft errors (R302).
-/
namespace Sys2Proof.Machine

/-! Requests from outside. -/

/-- Whether a byte lies in this device's memory. -/
def ownMemory (a : Nat) : Bool := regionOf a == .dram || regionOf a == .tier

/-- Whether the host may reach a byte: it lies in the range granted to it, and in no secure page (R339, R368). -/
def State.hostMay (s : State) (a : Nat) : Bool :=
  ownMemory a && decide (s.setup.hostBase ≤ a ∧ a < s.setup.hostBase + s.setup.hostLength) && !s.secureSpan a 1

/-- Event: a host access. A write is serialised at its home (R340); anything else changes nothing. -/
def execHostAccess (write : Bool) (address : Nat) (value : List (BitVec 8)) (s : State) : Result :=
  if write && (List.range value.length).all fun k => s.hostMay (address + k) then
    .next (s.write (cellsAt address value) 0 0 false)
  else .next s

/-- Whether the home agents answer a remote request: its offset lies in bonded DRAM and its tag is the partition's (R330). -/
def State.answers (s : State) (tag : BitVec 16) (a : Nat) : Bool :=
  decide (a < Config.dramBytes) && (List.range 8).any fun p => s.ownsLine p (a / 64 * 64) && (s.setup.partitions.getD p {}).tag == tag

/-- Event: a request of another device arrives. A refused one changes no byte. -/
def execRemoteRequest (write : Bool) (tag : BitVec 16) (offset : Nat) (value : List (BitVec 8)) (s : State) : Result :=
  if write && (List.range value.length).all fun k => s.answers tag (offset + k) then
    .next (s.write (cellsAt offset value) 0 0 true)
  else .next s

/-! Refusals of the device's own requests (R330). -/

/-- The current flock's access has no answer: an error record, which bears stamp status 7 and no stamp address (log entry 121), and a precise machine
check. -/
def State.refuse (s : State) (why : NoAnswer) (va : Addr) (hop : BitVec 8) : State :=
  match s.cur.status with
  | .remote t since =>
    if t.addr = va && s.unanswered why since (s.asker s.cur t) [va] then
      let s1 := s.setStatus .running
      (s1.errorRecord s1.cur.ctx 0 hop.toNat 1 7 0).trapHere t
    else s
  | _ => s

/-- A flock's access, or the chunk that a job has out or asks its source for, has no answer. A copy or collective step takes status 7. -/
def remoteRefusal (why : NoAnswer) (flock job : Nat) (va : BitVec 72) (hop : BitVec 8) (s : State) : Result :=
  match s.job? job with
  | some j =>
    match j.chunk with
    | some c =>
      if (c.since.any fun since => s.unanswered why since j.agent (j.reaches j.dst)) && s.asksFar j.agent (j.reaches j.dst) then
        .next (s.failAll j c hop.toNat 7)
      else .next s
    | none =>
      match j.asked with
      | some since => if s.unanswered why since j.agent (s.sourceReaches j) then .next (s.failChunk j hop.toNat 7) else .next s
      | none => .next s
  | none => .next (s.onFlock flock fun t => t.refuse why va hop)

/-- Event: the target refuses. -/
def execRemoteAccessRefusal (flock : Nat) (job : Nat) (va : BitVec 72) (hop : BitVec 8) (s : State) : Result :=
  remoteRefusal .refused flock job va hop s

/-- Event: no response within 4 µs; the hop is the last that answered. -/
def execRemoteAccessTimeout (flock : Nat) (job : Nat) (va : BitVec 72) (hop : BitVec 8) (s : State) : Result :=
  remoteRefusal .silent flock job va hop s

/-! Chunks of other devices (R333 to R336). -/

/-- The bit writes of a chunk's elements at their places. -/
def Inbound.writes (w : Inbound) (c : Chunk) (xs : List Nat) : List BitWrite :=
  (w.places.zip xs).flatMap fun p => match p.1 with
    | some bit =>
      let bs := (List.range 6).map fun k => (byteOf (bit / 8 * 8) + BitVec.ofNat 72 k, bit / 8 + k)
      bitWrites bs bit c.width p.2
    | none => []

/-- The elements that stand at the places of a chunk. -/
def State.standing (s : State) (w : Inbound) (c : Chunk) : List Nat :=
  w.places.map fun p => match p with | some bit => field (s.readNat (bit / 8) 6) (bit % 8) c.width | none => 0

/-- Bytes of this device that a chunk's places touch. -/
def Inbound.bytes (w : Inbound) (c : Chunk) : List Nat :=
  (w.places.flatMap fun p => match p with
    | some bit => (List.range ((bit % 8 + c.width + 7) / 8)).map fun k => bit / 8 + k
    | none => []).eraseDups

/-- A chunk that another device sent reaches its destination here (R333): one whose counter passes 15, with a wrong W1, or for bytes that do not
answer its tag is not written, and its source hears of it. A failed reduction leaves its destination as it was, and another failed chunk
leaves it unknown (R336). -/
def State.inbound (s : State) (w : Inbound) (c : Chunk) (flip : Nat) : State :=
  let size := c.width * c.count
  let bits := c.bits ^^^ flip % 2 ^ size
  let bytes := w.bytes c
  let write := fun (t : State) (xs : List Nat) => t.engineStore w.tensor 0 true (w.writes c xs)
  if 15 < c.hop + 1 ∨ weltSum bits size ≠ c.w1 ∨ !bytes.all (s.answers w.tag) then s
  else if w.reduce then
    let r := c.reduceWith w.sat bits (s.standing w c)
    if r.2 && !bytes.any (fun a => s.broken.contains (.line (a / 64 * 64))) then write s r.1 else s
  else if c.withSums && !sumAgrees c.w2 (weltSums (c.values w.sat bits)).1 (weltSums (c.values w.sat bits)).2 c.count then
    let (n, s1) := s.draw c.count
    write s1 ((List.range c.count).map fun k => (Config.freeDWord (n + k)).toNat)
  else write s (c.elements bits)

/-! Snapshots (R342 to R346). -/

/-- Event: the instant of a snapshot is reached and the homes arm. A write that comes first is held to it as well (`State.begun`). -/
def execSnapshotArm (s : State) : Result :=
  .next { s with snapshots := s.snapshots.map fun sn => if sn.at_ ≤ s.time then { sn with armed := true } else sn }

/-- Event: the background stream copies a line. -/
def execSnapshotLineCopy (line : Nat) (s : State) : Result := .next (s.keepOld [line])

/-- The stamp of a snapshot: the next copy sequence number of its context, and its status. -/
def Snapshot.status (sn : Snapshot) : Nat := if sn.damaged = [] then 0 else 6

/-- A snapshot with every line copied is stamped: error records first, then the stamp as a release at system scope, written in the partition's
world (R367). R346 gives the record of a damaged line its kind: that it bears identity 0, hop index 0, stamp status 6 and the snapshot's stamp address is
the model's choice (log entry 135). -/
def State.stampSnapshot (s : State) (sn : Snapshot) : State :=
  let seq := (s.ctx sn.ctx).copySeq
  let s1 := sn.damaged.foldl (fun t _ => t.errorRecord sn.ctx 0 0 4 6 (BitVec.ofNat 72 sn.stamp)) s
  let s2 := s1.setCtx sn.ctx { s1.ctx sn.ctx with copySeq := nextSequence seq }
  let word := (cellsAt sn.stamp (toBytes 8 (sn.status * 2 ^ 48 + seq))).filter fun w => s.takesWrite sn.ctx w.1
  (s2.flushRemote.write word 0 sn.ctx (s2.partitionOf sn.ctx).secure).flushRemote

/-- Event: the homes write the stamps of the snapshots that are complete. -/
def execSnapshotStamp (s : State) : Result :=
  let complete := s.snapshots.filter fun sn => sn.armed && sn.pending.isEmpty
  .next (complete.foldl State.stampSnapshot { s with snapshots := s.snapshots.filter fun sn => !(sn.armed && sn.pending.isEmpty) })

/-! Lines. -/

/-- Event: a dirty line of another device's memory is written back. -/
def execRemoteLineWriteBack (line : Nat) (s : State) : Result := .next (s.writeBack [line / 64 * 64])

/-- Where an error of a fold's scratch lies: one in a mapped bank is the bank's, and goes where it goes. -/
def State.errorPlace (s : State) (place : SoftErrorPlace) : SoftErrorPlace :=
  match place with
  | .scratch fold a =>
    (match (s.fold? fold).map fun f => f.place a with
      | some (Place.bank b o) => .bank b o
      | _ => place)
  | _ => place

/-- Event: an uncorrectable soft error arises; nothing is raised until the data is consumed. -/
def execUncorrectableSoftError (place : SoftErrorPlace) (s : State) : Result :=
  let p := s.errorPlace place
  .next (if s.broken.contains p then s else { s with broken := s.broken ++ [p] })

end Sys2Proof.Machine
end

