-- ==== Sys2Proof/Machine/Scalar.lean ====
section
/-!
DEFINITION. Scalar arithmetic, majors 0x08 to 0x0A (R127, R128), and address arithmetic, major 0x0B (R129).
-/
namespace Sys2Proof.Machine

/-- sd gets f of sa and sb. -/
def scalarOp (f : DWord → DWord → DWord) (d a b : BitVec 5) (s : State) : Result :=
  done (s.putS d (f (s.cur.getS a) (s.cur.getS b)))

/-- Bits 127:64 of the signed product. -/
def dMulhS (x y : DWord) : DWord := BitVec.ofInt 64 (x.toInt * y.toInt / 2 ^ 64)
/-- The signed quotient towards zero; all ones by 0 (R127). -/
def dDivS (x y : DWord) : DWord := if y = 0 then 0xFFFFFFFFFFFFFFFF else BitVec.ofInt 64 (x.toInt.tdiv y.toInt)
def dDivZ (x y : DWord) : DWord := if y = 0 then 0xFFFFFFFFFFFFFFFF else BitVec.ofNat 64 (x.toNat / y.toNat)
def dShl (x y : DWord) : DWord := if 64 ≤ y.toNat then 0 else x <<< y.toNat
def dShrZ (x y : DWord) : DWord := if 64 ≤ y.toNat then 0 else x >>> y.toNat
def dShrS (x y : DWord) : DWord := x.sshiftRight (if 64 ≤ y.toNat then 63 else y.toNat)
def dMinS (x y : DWord) : DWord := if x.toInt ≤ y.toInt then x else y
def dMaxS (x y : DWord) : DWord := if x.toInt ≤ y.toInt then y else x
/-- 1 or 0. -/
def truth (b : Bool) : DWord := if b then 1 else 0

def execSadd (d a b : BitVec 5) (s : State) : Result := scalarOp (fun x y => x + y) d a b s
def execSsub (d a b : BitVec 5) (s : State) : Result := scalarOp (fun x y => x - y) d a b s
def execSmul (d a b : BitVec 5) (s : State) : Result := scalarOp (fun x y => x * y) d a b s
def execSmulhS (d a b : BitVec 5) (s : State) : Result := scalarOp dMulhS d a b s
def execSdivS (d a b : BitVec 5) (s : State) : Result := scalarOp dDivS d a b s
def execSdivZ (d a b : BitVec 5) (s : State) : Result := scalarOp dDivZ d a b s
def execSand (d a b : BitVec 5) (s : State) : Result := scalarOp (fun x y => x &&& y) d a b s
def execSor (d a b : BitVec 5) (s : State) : Result := scalarOp (fun x y => x ||| y) d a b s
def execSxor (d a b : BitVec 5) (s : State) : Result := scalarOp (fun x y => x ^^^ y) d a b s
def execSshl (d a b : BitVec 5) (s : State) : Result := scalarOp dShl d a b s
def execSshrZ (d a b : BitVec 5) (s : State) : Result := scalarOp dShrZ d a b s
def execSshrS (d a b : BitVec 5) (s : State) : Result := scalarOp dShrS d a b s
def execSminS (d a b : BitVec 5) (s : State) : Result := scalarOp dMinS d a b s
def execSmaxS (d a b : BitVec 5) (s : State) : Result := scalarOp dMaxS d a b s
def execSeq (d a b : BitVec 5) (s : State) : Result := scalarOp (fun x y => truth (x == y)) d a b s
def execSltS (d a b : BitVec 5) (s : State) : Result := scalarOp (fun x y => truth (x.slt y)) d a b s
def execSltZ (d a b : BitVec 5) (s : State) : Result := scalarOp (fun x y => truth (x.ult y)) d a b s

/-- The immediate is sign-extended (R128). -/
def execSaddi (d a : BitVec 5) (i : BitVec 15) (s : State) : Result := done (s.putS d (s.cur.getS a + i.signExtend 64))
/-- sd gets sa shifted left by 15 with the immediate below (R128). -/
def execSins (d a : BitVec 5) (i : BitVec 15) (s : State) : Result :=
  done (s.putS d ((s.cur.getS a <<< 15) ||| i.setWidth 64))

/-! Address arithmetic (R129). -/

def execAadd (d a : BitVec 4) (b : BitVec 5) (s : State) : Result := done (s.putA d (s.cur.getA a + sextAddr (s.cur.getS b)))
def execAsub (d a : BitVec 4) (b : BitVec 5) (s : State) : Result := done (s.putA d (s.cur.getA a - sextAddr (s.cur.getS b)))
def execAmov (d a : BitVec 4) (s : State) : Result := done (s.putA d (s.cur.getA a))
/-- Zero-extended (R94). -/
def execAset (d : BitVec 4) (a : BitVec 5) (s : State) : Result := done (s.putA d ((s.cur.getS a).setWidth 72))
def execAget (d : BitVec 5) (a : BitVec 4) (n : BitVec 5) (s : State) : Result :=
  done (s.putS d (if n = 0 then (s.cur.getA a).setWidth 64 else ((s.cur.getA a).extractLsb' 64 8).setWidth 64))
def execAhi (d a : BitVec 4) (b : BitVec 5) (s : State) : Result :=
  done (s.putA d ((s.cur.getS b).extractLsb' 0 8 ++ (s.cur.getA a).extractLsb' 0 64))
def execAcmp (d : BitVec 5) (a b : BitVec 4) (s : State) : Result :=
  let x := s.cur.getA a
  let y := s.cur.getA b
  done (s.putS d (truth (x == y) + (if x.ult y then 2 else 0)))

end Sys2Proof.Machine
end

