-- ==== Sys2Proof/Machine/Dispatch.lean ====
section
/-!
DEFINITION. What each instruction and each event of the opcode table does: one call of its meaning.
-/
namespace Sys2Proof.Machine

/-- The meaning of an instruction or event in a state. -/
def exec (i : Instr) (s : State) : Host.Outcome State Fault Refusal :=
  match i with
  | .vadd d a b g => Sys2Proof.Machine.execVadd d a b g s
  | .vsub d a b g => Sys2Proof.Machine.execVsub d a b g s
  | .vmul d a b g => Sys2Proof.Machine.execVmul d a b g s
  | .vmulhS d a b g => Sys2Proof.Machine.execVmulhS d a b g s
  | .vmulhZ d a b g => Sys2Proof.Machine.execVmulhZ d a b g s
  | .vminS d a b g => Sys2Proof.Machine.execVminS d a b g s
  | .vmaxS d a b g => Sys2Proof.Machine.execVmaxS d a b g s
  | .vminZ d a b g => Sys2Proof.Machine.execVminZ d a b g s
  | .vmaxZ d a b g => Sys2Proof.Machine.execVmaxZ d a b g s
  | .vand d a b g => Sys2Proof.Machine.execVand d a b g s
  | .vor d a b g => Sys2Proof.Machine.execVor d a b g s
  | .vxor d a b g => Sys2Proof.Machine.execVxor d a b g s
  | .vshl d a b g => Sys2Proof.Machine.execVshl d a b g s
  | .vshrZ d a b g => Sys2Proof.Machine.execVshrZ d a b g s
  | .vshrS d a b g => Sys2Proof.Machine.execVshrS d a b g s
  | .vandn d a b g => Sys2Proof.Machine.execVandn d a b g s
  | .vaddi d a im => Sys2Proof.Machine.execVaddi d a im s
  | .vsubi d a im => Sys2Proof.Machine.execVsubi d a im s
  | .vmuli d a im => Sys2Proof.Machine.execVmuli d a im s
  | .vmulhSi d a im => Sys2Proof.Machine.execVmulhSi d a im s
  | .vmulhZi d a im => Sys2Proof.Machine.execVmulhZi d a im s
  | .vminSi d a im => Sys2Proof.Machine.execVminSi d a im s
  | .vmaxSi d a im => Sys2Proof.Machine.execVmaxSi d a im s
  | .vminZi d a im => Sys2Proof.Machine.execVminZi d a im s
  | .vmaxZi d a im => Sys2Proof.Machine.execVmaxZi d a im s
  | .vandi d a im => Sys2Proof.Machine.execVandi d a im s
  | .vori d a im => Sys2Proof.Machine.execVori d a im s
  | .vxori d a im => Sys2Proof.Machine.execVxori d a im s
  | .vshli d a im => Sys2Proof.Machine.execVshli d a im s
  | .vshrZi d a im => Sys2Proof.Machine.execVshrZi d a im s
  | .vshrSi d a im => Sys2Proof.Machine.execVshrSi d a im s
  | .vandni d a im => Sys2Proof.Machine.execVandni d a im s
  | .vfadd d a b g => Sys2Proof.Machine.execVfadd d a b g s
  | .vfsub d a b g => Sys2Proof.Machine.execVfsub d a b g s
  | .vfmul d a b g => Sys2Proof.Machine.execVfmul d a b g s
  | .vfmac d a b g => Sys2Proof.Machine.execVfmac d a b g s
  | .vfnmac d a b g => Sys2Proof.Machine.execVfnmac d a b g s
  | .vfmin d a b g => Sys2Proof.Machine.execVfmin d a b g s
  | .vfmax d a b g => Sys2Proof.Machine.execVfmax d a b g s
  | .vfabs d a g => Sys2Proof.Machine.execVfabs d a g s
  | .vfneg d a g => Sys2Proof.Machine.execVfneg d a g s
  | .vfcopys d a b g => Sys2Proof.Machine.execVfcopys d a b g s
  | .vfrcp d a g => Sys2Proof.Machine.execVfrcp d a g s
  | .vfrsq d a g => Sys2Proof.Machine.execVfrsq d a g s
  | .vfsqrt d a g => Sys2Proof.Machine.execVfsqrt d a g s
  | .vfexp2 d a g => Sys2Proof.Machine.execVfexp2 d a g s
  | .vflog2 d a g => Sys2Proof.Machine.execVflog2 d a g s
  | .vfround d a b g => Sys2Proof.Machine.execVfround d a b g s
  | .vcmpEq p a b g => Sys2Proof.Machine.execVcmpEq p a b g s
  | .vcmpNe p a b g => Sys2Proof.Machine.execVcmpNe p a b g s
  | .vcmpLtS p a b g => Sys2Proof.Machine.execVcmpLtS p a b g s
  | .vcmpLeS p a b g => Sys2Proof.Machine.execVcmpLeS p a b g s
  | .vcmpGtS p a b g => Sys2Proof.Machine.execVcmpGtS p a b g s
  | .vcmpGeS p a b g => Sys2Proof.Machine.execVcmpGeS p a b g s
  | .vcmpLtZ p a b g => Sys2Proof.Machine.execVcmpLtZ p a b g s
  | .vcmpLeZ p a b g => Sys2Proof.Machine.execVcmpLeZ p a b g s
  | .vcmpFeq p a b g => Sys2Proof.Machine.execVcmpFeq p a b g s
  | .vcmpFne p a b g => Sys2Proof.Machine.execVcmpFne p a b g s
  | .vcmpFlt p a b g => Sys2Proof.Machine.execVcmpFlt p a b g s
  | .vcmpFle p a b g => Sys2Proof.Machine.execVcmpFle p a b g s
  | .vcmpFgt p a b g => Sys2Proof.Machine.execVcmpFgt p a b g s
  | .vcmpFge p a b g => Sys2Proof.Machine.execVcmpFge p a b g s
  | .vcmpFuno p a b g => Sys2Proof.Machine.execVcmpFuno p a b g s
  | .vcmpFord p a b g => Sys2Proof.Machine.execVcmpFord p a b g s
  | .cvtF32S32 d a g => Sys2Proof.Machine.execCvtF32S32 d a g s
  | .cvtF32Z32 d a g => Sys2Proof.Machine.execCvtF32Z32 d a g s
  | .cvtS32F32 d a g => Sys2Proof.Machine.execCvtS32F32 d a g s
  | .cvtZ32F32 d a g => Sys2Proof.Machine.execCvtZ32F32 d a g s
  | .cvtF16x2F32 d a b g => Sys2Proof.Machine.execCvtF16x2F32 d a b g s
  | .cvtF32F16lo d a g => Sys2Proof.Machine.execCvtF32F16lo d a g s
  | .cvtF32F16hi d a g => Sys2Proof.Machine.execCvtF32F16hi d a g s
  | .cvtBf16x2F32 d a b g => Sys2Proof.Machine.execCvtBf16x2F32 d a b g s
  | .cvtF32Bf16lo d a g => Sys2Proof.Machine.execCvtF32Bf16lo d a g s
  | .cvtF32Bf16hi d a g => Sys2Proof.Machine.execCvtF32Bf16hi d a g s
  | .cvtE4m3F32 d a n g => Sys2Proof.Machine.execCvtE4m3F32 d a n g s
  | .cvtE5m2F32 d a n g => Sys2Proof.Machine.execCvtE5m2F32 d a n g s
  | .cvtLns6F32 d a n g => Sys2Proof.Machine.execCvtLns6F32 d a n g s
  | .cvtF32E4m3 d a n g => Sys2Proof.Machine.execCvtF32E4m3 d a n g s
  | .cvtF32E5m2 d a n g => Sys2Proof.Machine.execCvtF32E5m2 d a n g s
  | .cvtF32Lns6 d a n g => Sys2Proof.Machine.execCvtF32Lns6 d a n g s
  | .vsel d a b k => Sys2Proof.Machine.execVsel d a b k s
  | .vperm d a b g => Sys2Proof.Machine.execVperm d a b g s
  | .vshflUp d a n g => Sys2Proof.Machine.execVshflUp d a n g s
  | .vshflDn d a n g => Sys2Proof.Machine.execVshflDn d a n g s
  | .vshflX d a n g => Sys2Proof.Machine.execVshflX d a n g s
  | .vpopc d a g => Sys2Proof.Machine.execVpopc d a g s
  | .vclz d a g => Sys2Proof.Machine.execVclz d a g s
  | .vbrev d a g => Sys2Proof.Machine.execVbrev d a g s
  | .vlaneid d g => Sys2Proof.Machine.execVlaneid d g s
  | .vbcast d a n g => Sys2Proof.Machine.execVbcast d a n g s
  | .vmovs d a g => Sys2Proof.Machine.execVmovs d a g s
  | .ballot p a g => Sys2Proof.Machine.execBallot p a g s
  | .pmovFromScalar d a => Sys2Proof.Machine.execPmovFromScalar d a s
  | .pmovToScalar d a => Sys2Proof.Machine.execPmovToScalar d a s
  | .pand d a b => Sys2Proof.Machine.execPand d a b s
  | .por d a b => Sys2Proof.Machine.execPor d a b s
  | .pnot d a => Sys2Proof.Machine.execPnot d a s
  | .redAdd d a g => Sys2Proof.Machine.execRedAdd d a g s
  | .redFadd d a g => Sys2Proof.Machine.execRedFadd d a g s
  | .redMinS d a g => Sys2Proof.Machine.execRedMinS d a g s
  | .redMaxS d a g => Sys2Proof.Machine.execRedMaxS d a g s
  | .redFmin d a g => Sys2Proof.Machine.execRedFmin d a g s
  | .redFmax d a g => Sys2Proof.Machine.execRedFmax d a g s
  | .redAnd d a g => Sys2Proof.Machine.execRedAnd d a g s
  | .redOr d a g => Sys2Proof.Machine.execRedOr d a g s
  | .scanAdd d a g => Sys2Proof.Machine.execScanAdd d a g s
  | .scanFadd d a g => Sys2Proof.Machine.execScanFadd d a g s
  | .redFadd2 d a g => Sys2Proof.Machine.execRedFadd2 d a g s
  | .sadd d a b => Sys2Proof.Machine.execSadd d a b s
  | .ssub d a b => Sys2Proof.Machine.execSsub d a b s
  | .smul d a b => Sys2Proof.Machine.execSmul d a b s
  | .smulhS d a b => Sys2Proof.Machine.execSmulhS d a b s
  | .sdivS d a b => Sys2Proof.Machine.execSdivS d a b s
  | .sdivZ d a b => Sys2Proof.Machine.execSdivZ d a b s
  | .sand d a b => Sys2Proof.Machine.execSand d a b s
  | .sor d a b => Sys2Proof.Machine.execSor d a b s
  | .sxor d a b => Sys2Proof.Machine.execSxor d a b s
  | .sshl d a b => Sys2Proof.Machine.execSshl d a b s
  | .sshrZ d a b => Sys2Proof.Machine.execSshrZ d a b s
  | .sshrS d a b => Sys2Proof.Machine.execSshrS d a b s
  | .sminS d a b => Sys2Proof.Machine.execSminS d a b s
  | .smaxS d a b => Sys2Proof.Machine.execSmaxS d a b s
  | .seq d a b => Sys2Proof.Machine.execSeq d a b s
  | .sltS d a b => Sys2Proof.Machine.execSltS d a b s
  | .sltZ d a b => Sys2Proof.Machine.execSltZ d a b s
  | .saddi d a im => Sys2Proof.Machine.execSaddi d a im s
  | .sins d a im => Sys2Proof.Machine.execSins d a im s
  | .aadd d a b => Sys2Proof.Machine.execAadd d a b s
  | .asub d a b => Sys2Proof.Machine.execAsub d a b s
  | .amov d a => Sys2Proof.Machine.execAmov d a s
  | .aset d a => Sys2Proof.Machine.execAset d a s
  | .aget d a n => Sys2Proof.Machine.execAget d a n s
  | .ahi d a b => Sys2Proof.Machine.execAhi d a b s
  | .acmp d a b => Sys2Proof.Machine.execAcmp d a b s
  | .vmovsLo d a n g => Sys2Proof.Machine.execVmovsLo d a n g s
  | .vmovsHi d a n g => Sys2Proof.Machine.execVmovsHi d a n g s
  | .smovv d a n => Sys2Proof.Machine.execSmovv d a n s
  | .vadds d a b g => Sys2Proof.Machine.execVadds d a b g s
  | .vmuls d a b g => Sys2Proof.Machine.execVmuls d a b g s
  | .vfadds d a b g => Sys2Proof.Machine.execVfadds d a b g s
  | .vfmuls d a b g => Sys2Proof.Machine.execVfmuls d a b g s
  | .wfld d f => Sys2Proof.Machine.execWfld d f s
  | .wfs d => Sys2Proof.Machine.execWfs d s
  | .visit d => Sys2Proof.Machine.execVisit d s
  | .emget d => Sys2Proof.Machine.execEmget d s
  | .emput a => Sys2Proof.Machine.execEmput a s
  | .emand d a => Sys2Proof.Machine.execEmand d a s
  | .emor d a => Sys2Proof.Machine.execEmor d a s
  | .rdtime d => Sys2Proof.Machine.execRdtime d s
  | .rdcnt d => Sys2Proof.Machine.execRdcnt d s
  | .pcount d => Sys2Proof.Machine.execPcount d s
  | .fcrget d => Sys2Proof.Machine.execFcrget d s
  | .fcrput a => Sys2Proof.Machine.execFcrput a s
  | .lpget d k => Sys2Proof.Machine.execLpget d k s
  | .rdenergy d => Sys2Proof.Machine.execRdenergy d s
  | .rdgang d => Sys2Proof.Machine.execRdgang d s
  | .rdcore d => Sys2Proof.Machine.execRdcore d s
  | .br o => Sys2Proof.Machine.execBr o s
  | .brAny p o => Sys2Proof.Machine.execBrAny p o s
  | .brAll p o => Sys2Proof.Machine.execBrAll p o s
  | .brNone p o => Sys2Proof.Machine.execBrNone p o s
  | .jal d o => Sys2Proof.Machine.execJal d o s
  | .jr a => Sys2Proof.Machine.execJr a s
  | .jalr d a => Sys2Proof.Machine.execJalr d a s
  | .loop l c im e => Sys2Proof.Machine.execLoop l c im e s
  | .lbrk l => Sys2Proof.Machine.execLbrk l s
  | .wait l sc c t => Sys2Proof.Machine.execWait l sc c t s
  | .bar => Sys2Proof.Machine.execBar s
  | .barCl => Sys2Proof.Machine.execBarCl s
  | .barrierRelease fold cluster => Sys2Proof.Machine.execBarrierRelease fold cluster s
  | .commit => Sys2Proof.Machine.execCommit s
  | .commitWriteOut fold => Sys2Proof.Machine.execCommitWriteOut fold s
  | .halt => Sys2Proof.Machine.execHalt s
  | .flockEnd flock => Sys2Proof.Machine.execFlockEnd flock s
  | .yield => Sys2Proof.Machine.execYield s
  | .nop => Sys2Proof.Machine.execNop s
  | .sleep sc => Sys2Proof.Machine.execSleep sc s
  | .sleepTimerExpiry flock => Sys2Proof.Machine.execSleepTimerExpiry flock s
  | .trap n => Sys2Proof.Machine.execTrap n s
  | .sys n => Sys2Proof.Machine.execSys n s
  | .eret => Sys2Proof.Machine.execEret s
  | .brk n => Sys2Proof.Machine.execBrk n s
  | .ldB8Z d a v im => Sys2Proof.Machine.execLdB8Z d a v im s
  | .ldB8S d a v im => Sys2Proof.Machine.execLdB8S d a v im s
  | .ldB16Z d a v im => Sys2Proof.Machine.execLdB16Z d a v im s
  | .ldB16S d a v im => Sys2Proof.Machine.execLdB16S d a v im s
  | .ldB32 d a v im => Sys2Proof.Machine.execLdB32 d a v im s
  | .ldB64 d a v im => Sys2Proof.Machine.execLdB64 d a v im s
  | .ldB128 d a v im => Sys2Proof.Machine.execLdB128 d a v im s
  | .ldE d a v im => Sys2Proof.Machine.execLdE d a v im s
  | .ldEI d a v im => Sys2Proof.Machine.execLdEI d a v im s
  | .ldUn d a im => Sys2Proof.Machine.execLdUn d a im s
  | .ldNc d a v im => Sys2Proof.Machine.execLdNc d a v im s
  | .ldAcq d a v sc => Sys2Proof.Machine.execLdAcq d a v sc s
  | .stB8 d a v im => Sys2Proof.Machine.execStB8 d a v im s
  | .stB16 d a v im => Sys2Proof.Machine.execStB16 d a v im s
  | .stB32 d a v im => Sys2Proof.Machine.execStB32 d a v im s
  | .stB64 d a v im => Sys2Proof.Machine.execStB64 d a v im s
  | .stB128 d a v im => Sys2Proof.Machine.execStB128 d a v im s
  | .stE d a v im => Sys2Proof.Machine.execStE d a v im s
  | .stEI d a v im => Sys2Proof.Machine.execStEI d a v im s
  | .stRel d a v sc => Sys2Proof.Machine.execStRel d a v sc s
  | .stB4 d a v im => Sys2Proof.Machine.execStB4 d a v im s
  | .stB1 d a v im => Sys2Proof.Machine.execStB1 d a v im s
  | .ldsB64 d a im => Sys2Proof.Machine.execLdsB64 d a im s
  | .ldsB32 d a im => Sys2Proof.Machine.execLdsB32 d a im s
  | .stsB64 d a im => Sys2Proof.Machine.execStsB64 d a im s
  | .stsB32 d a im => Sys2Proof.Machine.execStsB32 d a im s
  | .lda d a im => Sys2Proof.Machine.execLda d a im s
  | .sta d a im => Sys2Proof.Machine.execSta d a im s
  | .ldsAcq d a sc => Sys2Proof.Machine.execLdsAcq d a sc s
  | .stsRel d a sc => Sys2Proof.Machine.execStsRel d a sc s
  | .lspB32 d sc v im => Sys2Proof.Machine.execLspB32 d sc v im s
  | .lspB64 d sc im => Sys2Proof.Machine.execLspB64 d sc im s
  | .lspB128 d sc im => Sys2Proof.Machine.execLspB128 d sc im s
  | .sspB32 d sc v im => Sys2Proof.Machine.execSspB32 d sc v im s
  | .sspB64 d sc im => Sys2Proof.Machine.execSspB64 d sc im s
  | .sspB128 d sc im => Sys2Proof.Machine.execSspB128 d sc im s
  | .atomAdd d a v sc o => Sys2Proof.Machine.execAtomAdd d a v sc o s
  | .atomFadd d a v sc o => Sys2Proof.Machine.execAtomFadd d a v sc o s
  | .atomMinS d a v sc o => Sys2Proof.Machine.execAtomMinS d a v sc o s
  | .atomMaxS d a v sc o => Sys2Proof.Machine.execAtomMaxS d a v sc o s
  | .atomMinZ d a v sc o => Sys2Proof.Machine.execAtomMinZ d a v sc o s
  | .atomMaxZ d a v sc o => Sys2Proof.Machine.execAtomMaxZ d a v sc o s
  | .atomAnd d a v sc o => Sys2Proof.Machine.execAtomAnd d a v sc o s
  | .atomOr d a v sc o => Sys2Proof.Machine.execAtomOr d a v sc o s
  | .atomXor d a v sc o => Sys2Proof.Machine.execAtomXor d a v sc o s
  | .atomXchg d a v sc o => Sys2Proof.Machine.execAtomXchg d a v sc o s
  | .atomCas d a v sc o => Sys2Proof.Machine.execAtomCas d a v sc o s
  | .atomAdd64 d a v sc o => Sys2Proof.Machine.execAtomAdd64 d a v sc o s
  | .atomCas64 d a v sc o => Sys2Proof.Machine.execAtomCas64 d a v sc o s
  | .atomInc d a v sc o => Sys2Proof.Machine.execAtomInc d a v sc o s
  | .redMemAdd d a v sc o => Sys2Proof.Machine.execRedMemAdd d a v sc o s
  | .redMemFadd d a v sc o => Sys2Proof.Machine.execRedMemFadd d a v sc o s
  | .fence sc o => Sys2Proof.Machine.execFence sc o s
  | .mon a im => Sys2Proof.Machine.execMon a im s
  | .mwait => Sys2Proof.Machine.execMwait s
  | .mwaitWake flock => Sys2Proof.Machine.execMwaitWake flock s
  | .cflush a v im => Sys2Proof.Machine.execCflush a v im s
  | .cinv a v im => Sys2Proof.Machine.execCinv a v im s
  | .ifence => Sys2Proof.Machine.execIfence s
  | .dtens sc => Sys2Proof.Machine.execDtens sc s
  | .ttag sc => Sys2Proof.Machine.execTtag sc s
  | .pref n a v im => Sys2Proof.Machine.execPref n a v im s
  | .tdset t a sc im => Sys2Proof.Machine.execTdset t a sc im s
  | .tdoff t a b k => Sys2Proof.Machine.execTdoff t a b k s
  | .tdpl t v p => Sys2Proof.Machine.execTdpl t v p s
  | .tdget d t k => Sys2Proof.Machine.execTdget d t k s
  | .tload t => Sys2Proof.Machine.execTload t s
  | .tloadT t => Sys2Proof.Machine.execTloadT t s
  | .tloadSp t => Sys2Proof.Machine.execTloadSp t s
  | .tloadRaw t => Sys2Proof.Machine.execTloadRaw t s
  | .tileLoadComplete flock => Sys2Proof.Machine.execTileLoadComplete flock s
  | .tstore t c => Sys2Proof.Machine.execTstore t c s
  | .tstoreT t c => Sys2Proof.Machine.execTstoreT t c s
  | .tstorePair t c => Sys2Proof.Machine.execTstorePair t c s
  | .tstoreAdd t c => Sys2Proof.Machine.execTstoreAdd t c s
  | .tileStoreComplete flock => Sys2Proof.Machine.execTileStoreComplete flock s
  | .mma c a b m n z g => Sys2Proof.Machine.execMma c a b m n z g s
  | .mmxXor c a b z g => Sys2Proof.Machine.execMmxXor c a b z g s
  | .mmxAnd c a b z g => Sys2Proof.Machine.execMmxAnd c a b z g s
  | .mms c a b m n z g => Sys2Proof.Machine.execMms c a b m n z g s
  | .mml c a b m n z g => Sys2Proof.Machine.execMml c a b m n z g s
  | .mmaQ c a b m n z g => Sys2Proof.Machine.execMmaQ c a b m n z g s
  | .mmxXorQ c a b z g => Sys2Proof.Machine.execMmxXorQ c a b z g s
  | .mmxAndQ c a b z g => Sys2Proof.Machine.execMmxAndQ c a b z g s
  | .mmsQ c a b m n z g => Sys2Proof.Machine.execMmsQ c a b m n z g s
  | .mmlQ c a b m n z g => Sys2Proof.Machine.execMmlQ c a b m n z g s
  | .tileOperationComplete flock => Sys2Proof.Machine.execTileOperationComplete flock s
  | .tfence => Sys2Proof.Machine.execTfence s
  | .accz d => Sys2Proof.Machine.execAccz d s
  | .accrd d a r f => Sys2Proof.Machine.execAccrd d a r f s
  | .accrdp d a r p => Sys2Proof.Machine.execAccrdp d a r p s
  | .accwr d a r p => Sys2Proof.Machine.execAccwr d a r p s
  | .accneg d => Sys2Proof.Machine.execAccneg d s
  | .copyMm a b c g k => Sys2Proof.Machine.execCopyMm a b c g k s
  | .copyMs a b c g k => Sys2Proof.Machine.execCopyMs a b c g k s
  | .copyMb a b c g k => Sys2Proof.Machine.execCopyMb a b c g k s
  | .copyMl a b c g k => Sys2Proof.Machine.execCopyMl a b c g k s
  | .copyMt a b c g k => Sys2Proof.Machine.execCopyMt a b c g k s
  | .copySm a b c g k => Sys2Proof.Machine.execCopySm a b c g k s
  | .copyBg a b c g k => Sys2Proof.Machine.execCopyBg a b c g k s
  | .copyPut a b c g k => Sys2Proof.Machine.execCopyPut a b c g k s
  | .copyGet a b c g k => Sys2Proof.Machine.execCopyGet a b c g k s
  | .copyChunkSend job => Sys2Proof.Machine.execCopyChunkSend job s
  | .engineTroughReserve job => Sys2Proof.Machine.execEngineTroughReserve job s
  | .chunkIngress job flip => Sys2Proof.Machine.execChunkIngress job flip s
  | .copyStampWrite job => Sys2Proof.Machine.execCopyStampWrite job s
  | .tgset a b n => Sys2Proof.Machine.execTgset a b n s
  | .tgresv d n => Sys2Proof.Machine.execTgresv d n s
  | .tgpost a n => Sys2Proof.Machine.execTgpost a n s
  | .tgtake d n => Sys2Proof.Machine.execTgtake d n s
  | .tgfree a n => Sys2Proof.Machine.execTgfree a n s
  | .tgstat d n => Sys2Proof.Machine.execTgstat d n s
  | .tgclose n => Sys2Proof.Machine.execTgclose n s
  | .give d m k => Sys2Proof.Machine.execGive d m k s
  | .bwait d m => Sys2Proof.Machine.execBwait d m s
  | .bstat d k => Sys2Proof.Machine.execBstat d k s
  | .bdrain k => Sys2Proof.Machine.execBdrain k s
  | .bzero k => Sys2Proof.Machine.execBzero k s
  | .bmap d k => Sys2Proof.Machine.execBmap d k s
  | .bunmap k => Sys2Proof.Machine.execBunmap k s
  | .lease d a b t => Sys2Proof.Machine.execLease d a b t s
  | .unlease a => Sys2Proof.Machine.execUnlease a s
  | .lrenew d a t => Sys2Proof.Machine.execLrenew d a t s
  | .lstat d a => Sys2Proof.Machine.execLstat d a s
  | .leaseExpiry ctx handle => Sys2Proof.Machine.execLeaseExpiry ctx handle s
  | .estInit => Sys2Proof.Machine.execEstInit s
  | .estAdd v => Sys2Proof.Machine.execEstAdd v s
  | .estAddw v b => Sys2Proof.Machine.execEstAddw v b s
  | .estClose => Sys2Proof.Machine.execEstClose s
  | .estRead v a => Sys2Proof.Machine.execEstRead v a s
  | .estWait v a b => Sys2Proof.Machine.execEstWait v a b s
  | .mergeVisit launch => Sys2Proof.Machine.execMergeVisit launch s
  | .launch d a => Sys2Proof.Machine.execLaunch d a s
  | .depDec a => Sys2Proof.Machine.execDepDec a s
  | .depAdd a b => Sys2Proof.Machine.execDepAdd a b s
  | .cancel d a => Sys2Proof.Machine.execCancel d a s
  | .lnstat d a => Sys2Proof.Machine.execLnstat d a s
  | .gang d a b => Sys2Proof.Machine.execGang d a b s
  | .snap d a => Sys2Proof.Machine.execSnap d a s
  | .faultDone a b => Sys2Proof.Machine.execFaultDone a b s
  | .collPut a => Sys2Proof.Machine.execCollPut a s
  | .collRed a => Sys2Proof.Machine.execCollRed a s
  | .welt a b c => Sys2Proof.Machine.execWelt a b c s
  | .wchk d a b => Sys2Proof.Machine.execWchk d a b s
  | .cstat d k => Sys2Proof.Machine.execCstat d k s
  | .rng d => Sys2Proof.Machine.execRng d s
  | .rngF d => Sys2Proof.Machine.execRngF d s
  | .rngkey a => Sys2Proof.Machine.execRngkey a s
  | .aestr a q => Sys2Proof.Machine.execAestr a q s
  | .qpop d q => Sys2Proof.Machine.execQpop d q s
  | .qstat d q => Sys2Proof.Machine.execQstat d q s
  | .aestop q => Sys2Proof.Machine.execAestop q s
  | .streamFetch flock queue => Sys2Proof.Machine.execStreamFetch flock queue s
  | .sget d n => Sys2Proof.Machine.execSget d n s
  | .sset a n => Sys2Proof.Machine.execSset a n s
  | .tlbinv a b c => Sys2Proof.Machine.execTlbinv a b c s
  | .tlbinvc a f => Sys2Proof.Machine.execTlbinvc a f s
  | .boost d a => Sys2Proof.Machine.execBoost d a s
  | .wake a => Sys2Proof.Machine.execWake a s
  | .fabort d => Sys2Proof.Machine.execFabort d s
  | .compactMov d a g => Sys2Proof.Machine.execCompactMov d a g s
  | .compactAdd d a g => Sys2Proof.Machine.execCompactAdd d a g s
  | .compactSub d a g => Sys2Proof.Machine.execCompactSub d a g s
  | .compactMul d a g => Sys2Proof.Machine.execCompactMul d a g s
  | .compactAnd d a g => Sys2Proof.Machine.execCompactAnd d a g s
  | .compactOr d a g => Sys2Proof.Machine.execCompactOr d a g s
  | .compactXor d a g => Sys2Proof.Machine.execCompactXor d a g s
  | .compactShl d a g => Sys2Proof.Machine.execCompactShl d a g s
  | .compactShrZ d a g => Sys2Proof.Machine.execCompactShrZ d a g s
  | .compactShrS d a g => Sys2Proof.Machine.execCompactShrS d a g s
  | .compactFadd d a g => Sys2Proof.Machine.execCompactFadd d a g s
  | .compactFsub d a g => Sys2Proof.Machine.execCompactFsub d a g s
  | .compactFmul d a g => Sys2Proof.Machine.execCompactFmul d a g s
  | .compactFmin d a g => Sys2Proof.Machine.execCompactFmin d a g s
  | .compactFmax d a g => Sys2Proof.Machine.execCompactFmax d a g s
  | .compactFabs d a g => Sys2Proof.Machine.execCompactFabs d a g s
  | .illegalInstruction cause enc => Sys2Proof.Machine.execIllegalInstruction cause enc s
  | .fetchFault second => Sys2Proof.Machine.execFetchFault second s
  | .loadComplete flock => Sys2Proof.Machine.execLoadComplete flock s
  | .storeComplete flock => Sys2Proof.Machine.execStoreComplete flock s
  | .deferredFaultDelivery flock => Sys2Proof.Machine.execDeferredFaultDelivery flock s
  | .blockingConditionMet flock => Sys2Proof.Machine.execBlockingConditionMet flock s
  | .launchReady launch => Sys2Proof.Machine.execLaunchReady launch s
  | .foldPlacement core => Sys2Proof.Machine.execFoldPlacement core s
  | .foldStart fold => Sys2Proof.Machine.execFoldStart fold s
  | .donation victim thief count => Sys2Proof.Machine.execDonation victim thief count s
  | .foldEnd fold => Sys2Proof.Machine.execFoldEnd fold s
  | .launchRetirement launch => Sys2Proof.Machine.execLaunchRetirement launch s
  | .parkedFoldRedispatch launch visit core => Sys2Proof.Machine.execParkedFoldRedispatch launch visit core s
  | .admitContext die => Sys2Proof.Machine.execAdmitContext die s
  | .preEmpt die => Sys2Proof.Machine.execPreEmpt die s
  | .resume die => Sys2Proof.Machine.execResume die s
  | .kill die => Sys2Proof.Machine.execKill die s
  | .routineTimeout flock => Sys2Proof.Machine.execRoutineTimeout flock s
  | .gangAckReceive gang generation member sent arrived => Sys2Proof.Machine.execGangAckReceive gang generation member sent arrived s
  | .gangDecision launch => Sys2Proof.Machine.execGangDecision launch s
  | .timeBaseSync offset => Sys2Proof.Machine.execTimeBaseSync offset s
  | .timeDivisionSlot => Sys2Proof.Machine.execTimeDivisionSlot s
  | .tokenRefill core spent waiting => Sys2Proof.Machine.execTokenRefill core spent waiting s
  | .currentEmergency cluster pass => Sys2Proof.Machine.execCurrentEmergency cluster pass s
  | .passCountLower cluster => Sys2Proof.Machine.execPassCountLower cluster s
  | .boostLeaseExpiry ctx => Sys2Proof.Machine.execBoostLeaseExpiry ctx s
  | .coreWake core reasons => Sys2Proof.Machine.execCoreWake core reasons s
  | .energyCopyRefresh ctx => Sys2Proof.Machine.execEnergyCopyRefresh ctx s
  | .supplyLossWarning => Sys2Proof.Machine.execSupplyLossWarning s
  | .coldReset image refreshed => Sys2Proof.Machine.execColdReset image refreshed s
  | .sealBoot => Sys2Proof.Machine.execSeal s
  | .extendM3 => Sys2Proof.Machine.execExtendM3 s
  | .report => Sys2Proof.Machine.execReport s
  | .checkpointMarkerCopy => Sys2Proof.Machine.execCheckpointMarkerCopy s
  | .registerWrite address value => Sys2Proof.Machine.execRegisterWrite address value s
  | .hostAccess write address value => Sys2Proof.Machine.execHostAccess write address value s
  | .remoteRequest write tag offset value => Sys2Proof.Machine.execRemoteRequest write tag offset value s
  | .remoteAccessRefusal flock job va hop => Sys2Proof.Machine.execRemoteAccessRefusal flock job va hop s
  | .remoteAccessTimeout flock job va hop => Sys2Proof.Machine.execRemoteAccessTimeout flock job va hop s
  | .switchCombine entry flip => Sys2Proof.Machine.execSwitchCombine entry flip s
  | .switchCombineTimeout entry => Sys2Proof.Machine.execSwitchCombineTimeout entry s
  | .snapshotArm => Sys2Proof.Machine.execSnapshotArm s
  | .snapshotLineCopy line => Sys2Proof.Machine.execSnapshotLineCopy line s
  | .snapshotStamp => Sys2Proof.Machine.execSnapshotStamp s
  | .remoteLineWriteBack line => Sys2Proof.Machine.execRemoteLineWriteBack line s
  | .uncorrectableSoftError place => Sys2Proof.Machine.execUncorrectableSoftError place s

end Sys2Proof.Machine
end

