-- ==== Sys2Proof/Machine/Sched.lean ====
section
/-!
DEFINITION. Which agent acts next (log entry 1): the moves on the agenda, first of all; then the current flock's next instruction, fetched
(R100, R301) and decoded; and where it issues none, the first event that has something to do.
-/
namespace Sys2Proof.Machine

/-! Moves. -/

/-- Time passes, with its share of a slew (R309). -/
def State.tick (s : State) (ns : Nat) : State :=
  let d := slewIn s.slew (s.slewCarry + ns)
  { s with time := s.time + BitVec.ofInt 64 (ns + d), slew := s.slew - d, slewCarry := slewRest s.slew (s.slewCarry + ns) }

/-- Entries that a TLB holds: both levels of a core's, that of its tile address engine, that of a die (R282). -/
def TlbHolder.capacity : TlbHolder → Nat
  | .core _ => 128 + 2048
  | .ahead _ => 64
  | .nested _ => 4096

/-- The walker that fills a TLB. -/
def TlbHolder.walker (h : TlbHolder) (ctx : Nat) : Agent :=
  { space := some ctx, ctx := ctx, privileged := true, secure := true
    core := match h with | .core n => some n | .ahead n => some n | .nested _ => none }

/-- What a walk finds for the page of an address: of a virtual one, or in a nested TLB of a guest-physical one. -/
def State.walkFor (s : State) (h : TlbHolder) (ctx address : Nat) : Except Bad Leaf :=
  if h.isNested then s.sysLeaf (h.walker ctx) ctx address else s.walk (h.walker ctx) ctx (BitVec.ofNat 72 address)

/-- A TLB with room takes a translation that a walk finds; it holds no absence and no fault (R282). -/
def State.fillTlb (s : State) (h : TlbHolder) (ctx address : Nat) : State :=
  let page := address % 2 ^ 72 / 2 ^ 16
  if (s.tlb.any fun e => e.holder == h && e.ctx == ctx && e.page == page) || decide (512 ≤ ctx) ||
      decide (h.capacity ≤ (s.tlb.filter fun e => e.holder == h).length) then s else
  match s.walkFor h ctx address with
  | .ok l => if s.ownNumber l.base then s else { s with tlb := s.tlb ++ [{ holder := h, ctx := ctx, page := page, leaf := l }] }
  | .error _ => s

/-- A TLB drops a translation. -/
def State.dropTlb (s : State) (h : TlbHolder) (ctx page : Nat) : State :=
  { s with tlb := s.tlb.filter fun e => !(e.holder == h && e.ctx == ctx && e.page == page) }

/-- Which accesses use what a TLB holds of a page, and which the tables, is open while the two differ (R283). -/
def State.hideTlb (s : State) (h : TlbHolder) (ctx page : Nat) (offsets : List Nat) : State :=
  { s with tlb := s.tlb.map fun e => if e.holder = h ∧ e.ctx = ctx ∧ e.page = page then { e with hidden := offsets } else e }

/-- This device's L2 takes a clean copy of a line of another device's memory, where it holds none, beneath the bits that it holds dirty
(R257). -/
def State.fillLine (s : State) (line : Nat) : State :=
  let l := line / 64 * 64
  if !isFar l || s.clean.any fun c => c.1 / 64 * 64 == l then s else
  let cells := (List.range 64).map fun k => (l + k, s.mem.read (l + k))
  { s with clean := cells.foldl (fun (m : Mem) (w : Nat × Byte) => store m w.1 w.2) s.clean }.touchLines [l]

/-- A line leaves the L2 by replacement, which never chooses one under a lease and takes the least recently used of the others of its set (R272, R274). A
line that is not known to be there may always have been that one. -/
def State.dropLine (s : State) (line : Nat) : State :=
  let mine := s.cachedLines.filter fun l => l2Set l == l2Set line && !s.leasedLine l
  if s.leasedLine line || (mine.contains line && s.leastUsed mine != line) then s else s.evict [line]

/-- Other devices' memory and the host's change at their homes; what this device's L2 holds of other devices' stays, but for lines that would tear an element
(R244). A write of the host's memory reaches the monitors of this device's flocks (R152, R167). -/
def State.farWrite (s : State) (cells : List (Nat × Byte)) : State :=
  (s.homeCells (cells.filter fun c => isFar c.1)).write (cells.filter fun c => regionOf c.1 == .host) 0 0 true

/-- The fabric manager gives a switch an entry, under a number that no entry has (R338). -/
def State.addCombining (s : State) (c : Combine) : State :=
  if s.combining.any fun e => e.id == c.id then s else { s with combining := s.combining ++ [{ c with inForce := true, held := [] }] }

/-- An entry is in force no longer: chunks sent from now on are not combined there. -/
def State.endCombining (s : State) (entry : Nat) : State :=
  { s with combining := s.combining.map fun e => if e.id = entry then { e with inForce := false } else e }

/-- Halfwords of code that a holder has: an instruction cache 64 KiB (R1). -/
def CodeHolder.capacity : CodeHolder → Nat
  | .core _ => 32768
  | .flock _ => 2 ^ 72

/-- A halfword of code is taken by an instruction cache with room from memory, or by a flock as its next fetch would read it; or it is dropped. -/
def State.moveCode (s : State) (h : CodeHolder) (pa : Nat) (held : Bool) : State :=
  let old : State := { s with code := s.code.filter fun c => !(c.1 == h && c.2.1 == pa) }
  let memory := s.read (pa + 1) ++ s.read pa
  let now := match h with
    | .core _ => memory
    | .flock n => ((s.flock? n).bind fun f => s.heldBy (.core f.core) pa).getD memory
  if held && decide ((old.code.filter fun c => c.1 == h).length < h.capacity) then { old with code := old.code ++ [(h, pa, now)] } else old

/-- A chunk of another device reaches a port of a combining switch: its counter goes up, and one past 15 or with a wrong W1 is discarded (R333,
R334, R338). -/
def State.chunkArrives (s : State) (entry port : Nat) (c : Chunk) : State :=
  match s.combining.find? fun e => e.id == entry with
  | none => s
  | some e =>
    if 15 < c.hop + 1 ∨ weltSum c.bits (c.width * c.count) ≠ c.w1 ∨ (port ≠ e.portP ∧ port ≠ e.portQ) then s else
    let h : Held := { port := port, chunk := { c with hop := c.hop + 1, partners := [] }, job := 0, since := s.time }
    s.setEntry { e with held := e.held ++ [h] }

/-- Whether the bytes that the current flock fetches are no instruction, for this reason (R110, R112). -/
noncomputable def State.foundIllegal (s : State) (cause : BitVec 8) : Bool :=
  match s.fetch with
  | .fault _ => false
  | .bytes bs =>
    match decodeBytes bs with
    | some (.illegal c, _, _) => c == cause
    | _ => false

/-- Which events a move may be: an illegal instruction is one only where the decoder finds it, and an instruction is no event. -/
noncomputable def State.mayAct (s : State) (e : Instr) : Bool :=
  e.isEvent && match e with
  | .illegalInstruction cause _ => s.foundIllegal cause
  | _ => true

/-! Issuing, and the moves that are made. -/

/-- The current flock issues the instruction at its program counter. -/
noncomputable def State.issueNext (s : State) : Result :=
  match s.fetch with
  | .fault second => execFetchFault second s
  | .bytes bs =>
    match decodeBytes bs with
    | some (.ok i, _, _) => exec i s
    | some (.illegal cause, e, _) => execIllegalInstruction cause (Enc.pattern e) s
    | none => .next s

/-- Which operation of a dependency counter the current flock issues next: an addition, a decrement, or none. -/
noncomputable def State.counterOp (s : State) : Option Nat :=
  match ({ s with beat := 0 } : State).issues, s.fetch with
  | true, .bytes bs =>
    match decodeBytes bs with
    | some (.ok (.depAdd _ _), _, _) => some 0
    | some (.ok (.depDec _), _, _) => some 1
    | _ => none
  | _, _ => none

/-- Where a flock's operation stands among those of one cycle: additions first; then supervisor flocks by their cores; then by the launch's order key, its
acceptance, the visit and the flock field (R31). -/
def State.counterKey (s : State) (op : Nat) (f : Flock) : List Nat :=
  if f.supervises then [op, 0, f.core, f.id] else
  match s.fold? f.fold with
  | none => [op, 1]
  | some d => [op, 1, ((s.launch? d.launch).map fun l => l.hdr.orderKey.toNat).getD 0, ((s.launch? d.launch).map fun l => l.seq).getD 0, d.visit, f.field]

/-- The flocks of a list whose next instruction changes a dependency counter, in the order of R31. -/
noncomputable def State.counterOrder (s : State) (flocks : List Nat) : List Nat :=
  (sortBy (fun a b => decide (a.2 ≤ b.2)) (flocks.eraseDups.filterMap fun n =>
    ((s.turnTo n).counterOp.bind fun op => (s.flock? n).map fun f => (n, s.counterKey op f)))).map fun x => x.1

/-- Additions and decrements of dependency counters that arrive in one cycle are applied one at a time, in the order of R31 (log entry 139). -/
noncomputable def State.together (s : State) (flocks : List Nat) : Result :=
  (s.counterOrder flocks).foldl (fun r n => match r with
    | .next t => if (t.turnTo n).counterOp.isSome then (t.turnTo n).issueNext else .next t
    | stop => stop) (.next s)

/-- A move is made. -/
noncomputable def State.move (s : State) (m : Move) : Result :=
  match m with
  | .act e => if s.mayAct e then exec e s else .next s
  | .turn n => .next (s.turnTo n)
  | .together fs => s.together fs
  | .tick ns => .next (s.tick ns)
  | .charge a uj => .next (s.charge a uj)
  | .tlbFill h ctx address => .next (s.fillTlb h ctx address)
  | .tlbDrop h ctx page => .next (s.dropTlb h ctx page)
  | .tlbHide h ctx page offsets => .next (s.hideTlb h ctx page offsets)
  | .lineFill line => .next (s.fillLine line)
  | .lineDrop line => .next (s.dropLine (line / 64 * 64))
  | .lineClean line => .next (s.cleanLines [line / 64 * 64])
  | .farWrite cells => .next (s.farWrite cells)
  | .code h pa held => .next (s.moveCode h pa held)
  | .dispatch l c => .next (s.dispatchTo l c)
  | .chunk e p c => .next (s.chunkArrives e p c)
  | .arrive w c flip => .next (s.inbound w c flip)
  | .peer d (some p) => .next { s with peers := store s.peers d p }
  | .peer d none => .next { s with peers := s.peers.filter fun q => q.1 != d }
  | .combining c => .next (s.addCombining c)
  | .uncombine entry => .next (s.endCombining entry)

/-! The first event with something to do. -/

/-- A result that changes the machine. -/
def change (s : State) (r : Result) : Option Result :=
  match r with
  | .next t => if t = s then none else some r
  | _ => some r

/-- The first of some events that changes the machine. -/
def firstChange (s : State) {α : Type} (f : α → Result) (xs : List α) : Option Result := xs.findSome? fun x => change s (f x)

/-- A list that begins further on, so that its elements come first in turn. -/
def spin {α : Type} (r : Nat) (xs : List α) : List α := xs.drop (r % xs.length) ++ xs.take (r % xs.length)

/-- The number that the r-th of some turns is for: in each block of 2^k turns every number below 2^k has one, so that each has infinitely many. -/
def turnOf (r : Nat) : Nat := r - 2 ^ r.log2

/-- Numbered things in the order of the r-th round: every second time they rotate by their numbers, and between these the one that the turn is for
comes first, so that none waits for ever, however many come and go (R37). -/
def inTurn {α : Type} (key : α → Nat) (r : Nat) (xs : List α) : List α :=
  let ys := sortBy (fun a b => decide (key a ≤ key b)) xs
  if r % 2 = 0 then spin (r / 2) ys
  else (ys.filter fun x => decide (turnOf (r / 2) ≤ key x)) ++ ys.filter fun x => decide (key x < turnOf (r / 2))

/-- With which of their events the first of n numbered things begins in the r-th round: with another one each time it comes first. -/
def eventTurn (r n : Nat) : Nat := if r % 2 = 0 then r / 2 / n else (r / 2).log2

/-- What a flock that does not issue may wait for. -/
def flockEvent (s : State) (r n : Nat) : Option Result :=
  firstChange s (fun f => f s) <| spin r [
    execDeferredFaultDelivery n, execLoadComplete n, execStoreComplete n, execTileLoadComplete n, execTileStoreComplete n,
    execTileOperationComplete n, execBlockingConditionMet n, execSleepTimerExpiry n, execMwaitWake n, execFlockEnd n, execRoutineTimeout n,
    execStreamFetch n 0, execStreamFetch n 1, execStreamFetch n 2, execStreamFetch n 3]

/-- What a copy job may do. -/
def jobEvent (s : State) (r n : Nat) : Option Result :=
  firstChange s (fun f => f s) <| spin r [execEngineTroughReserve n, execCopyChunkSend n, execChunkIngress n 0, execCopyStampWrite n]

/-- What a fold may do. -/
def foldEvent (s : State) (r n : Nat) : Option Result :=
  firstChange s (fun f => f s) <| spin r [execBarrierRelease n false, execBarrierRelease n true, execCommitWriteOut n, execFoldStart n, execFoldEnd n]

/-- What a launch may do. -/
def launchEvent (s : State) (r n : Nat) : Option Result :=
  firstChange s (fun f => f s) <| spin r [execLaunchReady n, execMergeVisit n, execGangDecision n, execLaunchRetirement n]

/-- What the device may do as a whole. -/
def deviceEvent (s : State) (r : Nat) : Option Result :=
  firstChange s (fun f => f s) <| spin r [
    execSeal, execExtendM3, execReport, execCheckpointMarkerCopy,
    execAdmitContext 0, execAdmitContext 1, execAdmitContext 2, execAdmitContext 3, execPreEmpt 0, execPreEmpt 1, execPreEmpt 2, execPreEmpt 3,
    execResume 0, execResume 1, execResume 2, execResume 3, execKill 0, execKill 1, execKill 2, execKill 3,
    execSnapshotArm, execSnapshotStamp, execTimeDivisionSlot]

/-- Parked and saved folds that may go onto a core. -/
def redispatchEvent (s : State) (r : Nat) : Option Result :=
  let waiting := (s.parked.map fun k => (k.launch, k.visit)) ++ s.saved.map fun k => (k.fold.launch, k.fold.visit)
  firstChange s (fun (x : (Nat × Nat) × Nat) => execParkedFoldRedispatch x.1.1 x.1.2 x.2 s)
    ((inTurn (fun w => w.2) r waiting).flatMap fun w => (List.range 256).map fun c => (w, c))

/-- Folds to be placed. -/
def placementEvent (s : State) (r : Nat) : Option Result :=
  if s.launches = [] then none else firstChange s (fun c => execFoldPlacement c s) (spin r (List.range 256))

/-- The next flock that issues: every second round the next after the current one, in a circle, and between these the one that the turn is for. -/
def State.nextFlock (s : State) (r : Nat) : Option Flock :=
  let ready := s.flocks.filter fun f => f.status == .running
  if r % 2 = 1 then (inTurn (fun f => f.id) r ready).head? else
  match ready.find? fun f => decide (s.cur.id < f.id) with
  | some f => some f
  | none => ready.head?

/-- The line that a snapshot copies next. -/
def State.nextLine (s : State) : Option Nat :=
  s.snapshots.findSome? fun sn => if sn.armed then sn.pending.head?.map fun p => p.1 else none

/-- Cores that have a status word to write. -/
def coreEvent (s : State) (r : Nat) : Option Result :=
  (spin r s.cores).findSome? fun c => match c.2.due with
    | w :: _ => change s (execCoreWake c.1 (BitVec.ofNat 8 (field w 16 8)) s)
    | [] => none

/-- Ports whose refill is due. -/
def portEvent (s : State) (r : Nat) : Option Result :=
  firstChange s (fun k => execTokenRefill k [] [] s) (inTurn (fun c => c) r (s.allFolds.map fun f => f.core).eraseDups)

/-- A flock whose access to another device has no answer. -/
def answerEvent (s : State) (r : Nat) : Option Result :=
  (inTurn (fun f => f.id) r s.allFlocks).findSome? fun f => match f.status with
    | .remote t _ => firstChange s (fun e => e s) [execRemoteAccessRefusal f.id 0 t.addr 0, execRemoteAccessTimeout f.id 0 t.addr 0]
    | _ => none

/-- A job whose chunk, or whose request to its source, has no answer. -/
def chunkAnswerEvent (s : State) (r : Nat) : Option Result :=
  (inTurn (fun j => j.id) r s.jobs).findSome? fun j =>
    firstChange s (fun e => e s) [execRemoteAccessRefusal 0 j.id 0 0, execRemoteAccessTimeout 0 j.id 0 0]

/-- Switches whose held chunks may be combined, or have waited too long. -/
def switchEvent (s : State) (r : Nat) : Option Result :=
  (inTurn (fun e => e.id) r s.combining).findSome? fun e => firstChange s (fun x => x s) [execSwitchCombine e.id 0, execSwitchCombineTimeout e.id]

/-- The first answer of some questions. -/
def firstOf : List (Unit → Option Result) → Option Result
  | [] => none
  | q :: qs => match q () with | some r => some r | none => firstOf qs

/-- What may happen when the current flock does not issue, by agents: an event that changes the machine, another flock's turn, the passing of a
nanosecond. In each round another flock, fold and so on comes first, and each time with another of its events. -/
def State.agents (s : State) (r : Nat) : List (Unit → Option Result) :=
  let each := fun (ids : List Nat) (event : Nat → Nat → Option Result) =>
    (inTurn (fun n => n) r ids).findSome? (event (eventTurn r ids.length))
  [ fun _ => each (s.allFlocks.map fun f => f.id) (flockEvent s),
    fun _ => each (s.allFolds.map fun f => f.id) (foldEvent s),
    fun _ => (s.nextFlock r).map fun f => Host.Outcome.next (s.turnTo f.id),
    fun _ => each (s.jobs.map fun j => j.id) (jobEvent s),
    fun _ => each (s.launches.map fun l => l.id) (launchEvent s),
    fun _ => deviceEvent s r,
    fun _ => redispatchEvent s r,
    fun _ => placementEvent s r,
    fun _ => answerEvent s r,
    fun _ => chunkAnswerEvent s r,
    fun _ => switchEvent s r,
    fun _ => coreEvent s r,
    fun _ => portEvent s r,
    fun _ => s.nextLine.map fun line => execSnapshotLineCopy line s,
    fun _ => firstChange s (fun (c : Nat × Context) => execBoostLeaseExpiry c.1 s) (spin r s.contexts),
    fun _ => some (.next (s.tick 1))]

/-- How many agents there are. -/
def agentCount : Nat := 16

/-- The first agent that has something to do. They come first in turn, so that none waits for ever (R37). A stopped machine only waits. -/
def State.schedule (s : State) : Result :=
  if s.stopped then .next (s.tick 1) else
  (firstOf (spin (s.round % agentCount) (s.agents (s.round / agentCount)))).getD (.next s)

/-- What every step leaves besides: unknown outputs of launches that broke R58, launches that have come to be ready, what local storage held before, requests at the mesh ports, status words
and energy counters to be written, lines that the L2 has no room for; and the count of turns, which the moves of an agenda leave alone. -/
def State.settled (s t : State) : State :=
  let u := (s.useLines (s.settleEnergy (s.settleCores (s.settlePorts ((s.settleBreaches (t.noteReads (s.foldReads t))).noteReady.keepOverwritten s))))).fitCaches
  if s.agenda ≠ [] then u else if s.issues then { u with beat := s.beat + 1 } else { u with beat := 0, round := s.round + 1 }

/-- The bytes of an instruction stand where the current flock fetches next, and nothing keeps it from issuing. -/
def State.plant (s : State) (bs : List Byte) : State :=
  let s1 : State := { s with
    agenda := [], code := [], stopped := false, beat := 0, cur := { s.cur with status := .running, deferred := [] }
    cores := s.cores.map fun c => (c.1, { c.2 with port := c.2.port.filter fun r => r.asker != .fetch s.cur.id }) }
  let place := fun (k : Nat) => match s1.translate (s1.agent s1.cur) Need.fetch (s1.cur.pc + BitVec.ofNat 72 k) with
    | .ok (pa, _) => pa
    | .error _ => (s1.cur.pc + BitVec.ofNat 72 k).toNat
  { s1 with mem := s1.mem.writeAll (bs.zipIdx.map fun e => (place e.2, e.1)) }

end Sys2Proof.Machine
end

