-- ==== Sys2Proof/Machine/Step.lean ====
section
/-!
DEFINITION. One step of the machine: a move of the agenda, else the next instruction of the current flock, else the first event with something
to do.
-/
namespace Sys2Proof.Machine

/-- What acts at a step. -/
noncomputable def State.acts (s : State) : Result :=
  match s.agenda with
  | m :: rest => State.move { s with agenda := rest } m
  | [] => if s.issues then s.issueNext else s.schedule

/-- One step. -/
noncomputable def step (s : State) : Host.Outcome State Fault Refusal :=
  match s.acts with
  | .next t => .next (s.settled t)
  | r => r

/-- The machine with an instruction, numbered as the opcode table numbers its bits, where the current flock fetches next. -/
def State.withFetchWord (s : State) (nbits w : Nat) : State := s.plant (tableBytes nbits w)

end Sys2Proof.Machine
end

