-- ==== Sys2Proof/Safety.lean ====
section
/-!
DEFINITION. What counts as a safe state and a safe step, in the terms the statements use: canonical memory, registers that no operation
under way touches, and what a step may change.
-/
namespace Sys2Proof.Machine

/-- What the L2 holds of other devices' memory: bytes of other devices, at strictly rising addresses. -/
def FarTable {α : Type} (m : List (Nat × α)) : Prop := m.Pairwise (fun a b => a.1 < b.1) ∧ ∀ c ∈ m, Config.apertureBase ≤ c.1

/-- The memory of a state is in canonical form: addresses strictly rising, no zero byte; what the L2 holds of other devices stands in
tables of their bytes. -/
def State.Canonical (s : State) : Prop := s.mem.wf = true ∧ FarTable s.remote ∧ FarTable s.clean

/-- A step or a meaning goes on: it answers a next state. -/
def Completes (r : Result) : Prop := ∃ t, r = .next t

/-- The memory of this device, the host and the other devices as a flock of this device reads it. -/
def SameMemory (s t : State) : Prop := ∀ a, t.read a = s.read a

/-! Registers that no operation under way touches (R117, R192). -/

/-- No operation under way writes a vector register of the current flock or reads it as a matrix operand. -/
def State.VectorFree (s : State) (r : BitVec 6) : Prop := (s.cur.busy (Dest.isVector r) || s.cur.operand r) = false

/-- No operation under way writes a scalar register of the current flock. -/
def State.ScalarFree (s : State) (r : BitVec 5) : Prop := s.cur.busy (Dest.isScalar r) = false

/-- No operation under way writes an address register of the current flock. -/
def State.AddressFree (s : State) (r : BitVec 4) : Prop := s.cur.busy (Dest.isAddress r) = false

/-! What an instruction of `len` bytes changes where it goes on to the next address (R101, R136). -/

/-- The flock has gone on past the instruction, matching its loop levels, and nothing else has changed. -/
def OnlyFlow (s t : State) (len : Nat := 4) : Prop := t = s.goOn len

/-- The lanes of a mask of one vector register have new words; every other lane, register, flag, special register, and every byte of
memory is as before, and the flock has gone on. -/
def WritesLanes (s t : State) (d : BitVec 6) (m : Mask) (x : Fin 32 → Word) (len : Nat := 4) : Prop :=
  (∀ i, t.cur.lane d i = if m.on i then x i else s.cur.lane d i) ∧
  (∀ r, r ≠ d → t.cur.getV r = s.cur.getV r) ∧
  t = { s with cur := { s.cur.advance len with v := t.cur.v } }

/-- As `WritesLanes`, with the two sticky flags of `fcr` raised as given; every other bit of `fcr` is as before. -/
def WritesFlagged (s t : State) (d : BitVec 6) (m : Mask) (x : Fin 32 → Flagged Word) (len : Nat := 4) : Prop :=
  (∀ i, t.cur.lane d i = if m.on i then (x i).val else s.cur.lane d i) ∧
  (∀ r, r ≠ d → t.cur.getV r = s.cur.getV r) ∧
  t.cur.fcr = s.cur.fcr ||| (if ∃ i, m.on i = true ∧ (x i).ofl = true then 0x200 else 0) |||
    (if ∃ i, m.on i = true ∧ (x i).nv = true then 0x100 else 0) ∧
  t = { s with cur := { s.cur.advance len with v := t.cur.v, fcr := t.cur.fcr } }

/-- One scalar register has a new value, s0 discarding it (R94); all else is as before, and the flock has gone on. -/
def WritesScalar (s t : State) (d : BitVec 5) (x : DWord) (len : Nat := 4) : Prop :=
  t.cur.getS d = (if d = 0 then 0 else x) ∧ (∀ r, r ≠ d → t.cur.getS r = s.cur.getS r) ∧
  t = { s with cur := { s.cur.advance len with s := t.cur.s } }

/-- One address register has a new value, a0 discarding it (R94); all else is as before, and the flock has gone on. -/
def WritesAddress (s t : State) (d : BitVec 4) (x : Addr) (len : Nat := 4) : Prop :=
  t.cur.getA d = (if d = 0 then 0 else x) ∧ (∀ r, r ≠ d → t.cur.getA r = s.cur.getA r) ∧
  t = { s with cur := { s.cur.advance len with a := t.cur.a } }

/-- One predicate register has a new value, p0 discarding it (R94); all else is as before, and the flock has gone on. -/
def WritesPredicate (s t : State) (d : BitVec 3) (x : Mask) (len : Nat := 4) : Prop :=
  t.cur.getP d = (if d = 0 then 0xFFFFFFFF else x) ∧ (∀ r, r ≠ d → t.cur.getP r = s.cur.getP r) ∧
  t = { s with cur := { s.cur.advance len with p := t.cur.p } }

/-- The flock has gone on to the next address; what else has changed is said apart. -/
def GoesOn (s t : State) (len : Nat := 4) : Prop := t.cur.pc = (s.cur.advance len).pc ∧ t.cur.loops = (s.cur.advance len).loops

/-! Accesses to memory. -/

/-- Every byte of a list passes translation, world, permission, format and legality (R175), and lies where something answers if it is accessed itself. -/
def State.Touchable (s : State) (k : Guard) (ts : List Touch) : Prop :=
  ∀ t ∈ ts, ∃ pa, s.checkByte k t = .ok (t.1, pa) ∧ (t.2.isShared = false → s.reach (s.agent s.cur) t.1 pa = .ok ())

/-- Where a byte lies for the current flock; 0 where it does not translate. -/
def State.placeAt (s : State) (n : Need) (va : Addr) : Nat :=
  match s.locate (s.agent s.cur) n va with
  | .ok (pa, _) => pa
  | .error _ => 0

/-- The bytes of a list with their places. -/
def State.places (s : State) (n : Need) (ts : List Touch) : List (Addr × Nat) := ts.map fun t => (t.1, s.placeAt n t.1)

/-- The bytes that the current flock loads from an address on (R4, R160). -/
def State.loaded (s : State) (n : Need) (va : Addr) (k : Nat) : List Byte :=
  (List.range k).map fun j => s.loadByte (s.placeAt n (va + BitVec.ofNat 72 j))

/-- A class has room for one more operation (R99). -/
def State.Ready (s : State) (c : Class) : Prop := s.cur.count c < c.limit

/-- No operation under way touches a destination (R117, R192). -/
def State.DestFree (s : State) : Dest → Prop
  | .vector r _ _ _ => s.VectorFree r
  | .scalar r _ _ _ => s.ScalarFree r
  | .address r _ _ _ => s.AddressFree r

/-- From a state `s1` the current flock has issued one counted operation: it stands last, with the number and address of its instruction;
registers that it does not write are as before, the flock has gone on, and nothing else of the machine has changed. -/
def Issued (s1 t : State) (o : PendOp) : Prop :=
  t.cur.pend = s1.cur.pend ++ [o] ∧ o.id = s1.nextId ∧ o.pc = s1.cur.pc ∧ o.done = false ∧
  (∀ r, (∀ d ∈ o.dests, Dest.isVector r d = false) → t.cur.getV r = s1.cur.getV r) ∧
  (∀ r, (∀ d ∈ o.dests, Dest.isScalar r d = false) → t.cur.getS r = s1.cur.getS r) ∧
  (∀ r, (∀ d ∈ o.dests, Dest.isAddress r d = false) → t.cur.getA r = s1.cur.getA r) ∧
  t = { s1 with
    cur := { s1.cur.advance 4 with v := t.cur.v, s := t.cur.s, a := t.cur.a, pend := t.cur.pend }
    free := t.free, nextId := s1.nextId + 1 }

/-- An address to which a snapshot whose instant has come is about to copy an old line (R344). -/
def State.SnapTarget (s : State) (a : Nat) : Prop :=
  ∃ sn ∈ s.snapshots, s.begun sn = true ∧ ∃ p ∈ sn.pending, p.2 ≤ a ∧ a < p.2 + 64

/-- A write of the one byte by software makes the other unknown: both lie in one word of the device alone (R305), or in one launch's record (R43). -/
def State.Kin (s : State) (w a : Nat) : Prop :=
  (s.hardwareWord a ≠ none ∧ s.hardwareWord w = s.hardwareWord a) ∨ ∃ l ∈ s.launches, w ∈ l.recordAt ∧ a ∈ l.recordAt

/-- A byte takes a write of software as it is: it lies in no word of the device alone (R305), and in no launch's record (R43). -/
abbrev State.Plain (s : State) (a : Nat) : Prop := s.hardwareWord a = none ∧ ∀ l ∈ s.launches, a ∉ l.recordAt

/-- A byte that the copies of snapshots may change. -/
def State.SnapTouched (s : State) (a : Nat) : Prop := s.SnapTarget a ∨ ∃ w, s.SnapTarget w ∧ s.Kin w a

/-- Between two states bytes of memory were written: what stands beside memory and takes notice of a write may have changed, and nothing
else; a flock's monitor is all that has changed of it, and of a launch what it knows of writes to its record and of its folds' stray writes. -/
def OnlyMemory (s t : State) : Prop :=
  t.flocks.map (fun k => { k with monitor := {} }) = s.flocks.map (fun k => { k with monitor := {} }) ∧
  t.launches.map (fun l => { l with spoiled := false, wrote := [], strays := [] }) =
    s.launches.map (fun l => { l with spoiled := false, wrote := [], strays := [] }) ∧
  t = { s with
    cur := { s.cur with monitor := t.cur.monitor }, flocks := t.flocks, launches := t.launches, mem := t.mem, remote := t.remote, clean := t.clean
    tags := t.tags, snapshots := t.snapshots, commands := t.commands, plewick := t.plewick, free := t.free, dirty := t.dirty, used := t.used
    inFlight := t.inFlight }

/-- The bytes outside a list of places read as before, but for those that the copies of snapshots change (R344) and those that lie in one word of the
device alone (R305), or in one launch's record (R43), with a byte of the list. -/
def OthersSame (s t : State) (written : List Nat) : Prop :=
  ∀ a, a ∉ written → ¬ s.SnapTouched a → (∀ w ∈ written, ¬ s.Kin w a) → t.read a = s.read a

/-! Fetching (R100, R301). -/

/-- The current flock fetches this halfword at an address: code that it or its core's instruction cache holds, else what memory holds. -/
def State.FetchesHalf (s : State) (code : BitVec 8) (va : Addr) (h : BitVec 16) : Prop :=
  ∃ pa l, s.translate (s.agent s.cur) { x := true, code := code } va = .ok (pa, l) ∧
    (s.heldCode pa = some h ∨ (s.heldCode pa = none ∧ s.broken.contains (.line (pa / 64 * 64)) = false ∧
      s.read pa = h.extractLsb' 0 8 ∧ s.read (pa + 1) = h.extractLsb' 8 8))

/-- The current flock can fetch these bits at its program counter. -/
def State.Fetches (s : State) : Enc → Prop
  | .half h => s.FetchesHalf 4 s.cur.pc h
  | .word w => s.FetchesHalf 4 s.cur.pc (w.extractLsb' 0 16) ∧ s.FetchesHalf 5 (s.cur.pc + 2) (w.extractLsb' 16 16)

/-! Traps (R284, R285, R293). -/

/-- A trap may be taken: the flock is in no routine in which a trap ends the launch, and its context has a trap vector. -/
def State.MayTrap (s : State) : Prop := s.cur.routine.fatal = false ∧ (s.ctx s.cur.ctx).tvec ≠ 0

/-- The current flock has entered a routine at a vector (R293): it saves where it goes on, the cause and the address, is privileged, and
stands at the vector; a trap in an `mwait` notes which it was (R168); nothing else has changed. -/
def Entered (s t : State) (r : Routine) (vector epc : Addr) (cause : DWord) (addr : Addr) : Prop :=
  t = { s with cur := { s.cur with
    epc := epc, ecause := cause, faddr := addr, privileged := true, routine := r, entered := s.nextId, entries := s.cur.entries + 1, pc := vector, status := .running
    waitedAt := if s.cur.status = .waiting then some s.cur.pc else s.cur.waitedAt } }

/-- The instruction blocks: nothing but the flock's status has changed (R139, R202). -/
def Blocks (s t : State) (b : Block) : Prop := t = { s with cur := { s.cur with status := .blocked b } }

end Sys2Proof.Machine
end

