-- ==== Sys2Proof/Certificates/Slice0/Obligations.lean ====
section
/-!
DEFINITION. What the provers are asked to prove. A statement names the instructions it covers in a table beside what each of them does; each
says that the instruction completes, what it writes, and that all else stays as it was. "Free" premises say that no operation under way
touches a register; what happens otherwise is a statement of its own.
-/
namespace Sys2Proof.Machine

/-! Tables of instructions of one shape. -/

/-- The three-register integer functions of R119, with f(x, y). -/
def integerOps (d a b : BitVec 6) (g : BitVec 3) : List (Instr × (Word → Word → Word)) := [
  (.vadd d a b g, fun x y => x + y), (.vsub d a b g, fun x y => x - y), (.vmul d a b g, fun x y => x * y),
  (.vmulhS d a b g, fun x y => BitVec.ofInt 32 (x.toInt * y.toInt / 2 ^ 32)),
  (.vmulhZ d a b g, fun x y => BitVec.ofNat 32 (x.toNat * y.toNat / 2 ^ 32)),
  (.vminS d a b g, fun x y => if x.toInt ≤ y.toInt then x else y), (.vmaxS d a b g, fun x y => if x.toInt ≤ y.toInt then y else x),
  (.vminZ d a b g, fun x y => if x.toNat ≤ y.toNat then x else y), (.vmaxZ d a b g, fun x y => if x.toNat ≤ y.toNat then y else x),
  (.vand d a b g, fun x y => x &&& y), (.vor d a b g, fun x y => x ||| y), (.vxor d a b g, fun x y => x ^^^ y),
  (.vshl d a b g, fun x y => if 32 ≤ y.toNat then 0 else x <<< y.toNat),
  (.vshrZ d a b g, fun x y => if 32 ≤ y.toNat then 0 else x >>> y.toNat),
  (.vshrS d a b g, fun x y => x.sshiftRight (if 32 ≤ y.toNat then 31 else y.toNat)),
  (.vandn d a b g, fun x y => x &&& ~~~y)]

/-- The immediate integer functions of R119, in the same order. -/
def integerImms (d a : BitVec 6) (i : BitVec 9) : List Instr := [
  .vaddi d a i, .vsubi d a i, .vmuli d a i, .vmulhSi d a i, .vmulhZi d a i, .vminSi d a i, .vmaxSi d a i, .vminZi d a i, .vmaxZi d a i,
  .vandi d a i, .vori d a i, .vxori d a i, .vshli d a i, .vshrZi d a i, .vshrSi d a i, .vandni d a i]

/-- The compact integer functions of R102. -/
noncomputable def compactIntegers (d a : BitVec 5) (g : BitVec 1) : List (Instr × (Word → Word → Word)) := [
  (.compactMov d a g, fun _ y => y), (.compactAdd d a g, fun x y => x + y), (.compactSub d a g, fun x y => x - y),
  (.compactMul d a g, fun x y => x * y), (.compactAnd d a g, fun x y => x &&& y), (.compactOr d a g, fun x y => x ||| y),
  (.compactXor d a g, fun x y => x ^^^ y), (.compactShl d a g, fun x y => if 32 ≤ y.toNat then 0 else x <<< y.toNat),
  (.compactShrZ d a g, fun x y => if 32 ≤ y.toNat then 0 else x >>> y.toNat),
  (.compactShrS d a g, fun x y => x.sshiftRight (if 32 ≤ y.toNat then 31 else y.toNat))]

/-- Float functions that round and raise flags, by rounding mode, old lane of d, and lanes of a and b (R120, R121). -/
def floatOps (d a b : BitVec 6) (g : BitVec 3) : List (Instr × (BitVec 2 → Word → Word → Word → Flagged Word)) := [
  (.vfadd d a b g, fun rm _ x y => f32Add rm x y), (.vfsub d a b g, fun rm _ x y => f32Sub rm x y),
  (.vfmul d a b g, fun rm _ x y => f32Mul rm x y), (.vfmac d a b g, fun rm o x y => f32Fma rm false o x y),
  (.vfnmac d a b g, fun rm o x y => f32Fma rm true o x y), (.vfrcp d a g, fun rm _ x _ => f32Rcp rm x),
  (.vfrsq d a g, fun rm _ x _ => f32Rsq rm x), (.vfsqrt d a g, fun rm _ x _ => f32Sqrt rm x),
  (.vfexp2 d a g, fun rm _ x _ => f32Exp2 rm x), (.vflog2 d a g, fun rm _ x _ => f32Log2 rm x)]

/-- The canonical NaN for a NaN, else a function of the word. -/
def quiet (f : Word → Word) (x : Word) : Word := if (f32 x).isNan then 0x7FC00000 else f x

/-- Float functions that raise no flag (R120). -/
def quietOps (d a b : BitVec 6) (g : BitVec 3) : List (Instr × (Word → Word → Word)) := [
  (.vfmin d a b g, f32MinMax false), (.vfmax d a b g, f32MinMax true), (.vfabs d a g, fun x _ => quiet (fun w => w &&& 0x7FFFFFFF) x),
  (.vfneg d a g, fun x _ => quiet (fun w => w ^^^ 0x80000000) x),
  (.vfcopys d a b g, fun x y => if (f32 y).isNan then 0x7FC00000 else quiet (fun w => (w &&& 0x7FFFFFFF) ||| (y &&& 0x80000000)) x),
  (.vfround d a b g, fun x _ => quiet (f32Round (b.extractLsb' 0 2)) x)]

/-- The compact float functions of R102 that raise flags, and those that do not. -/
noncomputable def compactFloats (d a : BitVec 5) (g : BitVec 1) : List (Instr × (BitVec 2 → Word → Word → Flagged Word)) := [
  (.compactFadd d a g, f32Add), (.compactFsub d a g, f32Sub), (.compactFmul d a g, f32Mul)]
noncomputable def compactQuiet (d a : BitVec 5) (g : BitVec 1) : List (Instr × (Word → Word → Word)) := [
  (.compactFmin d a g, f32MinMax false), (.compactFmax d a g, f32MinMax true),
  (.compactFabs d a g, fun _ y => quiet (fun w => w &&& 0x7FFFFFFF) y)]

/-- Conditions on the order of two float values; the second says what unordered values give (R122). -/
def ordered (x y : Word) : Option Ordering := (f32 x).compare (f32 y)

/-- The conditions of R122. -/
def compares (p : BitVec 3) (a b : BitVec 6) (g : BitVec 3) : List (Instr × (Word → Word → Prop)) := [
  (.vcmpEq p a b g, fun x y => x = y), (.vcmpNe p a b g, fun x y => x ≠ y),
  (.vcmpLtS p a b g, fun x y => x.toInt < y.toInt), (.vcmpLeS p a b g, fun x y => x.toInt ≤ y.toInt),
  (.vcmpGtS p a b g, fun x y => y.toInt < x.toInt), (.vcmpGeS p a b g, fun x y => y.toInt ≤ x.toInt),
  (.vcmpLtZ p a b g, fun x y => x.toNat < y.toNat), (.vcmpLeZ p a b g, fun x y => x.toNat ≤ y.toNat),
  (.vcmpFeq p a b g, fun x y => ordered x y = some .eq), (.vcmpFne p a b g, fun x y => ordered x y ≠ some .eq),
  (.vcmpFlt p a b g, fun x y => ordered x y = some .lt), (.vcmpFle p a b g, fun x y => ordered x y = some .lt ∨ ordered x y = some .eq),
  (.vcmpFgt p a b g, fun x y => ordered x y = some .gt), (.vcmpFge p a b g, fun x y => ordered x y = some .gt ∨ ordered x y = some .eq),
  (.vcmpFuno p a b g, fun x y => ordered x y = none), (.vcmpFord p a b g, fun x y => ordered x y ≠ none)]

/-- The conversions of R123, by the control register, the lanes of a and b, and the old lane of d. -/
def conversions (d a b : BitVec 6) (g : BitVec 3) : List (Instr × (Flock → Word → Word → Word → Flagged Word)) := [
  (.cvtF32S32 d a g, fun f x _ _ => toF32 f.rm { val := Num.ofInt x.toInt }),
  (.cvtF32Z32 d a g, fun f x _ _ => toF32 f.rm { val := Num.ofInt x.toNat }),
  (.cvtS32F32 d a g, fun f x _ _ => asWord (intOfNum f.rm 32 true f.sat (f32 x))),
  (.cvtZ32F32 d a g, fun f x _ _ => asWord (intOfNum f.rm 32 false f.sat (f32 x))),
  (.cvtF16x2F32 d a b g, fun f x y _ =>
    let lo := fp16.encode f.rm f.sat (f32 x)
    let hi := fp16.encode f.rm f.sat (f32 y)
    { val := BitVec.ofNat 32 (hi.val * 2 ^ 16 + lo.val), ofl := lo.ofl || hi.ofl, nv := lo.nv || hi.nv }),
  (.cvtF32F16lo d a g, fun _ x _ _ => widen (fp16.decode (x.toNat % 2 ^ 16))),
  (.cvtF32F16hi d a g, fun _ x _ _ => widen (fp16.decode (x.toNat / 2 ^ 16))),
  (.cvtBf16x2F32 d a b g, fun f x y _ =>
    let lo := bf16.encode f.rm f.sat (f32 x)
    let hi := bf16.encode f.rm f.sat (f32 y)
    { val := BitVec.ofNat 32 (hi.val * 2 ^ 16 + lo.val), ofl := lo.ofl || hi.ofl, nv := lo.nv || hi.nv }),
  (.cvtF32Bf16lo d a g, fun _ x _ _ => widen (bf16.decode (x.toNat % 2 ^ 16))),
  (.cvtF32Bf16hi d a g, fun _ x _ _ => widen (bf16.decode (x.toNat / 2 ^ 16))),
  (.cvtE4m3F32 d a b g, fun f x _ o => intoByte (fun v => e4m3.encode f.rm f.sat v) b x o),
  (.cvtE5m2F32 d a b g, fun f x _ o => intoByte (fun v => e5m2.encode f.rm f.sat v) b x o),
  (.cvtLns6F32 d a b g, fun f x _ o => intoByte (fun v => lnsEncode f.sat v) b x o),
  (.cvtF32E4m3 d a b g, fun _ x _ _ => widen (e4m3.decode (byteAt x b.toNat))),
  (.cvtF32E5m2 d a b g, fun _ x _ _ => widen (e5m2.decode (byteAt x b.toNat))),
  (.cvtF32Lns6 d a b g, fun _ x _ _ => widen (lnsDecode (byteAt x b.toNat % 64)))]

/-- Lane i + n or i - n, or lane i itself where that is no lane. -/
def laneOr (i : Fin 32) (n : Int) : Fin 32 :=
  if h : 0 ≤ (i.val : Int) + n ∧ (i.val : Int) + n < 32 then ⟨((i.val : Int) + n).toNat, by omega⟩ else i

/-- The lane movements of R124 and R130 that obey a guard, and the vector-scalar functions of R126. -/
def laneMoves (s : State) (d a b : BitVec 6) (x : BitVec 5) (g : BitVec 3) : List (Instr × (Fin 32 → Word)) := [
  (.vperm d a b g, fun i => s.cur.lane a ⟨(s.cur.lane b i).toNat % 32, Nat.mod_lt _ (by decide)⟩),
  (.vshflUp d a b g, fun i => s.cur.lane a (laneOr i (-(b.toNat : Int)))), (.vshflDn d a b g, fun i => s.cur.lane a (laneOr i b.toNat)),
  (.vshflX d a b g, fun i => s.cur.lane a ⟨(i.val ^^^ b.toNat) % 32, Nat.mod_lt _ (by decide)⟩),
  (.vpopc d a g, fun i => BitVec.ofNat 32 (popCount 32 (s.cur.lane a i).toNat)),
  (.vclz d a g, fun i => if s.cur.lane a i = 0 then 32 else BitVec.ofNat 32 (31 - (s.cur.lane a i).toNat.log2)),
  (.vbrev d a g, fun i => BitVec.ofNat 32 (bitReverse 32 (s.cur.lane a i).toNat)), (.vlaneid d g, fun i => BitVec.ofNat 32 i.val),
  (.vbcast d a b g, fun _ => s.cur.lane a ⟨b.toNat % 32, Nat.mod_lt _ (by decide)⟩), (.vmovs d x g, fun _ => (s.cur.getS x).setWidth 32),
  (.vadds d a x g, fun i => s.cur.lane a i + (s.cur.getS x).setWidth 32), (.vmuls d a x g, fun i => s.cur.lane a i * (s.cur.getS x).setWidth 32)]

/-- The scalar functions of R127. -/
def scalarOps (d a b : BitVec 5) : List (Instr × (DWord → DWord → DWord)) := [
  (.sadd d a b, fun x y => x + y), (.ssub d a b, fun x y => x - y), (.smul d a b, fun x y => x * y),
  (.smulhS d a b, fun x y => BitVec.ofInt 64 (x.toInt * y.toInt / 2 ^ 64)),
  (.sdivS d a b, fun x y => if y = 0 then BitVec.allOnes 64 else BitVec.ofInt 64 (x.toInt.tdiv y.toInt)),
  (.sdivZ d a b, fun x y => if y = 0 then BitVec.allOnes 64 else BitVec.ofNat 64 (x.toNat / y.toNat)),
  (.sand d a b, fun x y => x &&& y), (.sor d a b, fun x y => x ||| y), (.sxor d a b, fun x y => x ^^^ y),
  (.sshl d a b, fun x y => if 64 ≤ y.toNat then 0 else x <<< y.toNat), (.sshrZ d a b, fun x y => if 64 ≤ y.toNat then 0 else x >>> y.toNat),
  (.sshrS d a b, fun x y => x.sshiftRight (if 64 ≤ y.toNat then 63 else y.toNat)),
  (.sminS d a b, fun x y => if x.toInt ≤ y.toInt then x else y), (.smaxS d a b, fun x y => if x.toInt ≤ y.toInt then y else x),
  (.seq d a b, fun x y => if x = y then 1 else 0), (.sltS d a b, fun x y => if x.toInt < y.toInt then 1 else 0),
  (.sltZ d a b, fun x y => if x.toNat < y.toNat then 1 else 0)]

/-- The least value of some words under an order, from an empty value (R91). -/
def foldWords (f : Word → Word → Word) (e : Word) (xs : List Word) : Word := xs.foldl f e

/-- Reductions that raise no flag (R125), as a function of the values of the active lanes in ascending order. -/
def reductions (d : BitVec 5) (a : BitVec 6) (g : BitVec 3) : List (Instr × (List Word → DWord)) := [
  (.redAdd d a g, fun xs => (foldWords (fun x y => x + y) 0 xs).setWidth 64),
  (.redMinS d a g, fun xs => (foldWords (fun x y => if x.toInt ≤ y.toInt then x else y) 0x7FFFFFFF xs).signExtend 64),
  (.redMaxS d a g, fun xs => (foldWords (fun x y => if x.toInt ≤ y.toInt then y else x) 0x80000000 xs).signExtend 64),
  (.redFmin d a g, fun xs => (foldWords (f32MinMax false) 0x7F800000 xs).setWidth 64),
  (.redFmax d a g, fun xs => (foldWords (f32MinMax true) 0xFF800000 xs).setWidth 64),
  (.redAnd d a g, fun xs => (foldWords (fun x y => x &&& y) 0xFFFFFFFF xs).setWidth 64),
  (.redOr d a g, fun xs => (foldWords (fun x y => x ||| y) 0 xs).setWidth 64)]

/-- The values of the lanes of a register in a mask, ascending. -/
def Flock.valuesIn (f : Flock) (a : BitVec 6) (m : Mask) : List Word := (lanes.filter fun i => m.on i).map (f.lane a)

/-- Reads of special registers and words into a scalar (R99, R130 to R132, R213 apart), for every flock. -/
def specialReads (s : State) (d : BitVec 5) (k : BitVec 9) : List (Instr × DWord) := [
  (.wfs d, BitVec.ofNat 64 s.workIdentifier), (.visit d, BitVec.ofNat 64 s.fold.visit), (.emget d, s.cur.em.setWidth 64),
  (.rdtime d, s.time),
  (.rdcnt d, BitVec.ofNat 64 (s.cur.count .loads + s.cur.count .stores * 2 ^ 8 + s.cur.count .copies * 2 ^ 16 + s.cur.count .tiles * 2 ^ 24)),
  (.pcount d, s.pcr), (.fcrget d, s.cur.fcr.setWidth 64),
  (.lpget d k,
    let l := s.cur.getLoop (k.extractLsb' 2 2)
    match (k.extractLsb' 0 2).toNat with
    | 0 => l.start.setWidth 64
    | 1 => l.fin.setWidth 64
    | 2 => l.count
    | _ => if l.armed then 1 else 0),
  (.rdenergy d, (s.ctx (s.agent s.cur).ctx).energy), (.rdgang d, s.gangWord)]

end Sys2Proof.Machine

open Sys2Proof Sys2Proof.Machine

/-- R119: every active lane gets f of the lanes of a and b, or of a and the immediate, in every one of the 32 functions; nothing else changes. -/
def Obligations.VectorIntegerResults : Prop :=
  (∀ (s : State) (d a b : BitVec 6) (g : BitVec 3), s.cur.active g = 0 ∨ s.VectorFree d →
    ∀ e ∈ integerOps d a b g, ∃ t, exec e.1 s = .next t ∧
      WritesLanes s t d (s.cur.active g) fun i => e.2 (s.cur.lane a i) (s.cur.lane b i)) ∧
  (∀ (s : State) (d a : BitVec 6) (i : BitVec 9), s.cur.em = 0 ∨ s.VectorFree d →
    ∀ e ∈ (integerImms d a i).zip ((integerOps d a a 0).map Prod.snd), ∃ t, exec e.1 s = .next t ∧
      WritesLanes s t d s.cur.em fun k => e.2 (s.cur.lane a k) (i.signExtend 32))

/-- R102 for its sixteen functions: d is the first source as well, the guard is p1 or none, the registers are v0 to v31. -/
def Obligations.CompactResults : Prop :=
  ∀ (s : State) (d a : BitVec 5) (g : BitVec 1),
    let r : BitVec 6 := d.setWidth 6
    let m := if g = 1 then s.cur.em &&& s.cur.getP 1 else s.cur.em
    m = 0 ∨ s.VectorFree r →
    (∀ e ∈ compactIntegers d a g ++ compactQuiet d a g, ∃ t, exec e.1 s = .next t ∧
      WritesLanes s t r m (fun i => e.2 (s.cur.lane r i) (s.cur.lane (a.setWidth 6) i)) 2) ∧
    (∀ e ∈ compactFloats d a g, ∃ t, exec e.1 s = .next t ∧
      WritesFlagged s t r m (fun i => e.2 s.cur.rm (s.cur.lane r i) (s.cur.lane (a.setWidth 6) i)) 2)

/-- R120 and R121: the float functions write their active lanes, and only those that round raise `of` and `nv`. -/
def Obligations.VectorFloatResults : Prop :=
  ∀ (s : State) (d a b : BitVec 6) (g : BitVec 3), s.cur.active g = 0 ∨ s.VectorFree d →
    (∀ e ∈ floatOps d a b g, ∃ t, exec e.1 s = .next t ∧
      WritesFlagged s t d (s.cur.active g) fun i => e.2 s.cur.rm (s.cur.lane d i) (s.cur.lane a i) (s.cur.lane b i)) ∧
    (∀ e ∈ quietOps d a b g, ∃ t, exec e.1 s = .next t ∧
      WritesLanes s t d (s.cur.active g) fun i => e.2 (s.cur.lane a i) (s.cur.lane b i))

/-- R122: an active bit of pd is the condition and every other bit keeps its value; p0 stays all ones (R94). -/
def Sys2Proof.Machine.CompareResults : Prop :=
  ∀ (s : State) (p : BitVec 3) (a b : BitVec 6) (g : BitVec 3), ∀ e ∈ compares p a b g, ∃ t x, exec e.1 s = .next t ∧
    WritesPredicate s t p x ∧
    ∀ i, (x.on i = true ↔ if (s.cur.active g).on i then e.2 (s.cur.lane a i) (s.cur.lane b i) else (s.cur.getP p).on i = true)

/-- R123: each active lane is converted under the control register in force, with its flags; a result of one byte keeps the others. A conversion to a
wider format keeps an infinity whatever the saturation bit says (the model's reading, log entry 83). -/
def Obligations.ConversionResults : Prop :=
  ∀ (s : State) (d a b : BitVec 6) (g : BitVec 3), s.cur.active g = 0 ∨ s.VectorFree d →
    ∀ e ∈ conversions d a b g, ∃ t, exec e.1 s = .next t ∧
      WritesFlagged s t d (s.cur.active g) fun i => e.2 s.cur (s.cur.lane a i) (s.cur.lane b i) (s.cur.lane d i)

/-- R124, R126 and R130: lane movement, broadcasts and scalar arithmetic on lanes write the active lanes; `vsel` chooses by a predicate over
every executing lane, `vmovs.lo` and `vmovs.hi` write one lane, `wfld` gives each lane a field of its work identifier (0 in a supervisor), and
`vfadds` and `vfmuls` raise flags. -/
def Obligations.LaneMovementResults : Prop :=
  ∀ (s : State) (d a b : BitVec 6) (x : BitVec 5) (g k : BitVec 3) (n : BitVec 6) (f : BitVec 9), s.VectorFree d →
    (∀ e ∈ laneMoves s d a b x g, ∃ t, exec e.1 s = .next t ∧ WritesLanes s t d (s.cur.active g) e.2) ∧
    (∃ t, exec (.vsel d a b k) s = .next t ∧
      WritesLanes s t d s.cur.em fun i => if (s.cur.getP k).on i then s.cur.lane a i else s.cur.lane b i) ∧
    (∃ t, exec (.vmovsLo d x n g) s = .next t ∧
      WritesLanes s t d (s.cur.active g &&& (1#32 <<< n.toNat)) fun _ => (s.cur.getS x).setWidth 32) ∧
    (∃ t, exec (.vmovsHi d x n g) s = .next t ∧
      WritesLanes s t d (s.cur.active g &&& (1#32 <<< n.toNat)) fun _ => (s.cur.getS x).extractLsb' 32 32) ∧
    (∃ t, exec (.wfld d f) s = .next t ∧
      WritesLanes s t d s.cur.em fun i => match s.launch with
        | some l => BitVec.ofNat 32 (l.hdr.workField s.cur.field s.fold.index i.val f.toNat)
        | none => 0) ∧
    (∃ t, exec (.vfadds d a x g) s = .next t ∧
      WritesFlagged s t d (s.cur.active g) fun i => f32Add s.cur.rm (s.cur.lane a i) ((s.cur.getS x).setWidth 32)) ∧
    (∃ t, exec (.vfmuls d a x g) s = .next t ∧
      WritesFlagged s t d (s.cur.active g) fun i => f32Mul s.cur.rm (s.cur.lane a i) ((s.cur.getS x).setWidth 32))

/-- R124: the functions that write whole predicates, and `pmov`, `smovv` into a scalar (R126). -/
def Sys2Proof.Machine.PredicateResults : Prop :=
  ∀ (s : State) (p q r : BitVec 3) (a n : BitVec 6) (x : BitVec 5) (g : BitVec 3),
    (∃ t y, exec (.ballot p a g) s = .next t ∧ WritesPredicate s t p y ∧
      ∀ i, y.on i = ((s.cur.active g).on i && decide (s.cur.lane a i ≠ 0))) ∧
    (∃ t, exec (.pmovFromScalar p x) s = .next t ∧ WritesPredicate s t p ((s.cur.getS x).setWidth 32)) ∧
    (∃ t, exec (.pand p q r) s = .next t ∧ WritesPredicate s t p (s.cur.getP q &&& s.cur.getP r)) ∧
    (∃ t, exec (.por p q r) s = .next t ∧ WritesPredicate s t p (s.cur.getP q ||| s.cur.getP r)) ∧
    (∃ t, exec (.pnot p q) s = .next t ∧ WritesPredicate s t p (~~~ s.cur.getP q)) ∧
    (s.ScalarFree x →
      (∃ t, exec (.pmovToScalar x p) s = .next t ∧ WritesScalar s t x ((s.cur.getP p).setWidth 64)) ∧
      (∃ t, exec (.smovv x a n) s = .next t ∧
        WritesScalar s t x ((s.cur.lane a ⟨n.toNat % 32, Nat.mod_lt _ (by decide)⟩).setWidth 64)))

/-- The conditions of R122 and what R124 says of predicates, as two parts. -/
def Obligations.ConditionAndPredicateResults : Prop := CompareResults ∧ PredicateResults

/-- R125 with the orders of R91: a reduction writes its scalar even when no lane is active, with the empty value of its row. -/
def Sys2Proof.Machine.ReductionResults : Prop :=
  ∀ (s : State) (d : BitVec 5) (a : BitVec 6) (g : BitVec 3), s.ScalarFree d →
    let m := s.cur.active g
    (∀ e ∈ reductions d a g, ∃ t, exec e.1 s = .next t ∧ WritesScalar s t d (e.2 (s.cur.valuesIn a m))) ∧
    (∃ t, exec (.redFadd d a g) s = .next t ∧
      let r := treeSum s.cur.rm 5 (lanes.map fun i => if m.on i then s.cur.lane a i else 0x80000000) false false
      t.cur.getS d = (if d = 0 then 0 else r.val.setWidth 64) ∧ (∀ k, k ≠ d → t.cur.getS k = s.cur.getS k) ∧
      t.cur.fcr = s.cur.fcr ||| (if r.ofl then 0x200 else 0) ||| (if r.nv then 0x100 else 0) ∧
      t = { s with cur := { s.cur.advance 4 with s := t.cur.s, fcr := t.cur.fcr } }) ∧
    (s.ScalarFree (d + 1) → ∃ t, exec (.redFadd2 d a g) s = .next t ∧
      let r := (s.cur.valuesIn a m).foldl twoSum { s := 0x80000000, c := 0 }
      (d ≠ 0 → t.cur.getS d = r.s.setWidth 64) ∧ (d + 1 ≠ 0 → t.cur.getS (d + 1) = r.c.setWidth 64) ∧
      (∀ k, k ≠ d → k ≠ d + 1 → t.cur.getS k = s.cur.getS k) ∧
      t = { s with cur := { s.cur.advance 4 with s := t.cur.s } })

/-- R125 with R91: in an active lane a scan gives the sum of the active lanes up to that lane, in ascending order. -/
def Sys2Proof.Machine.ScanResults : Prop :=
  ∀ (s : State) (d a : BitVec 6) (g : BitVec 3), s.cur.active g = 0 ∨ s.VectorFree d →
    let m := s.cur.active g
    let upto := fun (i : Fin 32) => (lanes.filter fun k => m.on k && decide (k ≤ i)).map (s.cur.lane a)
    (∃ t, exec (.scanAdd d a g) s = .next t ∧ WritesLanes s t d m fun i => (upto i).foldl (fun x y => x + y) 0) ∧
    (∃ t, exec (.scanFadd d a g) s = .next t ∧
      WritesFlagged s t d m fun i => (upto i).foldl (fun x y => f32Add s.cur.rm x.val y) { val := 0x80000000 })

/-- Reductions and scans (R91, R125), as two parts. -/
def Obligations.ReductionAndScanResults : Prop := ReductionResults ∧ ScanResults

/-- R127 and R128: the scalar functions, with division by zero giving all ones, and the immediate forms; s0 discards its result (R94). -/
def Sys2Proof.Machine.ScalarResults : Prop :=
  ∀ (s : State) (d a b : BitVec 5) (i : BitVec 15), s.ScalarFree d →
    (∀ e ∈ scalarOps d a b, ∃ t, exec e.1 s = .next t ∧ WritesScalar s t d (e.2 (s.cur.getS a) (s.cur.getS b))) ∧
    (∃ t, exec (.saddi d a i) s = .next t ∧ WritesScalar s t d (s.cur.getS a + i.signExtend 64)) ∧
    (∃ t, exec (.sins d a i) s = .next t ∧ WritesScalar s t d ((s.cur.getS a <<< 15) ||| i.setWidth 64))

/-- R129: address arithmetic modulo 2^72 with scalars sign-extended; a0 discards its result (R94). -/
def Sys2Proof.Machine.AddressResults : Prop :=
  ∀ (s : State) (d a b : BitVec 4) (x k : BitVec 5),
    (s.AddressFree d →
      (∃ t, exec (.aadd d a x) s = .next t ∧ WritesAddress s t d (s.cur.getA a + (s.cur.getS x).signExtend 72)) ∧
      (∃ t, exec (.asub d a x) s = .next t ∧ WritesAddress s t d (s.cur.getA a - (s.cur.getS x).signExtend 72)) ∧
      (∃ t, exec (.amov d a) s = .next t ∧ WritesAddress s t d (s.cur.getA a)) ∧
      (∃ t, exec (.aset d x) s = .next t ∧ WritesAddress s t d ((s.cur.getS x).setWidth 72)) ∧
      (∃ t, exec (.ahi d a x) s = .next t ∧ WritesAddress s t d ((s.cur.getS x).setWidth 8 ++ (s.cur.getA a).setWidth 64))) ∧
    (s.ScalarFree x →
      (∃ t, exec (.aget x a k) s = .next t ∧
        WritesScalar s t x (if k = 0 then (s.cur.getA a).setWidth 64 else ((s.cur.getA a) >>> 64).setWidth 64)) ∧
      (∃ t, exec (.acmp x a b) s = .next t ∧
        WritesScalar s t x ((if s.cur.getA a = s.cur.getA b then 1 else 0) + if s.cur.getA a < s.cur.getA b then 2 else 0)))

/-- Scalar and address arithmetic (R127 to R129), as two parts. -/
def Obligations.ScalarAndAddressResults : Prop := ScalarResults ∧ AddressResults

/-- R130 and R99: what the reads of special registers give, in a flock of a fold and in a supervisor; `rdcore` traps instead under the
deterministic flag (R132). That `rdenergy` gives a supervisor the counter of the context for which it acts, or else of its own, is the model's
reading (log entries 47 and 8). -/
def Sys2Proof.Machine.SpecialReadResults : Prop :=
  ∀ (s : State) (d : BitVec 5) (k : BitVec 9), s.ScalarFree d →
    (∀ e ∈ specialReads s d k, ∃ t, exec e.1 s = .next t ∧ WritesScalar s t d e.2) ∧
    (s.determ = false → ∃ t, exec (.rdcore d) s = .next t ∧
      WritesScalar s t d (BitVec.ofNat 64 (s.cur.core + (if s.cur.supervises then 0 else s.fold.position) * 512))) ∧
    (s.determ = true → exec (.rdcore d) s = .next (s.takeTrap { kind := 0x05 } s.cur.pc))

/-- R130 and R75: writes of the execution mask and of the control register; `emand` and `emor` give the mask as it was, and `fcrput` writes
bits 9:8 and 2:0 only. -/
def Sys2Proof.Machine.MaskAndControlWrites : Prop :=
  ∀ (s : State) (a d : BitVec 5) (p : BitVec 3),
    (∃ t, exec (.emput a) s = .next t ∧ t.cur.em = (s.cur.getS a).setWidth 32 ∧
      t = { s with cur := { s.cur.advance 4 with em := t.cur.em } }) ∧
    (∃ t, exec (.fcrput a) s = .next t ∧
      t.cur.fcr = (s.cur.fcr &&& 0xFFFFFCF8) ||| ((s.cur.getS a).setWidth 32 &&& 0x307) ∧
      t = { s with cur := { s.cur.advance 4 with fcr := t.cur.fcr } }) ∧
    (s.ScalarFree d → ∀ e ∈ [(Instr.emand d p, s.cur.em &&& s.cur.getP p), (Instr.emor d p, s.cur.em ||| s.cur.getP p)],
      ∃ t, exec e.1 s = .next t ∧ t.cur.em = e.2 ∧ t.cur.getS d = (if d = 0 then 0 else s.cur.em.setWidth 64) ∧
        (∀ r, r ≠ d → t.cur.getS r = s.cur.getS r) ∧
        t = { s with cur := { s.cur.advance 4 with em := t.cur.em, s := t.cur.s } })

/-- Reads of special registers, and writes of the execution mask and of `fcr`, as two parts. -/
def Obligations.SpecialRegisterResults : Prop := SpecialReadResults ∧ MaskAndControlWrites

namespace Sys2Proof.Machine

/-- The system registers that no instruction writes (R234). -/
def readOnlyRegisters : List (BitVec 6) := [0, 3, 4, 5, 14, 15, 20, 21, 22, 23]

end Sys2Proof.Machine

/-- R133 and R134: a branch is taken by its predicate under the execution mask, `jal` and `jalr` link bits 63:0 of the address after them, and a
jump keeps bits 71:64 of its own address; no loop level is matched. -/
def Sys2Proof.Machine.BranchesAndCalls : Prop :=
  ∀ (s : State) (p : BitVec 3) (o : BitVec 20) (d a : BitVec 5),
    let target := s.cur.pc + (o.signExtend 72 <<< 1)
    let far := s.cur.pc.extractLsb' 64 8 ++ s.cur.getS a
    let goes := fun (x : Addr) => Host.Outcome.next (ρ := Refusal) (φ := Fault) { s with cur := { s.cur with pc := x } }
    exec (.br o) s = goes target ∧
    (∀ e ∈ [(Instr.brAny p o, s.cur.getP p &&& s.cur.em ≠ 0), (Instr.brAll p o, s.cur.getP p &&& s.cur.em = s.cur.em),
        (Instr.brNone p o, s.cur.getP p &&& s.cur.em = 0)],
      (e.2 → exec e.1 s = goes target) ∧ (¬ e.2 → ∃ t, exec e.1 s = .next t ∧ OnlyFlow s t)) ∧
    (far.getLsbD 0 = false → exec (.jr a) s = goes far) ∧
    (far.getLsbD 0 = true → exec (.jr a) s = .next (s.illegal 0x08 s.currentWord) ∧
      exec (.jalr d a) s = .next (s.illegal 0x08 s.currentWord)) ∧
    (s.ScalarFree d →
      let links := fun (t : State) (x : Addr) => t.cur.getS d = (if d = 0 then 0 else (s.cur.pc + 4).setWidth 64) ∧
        (∀ r, r ≠ d → t.cur.getS r = s.cur.getS r) ∧ t = { s with cur := { s.cur with s := t.cur.s, pc := x } }
      (∃ t, exec (.jal d o) s = .next t ∧ links t target) ∧
      (far.getLsbD 0 = false → ∃ t, exec (.jalr d a) s = .next t ∧ links t far))

/-- R136: an instruction that does not redirect goes on by `State.goOn` with its length: a 16-bit and a 32-bit instruction here, every other in the
statements of its result. There the innermost level that ends at the instruction with a count above 1 sends the flow back and counts down, levels
within it that end there are disarmed, and without such a level the next instruction follows; in a routine no level is looked at (R294). Nothing but
the program counter and the loop levels changes. -/
def Obligations.NextAddress : Prop :=
  ∀ (s : State) (d a : BitVec 5) (g : BitVec 1), s.VectorFree (d.setWidth 6) →
    let hit := fun (l : BitVec 2) => (s.cur.getLoop l).armed = true ∧ (s.cur.getLoop l).fin = s.cur.pc
    let spent := fun (l : BitVec 2) => { s.cur.getLoop l with count := 0, armed := false }
    exec .nop s = .next (s.goOn 4) ∧
    (∃ t, exec (.compactMov d a g) s = .next t ∧ t.cur.pc = (s.goOn 2).cur.pc ∧ t.cur.loops = (s.goOn 2).cur.loops) ∧
    ∀ e ∈ [(4, (4 : Addr)), (2, 2)],
      let t := s.goOn e.1
      t = { s with cur := { s.cur with pc := t.cur.pc, loops := t.cur.loops } } ∧
      (s.cur.routine ≠ .none → t.cur.pc = s.cur.pc + e.2 ∧ t.cur.loops = s.cur.loops) ∧
      (s.cur.routine = .none → (∀ j, hit j → (s.cur.getLoop j).count ≤ 1) →
        t.cur.pc = s.cur.pc + e.2 ∧ ∀ j, (hit j → t.cur.getLoop j = spent j) ∧ (¬ hit j → t.cur.getLoop j = s.cur.getLoop j)) ∧
      (s.cur.routine = .none → ∀ k, hit k → 1 < (s.cur.getLoop k).count →
        (∀ j, k < j → hit j → (s.cur.getLoop j).count ≤ 1) →
        t.cur.pc = (s.cur.getLoop k).start ∧
        t.cur.getLoop k = { s.cur.getLoop k with count := (s.cur.getLoop k).count - 1 } ∧
        ∀ j, j ≠ k → (k < j ∧ hit j → t.cur.getLoop j = spent j) ∧ (¬ (k < j ∧ hit j) → t.cur.getLoop j = s.cur.getLoop j))

/-- R135 and R137: `loop` with a count arms its level from the next instruction to its end; with count 0 it disarms the level and goes past the
instruction at the end; `lbrk` disarms its level and those above; inside a routine both do nothing (R294). -/
def Sys2Proof.Machine.LoopInstructions : Prop :=
  ∀ (s : State) (l : BitVec 2) (c : BitVec 5) (i : BitVec 1) (e : BitVec 17),
    let fin := s.cur.pc + (e.setWidth 72 <<< 1)
    let count := if i = 1 then c.setWidth 64 else s.cur.getS c
    (s.cur.routine ≠ .none → ∀ x ∈ [Instr.loop l c i e, Instr.lbrk l], ∃ t, exec x s = .next t ∧ OnlyFlow s t) ∧
    (s.cur.routine = .none → count ≠ 0 → exec (.loop l c i e) s =
      .next (State.advance { s with cur := s.cur.setLoop l { start := s.cur.pc + 4, fin := fin, count := count, armed := true } })) ∧
    (s.cur.routine = .none → count = 0 → ∀ h, s.FetchesHalf 4 fin h → exec (.loop l c i e) s =
      .next { s with cur := { s.cur.setLoop l { s.cur.getLoop l with count := 0, armed := false } with
        pc := fin + if h.getLsbD 0 then 4 else 2 } }) ∧
    (s.cur.routine = .none → exec (.lbrk l) s = .next (State.advance { s with cur := { s.cur with
      loops := Vector.ofFn fun k : Fin 4 =>
        if l.toNat ≤ k.val then { s.cur.loops[k.val] with count := 0, armed := false } else s.cur.loops[k.val] } }))

/-- Branches, calls, jumps and the loop instructions, as two parts. -/
def Obligations.ControlFlowResults : Prop := BranchesAndCalls ∧ LoopInstructions

/-- R139, R140 and R165: a wait or a fence whose condition holds goes on, and one whose condition does not blocks with nothing changed. A fence of
domain or system scope also writes back the lines of other devices, and one that orders loads drops the copies of them (R257); `ifence` discards the
code that the flock and its core's cache hold (R170). -/
def Sys2Proof.Machine.WaitsAndFences : Prop :=
  ∀ (s : State) (l c : BitVec 5) (x y : BitVec 4) (sc : BitVec 3) (o : BitVec 2),
    let low := s.cur.count .loads ≤ l.toNat ∧ s.cur.count .stores ≤ c.toNat ∧ s.cur.count .copies ≤ x.toNat ∧ s.cur.count .tiles ≤ y.toNat
    let quietMem := (o.getLsbD 0 = true → s.cur.count .loads = 0) ∧ (o.getLsbD 1 = true → s.cur.count .stores = 0)
    (low → ∃ t, exec (.wait l c x y) s = .next t ∧ OnlyFlow s t) ∧
    (¬ low → ∃ t, exec (.wait l c x y) s = .next t ∧ Blocks s t (.wait l.toNat c.toNat x.toNat y.toNat)) ∧
    (quietMem → ∃ t, exec (.fence sc o) s = .next t ∧
      OnlyFlow (s.fenced sc o) t ∧ s.fenced sc o =
      if 4 ≤ sc.toNat then (if o.getLsbD 0 = true then s.refreshRemote else s.flushRemote) else s) ∧
    (¬ quietMem → ∃ t, exec (.fence sc o) s = .next t ∧ Blocks s t (.fence o)) ∧
    (∃ t, exec .nop s = .next t ∧ OnlyFlow s t) ∧
    ∃ t, exec .ifence s = .next t ∧ OnlyFlow { s with code := t.code } t ∧
      ∀ c, c ∈ t.code ↔ c ∈ s.code ∧ c.1 ≠ .core s.cur.core ∧ c.1 ≠ .flock s.cur.id

/-- R141: a barrier waits for the flock's stores, then the flock has arrived; `commit` arrives with its buffer where the launch holds one, and
`bar.cl` at the gang's barrier where the fold is in a gang. A supervisor passes (the model's choice, log entry 14). -/
def Sys2Proof.Machine.BarrierArrival : Prop :=
  ∀ (s : State), ∀ e ∈ [(Instr.bar, false, false), (.barCl, s.ganged, false), (.commit, false, s.buffered)],
    (s.cur.count .stores ≠ 0 → ∃ t, exec e.1 s = .next t ∧ Blocks s t .storesDone) ∧
    (s.cur.count .stores = 0 → s.cur.supervises = false → exec e.1 s = .next { s with cur := { s.cur with status := .barrier e.2.1 e.2.2 } }) ∧
    (s.cur.count .stores = 0 → s.cur.supervises = true → ∃ t, exec e.1 s = .next t ∧ OnlyFlow s t)

/-- R142, R143, R168 and R236: `halt` begins the flock's end; `sleep` and `mwait` end at once on a pending wake, a time reached or a set event
bit, and otherwise wait; `mwait` without an armed monitor goes on, and one in which a trap found the flock returns when the flock comes back to it. -/
def Sys2Proof.Machine.HaltAndSleep : Prop :=
  ∀ (s : State) (k : BitVec 5),
    let till := s.cur.getS k
    let ended := s.cur.routine = .none ∧ s.cur.waitedAt = some s.cur.pc
    let returned := { s with cur := { s.cur with
      wakePending := false, monitor := { s.cur.monitor with event := false }, waitedAt := if s.cur.routine = .none then none else s.cur.waitedAt } }
    exec .halt s = .next { s with cur := { s.cur with status := .halting } } ∧
    (s.cur.wakePending = true → ∃ t, exec (.sleep k) s = .next t ∧ OnlyFlow { s with cur := { s.cur with wakePending := false } } t) ∧
    (s.cur.wakePending = true ∨ ended → ∃ t, exec .mwait s = .next t ∧ OnlyFlow returned t) ∧
    (s.cur.wakePending = false →
      (till ≠ 0 ∧ till ≤ s.time → ∃ t, exec (.sleep k) s = .next t ∧ OnlyFlow s t) ∧
      (¬ (till ≠ 0 ∧ till ≤ s.time) → exec (.sleep k) s = .next { s with cur := { s.cur with status := .sleeping till } })) ∧
    (s.cur.wakePending = false → ¬ ended →
      (s.cur.monitor.armed = false → ∃ t, exec .mwait s = .next t ∧ OnlyFlow s t) ∧
      (s.cur.monitor.armed = true → s.cur.monitor.event = true → ∃ t, exec .mwait s = .next t ∧ OnlyFlow returned t) ∧
      (s.cur.monitor.armed = true → s.cur.monitor.event = false → exec .mwait s = .next { s with cur := { s.cur with status := .waiting } }))

/-- Instructions that may wait, as three parts. -/
def Obligations.WaitingResults : Prop := WaitsAndFences ∧ BarrierArrival ∧ HaltAndSleep

/-- R144 with R138, R285 and R293: `trap` and `sys` complete and save the next address, `brk` saves its own; each enters `tvec` privileged, with
its kind and code in `ecause`. -/
def Obligations.SoftwareTraps : Prop :=
  ∀ (s : State) (n : BitVec 6), s.MayTrap →
    let tvec := (s.ctx s.cur.ctx).tvec
    (∀ e ∈ [(Instr.trap n, 2), (.sys n, 3)], ∃ t, exec e.1 s = .next t ∧
      Entered s.advance t .trap tvec s.advance.cur.pc (BitVec.ofNat 64 (n.toNat * 2 ^ 24 + e.2)) 0) ∧
    (∃ t, exec (.brk n) s = .next t ∧ Entered s t .trap tvec s.cur.pc (BitVec.ofNat 64 (n.toNat * 2 ^ 24 + 4)) 0)

/-- R110, R112 and R293: an illegal instruction saves its own address and enters `tvec`, with the cause in `ecause` bits 31:24 and with cause and
encoding in `tinfo`; one that a routine meets, or that finds `tvec` 0, ends the supervisor or the launch. Nothing happens in a flock that does not
run, and none with another encoding than the one that is fetched. -/
def Sys2Proof.Machine.IllegalInstructionTrap : Prop :=
  (∀ (s : State) (cause : BitVec 8) (w : BitVec 32), s.cur.status ≠ .running → exec (.illegalInstruction cause w) s = .next s) ∧
  ∀ (s : State) (cause : BitVec 8) (e : Enc), s.cur.status = .running →
    (match e with | .half h => h.getLsbD 0 = false | .word w => w.getLsbD 0 = true) → s.Fetches e →
    (∀ w, w ≠ Enc.pattern e → exec (.illegalInstruction cause w) s = .next s) ∧
    let w := Enc.pattern e
    let u : State := { s with cur := { s.cur with tinfo := BitVec.ofNat 64 (cause.toNat * 2 ^ 32 + w.toNat) } }
    (s.MayTrap → ∃ t, exec (.illegalInstruction cause w) s = .next t ∧
      Entered u t .trap (s.ctx s.cur.ctx).tvec s.cur.pc (BitVec.ofNat 64 (cause.toNat * 2 ^ 24 + 1)) 0) ∧
    (¬ s.MayTrap → s.cur.supervises = true →
      exec (.illegalInstruction cause w) s = .next { u with cur := { u.cur with status := .ended } }) ∧
    (¬ s.MayTrap → s.cur.supervises = false → exec (.illegalInstruction cause w) s = .next (u.closeLaunch s.fold.launch 0x14))

/-- R301: a halfword that cannot be fetched raises the fault that its translation finds, at the program counter, and `tinfo` keeps its value;
one that can be fetched raises none, nor does a flock that does not run. R303: a line in error, its own or that of a table entry of its translation,
gives a machine check with its record and `dpc`; that it is taken at once, at the address of the instruction and with the access code of the fetch, is
the model's reading (log entry 60), and so are the record's other fields (log entry 131). -/
def Sys2Proof.Machine.FetchFault : Prop :=
  (∀ (s : State) (second : Bool), s.cur.status ≠ .running → exec (.fetchFault second) s = .next s) ∧
  ∀ (s : State) (second : Bool), s.cur.status = .running → (second = true → ∃ h, s.FetchesHalf 4 s.cur.pc h ∧ h.getLsbD 0 = true) →
    let code : BitVec 8 := if second then 5 else 4
    let va := if second then s.cur.pc + 2 else s.cur.pc
    let checked := fun (f : TrapInfo) => Host.Outcome.next (ρ := Refusal) (φ := Fault)
      ((s.errorRecord s.cur.ctx 0 0 4 0 0).takeTrap f s.cur.pc (some s.cur.pc))
    (∀ h, s.FetchesHalf code va h → exec (.fetchFault second) s = .next s) ∧
    (∀ f, s.translate (s.agent s.cur) { x := true, code := code } va = .error (.soft f) → f.kind = 0x30 → exec (.fetchFault second) s = checked f) ∧
    (∀ f, s.translate (s.agent s.cur) { x := true, code := code } va = .error (.trap f) → f.kind ≠ 0x30 →
      exec (.fetchFault second) s = .next (s.takeTrap f s.cur.pc)) ∧
    (∀ pa l, s.translate (s.agent s.cur) { x := true, code := code } va = .ok (pa, l) → s.heldCode pa = none →
      SoftErrorPlace.line (pa / 64 * 64) ∈ s.broken →
      exec (.fetchFault second) s = checked { kind := 0x30, access := code, addr := va })

/-- Illegal instructions and fetch faults, as two parts. -/
def Obligations.PreciseInstructionTraps : Prop := IllegalInstructionTrap ∧ FetchFault

/-- R109, R111, R144 and R294: `eret` returns a privileged flock from its routine to `epc`, with `em` and `fcr` as they are and a supervisor still
privileged; a pre-emption that waited is entered at once (R296; before a deferred fault that waits too: the model's choice, log entry
120); the end of a gang-abort routine ends the flock (R312); an odd `epc` is cause 8,
and a flock that may not return is cause 6. -/
def Obligations.ReturnFromRoutine : Prop :=
  ∀ (s : State),
    (s.cur.epc.getLsbD 0 = true → exec .eret s = .next (s.illegal 0x08 s.currentWord)) ∧
    (s.cur.epc.getLsbD 0 = false → (s.cur.privileged = false ∨ s.cur.routine = .none) →
      exec .eret s = .next (s.illegal 0x06 s.currentWord)) ∧
    (s.cur.epc.getLsbD 0 = false → s.cur.privileged = true → s.cur.routine ≠ .none →
      (s.cur.routine = .gangAbort → exec .eret s = .next { s with cur := { s.cur with status := .ended, routine := .none } }) ∧
      (s.cur.routine ≠ .gangAbort → s.cur.preempt = false → exec .eret s = .next { s with cur := { s.cur with
        pc := s.cur.epc, routine := .none, privileged := s.cur.supervises
        waitedAt := if s.cur.waitedAt = some s.cur.epc then s.cur.waitedAt else none } }) ∧
      (s.cur.routine ≠ .gangAbort → s.cur.preempt = true → ∃ t, exec .eret s = .next t ∧
        Entered { s with cur := { s.cur with preempt := false } } t .save (s.ctx s.cur.ctx).svec s.cur.epc 0x31 0))

/-- R109 and R111: every privileged function, in a flock that is not privileged, is an illegal instruction and has none of its effect: with cause 6,
or with the cause that comes before it where `sset` names a read-only register (4) and where `sget` or `sset` names a number that no register
has (8). -/
def Sys2Proof.Machine.PrivilegedFunctions : Prop :=
  ∀ (s : State) (a b c d : BitVec 5) (n : BitVec 6) (f : BitVec 1), s.cur.privileged = false →
    let traps := fun (i : Instr) (cause : BitVec 8) => exec i s = .next (s.illegal cause s.currentWord)
    (∀ i ∈ [Instr.tlbinv a b c, .tlbinvc a f, .fabort d, .snap d a, .faultDone a b], traps i 0x06) ∧
    (n.toNat < 24 → traps (.sget d n) 0x06 ∧ traps (.sset a n) (if n ∈ readOnlyRegisters then 0x04 else 0x06)) ∧
    (24 ≤ n.toNat → traps (.sget d n) 0x08 ∧ traps (.sset a n) 0x08)

namespace Sys2Proof.Machine

/-- What a step answers where an agent's act gives a result. -/
def State.after (s : State) (r : Result) : Result :=
  match r with
  | .next t => .next (s.settled t)
  | r => r

end Sys2Proof.Machine

/-- A step of a flock that issues runs the instruction that its program counter holds (R100, R301); where the bits are no instruction it runs the
illegal-instruction event with their cause (R110). What the step leaves besides is `State.settled`. A flock issues 64 instructions in a row at most
before other agents have their turn (the model's own bound, log entry 64), and none while a fetch of its own waits for a token at its core's port (R314). -/
def Sys2Proof.Machine.StepRunsInstruction : Prop :=
  ∀ (s : State) (e : Enc), s.agenda = [] → s.stopped = false → s.cur.status = .running → s.cur.deliverable = none → s.beat < 64 →
    s.atPort (.fetch s.cur.id) = false →
    (match e with | .half h => h.getLsbD 0 = false | .word w => w.getLsbD 0 = true) → s.Fetches e →
    (∀ i, decodeEnc e = .ok i → step s = s.after (exec i s)) ∧
    (∀ c, decodeEnc e = .illegal c →
      step s = s.after (exec (.illegalInstruction c (match e with | .half h => h.setWidth 32 | .word w => w)) s))

/-- The agenda comes first (the model's own choice of what happens next, log entry 1): an event on it happens, and it becomes shorter; an illegal
instruction is one only with the cause that the decoder finds in what the flock fetches (R112). Flocks that it lets act on dependency counters in one
cycle do so in the order of R31 (log entry 139). Without one a flock that does not issue, or whose turn
is over, leaves the step to the schedule. -/
def Sys2Proof.Machine.StepRunsAgenda : Prop :=
  ∀ (s : State),
    (∀ (i : Instr) (rest : List Move), s.agenda = .act i :: rest →
      let u : State := { s with agenda := rest }
      (i.isEvent = true → (∀ c w, i ≠ .illegalInstruction c w) → step s = s.after (exec i u)) ∧
      (i.isEvent = false → step s = s.after (.next u)) ∧
      (∀ c w e, i = .illegalInstruction c w → (match e with | .half h => h.getLsbD 0 = false | .word w => w.getLsbD 0 = true) → u.Fetches e →
        (decodeEnc e = .illegal c → step s = s.after (exec i u)) ∧
        (decodeEnc e ≠ .illegal c → step s = s.after (.next u)))) ∧
    (∀ (fs : List Nat) (rest : List Move), s.agenda = .together fs :: rest → step s = s.after (State.together { s with agenda := rest } fs)) ∧
    (s.agenda = [] → (s.stopped = true ∨ s.cur.status ≠ .running ∨ s.cur.deliverable ≠ none ∨ 64 ≤ s.beat ∨ s.atPort (.fetch s.cur.id) = true) →
      step s = s.after s.schedule)

/-- What every step leaves besides its own effect: a read of what another fold of the launch wrote breaks R58, and where a step changes memory the outputs of
a launch that broke it are unknown (R59, log entry 49);
launches whose instant to be ready has come are marked (R30); a core whose status word has changed has
the new one to write (R323), with the reasons of a wake (R322, log entry 86), and a reason that comes in the same cycle may join the last; when a span of
10 µs ends the copies of the energy counters of live contexts are rewritten (R327); what a fold held in a granule before the step changed it is kept with
the granule, and nothing else is (R260); the lines that the step reads are the last used, and where a set of the L2 holds more than it has room for its
unleased lines leave, the least recently used first (R1, R270, R272, R274; what is known of it is the model's choice, log entry 123); and the turns are
counted. Where nothing of this is due, nothing but the turns, the mesh ports and the order of use changes. -/
def Sys2Proof.Machine.StepSettles : Prop :=
  ∀ (s t : State),
    let u := s.settled t
    let r := t.noteReads (s.foldReads t)
    let b := s.settleBreaches r
    (r = { t with launches := r.launches } ∧
      (∀ l ∈ t.launches, ∃ m ∈ r.launches, m = { l with spoiled := m.spoiled, strays := m.strays } ∧
        let alien := fun (a : Nat) => ∃ x ∈ s.newPlaces t PendOp.readsMemory, x.2 = a ∧ ∃ f, t.anyFold? x.1 = some f ∧ f.launch = l.id ∧
          ∃ v, v ≠ f.visit ∧ (v, a) ∈ l.wrote
        ((∀ a, ¬ alien a) → m = l) ∧ ((∃ a, alien a) → m.spoiled = true ∧ (∀ a, alien a → a ∈ m.strays) ∧ ∀ a ∈ l.strays, a ∈ m.strays)) ∧
      OnlyMemory r b ∧ ((∀ l ∈ r.launches, l.strays = []) → b = r) ∧
      ∀ l ∈ r.launches, (∀ k ∈ r.launches, k.strays ≠ [] → k = l) → l.strays ≠ [] →
        (s.mem ≠ t.mem ∨ ∀ k, s.launch? l.id = some k → k.strays ≠ l.strays) → t.Canonical →
        ∀ a ∈ r.outputs l, t.hardwareWord a = none → t.ignored a = false → ∃ n, b.read a = Config.freeByte n) ∧
    u = { b with
      cur := { b.cur with monitor := u.cur.monitor }, flocks := u.flocks, mem := u.mem, remote := u.remote, clean := u.clean, tags := u.tags
      dirty := u.dirty, inFlight := u.inFlight, used := u.used
      snapshots := u.snapshots, commands := u.commands, plewick := u.plewick, free := u.free, launches := u.launches, cores := u.cores
      beat := u.beat, round := u.round } ∧
    (∃ v : State, v = { b with
        launches := b.launches.map (fun l => if b.mayReady l then { l with due := true } else l), cores := v.cores, free := v.free } ∧
      let w := if s.time.toNat / 10000 = t.time.toNat / 10000 then v else
        (v.contexts.filter fun c => decide (c.1 < 512) && v.stateOf c.1 != 0).foldl (fun w c => w.refreshEnergy c.1) v
      ∃ (x : State) (seen : List Nat), x = { w with used := x.used, free := x.free } ∧
        (∀ l ∈ seen, l ∈ s.reached w ∧ l ∈ w.cachedLines) ∧ (∀ l ∈ s.reached w, l ∈ w.cachedLines → isFar l = true → l ∈ seen) ∧
        x.used = (w.touchLines seen).used.filter (fun l => w.cachedLines.contains l) ∧
        u = { x.fitCaches with beat := u.beat, round := u.round } ∧ u.crowded = none ∧
        (x.crowded = none → u = { x with beat := u.beat, round := u.round }) ∧
        (∀ ls, x.crowded = some ls → ∃ l ∈ ls, l ∉ u.cachedLines ∧ (l ∈ x.used → ∀ k ∈ ls, k ∈ x.used ∧ x.used.idxOf l ≤ x.used.idxOf k)) ∧
        (w.Canonical → ∀ l ∈ w.cachedLines, isFar l = false → w.leasedLine l = true → l ∈ u.cachedLines)) ∧
    (b.plewick.sealed = true → ∀ n, n < 260 →
      let base := b.coreStatus n 0
      let why := s.wakeReasons b n true
      let new := if (b.core n).shown = some base then [] else
        [base + (if s.gated n = true ∧ b.gated n = false then s.wakeReasons b n false else 0) * 65536]
      (u.core n).shown = some base ∧
      ((u.core n).due = (b.core n).due ++ new ∨ ∃ l w, (b.core n).due = l ++ [w] ∧ w / 65536 % 256 ≠ 0 ∧ why ≠ 0 ∧ s.gated n = false ∧
        (b.core n).wokeAt = some b.time ∧ (u.core n).due = l ++ [w % 65536 + (w / 65536 % 256 ||| why) * 65536] ++ new)) ∧
    (∀ n, (u.core n).granules.map (fun g => g.owner) = (t.core n).granules.map fun g => g.owner) ∧
    (∀ f ∈ t.allFolds, ∀ g, s.fold? f.id = some g → ∀ i ∈ shareOf f.half f.position, ∀ x, (t.core f.core).granules[i]? = some x →
      let k := (shareOf f.half f.position).idxOf i
      s.leaves g k ≠ t.leaves f k → ∃ y, (u.core f.core).granules[i]? = some y ∧ s.leaves g k ∈ y.left) ∧
    (∀ n i x y, (t.core n).granules[i]? = some x → (u.core n).granules[i]? = some y → ∀ z ∈ y.left, z ∈ x.left ∨
      ∃ f ∈ t.allFolds, ∃ g, s.fold? f.id = some g ∧ f.core = n ∧ i ∈ shareOf f.half f.position ∧
        z = s.leaves g ((shareOf f.half f.position).idxOf i) ∧ z ≠ t.leaves f ((shareOf f.half f.position).idxOf i)) ∧
    (s.agenda ≠ [] → u.beat = t.beat ∧ u.round = t.round) ∧
    (s.agenda = [] → s.issues = true → u.beat = s.beat + 1 ∧ u.round = t.round) ∧
    (s.agenda = [] → s.issues = false → u.beat = 0 ∧ u.round = s.round + 1) ∧
    ((∀ l ∈ t.launches, l.wrote = [] ∧ l.strays = [] ∧ t.mayReady l = false) → t.plewick.sealed = false → s.time.toNat / 10000 = t.time.toNat / 10000 →
      (∀ f ∈ t.allFolds, ∀ g, s.fold? f.id = some g → ∀ k, s.leaves g k = t.leaves f k) → s.sent t = [] → (∀ c ∈ t.cores, c.2.port = []) →
      t.crowded = none →
      u = { t with beat := u.beat, round := u.round, used := u.used, free := u.free })

/-- The step in a flock that issues, while the agenda holds moves or no flock issues, and what a step leaves besides, as three parts. -/
def Obligations.WhatAStepDoes : Prop := StepRunsInstruction ∧ StepRunsAgenda ∧ StepSettles

/-- Decoding gives back every well-formed instruction from its encoding, whatever its operands. -/
def Obligations.RoundTrip : Prop := ∀ i : Instr, i.wf = true → ∀ e, encode i = some e → decodeEnc e = .ok i

/-- Every step keeps memory in canonical form. -/
def Obligations.StepKeepsMemoryCanonical : Prop := ∀ s t : State, s.Canonical → step s = .next t → t.Canonical

namespace Sys2Proof.Machine

/-- Raw lane loads (R153): the instruction, bytes, registers, the immediate with its unit, and the word of register k from the bytes. -/
def rawLoads (d : BitVec 6) (a : BitVec 4) (v : BitVec 6) (i : BitVec 5) : List (Instr × Nat × Nat × (List Byte → Nat → Word)) :=
  let word := fun (bs : List Byte) (k : Nat) => BitVec.ofNat 32 (fromBytes ((bs.drop (4 * k)).take 4))
  [(.ldB8Z d a v i, 1, 1, fun bs _ => BitVec.ofNat 32 (fromBytes bs)), (.ldB8S d a v i, 1, 1, fun bs _ => BitVec.ofInt 32 (signed 8 (fromBytes bs))),
   (.ldB16Z d a v i, 2, 1, fun bs _ => BitVec.ofNat 32 (fromBytes bs)), (.ldB16S d a v i, 2, 1, fun bs _ => BitVec.ofInt 32 (signed 16 (fromBytes bs))),
   (.ldB32 d a v i, 4, 1, word), (.ldB64 d a v i, 8, 2, word), (.ldB128 d a v i, 16, 4, word), (.ldNc d a v i, 4, 1, word)]

/-- The address that lane k of an access of n bytes forms (R145). -/
def Flock.laneVa (f : Flock) (a : BitVec 4) (v : BitVec 6) (i : Int) (n : Nat) (k : Fin 32) : Addr := byteOf (f.laneBits a v i (8 * n) k)

/-- The destinations of a group of registers from d on: each takes `f lane k` in the lanes of the execution mask (R93, R113). -/
def State.group (s : State) (d : BitVec 6) (n : Nat) (f : Fin 32 → Nat → Word) : List Dest :=
  (List.range n).map fun k =>
    .vector (d + BitVec.ofNat 6 k) (s.cur.getV (d + BitVec.ofNat 6 k)) (Lanes.merge (s.cur.getV (d + BitVec.ofNat 6 k)) s.cur.em fun i => f i k) false

/-- Every active lane's access is aligned and its bytes may be touched. -/
def State.LanesOk (s : State) (g : Guard) (n : Nat) (va : Fin 32 → Addr) : Prop :=
  ∀ k, s.cur.em.on k = true → (va k).toNat % n = 0 ∧ s.Touchable g (touchesFrom (va k) n .raw)

/-- Raw lane stores (R155): the instruction, bytes and registers. -/
def rawStores (d : BitVec 6) (a : BitVec 4) (v : BitVec 6) (i : BitVec 5) : List (Instr × Nat × Nat) :=
  [(.stB8 d a v i, 1, 1), (.stB16 d a v i, 2, 1), (.stB32 d a v i, 4, 1), (.stB64 d a v i, 8, 2), (.stB128 d a v i, 16, 4)]

/-- The places that the active lanes store to. -/
def State.storedPlaces (s : State) (n : Nat) (va : Fin 32 → Addr) : List Nat :=
  (lanes.filter fun k => s.cur.em.on k).flatMap fun k => (List.range n).map fun j => s.placeAt Need.store (va k + BitVec.ofNat 72 j)

/-- A lane store has left in memory what R149 and R155 say: a byte holds that of the highest active lane which names it, all others are as
before, and only memory has changed. -/
def LanesStored (s t : State) (n : Nat) (va : Fin 32 → Addr) (byte : Fin 32 → Nat → Byte) : Prop :=
  OnlyMemory s t ∧ OthersSame s t (s.storedPlaces n va) ∧
  ∀ k j, s.cur.em.on k = true → j < n →
    let place := fun (i : Fin 32) (b : Nat) => s.placeAt Need.store (va i + BitVec.ofNat 72 b)
    (∀ i b, s.cur.em.on i = true → b < n → place i b = place k j → i < k ∨ (i = k ∧ b ≤ j)) →
    s.ignored (place k j) = false → s.Plain (place k j) → t.read (place k j) = byte k j

/-- Scalar loads (R157) and scratch loads of a scalar: address register or scratch base apart, the destination from the bytes. -/
def State.scalarLoads (s : State) (d : BitVec 5) (r a : BitVec 4) (i : BitVec 5) : List (Instr × Nat × (List Byte → Dest)) :=
  [(.ldsB64 d a i, 8, fun bs => .scalar d (s.cur.getS d) (BitVec.ofNat 64 (fromBytes bs)) false),
   (.ldsB32 d a i, 4, fun bs => .scalar d (s.cur.getS d) (BitVec.ofNat 64 (fromBytes bs)) false),
   (.lda r a i, 16, fun bs => .address r (s.cur.getA r) (BitVec.ofNat 72 (fromBytes (bs.take 9))) false)]

/-- Scalar stores (R157) with the bytes they write. -/
def State.scalarStores (s : State) (d : BitVec 5) (r a : BitVec 4) (i : BitVec 5) : List (Instr × List Byte) :=
  [(.stsB64 d a i, toBytes 8 (s.cur.getS d).toNat), (.stsB32 d a i, toBytes 4 (s.cur.getS d).toNat),
   (.sta r a i, toBytes 16 (s.cur.getA r).toNat)]

/-- The atomics of R161 and R163 with what each does. -/
def atomics (d : BitVec 6) (a : BitVec 4) (v : BitVec 6) (sc : BitVec 3) (o : BitVec 2) : List (Instr × AtomOp) :=
  let word := fun (f : Word → Word → Word) => AtomOp.mk 4 1 1 (fun old xs => (f (BitVec.ofNat 32 old) (BitVec.ofNat 32 (xs.getD 0 0))).toNat)
  [(.atomAdd d a v sc o, word fun x y => x + y), (.atomFadd d a v sc o, word fun x y => (f32Add 0 x y).val),
   (.atomMinS d a v sc o, word fun x y => if x.toInt ≤ y.toInt then x else y), (.atomMaxS d a v sc o, word fun x y => if x.toInt ≤ y.toInt then y else x),
   (.atomMinZ d a v sc o, word fun x y => if x.toNat ≤ y.toNat then x else y), (.atomMaxZ d a v sc o, word fun x y => if x.toNat ≤ y.toNat then y else x),
   (.atomAnd d a v sc o, word fun x y => x &&& y), (.atomOr d a v sc o, word fun x y => x ||| y), (.atomXor d a v sc o, word fun x y => x ^^^ y),
   (.atomXchg d a v sc o, word fun _ y => y), (.atomInc d a v sc o, word fun x y => if y.toNat ≤ x.toNat then 0 else x + 1),
   (.atomCas d a v sc o, { size := 4, results := 1, operands := 2, new := fun old xs => if old = xs.getD 0 0 then xs.getD 1 0 else old }),
   (.atomAdd64 d a v sc o, { size := 8, results := 2, operands := 2, new := fun old xs => (old + xs.getD 0 0 + 2 ^ 32 * xs.getD 1 0) % 2 ^ 64 }),
   (.atomCas64 d a v sc o, AtomOp.mk 8 2 4 (fun old xs =>
     if old = xs.getD 0 0 + 2 ^ 32 * xs.getD 1 0 then xs.getD 2 0 + 2 ^ 32 * xs.getD 3 0 else old))]

/-- A location of an atomic in a lane, as a number: its bytes as memory holds them. -/
def State.locationNat (s : State) (va : Addr) (n : Nat) : Nat :=
  fromBytes ((List.range n).map fun j => s.read (s.placeAt Need.atomic (va + BitVec.ofNat 72 j)))

/-- The operand words of a lane. -/
def State.operandsOf (s : State) (d : BitVec 6) (n : Nat) (k : Fin 32) : List Nat :=
  (List.range n).map fun j => (s.cur.lane (d + BitVec.ofNat 6 j) k).toNat

end Sys2Proof.Machine

/-- R145, R148, R153 and R117: a raw lane load whose active lanes are aligned and readable issues one counted load; its destinations get, lane by
lane, the bytes that stand at each lane's address, little-endian. With no active lane nothing is accessed. An acquire of a wide scope also writes
other devices' dirty lines back and drops the copies of their lines (R257). -/
def Sys2Proof.Machine.RawLoadResults : Prop :=
  ∀ (s : State) (d : BitVec 6) (a : BitVec 4) (v : BitVec 6) (i : BitVec 5) (sc : BitVec 3),
    (s.cur.em = 0 → ∀ x ∈ .ldAcq d a v sc :: (rawLoads d a v i).map Prod.fst, ∃ t, exec x s = .next t ∧ OnlyFlow s t) ∧
    (s.cur.em ≠ 0 → s.Ready .loads → s.broken = [] →
      (∀ e ∈ rawLoads d a v i,
        let n := e.2.1
        let va := s.cur.laneVa a v i.toInt n
        let dests := s.group d e.2.2.1 fun k j => e.2.2.2 (s.loaded Need.load (va k) n) j
        s.LanesOk loadGuard n va → (∀ x ∈ dests, s.DestFree x) → ∃ t o, exec e.1 s = .next t ∧ Issued s t o ∧ o.cls = .loads ∧
          o.dests = dests ∧ o.fault = none) ∧
      (let va := s.cur.laneVa a v 0 4
        let dests := s.group d 1 fun k _ => BitVec.ofNat 32 (fromBytes (s.loaded Need.load (va k) 4))
        s.LanesOk loadGuard 4 va → s.VectorFree d → ∃ t o, exec (.ldAcq d a v sc) s = .next t ∧
          Issued (if 4 ≤ sc.toNat then s.refreshRemote else s) t o ∧ o.cls = .loads ∧ o.dests = dests ∧ o.fault = none))

/-- R153: `ld.un` reads one word once and gives it to every active lane. -/
def Sys2Proof.Machine.UniformLoadResult : Prop :=
  ∀ (s : State) (d : BitVec 6) (a : BitVec 4) (i : BitVec 5),
    (s.cur.em = 0 → ∃ t, exec (.ldUn d a i) s = .next t ∧ OnlyFlow s t) ∧
    (s.cur.em ≠ 0 → s.Ready .loads → s.broken = [] → s.VectorFree d →
      let va := s.cur.flockAddress a i.toInt 4
      va.toNat % 4 = 0 → s.Touchable loadGuard (touchesFrom va 4 .raw) →
      ∃ t o, exec (.ldUn d a i) s = .next t ∧ Issued s t o ∧ o.cls = .loads ∧ o.fault = none ∧
        o.dests = s.group d 1 fun _ _ => BitVec.ofNat 32 (fromBytes (s.loaded Need.load va 4)))

/-- Raw lane loads, and the load of one word for all lanes, as two parts. -/
def Obligations.LaneLoadResults : Prop := RawLoadResults ∧ UniformLoadResult

/-- R146, R150, R154: a typed lane load decodes each lane's element by the format of the page that holds the address register's own value; `ld.e.i` reads
integers only; both pages of a Microscaling block that spans two are held to the format. A supervisor's scale bytes stand where its acting context's bases put them (the model's reading, log entry 8). -/
def Obligations.TypedLoadResults : Prop :=
  ∀ (s : State) (d : BitVec 6) (a : BitVec 4) (v : BitVec 6) (i : BitVec 5) (code : BitVec 5) (pa : Nat) (l : Leaf),
    (s.cur.em = 0 → ∀ x ∈ [Instr.ldE d a v i, .ldEI d a v i], ∃ t, exec x s = .next t ∧ OnlyFlow s t) ∧
    (s.cur.em ≠ 0 → s.Ready .loads → s.broken = [] → s.VectorFree d →
      s.locate (s.agent s.cur) Need.load (s.cur.getA a) = .ok (pa, l) → l.format = code → code ≠ 0 →
      let e := elemOf code
      let bits := s.cur.laneBits a v i.toInt e.width
      ∀ x ∈ [(Instr.ldE d a v i, false), (.ldEI d a v i, true)],
        let touches := fun (k : Fin 32) => elemTouches s.scaleBases code x.2 (bits k)
        let places := fun (k : Fin 32) => s.places Need.load ((touches k).filter fun t => !t.2.isShared)
        (∀ k, s.cur.em.on k = true → bits k % e.width = 0 ∧ s.Touchable loadGuard (touches k)) →
        ∃ t o, exec x.1 s = .next t ∧ Issued s t o ∧ o.cls = .loads ∧ o.fault = none ∧
          o.dests = s.group d 1 fun k _ =>
            let w := s.loadBits (places k) (bits k) e.width
            if x.2 then e.intWord w else e.word s.cur.sat (s.loadScale e (places k) (bits k)) w)

/-- R148, R149, R151 and R155: a raw lane store whose active lanes are aligned and writable leaves its bytes in memory, the highest lane's where
several name one byte, and no other byte changes. A release of a wide scope first writes back other devices' lines (R257). -/
def Obligations.RawStoreResults : Prop :=
  ∀ (s : State) (d : BitVec 6) (a : BitVec 4) (v : BitVec 6) (i : BitVec 5) (sc : BitVec 3), s.buffered = false →
    (s.cur.em = 0 → ∀ x ∈ .stRel d a v sc :: (rawStores d a v i).map Prod.fst, ∃ t, exec x s = .next t ∧ OnlyFlow s t) ∧
    (s.cur.em ≠ 0 → s.Ready .stores → s.Canonical →
      ∀ e ∈ (rawStores d a v i).map (fun e => (e, i.toInt, s)) ++
          [((Instr.stRel d a v sc, 4, 1), 0, if 4 ≤ sc.toNat then s.flushRemote else s)],
        let n := e.1.2.1
        let va := s.cur.laneVa a v e.2.1 n
        s.LanesOk { need := Need.store } n va → ∃ t u o, exec e.1.1 s = .next t ∧ Issued u t o ∧ o.cls = .stores ∧ o.dests = [] ∧
          LanesStored e.2.2 u n va fun k j => (s.cur.lane (d + BitVec.ofNat 6 (j / 4)) k).extractLsb' (8 * (j % 4)) 8)

/-- R149 and R151: a store of four or of one bit of each lane changes those bits only. A bit that several lanes name takes the highest lane's; one
that no active lane names stays as it was, in a byte of which other bits are stored too. -/
def Obligations.BitStoreResults : Prop :=
  ∀ (s : State) (d : BitVec 6) (a : BitVec 4) (v : BitVec 6) (i : BitVec 5), s.buffered = false →
    ∀ e ∈ [(Instr.stB4 d a v i, 4), (.stB1 d a v i, 1)],
      let bits := s.cur.laneBits a v i.toInt e.2
      let place := fun (k : Fin 32) => s.placeAt Need.store (byteOf (bits k))
      (s.cur.em = 0 → ∃ t, exec e.1 s = .next t ∧ OnlyFlow s t) ∧
      (s.cur.em ≠ 0 → s.Ready .stores → s.Canonical →
        (∀ k, s.cur.em.on k = true → bits k % e.2 = 0 ∧ s.Touchable { need := Need.store } (bitTouches (bits k) e.2 .raw)) →
        ∃ t u o, exec e.1 s = .next t ∧ Issued u t o ∧ o.cls = .stores ∧ OnlyMemory s u ∧
          OthersSame s u ((lanes.filter fun k => s.cur.em.on k).map place) ∧
          ∀ k j, s.cur.em.on k = true → s.ignored (place k) = false → s.Plain (place k) → j < 8 →
            let names := fun (i : Fin 32) => s.cur.em.on i = true ∧ place i = place k ∧ bits i % 8 ≤ j ∧ j < bits i % 8 + e.2
            (∀ i, names i → (∀ q, names q → q ≤ i) → (u.read (place k)).getLsbD j = (s.cur.lane d i).getLsbD (j - bits i % 8)) ∧
            ((∀ i, ¬ names i) → (u.read (place k)).getLsbD j = (s.read (place k)).getLsbD j))

namespace Sys2Proof.Machine

/-- A lane comes before another in the order of logical threads (R65): by its lane field, then by its number. -/
def State.threadBefore (s : State) (i k : Fin 32) : Prop :=
  ∀ l, s.launch = some l → l.hdr.laneField i.val < l.hdr.laneField k.val ∨ (l.hdr.laneField i.val = l.hdr.laneField k.val ∧ i < k)

/-- Bits written enter the commit buffer of the current flock, one after the other, and nothing else changes (R64, R160). -/
def State.buffering (s : State) (ws : List BitWrite) : State :=
  { s with cur := { s.cur with buf := ws.foldl (fun es w => bufferPut es w s.cur.ttag) s.cur.buf } }

/-- A store that the launch holds back completes: its bits enter the buffer, no byte of memory changes, and it counts as a store. -/
def HoldsBack (i : Instr) (s : State) (ws : List BitWrite) (flags : Bool × Bool) : Prop :=
  ∃ t o, exec i s = .next t ∧ Issued (s.buffering ws) t o ∧ o.cls = .stores ∧ o.dests = [] ∧ o.ofFlag = flags.1 ∧ o.nvFlag = flags.2 ∧
    SameMemory s t

/-- The entries of the commit buffer that stores to some places ask for: one for each line of which the flock's buffer holds nothing (R64). -/
def State.newEntries (s : State) (places : List Nat) : Nat :=
  ((places.map fun p => p / 64 * 64).eraseDups.filter fun l => !(bufferLines s.cur.buf).contains l).length

/-- A store that finds too few entries: commit-overflow, and the launch of a flock of a fold ends with status 0x14. -/
def Overflows (i : Instr) (s : State) : Prop := s.cur.supervises = false → exec i s = .next (s.closeLaunch s.fold.launch 0x14)

end Sys2Proof.Machine

/-- R160: where the launch is deterministic or restartable, a raw lane store changes the flock's commit buffer and no byte of memory: the bytes of the
active lanes, in the order of logical threads (R65). A load of the flock then reads each of them (R64). With too few free entries the launch ends
(R64). -/
def Sys2Proof.Machine.BufferedLaneStores : Prop :=
  ∀ (s : State) (d : BitVec 6) (a : BitVec 4) (v : BitVec 6) (i : BitVec 5) (sc : BitVec 3) (room : Nat), s.buffered = true → s.cur.em ≠ 0 →
    s.Ready .stores → s.bufferRoom = some room →
    ∀ e ∈ (rawStores d a v i).map (fun e => (e, i.toInt)) ++ [((Instr.stRel d a v sc, 4, 1), 0)],
      let n := e.1.2.1
      let va := s.cur.laneVa a v e.2 n
      let place := fun (k : Fin 32) (j : Nat) => s.placeAt Need.store (va k + BitVec.ofNat 72 j)
      let byte := fun (k : Fin 32) (j : Nat) => (s.cur.lane (d + BitVec.ofNat 6 (j / 4)) k).extractLsb' (8 * (j % 4)) 8
      let ws := (s.storeOrder s.cur.em).flatMap fun k => (List.range n).map fun j => ({ address := place k j, enable := 0xFF, data := byte k j } : BitWrite)
      s.LanesOk { need := Need.store } n va → (room < s.newEntries (ws.map fun w => w.address) → Overflows e.1.1 s) ∧
        (s.newEntries (ws.map fun w => w.address) ≤ room → HoldsBack e.1.1 s ws (false, false) ∧
        ((bufferLines s.cur.buf).Nodup → (bufferLines (s.buffering ws).cur.buf).Nodup ∧ ∀ k j, s.cur.em.on k = true → j < n →
          (∀ q b, s.cur.em.on q = true → b < n → place q b = place k j → (q = k ∧ b ≤ j) ∨ s.threadBefore q k) →
          (s.buffering ws).loadByte (place k j) = byte k j))

/-- R160 for the stores of bits: the bits of the active lanes enter the buffer, and a load of the flock then reads each of them (R64, R151); with too
few free entries the launch ends. -/
def Sys2Proof.Machine.BufferedBitStores : Prop :=
  ∀ (s : State) (d : BitVec 6) (a : BitVec 4) (v : BitVec 6) (i : BitVec 5) (room : Nat), s.buffered = true → s.cur.em ≠ 0 →
    s.Ready .stores → s.bufferRoom = some room →
    ∀ e ∈ [(Instr.stB4 d a v i, 4), (.stB1 d a v i, 1)],
      let bits := s.cur.laneBits a v i.toInt e.2
      let place := fun (k : Fin 32) => s.placeAt Need.store (byteOf (bits k))
      let ws := (s.storeOrder s.cur.em).map fun k => ({
        address := place k, enable := BitVec.ofNat 8 ((2 ^ e.2 - 1) * 2 ^ (bits k % 8)),
        data := BitVec.ofNat 8 ((s.cur.lane d k).toNat % 2 ^ e.2 * 2 ^ (bits k % 8)) } : BitWrite)
      (∀ k, s.cur.em.on k = true → bits k % e.2 = 0 ∧ s.Touchable { need := Need.store } (bitTouches (bits k) e.2 .raw)) →
      (room < s.newEntries (ws.map fun w => w.address) → Overflows e.1 s) ∧
      (s.newEntries (ws.map fun w => w.address) ≤ room → HoldsBack e.1 s ws (false, false) ∧
        ((bufferLines s.cur.buf).Nodup → (bufferLines (s.buffering ws).cur.buf).Nodup ∧ ∀ k j, s.cur.em.on k = true → j < 8 →
          let names := fun (q : Fin 32) => s.cur.em.on q = true ∧ place q = place k ∧ bits q % 8 ≤ j ∧ j < bits q % 8 + e.2
          (∀ q, names q → (∀ x, names x → x = q ∨ s.threadBefore x q) →
            ((s.buffering ws).loadByte (place k)).getLsbD j = (s.cur.lane d q).getLsbD (j - bits q % 8)) ∧
          ((∀ q, ¬ names q) → ((s.buffering ws).loadByte (place k)).getLsbD j = (s.loadByte (place k)).getLsbD j)))

/-- R160 for the typed stores: the bits of the encoded elements, and of the scale bytes of blocks written whole, enter the buffer (R156); with too few
free entries for these the launch ends (R64). -/
def Sys2Proof.Machine.BufferedTypedStores : Prop :=
  ∀ (s : State) (d : BitVec 6) (a : BitVec 4) (v : BitVec 6) (i : BitVec 5) (code : BitVec 5) (pa : Nat) (l : Leaf) (room : Nat), s.buffered = true →
    s.cur.em ≠ 0 → s.Ready .stores → s.bufferRoom = some room →
    s.locate (s.agent s.cur) Need.store (s.cur.getA a) = .ok (pa, l) → l.format = code → code ≠ 0 →
    let e := elemOf code
    let bits := s.cur.laneBits a v i.toInt e.width
    ∀ x ∈ [(Instr.stE d a v i, false), (.stEI d a v i, true)],
      let touches := fun (k : Fin 32) => elemTouches s.scaleBases code x.2 (bits k)
      (∀ k, s.cur.em.on k = true → bits k % e.width = 0 ∧ s.Touchable { need := Need.store } (touches k)) →
      let asked := (activeLanes s.cur.em).flatMap fun k => ((touches k).filter fun t =>
        !t.2.isShared && !(scaleOnly s.scaleBases e ((activeLanes s.cur.em).map bits) (bits k)).contains t.1).map fun t => s.placeAt Need.store t.1
      (room < s.newEntries asked → Overflows x.1 s) ∧
      (s.newEntries asked ≤ room →
      let plan := (activeLanes s.cur.em).map fun k => (some k, s.places Need.store ((touches k).filter fun t => !t.2.isShared))
      let ws := s.typedWrites e ((s.storeOrder s.cur.em).map (s.laneItem e x.2 d bits plan))
      HoldsBack x.1 s (ws.flatMap fun w => w.val) (ws.any fun w => w.ofl, ws.any fun w => w.nv))

/-- R160 for the flock-wide stores: their bytes enter the buffer whatever the mask holds, and a load of the flock then reads them (R64); with too few
free entries the launch ends. -/
def Sys2Proof.Machine.BufferedScalarStores : Prop :=
  ∀ (s : State) (d : BitVec 5) (r a : BitVec 4) (i : BitVec 5) (sc : BitVec 3) (room : Nat), s.buffered = true → s.Ready .stores →
    s.bufferRoom = some room →
    ∀ e ∈ (s.scalarStores d r a i).map (fun e => (e, i.toInt)) ++ [((Instr.stsRel d a sc, toBytes 8 (s.cur.getS d).toNat), 0)],
      let n := e.1.2.length
      let va := s.cur.flockAddress a e.2 n
      let place := fun (j : Nat) => s.placeAt Need.store (va + BitVec.ofNat 72 j)
      let ws := (List.range n).map fun j => ({ address := place j, enable := 0xFF, data := e.1.2.getD j 0 } : BitWrite)
      va.toNat % n = 0 → s.Touchable { need := Need.store } (touchesFrom va n .raw) →
        (room < s.newEntries (ws.map fun w => w.address) → Overflows e.1.1 s) ∧
        (s.newEntries (ws.map fun w => w.address) ≤ room → HoldsBack e.1.1 s ws (false, false) ∧
        ((bufferLines s.cur.buf).Nodup → (bufferLines (s.buffering ws).cur.buf).Nodup ∧ ∀ j, j < n → (∀ k, k < n → place k = place j → k ≤ j) →
          (s.buffering ws).loadByte (place j) = e.1.2.getD j 0))

/-- Stores that a deterministic or restartable launch holds back (R160), as four parts. -/
def Obligations.BufferedStores : Prop := BufferedLaneStores ∧ BufferedBitStores ∧ BufferedTypedStores ∧ BufferedScalarStores

/-- R146, R156: a typed lane store writes the elements of its active lanes, encoded by the page's format, raising the flags of the encodings when
it completes; no byte outside the elements and the scale bytes of blocks written whole changes (a supervisor's scale bases: log entry 8). -/
def Obligations.TypedStoreResults : Prop :=
  ∀ (s : State) (d : BitVec 6) (a : BitVec 4) (v : BitVec 6) (i : BitVec 5) (code : BitVec 5) (pa : Nat) (l : Leaf), s.buffered = false →
    (s.cur.em = 0 → ∀ x ∈ [Instr.stE d a v i, .stEI d a v i], ∃ t, exec x s = .next t ∧ OnlyFlow s t) ∧
    (s.cur.em ≠ 0 → s.Ready .stores → s.Canonical →
      s.locate (s.agent s.cur) Need.store (s.cur.getA a) = .ok (pa, l) → l.format = code → code ≠ 0 →
      let e := elemOf code
      let bits := s.cur.laneBits a v i.toInt e.width
      ∀ x ∈ [(Instr.stE d a v i, false), (.stEI d a v i, true)],
        let touches := fun (k : Fin 32) => elemTouches s.scaleBases code x.2 (bits k)
        (∀ k, s.cur.em.on k = true → bits k % e.width = 0 ∧ s.Touchable { need := Need.store } (touches k)) →
        let plan := (activeLanes s.cur.em).map fun k => (some k, s.places Need.store ((touches k).filter fun t => !t.2.isShared))
        let ws := s.typedWrites e ((activeLanes s.cur.em).map (s.laneItem e x.2 d bits plan))
        ∃ t u o, exec x.1 s = .next t ∧ Issued u t o ∧ o.cls = .stores ∧ o.ofFlag = (ws.any fun w => w.ofl) ∧
          o.nvFlag = (ws.any fun w => w.nv) ∧ OnlyMemory s u ∧ u = s.memoryStore (ws.flatMap fun w => w.val) ∧
          OthersSame s u ((ws.flatMap fun w => w.val).map fun w => w.address))

/-- R157: scalar loads are flock-wide, whatever the mask holds; `lda` gives a deferred bad-pointer fault where bytes 15 to 9 are not zero. -/
def Sys2Proof.Machine.ScalarLoadResults : Prop :=
  ∀ (s : State) (d : BitVec 5) (r a : BitVec 4) (i : BitVec 5) (sc : BitVec 3), s.Ready .loads → s.broken = [] →
    ∀ e ∈ (s.scalarLoads d r a i).map (fun e => (e, i.toInt, s)) ++ [((Instr.ldsAcq d a sc, 8, fun bs =>
        Dest.scalar d (s.cur.getS d) (BitVec.ofNat 64 (fromBytes bs)) false), 0, if 4 ≤ sc.toNat then s.refreshRemote else s)],
      let n := e.1.2.1
      let va := s.cur.flockAddress a e.2.1 n
      let bs := s.loaded Need.load va n
      va.toNat % n = 0 → s.Touchable loadGuard (touchesFrom va n .raw) → s.DestFree (e.1.2.2 bs) →
      ∃ t o, exec e.1.1 s = .next t ∧ Issued e.2.2 t o ∧ o.cls = .loads ∧ o.dests = [e.1.2.2 bs] ∧
        o.fault = if n = 16 ∧ fromBytes (bs.drop 9) ≠ 0 then some { kind := 0x15, access := 1, addr := va } else none

/-- R157: scalar stores are flock-wide and write their bytes little-endian at their address; no other byte changes. -/
def Sys2Proof.Machine.ScalarStoreResults : Prop :=
  ∀ (s : State) (d : BitVec 5) (r a : BitVec 4) (i : BitVec 5) (sc : BitVec 3), s.Ready .stores → s.Canonical → s.buffered = false →
    ∀ e ∈ (s.scalarStores d r a i).map (fun e => (e, i.toInt, s)) ++
        [((Instr.stsRel d a sc, toBytes 8 (s.cur.getS d).toNat), 0, if 4 ≤ sc.toNat then s.flushRemote else s)],
      let n := e.1.2.length
      let va := s.cur.flockAddress a e.2.1 n
      let place := fun (j : Nat) => s.placeAt Need.store (va + BitVec.ofNat 72 j)
      va.toNat % n = 0 → s.Touchable { need := Need.store } (touchesFrom va n .raw) →
      ∃ t u o, exec e.1.1 s = .next t ∧ Issued u t o ∧ o.cls = .stores ∧ OnlyMemory e.2.2 u ∧ OthersSame e.2.2 u ((List.range n).map place) ∧
        ∀ j, j < n → s.ignored (place j) = false → s.Plain (place j) → (∀ k, k < n → place k = place j → k ≤ j) →
          u.read (place j) = e.1.2.getD j 0

/-- Flock-wide loads and stores (R157), as two parts. -/
def Obligations.ScalarMemoryResults : Prop := ScalarLoadResults ∧ ScalarStoreResults

/-- R158 and R159: scratch loads read the fold's scratch, whatever the launch's flags, with addresses modulo 2^32. -/
def Sys2Proof.Machine.ScratchLoadResults : Prop :=
  ∀ (s : State) (d : BitVec 6) (x r : BitVec 4) (z : BitVec 5) (v : BitVec 6) (i : BitVec 5), s.Ready .loads → s.broken = [] →
    (s.cur.em = 0 → ∃ t, exec (.lspB32 d x v i) s = .next t ∧ OnlyFlow s t) ∧
    (let at_ := fun (k : Fin 32) => scratchAddress (s.cur.getS (x.setWidth 5)) ((s.cur.lane v k).toInt + i.toInt) 4;
      s.cur.em ≠ 0 → s.VectorFree d → (∀ k, s.cur.em.on k = true → at_ k % 4 = 0 ∧ s.fold.checkScratch 1 (at_ k) 4 = .ok ()) →
      ∃ t o, exec (.lspB32 d x v i) s = .next t ∧ Issued s t o ∧ o.cls = .loads ∧ o.fault = none ∧
        o.dests = s.group d 1 fun k _ => BitVec.ofNat 32 (fromBytes (s.scratchBytes s.fold (at_ k) 4))) ∧
    (∀ e ∈ [(Instr.lspB64 z x i, 8, fun bs => Dest.scalar z (s.cur.getS z) (BitVec.ofNat 64 (fromBytes bs)) false),
        (.lspB128 r x i, 16, fun bs => .address r (s.cur.getA r) (BitVec.ofNat 72 (fromBytes (bs.take 9))) false)],
      let n := e.2.1
      let at_ := scratchAddress (s.cur.getS (x.setWidth 5)) i.toInt n
      let bs := s.scratchBytes s.fold at_ n
      at_ % n = 0 → s.fold.checkScratch 1 at_ n = .ok () → s.DestFree (e.2.2 bs) →
      ∃ t o, exec e.1 s = .next t ∧ Issued s t o ∧ o.cls = .loads ∧ o.dests = [e.2.2 bs] ∧
        o.fault = if n = 16 ∧ fromBytes (bs.drop 9) ≠ 0 then some { kind := 0x15, access := 1, addr := BitVec.ofNat 72 at_ } else none)

/-- R158, R159 and R268: scratch stores write the fold's scratch at once, never memory, and issue one counted store; a scratch byte that they do not
name stays as it was. -/
def Sys2Proof.Machine.ScratchStoreResults : Prop :=
  ∀ (s : State) (d : BitVec 6) (x r : BitVec 4) (z : BitVec 5) (v : BitVec 6) (i : BitVec 5), s.Ready .stores → s.fold.id ≠ 0 → s.cur.fold = s.fold.id →
    (∀ f ∈ s.allFlocks, f.fold = s.fold.id → ∀ o ∈ f.pend, o.reads = []) → s.fold.scratch.reused = [] → s.fold.scratch.cells.wf = true →
    (s.cur.em = 0 → ∃ t, exec (.sspB32 d x v i) s = .next t ∧ OnlyFlow s t) ∧
    (let at_ := fun (k : Fin 32) => scratchAddress (s.cur.getS (x.setWidth 5)) ((s.cur.lane v k).toInt + i.toInt) 4;
      s.cur.em ≠ 0 → (∀ k, s.cur.em.on k = true → at_ k % 4 = 0 ∧ at_ k + 4 ≤ s.fold.localBytes) →
      ∃ t o, exec (.sspB32 d x v i) s = .next t ∧ t.cur.pend = s.cur.pend ++ [o] ∧ o.cls = .stores ∧ SameMemory s t ∧ GoesOn s t ∧
        ((∀ k j, s.cur.em.on k = true → j < 4 → s.fold.spoils (some s.cur.id) (at_ k + j) = false) →
        (∀ a, a < s.fold.localBytes → (∀ k j, s.cur.em.on k = true → j < 4 → at_ k + j ≠ a) → t.scratchByte t.fold a = s.scratchByte s.fold a) ∧
        ∀ k j, s.cur.em.on k = true → j < 4 → (∀ i, s.cur.em.on i = true → at_ i = at_ k → i ≤ k) →
          t.scratchByte t.fold (at_ k + j) = (s.cur.lane d k).extractLsb' (8 * j) 8)) ∧
    (∀ e ∈ [(Instr.sspB64 z x i, toBytes 8 (s.cur.getS z).toNat), (.sspB128 r x i, toBytes 16 (s.cur.getA r).toNat)],
      let n := e.2.length
      let at_ := scratchAddress (s.cur.getS (x.setWidth 5)) i.toInt n
      at_ % n = 0 → at_ + n ≤ s.fold.localBytes →
      ∃ t o, exec e.1 s = .next t ∧ t.cur.pend = s.cur.pend ++ [o] ∧ o.cls = .stores ∧ SameMemory s t ∧ GoesOn s t ∧
        ((∀ j, j < n → s.fold.spoils (some s.cur.id) (at_ + j) = false) →
        (∀ a, a < s.fold.localBytes → ¬ (at_ ≤ a ∧ a < at_ + n) → t.scratchByte t.fold a = s.scratchByte s.fold a) ∧
        ∀ j, j < n → t.scratchByte t.fold (at_ + j) = e.2.getD j 0))

/-- Scratch loads and stores (R158, R159), as two parts. -/
def Obligations.ScratchResults : Prop := ScratchLoadResults ∧ ScratchStoreResults

namespace Sys2Proof.Machine

/-- What the launch's flags leave an atomic or a memory reduction to do (R164): it is performed in memory at once. -/
def State.performs (s : State) : Prop := s.determ = false ∧ (s.buffered = true → s.cur.buf = [] ∧ s.fold.buf = [])

/-- The places of the locations of the active lanes. -/
def State.locations (s : State) (n : Nat) (va : Fin 32 → Addr) : List Nat :=
  (activeLanes s.cur.em).flatMap fun k => (List.range n).map fun j => s.placeAt Need.atomic (va k + BitVec.ofNat 72 j)

/-- The active lanes of an atomic one after the other (R162): what each finds at its location, and the bytes as the last of them leaves them. -/
def State.inTurn (s : State) (op : AtomOp) (d : BitVec 6) (va : Fin 32 → Addr) : (Nat → Byte) × List (Nat × Nat) :=
  (activeLanes s.cur.em).foldl (fun acc k =>
    let place := fun (j : Nat) => s.placeAt Need.atomic (va k + BitVec.ofNat 72 j)
    let old := fromBytes ((List.range op.size).map fun j => acc.1 (place j))
    let new := toBytes op.size (op.new old (s.operandsOf d op.operands k))
    (fun p => match (List.range op.size).reverse.find? (fun j => place j == p) with | some j => new.getD j 0 | none => acc.1 p,
      acc.2 ++ [(k.val, old)])) (s.read, [])

/-- The lanes of an access of n bytes to memory of this device or the host, none of it a word of the device alone. -/
def State.AtomicsOk (s : State) (n : Nat) (va : Fin 32 → Addr) : Prop :=
  s.LanesOk { need := Need.atomic, atomic := true } n va ∧ ∀ p ∈ s.locations n va, p < Config.plewickBase ∧ s.Plain p

end Sys2Proof.Machine

/-- R161 to R163: an atomic returns to each active lane the value that it found at its location and leaves there the new one; lanes that name one
location operate in ascending order, each on what the lane before it left (R162). No other byte, register or flag changes. An acquire of a wide scope
drops the copies of other devices' lines (R257). -/
def Sys2Proof.Machine.AtomicResults : Prop :=
  ∀ (s : State) (d : BitVec 6) (a : BitVec 4) (v : BitVec 6) (sc : BitVec 3) (o : BitVec 2), s.broken = [] → s.Canonical →
    ∀ e ∈ atomics d a v sc o,
      let n := e.2.size
      let va := s.cur.laneVa a v 0 n
      let base := if o.getLsbD 0 = true ∧ 4 ≤ sc.toNat then s.refreshRemote else s
      (s.cur.em = 0 → ∃ t, exec e.1 s = .next t ∧ OnlyFlow s t) ∧
      (s.cur.em ≠ 0 → s.performs → s.Ready .loads → s.AtomicsOk n va →
        (∀ x ∈ s.group d e.2.results fun _ _ => 0, s.DestFree x) →
        ∃ t u p, exec e.1 s = .next t ∧ Issued u t p ∧ p.cls = .loads ∧ p.fault = none ∧
          (p.dests = s.group d e.2.results fun k j => BitVec.ofNat 32 ((lookup (s.inTurn e.2 d va).2 k.val).getD 0 / 2 ^ (32 * j))) ∧
          (∀ x ∈ s.locations n va, u.read x = (s.inTurn e.2 d va).1 x) ∧ OnlyMemory s u ∧ OthersSame base u (s.locations n va))

/-- R161: where no two active lanes name one location, every lane's result is computed from memory as it was. -/
def Sys2Proof.Machine.AtomicsApart : Prop :=
  ∀ (s : State) (d : BitVec 6) (a : BitVec 4) (v : BitVec 6) (sc : BitVec 3) (o : BitVec 2), s.broken = [] → s.Canonical → s.performs →
    ∀ e ∈ atomics d a v sc o,
      let n := e.2.size
      let va := s.cur.laneVa a v 0 n
      let place := fun (k : Fin 32) (j : Nat) => s.placeAt Need.atomic (va k + BitVec.ofNat 72 j)
      s.cur.em ≠ 0 → s.Ready .loads → s.AtomicsOk n va →
        (∀ i j p q, s.cur.em.on i = true → s.cur.em.on j = true → p < n → q < n → place i p = place j q → i = j ∧ p = q) →
        (∀ x ∈ s.group d e.2.results fun _ _ => 0, s.DestFree x) →
        ∃ t u p, exec e.1 s = .next t ∧ Issued u t p ∧ p.cls = .loads ∧ p.fault = none ∧
          (p.dests = s.group d e.2.results fun k j => BitVec.ofNat 32 (s.locationNat (va k) n / 2 ^ (32 * j))) ∧
          ∀ k j, s.cur.em.on k = true → j < n → u.read (place k j) =
            (toBytes n (e.2.new (s.locationNat (va k) n) (s.operandsOf d e.2.operands k))).getD j 0

/-- R161 to R164: a memory reduction adds each active lane's word at its location in ascending order of the lanes and returns nothing, and changes no
other byte; under the deterministic flag it is held in the commit buffer instead, one entry for each lane, in the order of logical threads (R65, R66)
and with the instruction's number, and with too few free entries the launch ends (R64). -/
def Sys2Proof.Machine.MemoryReductionResults : Prop :=
  ∀ (s : State) (d : BitVec 6) (a : BitVec 4) (v : BitVec 6) (sc : BitVec 3) (o : BitVec 2), s.broken = [] → s.Canonical →
    ∀ e ∈ [(Instr.redMemAdd d a v sc o, false, fun (x y : Word) => x + y), (.redMemFadd d a v sc o, true, fun x y => (f32Add 0 x y).val)],
      let va := s.cur.laneVa a v 0 4
      let op := AtomOp.mk 4 1 1 (fun old xs => (e.2.2 (BitVec.ofNat 32 old) (BitVec.ofNat 32 (xs.getD 0 0))).toNat)
      (s.cur.em = 0 → ∃ t, exec e.1 s = .next t ∧ OnlyFlow s t) ∧
      (s.cur.em ≠ 0 → s.Ready .stores →
        (s.performs → s.AtomicsOk 4 va →
          ∃ t u p, exec e.1 s = .next t ∧ Issued u t p ∧ p.cls = .stores ∧ p.dests = [] ∧ p.fault = none ∧
            (∀ x ∈ s.locations 4 va, u.read x = (s.inTurn op d va).1 x) ∧ OnlyMemory s u ∧ OthersSame s u (s.locations 4 va)) ∧
        (s.determ = true → s.LanesOk { need := Need.atomic, atomic := true } 4 va → ∀ n, s.bufferRoom = some n →
          (∀ l ∈ bufferLines s.cur.buf, l < 2 ^ 52) → n < (activeLanes s.cur.em).length → Overflows e.1 s) ∧
        (s.determ = true → s.LanesOk { need := Need.atomic, atomic := true } 4 va → ∀ n, s.bufferRoom = some n → (activeLanes s.cur.em).length ≤ n →
          let held := (s.storeOrder s.cur.em).map fun k =>
            CommitEntry.reduction s.cur.field e.2.1 [{ address := s.placeAt Need.atomic (va k), value := s.cur.lane d k
                                                       lane := some (BitVec.ofNat 5 k.val), va := va k }] s.cur.ttag s.cur.pc s.nextId
          (s.storeOrder s.cur.em).Pairwise s.threadBefore ∧ (∀ k, k ∈ s.storeOrder s.cur.em ↔ s.cur.em.on k = true) ∧
          ∃ t p, exec e.1 s = .next t ∧ SameMemory s t ∧ p.cls = .stores ∧
            Issued { s with cur := { s.cur with buf := s.cur.buf ++ held } } t p))

/-- R164: an atomic that returns a value, under the deterministic flag, and every atomic and memory reduction under the restartable flag alone while
the flock's or the fold's buffer holds an entry, is a precise legality fault at the first byte of its lowest active lane. -/
def Sys2Proof.Machine.BarredAtomics : Prop :=
  ∀ (s : State) (d : BitVec 6) (a : BitVec 4) (v : BitVec 6) (sc : BitVec 3) (o : BitVec 2) (k : Fin 32) (pa : Nat) (l : Leaf),
    s.cur.em.on k = true → (∀ j, j < k → s.cur.em.on j = false) →
    let faults := fun (i : Instr) (n : Nat) => (s.cur.laneVa a v 0 n k).toNat % n = 0 →
      s.locate (s.agent s.cur) Need.atomic (s.cur.laneVa a v 0 n k) = .ok (pa, l) → rawOk l = true →
      exec i s = .next (s.takeTrap { kind := 0x20, access := 3, lane := some (BitVec.ofNat 5 k.val), addr := s.cur.laneVa a v 0 n k } s.cur.pc)
    (s.Ready .loads → (s.determ = true ∨ (s.buffered = true ∧ (s.cur.buf ≠ [] ∨ s.fold.buf ≠ []))) → ∀ e ∈ atomics d a v sc o, faults e.1 e.2.size) ∧
    (s.Ready .stores → s.determ = false → s.buffered = true → (s.cur.buf ≠ [] ∨ s.fold.buf ≠ []) →
      ∀ i ∈ [Instr.redMemAdd d a v sc o, .redMemFadd d a v sc o], faults i 4)

/-- Atomics and memory reductions, as four parts. -/
def Obligations.AtomicAndReductionResults : Prop := AtomicResults ∧ AtomicsApart ∧ MemoryReductionResults ∧ BarredAtomics

/-- R150, R152, R166, R169, R171, R173 and R175: a monitor watches the line of its address; on a page that is not raw it takes the format fault, and
on a line outside this device's memory the monitor-range fault. It is allowed whatever the stop flag forbids (R59 does not name it), which faults `mon`
takes and in which order the model reads so (log entry 28). `cflush` changes no byte as this device reads it, and `cinv` drops the copies of other devices' lines as well, so that they read as their homes hold them
(R257); with a dirty last or first byte of a line goes the dirty byte beside it, in which the other half of an element may lie (R244); a tensor tag is set from
a scalar; a hint does nothing. -/
def Obligations.MonitorAndCacheResults : Prop :=
  ∀ (s : State) (a : BitVec 4) (v n : BitVec 6) (i x : BitVec 5),
    let va := s.cur.flockAddress a i.toInt 64
    let line := s.cur.laneVa a v i.toInt 64
    let named := fun (p : Nat) => ∃ k, s.cur.em.on k = true ∧ s.placeAt Need.load (line k) / 64 = p / 64
    let torn := fun (p : Nat) => p % 64 = 63 ∧ (lookup s.remote p).isSome = true ∧ (lookup s.remote (p + 1)).isSome = true
    let goes := fun (p : Nat) => named p ∨ (torn p ∧ named (p + 1)) ∨ ∃ q, p = q + 1 ∧ torn q ∧ named q
    (∀ pa l, s.locate (s.agent s.cur) Need.load va = .ok (pa, l) → rawOk l = true →
      (pa < Config.apertureBase → s.reach (s.agent s.cur) va pa = .ok () → ∃ t, exec (.mon a i) s = .next t ∧
        OnlyFlow { s with cur := { s.cur with monitor := { line := pa / 64 * 64, armed := true, event := false } } } t) ∧
      (Config.apertureBase ≤ pa → exec (.mon a i) s = .next (s.takeTrap { kind := 0x18, access := 1, addr := va } s.cur.pc))) ∧
    (∀ pa l, s.locate (s.agent s.cur) Need.load va = .ok (pa, l) → rawOk l = false →
      exec (.mon a i) s = .next (s.takeTrap { kind := 0x14, access := 1, addr := va } s.cur.pc)) ∧
    ((∀ k, s.cur.em.on k = true → ∃ r, s.locate (s.agent s.cur) Need.load (line k) = .ok r) → s.Canonical →
      (∃ t u, exec (.cflush a v i) s = .next t ∧ OnlyFlow u t ∧ u = { s with mem := u.mem, remote := u.remote, clean := u.clean, dirty := u.dirty } ∧ SameMemory s u ∧
        (∀ c, c ∈ u.remote ↔ c ∈ s.remote ∧ ¬ goes c.1) ∧ (∀ p, goes p → u.mem.read p = s.dirtied p (s.mem.read p)) ∧
        (∀ p, (lookup u.clean p).isSome = (lookup s.clean p).isSome) ∧ ∀ l, l % 64 = 0 → (l ∈ u.dirty ↔ l ∈ s.dirty ∧ ¬ named l)) ∧
      (∃ t u, exec (.cinv a v i) s = .next t ∧ OnlyFlow u t ∧ u = { s with mem := u.mem, remote := u.remote, clean := u.clean, dirty := u.dirty, tags := u.tags } ∧
        (∀ p, ¬ named p → u.read p = s.read p) ∧ (∀ p, named p → u.read p = s.dirtied p (s.mem.read p)) ∧
        (∀ l, l % 64 = 0 → (l ∈ u.dirty ↔ l ∈ s.dirty ∧ ¬ named l)) ∧
        (∀ c, c ∈ u.remote ↔ c ∈ s.remote ∧ ¬ goes c.1) ∧ (∀ c, ¬ goes c.1 → (c ∈ u.clean ↔ c ∈ s.clean)) ∧
        ∀ p, (lookup u.clean p).isSome = true ↔ (lookup s.clean p).isSome = true ∧ ¬ named p)) ∧
    (∃ t, exec (.ttag x) s = .next t ∧ OnlyFlow { s with cur := { s.cur with ttag := (s.cur.getS x).setWidth 16 } } t) ∧
    (∃ t, exec (.pref n a v i) s = .next t ∧ OnlyFlow s t)

/-- R171, R172 and R175: `dtens` discards the lines that carry a tag of the flock's context: each of their bytes becomes one that it has held since
the line took its tag, or for another device's line reads as its home holds it; those lines carry no tag any more, and nothing else changes. A tag of
0 discards nothing. A line that the context's tables show the flock nowhere where it may write it is a world fault (R368) or a permission fault, and
then nothing is discarded; that the fault is that of the lowest address at which they show the line is the model's reading (log entry 29). -/
def Obligations.TensorDiscard : Prop :=
  ∀ (s : State) (x : BitVec 5), s.Canonical →
    let tag : BitVec 16 := (s.cur.getS x).setWidth 16
    let g := s.agent s.cur
    let hit := fun (l : TagLine) => l.tag = tag ∧ l.ctx = g.ctx
    let permitted := fun (l : TagLine) => ∀ c, g.space = some c → ∃ m ∈ s.mappedAt g c l.line, m.2 = none
    (tag = 0 → ∃ t, exec (.dtens x) s = .next t ∧ OnlyFlow s t) ∧
    (tag ≠ 0 → (∀ l ∈ s.tags, hit l → permitted l) → ∃ t u, exec (.dtens x) s = .next t ∧ OnlyFlow u t ∧ OnlyMemory s u ∧
      (∀ l ∈ u.tags, ¬ hit l) ∧
      (∀ a, (∀ l ∈ s.tags, hit l → ¬ (l.line ≤ a ∧ a < l.line + 64)) → ¬ s.SnapTouched a → u.read a = s.read a) ∧
      ((∀ sn ∈ s.snapshots, s.begun sn = false) → ∀ l, l ∈ u.tags ↔ l ∈ s.tags ∧ ¬ hit l) ∧
      ((∀ k ∈ s.tags, k.line % 64 = 0) → ∀ l ∈ s.tags, hit l → ∀ a, l.line ≤ a → a < l.line + 64 →
        (Config.apertureBase ≤ l.line → ¬ s.SnapTouched a → u.read a = s.mem.read a) ∧
        (l.line < Config.apertureBase → (∀ k ∈ s.tags, k.line = l.line → k = l) → (∃ c ∈ l.history, c.1 = a) → (a, u.read a) ∈ l.history))) ∧
    (tag ≠ 0 → (∃ l ∈ s.tags, hit l ∧ ¬ permitted l) → ∃ l ∈ s.tags, hit l ∧ ¬ permitted l ∧ ∃ c, g.space = some c ∧
      ((s.mappedAt g c l.line = [] ∧ exec (.dtens x) s = .next (s.takeTrap { kind := 0x11, detail := 2, access := 2 } s.cur.pc)) ∨
       ∃ m ∈ s.mappedAt g c l.line, (∀ k ∈ s.mappedAt g c l.line, m.1 ≤ k.1) ∧ ∃ kind detail, m.2 = some (kind, detail) ∧
         exec (.dtens x) s = .next (s.takeTrap { kind := kind, detail := detail, access := 2, addr := BitVec.ofNat 72 m.1 } s.cur.pc))) ∧
    ∀ (h : Agent) (guest system : Nat),
      (h.secure = false → field system 15 1 = 0 → writeBarred h guest system = some (0x12, 0)) ∧
      (h.secure = true ∨ field system 15 1 = 1 → (writeBarred h guest system = none ↔
        field guest 3 1 = 1 ∧ field system 3 1 = 1 ∧ (field guest 5 1 = 1 → h.privileged = true)))

/-- R146, R148 and R175: where any active lane of a raw load, store, atomic or memory reduction is misaligned, the access takes the alignment fault of
the lowest active lane and moves no byte: the addresses of the lanes differ by whole elements (R145), so that lane is misaligned too, and alignment
comes before every other fault. The same holds of `ld.un`, of typed accesses, whose elements are aligned by their width, and of the flock-wide
accesses, whose faults name no lane. The bit addresses of `st.b4` are never misaligned, and `st.b1` needs no alignment. -/
def Sys2Proof.Machine.MisalignedAccess : Prop :=
  ∀ (s : State) (d : BitVec 6) (a : BitVec 4) (v : BitVec 6) (i : BitVec 5) (sc : BitVec 3) (o : BitVec 2) (k m : Fin 32) (z : BitVec 5) (r : BitVec 4),
    let trap := fun (lane : Option (BitVec 5)) (code : BitVec 8) (va : Addr) =>
      Host.Outcome.next (ρ := Refusal) (φ := Fault) (s.takeTrap { kind := 0x13, access := code, lane := lane, addr := va } s.cur.pc)
    (s.cur.em.on k = true → s.cur.em.on m = true → (∀ j, j < m → s.cur.em.on j = false) →
      let lane : Option (BitVec 5) := some (BitVec.ofNat 5 m.val)
      let faults := fun (x : Instr) (n : Nat) (imm : Int) (code : BitVec 8) => (s.cur.laneVa a v imm n k).toNat % n ≠ 0 →
        exec x s = trap lane code (s.cur.laneVa a v imm n m)
      let typed := fun (x : Instr) (n : Need) => ∀ pa l, s.locate (s.agent s.cur) n (s.cur.getA a) = .ok (pa, l) → l.format ≠ 0 →
        let bits := s.cur.laneBits a v i.toInt (elemOf l.format).width
        bits m % (elemOf l.format).width ≠ 0 → exec x s = trap lane n.code (byteOf (bits m));
      (s.Ready .loads → (∀ e ∈ rawLoads d a v i, faults e.1 e.2.1 i.toInt 1) ∧ faults (.ldAcq d a v sc) 4 0 1 ∧
        (∀ e ∈ atomics d a v sc o, faults e.1 e.2.size 0 3) ∧ typed (.ldE d a v i) Need.load ∧ typed (.ldEI d a v i) Need.load ∧
        ((s.cur.flockAddress a i.toInt 4).toNat % 4 ≠ 0 → exec (.ldUn d a i) s = trap lane 1 (s.cur.flockAddress a i.toInt 4))) ∧
      (s.Ready .stores → (∀ e ∈ rawStores d a v i, faults e.1 e.2.1 i.toInt 2) ∧ faults (.stRel d a v sc) 4 0 2 ∧
        (∀ x ∈ [Instr.redMemAdd d a v sc o, .redMemFadd d a v sc o], faults x 4 0 3) ∧ typed (.stE d a v i) Need.store ∧ typed (.stEI d a v i) Need.store)) ∧
    (let faults := fun (x : Instr) (n : Nat) (imm : Int) (code : BitVec 8) => (s.cur.flockAddress a imm n).toNat % n ≠ 0 →
        exec x s = trap none code (s.cur.flockAddress a imm n);
      (s.Ready .loads → (∀ e ∈ s.scalarLoads z r a i, faults e.1 e.2.1 i.toInt 1) ∧ faults (.ldsAcq z a sc) 8 0 1) ∧
      (s.Ready .stores → (∀ e ∈ s.scalarStores z r a i, faults e.1 e.2.length i.toInt 2) ∧ faults (.stsRel z a sc) 8 0 2)) ∧
    s.cur.laneBits a v i.toInt 4 k % 4 = 0

/-- R148 and R175: an aligned raw access whose lowest active lane meets a translation, world or permission fault at its first byte takes that fault,
and a flock-wide one the fault of its first byte; the format of a page that is not raw comes after these. A flock-wide load from where the spec
places nothing (R329), or from a device register that it does not describe, has no effect: a flock of a partition stays at it and stops no other (R304),
and a supervisor flock ends the step by name (the model's own choice, log entry 129). -/
def Sys2Proof.Machine.FaultingAccess : Prop :=
  ∀ (s : State) (d : BitVec 6) (a : BitVec 4) (v : BitVec 6) (i : BitVec 5) (sc : BitVec 3) (o : BitVec 2) (m : Fin 32) (z : BitVec 5) (r : BitVec 4),
    let meets := fun (x : Instr) (need : Need) (lane : Option (BitVec 5)) (va : Addr) =>
      (∀ f, s.locate (s.agent s.cur) need va = .error (.trap f) → exec x s = .next (s.takeTrap { f with lane := lane } s.cur.pc)) ∧
      ∀ pa l, s.locate (s.agent s.cur) need va = .ok (pa, l) → rawOk l = false →
        exec x s = .next (s.takeTrap { kind := 0x14, access := need.code, lane := lane, addr := va } s.cur.pc)
    (s.cur.em.on m = true → (∀ j, j < m → s.cur.em.on j = false) →
      let faults := fun (x : Instr) (need : Need) (n : Nat) (imm : Int) => (s.cur.laneVa a v imm n m).toNat % n = 0 →
        meets x need (some (BitVec.ofNat 5 m.val)) (s.cur.laneVa a v imm n m);
      (s.Ready .loads → (∀ e ∈ rawLoads d a v i, faults e.1 Need.load e.2.1 i.toInt) ∧ faults (.ldAcq d a v sc) Need.load 4 0 ∧
        ∀ e ∈ atomics d a v sc o, faults e.1 Need.atomic e.2.size 0) ∧
      (s.Ready .stores → (∀ e ∈ rawStores d a v i, faults e.1 Need.store e.2.1 i.toInt) ∧ faults (.stRel d a v sc) Need.store 4 0 ∧
        ∀ x ∈ [Instr.redMemAdd d a v sc o, .redMemFadd d a v sc o], faults x Need.atomic 4 0)) ∧
    (let faults := fun (x : Instr) (need : Need) (n : Nat) => (s.cur.flockAddress a i.toInt n).toNat % n = 0 →
        meets x need none (s.cur.flockAddress a i.toInt n);
      (s.Ready .loads → ∀ e ∈ s.scalarLoads z r a i, faults e.1 Need.load e.2.1) ∧
      (s.Ready .stores → ∀ e ∈ s.scalarStores z r a i, faults e.1 Need.store e.2.length)) ∧
    (s.Ready .loads → ∀ e ∈ s.scalarLoads z r a i,
      let va := s.cur.flockAddress a i.toInt e.2.1
      va.toNat % e.2.1 = 0 → (∀ t ∈ touchesFrom va e.2.1 .raw, ∃ pa, s.checkByte loadGuard t = .ok (t.1, pa)) →
      ∀ pa l why, s.locate (s.agent s.cur) Need.load va = .ok (pa, l) →
        ((regionOf pa = .hole ∧ why = .fault (.noSuchAddress pa)) ∨ (regionOf pa = .registers ∧
          ¬ (pa < Config.plewickBase + Config.plewickBytes ∧ plewickOffset (pa - Config.plewickBase) = true) ∧ why = .refusal (.deviceRegister pa))) →
        (s.cur.supervises = false → exec e.1 s = .next { s with cur := { s.cur with status := .stuck why } }) ∧
        (s.cur.supervises = true → exec e.1 s = match why with | .fault f => .fault f | .refusal x => .refused x))

/-- R99: an operation of the memory families that finds its class saturated blocks, with nothing changed, until the count falls. -/
def Sys2Proof.Machine.SaturatedClasses : Prop :=
  ∀ (s : State) (d c : BitVec 6) (a r x n : BitVec 4) (v : BitVec 6) (i z : BitVec 5) (sc : BitVec 3) (o : BitVec 2),
    let blocks := fun (cls : Class) (y : Instr) =>
      exec y s = .next { s with cur := { s.cur with status := .blocked (.saturated cls) } }
    (¬ s.Ready .loads → (∀ y ∈ [Instr.ldsB64 z a i, .ldsB32 z a i, .lda r a i, .ldsAcq z a sc, .lspB64 z x i, .lspB128 r x i], blocks .loads y) ∧
      (s.cur.em ≠ 0 → ∀ y ∈ [Instr.ldAcq d a v sc, .ldUn d a i, .ldE d a v i, .ldEI d a v i, .lspB32 d x v i] ++
        (rawLoads d a v i).map (fun e => e.1) ++ (atomics d a v sc o).map (fun e => e.1), blocks .loads y)) ∧
    (¬ s.Ready .stores → (∀ y ∈ [Instr.stsB64 z a i, .stsB32 z a i, .sta r a i, .stsRel z a sc, .sspB64 z x i, .sspB128 r x i], blocks .stores y) ∧
      (s.cur.em ≠ 0 → ∀ y ∈ [Instr.stRel d a v sc, .stB4 d a v i, .stB1 d a v i, .stE d a v i, .stEI d a v i, .sspB32 d x v i,
        .redMemAdd d a v sc o, .redMemFadd d a v sc o] ++ (rawStores d a v i).map (fun e => e.1), blocks .stores y)) ∧
    (¬ s.Ready .copies → (∀ y ∈ [Instr.tload n, .tloadT n, .tloadSp n, .tloadRaw n], blocks .copies y) ∧
      (s.tileOk c.toNat = true → ∀ y ∈ [Instr.tstore n c, .tstoreT n c, .tstorePair n c, .tstoreAdd n c], blocks .copies y))

/-- R159, R146 and R175: a scratch access that is misaligned takes the alignment fault, one in the window of an owned slot that holds no bank the
detached-bank fault, and one in no valid range the scratch-range fault: of its lowest active lane, or of the flock in the flock-wide forms. Nothing is
moved. -/
def Sys2Proof.Machine.ScratchFaults : Prop :=
  ∀ (s : State) (d : BitVec 6) (x r : BitVec 4) (z : BitVec 5) (v : BitVec 6) (i : BitVec 5) (m : Fin 32),
    let f := s.fold
    let window := fun (p q : Nat) => q < f.slots ∧ 0x1000000 + q * 0x80000 ≤ p ∧ p < 0x1000000 + (q + 1) * 0x80000
    let faults := fun (y : Instr) (code : BitVec 8) (lane : Option (BitVec 5)) (p n : Nat) =>
      let trap := fun (kind : BitVec 8) =>
        exec y s = .next (s.takeTrap { kind := kind, access := code, lane := lane, addr := BitVec.ofNat 72 p } s.cur.pc)
      (p % n ≠ 0 → trap 0x13) ∧
      (p % n = 0 → f.localBytes ≤ p →
        (∀ q, window p q → f.bankIn q = none → trap 0x17) ∧ ((∀ q, ¬ window p q) → trap 0x16))
    (s.cur.em.on m = true → (∀ j, j < m → s.cur.em.on j = false) →
      let p := scratchAddress (s.cur.getS (x.setWidth 5)) ((s.cur.lane v m).toInt + i.toInt) 4
      (s.Ready .loads → faults (.lspB32 d x v i) 1 (some (BitVec.ofNat 5 m.val)) p 4) ∧
      (s.Ready .stores → faults (.sspB32 d x v i) 2 (some (BitVec.ofNat 5 m.val)) p 4)) ∧
    let at_ := fun (n : Nat) => scratchAddress (s.cur.getS (x.setWidth 5)) i.toInt n
    (s.Ready .loads → faults (.lspB64 z x i) 1 none (at_ 8) 8 ∧ faults (.lspB128 r x i) 1 none (at_ 16) 16) ∧
    (s.Ready .stores → faults (.sspB64 z x i) 2 none (at_ 8) 8 ∧ faults (.sspB128 r x i) 2 none (at_ 16) 16)

/-- Faults and waits of accesses at issue, as four parts. -/
def Obligations.FaultsOfAccesses : Prop := MisalignedAccess ∧ FaultingAccess ∧ SaturatedClasses ∧ ScratchFaults

namespace Sys2Proof.Machine

/-- The state with the program counter and the loop levels as after an instruction; `OnlyFlow` from a changed state. -/
def Flows (r : Result) (s1 : State) : Prop := ∃ t, r = .next t ∧ OnlyFlow s1 t

/-- A scalar result on top of a changed state. -/
def Gives (r : Result) (s1 : State) (d : BitVec 5) (x : DWord) : Prop := ∃ t, r = .next t ∧ WritesScalar s1 t d x

/-- The B kind of R201: instructions that act once, when the flock has an active lane; the last list asks for privilege first (R109). -/
noncomputable def onceKind (d a b c : BitVec 5) (t k : BitVec 6) (n g : BitVec 3) (f : BitVec 1) (p : Bool) : List Instr :=
  [.launch d a, .gang d a b, .depDec a, .depAdd a b, .cancel d a, .lease d a b t, .unlease a, .lrenew d a t, .lstat d a, .estClose,
   .bdrain k, .bzero k, .bunmap k, .bmap d k, .bwait d a, .give d a k, .collPut a, .collRed a, .welt a b c, .wchk d a b, .cstat d 0, .cstat d 1,
   .boost d a, .wake a, .copyMm a b c 0 g, .copyMs a b c 0 g, .copyMb a b c 0 g, .copyMl a b c 0 g, .copyMt a b c 0 g, .copySm a b c 0 g,
   .copyBg a b c 0 g, .copyPut a b c 0 g, .copyGet a b c 0 g] ++
  (if n.getLsbD 2 then [] else [.tgset a b n, .tgresv d n, .tgpost a n, .tgfree a n, .tgtake d n, .tgclose n]) ++
  if p then [.tlbinv a b c, .tlbinvc a f, .fabort d, .snap d a, .faultDone a b] else []

/-- A matrix instruction: mode, quarter form, first tile, and whether its products are negated (R187 to R189). -/
structure MatrixForm where
  i : Instr
  mode : Mode
  one : Bool
  first : Nat
  neg : Bool

/-- The ten matrix instructions. -/
noncomputable def matrixForms (c ta tb : BitVec 4) (q : BitVec 6) (m n z : BitVec 1) (g : BitVec 3) : List MatrixForm :=
  let four := 4 * c.toNat
  [⟨.mma c ta tb m n z g, .mma, false, four, m != n⟩, ⟨.mmxXor c ta tb z g, .xor, false, four, false⟩, ⟨.mmxAnd c ta tb z g, .and, false, four, false⟩,
   ⟨.mms c ta tb m n z g, .mms, false, four, m != n⟩, ⟨.mml c ta tb m n z g, .mml, false, four, m != n⟩,
   ⟨.mmaQ q ta tb m n z g, .mma, true, q.toNat, m != n⟩, ⟨.mmxXorQ q ta tb z g, .xor, true, q.toNat, false⟩,
   ⟨.mmxAndQ q ta tb z g, .and, true, q.toNat, false⟩, ⟨.mmsQ q ta tb m n z g, .mms, true, q.toNat, m != n⟩,
   ⟨.mmlQ q ta tb m n z g, .mml, true, q.toNat, m != n⟩]

/-- The tiles that a form names, and those of them that take part under a guard (R187). -/
def MatrixForm.tiles (x : MatrixForm) : List Nat := if x.one then [x.first] else [x.first, x.first + 1, x.first + 2, x.first + 3]
def MatrixForm.works (x : MatrixForm) (m : Mask) (t : Nat) : Bool :=
  if x.one then t == x.first && m != 0 else decide (x.first ≤ t ∧ t < x.first + 4) && m.extractLsb' (8 * (t - x.first)) 8 != 0

end Sys2Proof.Machine

/-- R201: an instruction that acts once for its flock does nothing where no lane is active. -/
def Obligations.EmptyMaskDoesNothing : Prop :=
  ∀ (s : State) (d a b c : BitVec 5) (t k : BitVec 6) (n g : BitVec 3) (f : BitVec 1), s.cur.em = 0 →
    ∀ i ∈ onceKind d a b c t k n g f s.cur.privileged, Flows (exec i s) s

/-- R178 to R180: `tdset` binds a descriptor to the record that it read, with its coordinates 0; `tdoff` sets coordinates 0 to 3 or coordinate 4;
`tdpl` binds to registers and leaves the scratch address alone; `tdget` reads an item and binds nothing. -/
def Obligations.TileDescriptorResults : Prop :=
  ∀ (s : State) (n a : BitVec 4) (x y : BitVec 5) (i k : BitVec 6),
    let d := s.cur.getTd n
    let record := s.cur.getA a + BitVec.ofNat 72 (128 * i.toNat)
    let with_ := fun (e : TileDesc) => ({ s with cur := s.cur.setTd n e } : State)
    let lo := fun (z : BitVec 5) => (s.cur.getS z).toNat % 2 ^ 32
    let hi := fun (z : BitVec 5) => (s.cur.getS z).toNat / 2 ^ 32
    (∀ e, s.bindTile record ((s.cur.getS x).setWidth 32) = .ok e →
      e.binding = .scratch ∧ e.record = record ∧ e.scratch = (s.cur.getS x).setWidth 32 ∧ e.coords = [0, 0, 0, 0, 0] ∧
      Flows (exec (.tdset n a x i) s) (with_ e)) ∧
    (∀ f, s.bindTile record ((s.cur.getS x).setWidth 32) = .error (.trap f) →
      exec (.tdset n a x i) s = .next (s.takeTrap f s.cur.pc)) ∧
    Flows (exec (.tdoff n x y 0) s) (with_ { d with coords := [lo x, hi x, lo y, hi y, d.coords.getD 4 0] }) ∧
    Flows (exec (.tdoff n x y 1) s) (with_ { d with coords := d.coords.take 4 ++ [lo x] }) ∧
    Flows (exec (.tdpl n x k) s) (with_ {
      binding := .registers, vbase := x.toNat, planes := k.toNat % 32 + 1, signed := k.getLsbD 5, scratch := d.scratch }) ∧
    (s.ScalarFree x → ∀ e ∈ [((0 : BitVec 6), d.record.setWidth 64), (1, (d.record.extractLsb' 64 8).setWidth 64), (2, d.scratch.setWidth 64),
        (3, BitVec.ofNat 64 (d.coords.getD 0 0 + 2 ^ 32 * d.coords.getD 1 0)), (4, BitVec.ofNat 64 (d.coords.getD 2 0 + 2 ^ 32 * d.coords.getD 3 0)),
        (5, BitVec.ofNat 64 (d.coords.getD 4 0)), (6, d.word)],
      Gives (exec (.tdget x n e.1) s) s x e.2)

/-- R181, R185 and R186: a tile load whose descriptor fits its form and whose entries lie in extent, pad apart, writes its image to scratch and
counts as one copies operation; a descriptor that does not fit takes the descriptor fault, and memory keeps every byte. The image is that of memory when
the load issues (the model's choice, log entry 118), with zero's code as the pad of LNS6 (log entry 111). -/
def Obligations.TileLoadResults : Prop :=
  ∀ (s : State) (n : BitVec 4), s.Ready .copies → s.broken = [] →
    let d := s.cur.getTd n
    ∀ e ∈ [(Instr.tload n, LoadForm.plain), (.tloadT n, .transposed), (.tloadSp n, .sparse), (.tloadRaw n, .raw)],
      let turned := e.2 == .transposed
      (d.loadOk e.2 = false ∨ d.outOfExtent turned = true → exec e.1 s = .next (s.takeTrap { kind := 0x19, access := 6 } s.cur.pc)) ∧
      (d.loadOk e.2 = true → d.outOfExtent turned = false →
        ∀ plan, s.checkEntries Need.engineRead (d.entries turned d.width (d.loadTouch s.scaleBases)) (s.checkFootprint d) d.layout.raw
            false false false = .ok plan →
        ∃ t o, exec e.1 s = .next t ∧ o.cls = .copies ∧ o.writes = [d.span] ∧ o.dests = [] ∧ o.fault = none ∧
          Issued (s.scratchWrite s.cur.fold d.scratch.toNat (s.loadImage d plan 0) false) t o ∧ SameMemory s t)

/-- R96, R196 and R197: a tile store writes the elements of its entries in extent from the accumulator tiles, to memory or to the commit buffer, and
counts as one copies operation; no byte of memory changes but those of its elements' bits, and none where the launch holds the store back, which ends
the launch where the buffer has too few free entries (R64). A tile
outside the fold's accumulators is an illegal instruction. -/
def Sys2Proof.Machine.TileStoreResults : Prop :=
  ∀ (s : State) (n : BitVec 4) (c : BitVec 6), s.Ready .copies → s.broken = [] →
    let d := s.cur.getTd n
    let m := c.toNat
    ∀ e ∈ [(Instr.tstore n c, StoreForm.plain), (.tstoreT n c, .transposed), (.tstorePair n c, .pair)],
      let turned := e.2 == .transposed
      (16 * s.fold.acc ≤ m → exec e.1 s = .next (s.illegal 0x05 s.currentWord)) ∧
      (m < 16 * s.fold.acc → d.storeOk m = true → d.outOfExtent turned = false → s.earlyRead (d.storeTiles m) = false →
        ∀ plan, s.checkEntries Need.engineWrite (d.entries turned (if e.2 = .pair then 64 else d.width) (d.storeTouch s.scaleBases e.2))
          (.ok ()) (e.2 == .pair) false false s.buffered = .ok plan →
        let ws := if e.2 = .pair then s.pairTile m plan else s.plainTile d m plan
        let bits := ws.flatMap fun w => w.val
        (∀ k, s.bufferRoom = some k → k < s.cur.newLines bits → Overflows e.1 s) ∧
        ((∀ k, s.bufferRoom = some k → s.cur.newLines bits ≤ k) → (∀ x ∈ plan, s.tileBusy [m + x.1.row / 8] = false) →
        ∃ t o, exec e.1 s = .next t ∧ o.cls = .copies ∧ o.fault = none ∧ (o.ofFlag = ws.any fun w => w.ofl) ∧ (o.nvFlag = ws.any fun w => w.nv) ∧
          Issued (s.storeBits bits) { t with inFlight := (s.storeBits bits).inFlight } o ∧
          (s.buffered = true → SameMemory s t) ∧ (s.buffered = false → s.Canonical → OthersSame s t (bits.map fun w => w.address))))

/-- R161, R164 and R197: `tstore.add` adds each entry's sum, rounded to FP32, at its element; under the deterministic flag the additions are held
in the commit buffer, one entry for each line, and with too few free entries the launch ends (R64). No byte but those of its elements changes. -/
def Sys2Proof.Machine.TileStoreAddResult : Prop :=
  ∀ (s : State) (n : BitVec 4) (c : BitVec 6), s.Ready .copies → s.broken = [] → s.Canonical →
    let d := s.cur.getTd n
    let m := c.toNat
    (16 * s.fold.acc ≤ m → exec (.tstoreAdd n c) s = .next (s.illegal 0x05 s.currentWord)) ∧
    (m < 16 * s.fold.acc → d.storeOk m = true → d.outOfExtent false = false → s.earlyRead (d.storeTiles m) = false →
      ∀ plan, s.checkEntries Need.engineWrite (d.entries false d.width (d.storeTouch s.scaleBases .add)) (.ok ()) false true
        (s.buffered && !s.determ && !(s.cur.buf.isEmpty && s.fold.buf.isEmpty)) s.determ = .ok plan →
      (∀ x ∈ plan, s.tileBusy [m + x.1.row / 8] = false) →
      let adds := s.addends m plan
      let held := tileReductions s.cur.field s.cur.ttag s.cur.pc s.nextId (adds.map fun x => heldAddend x.1 x.2.val)
      (s.determ = true → ∀ k, s.bufferRoom = some k → k < held.length → Overflows (.tstoreAdd n c) s) ∧
      (s.determ = true → (∀ k, s.bufferRoom = some k → held.length ≤ k) →
        ∃ t o, exec (.tstoreAdd n c) s = .next t ∧ o.cls = .copies ∧ Issued { s with cur := { s.cur with buf := s.cur.buf ++ held } } t o) ∧
      (s.determ = false →
        (∀ x ∈ plan, ∀ b ∈ x.2, b.2 < Config.plewickBase ∧ s.Plain b.2) → (plan.flatMap fun x => x.2.map fun b => b.2).Nodup →
        (∀ x ∈ plan, 4 ≤ x.2.length) →
        ∃ t u o, exec (.tstoreAdd n c) s = .next t ∧ o.cls = .copies ∧ Issued u t o ∧ OnlyMemory s u ∧
          OthersSame s u (plan.flatMap fun x => x.2.map fun b => b.2) ∧
          ∀ x ∈ adds, ∀ j, j < 4 → u.read ((x.1.map fun b => b.2).getD j 0) =
            (toBytes 4 (f32Add 0 (BitVec.ofNat 32 (fromBytes (x.1.map fun b => s.read b.2))) x.2.val).val.toNat).getD j 0))

/-- Tile stores that write elements, and the one that adds to them, as two parts. -/
def Obligations.TileStoreForms : Prop := TileStoreResults ∧ TileStoreAddResult

/-- R96, R187 to R189: a matrix instruction changes, of the tiles that it names, those whose quarter has an active lane, each by its own eight A
rows; every other tile keeps its entries. It counts as one tiles operation that reads its operands. -/
def Obligations.MatrixResults : Prop :=
  ∀ (s : State) (c ta tb : BitVec 4) (q : BitVec 6) (m n z : BitVec 1) (g : BitVec 3), ∀ x ∈ matrixForms c ta tb q m n z g,
    let a := s.cur.getTd ta
    let b := s.cur.getTd tb
    let live := x.tiles.filter (x.works (s.cur.active g))
    ((∃ k ∈ x.tiles, 16 * s.fold.acc ≤ k) → exec x.i s = .next (s.illegal 0x05 s.currentWord)) ∧
    ((∀ k ∈ x.tiles, k < 16 * s.fold.acc) → live = [] → Flows (exec x.i s) s) ∧
    ((∀ k ∈ x.tiles, k < 16 * s.fold.acc) → live ≠ [] → s.cur.fencedWork = false → s.Ready .tiles → s.broken = [] →
      (∀ r ∈ a.regs, s.cur.busy (Dest.isVector r) = false) → s.checkOperands x.mode x.one a b = .ok () → s.imageUnsettled a = false → s.imageUnsettled b = false → s.tileBusy live = false →
      ∃ t o fd, exec x.i s = .next t ∧ o.cls = .tiles ∧ o.matrix = true ∧ o.tiles = live ∧ o.fault = none ∧ o.dests = [] ∧
        o.reads = a.spans ++ b.spans ∧ o.readRegs = a.regs ∧ Issued (s.setFold fd) t o ∧ fd = { s.fold with accs := fd.accs } ∧
        ∀ k, k < 64 → fd.tile k =
          if live.contains k then
            quarter x.mode x.neg (z == 1) (((s.operandLines a false).drop (8 * (if x.one then 0 else k - x.first))).take 8) (s.operandLines b true)
              (s.fold.tile k)
          else s.fold.tile k)

/-- R191, R194 and R195: the accumulator instructions write one tile, or read a row of one into the active lanes of a register, and count as one
tiles operation, with no active lane too; `tfence` marks what later matrix instructions wait for. `accneg` of a tile that holds an entry in error
leaves it and gives a machine check with its record (R303; the record's fields: log entry 131). A row of a tile that an incomplete operation of another flock of the fold writes is undefined (R93, R117). -/
def Obligations.AccumulatorResults : Prop :=
  ∀ (s : State) (d a : BitVec 6) (r f : BitVec 3) (p : BitVec 2) (h : BitVec 1),
    let marked := s.cur.pend.map fun o =>
      if !o.done && (o.feeds || s.jobs.any fun j => o.job == some j.id && j.kind == .mt) then { o with fenced := true } else o
    Flows (exec .tfence s) { s with cur := { s.cur with unfenced := [], pend := marked } } ∧
    (16 * s.fold.acc ≤ d.toNat → ∀ i ∈ [Instr.accz d, .accneg d, .accwr d a r p], exec i s = .next (s.illegal 0x05 s.currentWord)) ∧
    (16 * s.fold.acc ≤ a.toNat → ∀ i ∈ [Instr.accrd d a r f, .accrdp d a r h], exec i s = .next (s.illegal 0x05 s.currentWord)) ∧
    (d.toNat < 16 * s.fold.acc → s.Ready .tiles → s.earlyRead [d.toNat] = false →
      (s.cur.em = 0 → ∃ t o, exec (.accwr d a r p) s = .next t ∧ o.cls = .tiles ∧ o.dests = [] ∧ o.fault = none ∧ Issued s t o) ∧
      ((∃ i j, i < 8 ∧ j < 32 ∧ s.badEntry d.toNat i j = true) → ∃ t o, exec (.accneg d) s = .next t ∧ o.cls = .tiles ∧ o.tiles = [d.toNat] ∧
        o.fault = some { kind := 0x30, access := 6 } ∧ Issued (s.errorRecord s.cur.ctx 0 0 4 0 0) t o) ∧
      ∀ e ∈ [(Instr.accz d, fun (_ _ : Nat) (_ : Pair) => ({ s := 0, c := 0 } : Pair)),
          (.accneg d, fun _ _ x => { s := negWord x.s, c := negWord x.c })] ++
          (if s.cur.em = 0 then [] else [(.accwr d a r p, fun i j x =>
            if i = r.toNat ∧ s.cur.em.getLsbD j = true then
              let w := s.cur.lane a ⟨j % 32, Nat.mod_lt _ (by decide)⟩
              if p = 0 then { s := w, c := 0 } else if p = 1 then { x with c := w } else { x with s := w }
            else x)]),
        (e.1 = .accneg d → ∀ i j, i < 8 → j < 32 → s.badEntry d.toNat i j = false) →
        ∃ t o fd, exec e.1 s = .next t ∧ o.cls = .tiles ∧ o.matrix = false ∧ o.tiles = [d.toNat] ∧ Issued (s.setFold fd) t o ∧
          fd = { s.fold with accs := fd.accs } ∧ (∀ k, k ≠ d.toNat → fd.tile k = s.fold.tile k) ∧
          ∀ i j, i < 8 → j < 32 → tileAt (fd.tile d.toNat) i j = e.2 i j (tileAt (s.fold.tile d.toNat) i j)) ∧
    (a.toNat < 16 * s.fold.acc →
      (s.cur.em = 0 → s.Ready .tiles → ∀ i ∈ [Instr.accrd d a r f, .accrdp d a r h], ∃ t o, exec i s = .next t ∧ o.cls = .tiles ∧ o.dests = [] ∧
        o.fault = none ∧ Issued s t o) ∧
      (s.cur.em ≠ 0 → s.Ready .tiles → s.broken = [] → s.earlyRead [a.toNat] = false → s.VectorFree d →
        ∀ e ∈ [(Instr.accrd d a r f, fun (x : Pair) => x.readout s.cur.rm s.cur.sat f),
            (.accrdp d a r h, fun x => { val := if h = 0 then x.s else x.c })],
          let entry := fun (k : Fin 32) => e.2 (tileAt (s.fold.tile a.toNat) r.toNat k.val)
          ∃ t o, exec e.1 s = .next t ∧ o.cls = .tiles ∧ o.dests = s.group d 1 (fun k _ => (entry k).val) ∧ o.fault = none ∧
            (o.ofFlag = true ↔ ∃ k, s.cur.em.on k = true ∧ (entry k).ofl = true) ∧
            (o.nvFlag = true ↔ ∃ k, s.cur.em.on k = true ∧ (entry k).nv = true) ∧ Issued s t o)) ∧
    (a.toNat < 16 * s.fold.acc → s.cur.em ≠ 0 → s.Ready .tiles → s.broken = [] → s.VectorFree d → s.cur.matrixRead [a.toNat] = false →
      (∃ g ∈ s.flocks, g.fold = s.cur.fold ∧ g.id ≠ s.cur.id ∧ ∃ o ∈ g.pend, o.done = false ∧ a.toNat ∈ o.tiles) →
      ∃ t o n, exec (.accrdp d a r h) s = .next t ∧ o.cls = .tiles ∧ Issued s t o ∧
        o.dests = s.group d 1 fun k _ => Config.freeWord (n + 2 * k.val + h.toNat))

namespace Sys2Proof.Machine

/-- A precise trap of the current instruction with this kind and no address. -/
def Traps (s : State) (r : Result) (kind : BitVec 8) : Prop := r = .next (s.takeTrap { kind := kind } s.cur.pc)

/-- The copies of R204 and what each moves: its two ends as the scalars name them. -/
noncomputable def copyForms (f : Flock) (a b c : BitVec 5) (g k : BitVec 3) : List (Instr × JobKind × EndName × EndName) :=
  let record := fun (x : BitVec 5) => EndName.record (f.pointer (f.getS x))
  let image := fun (x : BitVec 5) (slot : Option Bool) => EndName.image ((f.getS x).toNat % 2 ^ 32) slot
  [(.copyMm a b c g k, .mm, record a, record b), (.copyMs a b c g k, .ms, record a, image b (some false)),
   (.copyMb a b c g k, .mb, record a, image b (some true)), (.copyMl a b c g k, .ml, record a, record b),
   (.copyMt a b c g k, .mt, record a, .trough (f.getS b)), (.copySm a b c g k, .sm, image a none, record b),
   (.copyBg a b c g k, .bg, record a, record b), (.copyPut a b c g k, .put, record a, record b), (.copyGet a b c g k, .get, record a, record b)]

/-- A copy was accepted (R208): one job more, with the next sequence number of its context, counted as one copies operation that names it; no byte
of memory has changed. -/
def Accepted (s t : State) (q : CopyAsk) (p : CopyPlan) : Prop :=
  ∃ j o, t.jobs = s.jobs ++ [j] ∧ j.id = s.nextId ∧ j.kind = q.kind ∧ j.flock = s.cur.id ∧ j.fold = s.cur.fold ∧ j.ctx = s.work ∧
    j.start = q.start ∧ j.stamp = q.stamp ∧ j.identity = q.identity ∧ j.width = p.width ∧ j.total = p.total ∧ j.rounding = s.cur.fcr ∧
    j.seq = (s.ctx s.work).copySeq ∧ j.next = 0 ∧ j.status = 0 ∧ j.stopped = false ∧
    (t.ctx s.work).copySeq = nextSequence (s.ctx s.work).copySeq ∧
    t.cur.pend = s.cur.pend ++ [o] ∧ o.cls = .copies ∧ o.done = false ∧ o.job = some j.id ∧ o.dests = [] ∧
    t.cur = { s.cur.advance 4 with pend := t.cur.pend } ∧ SameMemory s t

end Sys2Proof.Machine

/-- R201, R204 and R208: a copy whose guard leaves an active lane and which passes every check of its issue is accepted; without an active lane it
does nothing. A stamp scalar of 0 names no stamp, and any other is a pointer with the top byte of the instruction's address (that 0 is tested before
the top byte is added: the model's choice, log entry 92). -/
def Sys2Proof.Machine.CopyIssue : Prop :=
  ∀ (s : State) (a b c : BitVec 5) (g k : BitVec 3), ∀ e ∈ copyForms s.cur a b c g k,
    let start := if k = 0 then [0, 0, 0, 0, 0] else (List.range 5).map fun j => (s.cur.getTd (k.setWidth 4)).coords.getD j 0
    let stamp := if s.cur.getS c = 0 then 0 else s.cur.pointer (s.cur.getS c)
    let q : CopyAsk := { kind := e.2.1, src := e.2.2.1, dst := e.2.2.2, start := start, stamp := stamp }
    (s.cur.active g = 0 → Flows (exec e.1 s) s) ∧
    (s.cur.active g ≠ 0 → s.Ready .copies →
      (∀ p, s.copyCheck q = .ok p → ∃ t, exec e.1 s = .next t ∧ Accepted s t q p) ∧
      (∀ f, s.copyCheck q = .error (.trap f) → exec e.1 s = .next (s.takeTrap f s.cur.pc)))

/-- R226, R227 and R237: a collective step reads its record of 64 bytes, and is accepted as a copy is. A record whose reserved bytes are not zero is a
copy-operand fault (which fault: the model's choice, log entry 105). R237 puts it, and the copy-operand fault of the layouts that the record names,
before the alignment fault of a misaligned record; that a misaligned record is looked at as far as it can be read is the model's reading (log entry
56). -/
def Sys2Proof.Machine.CollectiveIssue : Prop :=
  ∀ (s : State) (a : BitVec 5), s.cur.em ≠ 0 →
    let va := s.cur.pointer (s.cur.getS a)
    ∀ e ∈ [(Instr.collPut a, JobKind.collPut), (.collRed a, .collRed)],
      let ask := fun (bs : List Byte) => CopyAsk.mk e.2 (.record (recordAddr bs 0)) (.record (recordAddr bs 16)) [0, 0, 0, 0, 0]
        (recordAddr bs 32) (recordDWord bs 48)
      (∀ bs, s.readRecord Need.engineRead va 64 = .ok bs → stepOk bs = false →
        exec e.1 s = .next (s.takeTrap { kind := 0x1A, access := 6 } s.cur.pc)) ∧
      (va.toNat % 64 ≠ 0 → ∀ bs, s.readRecord Need.engineRead va 64 = .ok bs → stepOk bs = true → ∀ f, s.copyCheck (ask bs) = .error (.trap f) →
        f.kind = 0x1A → exec e.1 s = .next (s.takeTrap f s.cur.pc)) ∧
      (va.toNat % 64 ≠ 0 → (∀ bs, s.readRecord Need.engineRead va 64 = .ok bs →
          stepOk bs = true ∧ ∀ f, s.copyCheck (ask bs) = .error (.trap f) → f.kind ≠ 0x1A) →
        exec e.1 s = .next (s.takeTrap { kind := 0x13, access := 6, addr := va } s.cur.pc)) ∧
      (va.toNat % 64 = 0 → ∀ bs, s.readRecord Need.engineRead va 64 = .ok bs → stepOk bs = true → s.Ready .copies →
        ∀ p, s.copyCheck (ask bs) = .ok p → ∃ t, exec e.1 s = .next t ∧ Accepted s t (ask bs) p)

/-- Copies and collective steps as they issue, as two parts. -/
def Obligations.CopyAndCollectiveIssue : Prop := CopyIssue ∧ CollectiveIssue

/-- R212, R213, R266, R268 and R269: what each trough instruction does to its trough and returns. Where none waits before it, a reservation takes the
next slot of the ring in order, a take the oldest filled slot, and the flock then holds it; `tgpost` and `tgfree` change the slot that a scalar names;
a misuse is the trough fault, and `tgset` keeps the order of the requests that wait. What reaches the slots of a trough whose range is gone, as with a
bank given away, takes the fault of the range; `tgclose` and `tgstat`, which reach none, do not ask for it (log entry 69). A half-core fold has no
trough above tg3. -/
def Obligations.TroughResults : Prop :=
  ∀ (s : State) (d a b : BitVec 5) (n : BitVec 3),
    let t := s.fold.trough n
    let mine := fun (ws : List Waiter) => ws.filter fun w => w != s.cur.waiter
    let size := (s.cur.getS b).toNat
    let base := (s.cur.getS a).toNat % 2 ^ 32
    let count := size % 2 ^ 16
    let z := size / 2 ^ 16 % 2 ^ 8
    let range := s.fold.checkScratch 0 t.base (t.count * 2 ^ t.logSize)
    (s.fold.half = true → n.getLsbD 2 = true →
      ∀ i ∈ [Instr.tgset a b n, .tgresv d n, .tgpost a n, .tgtake d n, .tgfree a n, .tgclose n, .tgstat d n],
        exec i s = .next (s.illegal 0x05 s.currentWord)) ∧
    ((s.fold.half && n.getLsbD 2) = false →
      (t.set = false → Traps s (exec (.tgstat d n) s) 0x1B) ∧
      (t.set = true → s.ScalarFree d → Gives (exec (.tgstat d n) s) s d t.word) ∧
      (s.cur.em ≠ 0 →
        (1 ≤ count → count ≤ 1024 → 6 ≤ z → z ≤ 16 → size / 2 ^ 24 = 0 → base % 64 = 0 → t.slots = [] →
          (s.fold.checkScratch 0 base (count * 2 ^ z) = .ok () →
            Flows (exec (.tgset a b n) s) (s.setTrough n {
              set := true, base := base, logSize := z, count := count, reserving := t.reserving, taking := t.taking }).spoilOverlaps) ∧
          (∀ f, s.fold.checkScratch 0 base (count * 2 ^ z) = .error (.trap f) → exec (.tgset a b n) s = .next (s.takeTrap f s.cur.pc))) ∧
        ((count = 0 ∨ 1024 < count ∨ z < 6 ∨ 16 < z ∨ size / 2 ^ 24 ≠ 0 ∨ base % 64 ≠ 0 ∨ t.slots ≠ []) → Traps s (exec (.tgset a b n) s) 0x1B) ∧
        (t.set = false → ∀ i ∈ [Instr.tgresv d n, .tgpost a n, .tgtake d n, .tgfree a n, .tgclose n], Traps s (exec i s) 0x1B) ∧
        (t.set = true → Flows (exec (.tgclose n) s) (s.setTrough n { t with closed := true })) ∧
        (t.set = true → ∀ f, range = .error (.trap f) →
          ∀ i ∈ [Instr.tgresv d n, .tgpost a n, .tgtake d n, .tgfree a n], exec i s = .next (s.takeTrap f s.cur.pc)) ∧
        (t.set = true → range = .ok () →
          (t.closed = true → Traps s (exec (.tgresv d n) s) 0x1B) ∧
          (t.closed = false → s.waiting t.reserving = [] → 0 < t.count - t.slots.length → s.ScalarFree d →
            Gives (exec (.tgresv d n) s) (s.setTrough n { t with
              head := (t.head + 1) % t.count, slots := t.slots ++ [(t.head, .reserved)], holders := t.holders ++ [(t.head, s.cur.id)]
              reserving := mine t.reserving })
              d (BitVec.ofNat 64 (t.base + t.head * 2 ^ t.logSize))) ∧
          (t.closed = false → t.count - t.slots.length = 0 → ∃ u, exec (.tgresv d n) s = .next u ∧
            Blocks (s.setTrough n { t with reserving := joinQueue t.reserving s.cur.waiter }) u (.reserve n.toNat)) ∧
          (∀ e ∈ [(Instr.tgpost a n, SlotState.reserved, SlotState.posted), (.tgfree a n, .taken, .released)],
            (∀ u, t.change (s.cur.getS a).toNat e.2.1 e.2.2 = some u → Flows (exec e.1 s) (s.setTrough n u)) ∧
            ((∀ x ∈ t.slots, x.2 = e.2.1 → t.address x.1 ≠ (s.cur.getS a).toNat) → Traps s (exec e.1 s) 0x1B)) ∧
          (∀ l k r, t.slots = l ++ (k, .filled) :: r → (∀ x ∈ l, x.2 ≠ .filled) → s.waiting t.taking = [] → s.ScalarFree d →
            Gives (exec (.tgtake d n) s) (s.setTrough n { t with
              slots := l ++ (k, .taken) :: r, taking := mine t.taking, holders := t.holders ++ [(k, s.cur.id)] })
              d (BitVec.ofNat 64 (t.address k))) ∧
          ((∀ x ∈ t.slots, x.2 ≠ .filled) → t.closed = true → s.ScalarFree d →
            Gives (exec (.tgtake d n) s) (s.setTrough n { t with taking := mine t.taking }) d 0) ∧
          ((∀ x ∈ t.slots, x.2 ≠ .filled) → t.closed = false → ∃ u, exec (.tgtake d n) s = .next u ∧
            Blocks (s.setTrough n { t with taking := joinQueue t.taking s.cur.waiter }) u (.take n.toNat)))))

/-- R215, R263 and R266: what each bank instruction does. A slot that the fold does not own is a scratch-range fault, an owned slot without a bank is a
detached-bank fault, and a mapped slot is a bank fault for `bmap`. What `bzero` and `bmap` write is not ordered for the fold's matrix instructions
before `tfence` (R191; for `bmap` the model's reading, log entry 103). A slot in which a copy has yet to fill a trough's slot is not drained. -/
def Sys2Proof.Machine.BankResults : Prop :=
  ∀ (s : State) (d m : BitVec 5) (k : BitVec 6),
    let n := k.toNat
    let fault := fun (kind : BitVec 8) => s.takeTrap { kind := kind, addr := BitVec.ofNat 72 (0x1000000 + n * 0x80000) } s.cur.pc
    let mask := (s.cur.getS m).setWidth 8
    let hit := s.fold.arrival &&& mask
    (s.fold.slots ≤ n → exec (.bstat d k) s = .next (fault 0x16)) ∧
    (n < s.fold.slots → s.ScalarFree d → Gives (exec (.bstat d k) s) s d (s.fold.slotWord n)) ∧
    (s.cur.em ≠ 0 →
    (s.fold.slots ≤ n → ∀ i ∈ [Instr.bdrain k, .bzero k, .bunmap k, .bmap d k, .give d m k], exec i s = .next (fault 0x16)) ∧
    (n < s.fold.slots →
      (s.fold.bankIn n = none → (∀ i ∈ [Instr.bdrain k, .bzero k, .bunmap k, .give d m k], exec i s = .next (fault 0x17)) ∧
        (s.ScalarFree d →
          (s.freeBank (s.fold.core / 8) (s.owner s.fold.ctx) = none → Gives (exec (.bmap d k) s) s d (BitVec.allOnes 64)) ∧
          (∀ b zero, s.freeBank (s.fold.core / 8) (s.owner s.fold.ctx) = some (b, zero) →
            let bank := s.bank (16 * (s.fold.core / 8) + b)
            Gives (exec (.bmap d k) s) (State.setBank { s with fold := s.fold.setSlot n (some (BitVec.ofNat 4 b)) } (16 * (s.fold.core / 8) + b)
              { place := .mapped s.fold.core (s.fold.coreSlot n), owner := some (s.owner s.fold.ctx), cells := if zero then [] else bank.cells }
              |>.unfence s.cur.fold n)
              d (BitVec.ofNat 64 b)))) ∧
      (∀ j ∈ s.jobs, ∀ q, j.dst = .trough q → j.fold = s.fold.id → j.slot = none → j.stopped = false →
        let t := s.fold.trough (BitVec.ofNat 3 q)
        t.set = true → overlap t.base (t.count * 2 ^ t.logSize) (0x1000000 + n * 0x80000) 0x80000 = true → s.drained n = false) ∧
      (∀ b, s.fold.bankIn n = some b →
        Traps s (exec (.bmap d k) s) 0x1C ∧
        (s.drained n = false → ∀ i ∈ [Instr.bdrain k, .bzero k, .bunmap k], ∃ t, exec i s = .next t ∧ Blocks s t (.drain n)) ∧
        (s.drained n = true →
          Flows (exec (.bdrain k) s) s ∧ Flows (exec (.bzero k) s) ((s.setBank b { s.bank b with cells := [] }).unfence s.cur.fold n) ∧
          Flows (exec (.bunmap k) s) (State.setBank { s with fold := s.fold.setSlot n none } b { s.bank b with place := .pooled })))) ∧
    (mask = 0 → s.ScalarFree d → Gives (exec (.bwait d m) s) s d 8) ∧
    (mask ≠ 0 → hit = 0 → ∃ t, exec (.bwait d m) s = .next t ∧ Blocks s t (.bank mask)) ∧
    (s.ScalarFree d → ∀ j : Fin 8, hit.getLsbD j.val = true → (∀ i, i < j.val → hit.getLsbD i = false) →
      Gives (exec (.bwait d m) s) { s with fold := { s.fold with arrival := s.fold.arrival &&& ~~~(1#8 <<< j.val) } } d (BitVec.ofNat 64 j.val)))

/-- R216 and R217: `give` answers 2 for a member that is not or has ended, 4 for the giver itself and 1 where the member has no empty slot; else the
bank moves to the member's lowest empty slot, whose number it answers in bits 15:8, and the member's arrival bit is set. What it holds is not ordered
for the member's matrix instructions before `tfence` (the model's reading, log entry 103). -/
def Sys2Proof.Machine.GiveResults : Prop :=
  ∀ (s : State) (d m : BitVec 5) (k : BitVec 6) (b : Nat), s.cur.em ≠ 0 → s.ScalarFree d → k.toNat < s.fold.slots →
    s.fold.bankIn k.toNat = some b →
    let x := (s.cur.getS m).toNat % 8
    let g := match s.launch with | some l => l.hdr.gangSize | none => 0
    (g ≤ x → Gives (exec (.give d m k) s) s d 2) ∧
    (x < g → x = s.fold.visit % g → Gives (exec (.give d m k) s) s d 4) ∧
    (x < g → x ≠ s.fold.visit % g →
      (s.member g x = .ended → Gives (exec (.give d m k) s) s d 2) ∧
      (s.drained k.toNat = true →
        (∀ f, s.member g x = .live f → f.emptySlot = none → Gives (exec (.give d m k) s) s d 1) ∧
        (∀ f j, s.member g x = .live f → f.emptySlot = some j → Gives (exec (.give d m k) s)
          (State.setBank ((s.setFold { s.fold.setSlot k.toNat none with arrival := s.fold.arrival &&& ~~~(1#8 <<< k.toNat) }).setFold
            { f.setSlot j (some (BitVec.ofNat 4 b)) with arrival := f.arrival ||| (1#8 <<< j) }) b { s.bank b with place := .mapped f.core (f.coreSlot j) }
            |>.unfence f.id j)
          d (BitVec.ofNat 64 (j * 256)))))

/-- Banks, and the giving of one, as two parts. -/
def Obligations.BankAndGiveResults : Prop := BankResults ∧ GiveResults

/-- R229: a draw gives each active lane 64 bits mixed from its own counter and the key, and counts; a counter of an active lane outside the launch's
range is a fault and nothing is drawn. A supervisor has no launch and so no range: it faults (the model's choice, log entry 18). -/
def Obligations.RandomDraws : Prop :=
  ∀ (s : State) (d a : BitVec 5),
    let r : BitVec 6 := d.setWidth 6
    let n := match s.launch with | some l => l.hdr.total | none => 0
    let range := match s.launch with | some l => (l.hdr.rngBase, l.hdr.rngLength) | none => (0, 0)
    let off := fun (i : Fin 32) => BitVec.ofNat 64 (s.cur.draw.toNat * (n * 512) + s.fold.visit * 512 + s.cur.field * 32 + i.val)
    let bits := fun (i : Fin 32) => mix64 (mix64 (range.1 + off i) ^^^ s.cur.key)
    let next : State := { s with cur := { s.cur with draw := s.cur.draw + 1 } }
    ((∀ i, s.cur.em.on i = true → off i < range.2) → (s.cur.em = 0 ∨ s.VectorFree r) →
      (∃ t, exec (.rng d) s = .next t ∧ WritesLanes next t r s.cur.em fun i => (bits i).setWidth 32) ∧
      ∃ t, exec (.rngF d) s = .next t ∧ WritesLanes next t r s.cur.em fun i => rne32 (.fin false ((bits i).toNat / 2 ^ 40) (-24))) ∧
    (∀ i, s.cur.em.on i = true → range.2 ≤ off i → Traps s (exec (.rng d) s) 0x1F ∧ Traps s (exec (.rngF d) s) 0x1F) ∧
    Flows (exec (.rngkey a) s) { s with cur := { s.cur with key := s.cur.getS a } }

/-- R218 and R275: a lease that is granted is held until 2^t microseconds from now, and its handle is answered; one that is not answers 0. A handle
that is not held renews nothing and has expiry 0. At the event of its expiry a lease that is due is gone. A non-secure shepherd asks in vain for a
context of a secure partition (R367; what it is answered is the model's choice, log entry 137). -/
def Obligations.LeaseResults : Prop :=
  ∀ (s : State) (d a b : BitVec 5) (t : BitVec 6) (c h : Nat), s.cur.em ≠ 0 → s.ScalarFree d →
    let va := s.cur.pointer (s.cur.getS a)
    let n := (s.cur.getS b).toNat
    let ctx := s.ctx s.work
    let till := s.time + BitVec.ofNat 64 (1000 * 2 ^ t.toNat)
    let ok := va.toNat % 64 = 0 ∧ n % 64 = 0 ∧ 64 ≤ n ∧ n ≤ 2 ^ 24
    let x := (s.cur.getS a).toNat % 16
    let may := s.cur.supervises = false ∨ s.cur.secure = true ∨ (s.partitionOf s.work).secure = false
    (¬ may → ok → s.grantLease va n t = none) ∧
    (¬ ok → Traps s (exec (.lease d a b t) s) 0x1A) ∧
    (ok → s.grantLease va n t = none → Gives (exec (.lease d a b t) s) s d 0) ∧
    (∀ l, ok → s.grantLease va n t = some l → l.base = va ∧ l.len = n ∧ l.expiry = till ∧ 1 ≤ l.handle ∧ l.handle ≤ 15 ∧
      (∀ k ∈ s.leases s.work, k.handle ≠ l.handle) ∧
      Gives (exec (.lease d a b t) s) (s.setCtx s.work { ctx with leases := s.leases s.work ++ [l] }) d (BitVec.ofNat 64 l.handle)) ∧
    (may → Flows (exec (.unlease a) s) (s.setCtx s.work { ctx with leases := ctx.leases.filter fun l => l.handle != x })) ∧
    (¬ may → Flows (exec (.unlease a) s) (s.setCtx s.work ctx)) ∧
    ((¬ may ∨ ∀ l ∈ s.leases s.work, l.handle ≠ x) → Gives (exec (.lrenew d a t) s) s d 0 ∧ Gives (exec (.lstat d a) s) s d 0) ∧
    (may → ∀ l ∈ s.leases s.work, l.handle = x →
      Gives (exec (.lrenew d a t) s) (s.setCtx s.work { ctx with
        leases := (s.leases s.work).map fun k => if k.handle = x then { k with expiry := till } else k }) d 1 ∧
      ((∀ k ∈ s.leases s.work, k.handle = x → k = l) → Gives (exec (.lstat d a) s) s d l.expiry)) ∧
    exec (.leaseExpiry c h) s = .next (s.setCtx c { s.ctx c with
      leases := (s.ctx c).leases.filter fun l => !(l.handle == h && decide (l.expiry ≤ s.time)) })

/-- R45 to R48, R62 and R219: the estimator instructions. Lanes add in ascending order, a value that is not finite only sets the sticky bit;
`est.close` deposits, and is a legality fault without a record, in a supervisor, which has no launch, too (the model's choice, log entry 89); a record
is read as one load of 64 bytes whatever the mask holds, and `est.wait` waits for a narrow enough or final one. -/
def Obligations.EstimatorResults : Prop :=
  ∀ (s : State) (v a b : BitVec 5),
    let with_ := fun (e : Estimate) => ({ s with cur := { s.cur with est := e } } : State)
    let xs := s.cur.valuesIn (v.setWidth 6) s.cur.em
    let go := fun (f : Estimate → DWord → Estimate) =>
      xs.foldl (fun e x => if (f32 x).isFinite then f e (toF64 (f32 x)) else { e with nonfinite := true }) s.cur.est
    let record := match s.launch with | some l => l.hdr.record | none => 0
    let r : BitVec 6 := v.setWidth 6
    let va := s.cur.pointer (s.cur.getS a)
    let lanesOf := fun (bs : List Byte) => Lanes.merge (s.cur.getV r) 0xFFFF fun i => BitVec.ofNat 32 (fromBytes ((bs.drop (4 * i.val)).take 4))
    Flows (exec .estInit s) (with_ {}) ∧ Flows (exec (.estAdd v) s) (with_ (go Estimate.add)) ∧
    Flows (exec (.estAddw v b) s) (with_ (go fun e x => e.combine { n := (s.cur.getS b).toNat, mean := x })) ∧
    (s.cur.em ≠ 0 → record = 0 → Traps s (exec .estClose s) 0x20) ∧
    (s.cur.em ≠ 0 → record ≠ 0 → Flows (exec .estClose s) { s with
      cur := { s.cur with est := {} }, fold := { s.fold with deposits := s.fold.deposits ++ [{ field := s.cur.field, est := s.cur.est }] } }) ∧
    (va.toNat % 64 = 0 → s.Touchable loadGuard (touchesFrom va 64 .raw) → s.broken = [] → s.VectorFree r →
      let bs := s.loaded Need.load va 64
      (s.Ready .loads → ∃ t o, exec (.estRead v a) s = .next t ∧ Issued s t o ∧ o.cls = .loads ∧ o.fault = none ∧
        o.dests = [.vector r (s.cur.getV r) (lanesOf bs) false]) ∧
      (recordMeets bs (s.cur.getS b) = true → ∃ t, exec (.estWait v a b) s = .next t ∧
        WritesLanes s t r 0xFFFF fun i => BitVec.ofNat 32 (fromBytes ((bs.drop (4 * i.val)).take 4))) ∧
      (recordMeets bs (s.cur.getS b) = false → ∃ t, exec (.estWait v a b) s = .next t ∧ Blocks s t (.estimate va (s.cur.getS b))))

namespace Sys2Proof.Machine

/-- The current flock may touch every byte of a range as a unit does for it: translated and reachable, whatever the format of its pages. -/
def State.Reachable (s : State) (n : Need) (va : Addr) (k : Nat) : Prop :=
  ∀ j, j < k → ∃ pa l, s.translate (s.agent s.cur) n (va + BitVec.ofNat 72 j) = .ok (pa, l)

/-- The bytes of such a range as memory holds them. -/
def State.unitBytes (s : State) (n : Need) (va : Addr) (k : Nat) : List Byte :=
  (List.range k).map fun j => s.read (s.placeAt n (va + BitVec.ofNat 72 j))

/-- Whether the flock's launch is restartable. -/
def State.restartable (s : State) : Bool := match s.launch with | some l => l.hdr.restart | none => false

/-- The system registers of R234 with what a read gives. -/
def systemRegisters (s : State) : List (BitVec 6 × DWord) :=
  let f := s.cur
  let c := s.ctx f.ctx
  let hi := fun (x : Addr) => (x >>> 64).setWidth 64
  [(0, f.tinfo), (1, f.epc.setWidth 64), (2, hi f.epc), (3, f.ecause), (4, f.faddr.setWidth 64), (5, hi f.faddr), (6, c.tvec.setWidth 64),
   (7, hi c.tvec), (8, c.svec.setWidth 64), (9, hi c.svec), (10, c.mxsb4.setWidth 64), (11, hi c.mxsb4), (12, c.mxsb6.setWidth 64), (13, hi c.mxsb6),
   (14, s.contextNumber), (15, (s.ctx s.work).fgen), (16, c.parkb.setWidth 64), (17, hi c.parkb), (18, c.errq.setWidth 64), (19, hi c.errq),
   (20, s.time), (21, (s.ctx s.work).energy), (22, f.dpc.setWidth 64), (23, hi f.dpc)]

/-- The system registers that `sset` writes, with the machine after a write of x (R234). -/
def systemWrites (s : State) (x : DWord) : List (BitVec 6 × State) :=
  let c := s.ctx s.cur.ctx
  let put := fun (k : Context) => s.setCtx s.cur.ctx k
  let lo := fun (r : Addr) => r.extractLsb' 64 8 ++ x
  let hi := fun (r : Addr) => x.extractLsb' 0 8 ++ r.extractLsb' 0 64
  [(1, { s with cur := { s.cur with epc := lo s.cur.epc } }), (2, { s with cur := { s.cur with epc := hi s.cur.epc } }),
   (6, put { c with tvec := lo c.tvec }), (7, put { c with tvec := hi c.tvec }), (8, put { c with svec := lo c.svec }), (9, put { c with svec := hi c.svec }),
   (10, put { c with mxsb4 := lo c.mxsb4 }), (11, put { c with mxsb4 := hi c.mxsb4 }), (12, put { c with mxsb6 := lo c.mxsb6 }),
   (13, put { c with mxsb6 := hi c.mxsb6 }), (16, put { c with parkb := lo c.parkb }), (17, put { c with parkb := hi c.parkb }),
   (18, put { c with errq := lo c.errq }), (19, put { c with errq := hi c.errq })]

/-- A slot of a park list is freed: its kind becomes 0, and the entries in use one fewer (R288). -/
def FreesSlot (s u : State) (ctx slot : Nat) : Prop :=
  let a := s.unitWrite ctx (s.parkEntry ctx slot) [0]
  (a.parkHeader ctx = none → u = a) ∧
  ∀ used rest, a.parkHeader ctx = some (used, rest) → u = a.unitWrite ctx (a.ctx ctx).parkb (toBytes 8 (used - 1))

/-- A launch has been ended early with a final status (R55, R56): it closes with that status and its stop visit, the next visit of its record or the lowest
that has not ended, without deposits and in record state 6; none of its folds stands on a core, in a queue, in the save pool or in a park list, and the
folds of others do as before. One that was closing already keeps what it closes with. -/
def EndsLaunch (s u : State) (id : Nat) (status : BitVec 8) : Prop :=
  ∀ l, s.launch? id = some l →
    (∃ m, u.launch? id = some m ∧
      m = { l with closing := m.closing, deposits := m.deposits, state := m.state, recordAt := m.recordAt, spoiled := m.spoiled } ∧
      (l.closing ≠ none → m.closing = l.closing ∧ m.deposits = l.deposits ∧ m.state = l.state) ∧
      (l.closing = none → m.deposits = [] ∧ m.state = 6 ∧ ∃ k, m.closing = some (status, k) ∧ (l.hdr.record ≠ 0 → k = l.version) ∧
        (l.hdr.record = 0 → k ∉ l.ended ∧ ∀ j, j < k → j ∈ l.ended))) ∧
    (∀ f ∈ u.allFolds, f.launch ≠ id) ∧ (∀ k ∈ u.parked, k.launch ≠ id) ∧ (∀ k ∈ u.saved, k.fold.launch ≠ id) ∧ (∀ d ∈ u.dispatch, d.launch ≠ id) ∧
    (∀ f ∈ s.allFolds, f.launch = id → f.id ≠ 0 → ∀ g ∈ u.allFlocks, g.fold ≠ f.id) ∧
    (∀ f ∈ s.allFolds, f.launch ≠ id → f.id ≠ 0 → (∀ g ∈ s.allFolds, g.id = f.id → g = f) → f ∈ u.allFolds) ∧
    ∀ k ∈ s.parked, k.launch ≠ id → k ∈ u.parked

/-- The record of a launch has been written with some bytes (R43), if it names one that translates: its places are kept with the launch, to whose own record the
write is none of software's. -/
def RecordWritten (s u : State) (l : Launch) (bs : List Byte) : Prop :=
  let w : State := { s with free := s.free + 64 }
  (l.hdr.record = 0 → u = s) ∧
  (l.hdr.record ≠ 0 →
    (∀ e, w.plainBytes (w.unit l.ctx) { w := true } l.hdr.record 64 = .error e → u = w) ∧
    ∀ pas, w.plainBytes (w.unit l.ctx) { w := true } l.hdr.record 64 = .ok pas →
      u = ((w.setRecordAt l.id []).unitWrite l.ctx l.hdr.record bs).setRecordAt l.id pas)

/-- A reply for a context and a generation has reached the entries of the park list that wait for it (R291). In a resident context of this generation an
entry is freed: a stalled flock issues its instruction again, a parked fold may go onto a core. Otherwise the entry, or that of a fold saved in this
generation, is marked as installed. Said whole for one entry, and of several what each gets. -/
def Replies (s u : State) (ctx : Nat) (gen : DWord) : Prop :=
  let hit := s.parked.filter fun k => k.ctx == ctx && k.generation == gen && !k.freed
  let held := s.saved.filter fun k => k.fold.ctx == ctx && k.generation == gen
  let now := s.stateOf ctx = 2 ∧ (s.ctx ctx).fgen = gen
  let installs := fun (t : State) (slot : Nat) => t.unitWrite ctx (t.parkEntry ctx slot + 1) [1]
  let marked := s.parked.map fun k => if k.ctx = ctx ∧ k.generation = gen then { k with installed := true } else k
  let again := fun (n : Nat) (f : Flock) => match f.status with | .stalled _ => if f.id = n then { f with status := .running } else f | _ => f
  (now →
    (hit = [] → u = s) ∧
    (∀ k n, hit = [k] → k.flock = some n →
      FreesSlot { s with parked := s.parked.filter fun q => q != k, cur := again n s.cur, flocks := s.flocks.map (again n) } u ctx k.slot) ∧
    (∀ k, hit = [k] → k.flock = none → FreesSlot { s with parked := s.parked.map fun q =>
      if q = k then { q with installed := true, freed := true, replied := true } else q } u ctx k.slot) ∧
    (∀ k ∈ hit, ∀ n, k.flock = some n → ∀ f ∈ u.allFlocks, f.id = n → ∀ g, f.status ≠ .stalled g) ∧
    ∀ k ∈ u.parked, k.ctx = ctx → k.generation = gen → k.freed = true) ∧
  (¬ now →
    u.parked = marked ∧ OnlyMemory s { u with parked := s.parked } ∧
    (hit = [] → held = [] → u = { s with parked := marked }) ∧
    (∀ k, hit = [k] → held = [] → u = { installs s k.slot with parked := marked }) ∧
    ∀ k, hit = [] → held = [k] → u = { installs s k.slot with parked := marked })

/-- A fold is aborted and parked by itself or by the device, with no fault (R287): its flocks and it leave the core, its banks return to the pool, those apart
that its copies still use, and its dispatch record stands in the park list as one that may go at once; a full list ends the launch (R288). One whose
launch is closing is not parked (R312; the model's reading, log entry 43). -/
def ParksFold (s u : State) (f : Fold) : Prop :=
  let g := s.removeFold f
  (f.id ≠ 0 → (∀ k ∈ g.allFlocks, k.fold ≠ f.id) ∧ (∀ k ∈ g.allFolds, k.id ≠ f.id) ∧
    ∀ k b, k < 8 → f.bankIn k = some b → ((g.bank b).place = .pooled ∨ (g.bank b).place = .draining f.id) ∧
      ((∀ j, s.slotBusy f.id j = false) → (g.bank b).place = .pooled)) ∧
  (s.launch? f.launch = none → u = g) ∧
  ∀ l, s.launch? f.launch = some l →
    (l.closing ≠ none → u = g.finishPreempt f.ctx) ∧
    (l.closing = none →
      let r := g.parkAdd f.ctx 1 true (s.ctx f.ctx).fgen 0 l.header f.visit 0 0 0
      (r = none → EndsLaunch g u f.launch 0x14) ∧
      ∀ t k, r = some (t, k) → u = State.finishPreempt { t with parked := t.parked ++ [{
        ctx := f.ctx, slot := k, launch := f.launch, visit := f.visit, index := f.index, flock := none, generation := (s.ctx f.ctx).fgen
        installed := true, core := f.core, cluster := if l.hdr.gangSize = 0 then none else some (f.core / 8) }] } f.ctx)

/-- A fold whose last flock has yielded is saved (R297, R298): its hidden state goes to the lowest free blocks of the save pool, one and four for each
granule of its buffer, in a form that the spec leaves open (free values); an entry stands for it in the park list, its banks are held, it leaves its core, and
the blocks in use are written. Without room in the pool a restartable fold is parked and any other ends its launch, and so does a full list. -/
def SavesFold (s u : State) (g : Fold) : Prop :=
  let n := 1 + 4 * g.commit
  let free := fun (b : Nat) => ∀ k ∈ s.saved, k.fold.ctx = g.ctx → overlap b n k.firstBlock k.blocks = false
  ∀ l, s.launch? g.launch = some l →
    (s.parkHeader g.ctx = none → EndsLaunch s u g.launch 0x14) ∧
    ∀ used capacity pool size blocks, s.parkHeader g.ctx = some (used, capacity, pool, size, blocks) →
      ((∀ b, b + n ≤ size → ¬ free b) → (l.hdr.restart = true → ParksFold s u g) ∧ (l.hdr.restart = false → EndsLaunch s u g.launch 0x14)) ∧
      ∀ b, b + n ≤ size → free b → (∀ c, c < b → ¬ free c) →
        let r := s.parkAdd g.ctx 3 false (s.ctx g.ctx).fgen 0 l.header g.visit 0 0 b
        (r = none → EndsLaunch s u g.launch 0x14) ∧
        ∀ t slot, r = some (t, slot) →
          let v := State.unitWrite { t with free := t.free + 8192 * n } g.ctx (BitVec.ofNat 72 (pool + 8192 * b))
            ((List.range (8192 * n)).map fun k => Config.freeByte (t.free + k))
          ∃ k : SavedFold, k.fold = g ∧ k.slot = slot ∧ k.generation = (s.ctx g.ctx).fgen ∧ k.blocks = n ∧ k.firstBlock = b ∧
            k.flocks.map (fun f => { f with monitor := {} }) = (s.flocksOf g.id).map (fun f => { f with monitor := {} }) ∧
            u.saved = s.saved ++ [k] ∧
            (g.id ≠ 0 → (∀ f ∈ u.allFlocks, f.fold ≠ g.id) ∧ (∀ f ∈ u.allFolds, f.id ≠ g.id) ∧
              ∀ j c, j < 8 → g.bankIn j = some c → (∀ i, i < 8 → g.bankIn i = some c → i = j) → (u.bank c).place = .held g.id j) ∧
            u = State.unitWrite { (v.holdBanks g).detachFold g with saved := u.saved } g.ctx ((s.ctx g.ctx).parkb + 0x28)
              (toBytes 8 ((u.saved.filter fun x => x.fold.ctx == g.ctx).map fun x => x.blocks).sum)

end Sys2Proof.Machine

/-- R28, R29 and R220: `launch` and `gang` answer the number that acceptance gives, or 0 with a code in the header; a header address that is no
multiple of 256 is answered 0 by both and nothing else happens; a misaligned gang descriptor is an alignment fault, and bytes that the launch unit cannot
read are the flock's fault (of the record and the slot map: the model's choice, log entry 112). -/
def Sys2Proof.Machine.LaunchResults : Prop :=
  ∀ (s : State) (d a b : BitVec 5), s.cur.em ≠ 0 → s.ScalarFree d →
    let va := s.cur.pointer (s.cur.getS a)
    let desc := s.cur.pointer (s.cur.getS b)
    (va.toNat % 256 ≠ 0 → Gives (exec (.launch d a) s) s d 0) ∧
    (va.toNat % 256 ≠ 0 → desc.toNat % 64 = 0 → Gives (exec (.gang d a b) s) s d 0) ∧
    (desc.toNat % 64 ≠ 0 → exec (.gang d a b) s = .next (s.takeTrap { kind := 0x13, addr := desc } s.cur.pc)) ∧
    ∀ e ∈ [(Instr.launch d a, (none : Option Addr)), (.gang d a b, some desc)], (e.2 = none ∨ desc.toNat % 64 = 0) →
      (∀ t n, s.submit va e.2 = .ok (t, n) → Gives (exec e.1 s) t d (BitVec.ofNat 64 n)) ∧
      ∀ f, s.submit va e.2 = .error (.trap f) → exec e.1 s = .next (s.takeTrap f s.cur.pc)

namespace Sys2Proof.Machine

/-- The status codes that apply to a submitted header by its own bytes and the flock that submits it, each with its defect, in rising order;
`gangOk` says that the gang flag is that of the instruction and the descriptor well formed (R9, R18, R24 to R28, R44, R60, R220, R222). -/
def State.headerDefects (s : State) (h : Header) (bs : List Byte) (gangOk : Prop) : List (Nat × Prop) := [
  (0x20, h.magic ≠ 0x4B4C0001), (0x21, h.encodingOk bs = false ∨ h.stopOk = false ∨ ¬ gangOk), (0x22, h.extentsOk = false),
  (0x23, h.partitionOk = false), (0x24, ∃ l, s.launch = some l ∧ (l.hdr.flag 5 = false ∨ 4 ≤ l.depth)), (0x25, h.stop = true ∧ h.flag 5 = true),
  (0x26, 7 < h.priority ∨ h.stop = true ∧ 3 < h.confidence)]

/-- The codes that apply to it by its record and slot map and by the live launches: a stopping rule with a broken slot map or a population
below 2, a subscription to no stopping launch of the context, a shared random-number counter, a full launch unit (R44, R57, R60, R221, R308). -/
def State.unitDefects (s : State) (h : Header) (slots : Option SlotMap) (population : Nat) : List (Nat × Prop) := [
  (0x21, h.stop = true ∧ (slots = none ∨ h.finite = 1 ∧ population < 2)),
  (0x21, h.mode ≠ 0 ∧ ∀ p, s.heads s.work h.predecessor = some p → p.hdr.stop = false),
  (0x27, h.flag 6 = false ∧ ∃ l ∈ s.launches, l.ctx = s.work ∧ l.hdr.seed = h.seed ∧
    ∃ t u : DWord, t < l.hdr.rngLength ∧ u < h.rngLength ∧ l.hdr.rngBase + t = h.rngBase + u),
  (0x28, 4096 ≤ (s.launches.filter fun l => l.ctx / 64 == s.work / 64).length)]

end Sys2Proof.Machine

/-- R28, R29, R220, R221, R307 and R308: a submitted header whose bytes can be read is answered 0, with the lowest code that applies to it in
its status word and nothing else changed; to which none applies, it is accepted and answered its number. A supervisor that acts for no context
is answered 0 with 0x21, and one that may not launch for the context it acts for likewise, unless its own world keeps it from the status word: then it
takes the world fault (R368; the model's reading, log entry 128). A header whose status word is not zero, or at whose address a launch is live, is
accepted as any other (the model's choice, log entries 77 and 113). -/
def Sys2Proof.Machine.SubmissionAnswers : Prop :=
  ∀ (s : State) (d a b : BitVec 5), s.cur.em ≠ 0 → s.ScalarFree d → s.broken = [] →
    let va := s.cur.pointer (s.cur.getS a)
    let desc := s.cur.pointer (s.cur.getS b)
    let bs := s.unitBytes Need.load va 256
    let h := Header.parse bs
    let g := Gang.parse (s.unitBytes Need.load desc 64) s.time
    let population := if h.record = 0 then 0 else fromBytes (s.unitBytes Need.load (h.record + 48) 8)
    let slots := if h.stop = true then SlotMap.parse (s.unitBytes Need.load h.argument 32) else none
    let rejects := fun (i : Instr) (code : Nat) => Gives (exec i s) (s.headerStatus s.work va code) d 0
    va.toNat % 256 = 0 → ∀ e ∈ [(Instr.launch d a, (none : Option Gang), h.flag 7 = false), (.gang d a b, g, h.flag 7 = true ∧ g.isSome = true)],
      (e.1 = .gang d a b → desc.toNat % 64 = 0) →
      let own := s.headerDefects h bs e.2.2
      let all := own ++ s.unitDefects h slots population
      let found := s.locateAll (s.agent s.cur) Need.store (touchesFrom (va + 208) 8 .any)
      (s.mayLaunch = false → (512 ≤ s.work ∨ ∀ f, found = .error (.trap f) → f.kind ≠ 0x12) → rejects e.1 0x21) ∧
      (s.mayLaunch = false → s.work < 512 → ∀ f, found = .error (.trap f) → f.kind = 0x12 → exec e.1 s = .next (s.takeTrap f s.cur.pc)) ∧
      (s.mayLaunch = true → s.Reachable Need.load va 256 →
        (e.1 = .gang d a b → h.magic = 0x4B4C0001 → h.flag 7 = true → s.Reachable Need.load desc 64) →
        ((∃ p ∈ own, p.1 ≤ 0x21 ∧ p.2) ∨ (h.record ≠ 0 → s.Reachable Need.load (h.record + 48) 8) ∧
          (h.stop = true → s.Reachable Need.load h.argument 32)) →
        (∀ code p, (code, p) ∈ all → p → (∀ q ∈ all, q.2 → code ≤ q.1) → rejects e.1 code) ∧
        ((∀ q ∈ all, ¬ q.2) →
          Gives (exec e.1 s) (s.accept va h slots population e.2.1).1 d (BitVec.ofNat 64 (s.accept va h slots population e.2.1).2)))

/-- R24, R29 and R41: acceptance numbers the launch, queues it with status 1 in its context, as the child of the launching flock's launch, and
advances the context's number past those of live launches. Then its record, if it names one, is initialised, and the status word of its header says
1; nothing else changes but the state of a context that was not resident. (What such a write leaves in memory is said with the writes of a retirement;
where the record lies is kept with the launch, whose record a write of software there makes unknown, R43.)
A record of a launch without the stop flag is initialised too, at any
alignment (the model's choice, log entry 81). -/
def Sys2Proof.Machine.AcceptanceEffect : Prop :=
  ∀ (s : State) (va : Addr) (h : Header) (slots : Option SlotMap) (population : Nat) (gang : Option Gang),
    let r := s.accept va h slots population gang
    ∃ l : Launch, l.id = s.nextId ∧ r.1.nextId = s.nextId + 1 ∧ l.ctx = s.work ∧ l.header = va ∧ l.hdr = h ∧
      l.seq = r.2 ∧ l.status = 1 ∧ l.slots = slots ∧ l.population = population ∧ l.gang = gang ∧ l.closing = none ∧ l.version = 0 ∧ l.est = ({} : Estimate) ∧
      l.started = [] ∧ l.ended = [] ∧ l.recordAt = [] ∧ l.spoiled = false ∧ l.wrote = [] ∧ l.strays = [] ∧
      l.depth = (match s.launch with | some p => p.depth + 1 | none => 0) ∧
      r.2 = freeSequence ((s.liveOf s.work).map fun k => k.seq) s.launches.length (s.ctx s.work).acceptSeq ∧
      (r.1.ctx s.work).acceptSeq = nextSequence r.2 ∧
      let plain := fun (k : Launch) => { k with recordAt := [], spoiled := false }
      let u := State.setCtx { s with launches := s.launches ++ [l], nextId := s.nextId + 1 } s.work
        { s.ctx s.work with acceptSeq := nextSequence r.2 }
      let m := if u.stateOf s.work = 1 then u.setContextState s.work 2 else u
      let record := toBytes 8 0 ++ toBytes 8 0 ++ toBytes 8 0 ++ toBytes 8 0x7FF0000000000000 ++ toBytes 8 0 ++ toBytes 8 0 ++
        toBytes 8 population ++ toBytes 8 0
      r.1.launches.map plain = (s.launches ++ [l]).map plain ∧
      ∃ w, RecordWritten m w l record ∧ r.1 = w.unitWrite s.work (va + 208) (toBytes 8 1)

/-- The faults and the answers of a submission, and what acceptance does, as three parts. -/
def Obligations.LaunchSubmission : Prop := LaunchResults ∧ SubmissionAnswers ∧ AcceptanceEffect

/-- R31 and R220: `dep.dec` and `dep.add` change the counter of a header at its home as one read and write; a decrement of 0 and a sum past 2^64 - 1
are faults that leave it. Those of one cycle are made one at a time: additions first; then supervisor flocks in the order of their cores; then by the order key of the
launch, its acceptance, the visit and the flock field (that they arrive in one cycle is a move of the model's agenda, log entry 139). -/
def Sys2Proof.Machine.DependencyCounters : Prop :=
  (∀ (s : State) (e : Enc) (i : Instr), State.issues { s with beat := 0 } = true →
    (match e with | .half h => h.getLsbD 0 = false | .word w => w.getLsbD 0 = true) → s.Fetches e → decodeEnc e = .ok i →
    s.counterOp = match i with | .depAdd _ _ => some 0 | .depDec _ => some 1 | _ => none) ∧
  (∀ (s : State) (op : Nat) (f : Flock),
    (f.supervises = true → s.counterKey op f = [op, 0, f.core, f.id]) ∧
    (f.supervises = false → ∀ d l, s.fold? f.fold = some d → s.launch? d.launch = some l →
      s.counterKey op f = [op, 1, l.hdr.orderKey.toNat, l.seq, d.visit, f.field])) ∧
  (∀ (s : State) (fs : List Nat),
    let ns := s.counterOrder fs
    let key := fun (n : Nat) => (s.turnTo n).counterOp.bind fun op => (s.flock? n).map (s.counterKey op)
    ns.Nodup ∧ (∀ n, n ∈ ns ↔ n ∈ fs ∧ (key n).isSome = true) ∧
    ns.Pairwise (fun m n => ∀ x y, key m = some x → key n = some y → x ≤ y) ∧
    (ns = [] → s.together fs = .next s) ∧
    (∀ n, ns = [n] → s.together fs = (s.turnTo n).issueNext) ∧
    ∀ m n t, ns = [m, n] → (s.turnTo m).issueNext = .next t →
      ((t.turnTo n).counterOp.isSome = true → s.together fs = (t.turnTo n).issueNext) ∧
      ((t.turnTo n).counterOp = none → s.together fs = .next t)) ∧
  ∀ (s : State) (a b : BitVec 5), s.cur.em ≠ 0 → s.broken = [] → s.Canonical →
    let va := s.cur.pointer (s.cur.getS a)
    let at_ := va + 192
    let place := fun (j : Nat) => s.placeAt Need.atomic (at_ + BitVec.ofNat 72 j)
    let old := fromBytes (s.unitBytes Need.atomic at_ 8)
    ∀ e ∈ [(Instr.depDec a, (0x22 : BitVec 8), if old = 0 then none else some (old - 1)),
        (.depAdd a b, 0x23, if 2 ^ 64 ≤ old + (s.cur.getS b).toNat then none else some (old + (s.cur.getS b).toNat))],
      (va.toNat % 256 ≠ 0 → exec e.1 s = .next (s.takeTrap { kind := 0x13, addr := va } s.cur.pc)) ∧
      (va.toNat % 256 = 0 → s.Reachable Need.atomic at_ 8 → (∀ j, j < 8 → place j < Config.plewickBase ∧ s.Plain (place j)) →
        (e.2.2 = none → Traps s (exec e.1 s) e.2.1) ∧
        (∀ x, e.2.2 = some x → (∀ i j, i < 8 → j < 8 → place i = place j → i = j) → ∃ u, Flows (exec e.1 s) u ∧ OnlyMemory s u ∧
          OthersSame s u ((List.range 8).map place) ∧ ∀ j, j < 8 → u.read (place j) = (toBytes 8 x).getD j 0))

/-- R56 and R220: `cancel` answers 1 where the address heads no live launch, else 0, and the launch ends with status 0x12, but for one that is closing
already, which keeps the status decided first (the model's reading, log entry 69); `lnstat` answers the
status with the ended visits of a live launch, and else the low byte of the header's status word. To a non-secure shepherd the launches of a secure partition
are none (R367; the model's reading, log entry 137). -/
def Sys2Proof.Machine.CancelAndStatus : Prop :=
  ∀ (s : State) (d a : BitVec 5), s.ScalarFree d → s.broken = [] →
    let va := s.cur.pointer (s.cur.getS a)
    (va.toNat % 256 ≠ 0 → exec (.lnstat d a) s = .next (s.takeTrap { kind := 0x13, addr := va } s.cur.pc) ∧
      (s.cur.em ≠ 0 → exec (.cancel d a) s = .next (s.takeTrap { kind := 0x13, addr := va } s.cur.pc))) ∧
    (va.toNat % 256 = 0 →
      (s.heads s.work va = none ∨ s.mayName s.work = false →
        (s.cur.em ≠ 0 → Gives (exec (.cancel d a) s) s d 1) ∧
        (s.Reachable Need.load (va + 208) 8 → Gives (exec (.lnstat d a) s) s d
          (BitVec.ofNat 64 (fromBytes (s.unitBytes Need.load (va + 208) 8) % 256)))) ∧
      ∀ l, s.heads s.work va = some l → s.mayName s.work = true →
        Gives (exec (.lnstat d a) s) s d (BitVec.ofNat 64 (l.status.toNat + l.ended.length % 2 ^ 48 * 256)) ∧
        (s.cur.em ≠ 0 → ∃ u v, WritesScalar s u d 0 ∧ exec (.cancel d a) s = .next v ∧ EndsLaunch u v l.id 0x12 ∧
          (u.launch? l.id).isSome = true))

/-- R223, R291 and R342: the privileged launch functions. `snap` answers 0 and adds a snapshot that waits for its instant, or answers 1; a
misaligned descriptor is an alignment fault, and a non-secure supervisor takes a world fault for a descriptor, a range, a destination or a stamp in a
secure page (R368; which pages are secure, and that the first of these is named: the model's reading, log entry 87); `fault.done` replies for a
context and a generation. A non-secure shepherd does neither for a context of a secure partition (R367; the model's reading, log entry 137). -/
def Sys2Proof.Machine.PrivilegedLaunchFunctions : Prop :=
  ∀ (s : State) (d a b : BitVec 5), s.cur.privileged = true → s.cur.em ≠ 0 →
    let va := s.cur.pointer (s.cur.getS a)
    (va.toNat % 256 ≠ 0 → exec (.snap d a) s = .next (s.takeTrap { kind := 0x13, addr := va } s.cur.pc)) ∧
    (va.toNat % 256 = 0 → s.ScalarFree d → ∀ bs, s.physicalLoad va.toNat 256 = .ok bs →
      (s.snapOf bs = none → Gives (exec (.snap d a) s) s d 1) ∧ (s.mayName s.work = false → s.snapOf bs = none) ∧
      ∀ sn, s.snapOf bs = some sn → sn.armed = false ∧ sn.ctx = s.work ∧ sn.damaged = [] ∧
        let spans := sn.ranges ++ [(sn.dest, (sn.ranges.map fun r => r.2).sum), (sn.stamp, 8)]
        ((s.cur.secure = true ∨ ∀ r ∈ spans, s.secureSpan r.1 r.2 = false) →
          Gives (exec (.snap d a) s) { s with snapshots := s.snapshots ++ [sn] } d 0) ∧
        (s.cur.secure = false → ∀ l r rest, spans = l ++ r :: rest → (∀ q ∈ l, s.secureSpan q.1 q.2 = false) → s.secureSpan r.1 r.2 = true →
          exec (.snap d a) s = .next (s.takeTrap { kind := 0x12, access := 6, addr := BitVec.ofNat 72 r.1 } s.cur.pc))) ∧
    (va.toNat % 256 = 0 → s.cur.secure = false → s.secureSpan va.toNat 256 = true →
      exec (.snap d a) s = .next (s.takeTrap { kind := 0x12, access := 1, addr := va } s.cur.pc)) ∧
    ((s.cur.getS a).toNat < 512 → s.mayName (s.cur.getS a).toNat = true →
      ∃ u, Flows (exec (.faultDone a b) s) u ∧ Replies s u (s.cur.getS a).toNat (s.cur.getS b)) ∧
    (512 ≤ (s.cur.getS a).toNat ∨ s.mayName (s.cur.getS a).toNat = false → Flows (exec (.faultDone a b) s) s)

/-- The other launch functions, as three parts. -/
def Obligations.LaunchFunctionResults : Prop := DependencyCounters ∧ CancelAndStatus ∧ PrivilegedLaunchFunctions

/-- R109 and R234: a privileged flock reads every system register and writes those that are not read-only, in the halves of R234; a write of a
read-only register is cause 4, an unassigned number cause 8. A supervisor reads 0 as its context's number when it acts for none, and `fgen` and
`energy` of the context for which it acts (the model's reading, log entries 8 and 47). -/
def Sys2Proof.Machine.SystemRegisterResults : Prop :=
  ∀ (s : State) (d a : BitVec 5), s.cur.privileged = true →
    (s.ScalarFree d → ∀ e ∈ systemRegisters s, Gives (exec (.sget d e.1) s) s d e.2) ∧
    (∀ e ∈ systemWrites s (s.cur.getS a), Flows (exec (.sset a e.1) s) e.2) ∧
    (∀ n ∈ [(0 : BitVec 6), 3, 4, 5, 14, 15, 20, 21, 22, 23], exec (.sset a n) s = .next (s.illegal 0x04 s.currentWord)) ∧
    (∀ n : BitVec 6, 24 ≤ n.toNat → exec (.sget d n) s = .next (s.illegal 0x08 s.currentWord) ∧
      exec (.sset a n) s = .next (s.illegal 0x08 s.currentWord))

/-- What privileged functions ask of a flock, and the system registers, as two parts. -/
def Obligations.SystemRegisterAccess : Prop := PrivilegedFunctions ∧ SystemRegisterResults

/-- R143, R235, R236, R287, R297 and R319: the partition's translations of a page, with the nested ones that they go through (log entry 10), or of a context,
but for its nested ones unless f asks for them, are dropped; a wake reaches a flock of the fold or of its gang, `fabort` answers 1
where the launch is not restartable and else parks the fold, `boost` is answered by the power budget (the model's free value, log entry 2), and
`yield` waits for the counters and then leaves its core, and the fold is saved with the last of its flocks; in any other routine it does nothing (the model's choice for trap, resume and
gang-abort routines, log entry 98). A supervisor that acts for no context has no partition (the model's choice, log entry 138), and a non-secure one none of a
secure context (R367; the model's reading, log entry 137). -/
def Obligations.SystemFunctionResults : Prop :=
  ∀ (s : State) (d a b c : BitVec 5) (f : BitVec 1),
    let page := ((s.cur.getS c).toNat % 2 ^ 8 * 2 ^ 64 + (s.cur.getS a).toNat) / 2 ^ 16
    let named := fun (e : TlbEntry) => e.ctx / 64 = s.work / 64 ∧ s.mayName e.ctx = true ∧ (s.cur.getS a = BitVec.allOnes 64 ∨ e.ctx = (s.cur.getS a).toNat)
    let guest := s.guestPages (s.agent s.cur) (s.cur.getS b).toNat (page * 2 ^ 16) [4, 3, 2, 1, 0] (s.ctx (s.cur.getS b).toNat).guestRoot
    let ask := min ((s.cur.getS a).toNat % 2 ^ 20) 1000000
    let drawn : State := { s with free := s.free + 1 }
    let fieldNo := (s.cur.getS a).toNat % 16
    (s.cur.em ≠ 0 → s.cur.privileged = true →
      Flows (exec (.tlbinv a b c) s) { s with tlb := s.tlb.filter fun e => !decide (e.ctx / 64 = s.work / 64 ∧ s.mayName e.ctx = true ∧ e.ctx = (s.cur.getS b).toNat ∧
        if e.holder.isNested then e.page ∈ guest else e.page = page) } ∧
      (f = 0 → Flows (exec (.tlbinvc a f) s) { s with tlb := s.tlb.filter fun e => !decide (named e ∧ e.holder.isNested = false) }) ∧
      (f = 1 → Flows (exec (.tlbinvc a f) s) { s with tlb := s.tlb.filter fun e => !decide (named e) }) ∧
      (s.restartable = false → s.ScalarFree d → Gives (exec (.fabort d) s) s d 1) ∧
      (s.restartable = true → ∃ u, exec (.fabort d) s = .next u ∧ ParksFold s u s.fold)) ∧
    (s.cur.em ≠ 0 → s.ScalarFree d →
      (ask = 0 ∨ (∃ till, (s.ctx s.work).boost = some till ∧ s.time ≤ till) ∨ s.emergencyFor s.work = true ∨ Config.budgetRoom s.free = false ∨
          s.mayName s.work = false →
        Gives (exec (.boost d a) s) drawn d 0) ∧
      (ask ≠ 0 → (∀ till, (s.ctx s.work).boost = some till → till < s.time) → s.emergencyFor s.work = false → Config.budgetRoom s.free = true → s.mayName s.work = true →
        Gives (exec (.boost d a) s) (drawn.setCtx s.work { s.ctx s.work with boost := some (s.time + BitVec.ofNat 64 ask) }) d (BitVec.ofNat 64 ask))) ∧
    (s.cur.em ≠ 0 → s.launch = none → Flows (exec (.wake a) s) s) ∧
    (∀ l, s.cur.em ≠ 0 → s.launch = some l →
      ((s.cur.getS a).toNat.testBit 8 = false → Flows (exec (.wake a) s) (s.wakeFlock l.id s.fold.visit fieldNo)) ∧
      ((s.cur.getS a).toNat.testBit 8 = true →
        let x := (s.cur.getS a).toNat / 16 % 16
        (x < l.hdr.gangSize → Flows (exec (.wake a) s) (s.wakeFlock l.id (s.fold.visit / l.hdr.gangSize * l.hdr.gangSize + x) fieldNo)) ∧
        (l.hdr.gangSize ≤ x → Flows (exec (.wake a) s) s))) ∧
    (s.cur.routine ≠ .save → Flows (exec .yield s) s) ∧
    (s.cur.routine = .save → s.cur.countersZero = false → ∃ t, exec .yield s = .next t ∧ Blocks s t .allDone) ∧
    (s.cur.routine = .save → s.cur.countersZero = true →
      exec .yield s = .next ((State.saveIfDone { s with cur := { s.cur with status := .yielded } } s.cur.fold).finishPreempt s.cur.ctx)) ∧
    ∀ n, let left := s.flocksOf n
      (∀ g, s.fold? n = some g → (∀ k ∈ left, k.status = .yielded ∨ k.status = .ended) → (∃ k ∈ left, k.status = .yielded) →
        SavesFold s (s.saveIfDone n) g) ∧
      ((∃ k ∈ left, k.status ≠ .yielded ∧ k.status ≠ .ended) ∨ (∀ k ∈ left, k.status ≠ .yielded) → s.saveIfDone n = s)

/-- R225 and R228: `welt` writes the 32 bytes of the welt of its bytes (whole elements: log entry 97; into the commit buffer where the launch holds
stores back: log entry 106), and with `wchk` reads them as a load does under the stop flag (R59, log entry 49), `wchk` answers 0, 1 or 2 (its chunk's length:
log entry 95, a NaN among the sums: log entry 96; these are the model's choices), `cstat` pops the oldest error record of the
flock's own context's ring (a supervisor's: log entry 8) or gives its hop index, kind and status with the lost bit, which it clears; where the entry lies in a
line in error it leaves its destination, and a machine check with its error record follows (R303; that the entry is popped all the same: log entry 117; the record's other fields: log entry 131). -/
def Obligations.WeltResults : Prop :=
  (∀ (s : State) (d : BitVec 5), s.cur.em ≠ 0 →
    let ctx := s.ctx s.cur.ctx
    ∀ e ∈ [((0 : BitVec 6), { ctx with ringOut := ctx.ringOut + 1 }, 0, 8), (1, { ctx with lost := false }, 8, 4)], ctx.ringOut < ctx.ringIn →
      let at_ := ctx.ringEntry ctx.ringOut + BitVec.ofNat 72 e.2.2.1
      ∀ pas l k r, s.plainBytes (s.unit s.cur.ctx) { r := true } at_ e.2.2.2 = .ok pas → pas = l ++ k :: r →
        (∀ p ∈ l, SoftErrorPlace.line (p / 64 * 64) ∉ s.broken) → SoftErrorPlace.line (k / 64 * 64) ∈ s.broken →
        let u := (s.setCtx s.cur.ctx e.2.1).errorRecord s.cur.ctx 0 0 4 0 0
        Flows (exec (.cstat d e.1) s) { u with
          nextId := u.nextId + 1, cur := { u.cur with deferred := u.cur.deferred ++
            [{ op := u.nextId, pc := u.cur.pc, info := { kind := 0x30, access := 1, addr := at_ + BitVec.ofNat 72 l.length } }] } }) ∧
  ∀ (s : State) (d a b c : BitVec 5), s.cur.em ≠ 0 → s.broken = [] →
    let va := s.cur.pointer (s.cur.getS a)
    let other := s.cur.pointer (s.cur.getS b)
    let len := (s.cur.getS b).toNat
    let out := s.cur.pointer (s.cur.getS c)
    let ctx := s.ctx s.cur.ctx
    let entry := fun (off k : Nat) =>
      if ctx.ringIn ≤ ctx.ringOut then 0 else (s.unitNat s.cur.ctx (ctx.ringEntry ctx.ringOut + BitVec.ofNat 72 off) k).getD 0
    let find := fun (n : Need) (x : Addr) (k : Nat) => s.locateAll (s.agent s.cur) n (touchesFrom x k .any)
    (len = 0 ∨ 4096 < len → exec (.welt a b c) s = .next (s.takeTrap { kind := 0x1A, access := 6 } s.cur.pc)) ∧
    (1 ≤ len → len ≤ 4096 → out.toNat % 32 = 0 →
      ∀ dest chunk, find Need.engineWrite out 32 = .ok dest → s.chunkAt va len = .ok chunk → s.legalFault false false chunk.all = .ok () →
      s.legalFault false false dest = .ok () → s.reachAll 6 false (chunk.all.map Found.place) = .ok () → s.reachAll 6 s.buffered (dest.map Found.place) = .ok () →
      let n := 8 * len / (elemOf chunk.format).width
      let w := s.formWelt va n chunk
      let ws := wholeBytes (dest.map Found.place) (weltBytes w.1 n chunk.format 0 w.2.1 w.2.2 0)
      (∀ k, s.bufferRoom = some k → s.cur.newLines ws ≤ k) → Flows (exec (.welt a b c) s) ((s.unitReads (chunk.all.map fun f => f.2.1)).storeBits ws)) ∧
    (s.ScalarFree d → ∀ refs e pa chunk, find Need.engineRead other 32 = .ok refs → s.locate (s.agent s.cur) Need.engineRead va = .ok (pa, e) →
      s.reachAll 6 false (refs.map Found.place) = .ok () →
      let ref := refs.map fun f => s.loadByte f.2.1
      let n := if recordNat ref 4 2 = 0 then 65536 else recordNat ref 4 2
      let bytes := (n * (elemOf e.format).width + 7) / 8
      bytes ≤ 4096 → s.chunkAt va bytes = .ok chunk → s.legalFault false false refs = .ok () → s.legalFault false false chunk.all = .ok () →
      s.reachAll 6 false (chunk.all.map Found.place) = .ok () →
      let w := s.formWelt va n chunk
      Gives (exec (.wchk d a b) s) (s.unitReads ((refs ++ chunk.all).map fun f => f.2.1)) d (if w.1 ≠ recordNat ref 0 4 then 1 else if sumAgrees (recordDWord ref 8) w.2.1 w.2.2 n then 0 else 2)) ∧
    (s.ScalarFree d →
      (ctx.ringIn ≤ ctx.ringOut → Gives (exec (.cstat d 0) s) (s.setCtx s.cur.ctx ctx) d 0) ∧
      (ctx.ringOut < ctx.ringIn → Gives (exec (.cstat d 0) s) (s.setCtx s.cur.ctx { ctx with ringOut := ctx.ringOut + 1 }) d
        (BitVec.ofNat 64 (entry 0 8))) ∧
      Gives (exec (.cstat d 1) s) (s.setCtx s.cur.ctx { ctx with lost := false }) d
        (BitVec.ofNat 64 (entry 8 1 + 2 ^ 8 * entry 9 1 + 2 ^ 16 * entry 10 2 + if ctx.lost then 2 ^ 63 else 0)))

/-- R230, R231 and R233: `aestr` starts a stream behind what is queued; `qpop` gives the head entry to the active lanes, waits while the stream has
nothing, raises once a fault that the entry carries and then waits for the entry to be fetched again, and faults on a queue without a stream; `aestop`
empties the queue. The fetch of an entry joins the queue's end; one whose translation reads a table entry in error brings an entry in error (R303), and
one that waits for tokens at its core's port has not come yet (R314). A descriptor of the access block that is in error when a flock starts gives it a
machine check at its first instruction (R303; the model's reading, log entry 124). That a descriptor which R230 refuses is a stream fault, and that the
`qpop` of an entry in error pops it, are the model's choices (log entries 25 and 117). -/
def Obligations.StreamResults : Prop :=
  ∀ (s : State) (d a : BitVec 5) (n : BitVec 2),
    let q := s.cur.getQ n
    let va := s.cur.pointer (s.cur.getS a)
    let r : BitVec 6 := d.setWidth 6
    let with_ := fun (x : Queue) => ({ s with cur := s.cur.setQ n x } : State)
    (va.toNat % 64 ≠ 0 → exec (.aestr a n) s = .next (s.takeTrap { kind := 0x13, access := 1, addr := va } s.cur.pc)) ∧
    (va.toNat % 64 = 0 → s.broken = [] → s.Reachable Need.load va 64 →
      let bs := (List.range 64).map fun j => s.loadByte (s.placeAt Need.load (va + BitVec.ofNat 72 j))
      (q.stream.isSome = true ∨ StreamDesc.parse bs = none → Traps s (exec (.aestr a n) s) 0x1E) ∧
      ∀ x, q.stream = none → StreamDesc.parse bs = some x → Flows (exec (.aestr a n) s)
        (with_ (if x.total = 0 then q else { q with stream := some { desc := x, next := 0, held := false } }))) ∧
    (q.entries = [] → q.stream = none → Traps s (exec (.qpop d n) s) 0x1E) ∧
    (q.entries = [] → q.stream.isSome = true → ∃ t, exec (.qpop d n) s = .next t ∧ Blocks s t (.queue n)) ∧
    (∀ e rest, q.entries = e :: rest → s.atPort (.entry s.cur.id n e.index) = true → ∃ t, exec (.qpop d n) s = .next t ∧ Blocks s t (.queue n)) ∧
    (∀ e rest, q.entries = e :: rest → s.atPort (.entry s.cur.id n e.index) = false →
      (∀ va, e.fault = none → e.broken = some va → ∃ t, exec (.qpop d n) s = .next t ∧ t.cur.getV r = s.cur.getV r ∧ (t.cur.getQ n).entries = rest ∧
        t.cur.deferred = s.cur.deferred ++ [{ op := s.nextId, pc := s.cur.pc, info := { kind := 0x30, access := 1, addr := va } }]) ∧
      (e.fault = none → e.broken = none → (s.cur.em = 0 ∨ s.VectorFree r) → ∃ t, exec (.qpop d n) s = .next t ∧
        WritesLanes (with_ { q with entries := rest }) t r s.cur.em fun i => e.lanes.at i) ∧
      (∀ f, e.fault = some f → q.raised = false → exec (.qpop d n) s = .next ((with_ { q with raised := true }).takeTrap f s.cur.pc)) ∧
      (∀ f, e.fault = some f → q.raised = true → ∃ t, exec (.qpop d n) s = .next t ∧
        Blocks (with_ { q with stream := q.stream.map fun x => { x with held := false } }) t (.queue n))) ∧
    (s.ScalarFree d → Gives (exec (.qstat d n) s) s d q.word) ∧
    Flows (exec (.aestop n) s) (with_ {}) ∧
    (∀ (h : Header) (f : Flock) (k : Nat), h.access ≠ 0 → k < 4 →
      let at_ := h.access + BitVec.ofNat 72 (64 * k)
      ((∃ i, s.plainBytes (s.agent f) Need.load at_ 64 = .error (.soft i)) ∨
        ∃ pas, s.plainBytes (s.agent f) Need.load at_ 64 = .ok pas ∧ ∃ p ∈ pas, SoftErrorPlace.line (p / 64 * 64) ∈ s.broken) →
      { op := f.id, pc := f.pc, info := { kind := 0x30, access := 1, addr := at_ } } ∈ (s.startStreams h f).deferred) ∧
    (q.wanted = none → exec (.streamFetch s.cur.id n) s = .next s) ∧
    (∀ st k f, s.checkAccess loadGuard (lanes.map fun i => (s.streamAccess st (st.address s.cur.field s.fold.visit k i) i).1) = .error (.soft f) →
      s.fetchEntry st k = .ok { lanes := Lanes.zero, fault := none, broken := some f.addr, index := k }) ∧
    (∀ st k again e, q.wanted = some (st, k, again) → (s.as s.cur).fetchEntry st.desc k = .ok e →
      exec (.streamFetch s.cur.id n) s = .next (s.setFlock (s.cur.setQ n (q.take st e again))))

/-- R77, R115, R116 and R175: a completion event ends the oldest operation of its kind that is under way: its register gets the new value, or the
value before where its data was bad (the model's reading, log entry 33), its flags are raised, and its fault waits to be delivered. Without such an
operation nothing changes; one that waits for tokens at its core's port is not complete (R314). -/
def Obligations.CompletionEvents : Prop :=
  ∀ (s : State), ∀ e ∈ [(Instr.loadComplete s.cur.id, Class.loads, fun (_ : PendOp) => true), (.storeComplete s.cur.id, .stores, fun _ => true),
      (.tileLoadComplete s.cur.id, .copies, fun o => !o.writes.isEmpty && o.job.isNone),
      (.tileStoreComplete s.cur.id, .copies, fun o => o.writes.isEmpty && o.job.isNone), (.tileOperationComplete s.cur.id, .tiles, fun _ => true)],
    let due := fun (o : PendOp) => o.cls == e.2.1 && !o.done && e.2.2 o && !s.atPort (.op o.id)
    ((∀ o ∈ s.cur.pend, due o = false) → exec e.1 s = .next s) ∧
    (∀ l o r, s.cur.pend = l ++ o :: r → (∀ k ∈ l, due k = false) → due o = true →
      (∀ k ∈ l, k.id ≠ o.id) → ∃ t, exec e.1 s = .next t ∧ SameMemory s t ∧ t.cur.pc = s.cur.pc ∧
        t.cur.fcr = s.cur.fcr ||| flagBits o.ofFlag o.nvFlag ∧
        t.cur.deferred = s.cur.deferred ++ (match o.fault with | some f => [{ op := o.id, pc := o.pc, info := f }] | none => []) ∧
        (∀ k ∈ t.cur.pend, k.id = o.id → k.done = true) ∧
        (∀ q, (∀ x ∈ o.dests, Dest.isVector q x = false) → t.cur.getV q = s.cur.getV q) ∧
        (∀ q, (∀ x ∈ o.dests, Dest.isScalar q x = false) → t.cur.getS q = s.cur.getS q) ∧
        (∀ q, (∀ x ∈ o.dests, Dest.isAddress q x = false) → t.cur.getA q = s.cur.getA q) ∧
        (∀ x y d old new, o.dests = x ++ .vector d old new false :: y → (∀ z ∈ y, Dest.isVector d z = false) →
          t.cur.getV d = if o.fault.isSome then old else new) ∧
        (∀ x y d old new, o.dests = x ++ .scalar d old new false :: y → (∀ z ∈ y, Dest.isScalar d z = false) →
          t.cur.getS d = if d = 0 then 0 else if o.fault.isSome then old else new) ∧
        (∀ x y d old new, o.dests = x ++ .address d old new false :: y → (∀ z ∈ y, Dest.isAddress d z = false) →
          t.cur.getA d = if d = 0 then 0 else if o.fault.isSome then old else new))

/-- R141 to R143, R168, R175 and R202: what may happen to a flock between its instructions. A deferred fault traps with the address of its own
instruction in `dpc` and resumes at the instruction in which it waits (log entry 58), a sleep being complete; a blocked flock runs again when its
condition holds, and one whose access to another device had no answer when there is one in time (R330); a sleep ends at its time and a wait at its event; a halting
flock with nothing under way ends, and with the last of its fold to end the others that have yielded are saved (the model's choice, log entry 104). What is not due changes nothing. -/
def Sys2Proof.Machine.FlockEvents : Prop :=
  ∀ (s : State),
    let n := s.cur.id
    let on := fun (f : Flock) => ({ s with cur := f } : State)
    let running := fun (f : Flock) => ({ f with status := .running } : Flock).advance 4
    (s.cur.deliverable = none → exec (.deferredFaultDelivery n) s = .next s) ∧
    (∀ d f, s.cur.deliverable = some d → s.cur.atBoundary = true → s.MayTrap → d.info.kind ≠ 0x20 → d.info.kind ≠ 0x21 →
      (d.info.isPageFault = false ∨ s.cur.supervises = true) →
      ((∀ till, s.cur.status ≠ .sleeping till) ∧ f = s.cur ∨ (∃ till, s.cur.status = .sleeping till) ∧ f = running s.cur) →
      exec (.deferredFaultDelivery n) s = .next (on (({ f with deferred := s.cur.deferred.filter fun e => e != d } : Flock).enter .trap
        (s.ctx s.cur.ctx).tvec f.pc (some d.pc) d.info s.nextId))) ∧
    (∀ b, s.cur.status = .blocked b →
      (s.conditionMet b = true → exec (.blockingConditionMet n) s = .next (on { s.cur with status := .running })) ∧
      (s.conditionMet b = false → exec (.blockingConditionMet n) s = .next s)) ∧
    (∀ x since, s.cur.status = .remote x since →
      (s.answered x = true → s.time.toNat < since.toNat + 4000 → exec (.blockingConditionMet n) s = .next (on { s.cur with status := .running })) ∧
      (s.answered x = false ∨ since.toNat + 4000 ≤ s.time.toNat → exec (.blockingConditionMet n) s = .next s)) ∧
    ((∀ f ∈ s.flocks, f.id ≠ n) →
      (∀ till, s.cur.status = .sleeping till →
        (till ≠ 0 → till ≤ s.time → exec (.sleepTimerExpiry n) s = .next (on (running s.cur))) ∧
        (till = 0 ∨ s.time < till → exec (.sleepTimerExpiry n) s = .next s)) ∧
      (s.cur.status = .waiting →
        (s.cur.monitor.event = true ∨ s.cur.wakePending = true → exec (.mwaitWake n) s = .next (on (running { s.cur with
          wakePending := false, monitor := { s.cur.monitor with event := false }
          waitedAt := if s.cur.routine = .none then none else s.cur.waitedAt }))) ∧
        (s.cur.monitor.event = false → s.cur.wakePending = false → exec (.mwaitWake n) s = .next s)) ∧
      (s.cur.status = .halting → s.cur.countersZero = true → s.cur.deliverable = none →
        exec (.flockEnd n) s = .next (((on { s.cur with status := .ended, monitor := {} }).saveIfDone s.cur.fold).finishPreempt s.cur.ctx))) ∧
    (s.cur.status ≠ .halting ∨ s.cur.countersZero = false → exec (.flockEnd n) s = .next s)

namespace Sys2Proof.Machine

/-- What a buffer holds of bit i of line a, if it holds it. -/
def heldBit (es : List CommitEntry) (a i : Nat) : Option Bool :=
  (es.findSome? fun e => match e with
    | .line b enable data _ => if b = a then some (enable.getLsbD i, data.getLsbD i) else none
    | .reduction _ _ _ _ _ _ => none).bind fun x => if x.1 then some x.2 else none

/-- The lines of a buffer, and its reductions. -/
def lineOf : CommitEntry → Option Nat
  | .line a _ _ _ => some a
  | .reduction _ _ _ _ _ _ => none

end Sys2Proof.Machine

/-- R65: buffers merge bit by bit: of a bit that several flocks hold, the highest flock field's stands, one that a single flock holds is its,
and any other is the fold's as before; reductions stay in their order, the fold's before the flocks', and these by ascending flock field. -/
def Sys2Proof.Machine.MergedBuffers : Prop :=
  ∀ (buf : List CommitEntry) (fs : List Flock), fs.Pairwise (fun f g => f.field ≠ g.field) → (∀ f ∈ fs, (f.buf.filterMap lineOf).Nodup) →
    let merged := mergeBuffers buf fs
    (∀ f ∈ fs, ∀ a i x, heldBit f.buf a i = some x → (∀ g ∈ fs, f.field < g.field → heldBit g.buf a i = none) → heldBit merged a i = some x) ∧
    (∀ a i, (∀ f ∈ fs, heldBit f.buf a i = none) → heldBit merged a i = heldBit buf a i) ∧
    (∀ e, lineOf e = none → (e ∈ merged ↔ e ∈ buf ∨ ∃ f ∈ fs, e ∈ f.buf)) ∧
    let reductions := fun (es : List CommitEntry) => es.filter fun e => (lineOf e).isNone
    ∃ gs : List Flock, gs.Perm fs ∧ gs.Pairwise (fun f g => f.field < g.field) ∧ reductions merged = reductions buf ++ gs.flatMap fun f => reductions f.buf

/-- R65, R66, R141 and R374: a barrier is left when every flock of the fold has arrived, and then by all of them at once, the
buffers of its flocks having merged into the fold's; the buffer of a fold at its `commit`, or at its end, enters memory when the fold holds
the token, and its flocks go on when its requests are past the core's mesh port (R314). One that asks a device which does not answer waits, 4 µs at most
(R330), and what answers later is not heard (log entry 121). Where some flocks of a fold reach an instance by `bar` and others by `commit`, those at `bar` go on
at once (the model's choice, log entry 132). -/
def Sys2Proof.Machine.BarrierAndCommitEvents : Prop :=
  ∀ (s : State) (n : Nat) (f : Fold) (l : Launch), s.fold? n = some f → s.launch? f.launch = some l →
    let here := fun (k : Flock) => k.fold = n
    let at_ := (s.flocksOf n).any fun k => match k.status with | .barrier c _ => !c | _ => false
    let held := l.hdr.determ || l.hdr.restart
    let committing := (s.flocksOf n).any fun k => k.status == .committing
    ((s.memberArrived f.launch f.visit false = false ∨ at_ = false) → exec (.barrierRelease n false) s = .next s) ∧
    (s.memberArrived f.launch f.visit false = true → at_ = true → held = false →
      exec (.barrierRelease n false) s = .next ((s.setFold { f with bars := f.bars + 1 }).mapFlocks fun k =>
        if here k then k.leaveBarrier false else k)) ∧
    (s.memberArrived f.launch f.visit false = true → at_ = true → held = true → ∃ g, (s.mergeFold f).fold? n = some g ∧
      g = { f with buf := mergeBuffers f.buf (s.flocksOf n) } ∧
      (∀ k ∈ (s.mergeFold f).flocksOf n, k.buf = []) ∧
      exec (.barrierRelease n false) s = .next (((s.mergeFold f).setFold { g with bars := g.bars + 1 }).mapFlocks fun k =>
        if here k then k.leaveBarrier false else k)) ∧
    (let ready := (s.gangVisits f).all fun v => s.memberArrived f.launch v true
      let at2 := (s.flocksOf n).any fun k => match k.status with | .barrier c _ => c | _ => false
      let mine := (s.barrierFolds f true).any fun g => g.id == s.cur.fold
      ((ready = false ∨ at2 = false) → exec (.barrierRelease n true) s = .next s) ∧
      (ready = true → at2 = true → ∃ t, exec (.barrierRelease n true) s = .next t ∧ SameMemory s t ∧
        t.cur.status = (if mine then (s.cur.leaveBarrier true).status else s.cur.status) ∧
        t.cur.pc = if mine then (s.cur.leaveBarrier true).pc else s.cur.pc)) ∧
    (∀ (k : Flock) (c commit x : Bool), k.status = .barrier c commit → k.leaveBarrier x =
      if c ≠ x then k else if commit then { k with status := .committing } else ({ k with status := .running } : Flock).advance 4) ∧
    (∀ d, d ∈ s.silentDevices (s.outgoing f) ↔ (∃ e ∈ s.outgoing f, ∃ a ∈ e.places, regionOf a = .aperture d) ∧ lookup s.peers d = none) ∧
    (s.commitWaits f = true ↔ s.silentDevices (s.outgoing f) ≠ [] ∧ ∀ x, f.outSince = some x → s.time.toNat < x.1.toNat + 4000) ∧
    (∀ es d, d ∈ s.unheard f es ↔ ∃ x, f.outSince = some x ∧ x.1.toNat + 4000 ≤ s.time.toNat ∧ (d ∈ x.2 ∨ d ∈ s.silentDevices es)) ∧
    (held = false ∨ s.holdsToken f = false → exec (.commitWriteOut n) s = .next s) ∧
    (held = true → s.holdsToken f = true → s.commitWaits f = true →
      exec (.commitWriteOut n) s = .next (s.setFold { f with
        outSince := some ((f.outSince.map fun x => x.1).getD s.time, s.silentDevices (s.outgoing f)) })) ∧
    (held = true → s.holdsToken f = true → s.commitWaits f = false → s.foldDone f = false → committing = true →
      (f.buf ≠ [] → exec (.commitWriteOut n) s = .next (s.writeOut f)) ∧
      (f.buf = [] → s.atPort (.commit n) = true → exec (.commitWriteOut n) s = .next s) ∧
      (f.buf = [] → s.atPort (.commit n) = false → exec (.commitWriteOut n) s = .next (s.mapFlocks fun k =>
        if here k ∧ k.status = .committing then ({ k with status := .running } : Flock).advance 4 else k))) ∧
    (held = true → s.holdsToken f = true → s.commitWaits f = false → s.foldDone f = true → f.committed = false → ∀ g, (s.mergeFold f).fold? n = some g →
      exec (.commitWriteOut n) s = .next ((s.mergeFold f).writeOut { g with committed := true }))

/-- What happens to a flock, what becomes of buffers that merge, and what happens to a fold at its barriers and commits, as three parts. -/
def Obligations.FlockAndBarrierEvents : Prop := FlockEvents ∧ MergedBuffers ∧ BarrierAndCommitEvents

namespace Sys2Proof.Machine

/-- A gang has been aborted on this device (R312): the launch closes with status 0x13 and the stop visit as it stands now (log entry 82), in record state 6;
folds that have not started, parked and saved ones are gone; those that run lose their buffers and deposits, and every flock of them that has not ended
enters the trap vector with kind 0x32, or ends where there is none. -/
def AbortsGang (s u : State) (l : Launch) : Prop :=
  let runs := fun (v : Nat) => ∃ g ∈ s.allFolds, g.launch = l.id ∧ g.started = true ∧ g.visit = v
  let tvec := (s.ctx l.ctx).tvec
  (∃ m k, u.launch? l.id = some m ∧ m = { l with
      closing := some (0x13, k), deposits := [], state := 6, gang := l.gang.map (fun g => { g with decided := true })
      recordAt := m.recordAt, spoiled := m.spoiled } ∧
    (l.hdr.record ≠ 0 → k = l.version) ∧ (l.hdr.record = 0 → k ∉ l.ended ∧ ∀ j, j < k → j ∈ l.ended)) ∧
  (∀ f ∈ u.allFolds, f.launch = l.id → runs f.visit) ∧ (∀ k ∈ u.parked, k.launch ≠ l.id) ∧ (∀ k ∈ u.saved, k.fold.launch = l.id → runs k.fold.visit) ∧
  (∀ d ∈ u.dispatch, d.launch ≠ l.id) ∧
  ((∀ f ∈ s.allFolds, ∀ g ∈ s.allFolds, f.id = g.id → f = g) →
    (∀ f ∈ s.allFolds, f.launch = l.id → f.started = true → f.id ≠ 0 → { f with buf := [], deposits := [] } ∈ u.allFolds) ∧
    ∀ f ∈ s.allFlocks, (∃ g ∈ s.allFolds, g.launch = l.id ∧ g.started = true ∧ g.id = f.fold) → f.fold ≠ 0 → ∃ h ∈ u.allFlocks, h.id = f.id ∧
      (f.status = .ended → h.status = .ended) ∧
      (f.status ≠ .ended → tvec = 0 → h.status = .ended ∧ h.buf = []) ∧
      (f.status ≠ .ended → tvec ≠ 0 → h.status = .running ∧ h.pc = tvec ∧ h.epc = f.resumeAt ∧ h.ecause = 0x32 ∧ h.routine = .gangAbort ∧
        h.privileged = true ∧ h.buf = []))

end Sys2Proof.Machine

/-- R30 to R36, R49, R287, R291, R311 and R312: the events of a launch's life, each with the condition under which it acts; without it nothing
changes. A launch whose dependency counter does not translate keeps waiting (the model's choice, log entry 78), and an acknowledgement is taken only
with the instant that the time base shows (the model's own form of the event, log entry 70). A parked fold that goes onto a core while its context is
being pre-empted starts and vectors at once (R295; the model's reading, log entry 100). Parked before a
resume, on another core it ends its boost lease (R320; log entry 126). -/
def Sys2Proof.Machine.LaunchEvents : Prop :=
  ∀ (s : State) (n : Nat) (l : Launch), s.launch? n = some l →
    let due := l.status = 1 ∧ l.closing = none ∧
      (l.due = true ∨ s.unitNat l.ctx (l.header + 192) 8 = some 0 ∧ l.hdr.start ≤ s.time ∧ s.subscriptionMet l = true)
    (due → exec (.launchReady n) s = .next ((s.setLaunch { l with status := 2 }).headerStatus l.ctx l.header 2)) ∧
    (¬ due → exec (.launchReady n) s = .next s) ∧
    (∀ status k, s.retiring l = some (status, k) → exec (.launchRetirement n) s = .next (s.retire l status k)) ∧
    (s.retiring l = none → exec (.launchRetirement n) s = .next s) ∧
    (l.hdr.record ≠ 0 → l.closing = none → l.version < l.hdr.total → l.ended.contains l.version = true →
      exec (.mergeVisit n) s = .next (s.mergeNext l)) ∧
    (l.ended.contains l.version = false → exec (.mergeVisit n) s = .next s) ∧
    (∀ g, l.gang = some g →
      (g.decided = true ∨ l.closing.isSome = true ∨ s.time.toNat < l.hdr.start.toNat + g.window.toNat + g.guard.toNat →
        exec (.gangDecision n) s = .next s) ∧
      (g.decided = false → l.closing = none → l.hdr.start.toNat + g.window.toNat + g.guard.toNat ≤ s.time.toNat →
        let sendBy := l.hdr.start.toNat + g.window.toNat
        let complete := g.sent.toNat ≤ sendBy ∧ ∀ m, m < g.members → m ≠ g.index → ∃ a ∈ s.acks, a.gang = g.ident ∧ a.generation = g.generation ∧
          a.member = m ∧ a.sent.toNat ≤ sendBy ∧ a.arrived.toNat ≤ sendBy + g.guard.toNat
        (complete → exec (.gangDecision n) s = .next (s.setLaunch { l with gang := some { g with decided := true } })) ∧
        (¬ complete → ∃ u, exec (.gangDecision n) s = .next u ∧ AbortsGang s u l))) ∧
    (∀ gang generation sent arrived member, exec (.gangAckReceive gang generation member sent arrived) s = .next (if arrived = s.time then
      { s with acks := s.acks ++ [{ gang := gang, generation := generation, member := member, sent := sent, arrived := arrived }] } else s)) ∧
    (∀ visit core k position, (s.parked.find? fun p => p.launch == n && p.visit == visit && p.flock.isNone) = some k →
      s.roomFor l core = some position →
      let u := State.freeEntry { s with parked := s.parked.filter fun q => q != k } k
      let p := (u.moveBoost k core).placeFold l visit k.index core position
      (k.generation ≠ (u.ctx k.ctx).fgen → core ≠ k.core → ((u.moveBoost k core).ctx k.ctx).boost = none) ∧
      (k.generation = (u.ctx k.ctx).fgen ∨ core = k.core → u.moveBoost k core = u) ∧
      let svec := (p.ctx l.ctx).svec
      (s.mayRedispatch l k core = true → (s.firstFor core).map (fun f => f.id) = some n →
        exec (.parkedFoldRedispatch n visit core) s = .next (p.vectorNew l visit)) ∧
      ((p.ctx l.ctx).preempting = none → p.vectorNew l visit = p) ∧
      ((p.ctx l.ctx).preempting.isSome = true → svec ≠ 0 → ∀ f, (p.allFolds.find? fun f => f.launch == l.id && f.visit == visit) = some f →
        p.vectorNew l visit = (p.startFold l f).mapFlocks fun g => if g.fold = f.id then g.preempted svec p.nextId else g) ∧
      ((p.ctx l.ctx).preempting.isSome = true → svec = 0 → ∀ f, (p.allFolds.find? fun f => f.launch == l.id && f.visit == visit) = some f →
        ParksFold p (p.vectorNew l visit) f) ∧
      (s.mayRedispatch l k core = false ∨ (s.firstFor core).map (fun f => f.id) ≠ some n → exec (.parkedFoldRedispatch n visit core) s = .next s))

/-- R36, R43 and R253: a launch that retires writes K, then its status, then its stamp, as a release at system scope; the record and the stop
visit of one whose record software wrote (what counts as that: the model's reading, log entry 50), or whose folds broke R58 (R59, log entry 49), are unknown
(free values). What the launch unit writes changes its bytes and no others. -/
def Sys2Proof.Machine.RetirementWrites : Prop :=
  (∀ (s : State) (n : Nat) (l : Launch) (status : BitVec 8) (k : Nat), s.launch? n = some l → s.retiring l = some (status, k) →
    let written := fun (s : State) (k : Nat) =>
      let a := (s.flushRemote.unitWrite l.ctx (l.header + 0xD8) (toBytes 8 k)).unitWrite l.ctx (l.header + 0xD0) (toBytes 8 status.toNat)
      let b := if l.hdr.stamp = 0 then a else
        (a.unitWrite l.ctx l.hdr.stamp (toBytes 8 (status.toNat * 2 ^ 48 + l.seq))).flushRemote
      ({ b with launches := b.launches.filter fun j => j.id != l.id, dispatch := b.dispatch.filter fun d => d.launch != l.id } : State)
    (l.spoiled = false → exec (.launchRetirement n) s = .next (written s k)) ∧
    (l.spoiled = true → ∃ u, RecordWritten { s with free := s.free + 1 } u l ((List.range 64).map fun j => Config.freeByte (s.free + 1 + j)) ∧
      exec (.launchRetirement n) s = .next (written u (Config.freeDWord s.free).toNat))) ∧
  ∀ (s : State) (ctx : Nat) (va : Addr) (bs : List Byte) (pas : List Nat), s.Canonical →
    s.plainBytes (s.unit ctx) { w := true } va bs.length = .ok pas →
    OnlyMemory s (s.unitWrite ctx va bs) ∧ OthersSame s (s.unitWrite ctx va bs) pas ∧
    (pas.Nodup → ∀ j, j < bs.length → s.ignored (pas.getD j 0) = false → s.Plain (pas.getD j 0) →
      (s.unitWrite ctx va bs).read (pas.getD j 0) = bs.getD j 0)

namespace Sys2Proof.Machine

/-- R50: an accumulated estimate with a deposit. -/
def combined (a b : Estimate) : Estimate :=
  if b.n = 0 then a
  else if a.n = 0 then { b with nonfinite := a.nonfinite }
  else
    let n := a.n + b.n
    let d := f64Sub b.mean a.mean
    { a with
      n := n, mean := f64Add a.mean (f64Mul d (f64Div (f64OfNat b.n) (f64OfNat n)))
      m2 := f64Add (f64Add a.m2 b.m2) (f64Mul (f64Mul d d) (f64Div (f64Mul (f64OfNat a.n) (f64OfNat b.n)) (f64OfNat n))) }

/-- R51: the half width of an estimate, each quotient by a count rounded once (log entry 79). -/
def halfWidthOf (l : Launch) (e : Estimate) : DWord :=
  if e.n < l.hdr.minCount then 0x7FF0000000000000
  else
    let v := f64DivBy (f64 e.m2) (Num.ofNat (e.n - 1))
    let w := if l.hdr.finitePopulation = false then v else if l.population ≤ e.n then 0
      else f64Mul v (f64DivBy (Num.ofNat (l.population - e.n)) (Num.ofNat (l.population - 1)))
    f64Mul l.hdr.factor (f64Sqrt (f64DivBy (f64 w) (Num.ofNat e.n)))

end Sys2Proof.Machine

/-- R41, R42, R49 to R51, R53 and R61: a merge of a launch whose folds kept R58 (log entry 49), with the stop flag or without it (its half width: log
entry 20), into a record that no software wrote (log entry 50), combines the deposits of the next visit in ascending flock field, raises the version,
recomputes the half width, and writes the record's 64 bytes at once; a check point may meet provisional subscriptions and stop the launch (one that
came later: log entry 80). A count past 2^64 - 1 stands modulo 2^64 (log entry 108). These are the model's choices. -/
def Sys2Proof.Machine.MergeResults : Prop :=
  ∀ (s : State) (n : Nat) (l : Launch), s.launch? n = some l → l.hdr.record ≠ 0 → l.closing = none → l.version < l.hdr.total →
    l.ended.contains l.version = true → l.spoiled = false →
    let ds := sortBy (fun a b => decide (a.field ≤ b.field)) ((lookup l.deposits l.version).getD [])
    let e := ds.foldl (fun a d => combined a d.est) l.est
    let half := halfWidthOf l e
    let version := l.version + 1
    let check := version == l.hdr.total || (l.hdr.stop && version % 2 ^ l.hdr.stride == 0)
    let met := fun (k : Launch) => l.hdr.stop && check && k.predecessor == some l.id && k.hdr.mode == 2 && k.closing.isNone && !k.provisional &&
      narrow half (f32 k.hdr.threshold)
    let any := s.launches.any met
    let final : Option Nat := if !check then none
      else if l.hdr.stop && (f64 l.hdr.target).isFinite && narrow half (f64 l.hdr.target) then some 2
      else if version = l.hdr.total then some 5
      else if l.hdr.deadline ≠ 0 ∧ l.hdr.deadline < s.time then some 3
      else if l.hdr.energy ≠ 0 ∧ l.hdr.energy < (s.ctx l.ctx).energy then some 4 else none
    let state := match final with | some f => f | none => if any && l.state == 0 then 1 else l.state
    let flags := (if l.rflags.testBit 0 || ds.any fun d => d.est.nonfinite then 1 else 0) +
      (if l.rflags.testBit 1 || (l.hdr.finitePopulation && decide (l.hdr.minCount ≤ e.n)) then 2 else 0) + if l.rflags.testBit 2 || any then 4 else 0
    let m : Launch := { l with
      est := e, half := half, version := version, state := state, rflags := flags
      deposits := l.deposits.filter fun d => d.1 != l.version, checks := if check then l.checks ++ [half] else l.checks }
    let marked : State := { s with launches := s.launches.map fun k => if met k then { k with provisional := true } else k }
    ∃ u, RecordWritten (marked.setLaunch m) u m (toBytes 8 e.n ++ toBytes 8 e.mean.toNat ++ toBytes 8 e.m2.toNat ++
        toBytes 8 half.toNat ++ toBytes 8 version ++ toBytes 8 state ++ toBytes 8 l.population ++ toBytes 8 flags) ∧
      exec (.mergeVisit n) s = .next (match final with | some f => u.stopAt ((u.launch? n).getD m) f | none => u)

/-- R22, R32 to R35, R52 and R260: folds are placed, started, donated and end. A donation moves the records of highest visit of a cluster's queue, at
most half of it and gangs whole, to an idle cluster of the same partition, and changes nothing otherwise. A fold is placed for the first launch, in
the order of R32, that has one for the core, unless that is a parked one; all flocks of a placed fold start together, at the entry of the header. -/
def Sys2Proof.Machine.FoldEvents : Prop :=
  ∀ (s : State) (n core victim thief count : Nat),
    let first := ((sortBy Launch.before s.launches).find? fun l => (s.parked.any fun k => s.mayRedispatch l k core) || (s.placement l core).isSome).bind
      fun l => s.placement l core
    (first = none → exec (.foldPlacement core) s = .next s) ∧
    (∀ folds l queue, first = some (folds, l, queue) → ∃ t, exec (.foldPlacement core) s = .next t ∧ SameMemory s t ∧
      t.dispatch = queue ∧ t.launches = (s.setLaunch l).launches ∧ t.flocks = s.flocks ∧ t.cur = s.cur ∧ ∃ new, t.folds = s.folds ++ new ∧
        (new.map fun f => ((f.visit, f.index), (f.core, f.position))) = folds ∧
        ∀ f ∈ new, f.launch = l.id ∧ f.ctx = l.ctx ∧ f.started = false ∧ f.committed = false ∧ f.regs = l.hdr.regs ∧ f.acc = l.hdr.acc ∧
          f.commit = l.hdr.commit ∧ f.half = l.hdr.half ∧ f.buf = [] ∧ f.arrival = 0) ∧
    (∀ f l, s.fold? n = some f → s.launch? f.launch = some l →
      (s.mayStart l f = false → exec (.foldStart n) s = .next s) ∧
      (s.mayStart l f = true → ∃ t, exec (.foldStart n) s = .next t ∧ t.cur = { s.cur with monitor := t.cur.monitor } ∧
        (∃ g, t.fold? n = some g ∧ g = { f with started := true }) ∧ t.flocks.length = s.flocks.length + l.hdr.extent 1 ∧
        ∃ new : List Flock, new.length = l.hdr.extent 1 ∧ ∀ g ∈ new, g ∈ t.flocks ∧ g.fold = f.id ∧ g.ctx = f.ctx ∧ g.pc = l.hdr.entry ∧
          g.em = BitVec.ofNat 32 (2 ^ l.hdr.extent 0 - 1) ∧ g.key = l.hdr.seed ∧ g.status = .running ∧ g.privileged = false) ∧
      (∀ x, s.foldDone f = true → l.closing = some x → exec (.foldEnd n) s = .next ((s.removeFold f).finishPreempt f.ctx)) ∧
      (s.foldDone f = false → exec (.foldEnd n) s = .next s) ∧
      (s.foldDone f = true → l.closing = none → (l.hdr.determ = true ∨ l.hdr.restart = true) → (f.committed = false ∨ s.atPort (.commit n) = true) →
        exec (.foldEnd n) s = .next s) ∧
      (s.foldDone f = true → l.closing = none → (l.hdr.determ = false ∧ l.hdr.restart = false ∨ f.committed = true ∧ s.atPort (.commit n) = false) →
        let l1 := { l with ended := l.ended ++ [f.visit]
                           deposits := if f.deposits.isEmpty then l.deposits else l.deposits ++ [(f.visit, f.deposits)] }
        exec (.foldEnd n) s = .next (((s.removeFold f).setLaunch l1).finishPreempt f.ctx))) ∧
    (let queue := s.dispatch.filter fun d => d.cluster == victim
     let open_ := (∃ p ∈ s.setup.partitions, p.clusters.getLsbD victim = true ∧ p.clusters.getLsbD thief = true) ∧ s.idle thief = true ∧
       2 * count ≤ queue.length
     (¬ open_ → exec (.donation victim thief count) s = .next s) ∧
     (open_ → ∃ taken : List Dispatch, taken.length = count ∧ (∀ d ∈ taken, d ∈ queue) ∧
       (∀ d ∈ taken, ∀ e ∈ queue, e ∉ taken → e.visit ≤ d.visit) ∧
       let whole := ∀ d ∈ taken, ∀ l, s.launch? d.launch = some l → ∀ v ∈ l.gangOf d.visit, ∃ e ∈ taken, e.launch = d.launch ∧ e.visit = v
       (whole → exec (.donation victim thief count) s =
         .next { s with dispatch := s.dispatch.map fun d => if taken.contains d then { d with cluster := thief } else d }) ∧
       (¬ whole → exec (.donation victim thief count) s = .next s)))

/-- What happens to a launch, what its retirement and its merges write, and what happens to its folds, as four parts. -/
def Obligations.LaunchAndFoldEvents : Prop := LaunchEvents ∧ RetirementWrites ∧ MergeResults ∧ FoldEvents

namespace Sys2Proof.Machine

/-- A flock as a pre-emption reaches it (R295, R296): it enters the save routine with kind 0x31 at once, or after the routine in which it is; one that has
ended, or saves already, is as it was. -/
def reached (svec : Addr) (next : Nat) (f : Flock) : Flock :=
  let b := f.boundary
  if f.status = .ended ∨ f.routine = .save then f
  else if f.routine ≠ .none then { f with preempt := true }
  else { b with
    epc := b.pc, ecause := 0x31, faddr := 0, privileged := true, routine := .save, entered := next, entries := b.entries + 1, pc := svec, status := .running
    waitedAt := if b.status = .waiting then some b.pc else b.waitedAt }

/-- A pre-emption of a context begins (R295, R296, R320): its boost lease ends; placed folds that have not started go back to a queue, or among the parked
ones; every flock of the others is reached, or where there is no save vector the restartable folds are parked. -/
def Preempts (s u : State) (ctx : Nat) (tag : Word) (die : BitVec 2) : Prop :=
  let s1 := s.setCtx ctx { s.ctx ctx with boost := none, preempting := some (tag, die, s.time) }
  let svec := (s.ctx ctx).svec
  ∃ a : State,
    ((∀ f ∈ s.allFolds, f.ctx = ctx → f.started = true) → a = s1) ∧
    (∀ f ∈ a.allFolds, f.ctx = ctx → f.started = true) ∧
    (∀ f ∈ s.allFolds, f.ctx = ctx → f.started = false → ∀ l, s.launch? f.launch = some l →
      (f.visit ∉ l.started → { launch := f.launch, visit := f.visit, index := f.index, cluster := f.core / 8 } ∈ a.dispatch) ∧
      (f.visit ∈ l.started → ∃ k ∈ a.parked, k.launch = f.launch ∧ k.visit = f.visit ∧ k.flock = none ∧ k.installed = true ∧ k.freed = true)) ∧
    (svec ≠ 0 →
      let g := fun (f : Flock) => if f.ctx = ctx ∧ f.supervises = false then reached svec a.nextId f else f
      u = State.finishPreempt { a with cur := g a.cur, flocks := a.flocks.map g } ctx) ∧
    (svec = 0 →
      let mine := a.allFolds.filter fun f => f.ctx == ctx && (match a.launch? f.launch with | some l => l.hdr.restart | none => false)
      (mine = [] → u = a.finishPreempt ctx) ∧ (∀ f, mine = [f] → ∃ v, ParksFold a v f ∧ u = v.finishPreempt ctx) ∧
      ∀ f ∈ mine, f.id ≠ 0 → ∀ g ∈ u.allFolds, g.id ≠ f.id)

/-- A saved fold has gone onto a core (R299, R320): it stands there with its hidden state, and each of its flocks that has not ended enters the save vector
with kind 0x33; its banks are mapped again, it is saved no more, and on another core its context's boost lease ends. -/
def Restores (s u : State) (k : SavedFold) (core position : Nat) : Prop :=
  (k.fold.id ≠ 0 → ∃ g ∈ u.allFolds, g = { k.fold with core := core, position := position, accs := g.accs, scratch := g.scratch, stale := g.stale }) ∧
  (∀ f ∈ k.flocks, ∃ h ∈ u.flocks, h.id = f.id ∧ h.core = core ∧ (f.status = .ended → h = { f with core := core }) ∧
    (f.status ≠ .ended → h.pc = (s.ctx k.fold.ctx).svec ∧ h.ecause = 0x33 ∧ h.epc = f.epc ∧ h.privileged = true ∧ h.routine = .resume ∧
      h.status = .running ∧ h.preempt = false ∧ (f.monitor.armed = true → h.monitor.event = true))) ∧
  (∀ q ∈ u.saved, q.fold.id ≠ k.fold.id) ∧
  (let g := { k.fold with core := core, position := position }
   ∀ j b, j < 8 → g.bankIn j = some b → (∀ i, i < 8 → g.bankIn i = some b → i = j) → (u.bank b).place = .mapped core (g.coreSlot j)) ∧
  (core ≠ k.fold.core → (u.ctx k.fold.ctx).boost = none)

/-- A context has been resumed (R290, R292, R299): it is resident with the next generation, the entries of its stalled flocks are gone, its parked folds may
go onto cores, and its saved folds go onto the lowest cores that have room for them and for their groups. Said whole for one parked and one saved. -/
def Resumes (s u : State) (ctx : Nat) : Prop :=
  let a := (s.setCtx ctx { s.ctx ctx with fgen := (s.ctx ctx).fgen + 1 }).setContextState ctx 2
  let mine := s.parked.filter fun k => k.ctx == ctx
  let held := s.saved.filter fun k => k.fold.ctx == ctx
  let kept := fun (ks : List Parked) => (ks.filter fun k => k.ctx != ctx || k.flock.isNone).map fun k =>
    if k.ctx = ctx then { k with installed := true, freed := true } else k
  (u.ctx ctx).fgen = (s.ctx ctx).fgen + 1 ∧ (u.ctx ctx).state = 2 ∧ u.parked = kept s.parked ∧
  (∀ k ∈ u.saved, k ∈ s.saved) ∧
  ∃ b : State,
    (mine = [] → b = a) ∧
    (∀ k, mine = [k] → (k.freed = true → b = { a with parked := kept s.parked }) ∧
      (k.freed = false → ∃ v, FreesSlot a v k.ctx k.slot ∧ b = { v with parked := kept s.parked })) ∧
    (held = [] → u = b) ∧
    ∀ k, held = [k] → (∀ q ∈ s.saved, q.fold.id = k.fold.id → q = k) → b.savedGroup k = [k] →
      let room := fun (c : Nat) => (b.coresFor c [k]).isSome = true
      ((∀ c, c < 256 → ¬ room c) → u = b) ∧
      ∀ c, c < 256 → room c → (∀ d, d < c → ¬ room d) → ∃ position, b.roomToRestore k c = some position ∧ Restores b u k c position

/-- A context has been killed (R56, R274, R275, R320, R327): each of its launches has ended and retired with status 0x12, its leases and its boost lease are
gone, the lines that no other context leases have left the L2, and its state is 4. Said whole for one launch. -/
def Kills (s u : State) (ctx : Nat) : Prop :=
  let rest := fun (r : State) =>
    let y := r.finishPreempt ctx
    let x := y.setCtx ctx { y.ctx ctx with leases := [], boost := none }
    ∃ gone : List Nat, (∀ line, line ∈ gone ↔ (∃ e ∈ r.leases ctx, ∃ p ∈ e.spans, line ∈ spanLines p) ∧ x.leasedLine line = false) ∧
      u = ((x.evict gone).setContextState ctx 4).refreshEnergy ctx
  (u.ctx ctx).state = 4 ∧ (u.ctx ctx).leases = [] ∧ (u.ctx ctx).boost = none ∧ (∀ l ∈ u.launches, l.ctx ≠ ctx) ∧
  (∀ l ∈ s.launches, l.ctx = ctx → (∀ f ∈ u.allFolds, f.launch ≠ l.id) ∧ (∀ k ∈ u.parked, k.launch ≠ l.id) ∧ (∀ k ∈ u.saved, k.fold.launch ≠ l.id) ∧
    ∀ d ∈ u.dispatch, d.launch ≠ l.id) ∧
  (s.liveOf ctx = [] → rest s) ∧
  ∀ l, s.liveOf ctx = [l] → ∃ v m status k, EndsLaunch s v l.id 0x12 ∧ v.launch? l.id = some m ∧ m.closing = some (status, k) ∧ rest (v.retire m 0x12 k)

end Sys2Proof.Machine

/-- R296 and R307: the launch unit acts on the first command of a die where the event is that of its operation. A context of a partition that does not
exist is answered 2, a field that is wrong (reserved bits, an operation that is none of the four, a secure partition for a non-secure shepherd) or a
wrong state 1, success 0. That a partition which does not exist comes before all that (log entries 44 and 45), and that a kill is answered in its own
step (log entry 66), are the model's readings. A pre-emption is answered when its flocks have yielded or ended, and one that comes meanwhile
is answered with it (log entry 85). A flock that is still in its routine 100 µs after a pre-emption loses its fold. -/
def Obligations.ContextCommands : Prop :=
  ∀ (s : State) (die : BitVec 2),
    let ops := [(Instr.admitContext die, 1), (.preEmpt die, 2), (.resume die, 3), (.kill die, 4)]
    (s.nextCommand die = none → ∀ e ∈ ops, exec e.1 s = .next s) ∧
    (∀ c t, s.nextCommand die = some (c, t) →
      let n := c.context
      let answer := fun (u : State) (k : Nat) => Host.Outcome.next (ρ := Refusal) (φ := Fault) (u.doneWord die c.tag k)
      (∀ k, s.commandError c = some k → ∀ e ∈ ops, exec e.1 s = answer t k) ∧
      (s.commandError c = none →
        (∀ e ∈ ops, c.op ≠ e.2 → exec e.1 s = .next s) ∧
        (c.op = 1 →
          let ok := t.isFree n && t.descriptorOk n && decide (t.shares c.partition + (t.described n).share ≤ 64)
          exec (.admitContext die) s = if ok then answer (((t.setCtx n (t.described n)).setContextState n 1).refreshEnergy n) 0 else answer t 1) ∧
        (c.op = 2 → (t.stateOf n ≠ 2 → exec (.preEmpt die) s = answer t 1) ∧
          (t.stateOf n = 2 → (t.ctx n).preempting = none → ∃ u, exec (.preEmpt die) s = .next u ∧ Preempts t u n c.tag die) ∧
          (t.stateOf n = 2 → (t.ctx n).preempting ≠ none → exec (.preEmpt die) s =
            .next (t.setCtx n { t.ctx n with preemptAlso := (t.ctx n).preemptAlso ++ [(c.tag, die)] }))) ∧
        (c.op = 3 → (t.stateOf n ≠ 3 → exec (.resume die) s = answer t 1) ∧
          (t.stateOf n = 3 → ∃ u, exec (.resume die) s = answer u 0 ∧ Resumes t u n)) ∧
        (c.op = 4 → (t.stateOf n = 0 ∨ 3 < t.stateOf n → exec (.kill die) s = answer t 1) ∧
          (1 ≤ t.stateOf n → t.stateOf n ≤ 3 → ∃ u, exec (.kill die) s = answer u 0 ∧ Kills t u n)))) ∧
    (∀ c : Command,
      let w := c.word.toNat
      let exists_ := ∃ q, s.setup.partitions[w / 2 ^ 16 % 8]? = some q ∧ q.clusters ≠ 0
      let bad := w / 2 ^ 14 % 4 ≠ 0 ∨ w / 2 ^ 19 % 2 ^ 13 ≠ 0 ∨ w % 256 = 0 ∨ 4 < w % 256 ∨
        c.secure = false ∧ ∃ q, s.setup.partitions[w / 2 ^ 16 % 8]? = some q ∧ q.secure = true
      c.op = w % 256 ∧ c.context = 64 * (w / 2 ^ 16 % 8) + w / 2 ^ 8 % 64 ∧ c.tag.toNat = w / 2 ^ 32 ∧
      (¬ exists_ → s.commandError c = some 2) ∧ (exists_ → bad → s.commandError c = some 1) ∧ (exists_ → ¬ bad → s.commandError c = none)) ∧
    (∀ n tag where_ since, (s.ctx n).preempting = some (tag, where_, since) →
      let waits := ∃ f ∈ s.allFlocks, f.ctx = n ∧ f.supervises = false ∧ f.status ≠ .yielded ∧ f.status ≠ .ended
      (waits → s.finishPreempt n = s) ∧
      (¬ waits → s.finishPreempt n = ((tag, where_) :: (s.ctx n).preemptAlso).foldl (fun t c => t.doneWord c.2 c.1 0) (((s.setCtx n { s.ctx n with
        preempting := none, preemptAlso := [], boost := none }).setContextState n 3).refreshEnergy n))) ∧
    (∀ n, (s.ctx n).preempting = none → s.finishPreempt n = s) ∧
    (∀ k tag since, s.fold? s.cur.fold = some k → (s.ctx s.cur.ctx).preempting = some (tag, die, since) →
      (s.cur.preempt = true → s.cur.status ≠ .ended → (s.cur.routine = .trap ∨ s.cur.routine = .resume ∨ s.cur.routine = .gangAbort) → since + 100000 ≤ s.time →
        ∃ u, exec (.routineTimeout s.cur.id) s = .next u ∧ ∀ l, s.launch? k.launch = some l →
          (l.hdr.restart = true → ParksFold s u k) ∧ (l.hdr.restart = false → EndsLaunch s u k.launch 0x14)) ∧
      (s.cur.preempt = false ∨ s.time < since + 100000 → exec (.routineTimeout s.cur.id) s = .next s))

/-- R309, R313, R315, R317, R319, R320, R322, R323, R326 and R327: the time base, the schedule, refills of token buckets, the pass count, boost leases,
the status words of cores, energy counters and their copies. A step of at most 1 µs is applied at once, any other is slewed by at most 100 ppm of what
passes, in the place of one that is still slewed (the model's choice, log entry 107). A port is refilled once in a window of 1,024 cycles: the base
grants, and for the contexts with a waiting request the spare pool by their shares, rounded down, the rest one by one. An emergency raises the pass count, to the one asked for or by one step (log entry 26). An energy counter stops at 2^64 -
1 (the model's choice, log entry 70), a core writes a word when the event names its reasons (the model's own form of the event, log entry 46), and a
window is one of the time base; the event tells what requests that the model does not follow took and which contexts wait with one (log entry 42). -/
def Sys2Proof.Machine.PowerAndTimeEvents : Prop :=
  ∀ (s : State) (x : Int) (core ctx uj ns : Nat) (spent : List (Nat × Nat)) (waiting : List Nat) (k : BitVec 5) (p : BitVec 2) (reasons : BitVec 8),
    let n := k.toNat
    let c := s.cluster n
    (0 ≤ x → x ≤ 1000 → exec (.timeBaseSync x) s = .next { s with time := s.time + BitVec.ofNat 64 x.toNat, slew := 0, slewCarry := 0 }) ∧
    (x < 0 ∨ 1000 < x → exec (.timeBaseSync x) s = .next { s with slew := x, slewCarry := 0 }) ∧
    (let steps := (s.slewCarry + ns) / 10000
      let d := max (-(steps : Int)) (min (steps : Int) s.slew)
      s.tick ns = { s with time := s.time + BitVec.ofInt 64 (ns + d), slew := s.slew - d, slewCarry := if s.slew = 0 then 0 else (s.slewCarry + ns) % 10000 }) ∧
    exec .timeDivisionSlot s = .next { s with slot := s.time.toNat * 9 / 256 % 16 } ∧
    (s.time.toNat * 9 / 4096 ≤ (s.core core).window → exec (.tokenRefill core spent waiting) s = .next s) ∧
    ((s.core core).window < s.time.toNat * 9 / 4096 → ∃ t, exec (.tokenRefill core spent waiting) s = .next t ∧ t = { s with cores := t.cores } ∧
      t.core core = { s.core core with window := s.time.toNat * 9 / 4096, buckets := (t.core core).buckets } ∧
      let cs := s.contextsOn core
      let waits := fun (c : Nat) => (s.core core).port.any (fun r => r.ctx == c) || waiting.contains c
      let w := cs.filter waits
      let share := fun (c : Nat) => (s.ctx c).share
      let pool := ((cs.filter fun c => !waits c).map fun c => (lookup (s.core core).buckets c).getD 0 - (lookup spent c).getD 0).sum + 16 * (64 - s.shares (cs.headD 0 / 64))
      let part := fun (c : Nat) => pool * share c / (w.map share).sum
      let rest := pool - (w.map part).sum
      (t.core core).buckets.map Prod.fst = cs ∧ (∀ c ∈ cs, waits c = false → (c, 16 * share c) ∈ (t.core core).buckets) ∧
      (0 < (w.map share).sum → ∀ c ∈ w, (c, 16 * share c + part c + if w.idxOf c < rest then 1 else 0) ∈ (t.core core).buckets)) ∧
    (∃ t, exec (.currentEmergency k p) s = .next t ∧ (t.cluster n).emergency = true ∧
      (t.cluster n).pass = (if p ≠ 3 ∧ c.pass.toNat < p.toNat then p else if c.pass.toNat < 2 then c.pass + 1 else c.pass) ∧ ∀ b, s.boosted n = some b → (t.ctx b).boost = none) ∧
    (c.pass = 0 ∨ s.time.toNat < c.lowered.toNat + 10000 → exec (.passCountLower k) s = .next s) ∧
    (c.pass ≠ 0 → c.lowered.toNat + 10000 ≤ s.time.toNat → ∃ t, exec (.passCountLower k) s = .next t ∧ (t.cluster n).pass = c.pass - 1 ∧
      (t.cluster n).lowered = s.time) ∧
    ((s.ctx ctx).boost = none → exec (.boostLeaseExpiry ctx) s = .next s) ∧
    (∀ till, (s.ctx ctx).boost = some till →
      (s.time ≤ till → exec (.boostLeaseExpiry ctx) s = .next s) ∧
      (till < s.time → ∃ t, exec (.boostLeaseExpiry ctx) s = .next t ∧ (t.ctx ctx).boost = none)) ∧
    ((s.core core).due = [] → exec (.coreWake core reasons) s = .next s) ∧
    (∀ w rest, (s.core core).due = w :: rest → exec (.coreWake core reasons) s = .next (if w / 2 ^ 16 % 2 ^ 8 = reasons.toNat then
      (s.setCore core { s.core core with due := rest }).hwWrite (s.coreWordAddress core) (toBytes 8 w) else s)) ∧
    (∀ g, s.flock? core = some g → g.ctx < 512 → s.charge (.issue core) uj = s.setCtx g.ctx { s.ctx g.ctx with
      energy := BitVec.ofNat 64 (min ((s.ctx g.ctx).energy.toNat + uj) (2 ^ 64 - 1)) }) ∧
    (ctx < 512 → s.stateOf ctx ≠ 0 →
      exec (.energyCopyRefresh ctx) s = .next (s.hwWrite (s.descriptor ctx + 0x18) (toBytes 8 (s.ctx ctx).energy.toNat))) ∧
    (512 ≤ ctx ∨ s.stateOf ctx = 0 → exec (.energyCopyRefresh ctx) s = .next s)

/-- R314: what a step sends reaches the mesh port of its core: the counted operations that the current flock issues, the chunks that copies form, with a
token for each 64 bytes at each end in memory, the buffers that commits write out, and the halfwords that the current flock fetches.
A request takes a token for each line of 64 bytes that goes past the core; how many of the lines that an L1 may hold do so is open (the model's choice,
log entry 42). Then the port is served. -/
def Sys2Proof.Machine.MeshPorts : Prop :=
  ∀ (s t : State),
    let u := s.settled t
    (∀ n, let sent := (s.sent t).filter fun x => x.core == n
      ∃ rs : List Request, rs.map (fun r => (r.ctx, r.asker)) = sent.map (fun x => (x.ctx, x.asker)) ∧
      (∀ p ∈ sent.zip rs, p.1.asks.1 ≤ p.2.tokens ∧ p.2.tokens ≤ p.1.asks.1 + p.1.asks.2) ∧
      ((u.core n).port, (u.core n).buckets) =
        servePort (t.contextsOn n) (((t.core n).port ++ rs).filter fun r => t.asking r.asker) (t.core n).buckets) ∧
    (∀ o ∈ t.cur.pend, s.nextId ≤ o.id → o.asks ≠ (0, 0) → t.cur.supervises = false →
      { core := t.cur.core, ctx := t.cur.ctx, asker := .op o.id, asks := o.asks } ∈ s.sent t) ∧
    (∀ j ∈ t.jobs, ∀ c, j.formed = some c → j.core < 256 → (∀ k ∈ s.jobs, k.id = j.id → k.formed = none) → 0 < c.width * c.count → j.memoryEnds ≠ 0 →
      { core := j.core, ctx := j.ctx, asker := .chunk j.id, asks := (j.memoryEnds * ((c.width * c.count + 511) / 512), 0) } ∈ s.sent t) ∧
    (∀ f ∈ s.allFolds, ∀ g, t.fold? f.id = some g → (f.committed = false ∧ g.committed = true ∨ (∃ k ∈ s.flocksOf f.id, k.status = .committing) ∧
        f.buf ≠ [] ∧ g.buf = []) →
      let asks := askOf ((s.outgoing f).flatMap CommitEntry.places)
      asks ≠ (0, 0) → { core := f.core, ctx := f.ctx, asker := .commit f.id, asks := asks } ∈ s.sent t) ∧
    (s.agenda = [] → s.issues = true → s.cur.supervises = false → askOf s.fetchedPlaces ≠ (0, 0) →
      { core := s.cur.core, ctx := s.cur.ctx, asker := .fetch s.cur.id, asks := askOf s.fetchedPlaces } ∈ s.sent t)

/-- R314: how a port is served: requests take tokens of their contexts' buckets in order of arrival, one that has all its tokens goes on, and one that
has not waits with an empty bucket. Tokens are only taken, never made; a context without a fold on the core has no bucket and waits for none. -/
def Sys2Proof.Machine.PortService : Prop :=
  ∀ (here : List Nat) (rs : List Request) (bs : List (Nat × Nat)),
    let r := servePort here rs bs
    let left := fun (b : List (Nat × Nat)) (c : Nat) => (lookup b c).getD 0
    let owed := fun (qs : List Request) (c : Nat) => ((qs.filter fun q => q.ctx == c).map fun q => q.tokens).sum
    (r.1.map fun q => q.asker).Sublist (rs.map fun q => q.asker) ∧
    (∀ c ∈ here, owed rs c + left r.2 c = owed r.1 c + left bs c) ∧ (∀ c, c ∉ here → lookup r.2 c = lookup bs c) ∧
    (∀ q ∈ r.1, q.ctx ∈ here ∧ 0 < q.tokens ∧ left r.2 q.ctx = 0) ∧
    ∀ q rest, rs = q :: rest → (∀ k ∈ rs, 0 < k.tokens) → q.ctx ∈ here → left bs q.ctx < q.tokens →
      ∃ others, r.1 = { q with tokens := q.tokens - left bs q.ctx } :: others ∧
        (others.filter fun k => k.ctx == q.ctx) = rest.filter fun k => k.ctx == q.ctx

/-- Time, power and energy, what reaches the mesh ports, and how a port is served, as three parts. -/
def Obligations.PowerTimeAndPorts : Prop := PowerAndTimeEvents ∧ MeshPorts ∧ PortService

/-- R305, R324, R325, R364 to R373: supply loss stops every core, leaves each byte of a write in flight old or new (those of a copy's chunk on its way: shown for
one copy alone), and seals a marker that counts the
dirty lines written back (which are dirty, and which writes in flight: the model's reading, log entry 99) and those discarded; a cold reset tests its
image and starts four supervisors at its entry or stops them; the seal takes the configuration and measures it; the operations of the Plewick block
answer a secure agent and refuse others. Their argument is a system-physical address (log entry 39), an absent marker is copied as zeros (log
entry 41), and what a report says before the seal and of killed contexts is the model's choice (log entry 136). A word of the device alone that software writes is unknown (log entry 52), and so is the record of a launch (R43, log entry 50). -/
def Obligations.BringUpEvents : Prop :=
  ∀ (s : State) (image : List Byte) (refreshed : Bool),
    let base := s.coldStart (markerKeeps s.plewick.marker refreshed)
    (∃ t, exec .supplyLossWarning s = .next t ∧ t.stopped = true ∧ t.remote = [] ∧ t.clean = [] ∧ t.dirty = [] ∧ t.used = [] ∧ t.folds = [] ∧ t.flocks = [] ∧
      t.jobs = [] ∧ t.plewick.marker = some (toBytes 4 0x4D4B0001 ++ toBytes 4 0 ++ toBytes 8 s.time.toNat ++ toBytes 8 s.dirty.length ++
        toBytes 8 (2 ^ 63 + (s.remote.map fun c => c.1 / 64 * 64).eraseDups.length % 2 ^ 32)) ∧
      ((∀ j ∈ s.jobs, j.chunk = none) → s.mem.wf = true → ∀ a, t.mem.read a = s.mem.read a ∨ ∃ o ∈ s.inFlight, o.2 = (a, t.mem.read a)) ∧
      ∀ j c, s.jobs = [j] → j.chunk = some c → s.inFlight = [] → s.mem.wf = true → ∀ a,
        t.mem.read a = s.mem.read a ∨ t.mem.read a = (s.deliver { j with stamp := 0 } c c.bits 0).mem.read a) ∧
    (imageFailure image ≠ 0 → exec (.coldReset image refreshed) s = .next (State.plewickStatus { base with stopped := true } (imageFailure image) 0)) ∧
    (imageFailure image = 0 → ∃ t, exec (.coldReset image refreshed) s = .next t ∧ t.stopped = false ∧ t.plewick.sealed = false ∧ t.folds = [] ∧
      t.launches = [] ∧ t.contexts = [] ∧ t.allFlocks.length = 4 ∧ (∀ f ∈ t.cur :: t.flocks, f.pc = BitVec.ofNat 72 (imageEntry image) ∧ f.privileged = true ∧ f.secure = true) ∧
      t.plewick.m[0] = Config.firmwareHash ∧ t.plewick.m[1] = sha3 (image.take (64 + imageLength image)) ∧ t.plewick.m[2] = 0 ∧ t.plewick.m[3] = 0) ∧
    (s.plewick.sealing = false ∨ s.plewick.sealed = true → exec .sealBoot s = .next s) ∧
    (s.plewick.sealing = true → s.plewick.sealed = false → disjoint s.configured.partitions = true → ∃ t, exec .sealBoot s = .next t ∧
      t.plewick.sealed = true ∧ t.setup = s.configured ∧ t.plewick.sealedBlock = s.mem.bytes configBase 256 ∧
      t.plewick.m[2] = sha3 (hashBytes s.plewick.m[2] ++ s.mem.bytes configBase 256)) ∧
    (s.plewick.request = none → ∀ i ∈ [Instr.extendM3, .report, .checkpointMarkerCopy], exec i s = .next s) ∧
    (∀ op sec, s.plewick.request = some (op, sec) →
      let a := s.requestNat 16 9
      let len := s.requestNat 32 8
      (sec = false → ∀ e ∈ [(Instr.extendM3, op ≠ 2 ∧ op ≠ 3), (.report, op = 2), (.checkpointMarkerCopy, op = 3)], e.2 →
        exec e.1 s = .next (s.endRequest 2)) ∧
      (sec = true →
        (op ≠ 2 → op ≠ 3 → s.requestNat 0 8 = 1 → 1 ≤ len → len ≤ 4096 → argumentOk a len = true →
          exec .extendM3 s = .next (State.endRequest { s with plewick := s.plewick.extend 3 (s.bytes a len) } 0)) ∧
        (op = 2 → argumentOk a 3701 = true → exec .report s = .next ((s.write (cellsAt a (s.reportBytes (s.bytes a 32))) 0 0 true).endRequest 0)) ∧
        (op = 3 → argumentOk a 32 = true → exec .checkpointMarkerCopy s = .next (State.endRequest
          (State.write { s with plewick := { s.plewick with marker := none } } (cellsAt a (s.plewick.marker.getD (List.replicate 32 0))) 0 0 true) 0)))) ∧
    (∀ a, ((List.range image.length).all fun k => writable (a + k)) = true → s.Canonical → ∃ t, exec (.registerWrite a image) s = .next t ∧
      OnlyMemory s t ∧ OthersSame s t ((List.range image.length).map fun k => a + k) ∧ ∀ k, k < image.length → s.ignored (a + k) = false →
        (s.Plain (a + k) → t.read (a + k) = image.getD k 0) ∧ (¬ s.Plain (a + k) → ∃ n, t.read (a + k) = Config.freeByte n)) ∧
    (∀ a, ((List.range image.length).all fun k => writable (a + k)) = false → exec (.registerWrite a image) s = .next s)

/-- R305, R330, R339, R340 and R368: a host or remote write that is granted (the host in no page that a context's system tables make secure: the model's
reading, log entry 87) changes the bytes that it names and no others, but for a word of the device alone (log entry 52) and the record of a launch (R43, log
entry 50), each of which it leaves unknown whole (free values, log entry 2); one that is not granted, and every read, changes nothing. -/
def Sys2Proof.Machine.OutsideWrites : Prop :=
  ∀ (s : State) (a : Nat) (tag : BitVec 16) (value : List Byte), s.Canonical →
    ∀ e ∈ [(fun (w : Bool) => Instr.hostAccess w a value, fun (k : Nat) => s.hostMay (a + k)),
        (fun w => .remoteRequest w tag a value, fun k => s.answers tag (a + k))],
      exec (e.1 false) s = .next s ∧
      ((∃ k, k < value.length ∧ e.2 k = false) → exec (e.1 true) s = .next s) ∧
      ((∀ k, k < value.length → e.2 k = true) → ∃ t, exec (e.1 true) s = .next t ∧ OnlyMemory s t ∧
        OthersSame s t ((List.range value.length).map fun k => a + k) ∧ (∀ k, k < value.length →
          (s.Plain (a + k) → t.read (a + k) = value.getD k 0) ∧ (¬ s.Plain (a + k) → ∃ n, t.read (a + k) = Config.freeByte n)) ∧
        ∀ l ∈ s.launches, (∃ k, k < value.length ∧ a + k ∈ l.recordAt) → { l with spoiled := true } ∈ t.launches)

/-- R330: an access to another device that refuses it, and one that nothing answers for 4 µs, ends in an error record of kind 1 with identity 0 and
the hop, and a precise machine check; the chunk that a copy or a collective step sends, or the one for which it asks its source, fails with status 7
where that is so of a byte of its own. Before that, and for an access that is answered in time, nothing happens. That later answers are not heard (log entry
121), when a chunk's 4 µs begin (133), that `errq` 0 drops a record with the lost bit (13), and a flock's status 7 and when its wait begins (61, 121) are
the model's readings. -/
def Sys2Proof.Machine.RemoteAnswers : Prop :=
  ∀ (s : State) (job : Nat) (va : Addr) (hop : BitVec 8), s.Canonical →
    let c := s.ctx s.cur.ctx
    let entry := toBytes 8 0 ++ [hop, 1] ++ toBytes 2 7 ++ toBytes 4 0 ++ toBytes 16 0
    let unanswered := fun (why : NoAnswer) (since : DWord) (g : Agent) (vas : List Addr) =>
      (why = .refused → s.time.toNat < since.toNat + 4000 ∧ vas.findSome? (s.noAnswer g) = some .refused) ∧
      (why = .silent → since.toNat + 4000 ≤ s.time.toNat)
    ∀ e ∈ [(fun (f j : Nat) => Instr.remoteAccessRefusal f j va hop, NoAnswer.refused), (fun f j => .remoteAccessTimeout f j va hop, .silent)],
      (s.job? job = none → (∀ x since, s.cur.status ≠ .remote x since) → exec (e.1 s.cur.id job) s = .next s) ∧
      (∀ x since, s.cur.status = .remote x since → s.job? job = none → x.addr = va →
        (¬ unanswered e.2 since (s.asker s.cur x) [va] → exec (e.1 s.cur.id job) s = .next s) ∧
        (unanswered e.2 since (s.asker s.cur x) [va] → s.MayTrap → x.kind = 0x30 → ∃ t, exec (e.1 s.cur.id job) s = .next t ∧
          t.cur.pc = (s.ctx s.cur.ctx).tvec ∧ t.cur.epc = s.cur.pc ∧ t.cur.ecause = x.cause ∧ t.cur.faddr = va ∧ t.cur.routine = .trap ∧
          t.cur.privileged = true ∧ t.cur.v = s.cur.v ∧ t.cur.s = s.cur.s ∧ t.cur.pend = s.cur.pend ∧
          (c.errq = 0 ∨ c.ringCapacity ≤ c.ringIn - c.ringOut → (t.ctx s.cur.ctx).lost = true ∧ (t.ctx s.cur.ctx).ringIn = c.ringIn) ∧
          ∀ pas, c.errq ≠ 0 → c.ringIn - c.ringOut < c.ringCapacity →
            s.plainBytes (s.unit s.cur.ctx) { w := true } (c.ringEntry c.ringIn) 32 = .ok pas → pas.Nodup →
            (∀ p ∈ pas, s.ignored p = false ∧ s.Plain p) →
            (t.ctx s.cur.ctx).ringIn = c.ringIn + 1 ∧ ∀ i, i < 32 → t.read (pas.getD i 0) = entry.getD i 0)) ∧
      (∀ j, s.job? job = some j →
        (j.chunk = none → j.asked = none → exec (e.1 0 job) s = .next s) ∧
        (∀ since, j.chunk = none → j.asked = some since →
          (unanswered e.2 since j.agent (s.sourceReaches j) → exec (e.1 0 job) s = .next (s.failChunk j hop.toNat 7)) ∧
          (¬ unanswered e.2 since j.agent (s.sourceReaches j) → exec (e.1 0 job) s = .next s)) ∧
        ∀ c, j.chunk = some c →
          let far := ∃ va ∈ j.reaches j.dst, (s.farDevice j.agent va).isSome = true ∨ (s.noAnswer j.agent va).isSome = true
          (c.since = none ∨ ¬ far → exec (e.1 0 job) s = .next s) ∧
          ∀ since, c.since = some since → far →
            (unanswered e.2 since j.agent (j.reaches j.dst) → exec (e.1 0 job) s = .next (s.failAll j c hop.toNat 7)) ∧
            (¬ unanswered e.2 since j.agent (j.reaches j.dst) → exec (e.1 0 job) s = .next s))

/-- R342 to R346: a snapshot whose instant has come copies a line, byte by byte, to its place in the destination, as the line stands before any later
write; a line with an uncorrectable error leaves unknown bytes there (free values) and counts as damaged. A complete one is stamped with the context's next copy sequence number and status 0, or 6 where a line was damaged, at address 0
too (the model's reading, log entry 55). A sealed configuration block ignores copies (R366), another device refuses what is not its tag's (R330), and a word
of the device alone or a record is left unknown whole (log entries 52 and 50). -/
def Sys2Proof.Machine.SnapshotSteps : Prop :=
  ∀ (s : State) (line : Nat), s.Canonical →
    let begun := fun (x : Snapshot) => x.armed = true ∨ x.at_ ≤ s.time
    exec .snapshotArm s = .next { s with snapshots := s.snapshots.map fun x => if x.at_ ≤ s.time then { x with armed := true } else x } ∧
    ((∀ x ∈ s.snapshots, ¬ begun x) → exec (.snapshotLineCopy line) s = .next s) ∧
    -- A line whose copy lands in lines still to be copied takes those with it: the premises leave that case out.
    ((s.snapshots.flatMap fun x => x.pending).Pairwise (fun p q => p.2 + 64 ≤ q.2 ∨ q.2 + 64 ≤ p.2) →
      (∀ x ∈ s.snapshots, ∀ p ∈ x.pending, ∀ y ∈ s.snapshots, ∀ q ∈ y.pending, p.2 + 64 ≤ q.1 ∨ q.1 + 64 ≤ p.2) →
      ∃ t, exec (.snapshotLineCopy line) s = .next t ∧ OnlyMemory s t ∧ OthersSame s t [] ∧
        t.snapshots = (s.snapshots.map fun x => if x.armed || decide (x.at_ ≤ s.time) then { x with
          pending := x.pending.filter fun p => p.1 != line
          damaged := x.damaged ++ (x.pending.filter fun p => p.1 == line && s.broken.contains (.line line)).map fun p => p.1 } else x) ∧
        ∀ x ∈ s.snapshots, begun x → ∀ p ∈ x.pending, p.1 = line → ∀ j, j < 64 →
          s.takesWrite x.ctx (p.2 + j) = true → s.ignored (p.2 + j) = false →
            (s.broken.contains (.line line) = true ∨ ¬ s.Plain (p.2 + j) → ∃ n, t.mem.read (p.2 + j) = Config.freeByte n) ∧
            (s.broken.contains (.line line) = false → s.Plain (p.2 + j) → t.mem.read (p.2 + j) = s.mem.read (line + j))) ∧
    ((∀ x ∈ s.snapshots, x.armed = false ∨ x.pending ≠ []) → exec .snapshotStamp s = .next s) ∧
    (∀ x, (s.snapshots.filter fun y => y.armed && y.pending.isEmpty) = [x] →
      (∀ j, j < 8 → x.stamp + j < Config.plewickBase ∧ s.Plain (x.stamp + j)) →
      let seq := (s.ctx x.ctx).copySeq
      let word := toBytes 8 ((if x.damaged = [] then 0 else 6) * 2 ^ 48 + seq)
      ∃ t, exec .snapshotStamp s = .next t ∧ (t.ctx x.ctx).copySeq = (if seq = 2 ^ 48 - 1 then 1 else seq + 1) ∧
        (t.snapshots.length = s.snapshots.length - 1) ∧ t.remote = [] ∧ ∀ j, j < 8 → t.mem.read (x.stamp + j) = word.getD j 0)

/-- R244, R257, R302 and R303: a dirty line of another device's memory is written back and reads as before, with the dirty bytes beside it that one element
may share; a soft error is held where it arose (at a scratch address of a mapped bank, with the bank) and raises nothing. -/
def Sys2Proof.Machine.LineEvents : Prop :=
  ∀ (s : State) (a : Nat) (place : SoftErrorPlace), s.Canonical →
    (∃ t, exec (.remoteLineWriteBack a) s = .next t ∧ SameMemory s t ∧ (∀ c ∈ t.remote, c.1 / 64 ≠ a / 64) ∧
      (∀ b, b % 64 = 63 → lookup s.remote b ≠ none → lookup s.remote (b + 1) ≠ none → b / 64 = a / 64 ∨ (b + 1) / 64 = a / 64 →
        lookup t.remote b = none ∧ lookup t.remote (b + 1) = none) ∧
      t = { s with mem := t.mem, remote := t.remote, clean := t.clean }) ∧
    ((∀ f o, place ≠ .scratch f o) → s.errorPlace place = place) ∧
    (∀ n f o, s.fold? n = some f → f.localBytes ≤ o →
      (∀ k b, k < f.slots → 0x1000000 + k * 0x80000 ≤ o → o < 0x1000000 + (k + 1) * 0x80000 → f.bankIn k = some b →
        s.errorPlace (.scratch n o) = .bank b ((o - 0x1000000) % 0x80000))) ∧
    (∀ n f o, s.fold? n = some f → o < f.localBytes → s.errorPlace (.scratch n o) = .scratch n o) ∧
    ∃ t, exec (.uncorrectableSoftError place) s = .next t ∧ (∀ q, q ∈ t.broken ↔ q = s.errorPlace place ∨ q ∈ s.broken) ∧
      t = { s with broken := t.broken }

/-- Writes from outside, answers of other devices, snapshots, and lines, as four parts. -/
def Obligations.MemoryEvents : Prop := OutsideWrites ∧ RemoteAnswers ∧ SnapshotSteps ∧ LineEvents

/-- R207, R208, R224, R227, R338 and R341: the engine forms the next chunk of a job that may send, and sends it with the combining
entries in force; an element that cannot be read fails the chunk, and a source that does not answer is asked until it does or 4 µs have passed (R330), after
which no answer of it is taken.
Of background copies the oldest of a context goes first, and contexts take turns by number (log entry 76). A chunk that fails ends a copy; a
collective step goes on to its next chunk. -/
def Sys2Proof.Machine.ChunkSending : Prop :=
  ∀ (s : State) (n hop status : Nat),
    (s.job? n = none → exec (.copyChunkSend n) s = .next s) ∧
    (∀ j, s.job? n = some j →
      let xs := (List.range (j.countOf j.next)).mapM fun i => s.readElement j (j.next * j.perChunk + i)
      (s.maySend j = false ∨ (∃ since, j.asked = some since ∧ since.toNat + 4000 ≤ s.time.toNat) → exec (.copyChunkSend n) s = .next s) ∧
      (s.maySend j = true → (∀ since, j.asked = some since → s.time.toNat < since.toNat + 4000) →
        (∀ ys, xs = .ok ys →
          let c : Chunk := { j.form ys with
            since := none, entries := if j.kind.collective then s.entriesFor (j.identityOf j.next) else [] }
          let t := s.setJob { j with chunk := some c, formed := some c, asked := none }
          exec (.copyChunkSend n) s = .next (if j.kind = .bg then { t with bgTurn := j.ctx } else t)) ∧
        (∀ k, xs = .error k → exec (.copyChunkSend n) s = .next
          (if k = 7 ∧ s.jobSilent j (s.sourceReaches j) = true then s.setJob { j with asked := some (j.asked.getD s.time) } else s.failChunk j 0 k))) ∧
      (j.kind ≠ .bg → s.maySend j = (!j.stopped && j.chunk.isNone && !j.riding && decide (j.next < j.chunks) && !s.heldBySwitch j.id &&
        (j.kind != .mt || j.slot.isSome))) ∧
      (j.kind = .bg → s.maySend j = true → (s.jobs.map fun k => k.id).Nodup →
        (s.jobs.find? fun k => k.kind == .bg && k.ctx == j.ctx) = some j ∧
        ∀ k ∈ s.background, (s.bgTurn < k.ctx → s.bgTurn < j.ctx ∧ j.ctx ≤ k.ctx) ∧ (k.ctx ≤ s.bgTurn → s.bgTurn < j.ctx ∨ j.ctx ≤ k.ctx)) ∧
      (s.failChunk j hop status).job? n = some { j with
        chunk := none, formed := none, riding := false, asked := none, status := if j.status = 0 then status else j.status
        failedChunks := j.failedChunks ++ [j.next], next := if j.kind.collective then j.next + 1 else j.next, stopped := !j.kind.collective })

/-- R207, R333 to R336 and R338: at each hop a chunk's counter goes up; past 15, or with another sum, each source whose elements it carries sends its
own chunk again as it formed it, up to three times; a switch holds a chunk for which it has an entry (its port is log entry 23), and hands on any
other; at the destination it is tested and written, or added to the elements there. The switches on its way are counted by the pages that it is read from
and written to (log entry 101), and it goes on only when it has its tokens (R314); then its 4 µs begin (the model's reading, log entry 133), and after them it is not written to
another device any more (R330). -/
def Sys2Proof.Machine.ChunkArrival : Prop :=
  ∀ (s : State) (n flip : Nat),
    (s.job? n = none → exec (.chunkIngress n flip) s = .next s) ∧
    (∀ j, s.job? n = some j →
      (j.chunk = none → exec (.chunkIngress n flip) s = .next s) ∧
      (s.atPort (.chunk n) = true → exec (.chunkIngress n flip) s = .next s) ∧
      (s.atPort (.chunk n) = false → ∀ c, j.chunk = some c → c.since = none →
        let out := fun (c : Chunk) => { c with since := some s.time }
        exec (.chunkIngress n flip) s = exec (.chunkIngress n flip) { s with jobs := s.jobs.map fun k =>
          if k.id = n then { k with chunk := k.chunk.map out, formed := k.formed.map out } else k }) ∧
      (s.atPort (.chunk n) = false → ∀ c since, j.chunk = some c → c.since = some since →
        let far := ∃ va ∈ j.reaches j.dst, (s.farDevice j.agent va).isSome = true ∨ (s.noAnswer j.agent va).isSome = true
        let late := since.toNat + 4000 ≤ s.time.toNat ∧ far
        let size := c.width * c.count
        let bits := c.bits ^^^ flip % 2 ^ size
        let hop := c.hop + 1
        let lost := 15 < hop ∨ weltSum bits size ≠ c.w1
        (lost → exec (.chunkIngress n flip) s = .next ((j.id :: c.partners).foldl (fun t k => t.sendAgain hop k) s)) ∧
        (¬ lost → hop ≤ s.switchesOf j →
          (s.entryFor c hop = none → exec (.chunkIngress n flip) s = .next (s.setJob { j with chunk := some { c with bits := bits, hop := hop } })) ∧
          (∀ e, s.entryFor c hop = some e → ∃ port, exec (.chunkIngress n flip) s = .next ((s.setEntry { e with
            held := e.held ++ [{ port := port, chunk := { c with bits := bits, hop := hop }, job := j.id, since := s.time }] }).setJob
              { j with chunk := none }) ∧ (port = e.portP ∨ port = e.portQ))) ∧
        (¬ lost → s.switchesOf j < hop → late → exec (.chunkIngress n flip) s = .next s) ∧
        (¬ lost → s.switchesOf j < hop → ¬ late →
          let next := fun (t : State) => (j.id :: c.partners).foldl State.nextChunk t
          let fails := fun (k : Nat) => (j.id :: c.partners).foldl (fun t id => match t.job? id with | some q => t.failChunk q hop k | none => t) s
          (∀ k, s.oldElements j j.next = .error k → exec (.chunkIngress n flip) s = .next (if k = 7 ∧ s.jobSilent j (j.reaches j.dst) = true then s else fails k)) ∧
          ∀ old, s.oldElements j j.next = .ok old →
            (j.kind ≠ .collRed →
              let sums := weltSums (c.values j.sat bits)
              (c.withSums = false ∨ sumAgrees c.w2 sums.1 sums.2 c.count = true →
                exec (.chunkIngress n flip) s = .next (next (s.chunkWrite j j.next bits))) ∧
              (c.withSums = true → sumAgrees c.w2 sums.1 sums.2 c.count = false → exec (.chunkIngress n flip) s = .next (fails 2))) ∧
            (j.kind = .collRed →
              let outs := ((c.elements bits).zip old).map fun x => (elemOf c.format).combine j.sat x.1 x.2
              ((c.reduceWith j.sat bits old).2 = true →
                exec (.chunkIngress n flip) s = .next (next (s.chunkWrite j j.next (packBits j.width outs)))) ∧
              ((c.reduceWith j.sat bits old).2 = false → exec (.chunkIngress n flip) s = .next (fails 2)))))) ∧
    ∀ k hop q f, s.job? k = some q → q.formed = some f →
      (f.attempts < 3 → s.sendAgain hop k = s.setJob { q with
        chunk := some { f with attempts := f.attempts + 1 }, formed := some { f with attempts := f.attempts + 1 }, riding := false }) ∧
      (3 ≤ f.attempts → s.sendAgain hop k = s.failChunk q hop 1)

/-- R208, R209, R214 and R269: when every chunk is written or has failed, the slot of a copy into a trough is posted, the stamp is written and the
copy completes; one that ended with a status other than 0 does not post its slot (log entry 54). The engine reserves a slot in its turn; a trough that
is closed before ends the copy with status 8, and so does one that is gone with its fold (the model's choice, log entry 90). -/
def Sys2Proof.Machine.CopyEnds : Prop :=
  ∀ (s : State) (n : Nat),
    (s.job? n = none → exec (.engineTroughReserve n) s = .next s ∧ exec (.copyStampWrite n) s = .next s) ∧
    (∀ j, s.job? n = some j →
      let ended := fun (t : State) => Host.Outcome.next (ρ := Refusal) (φ := Fault)
        (State.completeJob { t.writeStamp j with jobs := (t.writeStamp j).jobs.filter fun k => k.id != j.id } j).releaseDeparted
      let closes := fun (t : State) => (t.setJob { j with stopped := true, status := 8 }).jobRecord j 0 0 8
      (s.jobDone j = false → exec (.copyStampWrite n) s = .next s) ∧
      (s.jobDone j = true → exec (.copyStampWrite n) s = ended (if j.status = 0 then s.postSlot j else s)) ∧
      (∀ pas, s.Canonical → j.stamp ≠ 0 → s.plainBytes j.agent { w := true } j.stamp 8 = .ok pas → pas.Nodup →
        (∀ p ∈ pas, p < Config.plewickBase ∧ s.Plain p) → ∀ i, i < 8 →
          (s.writeStamp j).read (pas.getD i 0) = (toBytes 8 (j.status * 2 ^ 48 + j.seq % 2 ^ 48)).getD i 0) ∧
      (∀ k, j.dst = .trough k → j.slot = none → j.stopped = false →
        (s.fold? j.fold = none → exec (.engineTroughReserve n) s = .next (closes s)) ∧
        ∀ f, s.fold? j.fold = some f → k < 8 →
          let t := f.trough (BitVec.ofNat 3 k)
          let me : Waiter := { agent := j.id, pc := 0, job := true }
          let rest := t.reserving.filter fun w => w != me
          (t.closed = true → exec (.engineTroughReserve n) s = .next (closes (s.setFold (f.setTrough (BitVec.ofNat 3 k) { t with reserving := rest })))) ∧
          (t.closed = false → (s.waiting t.reserving = [] ∨ ∃ ws, s.waiting t.reserving = me :: ws) → 0 < t.count - t.slots.length →
            exec (.engineTroughReserve n) s = .next (((s.setFold (f.setTrough (BitVec.ofNat 3 k) { t with
              head := (t.head + 1) % t.count, slots := t.slots ++ [(t.head, .reserved)], reserving := rest })).setJob
              { j with slot := some (t.base + t.head * 2 ^ t.logSize) }).jobWrites j
              ⟨t.base + t.head * 2 ^ t.logSize, imageBytes j.total j.width⟩)) ∧
          (t.closed = false → t.count - t.slots.length = 0 ∨ (∃ w ws, s.waiting t.reserving = w :: ws ∧ w ≠ me) →
            exec (.engineTroughReserve n) s = .next s)))

/-- R334, R336 and R338: a switch adds the two chunks of one identity that it holds, element by element, and forwards the sum in their place where it
passes the test, else both fail; the chunk forwarded has this switch's hop (log entry 134), and its 4 µs begin there (log entry 133); a chunk whose partner does not come in 100 µs is a transport mismatch, and so is one whose partner comes later. -/
def Sys2Proof.Machine.SwitchEvents : Prop :=
  ∀ (s : State) (n flip : Nat),
    ((s.combining.find? fun e => e.id == n) = none → exec (.switchCombine n flip) s = .next s ∧ exec (.switchCombineTimeout n) s = .next s) ∧
    ∀ e, (s.combining.find? fun e => e.id == n) = some e →
      let alone := fun (h : Held) => h.since.toNat + 100000 ≤ s.time.toNat ∧ ∀ k ∈ e.held, k.port = h.port ∨ k.chunk.identity ≠ h.chunk.identity ∨
        h.since.toNat + 100000 < k.since.toNat ∨ k.since.toNat + 100000 < h.since.toNat
      let out := fun (c : Chunk) => { c with since := some s.time }
      let clock := fun (ids : List Nat) (t : State) => ({ t with jobs := t.jobs.map fun k =>
        if (ids.contains k.id) then { k with chunk := k.chunk.map out, formed := k.formed.map out } else k } : State)
      (e.pair = none → exec (.switchCombine n flip) s = .next s) ∧
      (∀ p q, e.pair = some (p, q) →
        let r := combineChunks e.hop p.chunk q.chunk flip
        let s1 := s.setEntry { e with held := e.held.filter fun h => h != p && h != q }
        let carried := fun (j : CopyJob) (h : Held) (more : List Nat) => { j with chunk := some { r.1 with
          index := h.chunk.index, entries := h.chunk.entries, partners := h.chunk.partners ++ more } }
        let sent := fun (t : State) => Host.Outcome.next (ρ := Refusal) (φ := Fault) (clock [p.job, q.job] t)
        p.port = e.portP ∧ q.port = e.portQ ∧ p.chunk.identity = q.chunk.identity ∧
        p.since.toNat ≤ q.since.toNat + 100000 ∧ q.since.toNat ≤ p.since.toNat + 100000 ∧
        r.1.bits = packBits p.chunk.width (((p.chunk.elements p.chunk.bits).zip (q.chunk.elements q.chunk.bits)).map fun x =>
          (elemOf p.chunk.format).combine false x.1 x.2) ^^^ flip % 2 ^ (p.chunk.width * p.chunk.count) ∧
        (r.2 = false → exec (.switchCombine n flip) s = .next ((s1.switchFail p).switchFail q)) ∧
        (r.2 = true →
          (s.job? p.job = none → s.job? q.job = none → exec (.switchCombine n flip) s = sent s1) ∧
          (∀ j, s.job? p.job = some j → s.job? q.job = none → exec (.switchCombine n flip) s = sent (s1.setJob (carried j p []))) ∧
          (∀ j, s.job? p.job = none → s.job? q.job = some j → exec (.switchCombine n flip) s = sent (s1.setJob (carried j q []))) ∧
          (∀ j k, s.job? p.job = some j → s.job? q.job = some k → exec (.switchCombine n flip) s = sent
            ((s1.setJob (carried j p (k.id :: q.chunk.partners))).setJob { k with chunk := none, riding := true })))) ∧
      ((∀ h ∈ e.held, ¬ alone h) → exec (.switchCombineTimeout n) s = .next s) ∧
      (∀ l h r, e.held = l ++ h :: r → (∀ k ∈ l, ¬ alone k) → alone h →
        let s1 := s.setEntry { e with held := e.held.filter fun k => k != h }
        (s.job? h.job = none → exec (.switchCombineTimeout n) s = .next s1) ∧
        (∀ j, s.job? h.job = some j → exec (.switchCombineTimeout n) s = .next
          ((j.id :: h.chunk.partners).foldl (fun t k => t.sendAgain h.chunk.hop k) (clock (j.id :: h.chunk.partners) s1))))

/-- Chunks that are sent, chunks that arrive, the end of a copy, and combining switches, as four parts. -/
def Obligations.EngineEvents : Prop := ChunkSending ∧ ChunkArrival ∧ CopyEnds ∧ SwitchEvents

namespace Sys2Proof.Machine

/-- Encodings worked out in the spec's own tables and examples (R102, R103), with what they stand for. -/
noncomputable def workedWords : List (Enc × Instr) := [
  (.word 0x0018_2103, .vadd 2 1 3 0), (.word 0x3630_A207, .vfmac 4 5 6 3), (.word 0x0006_0413, .saddi 8 0 3), (.word 0x4004_2331, .ldB32 6 1 2 0),
  (.word 0x6580_C7B5, .ldsAcq 15 6 3), (.word 0x01FF_F02B, .wait 0 31 15 15), (.word 0xFFFF_6621, .brAny 4 (-10)),
  (.half 0x1062, .compactAdd 3 4 0), (.half 0x9062, .compactAdd 3 4 1),
  (.word 0x0000_012F, .eret), (.word 0x0000_022D, .yield), (.word 0x0005_23DB, .faultDone 4 5), (.word 0x0000_3371, .fabort 6),
  (.word 0x1000_2071, .sget 4 4), (.word 0x2004_23B3, .stB32 7 1 2 0), (.word 0x1E80_2131, .ldB8S 2 1 0 (-3))]

/-- Patterns that are no instruction, with the causes that R111 gives them. -/
noncomputable def illegalWords : List (Enc × BitVec 8) := [
  (.half 0, 0x01), (.word 0xFFFF_FFFF, 0x07), (.word 0x0000_0001, 0x02), (.word 0x9008_0049, 0x03), (.word 0x0401_00F1, 0x04)]

end Sys2Proof.Machine

/-- Words of the spec's encodings decode to the instructions that they stand for, and patterns that are none do not. -/
def Obligations.WordsDecode : Prop :=
  (∀ e ∈ workedWords, decodeEnc e.1 = .ok e.2) ∧ ∀ e ∈ illegalWords, decodeEnc e.1 = .illegal e.2

/-- R94 and R117: a write of a register that an operation under way writes leaves it undefined, now and when the operation completes: nothing is known
of the value that the register shows (a free value, log entry 2), s0 and a0 reading as 0 all the same, and no other register changes. Shown for the
integer functions of vector registers and for scalar and address arithmetic. -/
def Obligations.RegisterUnderWay : Prop :=
  ∀ (s : State),
    (∀ (d a b : BitVec 6) (g : BitVec 3), s.cur.active g ≠ 0 → s.cur.busy (Dest.isVector d) = true → s.cur.operand d = false →
      ∀ e ∈ integerOps d a b g, ∃ t, exec e.1 s = .next t ∧ (∀ i, t.cur.lane d i = Config.freeWord (s.free + i.val)) ∧ t.free = s.free + 32 ∧
        (∀ r, r ≠ d → t.cur.getV r = s.cur.getV r) ∧ SameMemory s t ∧
        (∀ o ∈ t.cur.pend, o.done = false → ∀ x ∈ o.dests, Dest.isVector d x = true → ∃ r old new, x = .vector r old new true) ∧
        t = { s with free := t.free, cur := { s.cur.advance 4 with v := t.cur.v, pend := t.cur.pend } }) ∧
    (∀ (d a b : BitVec 5) (i : BitVec 15), s.cur.busy (Dest.isScalar d) = true →
      ∀ e ∈ (scalarOps d a b).map (fun e => e.1) ++ [.saddi d a i, .sins d a i], ∃ t, exec e s = .next t ∧
        t.cur.getS d = (if d = 0 then 0 else Config.freeDWord s.free) ∧ (∀ r, r ≠ d → t.cur.getS r = s.cur.getS r) ∧
        (∀ o ∈ t.cur.pend, o.done = false → ∀ x ∈ o.dests, Dest.isScalar d x = true → ∃ r old new, x = .scalar r old new true) ∧
        t = { s with free := s.free + 1, cur := { s.cur.advance 4 with s := t.cur.s, pend := t.cur.pend } }) ∧
    ∀ (d a : BitVec 4) (x : BitVec 5), s.cur.busy (Dest.isAddress d) = true →
      ∀ e ∈ [Instr.aadd d a x, .asub d a x, .amov d a, .aset d x, .ahi d a x], ∃ t, exec e s = .next t ∧
        t.cur.getA d = (if d = 0 then 0 else Config.freeAddr s.free) ∧ (∀ r, r ≠ d → t.cur.getA r = s.cur.getA r) ∧
        (∀ o ∈ t.cur.pend, o.done = false → ∀ y ∈ o.dests, Dest.isAddress d y = true → ∃ r old new, y = .address r old new true) ∧
        t = { s with free := s.free + 1, cur := { s.cur.advance 4 with a := t.cur.a, pend := t.cur.pend } }

/-- R29, R93, R231, R260, R282, R305, R309, R364 and R366: what a cold reset leaves: nothing runs but four privileged, secure supervisor flocks,
nothing is sealed, memory is in canonical form and lists nothing (log entry 3), every queue is empty, and counters and the time base are 0 (log entry
4); the flocks stand at address 0, which stands for the entry of the boot image (log entry 5). -/
def Obligations.ResetState : Prop :=
  let s := State.reset
  s.Canonical ∧ s.mem = [] ∧ s.remote = [] ∧ s.clean = [] ∧ s.dirty = [] ∧ s.inFlight = [] ∧ s.departed = [] ∧ s.broken = [] ∧ s.tlb = [] ∧ s.code = [] ∧ s.tags = [] ∧
  s.folds = [] ∧ s.launches = [] ∧ s.dispatch = [] ∧ s.jobs = [] ∧ s.commands = [] ∧ s.contexts = [] ∧ s.saved = [] ∧ s.parked = [] ∧
  s.snapshots = [] ∧ s.combining = [] ∧ s.peers = [] ∧ s.acks = [] ∧ s.banks = [] ∧ s.cores = [] ∧ s.clusters = [] ∧ s.agenda = [] ∧
  s.setup = ({} : Setup) ∧ s.plewick.sealed = false ∧ s.plewick.sealing = false ∧ s.plewick.request = none ∧ s.plewick.marker = none ∧
  s.plewick.status = 0 ∧ s.plewick.m[0] = Config.firmwareHash ∧ s.plewick.m[2] = 0 ∧ s.plewick.m[3] = 0 ∧
  s.time = 0 ∧ s.slew = 0 ∧ s.slewCarry = 0 ∧ s.slot = 0 ∧ s.overhead = 0 ∧ s.stopped = false ∧ s.allFlocks.length = 4 ∧
  (∀ f ∈ s.allFlocks, f.privileged = true ∧ f.secure = true ∧ f.em = 0xFFFFFFFF ∧ f.fcr = 0 ∧ f.pc = 0 ∧ f.pend = [] ∧ f.routine = .none ∧
    f.status = .running ∧ f.deferred = [] ∧ f.buf = [] ∧ f.draw = 0 ∧ f.est = ({} : Estimate) ∧
    (∀ q, f.getQ q = ({} : Queue)) ∧ (∀ l, (f.getLoop l).armed = false) ∧ ∀ r, f.getS r = 0) ∧
  s.allFlocks.map (fun f => f.core) = [256, 257, 258, 259]

/-- R286 to R289: a page fault of a flock that is in no routine in which a trap ends its launch parks its fold where the launch is restartable, and else stalls the flock. The park
list gets an entry in its lowest free slot, with the fault's address and cause, and then its count; a full list ends the launch with status 0x14
(R288). A fold that is parked ends with its flocks, its buffer and its deposits; a flock that stalls stays at its instruction, with nothing of it
changed. A supervisor takes the fault as a trap instead (R286). A fold whose launch is closing is not parked (the model's reading, log entry
43). -/
def Obligations.PageFaults : Prop :=
  (∀ (s u : State) (ctx kind k : Nat) (installed : Bool) (gen : DWord) (address header : Addr) (visit : Nat) (cause : DWord) (fieldNo block : Nat),
    s.parkAdd ctx kind installed gen address header visit cause fieldNo block = some (u, k) →
    s.slotKind ctx k = some 0 ∧ (∀ j, j < k → ∃ b, s.slotKind ctx j = some b ∧ b ≠ 0) ∧ OnlyMemory s u ∧
    ∃ used capacity rest, s.parkHeader ctx = some (used, capacity, rest) ∧ k < capacity ∧
      u = (s.unitWrite ctx (s.parkEntry ctx k) (toBytes 1 kind ++ toBytes 1 (if installed then 1 else 0) ++ toBytes 6 0 ++ toBytes 8 gen.toNat ++
        toBytes 16 address.toNat ++ toBytes 16 header.toNat ++ toBytes 8 visit ++ toBytes 4 cause.toNat ++ toBytes 2 fieldNo ++
        toBytes 2 block)).unitWrite ctx (s.ctx ctx).parkb (toBytes 8 (used + 1))) ∧
  ∀ (s : State) (f : TrapInfo), f.isPageFault = true → s.cur.routine.fatal = false →
    let t := s.takeTrap f s.cur.pc
    let gen := (s.ctx s.cur.ctx).fgen
    (s.cur.supervises = true → (s.ctx s.cur.ctx).tvec ≠ 0 → Entered s t .trap (s.ctx s.cur.ctx).tvec s.cur.pc f.cause f.addr) ∧
    (s.cur.supervises = false → ∀ l, s.launch? s.fold.launch = some l →
      (l.hdr.restart = false →
        let r := s.parkAdd s.cur.ctx 2 false gen f.addr l.header s.fold.visit f.cause s.cur.field 0
        (r = none → EndsLaunch s t l.id 0x14) ∧
        ∀ u k, r = some (u, k) → t.cur = { s.cur with monitor := t.cur.monitor, status := .stalled gen } ∧ t.parked = s.parked ++ [{
          ctx := s.cur.ctx, slot := k, launch := l.id, visit := s.fold.visit, index := s.fold.index, flock := some s.cur.id, generation := gen
          installed := false, cluster := none }] ∧ t = { u with cur := t.cur, parked := t.parked }) ∧
      (l.hdr.restart = true → s.fold.ctx = s.cur.ctx → s.cur.fold = s.fold.id → s.fold.id ≠ 0 → (s.ctx s.cur.ctx).preempting = none →
        let g := s.removeFold s.fold
        let r := g.parkAdd s.cur.ctx 1 false gen f.addr l.header s.fold.visit f.cause 0 0
        (∀ k ∈ g.allFlocks, k.fold ≠ s.fold.id) ∧ (∀ k ∈ g.allFolds, k.id ≠ s.fold.id) ∧ g.cur.status = .ended ∧ g.cur.buf = [] ∧
        (l.closing ≠ none → t = g) ∧
        (l.closing = none → r = none → EndsLaunch g t s.fold.launch 0x14) ∧
        ∀ u k, l.closing = none → r = some (u, k) → t = { u with parked := u.parked ++ [{
          ctx := s.cur.ctx, slot := k, launch := s.fold.launch, visit := s.fold.visit, index := s.fold.index, flock := none, generation := gen
          installed := false, cluster := if l.hdr.gangSize = 0 then none else some (s.fold.core / 8), core := s.fold.core }] }))
end

