-- ==== Sys2Proof/Laws/Mem.lean ====
section
/-!
SUPPORT. Memory: every operation keeps the canonical form, and a byte reads as it was last written.
-/
namespace Sys2Proof.Machine

theorem Mem.wfFrom_some {l : Nat} {m : Mem} (h : Mem.wfFrom (some l) m = true) : Mem.wfFrom none m = true := by
  cases m with
  | nil => rfl
  | cons c t => simp_all [Mem.wfFrom]

theorem Mem.wfFrom_lower {l k : Nat} {m : Mem} (hlk : l ≤ k) (h : Mem.wfFrom (some k) m = true) : Mem.wfFrom (some l) m = true := by
  cases m with
  | nil => rfl
  | cons c t =>
    simp only [Mem.wfFrom, Bool.and_eq_true, decide_eq_true_eq] at h ⊢
    exact ⟨⟨by omega, h.1.2⟩, h.2⟩

/-- Cells above a bound stay above it when a byte above it is written. -/
theorem Mem.write_wfFrom (a : Nat) (b : Byte) (m : Mem) (lo : Option Nat) (hlo : ∀ l, lo = some l → l < a)
    (h : Mem.wfFrom lo m = true) : Mem.wfFrom lo (m.write a b) = true := by
  induction m generalizing lo with
  | nil =>
    unfold Mem.write
    split
    · rfl
    · cases lo with
      | none => simp_all [Mem.wfFrom]
      | some l => simp_all [Mem.wfFrom]
  | cons c t ih =>
    obtain ⟨k, x⟩ := c
    unfold Mem.write
    simp only [Mem.wfFrom, Bool.and_eq_true] at h
    split
    · simp only [Mem.wfFrom, Bool.and_eq_true]
      exact ⟨h.1, ih (some k) (by rintro l ⟨⟩; assumption) h.2⟩
    · split
      · split
        · cases lo with
          | none => exact Mem.wfFrom_some h.2
          | some l =>
            have := hlo l rfl
            exact Mem.wfFrom_lower (by omega) h.2
        · subst_vars
          simp_all [Mem.wfFrom]
      · split
        · simp_all [Mem.wfFrom]
        · have hk : a < k := by omega
          cases lo with
          | none => simp_all [Mem.wfFrom]
          | some l => have := hlo l rfl; simp_all [Mem.wfFrom]

/-- Writing a byte keeps the canonical form. -/
theorem Mem.write_wf (m : Mem) (a : Nat) (b : Byte) (h : m.wf = true) : (m.write a b).wf = true :=
  Mem.write_wfFrom a b m none (by rintro l ⟨⟩) h

/-- Writing bytes keeps the canonical form. -/
theorem Mem.writeAll_wf (m : Mem) (ws : List (Nat × Byte)) (h : m.wf = true) : (m.writeAll ws).wf = true := by
  induction ws generalizing m with
  | nil => exact h
  | cons w ws ih => exact ih (m.write w.1 w.2) (Mem.write_wf m w.1 w.2 h)

@[simp] theorem Mem.writeAll_nil (m : Mem) : m.writeAll [] = m := rfl
@[simp] theorem Mem.read_nil (a : Nat) : Mem.read [] a = 0 := rfl

theorem Mem.read_cons (k : Nat) (x : Byte) (t : Mem) (a : Nat) :
    Mem.read ((k, x) :: t) a = if k = a then x else Mem.read t a := by
  unfold Mem.read lookup
  simp only [List.find?_cons]
  by_cases h : k = a
  · simp [h]
  · simp [h, beq_eq_false_iff_ne.mpr h]

/-- Below every cell memory reads zero. -/
theorem Mem.read_below {l a : Nat} {m : Mem} (h : Mem.wfFrom (some l) m = true) (ha : a ≤ l) : m.read a = 0 := by
  induction m generalizing l with
  | nil => rfl
  | cons c t ih =>
    obtain ⟨k, x⟩ := c
    simp only [Mem.wfFrom, Bool.and_eq_true, decide_eq_true_eq] at h
    rw [Mem.read_cons, if_neg (by omega)]
    exact ih h.2 (by omega)

/-- A byte reads as written, and every other byte as before. -/
theorem Mem.read_write (m : Mem) (a c : Nat) (b : Byte) (h : m.wf = true) :
    (m.write a b).read c = if c = a then b else m.read c := by
  unfold Mem.wf at h
  induction m with
  | nil =>
    unfold Mem.write
    split
    · simp_all [Mem.read_nil]
    · rw [Mem.read_cons]
      by_cases hc : c = a
      · simp [hc]
      · rw [if_neg (Ne.symm hc), if_neg hc]
  | cons e t ih =>
    obtain ⟨k, x⟩ := e
    simp only [Mem.wfFrom, Bool.true_and, Bool.and_eq_true] at h
    have ht := ih (Mem.wfFrom_some h.2)
    unfold Mem.write
    split
    · rw [Mem.read_cons, ht, Mem.read_cons]
      by_cases hk : k = c
      · subst hk; rw [if_pos rfl, if_pos rfl, if_neg (by omega)]
      · simp [hk]
    · split
      · subst_vars
        split
        · rw [Mem.read_cons]
          by_cases hc : c = k
          · subst hc; rw [if_pos rfl, Mem.read_below h.2 (Nat.le_refl _)]; simp_all
          · rw [if_neg hc, if_neg (Ne.symm hc)]
        · rw [Mem.read_cons, Mem.read_cons]
          by_cases hc : c = k
          · simp [hc]
          · rw [if_neg (Ne.symm hc), if_neg hc, if_neg (Ne.symm hc)]
      · have hk : a < k := by omega
        split
        · by_cases hc : c = a
          · subst hc
            rw [if_pos rfl, Mem.read_cons, if_neg (by omega), Mem.read_below h.2 (by omega)]
            simp_all
          · rw [if_neg hc]
        · rw [Mem.read_cons]
          by_cases hc : c = a
          · simp [hc]
          · rw [if_neg (Ne.symm hc), if_neg hc]

/-- A byte that no write of a list names reads as before. -/
theorem Mem.read_writeAll_other (m : Mem) (ws : List (Nat × Byte)) (c : Nat) (h : m.wf = true) (hc : ∀ w ∈ ws, w.1 ≠ c) :
    (m.writeAll ws).read c = m.read c := by
  induction ws generalizing m with
  | nil => rfl
  | cons w ws ih =>
    have h1 := ih (m.write w.1 w.2) (Mem.write_wf m _ _ h) (fun x hx => hc x (List.mem_cons_of_mem _ hx))
    have h2 := hc w (List.mem_cons_self ..)
    simp only [Mem.writeAll, List.foldl_cons] at h1 ⊢
    rw [h1, Mem.read_write m _ _ _ h, if_neg (Ne.symm h2)]

/-- Two canonical memories that read alike are one memory. -/
theorem Mem.ext {m n : Mem} (hm : m.wf = true) (hn : n.wf = true) (h : ∀ a, m.read a = n.read a) : m = n := by
  unfold Mem.wf at hm hn
  induction m generalizing n with
  | nil =>
    cases n with
    | nil => rfl
    | cons c t =>
      obtain ⟨k, x⟩ := c
      have hk := h k
      rw [Mem.read_nil, Mem.read_cons, if_pos rfl] at hk
      simp [Mem.wfFrom, ← hk] at hn
  | cons c t ih =>
    obtain ⟨k, x⟩ := c
    simp only [Mem.wfFrom, Bool.true_and, Bool.and_eq_true] at hm
    cases n with
    | nil =>
      have hk := h k
      rw [Mem.read_nil, Mem.read_cons, if_pos rfl] at hk
      simp_all
    | cons e u =>
      obtain ⟨j, y⟩ := e
      simp only [Mem.wfFrom, Bool.true_and, Bool.and_eq_true] at hn
      have hx : x ≠ 0 := by simpa using hm.1
      have hy : y ≠ 0 := by simpa using hn.1
      have hkj : k = j := by
        rcases Nat.lt_trichotomy k j with hl | he | hg
        · have hk := h k
          rw [Mem.read_cons, if_pos rfl, Mem.read_cons, if_neg (by omega), Mem.read_below hn.2 (by omega)] at hk
          exact absurd hk hx
        · exact he
        · have hj := h j
          rw [Mem.read_cons, if_neg (by omega), Mem.read_cons, if_pos rfl, Mem.read_below hm.2 (by omega)] at hj
          exact absurd hj.symm hy
      subst hkj
      have hxy : x = y := by simpa [Mem.read_cons] using h k
      subst hxy
      rw [ih (Mem.wfFrom_some hm.2) (Mem.wfFrom_some hn.2) (fun a => ?_)]
      by_cases ha : a ≤ k
      · rw [Mem.read_below hm.2 ha, Mem.read_below hn.2 ha]
      · have := h a
        rwa [Mem.read_cons, Mem.read_cons, if_neg (by omega), if_neg (by omega)] at this

end Sys2Proof.Machine
end

