-- ==== Sys2Proof/Laws/State.lean ====
section
/-!
SUPPORT. The named updates of the state and of a flock, field by field: what each leaves as it was, true by definition.
-/
namespace Sys2Proof.Machine

@[simp] theorem State.setCtx_cur (s : State) (n : Nat) (c : Context) : (s.setCtx n c).cur = s.cur := rfl
@[simp] theorem State.setCtx_fold (s : State) (n : Nat) (c : Context) : (s.setCtx n c).fold = s.fold := rfl
@[simp] theorem State.setCtx_flocks (s : State) (n : Nat) (c : Context) : (s.setCtx n c).flocks = s.flocks := rfl
@[simp] theorem State.setCtx_folds (s : State) (n : Nat) (c : Context) : (s.setCtx n c).folds = s.folds := rfl
@[simp] theorem State.setCtx_departed (s : State) (n : Nat) (c : Context) : (s.setCtx n c).departed = s.departed := rfl
@[simp] theorem State.setCtx_mem (s : State) (n : Nat) (c : Context) : (s.setCtx n c).mem = s.mem := rfl
@[simp] theorem State.setCtx_remote (s : State) (n : Nat) (c : Context) : (s.setCtx n c).remote = s.remote := rfl
@[simp] theorem State.setCtx_clean (s : State) (n : Nat) (c : Context) : (s.setCtx n c).clean = s.clean := rfl
@[simp] theorem State.setCtx_dirty (s : State) (n : Nat) (c : Context) : (s.setCtx n c).dirty = s.dirty := rfl
@[simp] theorem State.setCtx_used (s : State) (n : Nat) (c : Context) : (s.setCtx n c).used = s.used := rfl
@[simp] theorem State.setCtx_inFlight (s : State) (n : Nat) (c : Context) : (s.setCtx n c).inFlight = s.inFlight := rfl
@[simp] theorem State.setCtx_broken (s : State) (n : Nat) (c : Context) : (s.setCtx n c).broken = s.broken := rfl
@[simp] theorem State.setCtx_tlb (s : State) (n : Nat) (c : Context) : (s.setCtx n c).tlb = s.tlb := rfl
@[simp] theorem State.setCtx_code (s : State) (n : Nat) (c : Context) : (s.setCtx n c).code = s.code := rfl
@[simp] theorem State.setCtx_tags (s : State) (n : Nat) (c : Context) : (s.setCtx n c).tags = s.tags := rfl
@[simp] theorem State.setCtx_launches (s : State) (n : Nat) (c : Context) : (s.setCtx n c).launches = s.launches := rfl
@[simp] theorem State.setCtx_dispatch (s : State) (n : Nat) (c : Context) : (s.setCtx n c).dispatch = s.dispatch := rfl
@[simp] theorem State.setCtx_jobs (s : State) (n : Nat) (c : Context) : (s.setCtx n c).jobs = s.jobs := rfl
@[simp] theorem State.setCtx_bgTurn (s : State) (n : Nat) (c : Context) : (s.setCtx n c).bgTurn = s.bgTurn := rfl
@[simp] theorem State.setCtx_commands (s : State) (n : Nat) (c : Context) : (s.setCtx n c).commands = s.commands := rfl
@[simp] theorem State.setCtx_saved (s : State) (n : Nat) (c : Context) : (s.setCtx n c).saved = s.saved := rfl
@[simp] theorem State.setCtx_parked (s : State) (n : Nat) (c : Context) : (s.setCtx n c).parked = s.parked := rfl
@[simp] theorem State.setCtx_snapshots (s : State) (n : Nat) (c : Context) : (s.setCtx n c).snapshots = s.snapshots := rfl
@[simp] theorem State.setCtx_combining (s : State) (n : Nat) (c : Context) : (s.setCtx n c).combining = s.combining := rfl
@[simp] theorem State.setCtx_peers (s : State) (n : Nat) (c : Context) : (s.setCtx n c).peers = s.peers := rfl
@[simp] theorem State.setCtx_acks (s : State) (n : Nat) (c : Context) : (s.setCtx n c).acks = s.acks := rfl
@[simp] theorem State.setCtx_banks (s : State) (n : Nat) (c : Context) : (s.setCtx n c).banks = s.banks := rfl
@[simp] theorem State.setCtx_cores (s : State) (n : Nat) (c : Context) : (s.setCtx n c).cores = s.cores := rfl
@[simp] theorem State.setCtx_clusters (s : State) (n : Nat) (c : Context) : (s.setCtx n c).clusters = s.clusters := rfl
@[simp] theorem State.setCtx_plewick (s : State) (n : Nat) (c : Context) : (s.setCtx n c).plewick = s.plewick := rfl
@[simp] theorem State.setCtx_setup (s : State) (n : Nat) (c : Context) : (s.setCtx n c).setup = s.setup := rfl
@[simp] theorem State.setCtx_time (s : State) (n : Nat) (c : Context) : (s.setCtx n c).time = s.time := rfl
@[simp] theorem State.setCtx_slew (s : State) (n : Nat) (c : Context) : (s.setCtx n c).slew = s.slew := rfl
@[simp] theorem State.setCtx_slewCarry (s : State) (n : Nat) (c : Context) : (s.setCtx n c).slewCarry = s.slewCarry := rfl
@[simp] theorem State.setCtx_slot (s : State) (n : Nat) (c : Context) : (s.setCtx n c).slot = s.slot := rfl
@[simp] theorem State.setCtx_stopped (s : State) (n : Nat) (c : Context) : (s.setCtx n c).stopped = s.stopped := rfl
@[simp] theorem State.setCtx_overhead (s : State) (n : Nat) (c : Context) : (s.setCtx n c).overhead = s.overhead := rfl
@[simp] theorem State.setCtx_agenda (s : State) (n : Nat) (c : Context) : (s.setCtx n c).agenda = s.agenda := rfl
@[simp] theorem State.setCtx_beat (s : State) (n : Nat) (c : Context) : (s.setCtx n c).beat = s.beat := rfl
@[simp] theorem State.setCtx_round (s : State) (n : Nat) (c : Context) : (s.setCtx n c).round = s.round := rfl
@[simp] theorem State.setCtx_free (s : State) (n : Nat) (c : Context) : (s.setCtx n c).free = s.free := rfl
@[simp] theorem State.setCtx_nextId (s : State) (n : Nat) (c : Context) : (s.setCtx n c).nextId = s.nextId := rfl

@[simp] theorem State.setCore_cur (s : State) (n : Nat) (c : CoreInfo) : (s.setCore n c).cur = s.cur := rfl
@[simp] theorem State.setCore_fold (s : State) (n : Nat) (c : CoreInfo) : (s.setCore n c).fold = s.fold := rfl
@[simp] theorem State.setCore_flocks (s : State) (n : Nat) (c : CoreInfo) : (s.setCore n c).flocks = s.flocks := rfl
@[simp] theorem State.setCore_folds (s : State) (n : Nat) (c : CoreInfo) : (s.setCore n c).folds = s.folds := rfl
@[simp] theorem State.setCore_departed (s : State) (n : Nat) (c : CoreInfo) : (s.setCore n c).departed = s.departed := rfl
@[simp] theorem State.setCore_mem (s : State) (n : Nat) (c : CoreInfo) : (s.setCore n c).mem = s.mem := rfl
@[simp] theorem State.setCore_remote (s : State) (n : Nat) (c : CoreInfo) : (s.setCore n c).remote = s.remote := rfl
@[simp] theorem State.setCore_clean (s : State) (n : Nat) (c : CoreInfo) : (s.setCore n c).clean = s.clean := rfl
@[simp] theorem State.setCore_dirty (s : State) (n : Nat) (c : CoreInfo) : (s.setCore n c).dirty = s.dirty := rfl
@[simp] theorem State.setCore_used (s : State) (n : Nat) (c : CoreInfo) : (s.setCore n c).used = s.used := rfl
@[simp] theorem State.setCore_inFlight (s : State) (n : Nat) (c : CoreInfo) : (s.setCore n c).inFlight = s.inFlight := rfl
@[simp] theorem State.setCore_broken (s : State) (n : Nat) (c : CoreInfo) : (s.setCore n c).broken = s.broken := rfl
@[simp] theorem State.setCore_tlb (s : State) (n : Nat) (c : CoreInfo) : (s.setCore n c).tlb = s.tlb := rfl
@[simp] theorem State.setCore_code (s : State) (n : Nat) (c : CoreInfo) : (s.setCore n c).code = s.code := rfl
@[simp] theorem State.setCore_tags (s : State) (n : Nat) (c : CoreInfo) : (s.setCore n c).tags = s.tags := rfl
@[simp] theorem State.setCore_contexts (s : State) (n : Nat) (c : CoreInfo) : (s.setCore n c).contexts = s.contexts := rfl
@[simp] theorem State.setCore_launches (s : State) (n : Nat) (c : CoreInfo) : (s.setCore n c).launches = s.launches := rfl
@[simp] theorem State.setCore_dispatch (s : State) (n : Nat) (c : CoreInfo) : (s.setCore n c).dispatch = s.dispatch := rfl
@[simp] theorem State.setCore_jobs (s : State) (n : Nat) (c : CoreInfo) : (s.setCore n c).jobs = s.jobs := rfl
@[simp] theorem State.setCore_bgTurn (s : State) (n : Nat) (c : CoreInfo) : (s.setCore n c).bgTurn = s.bgTurn := rfl
@[simp] theorem State.setCore_commands (s : State) (n : Nat) (c : CoreInfo) : (s.setCore n c).commands = s.commands := rfl
@[simp] theorem State.setCore_saved (s : State) (n : Nat) (c : CoreInfo) : (s.setCore n c).saved = s.saved := rfl
@[simp] theorem State.setCore_parked (s : State) (n : Nat) (c : CoreInfo) : (s.setCore n c).parked = s.parked := rfl
@[simp] theorem State.setCore_snapshots (s : State) (n : Nat) (c : CoreInfo) : (s.setCore n c).snapshots = s.snapshots := rfl
@[simp] theorem State.setCore_combining (s : State) (n : Nat) (c : CoreInfo) : (s.setCore n c).combining = s.combining := rfl
@[simp] theorem State.setCore_peers (s : State) (n : Nat) (c : CoreInfo) : (s.setCore n c).peers = s.peers := rfl
@[simp] theorem State.setCore_acks (s : State) (n : Nat) (c : CoreInfo) : (s.setCore n c).acks = s.acks := rfl
@[simp] theorem State.setCore_banks (s : State) (n : Nat) (c : CoreInfo) : (s.setCore n c).banks = s.banks := rfl
@[simp] theorem State.setCore_clusters (s : State) (n : Nat) (c : CoreInfo) : (s.setCore n c).clusters = s.clusters := rfl
@[simp] theorem State.setCore_plewick (s : State) (n : Nat) (c : CoreInfo) : (s.setCore n c).plewick = s.plewick := rfl
@[simp] theorem State.setCore_setup (s : State) (n : Nat) (c : CoreInfo) : (s.setCore n c).setup = s.setup := rfl
@[simp] theorem State.setCore_time (s : State) (n : Nat) (c : CoreInfo) : (s.setCore n c).time = s.time := rfl
@[simp] theorem State.setCore_slew (s : State) (n : Nat) (c : CoreInfo) : (s.setCore n c).slew = s.slew := rfl
@[simp] theorem State.setCore_slewCarry (s : State) (n : Nat) (c : CoreInfo) : (s.setCore n c).slewCarry = s.slewCarry := rfl
@[simp] theorem State.setCore_slot (s : State) (n : Nat) (c : CoreInfo) : (s.setCore n c).slot = s.slot := rfl
@[simp] theorem State.setCore_stopped (s : State) (n : Nat) (c : CoreInfo) : (s.setCore n c).stopped = s.stopped := rfl
@[simp] theorem State.setCore_overhead (s : State) (n : Nat) (c : CoreInfo) : (s.setCore n c).overhead = s.overhead := rfl
@[simp] theorem State.setCore_agenda (s : State) (n : Nat) (c : CoreInfo) : (s.setCore n c).agenda = s.agenda := rfl
@[simp] theorem State.setCore_beat (s : State) (n : Nat) (c : CoreInfo) : (s.setCore n c).beat = s.beat := rfl
@[simp] theorem State.setCore_round (s : State) (n : Nat) (c : CoreInfo) : (s.setCore n c).round = s.round := rfl
@[simp] theorem State.setCore_free (s : State) (n : Nat) (c : CoreInfo) : (s.setCore n c).free = s.free := rfl
@[simp] theorem State.setCore_nextId (s : State) (n : Nat) (c : CoreInfo) : (s.setCore n c).nextId = s.nextId := rfl

@[simp] theorem State.setCluster_cur (s : State) (n : Nat) (c : Cluster) : (s.setCluster n c).cur = s.cur := rfl
@[simp] theorem State.setCluster_fold (s : State) (n : Nat) (c : Cluster) : (s.setCluster n c).fold = s.fold := rfl
@[simp] theorem State.setCluster_flocks (s : State) (n : Nat) (c : Cluster) : (s.setCluster n c).flocks = s.flocks := rfl
@[simp] theorem State.setCluster_folds (s : State) (n : Nat) (c : Cluster) : (s.setCluster n c).folds = s.folds := rfl
@[simp] theorem State.setCluster_departed (s : State) (n : Nat) (c : Cluster) : (s.setCluster n c).departed = s.departed := rfl
@[simp] theorem State.setCluster_mem (s : State) (n : Nat) (c : Cluster) : (s.setCluster n c).mem = s.mem := rfl
@[simp] theorem State.setCluster_remote (s : State) (n : Nat) (c : Cluster) : (s.setCluster n c).remote = s.remote := rfl
@[simp] theorem State.setCluster_clean (s : State) (n : Nat) (c : Cluster) : (s.setCluster n c).clean = s.clean := rfl
@[simp] theorem State.setCluster_dirty (s : State) (n : Nat) (c : Cluster) : (s.setCluster n c).dirty = s.dirty := rfl
@[simp] theorem State.setCluster_used (s : State) (n : Nat) (c : Cluster) : (s.setCluster n c).used = s.used := rfl
@[simp] theorem State.setCluster_inFlight (s : State) (n : Nat) (c : Cluster) : (s.setCluster n c).inFlight = s.inFlight := rfl
@[simp] theorem State.setCluster_broken (s : State) (n : Nat) (c : Cluster) : (s.setCluster n c).broken = s.broken := rfl
@[simp] theorem State.setCluster_tlb (s : State) (n : Nat) (c : Cluster) : (s.setCluster n c).tlb = s.tlb := rfl
@[simp] theorem State.setCluster_code (s : State) (n : Nat) (c : Cluster) : (s.setCluster n c).code = s.code := rfl
@[simp] theorem State.setCluster_tags (s : State) (n : Nat) (c : Cluster) : (s.setCluster n c).tags = s.tags := rfl
@[simp] theorem State.setCluster_contexts (s : State) (n : Nat) (c : Cluster) : (s.setCluster n c).contexts = s.contexts := rfl
@[simp] theorem State.setCluster_launches (s : State) (n : Nat) (c : Cluster) : (s.setCluster n c).launches = s.launches := rfl
@[simp] theorem State.setCluster_dispatch (s : State) (n : Nat) (c : Cluster) : (s.setCluster n c).dispatch = s.dispatch := rfl
@[simp] theorem State.setCluster_jobs (s : State) (n : Nat) (c : Cluster) : (s.setCluster n c).jobs = s.jobs := rfl
@[simp] theorem State.setCluster_bgTurn (s : State) (n : Nat) (c : Cluster) : (s.setCluster n c).bgTurn = s.bgTurn := rfl
@[simp] theorem State.setCluster_commands (s : State) (n : Nat) (c : Cluster) : (s.setCluster n c).commands = s.commands := rfl
@[simp] theorem State.setCluster_saved (s : State) (n : Nat) (c : Cluster) : (s.setCluster n c).saved = s.saved := rfl
@[simp] theorem State.setCluster_parked (s : State) (n : Nat) (c : Cluster) : (s.setCluster n c).parked = s.parked := rfl
@[simp] theorem State.setCluster_snapshots (s : State) (n : Nat) (c : Cluster) : (s.setCluster n c).snapshots = s.snapshots := rfl
@[simp] theorem State.setCluster_combining (s : State) (n : Nat) (c : Cluster) : (s.setCluster n c).combining = s.combining := rfl
@[simp] theorem State.setCluster_peers (s : State) (n : Nat) (c : Cluster) : (s.setCluster n c).peers = s.peers := rfl
@[simp] theorem State.setCluster_acks (s : State) (n : Nat) (c : Cluster) : (s.setCluster n c).acks = s.acks := rfl
@[simp] theorem State.setCluster_banks (s : State) (n : Nat) (c : Cluster) : (s.setCluster n c).banks = s.banks := rfl
@[simp] theorem State.setCluster_cores (s : State) (n : Nat) (c : Cluster) : (s.setCluster n c).cores = s.cores := rfl
@[simp] theorem State.setCluster_plewick (s : State) (n : Nat) (c : Cluster) : (s.setCluster n c).plewick = s.plewick := rfl
@[simp] theorem State.setCluster_setup (s : State) (n : Nat) (c : Cluster) : (s.setCluster n c).setup = s.setup := rfl
@[simp] theorem State.setCluster_time (s : State) (n : Nat) (c : Cluster) : (s.setCluster n c).time = s.time := rfl
@[simp] theorem State.setCluster_slew (s : State) (n : Nat) (c : Cluster) : (s.setCluster n c).slew = s.slew := rfl
@[simp] theorem State.setCluster_slewCarry (s : State) (n : Nat) (c : Cluster) : (s.setCluster n c).slewCarry = s.slewCarry := rfl
@[simp] theorem State.setCluster_slot (s : State) (n : Nat) (c : Cluster) : (s.setCluster n c).slot = s.slot := rfl
@[simp] theorem State.setCluster_stopped (s : State) (n : Nat) (c : Cluster) : (s.setCluster n c).stopped = s.stopped := rfl
@[simp] theorem State.setCluster_overhead (s : State) (n : Nat) (c : Cluster) : (s.setCluster n c).overhead = s.overhead := rfl
@[simp] theorem State.setCluster_agenda (s : State) (n : Nat) (c : Cluster) : (s.setCluster n c).agenda = s.agenda := rfl
@[simp] theorem State.setCluster_beat (s : State) (n : Nat) (c : Cluster) : (s.setCluster n c).beat = s.beat := rfl
@[simp] theorem State.setCluster_round (s : State) (n : Nat) (c : Cluster) : (s.setCluster n c).round = s.round := rfl
@[simp] theorem State.setCluster_free (s : State) (n : Nat) (c : Cluster) : (s.setCluster n c).free = s.free := rfl
@[simp] theorem State.setCluster_nextId (s : State) (n : Nat) (c : Cluster) : (s.setCluster n c).nextId = s.nextId := rfl

@[simp] theorem State.setBank_cur (s : State) (n : Nat) (b : Bank) : (s.setBank n b).cur = s.cur := rfl
@[simp] theorem State.setBank_fold (s : State) (n : Nat) (b : Bank) : (s.setBank n b).fold = s.fold := rfl
@[simp] theorem State.setBank_flocks (s : State) (n : Nat) (b : Bank) : (s.setBank n b).flocks = s.flocks := rfl
@[simp] theorem State.setBank_folds (s : State) (n : Nat) (b : Bank) : (s.setBank n b).folds = s.folds := rfl
@[simp] theorem State.setBank_departed (s : State) (n : Nat) (b : Bank) : (s.setBank n b).departed = s.departed := rfl
@[simp] theorem State.setBank_mem (s : State) (n : Nat) (b : Bank) : (s.setBank n b).mem = s.mem := rfl
@[simp] theorem State.setBank_remote (s : State) (n : Nat) (b : Bank) : (s.setBank n b).remote = s.remote := rfl
@[simp] theorem State.setBank_clean (s : State) (n : Nat) (b : Bank) : (s.setBank n b).clean = s.clean := rfl
@[simp] theorem State.setBank_dirty (s : State) (n : Nat) (b : Bank) : (s.setBank n b).dirty = s.dirty := rfl
@[simp] theorem State.setBank_used (s : State) (n : Nat) (b : Bank) : (s.setBank n b).used = s.used := rfl
@[simp] theorem State.setBank_inFlight (s : State) (n : Nat) (b : Bank) : (s.setBank n b).inFlight = s.inFlight := rfl
@[simp] theorem State.setBank_broken (s : State) (n : Nat) (b : Bank) : (s.setBank n b).broken = s.broken := rfl
@[simp] theorem State.setBank_tlb (s : State) (n : Nat) (b : Bank) : (s.setBank n b).tlb = s.tlb := rfl
@[simp] theorem State.setBank_code (s : State) (n : Nat) (b : Bank) : (s.setBank n b).code = s.code := rfl
@[simp] theorem State.setBank_tags (s : State) (n : Nat) (b : Bank) : (s.setBank n b).tags = s.tags := rfl
@[simp] theorem State.setBank_contexts (s : State) (n : Nat) (b : Bank) : (s.setBank n b).contexts = s.contexts := rfl
@[simp] theorem State.setBank_launches (s : State) (n : Nat) (b : Bank) : (s.setBank n b).launches = s.launches := rfl
@[simp] theorem State.setBank_dispatch (s : State) (n : Nat) (b : Bank) : (s.setBank n b).dispatch = s.dispatch := rfl
@[simp] theorem State.setBank_jobs (s : State) (n : Nat) (b : Bank) : (s.setBank n b).jobs = s.jobs := rfl
@[simp] theorem State.setBank_bgTurn (s : State) (n : Nat) (b : Bank) : (s.setBank n b).bgTurn = s.bgTurn := rfl
@[simp] theorem State.setBank_commands (s : State) (n : Nat) (b : Bank) : (s.setBank n b).commands = s.commands := rfl
@[simp] theorem State.setBank_saved (s : State) (n : Nat) (b : Bank) : (s.setBank n b).saved = s.saved := rfl
@[simp] theorem State.setBank_parked (s : State) (n : Nat) (b : Bank) : (s.setBank n b).parked = s.parked := rfl
@[simp] theorem State.setBank_snapshots (s : State) (n : Nat) (b : Bank) : (s.setBank n b).snapshots = s.snapshots := rfl
@[simp] theorem State.setBank_combining (s : State) (n : Nat) (b : Bank) : (s.setBank n b).combining = s.combining := rfl
@[simp] theorem State.setBank_peers (s : State) (n : Nat) (b : Bank) : (s.setBank n b).peers = s.peers := rfl
@[simp] theorem State.setBank_acks (s : State) (n : Nat) (b : Bank) : (s.setBank n b).acks = s.acks := rfl
@[simp] theorem State.setBank_cores (s : State) (n : Nat) (b : Bank) : (s.setBank n b).cores = s.cores := rfl
@[simp] theorem State.setBank_clusters (s : State) (n : Nat) (b : Bank) : (s.setBank n b).clusters = s.clusters := rfl
@[simp] theorem State.setBank_plewick (s : State) (n : Nat) (b : Bank) : (s.setBank n b).plewick = s.plewick := rfl
@[simp] theorem State.setBank_setup (s : State) (n : Nat) (b : Bank) : (s.setBank n b).setup = s.setup := rfl
@[simp] theorem State.setBank_time (s : State) (n : Nat) (b : Bank) : (s.setBank n b).time = s.time := rfl
@[simp] theorem State.setBank_slew (s : State) (n : Nat) (b : Bank) : (s.setBank n b).slew = s.slew := rfl
@[simp] theorem State.setBank_slewCarry (s : State) (n : Nat) (b : Bank) : (s.setBank n b).slewCarry = s.slewCarry := rfl
@[simp] theorem State.setBank_slot (s : State) (n : Nat) (b : Bank) : (s.setBank n b).slot = s.slot := rfl
@[simp] theorem State.setBank_stopped (s : State) (n : Nat) (b : Bank) : (s.setBank n b).stopped = s.stopped := rfl
@[simp] theorem State.setBank_overhead (s : State) (n : Nat) (b : Bank) : (s.setBank n b).overhead = s.overhead := rfl
@[simp] theorem State.setBank_agenda (s : State) (n : Nat) (b : Bank) : (s.setBank n b).agenda = s.agenda := rfl
@[simp] theorem State.setBank_beat (s : State) (n : Nat) (b : Bank) : (s.setBank n b).beat = s.beat := rfl
@[simp] theorem State.setBank_round (s : State) (n : Nat) (b : Bank) : (s.setBank n b).round = s.round := rfl
@[simp] theorem State.setBank_free (s : State) (n : Nat) (b : Bank) : (s.setBank n b).free = s.free := rfl
@[simp] theorem State.setBank_nextId (s : State) (n : Nat) (b : Bank) : (s.setBank n b).nextId = s.nextId := rfl

@[simp] theorem State.setLaunch_cur (s : State) (l : Launch) : (s.setLaunch l).cur = s.cur := rfl
@[simp] theorem State.setLaunch_fold (s : State) (l : Launch) : (s.setLaunch l).fold = s.fold := rfl
@[simp] theorem State.setLaunch_flocks (s : State) (l : Launch) : (s.setLaunch l).flocks = s.flocks := rfl
@[simp] theorem State.setLaunch_folds (s : State) (l : Launch) : (s.setLaunch l).folds = s.folds := rfl
@[simp] theorem State.setLaunch_departed (s : State) (l : Launch) : (s.setLaunch l).departed = s.departed := rfl
@[simp] theorem State.setLaunch_mem (s : State) (l : Launch) : (s.setLaunch l).mem = s.mem := rfl
@[simp] theorem State.setLaunch_remote (s : State) (l : Launch) : (s.setLaunch l).remote = s.remote := rfl
@[simp] theorem State.setLaunch_clean (s : State) (l : Launch) : (s.setLaunch l).clean = s.clean := rfl
@[simp] theorem State.setLaunch_dirty (s : State) (l : Launch) : (s.setLaunch l).dirty = s.dirty := rfl
@[simp] theorem State.setLaunch_used (s : State) (l : Launch) : (s.setLaunch l).used = s.used := rfl
@[simp] theorem State.setLaunch_inFlight (s : State) (l : Launch) : (s.setLaunch l).inFlight = s.inFlight := rfl
@[simp] theorem State.setLaunch_broken (s : State) (l : Launch) : (s.setLaunch l).broken = s.broken := rfl
@[simp] theorem State.setLaunch_tlb (s : State) (l : Launch) : (s.setLaunch l).tlb = s.tlb := rfl
@[simp] theorem State.setLaunch_code (s : State) (l : Launch) : (s.setLaunch l).code = s.code := rfl
@[simp] theorem State.setLaunch_tags (s : State) (l : Launch) : (s.setLaunch l).tags = s.tags := rfl
@[simp] theorem State.setLaunch_contexts (s : State) (l : Launch) : (s.setLaunch l).contexts = s.contexts := rfl
@[simp] theorem State.setLaunch_dispatch (s : State) (l : Launch) : (s.setLaunch l).dispatch = s.dispatch := rfl
@[simp] theorem State.setLaunch_jobs (s : State) (l : Launch) : (s.setLaunch l).jobs = s.jobs := rfl
@[simp] theorem State.setLaunch_bgTurn (s : State) (l : Launch) : (s.setLaunch l).bgTurn = s.bgTurn := rfl
@[simp] theorem State.setLaunch_commands (s : State) (l : Launch) : (s.setLaunch l).commands = s.commands := rfl
@[simp] theorem State.setLaunch_saved (s : State) (l : Launch) : (s.setLaunch l).saved = s.saved := rfl
@[simp] theorem State.setLaunch_parked (s : State) (l : Launch) : (s.setLaunch l).parked = s.parked := rfl
@[simp] theorem State.setLaunch_snapshots (s : State) (l : Launch) : (s.setLaunch l).snapshots = s.snapshots := rfl
@[simp] theorem State.setLaunch_combining (s : State) (l : Launch) : (s.setLaunch l).combining = s.combining := rfl
@[simp] theorem State.setLaunch_peers (s : State) (l : Launch) : (s.setLaunch l).peers = s.peers := rfl
@[simp] theorem State.setLaunch_acks (s : State) (l : Launch) : (s.setLaunch l).acks = s.acks := rfl
@[simp] theorem State.setLaunch_banks (s : State) (l : Launch) : (s.setLaunch l).banks = s.banks := rfl
@[simp] theorem State.setLaunch_cores (s : State) (l : Launch) : (s.setLaunch l).cores = s.cores := rfl
@[simp] theorem State.setLaunch_clusters (s : State) (l : Launch) : (s.setLaunch l).clusters = s.clusters := rfl
@[simp] theorem State.setLaunch_plewick (s : State) (l : Launch) : (s.setLaunch l).plewick = s.plewick := rfl
@[simp] theorem State.setLaunch_setup (s : State) (l : Launch) : (s.setLaunch l).setup = s.setup := rfl
@[simp] theorem State.setLaunch_time (s : State) (l : Launch) : (s.setLaunch l).time = s.time := rfl
@[simp] theorem State.setLaunch_slew (s : State) (l : Launch) : (s.setLaunch l).slew = s.slew := rfl
@[simp] theorem State.setLaunch_slewCarry (s : State) (l : Launch) : (s.setLaunch l).slewCarry = s.slewCarry := rfl
@[simp] theorem State.setLaunch_slot (s : State) (l : Launch) : (s.setLaunch l).slot = s.slot := rfl
@[simp] theorem State.setLaunch_stopped (s : State) (l : Launch) : (s.setLaunch l).stopped = s.stopped := rfl
@[simp] theorem State.setLaunch_overhead (s : State) (l : Launch) : (s.setLaunch l).overhead = s.overhead := rfl
@[simp] theorem State.setLaunch_agenda (s : State) (l : Launch) : (s.setLaunch l).agenda = s.agenda := rfl
@[simp] theorem State.setLaunch_beat (s : State) (l : Launch) : (s.setLaunch l).beat = s.beat := rfl
@[simp] theorem State.setLaunch_round (s : State) (l : Launch) : (s.setLaunch l).round = s.round := rfl
@[simp] theorem State.setLaunch_free (s : State) (l : Launch) : (s.setLaunch l).free = s.free := rfl
@[simp] theorem State.setLaunch_nextId (s : State) (l : Launch) : (s.setLaunch l).nextId = s.nextId := rfl

@[simp] theorem State.setJob_cur (s : State) (j : CopyJob) : (s.setJob j).cur = s.cur := rfl
@[simp] theorem State.setJob_fold (s : State) (j : CopyJob) : (s.setJob j).fold = s.fold := rfl
@[simp] theorem State.setJob_flocks (s : State) (j : CopyJob) : (s.setJob j).flocks = s.flocks := rfl
@[simp] theorem State.setJob_folds (s : State) (j : CopyJob) : (s.setJob j).folds = s.folds := rfl
@[simp] theorem State.setJob_departed (s : State) (j : CopyJob) : (s.setJob j).departed = s.departed := rfl
@[simp] theorem State.setJob_mem (s : State) (j : CopyJob) : (s.setJob j).mem = s.mem := rfl
@[simp] theorem State.setJob_remote (s : State) (j : CopyJob) : (s.setJob j).remote = s.remote := rfl
@[simp] theorem State.setJob_clean (s : State) (j : CopyJob) : (s.setJob j).clean = s.clean := rfl
@[simp] theorem State.setJob_dirty (s : State) (j : CopyJob) : (s.setJob j).dirty = s.dirty := rfl
@[simp] theorem State.setJob_used (s : State) (j : CopyJob) : (s.setJob j).used = s.used := rfl
@[simp] theorem State.setJob_inFlight (s : State) (j : CopyJob) : (s.setJob j).inFlight = s.inFlight := rfl
@[simp] theorem State.setJob_broken (s : State) (j : CopyJob) : (s.setJob j).broken = s.broken := rfl
@[simp] theorem State.setJob_tlb (s : State) (j : CopyJob) : (s.setJob j).tlb = s.tlb := rfl
@[simp] theorem State.setJob_code (s : State) (j : CopyJob) : (s.setJob j).code = s.code := rfl
@[simp] theorem State.setJob_tags (s : State) (j : CopyJob) : (s.setJob j).tags = s.tags := rfl
@[simp] theorem State.setJob_contexts (s : State) (j : CopyJob) : (s.setJob j).contexts = s.contexts := rfl
@[simp] theorem State.setJob_launches (s : State) (j : CopyJob) : (s.setJob j).launches = s.launches := rfl
@[simp] theorem State.setJob_dispatch (s : State) (j : CopyJob) : (s.setJob j).dispatch = s.dispatch := rfl
@[simp] theorem State.setJob_bgTurn (s : State) (j : CopyJob) : (s.setJob j).bgTurn = s.bgTurn := rfl
@[simp] theorem State.setJob_commands (s : State) (j : CopyJob) : (s.setJob j).commands = s.commands := rfl
@[simp] theorem State.setJob_saved (s : State) (j : CopyJob) : (s.setJob j).saved = s.saved := rfl
@[simp] theorem State.setJob_parked (s : State) (j : CopyJob) : (s.setJob j).parked = s.parked := rfl
@[simp] theorem State.setJob_snapshots (s : State) (j : CopyJob) : (s.setJob j).snapshots = s.snapshots := rfl
@[simp] theorem State.setJob_combining (s : State) (j : CopyJob) : (s.setJob j).combining = s.combining := rfl
@[simp] theorem State.setJob_peers (s : State) (j : CopyJob) : (s.setJob j).peers = s.peers := rfl
@[simp] theorem State.setJob_acks (s : State) (j : CopyJob) : (s.setJob j).acks = s.acks := rfl
@[simp] theorem State.setJob_banks (s : State) (j : CopyJob) : (s.setJob j).banks = s.banks := rfl
@[simp] theorem State.setJob_cores (s : State) (j : CopyJob) : (s.setJob j).cores = s.cores := rfl
@[simp] theorem State.setJob_clusters (s : State) (j : CopyJob) : (s.setJob j).clusters = s.clusters := rfl
@[simp] theorem State.setJob_plewick (s : State) (j : CopyJob) : (s.setJob j).plewick = s.plewick := rfl
@[simp] theorem State.setJob_setup (s : State) (j : CopyJob) : (s.setJob j).setup = s.setup := rfl
@[simp] theorem State.setJob_time (s : State) (j : CopyJob) : (s.setJob j).time = s.time := rfl
@[simp] theorem State.setJob_slew (s : State) (j : CopyJob) : (s.setJob j).slew = s.slew := rfl
@[simp] theorem State.setJob_slewCarry (s : State) (j : CopyJob) : (s.setJob j).slewCarry = s.slewCarry := rfl
@[simp] theorem State.setJob_slot (s : State) (j : CopyJob) : (s.setJob j).slot = s.slot := rfl
@[simp] theorem State.setJob_stopped (s : State) (j : CopyJob) : (s.setJob j).stopped = s.stopped := rfl
@[simp] theorem State.setJob_overhead (s : State) (j : CopyJob) : (s.setJob j).overhead = s.overhead := rfl
@[simp] theorem State.setJob_agenda (s : State) (j : CopyJob) : (s.setJob j).agenda = s.agenda := rfl
@[simp] theorem State.setJob_beat (s : State) (j : CopyJob) : (s.setJob j).beat = s.beat := rfl
@[simp] theorem State.setJob_round (s : State) (j : CopyJob) : (s.setJob j).round = s.round := rfl
@[simp] theorem State.setJob_free (s : State) (j : CopyJob) : (s.setJob j).free = s.free := rfl
@[simp] theorem State.setJob_nextId (s : State) (j : CopyJob) : (s.setJob j).nextId = s.nextId := rfl

@[simp] theorem State.setEntry_cur (s : State) (e : Combine) : (s.setEntry e).cur = s.cur := rfl
@[simp] theorem State.setEntry_fold (s : State) (e : Combine) : (s.setEntry e).fold = s.fold := rfl
@[simp] theorem State.setEntry_flocks (s : State) (e : Combine) : (s.setEntry e).flocks = s.flocks := rfl
@[simp] theorem State.setEntry_folds (s : State) (e : Combine) : (s.setEntry e).folds = s.folds := rfl
@[simp] theorem State.setEntry_departed (s : State) (e : Combine) : (s.setEntry e).departed = s.departed := rfl
@[simp] theorem State.setEntry_mem (s : State) (e : Combine) : (s.setEntry e).mem = s.mem := rfl
@[simp] theorem State.setEntry_remote (s : State) (e : Combine) : (s.setEntry e).remote = s.remote := rfl
@[simp] theorem State.setEntry_clean (s : State) (e : Combine) : (s.setEntry e).clean = s.clean := rfl
@[simp] theorem State.setEntry_dirty (s : State) (e : Combine) : (s.setEntry e).dirty = s.dirty := rfl
@[simp] theorem State.setEntry_used (s : State) (e : Combine) : (s.setEntry e).used = s.used := rfl
@[simp] theorem State.setEntry_inFlight (s : State) (e : Combine) : (s.setEntry e).inFlight = s.inFlight := rfl
@[simp] theorem State.setEntry_broken (s : State) (e : Combine) : (s.setEntry e).broken = s.broken := rfl
@[simp] theorem State.setEntry_tlb (s : State) (e : Combine) : (s.setEntry e).tlb = s.tlb := rfl
@[simp] theorem State.setEntry_code (s : State) (e : Combine) : (s.setEntry e).code = s.code := rfl
@[simp] theorem State.setEntry_tags (s : State) (e : Combine) : (s.setEntry e).tags = s.tags := rfl
@[simp] theorem State.setEntry_contexts (s : State) (e : Combine) : (s.setEntry e).contexts = s.contexts := rfl
@[simp] theorem State.setEntry_launches (s : State) (e : Combine) : (s.setEntry e).launches = s.launches := rfl
@[simp] theorem State.setEntry_dispatch (s : State) (e : Combine) : (s.setEntry e).dispatch = s.dispatch := rfl
@[simp] theorem State.setEntry_jobs (s : State) (e : Combine) : (s.setEntry e).jobs = s.jobs := rfl
@[simp] theorem State.setEntry_bgTurn (s : State) (e : Combine) : (s.setEntry e).bgTurn = s.bgTurn := rfl
@[simp] theorem State.setEntry_commands (s : State) (e : Combine) : (s.setEntry e).commands = s.commands := rfl
@[simp] theorem State.setEntry_saved (s : State) (e : Combine) : (s.setEntry e).saved = s.saved := rfl
@[simp] theorem State.setEntry_parked (s : State) (e : Combine) : (s.setEntry e).parked = s.parked := rfl
@[simp] theorem State.setEntry_snapshots (s : State) (e : Combine) : (s.setEntry e).snapshots = s.snapshots := rfl
@[simp] theorem State.setEntry_peers (s : State) (e : Combine) : (s.setEntry e).peers = s.peers := rfl
@[simp] theorem State.setEntry_acks (s : State) (e : Combine) : (s.setEntry e).acks = s.acks := rfl
@[simp] theorem State.setEntry_banks (s : State) (e : Combine) : (s.setEntry e).banks = s.banks := rfl
@[simp] theorem State.setEntry_cores (s : State) (e : Combine) : (s.setEntry e).cores = s.cores := rfl
@[simp] theorem State.setEntry_clusters (s : State) (e : Combine) : (s.setEntry e).clusters = s.clusters := rfl
@[simp] theorem State.setEntry_plewick (s : State) (e : Combine) : (s.setEntry e).plewick = s.plewick := rfl
@[simp] theorem State.setEntry_setup (s : State) (e : Combine) : (s.setEntry e).setup = s.setup := rfl
@[simp] theorem State.setEntry_time (s : State) (e : Combine) : (s.setEntry e).time = s.time := rfl
@[simp] theorem State.setEntry_slew (s : State) (e : Combine) : (s.setEntry e).slew = s.slew := rfl
@[simp] theorem State.setEntry_slewCarry (s : State) (e : Combine) : (s.setEntry e).slewCarry = s.slewCarry := rfl
@[simp] theorem State.setEntry_slot (s : State) (e : Combine) : (s.setEntry e).slot = s.slot := rfl
@[simp] theorem State.setEntry_stopped (s : State) (e : Combine) : (s.setEntry e).stopped = s.stopped := rfl
@[simp] theorem State.setEntry_overhead (s : State) (e : Combine) : (s.setEntry e).overhead = s.overhead := rfl
@[simp] theorem State.setEntry_agenda (s : State) (e : Combine) : (s.setEntry e).agenda = s.agenda := rfl
@[simp] theorem State.setEntry_beat (s : State) (e : Combine) : (s.setEntry e).beat = s.beat := rfl
@[simp] theorem State.setEntry_round (s : State) (e : Combine) : (s.setEntry e).round = s.round := rfl
@[simp] theorem State.setEntry_free (s : State) (e : Combine) : (s.setEntry e).free = s.free := rfl
@[simp] theorem State.setEntry_nextId (s : State) (e : Combine) : (s.setEntry e).nextId = s.nextId := rfl

@[simp] theorem State.mapFlocks_fold (s : State) (g : Flock → Flock) : (s.mapFlocks g).fold = s.fold := rfl
@[simp] theorem State.mapFlocks_folds (s : State) (g : Flock → Flock) : (s.mapFlocks g).folds = s.folds := rfl
@[simp] theorem State.mapFlocks_departed (s : State) (g : Flock → Flock) : (s.mapFlocks g).departed = s.departed := rfl
@[simp] theorem State.mapFlocks_mem (s : State) (g : Flock → Flock) : (s.mapFlocks g).mem = s.mem := rfl
@[simp] theorem State.mapFlocks_remote (s : State) (g : Flock → Flock) : (s.mapFlocks g).remote = s.remote := rfl
@[simp] theorem State.mapFlocks_clean (s : State) (g : Flock → Flock) : (s.mapFlocks g).clean = s.clean := rfl
@[simp] theorem State.mapFlocks_dirty (s : State) (g : Flock → Flock) : (s.mapFlocks g).dirty = s.dirty := rfl
@[simp] theorem State.mapFlocks_used (s : State) (g : Flock → Flock) : (s.mapFlocks g).used = s.used := rfl
@[simp] theorem State.mapFlocks_inFlight (s : State) (g : Flock → Flock) : (s.mapFlocks g).inFlight = s.inFlight := rfl
@[simp] theorem State.mapFlocks_broken (s : State) (g : Flock → Flock) : (s.mapFlocks g).broken = s.broken := rfl
@[simp] theorem State.mapFlocks_tlb (s : State) (g : Flock → Flock) : (s.mapFlocks g).tlb = s.tlb := rfl
@[simp] theorem State.mapFlocks_code (s : State) (g : Flock → Flock) : (s.mapFlocks g).code = s.code := rfl
@[simp] theorem State.mapFlocks_tags (s : State) (g : Flock → Flock) : (s.mapFlocks g).tags = s.tags := rfl
@[simp] theorem State.mapFlocks_contexts (s : State) (g : Flock → Flock) : (s.mapFlocks g).contexts = s.contexts := rfl
@[simp] theorem State.mapFlocks_launches (s : State) (g : Flock → Flock) : (s.mapFlocks g).launches = s.launches := rfl
@[simp] theorem State.mapFlocks_dispatch (s : State) (g : Flock → Flock) : (s.mapFlocks g).dispatch = s.dispatch := rfl
@[simp] theorem State.mapFlocks_jobs (s : State) (g : Flock → Flock) : (s.mapFlocks g).jobs = s.jobs := rfl
@[simp] theorem State.mapFlocks_bgTurn (s : State) (g : Flock → Flock) : (s.mapFlocks g).bgTurn = s.bgTurn := rfl
@[simp] theorem State.mapFlocks_commands (s : State) (g : Flock → Flock) : (s.mapFlocks g).commands = s.commands := rfl
@[simp] theorem State.mapFlocks_saved (s : State) (g : Flock → Flock) : (s.mapFlocks g).saved = s.saved := rfl
@[simp] theorem State.mapFlocks_parked (s : State) (g : Flock → Flock) : (s.mapFlocks g).parked = s.parked := rfl
@[simp] theorem State.mapFlocks_snapshots (s : State) (g : Flock → Flock) : (s.mapFlocks g).snapshots = s.snapshots := rfl
@[simp] theorem State.mapFlocks_combining (s : State) (g : Flock → Flock) : (s.mapFlocks g).combining = s.combining := rfl
@[simp] theorem State.mapFlocks_peers (s : State) (g : Flock → Flock) : (s.mapFlocks g).peers = s.peers := rfl
@[simp] theorem State.mapFlocks_acks (s : State) (g : Flock → Flock) : (s.mapFlocks g).acks = s.acks := rfl
@[simp] theorem State.mapFlocks_banks (s : State) (g : Flock → Flock) : (s.mapFlocks g).banks = s.banks := rfl
@[simp] theorem State.mapFlocks_cores (s : State) (g : Flock → Flock) : (s.mapFlocks g).cores = s.cores := rfl
@[simp] theorem State.mapFlocks_clusters (s : State) (g : Flock → Flock) : (s.mapFlocks g).clusters = s.clusters := rfl
@[simp] theorem State.mapFlocks_plewick (s : State) (g : Flock → Flock) : (s.mapFlocks g).plewick = s.plewick := rfl
@[simp] theorem State.mapFlocks_setup (s : State) (g : Flock → Flock) : (s.mapFlocks g).setup = s.setup := rfl
@[simp] theorem State.mapFlocks_time (s : State) (g : Flock → Flock) : (s.mapFlocks g).time = s.time := rfl
@[simp] theorem State.mapFlocks_slew (s : State) (g : Flock → Flock) : (s.mapFlocks g).slew = s.slew := rfl
@[simp] theorem State.mapFlocks_slewCarry (s : State) (g : Flock → Flock) : (s.mapFlocks g).slewCarry = s.slewCarry := rfl
@[simp] theorem State.mapFlocks_slot (s : State) (g : Flock → Flock) : (s.mapFlocks g).slot = s.slot := rfl
@[simp] theorem State.mapFlocks_stopped (s : State) (g : Flock → Flock) : (s.mapFlocks g).stopped = s.stopped := rfl
@[simp] theorem State.mapFlocks_overhead (s : State) (g : Flock → Flock) : (s.mapFlocks g).overhead = s.overhead := rfl
@[simp] theorem State.mapFlocks_agenda (s : State) (g : Flock → Flock) : (s.mapFlocks g).agenda = s.agenda := rfl
@[simp] theorem State.mapFlocks_beat (s : State) (g : Flock → Flock) : (s.mapFlocks g).beat = s.beat := rfl
@[simp] theorem State.mapFlocks_round (s : State) (g : Flock → Flock) : (s.mapFlocks g).round = s.round := rfl
@[simp] theorem State.mapFlocks_free (s : State) (g : Flock → Flock) : (s.mapFlocks g).free = s.free := rfl
@[simp] theorem State.mapFlocks_nextId (s : State) (g : Flock → Flock) : (s.mapFlocks g).nextId = s.nextId := rfl

@[simp] theorem State.setFlock_fold (s : State) (g : Flock) : (s.setFlock g).fold = s.fold := rfl
@[simp] theorem State.setFlock_folds (s : State) (g : Flock) : (s.setFlock g).folds = s.folds := rfl
@[simp] theorem State.setFlock_departed (s : State) (g : Flock) : (s.setFlock g).departed = s.departed := rfl
@[simp] theorem State.setFlock_mem (s : State) (g : Flock) : (s.setFlock g).mem = s.mem := rfl
@[simp] theorem State.setFlock_remote (s : State) (g : Flock) : (s.setFlock g).remote = s.remote := rfl
@[simp] theorem State.setFlock_clean (s : State) (g : Flock) : (s.setFlock g).clean = s.clean := rfl
@[simp] theorem State.setFlock_dirty (s : State) (g : Flock) : (s.setFlock g).dirty = s.dirty := rfl
@[simp] theorem State.setFlock_used (s : State) (g : Flock) : (s.setFlock g).used = s.used := rfl
@[simp] theorem State.setFlock_inFlight (s : State) (g : Flock) : (s.setFlock g).inFlight = s.inFlight := rfl
@[simp] theorem State.setFlock_broken (s : State) (g : Flock) : (s.setFlock g).broken = s.broken := rfl
@[simp] theorem State.setFlock_tlb (s : State) (g : Flock) : (s.setFlock g).tlb = s.tlb := rfl
@[simp] theorem State.setFlock_code (s : State) (g : Flock) : (s.setFlock g).code = s.code := rfl
@[simp] theorem State.setFlock_tags (s : State) (g : Flock) : (s.setFlock g).tags = s.tags := rfl
@[simp] theorem State.setFlock_contexts (s : State) (g : Flock) : (s.setFlock g).contexts = s.contexts := rfl
@[simp] theorem State.setFlock_launches (s : State) (g : Flock) : (s.setFlock g).launches = s.launches := rfl
@[simp] theorem State.setFlock_dispatch (s : State) (g : Flock) : (s.setFlock g).dispatch = s.dispatch := rfl
@[simp] theorem State.setFlock_jobs (s : State) (g : Flock) : (s.setFlock g).jobs = s.jobs := rfl
@[simp] theorem State.setFlock_bgTurn (s : State) (g : Flock) : (s.setFlock g).bgTurn = s.bgTurn := rfl
@[simp] theorem State.setFlock_commands (s : State) (g : Flock) : (s.setFlock g).commands = s.commands := rfl
@[simp] theorem State.setFlock_saved (s : State) (g : Flock) : (s.setFlock g).saved = s.saved := rfl
@[simp] theorem State.setFlock_parked (s : State) (g : Flock) : (s.setFlock g).parked = s.parked := rfl
@[simp] theorem State.setFlock_snapshots (s : State) (g : Flock) : (s.setFlock g).snapshots = s.snapshots := rfl
@[simp] theorem State.setFlock_combining (s : State) (g : Flock) : (s.setFlock g).combining = s.combining := rfl
@[simp] theorem State.setFlock_peers (s : State) (g : Flock) : (s.setFlock g).peers = s.peers := rfl
@[simp] theorem State.setFlock_acks (s : State) (g : Flock) : (s.setFlock g).acks = s.acks := rfl
@[simp] theorem State.setFlock_banks (s : State) (g : Flock) : (s.setFlock g).banks = s.banks := rfl
@[simp] theorem State.setFlock_cores (s : State) (g : Flock) : (s.setFlock g).cores = s.cores := rfl
@[simp] theorem State.setFlock_clusters (s : State) (g : Flock) : (s.setFlock g).clusters = s.clusters := rfl
@[simp] theorem State.setFlock_plewick (s : State) (g : Flock) : (s.setFlock g).plewick = s.plewick := rfl
@[simp] theorem State.setFlock_setup (s : State) (g : Flock) : (s.setFlock g).setup = s.setup := rfl
@[simp] theorem State.setFlock_time (s : State) (g : Flock) : (s.setFlock g).time = s.time := rfl
@[simp] theorem State.setFlock_slew (s : State) (g : Flock) : (s.setFlock g).slew = s.slew := rfl
@[simp] theorem State.setFlock_slewCarry (s : State) (g : Flock) : (s.setFlock g).slewCarry = s.slewCarry := rfl
@[simp] theorem State.setFlock_slot (s : State) (g : Flock) : (s.setFlock g).slot = s.slot := rfl
@[simp] theorem State.setFlock_stopped (s : State) (g : Flock) : (s.setFlock g).stopped = s.stopped := rfl
@[simp] theorem State.setFlock_overhead (s : State) (g : Flock) : (s.setFlock g).overhead = s.overhead := rfl
@[simp] theorem State.setFlock_agenda (s : State) (g : Flock) : (s.setFlock g).agenda = s.agenda := rfl
@[simp] theorem State.setFlock_beat (s : State) (g : Flock) : (s.setFlock g).beat = s.beat := rfl
@[simp] theorem State.setFlock_round (s : State) (g : Flock) : (s.setFlock g).round = s.round := rfl
@[simp] theorem State.setFlock_free (s : State) (g : Flock) : (s.setFlock g).free = s.free := rfl
@[simp] theorem State.setFlock_nextId (s : State) (g : Flock) : (s.setFlock g).nextId = s.nextId := rfl

@[simp] theorem State.setFold_cur (s : State) (f : Fold) : (s.setFold f).cur = s.cur := rfl
@[simp] theorem State.setFold_flocks (s : State) (f : Fold) : (s.setFold f).flocks = s.flocks := rfl
@[simp] theorem State.setFold_departed (s : State) (f : Fold) : (s.setFold f).departed = s.departed := rfl
@[simp] theorem State.setFold_mem (s : State) (f : Fold) : (s.setFold f).mem = s.mem := rfl
@[simp] theorem State.setFold_remote (s : State) (f : Fold) : (s.setFold f).remote = s.remote := rfl
@[simp] theorem State.setFold_clean (s : State) (f : Fold) : (s.setFold f).clean = s.clean := rfl
@[simp] theorem State.setFold_dirty (s : State) (f : Fold) : (s.setFold f).dirty = s.dirty := rfl
@[simp] theorem State.setFold_used (s : State) (f : Fold) : (s.setFold f).used = s.used := rfl
@[simp] theorem State.setFold_inFlight (s : State) (f : Fold) : (s.setFold f).inFlight = s.inFlight := rfl
@[simp] theorem State.setFold_broken (s : State) (f : Fold) : (s.setFold f).broken = s.broken := rfl
@[simp] theorem State.setFold_tlb (s : State) (f : Fold) : (s.setFold f).tlb = s.tlb := rfl
@[simp] theorem State.setFold_code (s : State) (f : Fold) : (s.setFold f).code = s.code := rfl
@[simp] theorem State.setFold_tags (s : State) (f : Fold) : (s.setFold f).tags = s.tags := rfl
@[simp] theorem State.setFold_contexts (s : State) (f : Fold) : (s.setFold f).contexts = s.contexts := rfl
@[simp] theorem State.setFold_launches (s : State) (f : Fold) : (s.setFold f).launches = s.launches := rfl
@[simp] theorem State.setFold_dispatch (s : State) (f : Fold) : (s.setFold f).dispatch = s.dispatch := rfl
@[simp] theorem State.setFold_jobs (s : State) (f : Fold) : (s.setFold f).jobs = s.jobs := rfl
@[simp] theorem State.setFold_bgTurn (s : State) (f : Fold) : (s.setFold f).bgTurn = s.bgTurn := rfl
@[simp] theorem State.setFold_commands (s : State) (f : Fold) : (s.setFold f).commands = s.commands := rfl
@[simp] theorem State.setFold_saved (s : State) (f : Fold) : (s.setFold f).saved = s.saved := rfl
@[simp] theorem State.setFold_parked (s : State) (f : Fold) : (s.setFold f).parked = s.parked := rfl
@[simp] theorem State.setFold_snapshots (s : State) (f : Fold) : (s.setFold f).snapshots = s.snapshots := rfl
@[simp] theorem State.setFold_combining (s : State) (f : Fold) : (s.setFold f).combining = s.combining := rfl
@[simp] theorem State.setFold_peers (s : State) (f : Fold) : (s.setFold f).peers = s.peers := rfl
@[simp] theorem State.setFold_acks (s : State) (f : Fold) : (s.setFold f).acks = s.acks := rfl
@[simp] theorem State.setFold_banks (s : State) (f : Fold) : (s.setFold f).banks = s.banks := rfl
@[simp] theorem State.setFold_cores (s : State) (f : Fold) : (s.setFold f).cores = s.cores := rfl
@[simp] theorem State.setFold_clusters (s : State) (f : Fold) : (s.setFold f).clusters = s.clusters := rfl
@[simp] theorem State.setFold_plewick (s : State) (f : Fold) : (s.setFold f).plewick = s.plewick := rfl
@[simp] theorem State.setFold_setup (s : State) (f : Fold) : (s.setFold f).setup = s.setup := rfl
@[simp] theorem State.setFold_time (s : State) (f : Fold) : (s.setFold f).time = s.time := rfl
@[simp] theorem State.setFold_slew (s : State) (f : Fold) : (s.setFold f).slew = s.slew := rfl
@[simp] theorem State.setFold_slewCarry (s : State) (f : Fold) : (s.setFold f).slewCarry = s.slewCarry := rfl
@[simp] theorem State.setFold_slot (s : State) (f : Fold) : (s.setFold f).slot = s.slot := rfl
@[simp] theorem State.setFold_stopped (s : State) (f : Fold) : (s.setFold f).stopped = s.stopped := rfl
@[simp] theorem State.setFold_overhead (s : State) (f : Fold) : (s.setFold f).overhead = s.overhead := rfl
@[simp] theorem State.setFold_agenda (s : State) (f : Fold) : (s.setFold f).agenda = s.agenda := rfl
@[simp] theorem State.setFold_beat (s : State) (f : Fold) : (s.setFold f).beat = s.beat := rfl
@[simp] theorem State.setFold_round (s : State) (f : Fold) : (s.setFold f).round = s.round := rfl
@[simp] theorem State.setFold_free (s : State) (f : Fold) : (s.setFold f).free = s.free := rfl
@[simp] theorem State.setFold_nextId (s : State) (f : Fold) : (s.setFold f).nextId = s.nextId := rfl

@[simp] theorem State.setTrough_cur (s : State) (n : BitVec 3) (t : Trough) : (s.setTrough n t).cur = s.cur := rfl
@[simp] theorem State.setTrough_flocks (s : State) (n : BitVec 3) (t : Trough) : (s.setTrough n t).flocks = s.flocks := rfl
@[simp] theorem State.setTrough_folds (s : State) (n : BitVec 3) (t : Trough) : (s.setTrough n t).folds = s.folds := rfl
@[simp] theorem State.setTrough_departed (s : State) (n : BitVec 3) (t : Trough) : (s.setTrough n t).departed = s.departed := rfl
@[simp] theorem State.setTrough_mem (s : State) (n : BitVec 3) (t : Trough) : (s.setTrough n t).mem = s.mem := rfl
@[simp] theorem State.setTrough_remote (s : State) (n : BitVec 3) (t : Trough) : (s.setTrough n t).remote = s.remote := rfl
@[simp] theorem State.setTrough_clean (s : State) (n : BitVec 3) (t : Trough) : (s.setTrough n t).clean = s.clean := rfl
@[simp] theorem State.setTrough_dirty (s : State) (n : BitVec 3) (t : Trough) : (s.setTrough n t).dirty = s.dirty := rfl
@[simp] theorem State.setTrough_used (s : State) (n : BitVec 3) (t : Trough) : (s.setTrough n t).used = s.used := rfl
@[simp] theorem State.setTrough_inFlight (s : State) (n : BitVec 3) (t : Trough) : (s.setTrough n t).inFlight = s.inFlight := rfl
@[simp] theorem State.setTrough_broken (s : State) (n : BitVec 3) (t : Trough) : (s.setTrough n t).broken = s.broken := rfl
@[simp] theorem State.setTrough_tlb (s : State) (n : BitVec 3) (t : Trough) : (s.setTrough n t).tlb = s.tlb := rfl
@[simp] theorem State.setTrough_code (s : State) (n : BitVec 3) (t : Trough) : (s.setTrough n t).code = s.code := rfl
@[simp] theorem State.setTrough_tags (s : State) (n : BitVec 3) (t : Trough) : (s.setTrough n t).tags = s.tags := rfl
@[simp] theorem State.setTrough_contexts (s : State) (n : BitVec 3) (t : Trough) : (s.setTrough n t).contexts = s.contexts := rfl
@[simp] theorem State.setTrough_launches (s : State) (n : BitVec 3) (t : Trough) : (s.setTrough n t).launches = s.launches := rfl
@[simp] theorem State.setTrough_dispatch (s : State) (n : BitVec 3) (t : Trough) : (s.setTrough n t).dispatch = s.dispatch := rfl
@[simp] theorem State.setTrough_jobs (s : State) (n : BitVec 3) (t : Trough) : (s.setTrough n t).jobs = s.jobs := rfl
@[simp] theorem State.setTrough_bgTurn (s : State) (n : BitVec 3) (t : Trough) : (s.setTrough n t).bgTurn = s.bgTurn := rfl
@[simp] theorem State.setTrough_commands (s : State) (n : BitVec 3) (t : Trough) : (s.setTrough n t).commands = s.commands := rfl
@[simp] theorem State.setTrough_saved (s : State) (n : BitVec 3) (t : Trough) : (s.setTrough n t).saved = s.saved := rfl
@[simp] theorem State.setTrough_parked (s : State) (n : BitVec 3) (t : Trough) : (s.setTrough n t).parked = s.parked := rfl
@[simp] theorem State.setTrough_snapshots (s : State) (n : BitVec 3) (t : Trough) : (s.setTrough n t).snapshots = s.snapshots := rfl
@[simp] theorem State.setTrough_combining (s : State) (n : BitVec 3) (t : Trough) : (s.setTrough n t).combining = s.combining := rfl
@[simp] theorem State.setTrough_peers (s : State) (n : BitVec 3) (t : Trough) : (s.setTrough n t).peers = s.peers := rfl
@[simp] theorem State.setTrough_acks (s : State) (n : BitVec 3) (t : Trough) : (s.setTrough n t).acks = s.acks := rfl
@[simp] theorem State.setTrough_banks (s : State) (n : BitVec 3) (t : Trough) : (s.setTrough n t).banks = s.banks := rfl
@[simp] theorem State.setTrough_cores (s : State) (n : BitVec 3) (t : Trough) : (s.setTrough n t).cores = s.cores := rfl
@[simp] theorem State.setTrough_clusters (s : State) (n : BitVec 3) (t : Trough) : (s.setTrough n t).clusters = s.clusters := rfl
@[simp] theorem State.setTrough_plewick (s : State) (n : BitVec 3) (t : Trough) : (s.setTrough n t).plewick = s.plewick := rfl
@[simp] theorem State.setTrough_setup (s : State) (n : BitVec 3) (t : Trough) : (s.setTrough n t).setup = s.setup := rfl
@[simp] theorem State.setTrough_time (s : State) (n : BitVec 3) (t : Trough) : (s.setTrough n t).time = s.time := rfl
@[simp] theorem State.setTrough_slew (s : State) (n : BitVec 3) (t : Trough) : (s.setTrough n t).slew = s.slew := rfl
@[simp] theorem State.setTrough_slewCarry (s : State) (n : BitVec 3) (t : Trough) : (s.setTrough n t).slewCarry = s.slewCarry := rfl
@[simp] theorem State.setTrough_slot (s : State) (n : BitVec 3) (t : Trough) : (s.setTrough n t).slot = s.slot := rfl
@[simp] theorem State.setTrough_stopped (s : State) (n : BitVec 3) (t : Trough) : (s.setTrough n t).stopped = s.stopped := rfl
@[simp] theorem State.setTrough_overhead (s : State) (n : BitVec 3) (t : Trough) : (s.setTrough n t).overhead = s.overhead := rfl
@[simp] theorem State.setTrough_agenda (s : State) (n : BitVec 3) (t : Trough) : (s.setTrough n t).agenda = s.agenda := rfl
@[simp] theorem State.setTrough_beat (s : State) (n : BitVec 3) (t : Trough) : (s.setTrough n t).beat = s.beat := rfl
@[simp] theorem State.setTrough_round (s : State) (n : BitVec 3) (t : Trough) : (s.setTrough n t).round = s.round := rfl
@[simp] theorem State.setTrough_free (s : State) (n : BitVec 3) (t : Trough) : (s.setTrough n t).free = s.free := rfl
@[simp] theorem State.setTrough_nextId (s : State) (n : BitVec 3) (t : Trough) : (s.setTrough n t).nextId = s.nextId := rfl

@[simp] theorem State.setStatus_fold (s : State) (x : Status) : (s.setStatus x).fold = s.fold := rfl
@[simp] theorem State.setStatus_flocks (s : State) (x : Status) : (s.setStatus x).flocks = s.flocks := rfl
@[simp] theorem State.setStatus_folds (s : State) (x : Status) : (s.setStatus x).folds = s.folds := rfl
@[simp] theorem State.setStatus_departed (s : State) (x : Status) : (s.setStatus x).departed = s.departed := rfl
@[simp] theorem State.setStatus_mem (s : State) (x : Status) : (s.setStatus x).mem = s.mem := rfl
@[simp] theorem State.setStatus_remote (s : State) (x : Status) : (s.setStatus x).remote = s.remote := rfl
@[simp] theorem State.setStatus_clean (s : State) (x : Status) : (s.setStatus x).clean = s.clean := rfl
@[simp] theorem State.setStatus_dirty (s : State) (x : Status) : (s.setStatus x).dirty = s.dirty := rfl
@[simp] theorem State.setStatus_used (s : State) (x : Status) : (s.setStatus x).used = s.used := rfl
@[simp] theorem State.setStatus_inFlight (s : State) (x : Status) : (s.setStatus x).inFlight = s.inFlight := rfl
@[simp] theorem State.setStatus_broken (s : State) (x : Status) : (s.setStatus x).broken = s.broken := rfl
@[simp] theorem State.setStatus_tlb (s : State) (x : Status) : (s.setStatus x).tlb = s.tlb := rfl
@[simp] theorem State.setStatus_code (s : State) (x : Status) : (s.setStatus x).code = s.code := rfl
@[simp] theorem State.setStatus_tags (s : State) (x : Status) : (s.setStatus x).tags = s.tags := rfl
@[simp] theorem State.setStatus_contexts (s : State) (x : Status) : (s.setStatus x).contexts = s.contexts := rfl
@[simp] theorem State.setStatus_launches (s : State) (x : Status) : (s.setStatus x).launches = s.launches := rfl
@[simp] theorem State.setStatus_dispatch (s : State) (x : Status) : (s.setStatus x).dispatch = s.dispatch := rfl
@[simp] theorem State.setStatus_jobs (s : State) (x : Status) : (s.setStatus x).jobs = s.jobs := rfl
@[simp] theorem State.setStatus_bgTurn (s : State) (x : Status) : (s.setStatus x).bgTurn = s.bgTurn := rfl
@[simp] theorem State.setStatus_commands (s : State) (x : Status) : (s.setStatus x).commands = s.commands := rfl
@[simp] theorem State.setStatus_saved (s : State) (x : Status) : (s.setStatus x).saved = s.saved := rfl
@[simp] theorem State.setStatus_parked (s : State) (x : Status) : (s.setStatus x).parked = s.parked := rfl
@[simp] theorem State.setStatus_snapshots (s : State) (x : Status) : (s.setStatus x).snapshots = s.snapshots := rfl
@[simp] theorem State.setStatus_combining (s : State) (x : Status) : (s.setStatus x).combining = s.combining := rfl
@[simp] theorem State.setStatus_peers (s : State) (x : Status) : (s.setStatus x).peers = s.peers := rfl
@[simp] theorem State.setStatus_acks (s : State) (x : Status) : (s.setStatus x).acks = s.acks := rfl
@[simp] theorem State.setStatus_banks (s : State) (x : Status) : (s.setStatus x).banks = s.banks := rfl
@[simp] theorem State.setStatus_cores (s : State) (x : Status) : (s.setStatus x).cores = s.cores := rfl
@[simp] theorem State.setStatus_clusters (s : State) (x : Status) : (s.setStatus x).clusters = s.clusters := rfl
@[simp] theorem State.setStatus_plewick (s : State) (x : Status) : (s.setStatus x).plewick = s.plewick := rfl
@[simp] theorem State.setStatus_setup (s : State) (x : Status) : (s.setStatus x).setup = s.setup := rfl
@[simp] theorem State.setStatus_time (s : State) (x : Status) : (s.setStatus x).time = s.time := rfl
@[simp] theorem State.setStatus_slew (s : State) (x : Status) : (s.setStatus x).slew = s.slew := rfl
@[simp] theorem State.setStatus_slewCarry (s : State) (x : Status) : (s.setStatus x).slewCarry = s.slewCarry := rfl
@[simp] theorem State.setStatus_slot (s : State) (x : Status) : (s.setStatus x).slot = s.slot := rfl
@[simp] theorem State.setStatus_stopped (s : State) (x : Status) : (s.setStatus x).stopped = s.stopped := rfl
@[simp] theorem State.setStatus_overhead (s : State) (x : Status) : (s.setStatus x).overhead = s.overhead := rfl
@[simp] theorem State.setStatus_agenda (s : State) (x : Status) : (s.setStatus x).agenda = s.agenda := rfl
@[simp] theorem State.setStatus_beat (s : State) (x : Status) : (s.setStatus x).beat = s.beat := rfl
@[simp] theorem State.setStatus_round (s : State) (x : Status) : (s.setStatus x).round = s.round := rfl
@[simp] theorem State.setStatus_free (s : State) (x : Status) : (s.setStatus x).free = s.free := rfl
@[simp] theorem State.setStatus_nextId (s : State) (x : Status) : (s.setStatus x).nextId = s.nextId := rfl

@[simp] theorem State.jump_fold (s : State) (a : Addr) : (s.jump a).fold = s.fold := rfl
@[simp] theorem State.jump_flocks (s : State) (a : Addr) : (s.jump a).flocks = s.flocks := rfl
@[simp] theorem State.jump_folds (s : State) (a : Addr) : (s.jump a).folds = s.folds := rfl
@[simp] theorem State.jump_departed (s : State) (a : Addr) : (s.jump a).departed = s.departed := rfl
@[simp] theorem State.jump_mem (s : State) (a : Addr) : (s.jump a).mem = s.mem := rfl
@[simp] theorem State.jump_remote (s : State) (a : Addr) : (s.jump a).remote = s.remote := rfl
@[simp] theorem State.jump_clean (s : State) (a : Addr) : (s.jump a).clean = s.clean := rfl
@[simp] theorem State.jump_dirty (s : State) (a : Addr) : (s.jump a).dirty = s.dirty := rfl
@[simp] theorem State.jump_used (s : State) (a : Addr) : (s.jump a).used = s.used := rfl
@[simp] theorem State.jump_inFlight (s : State) (a : Addr) : (s.jump a).inFlight = s.inFlight := rfl
@[simp] theorem State.jump_broken (s : State) (a : Addr) : (s.jump a).broken = s.broken := rfl
@[simp] theorem State.jump_tlb (s : State) (a : Addr) : (s.jump a).tlb = s.tlb := rfl
@[simp] theorem State.jump_code (s : State) (a : Addr) : (s.jump a).code = s.code := rfl
@[simp] theorem State.jump_tags (s : State) (a : Addr) : (s.jump a).tags = s.tags := rfl
@[simp] theorem State.jump_contexts (s : State) (a : Addr) : (s.jump a).contexts = s.contexts := rfl
@[simp] theorem State.jump_launches (s : State) (a : Addr) : (s.jump a).launches = s.launches := rfl
@[simp] theorem State.jump_dispatch (s : State) (a : Addr) : (s.jump a).dispatch = s.dispatch := rfl
@[simp] theorem State.jump_jobs (s : State) (a : Addr) : (s.jump a).jobs = s.jobs := rfl
@[simp] theorem State.jump_bgTurn (s : State) (a : Addr) : (s.jump a).bgTurn = s.bgTurn := rfl
@[simp] theorem State.jump_commands (s : State) (a : Addr) : (s.jump a).commands = s.commands := rfl
@[simp] theorem State.jump_saved (s : State) (a : Addr) : (s.jump a).saved = s.saved := rfl
@[simp] theorem State.jump_parked (s : State) (a : Addr) : (s.jump a).parked = s.parked := rfl
@[simp] theorem State.jump_snapshots (s : State) (a : Addr) : (s.jump a).snapshots = s.snapshots := rfl
@[simp] theorem State.jump_combining (s : State) (a : Addr) : (s.jump a).combining = s.combining := rfl
@[simp] theorem State.jump_peers (s : State) (a : Addr) : (s.jump a).peers = s.peers := rfl
@[simp] theorem State.jump_acks (s : State) (a : Addr) : (s.jump a).acks = s.acks := rfl
@[simp] theorem State.jump_banks (s : State) (a : Addr) : (s.jump a).banks = s.banks := rfl
@[simp] theorem State.jump_cores (s : State) (a : Addr) : (s.jump a).cores = s.cores := rfl
@[simp] theorem State.jump_clusters (s : State) (a : Addr) : (s.jump a).clusters = s.clusters := rfl
@[simp] theorem State.jump_plewick (s : State) (a : Addr) : (s.jump a).plewick = s.plewick := rfl
@[simp] theorem State.jump_setup (s : State) (a : Addr) : (s.jump a).setup = s.setup := rfl
@[simp] theorem State.jump_time (s : State) (a : Addr) : (s.jump a).time = s.time := rfl
@[simp] theorem State.jump_slew (s : State) (a : Addr) : (s.jump a).slew = s.slew := rfl
@[simp] theorem State.jump_slewCarry (s : State) (a : Addr) : (s.jump a).slewCarry = s.slewCarry := rfl
@[simp] theorem State.jump_slot (s : State) (a : Addr) : (s.jump a).slot = s.slot := rfl
@[simp] theorem State.jump_stopped (s : State) (a : Addr) : (s.jump a).stopped = s.stopped := rfl
@[simp] theorem State.jump_overhead (s : State) (a : Addr) : (s.jump a).overhead = s.overhead := rfl
@[simp] theorem State.jump_agenda (s : State) (a : Addr) : (s.jump a).agenda = s.agenda := rfl
@[simp] theorem State.jump_beat (s : State) (a : Addr) : (s.jump a).beat = s.beat := rfl
@[simp] theorem State.jump_round (s : State) (a : Addr) : (s.jump a).round = s.round := rfl
@[simp] theorem State.jump_free (s : State) (a : Addr) : (s.jump a).free = s.free := rfl
@[simp] theorem State.jump_nextId (s : State) (a : Addr) : (s.jump a).nextId = s.nextId := rfl

@[simp] theorem State.goOn_fold (s : State) (n : Nat) : (s.goOn n).fold = s.fold := rfl
@[simp] theorem State.goOn_flocks (s : State) (n : Nat) : (s.goOn n).flocks = s.flocks := rfl
@[simp] theorem State.goOn_folds (s : State) (n : Nat) : (s.goOn n).folds = s.folds := rfl
@[simp] theorem State.goOn_departed (s : State) (n : Nat) : (s.goOn n).departed = s.departed := rfl
@[simp] theorem State.goOn_mem (s : State) (n : Nat) : (s.goOn n).mem = s.mem := rfl
@[simp] theorem State.goOn_remote (s : State) (n : Nat) : (s.goOn n).remote = s.remote := rfl
@[simp] theorem State.goOn_clean (s : State) (n : Nat) : (s.goOn n).clean = s.clean := rfl
@[simp] theorem State.goOn_dirty (s : State) (n : Nat) : (s.goOn n).dirty = s.dirty := rfl
@[simp] theorem State.goOn_used (s : State) (n : Nat) : (s.goOn n).used = s.used := rfl
@[simp] theorem State.goOn_inFlight (s : State) (n : Nat) : (s.goOn n).inFlight = s.inFlight := rfl
@[simp] theorem State.goOn_broken (s : State) (n : Nat) : (s.goOn n).broken = s.broken := rfl
@[simp] theorem State.goOn_tlb (s : State) (n : Nat) : (s.goOn n).tlb = s.tlb := rfl
@[simp] theorem State.goOn_code (s : State) (n : Nat) : (s.goOn n).code = s.code := rfl
@[simp] theorem State.goOn_tags (s : State) (n : Nat) : (s.goOn n).tags = s.tags := rfl
@[simp] theorem State.goOn_contexts (s : State) (n : Nat) : (s.goOn n).contexts = s.contexts := rfl
@[simp] theorem State.goOn_launches (s : State) (n : Nat) : (s.goOn n).launches = s.launches := rfl
@[simp] theorem State.goOn_dispatch (s : State) (n : Nat) : (s.goOn n).dispatch = s.dispatch := rfl
@[simp] theorem State.goOn_jobs (s : State) (n : Nat) : (s.goOn n).jobs = s.jobs := rfl
@[simp] theorem State.goOn_bgTurn (s : State) (n : Nat) : (s.goOn n).bgTurn = s.bgTurn := rfl
@[simp] theorem State.goOn_commands (s : State) (n : Nat) : (s.goOn n).commands = s.commands := rfl
@[simp] theorem State.goOn_saved (s : State) (n : Nat) : (s.goOn n).saved = s.saved := rfl
@[simp] theorem State.goOn_parked (s : State) (n : Nat) : (s.goOn n).parked = s.parked := rfl
@[simp] theorem State.goOn_snapshots (s : State) (n : Nat) : (s.goOn n).snapshots = s.snapshots := rfl
@[simp] theorem State.goOn_combining (s : State) (n : Nat) : (s.goOn n).combining = s.combining := rfl
@[simp] theorem State.goOn_peers (s : State) (n : Nat) : (s.goOn n).peers = s.peers := rfl
@[simp] theorem State.goOn_acks (s : State) (n : Nat) : (s.goOn n).acks = s.acks := rfl
@[simp] theorem State.goOn_banks (s : State) (n : Nat) : (s.goOn n).banks = s.banks := rfl
@[simp] theorem State.goOn_cores (s : State) (n : Nat) : (s.goOn n).cores = s.cores := rfl
@[simp] theorem State.goOn_clusters (s : State) (n : Nat) : (s.goOn n).clusters = s.clusters := rfl
@[simp] theorem State.goOn_plewick (s : State) (n : Nat) : (s.goOn n).plewick = s.plewick := rfl
@[simp] theorem State.goOn_setup (s : State) (n : Nat) : (s.goOn n).setup = s.setup := rfl
@[simp] theorem State.goOn_time (s : State) (n : Nat) : (s.goOn n).time = s.time := rfl
@[simp] theorem State.goOn_slew (s : State) (n : Nat) : (s.goOn n).slew = s.slew := rfl
@[simp] theorem State.goOn_slewCarry (s : State) (n : Nat) : (s.goOn n).slewCarry = s.slewCarry := rfl
@[simp] theorem State.goOn_slot (s : State) (n : Nat) : (s.goOn n).slot = s.slot := rfl
@[simp] theorem State.goOn_stopped (s : State) (n : Nat) : (s.goOn n).stopped = s.stopped := rfl
@[simp] theorem State.goOn_overhead (s : State) (n : Nat) : (s.goOn n).overhead = s.overhead := rfl
@[simp] theorem State.goOn_agenda (s : State) (n : Nat) : (s.goOn n).agenda = s.agenda := rfl
@[simp] theorem State.goOn_beat (s : State) (n : Nat) : (s.goOn n).beat = s.beat := rfl
@[simp] theorem State.goOn_round (s : State) (n : Nat) : (s.goOn n).round = s.round := rfl
@[simp] theorem State.goOn_free (s : State) (n : Nat) : (s.goOn n).free = s.free := rfl
@[simp] theorem State.goOn_nextId (s : State) (n : Nat) : (s.goOn n).nextId = s.nextId := rfl

@[simp] theorem State.advance_fold (s : State) : (s.advance).fold = s.fold := rfl
@[simp] theorem State.advance_flocks (s : State) : (s.advance).flocks = s.flocks := rfl
@[simp] theorem State.advance_folds (s : State) : (s.advance).folds = s.folds := rfl
@[simp] theorem State.advance_departed (s : State) : (s.advance).departed = s.departed := rfl
@[simp] theorem State.advance_mem (s : State) : (s.advance).mem = s.mem := rfl
@[simp] theorem State.advance_remote (s : State) : (s.advance).remote = s.remote := rfl
@[simp] theorem State.advance_clean (s : State) : (s.advance).clean = s.clean := rfl
@[simp] theorem State.advance_dirty (s : State) : (s.advance).dirty = s.dirty := rfl
@[simp] theorem State.advance_used (s : State) : (s.advance).used = s.used := rfl
@[simp] theorem State.advance_inFlight (s : State) : (s.advance).inFlight = s.inFlight := rfl
@[simp] theorem State.advance_broken (s : State) : (s.advance).broken = s.broken := rfl
@[simp] theorem State.advance_tlb (s : State) : (s.advance).tlb = s.tlb := rfl
@[simp] theorem State.advance_code (s : State) : (s.advance).code = s.code := rfl
@[simp] theorem State.advance_tags (s : State) : (s.advance).tags = s.tags := rfl
@[simp] theorem State.advance_contexts (s : State) : (s.advance).contexts = s.contexts := rfl
@[simp] theorem State.advance_launches (s : State) : (s.advance).launches = s.launches := rfl
@[simp] theorem State.advance_dispatch (s : State) : (s.advance).dispatch = s.dispatch := rfl
@[simp] theorem State.advance_jobs (s : State) : (s.advance).jobs = s.jobs := rfl
@[simp] theorem State.advance_bgTurn (s : State) : (s.advance).bgTurn = s.bgTurn := rfl
@[simp] theorem State.advance_commands (s : State) : (s.advance).commands = s.commands := rfl
@[simp] theorem State.advance_saved (s : State) : (s.advance).saved = s.saved := rfl
@[simp] theorem State.advance_parked (s : State) : (s.advance).parked = s.parked := rfl
@[simp] theorem State.advance_snapshots (s : State) : (s.advance).snapshots = s.snapshots := rfl
@[simp] theorem State.advance_combining (s : State) : (s.advance).combining = s.combining := rfl
@[simp] theorem State.advance_peers (s : State) : (s.advance).peers = s.peers := rfl
@[simp] theorem State.advance_acks (s : State) : (s.advance).acks = s.acks := rfl
@[simp] theorem State.advance_banks (s : State) : (s.advance).banks = s.banks := rfl
@[simp] theorem State.advance_cores (s : State) : (s.advance).cores = s.cores := rfl
@[simp] theorem State.advance_clusters (s : State) : (s.advance).clusters = s.clusters := rfl
@[simp] theorem State.advance_plewick (s : State) : (s.advance).plewick = s.plewick := rfl
@[simp] theorem State.advance_setup (s : State) : (s.advance).setup = s.setup := rfl
@[simp] theorem State.advance_time (s : State) : (s.advance).time = s.time := rfl
@[simp] theorem State.advance_slew (s : State) : (s.advance).slew = s.slew := rfl
@[simp] theorem State.advance_slewCarry (s : State) : (s.advance).slewCarry = s.slewCarry := rfl
@[simp] theorem State.advance_slot (s : State) : (s.advance).slot = s.slot := rfl
@[simp] theorem State.advance_stopped (s : State) : (s.advance).stopped = s.stopped := rfl
@[simp] theorem State.advance_overhead (s : State) : (s.advance).overhead = s.overhead := rfl
@[simp] theorem State.advance_agenda (s : State) : (s.advance).agenda = s.agenda := rfl
@[simp] theorem State.advance_beat (s : State) : (s.advance).beat = s.beat := rfl
@[simp] theorem State.advance_round (s : State) : (s.advance).round = s.round := rfl
@[simp] theorem State.advance_free (s : State) : (s.advance).free = s.free := rfl
@[simp] theorem State.advance_nextId (s : State) : (s.advance).nextId = s.nextId := rfl

@[simp] theorem State.putP_fold (s : State) (r : BitVec 3) (x : Mask) : (s.putP r x).fold = s.fold := rfl
@[simp] theorem State.putP_flocks (s : State) (r : BitVec 3) (x : Mask) : (s.putP r x).flocks = s.flocks := rfl
@[simp] theorem State.putP_folds (s : State) (r : BitVec 3) (x : Mask) : (s.putP r x).folds = s.folds := rfl
@[simp] theorem State.putP_departed (s : State) (r : BitVec 3) (x : Mask) : (s.putP r x).departed = s.departed := rfl
@[simp] theorem State.putP_mem (s : State) (r : BitVec 3) (x : Mask) : (s.putP r x).mem = s.mem := rfl
@[simp] theorem State.putP_remote (s : State) (r : BitVec 3) (x : Mask) : (s.putP r x).remote = s.remote := rfl
@[simp] theorem State.putP_clean (s : State) (r : BitVec 3) (x : Mask) : (s.putP r x).clean = s.clean := rfl
@[simp] theorem State.putP_dirty (s : State) (r : BitVec 3) (x : Mask) : (s.putP r x).dirty = s.dirty := rfl
@[simp] theorem State.putP_used (s : State) (r : BitVec 3) (x : Mask) : (s.putP r x).used = s.used := rfl
@[simp] theorem State.putP_inFlight (s : State) (r : BitVec 3) (x : Mask) : (s.putP r x).inFlight = s.inFlight := rfl
@[simp] theorem State.putP_broken (s : State) (r : BitVec 3) (x : Mask) : (s.putP r x).broken = s.broken := rfl
@[simp] theorem State.putP_tlb (s : State) (r : BitVec 3) (x : Mask) : (s.putP r x).tlb = s.tlb := rfl
@[simp] theorem State.putP_code (s : State) (r : BitVec 3) (x : Mask) : (s.putP r x).code = s.code := rfl
@[simp] theorem State.putP_tags (s : State) (r : BitVec 3) (x : Mask) : (s.putP r x).tags = s.tags := rfl
@[simp] theorem State.putP_contexts (s : State) (r : BitVec 3) (x : Mask) : (s.putP r x).contexts = s.contexts := rfl
@[simp] theorem State.putP_launches (s : State) (r : BitVec 3) (x : Mask) : (s.putP r x).launches = s.launches := rfl
@[simp] theorem State.putP_dispatch (s : State) (r : BitVec 3) (x : Mask) : (s.putP r x).dispatch = s.dispatch := rfl
@[simp] theorem State.putP_jobs (s : State) (r : BitVec 3) (x : Mask) : (s.putP r x).jobs = s.jobs := rfl
@[simp] theorem State.putP_bgTurn (s : State) (r : BitVec 3) (x : Mask) : (s.putP r x).bgTurn = s.bgTurn := rfl
@[simp] theorem State.putP_commands (s : State) (r : BitVec 3) (x : Mask) : (s.putP r x).commands = s.commands := rfl
@[simp] theorem State.putP_saved (s : State) (r : BitVec 3) (x : Mask) : (s.putP r x).saved = s.saved := rfl
@[simp] theorem State.putP_parked (s : State) (r : BitVec 3) (x : Mask) : (s.putP r x).parked = s.parked := rfl
@[simp] theorem State.putP_snapshots (s : State) (r : BitVec 3) (x : Mask) : (s.putP r x).snapshots = s.snapshots := rfl
@[simp] theorem State.putP_combining (s : State) (r : BitVec 3) (x : Mask) : (s.putP r x).combining = s.combining := rfl
@[simp] theorem State.putP_peers (s : State) (r : BitVec 3) (x : Mask) : (s.putP r x).peers = s.peers := rfl
@[simp] theorem State.putP_acks (s : State) (r : BitVec 3) (x : Mask) : (s.putP r x).acks = s.acks := rfl
@[simp] theorem State.putP_banks (s : State) (r : BitVec 3) (x : Mask) : (s.putP r x).banks = s.banks := rfl
@[simp] theorem State.putP_cores (s : State) (r : BitVec 3) (x : Mask) : (s.putP r x).cores = s.cores := rfl
@[simp] theorem State.putP_clusters (s : State) (r : BitVec 3) (x : Mask) : (s.putP r x).clusters = s.clusters := rfl
@[simp] theorem State.putP_plewick (s : State) (r : BitVec 3) (x : Mask) : (s.putP r x).plewick = s.plewick := rfl
@[simp] theorem State.putP_setup (s : State) (r : BitVec 3) (x : Mask) : (s.putP r x).setup = s.setup := rfl
@[simp] theorem State.putP_time (s : State) (r : BitVec 3) (x : Mask) : (s.putP r x).time = s.time := rfl
@[simp] theorem State.putP_slew (s : State) (r : BitVec 3) (x : Mask) : (s.putP r x).slew = s.slew := rfl
@[simp] theorem State.putP_slewCarry (s : State) (r : BitVec 3) (x : Mask) : (s.putP r x).slewCarry = s.slewCarry := rfl
@[simp] theorem State.putP_slot (s : State) (r : BitVec 3) (x : Mask) : (s.putP r x).slot = s.slot := rfl
@[simp] theorem State.putP_stopped (s : State) (r : BitVec 3) (x : Mask) : (s.putP r x).stopped = s.stopped := rfl
@[simp] theorem State.putP_overhead (s : State) (r : BitVec 3) (x : Mask) : (s.putP r x).overhead = s.overhead := rfl
@[simp] theorem State.putP_agenda (s : State) (r : BitVec 3) (x : Mask) : (s.putP r x).agenda = s.agenda := rfl
@[simp] theorem State.putP_beat (s : State) (r : BitVec 3) (x : Mask) : (s.putP r x).beat = s.beat := rfl
@[simp] theorem State.putP_round (s : State) (r : BitVec 3) (x : Mask) : (s.putP r x).round = s.round := rfl
@[simp] theorem State.putP_free (s : State) (r : BitVec 3) (x : Mask) : (s.putP r x).free = s.free := rfl
@[simp] theorem State.putP_nextId (s : State) (r : BitVec 3) (x : Mask) : (s.putP r x).nextId = s.nextId := rfl

@[simp] theorem State.draw_cur (s : State) (n : Nat) : ((s.draw n).2).cur = s.cur := rfl
@[simp] theorem State.draw_fold (s : State) (n : Nat) : ((s.draw n).2).fold = s.fold := rfl
@[simp] theorem State.draw_flocks (s : State) (n : Nat) : ((s.draw n).2).flocks = s.flocks := rfl
@[simp] theorem State.draw_folds (s : State) (n : Nat) : ((s.draw n).2).folds = s.folds := rfl
@[simp] theorem State.draw_departed (s : State) (n : Nat) : ((s.draw n).2).departed = s.departed := rfl
@[simp] theorem State.draw_mem (s : State) (n : Nat) : ((s.draw n).2).mem = s.mem := rfl
@[simp] theorem State.draw_remote (s : State) (n : Nat) : ((s.draw n).2).remote = s.remote := rfl
@[simp] theorem State.draw_clean (s : State) (n : Nat) : ((s.draw n).2).clean = s.clean := rfl
@[simp] theorem State.draw_dirty (s : State) (n : Nat) : ((s.draw n).2).dirty = s.dirty := rfl
@[simp] theorem State.draw_used (s : State) (n : Nat) : ((s.draw n).2).used = s.used := rfl
@[simp] theorem State.draw_inFlight (s : State) (n : Nat) : ((s.draw n).2).inFlight = s.inFlight := rfl
@[simp] theorem State.draw_broken (s : State) (n : Nat) : ((s.draw n).2).broken = s.broken := rfl
@[simp] theorem State.draw_tlb (s : State) (n : Nat) : ((s.draw n).2).tlb = s.tlb := rfl
@[simp] theorem State.draw_code (s : State) (n : Nat) : ((s.draw n).2).code = s.code := rfl
@[simp] theorem State.draw_tags (s : State) (n : Nat) : ((s.draw n).2).tags = s.tags := rfl
@[simp] theorem State.draw_contexts (s : State) (n : Nat) : ((s.draw n).2).contexts = s.contexts := rfl
@[simp] theorem State.draw_launches (s : State) (n : Nat) : ((s.draw n).2).launches = s.launches := rfl
@[simp] theorem State.draw_dispatch (s : State) (n : Nat) : ((s.draw n).2).dispatch = s.dispatch := rfl
@[simp] theorem State.draw_jobs (s : State) (n : Nat) : ((s.draw n).2).jobs = s.jobs := rfl
@[simp] theorem State.draw_bgTurn (s : State) (n : Nat) : ((s.draw n).2).bgTurn = s.bgTurn := rfl
@[simp] theorem State.draw_commands (s : State) (n : Nat) : ((s.draw n).2).commands = s.commands := rfl
@[simp] theorem State.draw_saved (s : State) (n : Nat) : ((s.draw n).2).saved = s.saved := rfl
@[simp] theorem State.draw_parked (s : State) (n : Nat) : ((s.draw n).2).parked = s.parked := rfl
@[simp] theorem State.draw_snapshots (s : State) (n : Nat) : ((s.draw n).2).snapshots = s.snapshots := rfl
@[simp] theorem State.draw_combining (s : State) (n : Nat) : ((s.draw n).2).combining = s.combining := rfl
@[simp] theorem State.draw_peers (s : State) (n : Nat) : ((s.draw n).2).peers = s.peers := rfl
@[simp] theorem State.draw_acks (s : State) (n : Nat) : ((s.draw n).2).acks = s.acks := rfl
@[simp] theorem State.draw_banks (s : State) (n : Nat) : ((s.draw n).2).banks = s.banks := rfl
@[simp] theorem State.draw_cores (s : State) (n : Nat) : ((s.draw n).2).cores = s.cores := rfl
@[simp] theorem State.draw_clusters (s : State) (n : Nat) : ((s.draw n).2).clusters = s.clusters := rfl
@[simp] theorem State.draw_plewick (s : State) (n : Nat) : ((s.draw n).2).plewick = s.plewick := rfl
@[simp] theorem State.draw_setup (s : State) (n : Nat) : ((s.draw n).2).setup = s.setup := rfl
@[simp] theorem State.draw_time (s : State) (n : Nat) : ((s.draw n).2).time = s.time := rfl
@[simp] theorem State.draw_slew (s : State) (n : Nat) : ((s.draw n).2).slew = s.slew := rfl
@[simp] theorem State.draw_slewCarry (s : State) (n : Nat) : ((s.draw n).2).slewCarry = s.slewCarry := rfl
@[simp] theorem State.draw_slot (s : State) (n : Nat) : ((s.draw n).2).slot = s.slot := rfl
@[simp] theorem State.draw_stopped (s : State) (n : Nat) : ((s.draw n).2).stopped = s.stopped := rfl
@[simp] theorem State.draw_overhead (s : State) (n : Nat) : ((s.draw n).2).overhead = s.overhead := rfl
@[simp] theorem State.draw_agenda (s : State) (n : Nat) : ((s.draw n).2).agenda = s.agenda := rfl
@[simp] theorem State.draw_beat (s : State) (n : Nat) : ((s.draw n).2).beat = s.beat := rfl
@[simp] theorem State.draw_round (s : State) (n : Nat) : ((s.draw n).2).round = s.round := rfl
@[simp] theorem State.draw_nextId (s : State) (n : Nat) : ((s.draw n).2).nextId = s.nextId := rfl

@[simp] theorem Flock.setV_id (f : Flock) (r : BitVec 6) (x : Lanes) : (f.setV r x).id = f.id := rfl
@[simp] theorem Flock.setV_fold (f : Flock) (r : BitVec 6) (x : Lanes) : (f.setV r x).fold = f.fold := rfl
@[simp] theorem Flock.setV_ctx (f : Flock) (r : BitVec 6) (x : Lanes) : (f.setV r x).ctx = f.ctx := rfl
@[simp] theorem Flock.setV_core (f : Flock) (r : BitVec 6) (x : Lanes) : (f.setV r x).core = f.core := rfl
@[simp] theorem Flock.setV_field (f : Flock) (r : BitVec 6) (x : Lanes) : (f.setV r x).field = f.field := rfl
@[simp] theorem Flock.setV_privileged (f : Flock) (r : BitVec 6) (x : Lanes) : (f.setV r x).privileged = f.privileged := rfl
@[simp] theorem Flock.setV_secure (f : Flock) (r : BitVec 6) (x : Lanes) : (f.setV r x).secure = f.secure := rfl
@[simp] theorem Flock.setV_s (f : Flock) (r : BitVec 6) (x : Lanes) : (f.setV r x).s = f.s := rfl
@[simp] theorem Flock.setV_a (f : Flock) (r : BitVec 6) (x : Lanes) : (f.setV r x).a = f.a := rfl
@[simp] theorem Flock.setV_p (f : Flock) (r : BitVec 6) (x : Lanes) : (f.setV r x).p = f.p := rfl
@[simp] theorem Flock.setV_em (f : Flock) (r : BitVec 6) (x : Lanes) : (f.setV r x).em = f.em := rfl
@[simp] theorem Flock.setV_fcr (f : Flock) (r : BitVec 6) (x : Lanes) : (f.setV r x).fcr = f.fcr := rfl
@[simp] theorem Flock.setV_loops (f : Flock) (r : BitVec 6) (x : Lanes) : (f.setV r x).loops = f.loops := rfl
@[simp] theorem Flock.setV_td (f : Flock) (r : BitVec 6) (x : Lanes) : (f.setV r x).td = f.td := rfl
@[simp] theorem Flock.setV_queues (f : Flock) (r : BitVec 6) (x : Lanes) : (f.setV r x).queues = f.queues := rfl
@[simp] theorem Flock.setV_pc (f : Flock) (r : BitVec 6) (x : Lanes) : (f.setV r x).pc = f.pc := rfl
@[simp] theorem Flock.setV_pend (f : Flock) (r : BitVec 6) (x : Lanes) : (f.setV r x).pend = f.pend := rfl
@[simp] theorem Flock.setV_unfenced (f : Flock) (r : BitVec 6) (x : Lanes) : (f.setV r x).unfenced = f.unfenced := rfl
@[simp] theorem Flock.setV_monitor (f : Flock) (r : BitVec 6) (x : Lanes) : (f.setV r x).monitor = f.monitor := rfl
@[simp] theorem Flock.setV_waitedAt (f : Flock) (r : BitVec 6) (x : Lanes) : (f.setV r x).waitedAt = f.waitedAt := rfl
@[simp] theorem Flock.setV_wakePending (f : Flock) (r : BitVec 6) (x : Lanes) : (f.setV r x).wakePending = f.wakePending := rfl
@[simp] theorem Flock.setV_wakes (f : Flock) (r : BitVec 6) (x : Lanes) : (f.setV r x).wakes = f.wakes := rfl
@[simp] theorem Flock.setV_epc (f : Flock) (r : BitVec 6) (x : Lanes) : (f.setV r x).epc = f.epc := rfl
@[simp] theorem Flock.setV_ecause (f : Flock) (r : BitVec 6) (x : Lanes) : (f.setV r x).ecause = f.ecause := rfl
@[simp] theorem Flock.setV_faddr (f : Flock) (r : BitVec 6) (x : Lanes) : (f.setV r x).faddr = f.faddr := rfl
@[simp] theorem Flock.setV_dpc (f : Flock) (r : BitVec 6) (x : Lanes) : (f.setV r x).dpc = f.dpc := rfl
@[simp] theorem Flock.setV_tinfo (f : Flock) (r : BitVec 6) (x : Lanes) : (f.setV r x).tinfo = f.tinfo := rfl
@[simp] theorem Flock.setV_routine (f : Flock) (r : BitVec 6) (x : Lanes) : (f.setV r x).routine = f.routine := rfl
@[simp] theorem Flock.setV_entered (f : Flock) (r : BitVec 6) (x : Lanes) : (f.setV r x).entered = f.entered := rfl
@[simp] theorem Flock.setV_entries (f : Flock) (r : BitVec 6) (x : Lanes) : (f.setV r x).entries = f.entries := rfl
@[simp] theorem Flock.setV_preempt (f : Flock) (r : BitVec 6) (x : Lanes) : (f.setV r x).preempt = f.preempt := rfl
@[simp] theorem Flock.setV_key (f : Flock) (r : BitVec 6) (x : Lanes) : (f.setV r x).key = f.key := rfl
@[simp] theorem Flock.setV_draw (f : Flock) (r : BitVec 6) (x : Lanes) : (f.setV r x).draw = f.draw := rfl
@[simp] theorem Flock.setV_est (f : Flock) (r : BitVec 6) (x : Lanes) : (f.setV r x).est = f.est := rfl
@[simp] theorem Flock.setV_ttag (f : Flock) (r : BitVec 6) (x : Lanes) : (f.setV r x).ttag = f.ttag := rfl
@[simp] theorem Flock.setV_deferred (f : Flock) (r : BitVec 6) (x : Lanes) : (f.setV r x).deferred = f.deferred := rfl
@[simp] theorem Flock.setV_buf (f : Flock) (r : BitVec 6) (x : Lanes) : (f.setV r x).buf = f.buf := rfl
@[simp] theorem Flock.setV_status (f : Flock) (r : BitVec 6) (x : Lanes) : (f.setV r x).status = f.status := rfl

@[simp] theorem Flock.setS_id (f : Flock) (r : BitVec 5) (x : DWord) : (f.setS r x).id = f.id := by unfold Flock.setS; split <;> rfl
@[simp] theorem Flock.setS_fold (f : Flock) (r : BitVec 5) (x : DWord) : (f.setS r x).fold = f.fold := by unfold Flock.setS; split <;> rfl
@[simp] theorem Flock.setS_ctx (f : Flock) (r : BitVec 5) (x : DWord) : (f.setS r x).ctx = f.ctx := by unfold Flock.setS; split <;> rfl
@[simp] theorem Flock.setS_core (f : Flock) (r : BitVec 5) (x : DWord) : (f.setS r x).core = f.core := by unfold Flock.setS; split <;> rfl
@[simp] theorem Flock.setS_field (f : Flock) (r : BitVec 5) (x : DWord) : (f.setS r x).field = f.field := by unfold Flock.setS; split <;> rfl
@[simp] theorem Flock.setS_privileged (f : Flock) (r : BitVec 5) (x : DWord) : (f.setS r x).privileged = f.privileged := by unfold Flock.setS; split <;> rfl
@[simp] theorem Flock.setS_secure (f : Flock) (r : BitVec 5) (x : DWord) : (f.setS r x).secure = f.secure := by unfold Flock.setS; split <;> rfl
@[simp] theorem Flock.setS_v (f : Flock) (r : BitVec 5) (x : DWord) : (f.setS r x).v = f.v := by unfold Flock.setS; split <;> rfl
@[simp] theorem Flock.setS_a (f : Flock) (r : BitVec 5) (x : DWord) : (f.setS r x).a = f.a := by unfold Flock.setS; split <;> rfl
@[simp] theorem Flock.setS_p (f : Flock) (r : BitVec 5) (x : DWord) : (f.setS r x).p = f.p := by unfold Flock.setS; split <;> rfl
@[simp] theorem Flock.setS_em (f : Flock) (r : BitVec 5) (x : DWord) : (f.setS r x).em = f.em := by unfold Flock.setS; split <;> rfl
@[simp] theorem Flock.setS_fcr (f : Flock) (r : BitVec 5) (x : DWord) : (f.setS r x).fcr = f.fcr := by unfold Flock.setS; split <;> rfl
@[simp] theorem Flock.setS_loops (f : Flock) (r : BitVec 5) (x : DWord) : (f.setS r x).loops = f.loops := by unfold Flock.setS; split <;> rfl
@[simp] theorem Flock.setS_td (f : Flock) (r : BitVec 5) (x : DWord) : (f.setS r x).td = f.td := by unfold Flock.setS; split <;> rfl
@[simp] theorem Flock.setS_queues (f : Flock) (r : BitVec 5) (x : DWord) : (f.setS r x).queues = f.queues := by unfold Flock.setS; split <;> rfl
@[simp] theorem Flock.setS_pc (f : Flock) (r : BitVec 5) (x : DWord) : (f.setS r x).pc = f.pc := by unfold Flock.setS; split <;> rfl
@[simp] theorem Flock.setS_pend (f : Flock) (r : BitVec 5) (x : DWord) : (f.setS r x).pend = f.pend := by unfold Flock.setS; split <;> rfl
@[simp] theorem Flock.setS_unfenced (f : Flock) (r : BitVec 5) (x : DWord) : (f.setS r x).unfenced = f.unfenced := by unfold Flock.setS; split <;> rfl
@[simp] theorem Flock.setS_monitor (f : Flock) (r : BitVec 5) (x : DWord) : (f.setS r x).monitor = f.monitor := by unfold Flock.setS; split <;> rfl
@[simp] theorem Flock.setS_waitedAt (f : Flock) (r : BitVec 5) (x : DWord) : (f.setS r x).waitedAt = f.waitedAt := by unfold Flock.setS; split <;> rfl
@[simp] theorem Flock.setS_wakePending (f : Flock) (r : BitVec 5) (x : DWord) : (f.setS r x).wakePending = f.wakePending := by unfold Flock.setS; split <;> rfl
@[simp] theorem Flock.setS_wakes (f : Flock) (r : BitVec 5) (x : DWord) : (f.setS r x).wakes = f.wakes := by unfold Flock.setS; split <;> rfl
@[simp] theorem Flock.setS_epc (f : Flock) (r : BitVec 5) (x : DWord) : (f.setS r x).epc = f.epc := by unfold Flock.setS; split <;> rfl
@[simp] theorem Flock.setS_ecause (f : Flock) (r : BitVec 5) (x : DWord) : (f.setS r x).ecause = f.ecause := by unfold Flock.setS; split <;> rfl
@[simp] theorem Flock.setS_faddr (f : Flock) (r : BitVec 5) (x : DWord) : (f.setS r x).faddr = f.faddr := by unfold Flock.setS; split <;> rfl
@[simp] theorem Flock.setS_dpc (f : Flock) (r : BitVec 5) (x : DWord) : (f.setS r x).dpc = f.dpc := by unfold Flock.setS; split <;> rfl
@[simp] theorem Flock.setS_tinfo (f : Flock) (r : BitVec 5) (x : DWord) : (f.setS r x).tinfo = f.tinfo := by unfold Flock.setS; split <;> rfl
@[simp] theorem Flock.setS_routine (f : Flock) (r : BitVec 5) (x : DWord) : (f.setS r x).routine = f.routine := by unfold Flock.setS; split <;> rfl
@[simp] theorem Flock.setS_entered (f : Flock) (r : BitVec 5) (x : DWord) : (f.setS r x).entered = f.entered := by unfold Flock.setS; split <;> rfl
@[simp] theorem Flock.setS_entries (f : Flock) (r : BitVec 5) (x : DWord) : (f.setS r x).entries = f.entries := by unfold Flock.setS; split <;> rfl
@[simp] theorem Flock.setS_preempt (f : Flock) (r : BitVec 5) (x : DWord) : (f.setS r x).preempt = f.preempt := by unfold Flock.setS; split <;> rfl
@[simp] theorem Flock.setS_key (f : Flock) (r : BitVec 5) (x : DWord) : (f.setS r x).key = f.key := by unfold Flock.setS; split <;> rfl
@[simp] theorem Flock.setS_draw (f : Flock) (r : BitVec 5) (x : DWord) : (f.setS r x).draw = f.draw := by unfold Flock.setS; split <;> rfl
@[simp] theorem Flock.setS_est (f : Flock) (r : BitVec 5) (x : DWord) : (f.setS r x).est = f.est := by unfold Flock.setS; split <;> rfl
@[simp] theorem Flock.setS_ttag (f : Flock) (r : BitVec 5) (x : DWord) : (f.setS r x).ttag = f.ttag := by unfold Flock.setS; split <;> rfl
@[simp] theorem Flock.setS_deferred (f : Flock) (r : BitVec 5) (x : DWord) : (f.setS r x).deferred = f.deferred := by unfold Flock.setS; split <;> rfl
@[simp] theorem Flock.setS_buf (f : Flock) (r : BitVec 5) (x : DWord) : (f.setS r x).buf = f.buf := by unfold Flock.setS; split <;> rfl
@[simp] theorem Flock.setS_status (f : Flock) (r : BitVec 5) (x : DWord) : (f.setS r x).status = f.status := by unfold Flock.setS; split <;> rfl

@[simp] theorem Flock.setA_id (f : Flock) (r : BitVec 4) (x : Addr) : (f.setA r x).id = f.id := by unfold Flock.setA; split <;> rfl
@[simp] theorem Flock.setA_fold (f : Flock) (r : BitVec 4) (x : Addr) : (f.setA r x).fold = f.fold := by unfold Flock.setA; split <;> rfl
@[simp] theorem Flock.setA_ctx (f : Flock) (r : BitVec 4) (x : Addr) : (f.setA r x).ctx = f.ctx := by unfold Flock.setA; split <;> rfl
@[simp] theorem Flock.setA_core (f : Flock) (r : BitVec 4) (x : Addr) : (f.setA r x).core = f.core := by unfold Flock.setA; split <;> rfl
@[simp] theorem Flock.setA_field (f : Flock) (r : BitVec 4) (x : Addr) : (f.setA r x).field = f.field := by unfold Flock.setA; split <;> rfl
@[simp] theorem Flock.setA_privileged (f : Flock) (r : BitVec 4) (x : Addr) : (f.setA r x).privileged = f.privileged := by unfold Flock.setA; split <;> rfl
@[simp] theorem Flock.setA_secure (f : Flock) (r : BitVec 4) (x : Addr) : (f.setA r x).secure = f.secure := by unfold Flock.setA; split <;> rfl
@[simp] theorem Flock.setA_v (f : Flock) (r : BitVec 4) (x : Addr) : (f.setA r x).v = f.v := by unfold Flock.setA; split <;> rfl
@[simp] theorem Flock.setA_s (f : Flock) (r : BitVec 4) (x : Addr) : (f.setA r x).s = f.s := by unfold Flock.setA; split <;> rfl
@[simp] theorem Flock.setA_p (f : Flock) (r : BitVec 4) (x : Addr) : (f.setA r x).p = f.p := by unfold Flock.setA; split <;> rfl
@[simp] theorem Flock.setA_em (f : Flock) (r : BitVec 4) (x : Addr) : (f.setA r x).em = f.em := by unfold Flock.setA; split <;> rfl
@[simp] theorem Flock.setA_fcr (f : Flock) (r : BitVec 4) (x : Addr) : (f.setA r x).fcr = f.fcr := by unfold Flock.setA; split <;> rfl
@[simp] theorem Flock.setA_loops (f : Flock) (r : BitVec 4) (x : Addr) : (f.setA r x).loops = f.loops := by unfold Flock.setA; split <;> rfl
@[simp] theorem Flock.setA_td (f : Flock) (r : BitVec 4) (x : Addr) : (f.setA r x).td = f.td := by unfold Flock.setA; split <;> rfl
@[simp] theorem Flock.setA_queues (f : Flock) (r : BitVec 4) (x : Addr) : (f.setA r x).queues = f.queues := by unfold Flock.setA; split <;> rfl
@[simp] theorem Flock.setA_pc (f : Flock) (r : BitVec 4) (x : Addr) : (f.setA r x).pc = f.pc := by unfold Flock.setA; split <;> rfl
@[simp] theorem Flock.setA_pend (f : Flock) (r : BitVec 4) (x : Addr) : (f.setA r x).pend = f.pend := by unfold Flock.setA; split <;> rfl
@[simp] theorem Flock.setA_unfenced (f : Flock) (r : BitVec 4) (x : Addr) : (f.setA r x).unfenced = f.unfenced := by unfold Flock.setA; split <;> rfl
@[simp] theorem Flock.setA_monitor (f : Flock) (r : BitVec 4) (x : Addr) : (f.setA r x).monitor = f.monitor := by unfold Flock.setA; split <;> rfl
@[simp] theorem Flock.setA_waitedAt (f : Flock) (r : BitVec 4) (x : Addr) : (f.setA r x).waitedAt = f.waitedAt := by unfold Flock.setA; split <;> rfl
@[simp] theorem Flock.setA_wakePending (f : Flock) (r : BitVec 4) (x : Addr) : (f.setA r x).wakePending = f.wakePending := by unfold Flock.setA; split <;> rfl
@[simp] theorem Flock.setA_wakes (f : Flock) (r : BitVec 4) (x : Addr) : (f.setA r x).wakes = f.wakes := by unfold Flock.setA; split <;> rfl
@[simp] theorem Flock.setA_epc (f : Flock) (r : BitVec 4) (x : Addr) : (f.setA r x).epc = f.epc := by unfold Flock.setA; split <;> rfl
@[simp] theorem Flock.setA_ecause (f : Flock) (r : BitVec 4) (x : Addr) : (f.setA r x).ecause = f.ecause := by unfold Flock.setA; split <;> rfl
@[simp] theorem Flock.setA_faddr (f : Flock) (r : BitVec 4) (x : Addr) : (f.setA r x).faddr = f.faddr := by unfold Flock.setA; split <;> rfl
@[simp] theorem Flock.setA_dpc (f : Flock) (r : BitVec 4) (x : Addr) : (f.setA r x).dpc = f.dpc := by unfold Flock.setA; split <;> rfl
@[simp] theorem Flock.setA_tinfo (f : Flock) (r : BitVec 4) (x : Addr) : (f.setA r x).tinfo = f.tinfo := by unfold Flock.setA; split <;> rfl
@[simp] theorem Flock.setA_routine (f : Flock) (r : BitVec 4) (x : Addr) : (f.setA r x).routine = f.routine := by unfold Flock.setA; split <;> rfl
@[simp] theorem Flock.setA_entered (f : Flock) (r : BitVec 4) (x : Addr) : (f.setA r x).entered = f.entered := by unfold Flock.setA; split <;> rfl
@[simp] theorem Flock.setA_entries (f : Flock) (r : BitVec 4) (x : Addr) : (f.setA r x).entries = f.entries := by unfold Flock.setA; split <;> rfl
@[simp] theorem Flock.setA_preempt (f : Flock) (r : BitVec 4) (x : Addr) : (f.setA r x).preempt = f.preempt := by unfold Flock.setA; split <;> rfl
@[simp] theorem Flock.setA_key (f : Flock) (r : BitVec 4) (x : Addr) : (f.setA r x).key = f.key := by unfold Flock.setA; split <;> rfl
@[simp] theorem Flock.setA_draw (f : Flock) (r : BitVec 4) (x : Addr) : (f.setA r x).draw = f.draw := by unfold Flock.setA; split <;> rfl
@[simp] theorem Flock.setA_est (f : Flock) (r : BitVec 4) (x : Addr) : (f.setA r x).est = f.est := by unfold Flock.setA; split <;> rfl
@[simp] theorem Flock.setA_ttag (f : Flock) (r : BitVec 4) (x : Addr) : (f.setA r x).ttag = f.ttag := by unfold Flock.setA; split <;> rfl
@[simp] theorem Flock.setA_deferred (f : Flock) (r : BitVec 4) (x : Addr) : (f.setA r x).deferred = f.deferred := by unfold Flock.setA; split <;> rfl
@[simp] theorem Flock.setA_buf (f : Flock) (r : BitVec 4) (x : Addr) : (f.setA r x).buf = f.buf := by unfold Flock.setA; split <;> rfl
@[simp] theorem Flock.setA_status (f : Flock) (r : BitVec 4) (x : Addr) : (f.setA r x).status = f.status := by unfold Flock.setA; split <;> rfl

@[simp] theorem Flock.setP_id (f : Flock) (r : BitVec 3) (x : Mask) : (f.setP r x).id = f.id := by unfold Flock.setP; split <;> rfl
@[simp] theorem Flock.setP_fold (f : Flock) (r : BitVec 3) (x : Mask) : (f.setP r x).fold = f.fold := by unfold Flock.setP; split <;> rfl
@[simp] theorem Flock.setP_ctx (f : Flock) (r : BitVec 3) (x : Mask) : (f.setP r x).ctx = f.ctx := by unfold Flock.setP; split <;> rfl
@[simp] theorem Flock.setP_core (f : Flock) (r : BitVec 3) (x : Mask) : (f.setP r x).core = f.core := by unfold Flock.setP; split <;> rfl
@[simp] theorem Flock.setP_field (f : Flock) (r : BitVec 3) (x : Mask) : (f.setP r x).field = f.field := by unfold Flock.setP; split <;> rfl
@[simp] theorem Flock.setP_privileged (f : Flock) (r : BitVec 3) (x : Mask) : (f.setP r x).privileged = f.privileged := by unfold Flock.setP; split <;> rfl
@[simp] theorem Flock.setP_secure (f : Flock) (r : BitVec 3) (x : Mask) : (f.setP r x).secure = f.secure := by unfold Flock.setP; split <;> rfl
@[simp] theorem Flock.setP_v (f : Flock) (r : BitVec 3) (x : Mask) : (f.setP r x).v = f.v := by unfold Flock.setP; split <;> rfl
@[simp] theorem Flock.setP_s (f : Flock) (r : BitVec 3) (x : Mask) : (f.setP r x).s = f.s := by unfold Flock.setP; split <;> rfl
@[simp] theorem Flock.setP_a (f : Flock) (r : BitVec 3) (x : Mask) : (f.setP r x).a = f.a := by unfold Flock.setP; split <;> rfl
@[simp] theorem Flock.setP_em (f : Flock) (r : BitVec 3) (x : Mask) : (f.setP r x).em = f.em := by unfold Flock.setP; split <;> rfl
@[simp] theorem Flock.setP_fcr (f : Flock) (r : BitVec 3) (x : Mask) : (f.setP r x).fcr = f.fcr := by unfold Flock.setP; split <;> rfl
@[simp] theorem Flock.setP_loops (f : Flock) (r : BitVec 3) (x : Mask) : (f.setP r x).loops = f.loops := by unfold Flock.setP; split <;> rfl
@[simp] theorem Flock.setP_td (f : Flock) (r : BitVec 3) (x : Mask) : (f.setP r x).td = f.td := by unfold Flock.setP; split <;> rfl
@[simp] theorem Flock.setP_queues (f : Flock) (r : BitVec 3) (x : Mask) : (f.setP r x).queues = f.queues := by unfold Flock.setP; split <;> rfl
@[simp] theorem Flock.setP_pc (f : Flock) (r : BitVec 3) (x : Mask) : (f.setP r x).pc = f.pc := by unfold Flock.setP; split <;> rfl
@[simp] theorem Flock.setP_pend (f : Flock) (r : BitVec 3) (x : Mask) : (f.setP r x).pend = f.pend := by unfold Flock.setP; split <;> rfl
@[simp] theorem Flock.setP_unfenced (f : Flock) (r : BitVec 3) (x : Mask) : (f.setP r x).unfenced = f.unfenced := by unfold Flock.setP; split <;> rfl
@[simp] theorem Flock.setP_monitor (f : Flock) (r : BitVec 3) (x : Mask) : (f.setP r x).monitor = f.monitor := by unfold Flock.setP; split <;> rfl
@[simp] theorem Flock.setP_waitedAt (f : Flock) (r : BitVec 3) (x : Mask) : (f.setP r x).waitedAt = f.waitedAt := by unfold Flock.setP; split <;> rfl
@[simp] theorem Flock.setP_wakePending (f : Flock) (r : BitVec 3) (x : Mask) : (f.setP r x).wakePending = f.wakePending := by unfold Flock.setP; split <;> rfl
@[simp] theorem Flock.setP_wakes (f : Flock) (r : BitVec 3) (x : Mask) : (f.setP r x).wakes = f.wakes := by unfold Flock.setP; split <;> rfl
@[simp] theorem Flock.setP_epc (f : Flock) (r : BitVec 3) (x : Mask) : (f.setP r x).epc = f.epc := by unfold Flock.setP; split <;> rfl
@[simp] theorem Flock.setP_ecause (f : Flock) (r : BitVec 3) (x : Mask) : (f.setP r x).ecause = f.ecause := by unfold Flock.setP; split <;> rfl
@[simp] theorem Flock.setP_faddr (f : Flock) (r : BitVec 3) (x : Mask) : (f.setP r x).faddr = f.faddr := by unfold Flock.setP; split <;> rfl
@[simp] theorem Flock.setP_dpc (f : Flock) (r : BitVec 3) (x : Mask) : (f.setP r x).dpc = f.dpc := by unfold Flock.setP; split <;> rfl
@[simp] theorem Flock.setP_tinfo (f : Flock) (r : BitVec 3) (x : Mask) : (f.setP r x).tinfo = f.tinfo := by unfold Flock.setP; split <;> rfl
@[simp] theorem Flock.setP_routine (f : Flock) (r : BitVec 3) (x : Mask) : (f.setP r x).routine = f.routine := by unfold Flock.setP; split <;> rfl
@[simp] theorem Flock.setP_entered (f : Flock) (r : BitVec 3) (x : Mask) : (f.setP r x).entered = f.entered := by unfold Flock.setP; split <;> rfl
@[simp] theorem Flock.setP_entries (f : Flock) (r : BitVec 3) (x : Mask) : (f.setP r x).entries = f.entries := by unfold Flock.setP; split <;> rfl
@[simp] theorem Flock.setP_preempt (f : Flock) (r : BitVec 3) (x : Mask) : (f.setP r x).preempt = f.preempt := by unfold Flock.setP; split <;> rfl
@[simp] theorem Flock.setP_key (f : Flock) (r : BitVec 3) (x : Mask) : (f.setP r x).key = f.key := by unfold Flock.setP; split <;> rfl
@[simp] theorem Flock.setP_draw (f : Flock) (r : BitVec 3) (x : Mask) : (f.setP r x).draw = f.draw := by unfold Flock.setP; split <;> rfl
@[simp] theorem Flock.setP_est (f : Flock) (r : BitVec 3) (x : Mask) : (f.setP r x).est = f.est := by unfold Flock.setP; split <;> rfl
@[simp] theorem Flock.setP_ttag (f : Flock) (r : BitVec 3) (x : Mask) : (f.setP r x).ttag = f.ttag := by unfold Flock.setP; split <;> rfl
@[simp] theorem Flock.setP_deferred (f : Flock) (r : BitVec 3) (x : Mask) : (f.setP r x).deferred = f.deferred := by unfold Flock.setP; split <;> rfl
@[simp] theorem Flock.setP_buf (f : Flock) (r : BitVec 3) (x : Mask) : (f.setP r x).buf = f.buf := by unfold Flock.setP; split <;> rfl
@[simp] theorem Flock.setP_status (f : Flock) (r : BitVec 3) (x : Mask) : (f.setP r x).status = f.status := by unfold Flock.setP; split <;> rfl

@[simp] theorem Flock.setTd_id (f : Flock) (r : BitVec 4) (x : TileDesc) : (f.setTd r x).id = f.id := rfl
@[simp] theorem Flock.setTd_fold (f : Flock) (r : BitVec 4) (x : TileDesc) : (f.setTd r x).fold = f.fold := rfl
@[simp] theorem Flock.setTd_ctx (f : Flock) (r : BitVec 4) (x : TileDesc) : (f.setTd r x).ctx = f.ctx := rfl
@[simp] theorem Flock.setTd_core (f : Flock) (r : BitVec 4) (x : TileDesc) : (f.setTd r x).core = f.core := rfl
@[simp] theorem Flock.setTd_field (f : Flock) (r : BitVec 4) (x : TileDesc) : (f.setTd r x).field = f.field := rfl
@[simp] theorem Flock.setTd_privileged (f : Flock) (r : BitVec 4) (x : TileDesc) : (f.setTd r x).privileged = f.privileged := rfl
@[simp] theorem Flock.setTd_secure (f : Flock) (r : BitVec 4) (x : TileDesc) : (f.setTd r x).secure = f.secure := rfl
@[simp] theorem Flock.setTd_v (f : Flock) (r : BitVec 4) (x : TileDesc) : (f.setTd r x).v = f.v := rfl
@[simp] theorem Flock.setTd_s (f : Flock) (r : BitVec 4) (x : TileDesc) : (f.setTd r x).s = f.s := rfl
@[simp] theorem Flock.setTd_a (f : Flock) (r : BitVec 4) (x : TileDesc) : (f.setTd r x).a = f.a := rfl
@[simp] theorem Flock.setTd_p (f : Flock) (r : BitVec 4) (x : TileDesc) : (f.setTd r x).p = f.p := rfl
@[simp] theorem Flock.setTd_em (f : Flock) (r : BitVec 4) (x : TileDesc) : (f.setTd r x).em = f.em := rfl
@[simp] theorem Flock.setTd_fcr (f : Flock) (r : BitVec 4) (x : TileDesc) : (f.setTd r x).fcr = f.fcr := rfl
@[simp] theorem Flock.setTd_loops (f : Flock) (r : BitVec 4) (x : TileDesc) : (f.setTd r x).loops = f.loops := rfl
@[simp] theorem Flock.setTd_queues (f : Flock) (r : BitVec 4) (x : TileDesc) : (f.setTd r x).queues = f.queues := rfl
@[simp] theorem Flock.setTd_pc (f : Flock) (r : BitVec 4) (x : TileDesc) : (f.setTd r x).pc = f.pc := rfl
@[simp] theorem Flock.setTd_pend (f : Flock) (r : BitVec 4) (x : TileDesc) : (f.setTd r x).pend = f.pend := rfl
@[simp] theorem Flock.setTd_unfenced (f : Flock) (r : BitVec 4) (x : TileDesc) : (f.setTd r x).unfenced = f.unfenced := rfl
@[simp] theorem Flock.setTd_monitor (f : Flock) (r : BitVec 4) (x : TileDesc) : (f.setTd r x).monitor = f.monitor := rfl
@[simp] theorem Flock.setTd_waitedAt (f : Flock) (r : BitVec 4) (x : TileDesc) : (f.setTd r x).waitedAt = f.waitedAt := rfl
@[simp] theorem Flock.setTd_wakePending (f : Flock) (r : BitVec 4) (x : TileDesc) : (f.setTd r x).wakePending = f.wakePending := rfl
@[simp] theorem Flock.setTd_wakes (f : Flock) (r : BitVec 4) (x : TileDesc) : (f.setTd r x).wakes = f.wakes := rfl
@[simp] theorem Flock.setTd_epc (f : Flock) (r : BitVec 4) (x : TileDesc) : (f.setTd r x).epc = f.epc := rfl
@[simp] theorem Flock.setTd_ecause (f : Flock) (r : BitVec 4) (x : TileDesc) : (f.setTd r x).ecause = f.ecause := rfl
@[simp] theorem Flock.setTd_faddr (f : Flock) (r : BitVec 4) (x : TileDesc) : (f.setTd r x).faddr = f.faddr := rfl
@[simp] theorem Flock.setTd_dpc (f : Flock) (r : BitVec 4) (x : TileDesc) : (f.setTd r x).dpc = f.dpc := rfl
@[simp] theorem Flock.setTd_tinfo (f : Flock) (r : BitVec 4) (x : TileDesc) : (f.setTd r x).tinfo = f.tinfo := rfl
@[simp] theorem Flock.setTd_routine (f : Flock) (r : BitVec 4) (x : TileDesc) : (f.setTd r x).routine = f.routine := rfl
@[simp] theorem Flock.setTd_entered (f : Flock) (r : BitVec 4) (x : TileDesc) : (f.setTd r x).entered = f.entered := rfl
@[simp] theorem Flock.setTd_entries (f : Flock) (r : BitVec 4) (x : TileDesc) : (f.setTd r x).entries = f.entries := rfl
@[simp] theorem Flock.setTd_preempt (f : Flock) (r : BitVec 4) (x : TileDesc) : (f.setTd r x).preempt = f.preempt := rfl
@[simp] theorem Flock.setTd_key (f : Flock) (r : BitVec 4) (x : TileDesc) : (f.setTd r x).key = f.key := rfl
@[simp] theorem Flock.setTd_draw (f : Flock) (r : BitVec 4) (x : TileDesc) : (f.setTd r x).draw = f.draw := rfl
@[simp] theorem Flock.setTd_est (f : Flock) (r : BitVec 4) (x : TileDesc) : (f.setTd r x).est = f.est := rfl
@[simp] theorem Flock.setTd_ttag (f : Flock) (r : BitVec 4) (x : TileDesc) : (f.setTd r x).ttag = f.ttag := rfl
@[simp] theorem Flock.setTd_deferred (f : Flock) (r : BitVec 4) (x : TileDesc) : (f.setTd r x).deferred = f.deferred := rfl
@[simp] theorem Flock.setTd_buf (f : Flock) (r : BitVec 4) (x : TileDesc) : (f.setTd r x).buf = f.buf := rfl
@[simp] theorem Flock.setTd_status (f : Flock) (r : BitVec 4) (x : TileDesc) : (f.setTd r x).status = f.status := rfl

@[simp] theorem Flock.setQ_id (f : Flock) (r : BitVec 2) (x : Queue) : (f.setQ r x).id = f.id := rfl
@[simp] theorem Flock.setQ_fold (f : Flock) (r : BitVec 2) (x : Queue) : (f.setQ r x).fold = f.fold := rfl
@[simp] theorem Flock.setQ_ctx (f : Flock) (r : BitVec 2) (x : Queue) : (f.setQ r x).ctx = f.ctx := rfl
@[simp] theorem Flock.setQ_core (f : Flock) (r : BitVec 2) (x : Queue) : (f.setQ r x).core = f.core := rfl
@[simp] theorem Flock.setQ_field (f : Flock) (r : BitVec 2) (x : Queue) : (f.setQ r x).field = f.field := rfl
@[simp] theorem Flock.setQ_privileged (f : Flock) (r : BitVec 2) (x : Queue) : (f.setQ r x).privileged = f.privileged := rfl
@[simp] theorem Flock.setQ_secure (f : Flock) (r : BitVec 2) (x : Queue) : (f.setQ r x).secure = f.secure := rfl
@[simp] theorem Flock.setQ_v (f : Flock) (r : BitVec 2) (x : Queue) : (f.setQ r x).v = f.v := rfl
@[simp] theorem Flock.setQ_s (f : Flock) (r : BitVec 2) (x : Queue) : (f.setQ r x).s = f.s := rfl
@[simp] theorem Flock.setQ_a (f : Flock) (r : BitVec 2) (x : Queue) : (f.setQ r x).a = f.a := rfl
@[simp] theorem Flock.setQ_p (f : Flock) (r : BitVec 2) (x : Queue) : (f.setQ r x).p = f.p := rfl
@[simp] theorem Flock.setQ_em (f : Flock) (r : BitVec 2) (x : Queue) : (f.setQ r x).em = f.em := rfl
@[simp] theorem Flock.setQ_fcr (f : Flock) (r : BitVec 2) (x : Queue) : (f.setQ r x).fcr = f.fcr := rfl
@[simp] theorem Flock.setQ_loops (f : Flock) (r : BitVec 2) (x : Queue) : (f.setQ r x).loops = f.loops := rfl
@[simp] theorem Flock.setQ_td (f : Flock) (r : BitVec 2) (x : Queue) : (f.setQ r x).td = f.td := rfl
@[simp] theorem Flock.setQ_pc (f : Flock) (r : BitVec 2) (x : Queue) : (f.setQ r x).pc = f.pc := rfl
@[simp] theorem Flock.setQ_pend (f : Flock) (r : BitVec 2) (x : Queue) : (f.setQ r x).pend = f.pend := rfl
@[simp] theorem Flock.setQ_unfenced (f : Flock) (r : BitVec 2) (x : Queue) : (f.setQ r x).unfenced = f.unfenced := rfl
@[simp] theorem Flock.setQ_monitor (f : Flock) (r : BitVec 2) (x : Queue) : (f.setQ r x).monitor = f.monitor := rfl
@[simp] theorem Flock.setQ_waitedAt (f : Flock) (r : BitVec 2) (x : Queue) : (f.setQ r x).waitedAt = f.waitedAt := rfl
@[simp] theorem Flock.setQ_wakePending (f : Flock) (r : BitVec 2) (x : Queue) : (f.setQ r x).wakePending = f.wakePending := rfl
@[simp] theorem Flock.setQ_wakes (f : Flock) (r : BitVec 2) (x : Queue) : (f.setQ r x).wakes = f.wakes := rfl
@[simp] theorem Flock.setQ_epc (f : Flock) (r : BitVec 2) (x : Queue) : (f.setQ r x).epc = f.epc := rfl
@[simp] theorem Flock.setQ_ecause (f : Flock) (r : BitVec 2) (x : Queue) : (f.setQ r x).ecause = f.ecause := rfl
@[simp] theorem Flock.setQ_faddr (f : Flock) (r : BitVec 2) (x : Queue) : (f.setQ r x).faddr = f.faddr := rfl
@[simp] theorem Flock.setQ_dpc (f : Flock) (r : BitVec 2) (x : Queue) : (f.setQ r x).dpc = f.dpc := rfl
@[simp] theorem Flock.setQ_tinfo (f : Flock) (r : BitVec 2) (x : Queue) : (f.setQ r x).tinfo = f.tinfo := rfl
@[simp] theorem Flock.setQ_routine (f : Flock) (r : BitVec 2) (x : Queue) : (f.setQ r x).routine = f.routine := rfl
@[simp] theorem Flock.setQ_entered (f : Flock) (r : BitVec 2) (x : Queue) : (f.setQ r x).entered = f.entered := rfl
@[simp] theorem Flock.setQ_entries (f : Flock) (r : BitVec 2) (x : Queue) : (f.setQ r x).entries = f.entries := rfl
@[simp] theorem Flock.setQ_preempt (f : Flock) (r : BitVec 2) (x : Queue) : (f.setQ r x).preempt = f.preempt := rfl
@[simp] theorem Flock.setQ_key (f : Flock) (r : BitVec 2) (x : Queue) : (f.setQ r x).key = f.key := rfl
@[simp] theorem Flock.setQ_draw (f : Flock) (r : BitVec 2) (x : Queue) : (f.setQ r x).draw = f.draw := rfl
@[simp] theorem Flock.setQ_est (f : Flock) (r : BitVec 2) (x : Queue) : (f.setQ r x).est = f.est := rfl
@[simp] theorem Flock.setQ_ttag (f : Flock) (r : BitVec 2) (x : Queue) : (f.setQ r x).ttag = f.ttag := rfl
@[simp] theorem Flock.setQ_deferred (f : Flock) (r : BitVec 2) (x : Queue) : (f.setQ r x).deferred = f.deferred := rfl
@[simp] theorem Flock.setQ_buf (f : Flock) (r : BitVec 2) (x : Queue) : (f.setQ r x).buf = f.buf := rfl
@[simp] theorem Flock.setQ_status (f : Flock) (r : BitVec 2) (x : Queue) : (f.setQ r x).status = f.status := rfl

@[simp] theorem Flock.setLoop_id (f : Flock) (r : BitVec 2) (x : LoopLevel) : (f.setLoop r x).id = f.id := rfl
@[simp] theorem Flock.setLoop_fold (f : Flock) (r : BitVec 2) (x : LoopLevel) : (f.setLoop r x).fold = f.fold := rfl
@[simp] theorem Flock.setLoop_ctx (f : Flock) (r : BitVec 2) (x : LoopLevel) : (f.setLoop r x).ctx = f.ctx := rfl
@[simp] theorem Flock.setLoop_core (f : Flock) (r : BitVec 2) (x : LoopLevel) : (f.setLoop r x).core = f.core := rfl
@[simp] theorem Flock.setLoop_field (f : Flock) (r : BitVec 2) (x : LoopLevel) : (f.setLoop r x).field = f.field := rfl
@[simp] theorem Flock.setLoop_privileged (f : Flock) (r : BitVec 2) (x : LoopLevel) : (f.setLoop r x).privileged = f.privileged := rfl
@[simp] theorem Flock.setLoop_secure (f : Flock) (r : BitVec 2) (x : LoopLevel) : (f.setLoop r x).secure = f.secure := rfl
@[simp] theorem Flock.setLoop_v (f : Flock) (r : BitVec 2) (x : LoopLevel) : (f.setLoop r x).v = f.v := rfl
@[simp] theorem Flock.setLoop_s (f : Flock) (r : BitVec 2) (x : LoopLevel) : (f.setLoop r x).s = f.s := rfl
@[simp] theorem Flock.setLoop_a (f : Flock) (r : BitVec 2) (x : LoopLevel) : (f.setLoop r x).a = f.a := rfl
@[simp] theorem Flock.setLoop_p (f : Flock) (r : BitVec 2) (x : LoopLevel) : (f.setLoop r x).p = f.p := rfl
@[simp] theorem Flock.setLoop_em (f : Flock) (r : BitVec 2) (x : LoopLevel) : (f.setLoop r x).em = f.em := rfl
@[simp] theorem Flock.setLoop_fcr (f : Flock) (r : BitVec 2) (x : LoopLevel) : (f.setLoop r x).fcr = f.fcr := rfl
@[simp] theorem Flock.setLoop_td (f : Flock) (r : BitVec 2) (x : LoopLevel) : (f.setLoop r x).td = f.td := rfl
@[simp] theorem Flock.setLoop_queues (f : Flock) (r : BitVec 2) (x : LoopLevel) : (f.setLoop r x).queues = f.queues := rfl
@[simp] theorem Flock.setLoop_pc (f : Flock) (r : BitVec 2) (x : LoopLevel) : (f.setLoop r x).pc = f.pc := rfl
@[simp] theorem Flock.setLoop_pend (f : Flock) (r : BitVec 2) (x : LoopLevel) : (f.setLoop r x).pend = f.pend := rfl
@[simp] theorem Flock.setLoop_unfenced (f : Flock) (r : BitVec 2) (x : LoopLevel) : (f.setLoop r x).unfenced = f.unfenced := rfl
@[simp] theorem Flock.setLoop_monitor (f : Flock) (r : BitVec 2) (x : LoopLevel) : (f.setLoop r x).monitor = f.monitor := rfl
@[simp] theorem Flock.setLoop_waitedAt (f : Flock) (r : BitVec 2) (x : LoopLevel) : (f.setLoop r x).waitedAt = f.waitedAt := rfl
@[simp] theorem Flock.setLoop_wakePending (f : Flock) (r : BitVec 2) (x : LoopLevel) : (f.setLoop r x).wakePending = f.wakePending := rfl
@[simp] theorem Flock.setLoop_wakes (f : Flock) (r : BitVec 2) (x : LoopLevel) : (f.setLoop r x).wakes = f.wakes := rfl
@[simp] theorem Flock.setLoop_epc (f : Flock) (r : BitVec 2) (x : LoopLevel) : (f.setLoop r x).epc = f.epc := rfl
@[simp] theorem Flock.setLoop_ecause (f : Flock) (r : BitVec 2) (x : LoopLevel) : (f.setLoop r x).ecause = f.ecause := rfl
@[simp] theorem Flock.setLoop_faddr (f : Flock) (r : BitVec 2) (x : LoopLevel) : (f.setLoop r x).faddr = f.faddr := rfl
@[simp] theorem Flock.setLoop_dpc (f : Flock) (r : BitVec 2) (x : LoopLevel) : (f.setLoop r x).dpc = f.dpc := rfl
@[simp] theorem Flock.setLoop_tinfo (f : Flock) (r : BitVec 2) (x : LoopLevel) : (f.setLoop r x).tinfo = f.tinfo := rfl
@[simp] theorem Flock.setLoop_routine (f : Flock) (r : BitVec 2) (x : LoopLevel) : (f.setLoop r x).routine = f.routine := rfl
@[simp] theorem Flock.setLoop_entered (f : Flock) (r : BitVec 2) (x : LoopLevel) : (f.setLoop r x).entered = f.entered := rfl
@[simp] theorem Flock.setLoop_entries (f : Flock) (r : BitVec 2) (x : LoopLevel) : (f.setLoop r x).entries = f.entries := rfl
@[simp] theorem Flock.setLoop_preempt (f : Flock) (r : BitVec 2) (x : LoopLevel) : (f.setLoop r x).preempt = f.preempt := rfl
@[simp] theorem Flock.setLoop_key (f : Flock) (r : BitVec 2) (x : LoopLevel) : (f.setLoop r x).key = f.key := rfl
@[simp] theorem Flock.setLoop_draw (f : Flock) (r : BitVec 2) (x : LoopLevel) : (f.setLoop r x).draw = f.draw := rfl
@[simp] theorem Flock.setLoop_est (f : Flock) (r : BitVec 2) (x : LoopLevel) : (f.setLoop r x).est = f.est := rfl
@[simp] theorem Flock.setLoop_ttag (f : Flock) (r : BitVec 2) (x : LoopLevel) : (f.setLoop r x).ttag = f.ttag := rfl
@[simp] theorem Flock.setLoop_deferred (f : Flock) (r : BitVec 2) (x : LoopLevel) : (f.setLoop r x).deferred = f.deferred := rfl
@[simp] theorem Flock.setLoop_buf (f : Flock) (r : BitVec 2) (x : LoopLevel) : (f.setLoop r x).buf = f.buf := rfl
@[simp] theorem Flock.setLoop_status (f : Flock) (r : BitVec 2) (x : LoopLevel) : (f.setLoop r x).status = f.status := rfl

@[simp] theorem Flock.raise_id (f : Flock) (x y : Bool) : (f.raise x y).id = f.id := rfl
@[simp] theorem Flock.raise_fold (f : Flock) (x y : Bool) : (f.raise x y).fold = f.fold := rfl
@[simp] theorem Flock.raise_ctx (f : Flock) (x y : Bool) : (f.raise x y).ctx = f.ctx := rfl
@[simp] theorem Flock.raise_core (f : Flock) (x y : Bool) : (f.raise x y).core = f.core := rfl
@[simp] theorem Flock.raise_field (f : Flock) (x y : Bool) : (f.raise x y).field = f.field := rfl
@[simp] theorem Flock.raise_privileged (f : Flock) (x y : Bool) : (f.raise x y).privileged = f.privileged := rfl
@[simp] theorem Flock.raise_secure (f : Flock) (x y : Bool) : (f.raise x y).secure = f.secure := rfl
@[simp] theorem Flock.raise_v (f : Flock) (x y : Bool) : (f.raise x y).v = f.v := rfl
@[simp] theorem Flock.raise_s (f : Flock) (x y : Bool) : (f.raise x y).s = f.s := rfl
@[simp] theorem Flock.raise_a (f : Flock) (x y : Bool) : (f.raise x y).a = f.a := rfl
@[simp] theorem Flock.raise_p (f : Flock) (x y : Bool) : (f.raise x y).p = f.p := rfl
@[simp] theorem Flock.raise_em (f : Flock) (x y : Bool) : (f.raise x y).em = f.em := rfl
@[simp] theorem Flock.raise_loops (f : Flock) (x y : Bool) : (f.raise x y).loops = f.loops := rfl
@[simp] theorem Flock.raise_td (f : Flock) (x y : Bool) : (f.raise x y).td = f.td := rfl
@[simp] theorem Flock.raise_queues (f : Flock) (x y : Bool) : (f.raise x y).queues = f.queues := rfl
@[simp] theorem Flock.raise_pc (f : Flock) (x y : Bool) : (f.raise x y).pc = f.pc := rfl
@[simp] theorem Flock.raise_pend (f : Flock) (x y : Bool) : (f.raise x y).pend = f.pend := rfl
@[simp] theorem Flock.raise_unfenced (f : Flock) (x y : Bool) : (f.raise x y).unfenced = f.unfenced := rfl
@[simp] theorem Flock.raise_monitor (f : Flock) (x y : Bool) : (f.raise x y).monitor = f.monitor := rfl
@[simp] theorem Flock.raise_waitedAt (f : Flock) (x y : Bool) : (f.raise x y).waitedAt = f.waitedAt := rfl
@[simp] theorem Flock.raise_wakePending (f : Flock) (x y : Bool) : (f.raise x y).wakePending = f.wakePending := rfl
@[simp] theorem Flock.raise_wakes (f : Flock) (x y : Bool) : (f.raise x y).wakes = f.wakes := rfl
@[simp] theorem Flock.raise_epc (f : Flock) (x y : Bool) : (f.raise x y).epc = f.epc := rfl
@[simp] theorem Flock.raise_ecause (f : Flock) (x y : Bool) : (f.raise x y).ecause = f.ecause := rfl
@[simp] theorem Flock.raise_faddr (f : Flock) (x y : Bool) : (f.raise x y).faddr = f.faddr := rfl
@[simp] theorem Flock.raise_dpc (f : Flock) (x y : Bool) : (f.raise x y).dpc = f.dpc := rfl
@[simp] theorem Flock.raise_tinfo (f : Flock) (x y : Bool) : (f.raise x y).tinfo = f.tinfo := rfl
@[simp] theorem Flock.raise_routine (f : Flock) (x y : Bool) : (f.raise x y).routine = f.routine := rfl
@[simp] theorem Flock.raise_entered (f : Flock) (x y : Bool) : (f.raise x y).entered = f.entered := rfl
@[simp] theorem Flock.raise_entries (f : Flock) (x y : Bool) : (f.raise x y).entries = f.entries := rfl
@[simp] theorem Flock.raise_preempt (f : Flock) (x y : Bool) : (f.raise x y).preempt = f.preempt := rfl
@[simp] theorem Flock.raise_key (f : Flock) (x y : Bool) : (f.raise x y).key = f.key := rfl
@[simp] theorem Flock.raise_draw (f : Flock) (x y : Bool) : (f.raise x y).draw = f.draw := rfl
@[simp] theorem Flock.raise_est (f : Flock) (x y : Bool) : (f.raise x y).est = f.est := rfl
@[simp] theorem Flock.raise_ttag (f : Flock) (x y : Bool) : (f.raise x y).ttag = f.ttag := rfl
@[simp] theorem Flock.raise_deferred (f : Flock) (x y : Bool) : (f.raise x y).deferred = f.deferred := rfl
@[simp] theorem Flock.raise_buf (f : Flock) (x y : Bool) : (f.raise x y).buf = f.buf := rfl
@[simp] theorem Flock.raise_status (f : Flock) (x y : Bool) : (f.raise x y).status = f.status := rfl

@[simp] theorem Flock.putFcr_id (f : Flock) (x : Word) : (f.putFcr x).id = f.id := rfl
@[simp] theorem Flock.putFcr_fold (f : Flock) (x : Word) : (f.putFcr x).fold = f.fold := rfl
@[simp] theorem Flock.putFcr_ctx (f : Flock) (x : Word) : (f.putFcr x).ctx = f.ctx := rfl
@[simp] theorem Flock.putFcr_core (f : Flock) (x : Word) : (f.putFcr x).core = f.core := rfl
@[simp] theorem Flock.putFcr_field (f : Flock) (x : Word) : (f.putFcr x).field = f.field := rfl
@[simp] theorem Flock.putFcr_privileged (f : Flock) (x : Word) : (f.putFcr x).privileged = f.privileged := rfl
@[simp] theorem Flock.putFcr_secure (f : Flock) (x : Word) : (f.putFcr x).secure = f.secure := rfl
@[simp] theorem Flock.putFcr_v (f : Flock) (x : Word) : (f.putFcr x).v = f.v := rfl
@[simp] theorem Flock.putFcr_s (f : Flock) (x : Word) : (f.putFcr x).s = f.s := rfl
@[simp] theorem Flock.putFcr_a (f : Flock) (x : Word) : (f.putFcr x).a = f.a := rfl
@[simp] theorem Flock.putFcr_p (f : Flock) (x : Word) : (f.putFcr x).p = f.p := rfl
@[simp] theorem Flock.putFcr_em (f : Flock) (x : Word) : (f.putFcr x).em = f.em := rfl
@[simp] theorem Flock.putFcr_loops (f : Flock) (x : Word) : (f.putFcr x).loops = f.loops := rfl
@[simp] theorem Flock.putFcr_td (f : Flock) (x : Word) : (f.putFcr x).td = f.td := rfl
@[simp] theorem Flock.putFcr_queues (f : Flock) (x : Word) : (f.putFcr x).queues = f.queues := rfl
@[simp] theorem Flock.putFcr_pc (f : Flock) (x : Word) : (f.putFcr x).pc = f.pc := rfl
@[simp] theorem Flock.putFcr_pend (f : Flock) (x : Word) : (f.putFcr x).pend = f.pend := rfl
@[simp] theorem Flock.putFcr_unfenced (f : Flock) (x : Word) : (f.putFcr x).unfenced = f.unfenced := rfl
@[simp] theorem Flock.putFcr_monitor (f : Flock) (x : Word) : (f.putFcr x).monitor = f.monitor := rfl
@[simp] theorem Flock.putFcr_waitedAt (f : Flock) (x : Word) : (f.putFcr x).waitedAt = f.waitedAt := rfl
@[simp] theorem Flock.putFcr_wakePending (f : Flock) (x : Word) : (f.putFcr x).wakePending = f.wakePending := rfl
@[simp] theorem Flock.putFcr_wakes (f : Flock) (x : Word) : (f.putFcr x).wakes = f.wakes := rfl
@[simp] theorem Flock.putFcr_epc (f : Flock) (x : Word) : (f.putFcr x).epc = f.epc := rfl
@[simp] theorem Flock.putFcr_ecause (f : Flock) (x : Word) : (f.putFcr x).ecause = f.ecause := rfl
@[simp] theorem Flock.putFcr_faddr (f : Flock) (x : Word) : (f.putFcr x).faddr = f.faddr := rfl
@[simp] theorem Flock.putFcr_dpc (f : Flock) (x : Word) : (f.putFcr x).dpc = f.dpc := rfl
@[simp] theorem Flock.putFcr_tinfo (f : Flock) (x : Word) : (f.putFcr x).tinfo = f.tinfo := rfl
@[simp] theorem Flock.putFcr_routine (f : Flock) (x : Word) : (f.putFcr x).routine = f.routine := rfl
@[simp] theorem Flock.putFcr_entered (f : Flock) (x : Word) : (f.putFcr x).entered = f.entered := rfl
@[simp] theorem Flock.putFcr_entries (f : Flock) (x : Word) : (f.putFcr x).entries = f.entries := rfl
@[simp] theorem Flock.putFcr_preempt (f : Flock) (x : Word) : (f.putFcr x).preempt = f.preempt := rfl
@[simp] theorem Flock.putFcr_key (f : Flock) (x : Word) : (f.putFcr x).key = f.key := rfl
@[simp] theorem Flock.putFcr_draw (f : Flock) (x : Word) : (f.putFcr x).draw = f.draw := rfl
@[simp] theorem Flock.putFcr_est (f : Flock) (x : Word) : (f.putFcr x).est = f.est := rfl
@[simp] theorem Flock.putFcr_ttag (f : Flock) (x : Word) : (f.putFcr x).ttag = f.ttag := rfl
@[simp] theorem Flock.putFcr_deferred (f : Flock) (x : Word) : (f.putFcr x).deferred = f.deferred := rfl
@[simp] theorem Flock.putFcr_buf (f : Flock) (x : Word) : (f.putFcr x).buf = f.buf := rfl
@[simp] theorem Flock.putFcr_status (f : Flock) (x : Word) : (f.putFcr x).status = f.status := rfl

@[simp] theorem State.touchLines_cur (s : State) (ls : List Nat) : (s.touchLines ls).cur = s.cur := rfl
@[simp] theorem State.touchLines_fold (s : State) (ls : List Nat) : (s.touchLines ls).fold = s.fold := rfl
@[simp] theorem State.touchLines_flocks (s : State) (ls : List Nat) : (s.touchLines ls).flocks = s.flocks := rfl
@[simp] theorem State.touchLines_folds (s : State) (ls : List Nat) : (s.touchLines ls).folds = s.folds := rfl
@[simp] theorem State.touchLines_departed (s : State) (ls : List Nat) : (s.touchLines ls).departed = s.departed := rfl
@[simp] theorem State.touchLines_mem (s : State) (ls : List Nat) : (s.touchLines ls).mem = s.mem := rfl
@[simp] theorem State.touchLines_remote (s : State) (ls : List Nat) : (s.touchLines ls).remote = s.remote := rfl
@[simp] theorem State.touchLines_clean (s : State) (ls : List Nat) : (s.touchLines ls).clean = s.clean := rfl
@[simp] theorem State.touchLines_dirty (s : State) (ls : List Nat) : (s.touchLines ls).dirty = s.dirty := rfl
@[simp] theorem State.touchLines_inFlight (s : State) (ls : List Nat) : (s.touchLines ls).inFlight = s.inFlight := rfl
@[simp] theorem State.touchLines_broken (s : State) (ls : List Nat) : (s.touchLines ls).broken = s.broken := rfl
@[simp] theorem State.touchLines_tlb (s : State) (ls : List Nat) : (s.touchLines ls).tlb = s.tlb := rfl
@[simp] theorem State.touchLines_code (s : State) (ls : List Nat) : (s.touchLines ls).code = s.code := rfl
@[simp] theorem State.touchLines_tags (s : State) (ls : List Nat) : (s.touchLines ls).tags = s.tags := rfl
@[simp] theorem State.touchLines_launches (s : State) (ls : List Nat) : (s.touchLines ls).launches = s.launches := rfl
@[simp] theorem State.touchLines_dispatch (s : State) (ls : List Nat) : (s.touchLines ls).dispatch = s.dispatch := rfl
@[simp] theorem State.touchLines_jobs (s : State) (ls : List Nat) : (s.touchLines ls).jobs = s.jobs := rfl
@[simp] theorem State.touchLines_bgTurn (s : State) (ls : List Nat) : (s.touchLines ls).bgTurn = s.bgTurn := rfl
@[simp] theorem State.touchLines_commands (s : State) (ls : List Nat) : (s.touchLines ls).commands = s.commands := rfl
@[simp] theorem State.touchLines_saved (s : State) (ls : List Nat) : (s.touchLines ls).saved = s.saved := rfl
@[simp] theorem State.touchLines_parked (s : State) (ls : List Nat) : (s.touchLines ls).parked = s.parked := rfl
@[simp] theorem State.touchLines_snapshots (s : State) (ls : List Nat) : (s.touchLines ls).snapshots = s.snapshots := rfl
@[simp] theorem State.touchLines_combining (s : State) (ls : List Nat) : (s.touchLines ls).combining = s.combining := rfl
@[simp] theorem State.touchLines_peers (s : State) (ls : List Nat) : (s.touchLines ls).peers = s.peers := rfl
@[simp] theorem State.touchLines_acks (s : State) (ls : List Nat) : (s.touchLines ls).acks = s.acks := rfl
@[simp] theorem State.touchLines_banks (s : State) (ls : List Nat) : (s.touchLines ls).banks = s.banks := rfl
@[simp] theorem State.touchLines_cores (s : State) (ls : List Nat) : (s.touchLines ls).cores = s.cores := rfl
@[simp] theorem State.touchLines_clusters (s : State) (ls : List Nat) : (s.touchLines ls).clusters = s.clusters := rfl
@[simp] theorem State.touchLines_plewick (s : State) (ls : List Nat) : (s.touchLines ls).plewick = s.plewick := rfl
@[simp] theorem State.touchLines_setup (s : State) (ls : List Nat) : (s.touchLines ls).setup = s.setup := rfl
@[simp] theorem State.touchLines_time (s : State) (ls : List Nat) : (s.touchLines ls).time = s.time := rfl
@[simp] theorem State.touchLines_slew (s : State) (ls : List Nat) : (s.touchLines ls).slew = s.slew := rfl
@[simp] theorem State.touchLines_slewCarry (s : State) (ls : List Nat) : (s.touchLines ls).slewCarry = s.slewCarry := rfl
@[simp] theorem State.touchLines_slot (s : State) (ls : List Nat) : (s.touchLines ls).slot = s.slot := rfl
@[simp] theorem State.touchLines_stopped (s : State) (ls : List Nat) : (s.touchLines ls).stopped = s.stopped := rfl
@[simp] theorem State.touchLines_overhead (s : State) (ls : List Nat) : (s.touchLines ls).overhead = s.overhead := rfl
@[simp] theorem State.touchLines_agenda (s : State) (ls : List Nat) : (s.touchLines ls).agenda = s.agenda := rfl
@[simp] theorem State.touchLines_beat (s : State) (ls : List Nat) : (s.touchLines ls).beat = s.beat := rfl
@[simp] theorem State.touchLines_round (s : State) (ls : List Nat) : (s.touchLines ls).round = s.round := rfl
@[simp] theorem State.touchLines_free (s : State) (ls : List Nat) : (s.touchLines ls).free = s.free := rfl
@[simp] theorem State.touchLines_nextId (s : State) (ls : List Nat) : (s.touchLines ls).nextId = s.nextId := rfl
@[simp] theorem State.touchLines_contexts (s : State) (ls : List Nat) : (s.touchLines ls).contexts = s.contexts := rfl

/-- Going on changes the program counter and the loop levels only (R136). -/
theorem Flock.loopStep_eq (f : Flock) (pc next : Addr) (ns : List (BitVec 2)) :
    f.loopStep pc next ns = { f with pc := (f.loopStep pc next ns).pc, loops := (f.loopStep pc next ns).loops } := by
  induction ns generalizing f with
  | nil => rfl
  | cons n ns ih =>
    simp only [Flock.loopStep]
    split
    · split
      · rfl
      · rw [ih]; rfl
    · exact ih f

theorem Flock.advance_eq (f : Flock) (n : Nat) :
    f.advance n = { f with pc := (f.advance n).pc, loops := (f.advance n).loops } := by
  unfold Flock.advance
  split
  · exact Flock.loopStep_eq f _ _ _
  · rfl

@[simp] theorem Flock.advance_id (f : Flock) (n : Nat) : (f.advance n).id = f.id := by rw [Flock.advance_eq]
@[simp] theorem Flock.advance_fold (f : Flock) (n : Nat) : (f.advance n).fold = f.fold := by rw [Flock.advance_eq]
@[simp] theorem Flock.advance_ctx (f : Flock) (n : Nat) : (f.advance n).ctx = f.ctx := by rw [Flock.advance_eq]
@[simp] theorem Flock.advance_core (f : Flock) (n : Nat) : (f.advance n).core = f.core := by rw [Flock.advance_eq]
@[simp] theorem Flock.advance_field (f : Flock) (n : Nat) : (f.advance n).field = f.field := by rw [Flock.advance_eq]
@[simp] theorem Flock.advance_privileged (f : Flock) (n : Nat) : (f.advance n).privileged = f.privileged := by rw [Flock.advance_eq]
@[simp] theorem Flock.advance_secure (f : Flock) (n : Nat) : (f.advance n).secure = f.secure := by rw [Flock.advance_eq]
@[simp] theorem Flock.advance_v (f : Flock) (n : Nat) : (f.advance n).v = f.v := by rw [Flock.advance_eq]
@[simp] theorem Flock.advance_s (f : Flock) (n : Nat) : (f.advance n).s = f.s := by rw [Flock.advance_eq]
@[simp] theorem Flock.advance_a (f : Flock) (n : Nat) : (f.advance n).a = f.a := by rw [Flock.advance_eq]
@[simp] theorem Flock.advance_p (f : Flock) (n : Nat) : (f.advance n).p = f.p := by rw [Flock.advance_eq]
@[simp] theorem Flock.advance_em (f : Flock) (n : Nat) : (f.advance n).em = f.em := by rw [Flock.advance_eq]
@[simp] theorem Flock.advance_fcr (f : Flock) (n : Nat) : (f.advance n).fcr = f.fcr := by rw [Flock.advance_eq]
@[simp] theorem Flock.advance_td (f : Flock) (n : Nat) : (f.advance n).td = f.td := by rw [Flock.advance_eq]
@[simp] theorem Flock.advance_queues (f : Flock) (n : Nat) : (f.advance n).queues = f.queues := by rw [Flock.advance_eq]
@[simp] theorem Flock.advance_pend (f : Flock) (n : Nat) : (f.advance n).pend = f.pend := by rw [Flock.advance_eq]
@[simp] theorem Flock.advance_unfenced (f : Flock) (n : Nat) : (f.advance n).unfenced = f.unfenced := by rw [Flock.advance_eq]
@[simp] theorem Flock.advance_monitor (f : Flock) (n : Nat) : (f.advance n).monitor = f.monitor := by rw [Flock.advance_eq]
@[simp] theorem Flock.advance_waitedAt (f : Flock) (n : Nat) : (f.advance n).waitedAt = f.waitedAt := by rw [Flock.advance_eq]
@[simp] theorem Flock.advance_wakePending (f : Flock) (n : Nat) : (f.advance n).wakePending = f.wakePending := by rw [Flock.advance_eq]
@[simp] theorem Flock.advance_wakes (f : Flock) (n : Nat) : (f.advance n).wakes = f.wakes := by rw [Flock.advance_eq]
@[simp] theorem Flock.advance_epc (f : Flock) (n : Nat) : (f.advance n).epc = f.epc := by rw [Flock.advance_eq]
@[simp] theorem Flock.advance_ecause (f : Flock) (n : Nat) : (f.advance n).ecause = f.ecause := by rw [Flock.advance_eq]
@[simp] theorem Flock.advance_faddr (f : Flock) (n : Nat) : (f.advance n).faddr = f.faddr := by rw [Flock.advance_eq]
@[simp] theorem Flock.advance_dpc (f : Flock) (n : Nat) : (f.advance n).dpc = f.dpc := by rw [Flock.advance_eq]
@[simp] theorem Flock.advance_tinfo (f : Flock) (n : Nat) : (f.advance n).tinfo = f.tinfo := by rw [Flock.advance_eq]
@[simp] theorem Flock.advance_routine (f : Flock) (n : Nat) : (f.advance n).routine = f.routine := by rw [Flock.advance_eq]
@[simp] theorem Flock.advance_entered (f : Flock) (n : Nat) : (f.advance n).entered = f.entered := by rw [Flock.advance_eq]
@[simp] theorem Flock.advance_entries (f : Flock) (n : Nat) : (f.advance n).entries = f.entries := by rw [Flock.advance_eq]
@[simp] theorem Flock.advance_preempt (f : Flock) (n : Nat) : (f.advance n).preempt = f.preempt := by rw [Flock.advance_eq]
@[simp] theorem Flock.advance_key (f : Flock) (n : Nat) : (f.advance n).key = f.key := by rw [Flock.advance_eq]
@[simp] theorem Flock.advance_draw (f : Flock) (n : Nat) : (f.advance n).draw = f.draw := by rw [Flock.advance_eq]
@[simp] theorem Flock.advance_est (f : Flock) (n : Nat) : (f.advance n).est = f.est := by rw [Flock.advance_eq]
@[simp] theorem Flock.advance_ttag (f : Flock) (n : Nat) : (f.advance n).ttag = f.ttag := by rw [Flock.advance_eq]
@[simp] theorem Flock.advance_deferred (f : Flock) (n : Nat) : (f.advance n).deferred = f.deferred := by rw [Flock.advance_eq]
@[simp] theorem Flock.advance_buf (f : Flock) (n : Nat) : (f.advance n).buf = f.buf := by rw [Flock.advance_eq]
@[simp] theorem Flock.advance_status (f : Flock) (n : Nat) : (f.advance n).status = f.status := by rw [Flock.advance_eq]

@[simp] theorem State.goOn_cur (s : State) (n : Nat) : (s.goOn n).cur = s.cur.advance n := rfl
@[simp] theorem State.advance_cur (s : State) : s.advance.cur = s.cur.advance 4 := rfl
@[simp] theorem State.setStatus_cur (s : State) (x : Status) : (s.setStatus x).cur = { s.cur with status := x } := rfl
@[simp] theorem State.jump_cur (s : State) (a : Addr) : (s.jump a).cur = { s.cur with pc := a } := rfl
@[simp] theorem State.putP_cur (s : State) (r : BitVec 3) (x : Mask) : (s.putP r x).cur = s.cur.setP r x := rfl
@[simp] theorem State.mapFlocks_cur (s : State) (g : Flock → Flock) : (s.mapFlocks g).cur = g s.cur := rfl
@[simp] theorem State.mapFlocks_flocks (s : State) (g : Flock → Flock) : (s.mapFlocks g).flocks = s.flocks.map g := rfl
@[simp] theorem State.draw_free (s : State) (n : Nat) : (s.draw n).2.free = s.free + n := rfl
@[simp] theorem State.draw_fst (s : State) (n : Nat) : (s.draw n).1 = s.free := rfl

end Sys2Proof.Machine
end

