-- ==== Sys2Proof/Laws/Regs.lean ====
section
/-!
SUPPORT. The register files: what a write leaves in every register (R94), and, for a destination that no operation under way touches
(R117), what an instruction that writes one register does to the machine.
-/
namespace Sys2Proof.Machine

theorem Vector.set_get {α : Type} {n : Nat} (v : Vector α n) (i j : Nat) (hi : i < n) (hj : j < n) (x : α) :
    (v.set i x hi)[j] = if i = j then x else v[j] := Vector.getElem_set ..

theorem Flock.getV_setV (f : Flock) (d r : BitVec 6) (x : Lanes) : (f.setV d x).getV r = if r = d then x else f.getV r := by
  simp only [Flock.getV, Flock.setV, Vector.set_get, BitVec.toNat_inj, eq_comm]

theorem Flock.getS_setS (f : Flock) (d r : BitVec 5) (x : DWord) :
    (f.setS d x).getS r = if r = d then (if d = 0 then 0 else x) else f.getS r := by
  by_cases hd : d = 0
  · simp only [Flock.setS, if_pos hd]
    by_cases hr : r = d
    · simp only [Flock.getS, hr, hd, if_true]
    · simp only [if_neg hr]
  · simp only [Flock.setS, if_neg hd]
    by_cases hr : r = d
    · simp only [Flock.getS, hr, if_neg hd, if_true, Vector.set_get]
    · have hn : ¬ d.toNat = r.toNat := fun h => hr (BitVec.toNat_inj.mp h).symm
      simp only [Flock.getS, if_neg hr, Vector.set_get, if_neg hn]

theorem Flock.getA_setA (f : Flock) (d r : BitVec 4) (x : Addr) :
    (f.setA d x).getA r = if r = d then (if d = 0 then 0 else x) else f.getA r := by
  by_cases hd : d = 0
  · simp only [Flock.setA, if_pos hd]
    by_cases hr : r = d
    · simp only [Flock.getA, hr, hd, if_true]
    · simp only [if_neg hr]
  · simp only [Flock.setA, if_neg hd]
    by_cases hr : r = d
    · simp only [Flock.getA, hr, if_neg hd, if_true, Vector.set_get]
    · have hn : ¬ d.toNat = r.toNat := fun h => hr (BitVec.toNat_inj.mp h).symm
      simp only [Flock.getA, if_neg hr, Vector.set_get, if_neg hn]

theorem Flock.getP_setP (f : Flock) (d r : BitVec 3) (x : Mask) :
    (f.setP d x).getP r = if r = d then (if d = 0 then 0xFFFFFFFF else x) else f.getP r := by
  by_cases hd : d = 0
  · simp only [Flock.setP, if_pos hd]
    by_cases hr : r = d
    · simp only [Flock.getP, hr, hd, if_true]
    · simp only [if_neg hr]
  · simp only [Flock.setP, if_neg hd]
    by_cases hr : r = d
    · simp only [Flock.getP, hr, if_neg hd, if_true, Vector.set_get]
    · have hn : ¬ d.toNat = r.toNat := fun h => hr (BitVec.toNat_inj.mp h).symm
      simp only [Flock.getP, if_neg hr, Vector.set_get, if_neg hn]

@[simp] theorem Flock.advance_getV (f : Flock) (n : Nat) (r : BitVec 6) : (f.advance n).getV r = f.getV r := by
  simp [Flock.getV]
@[simp] theorem Flock.advance_getS (f : Flock) (n : Nat) (r : BitVec 5) : (f.advance n).getS r = f.getS r := by
  simp [Flock.getS]
@[simp] theorem Flock.advance_getA (f : Flock) (n : Nat) (r : BitVec 4) : (f.advance n).getA r = f.getA r := by
  simp [Flock.getA]
@[simp] theorem Flock.advance_getP (f : Flock) (n : Nat) (r : BitVec 3) : (f.advance n).getP r = f.getP r := by
  simp [Flock.getP]

theorem Lanes.at_merge (v : Lanes) (m : Mask) (f : Fin 32 → Word) (i : Fin 32) :
    (Lanes.merge v m f).at i = if m.on i then f i else v.at i := by simp [Lanes.merge]

@[simp] theorem Mask.on_zero (i : Fin 32) : Mask.on 0#32 i = false := by simp [Mask.on]

/-! Writes to a register that nothing under way touches. -/

theorem State.putV_free (s : State) (r : BitVec 6) (x : Lanes) (h : s.VectorFree r) :
    s.putV r x = { s with cur := s.cur.setV r x } := by
  unfold State.VectorFree at h
  simp [State.putV, h]

theorem State.putS_free (s : State) (r : BitVec 5) (x : DWord) (h : s.ScalarFree r) :
    s.putS r x = { s with cur := s.cur.setS r x } := by
  unfold State.ScalarFree at h
  simp [State.putS, h]

theorem State.putA_free (s : State) (r : BitVec 4) (x : Addr) (h : s.AddressFree r) :
    s.putA r x = { s with cur := s.cur.setA r x } := by
  unfold State.AddressFree at h
  simp [State.putA, h]

/-- Where a flock goes on depends on its routine, its program counter and its loop levels only (R136, R294). -/
theorem Flock.loopStep_congr (pc next : Addr) (ns : List (BitVec 2)) : ∀ f g : Flock, f.loops = g.loops →
    (f.loopStep pc next ns).pc = (g.loopStep pc next ns).pc ∧ (f.loopStep pc next ns).loops = (g.loopStep pc next ns).loops := by
  induction ns with
  | nil => exact fun _ _ h => ⟨rfl, h⟩
  | cons n ns ih =>
    intro f g h
    have hl : f.getLoop n = g.getLoop n := by simp only [Flock.getLoop, h]
    have hs : ∀ x, (f.setLoop n x).loops = (g.setLoop n x).loops := fun x => by simp only [Flock.setLoop, h]
    unfold Flock.loopStep
    simp only [hl]
    split
    · split
      · exact ⟨rfl, hs _⟩
      · exact ih _ _ (hs _)
    · exact ih _ _ h

theorem Flock.advance_congr (f g : Flock) (n : Nat) (hr : f.routine = g.routine) (hp : f.pc = g.pc) (hl : f.loops = g.loops) :
    (f.advance n).pc = (g.advance n).pc ∧ (f.advance n).loops = (g.advance n).loops := by
  unfold Flock.advance
  rw [hr, hp]
  split
  · exact Flock.loopStep_congr _ _ _ f g hl
  · exact ⟨rfl, hl⟩

/-! A write of a register or a flag moves no flow. -/

@[simp] theorem Flock.setV_advance_pc (f : Flock) (r : BitVec 6) (x : Lanes) (n : Nat) : ((f.setV r x).advance n).pc = (f.advance n).pc :=
  (Flock.advance_congr _ _ n (by simp) (by simp) (by simp)).1
@[simp] theorem Flock.setV_advance_loops (f : Flock) (r : BitVec 6) (x : Lanes) (n : Nat) : ((f.setV r x).advance n).loops = (f.advance n).loops :=
  (Flock.advance_congr _ _ n (by simp) (by simp) (by simp)).2
@[simp] theorem Flock.setS_advance_pc (f : Flock) (r : BitVec 5) (x : DWord) (n : Nat) : ((f.setS r x).advance n).pc = (f.advance n).pc :=
  (Flock.advance_congr _ _ n (by simp) (by simp) (by simp)).1
@[simp] theorem Flock.setS_advance_loops (f : Flock) (r : BitVec 5) (x : DWord) (n : Nat) : ((f.setS r x).advance n).loops = (f.advance n).loops :=
  (Flock.advance_congr _ _ n (by simp) (by simp) (by simp)).2
@[simp] theorem Flock.setA_advance_pc (f : Flock) (r : BitVec 4) (x : Addr) (n : Nat) : ((f.setA r x).advance n).pc = (f.advance n).pc :=
  (Flock.advance_congr _ _ n (by simp) (by simp) (by simp)).1
@[simp] theorem Flock.setA_advance_loops (f : Flock) (r : BitVec 4) (x : Addr) (n : Nat) : ((f.setA r x).advance n).loops = (f.advance n).loops :=
  (Flock.advance_congr _ _ n (by simp) (by simp) (by simp)).2
@[simp] theorem Flock.setP_advance_pc (f : Flock) (r : BitVec 3) (x : Mask) (n : Nat) : ((f.setP r x).advance n).pc = (f.advance n).pc :=
  (Flock.advance_congr _ _ n (by simp) (by simp) (by simp)).1
@[simp] theorem Flock.setP_advance_loops (f : Flock) (r : BitVec 3) (x : Mask) (n : Nat) : ((f.setP r x).advance n).loops = (f.advance n).loops :=
  (Flock.advance_congr _ _ n (by simp) (by simp) (by simp)).2
@[simp] theorem Flock.raise_advance_pc (f : Flock) (x y : Bool) (n : Nat) : ((f.raise x y).advance n).pc = (f.advance n).pc :=
  (Flock.advance_congr _ _ n (by simp) (by simp) (by simp)).1
@[simp] theorem Flock.raise_advance_loops (f : Flock) (x y : Bool) (n : Nat) : ((f.raise x y).advance n).loops = (f.advance n).loops :=
  (Flock.advance_congr _ _ n (by simp) (by simp) (by simp)).2

/-- What a lane write followed by the next instruction does. -/
theorem writes_lanes (s : State) (d : BitVec 6) (m : Mask) (x : Fin 32 → Word) (n : Nat) (h : m = 0 ∨ s.VectorFree d) :
    WritesLanes s ((s.putLanes d m x).goOn n) d m x n := by
  by_cases hm : m = 0
  · subst hm
    refine ⟨fun i => ?_, fun r _ => ?_, rfl⟩
    · simp [State.putLanes, Flock.lane]
    · simp [State.putLanes]
  · have hv := h.resolve_left hm
    simp only [State.putLanes, if_neg hm, State.putV_free _ _ _ hv]
    refine ⟨fun i => ?_, fun r hr => ?_, ?_⟩
    · simp [Flock.lane, Flock.getV_setV, Lanes.at_merge]
    · simp [Flock.getV_setV, hr]
    · simp only [State.goOn]
      rw [Flock.advance_eq, s.cur.advance_eq n]
      simp

theorem writes_scalar (s : State) (d : BitVec 5) (x : DWord) (n : Nat) (h : s.ScalarFree d) :
    WritesScalar s ((s.putS d x).goOn n) d x n := by
  rw [State.putS_free _ _ _ h]
  refine ⟨by simp [Flock.getS_setS], fun r hr => by simp [Flock.getS_setS, hr], ?_⟩
  simp only [State.goOn]
  rw [Flock.advance_eq, s.cur.advance_eq n]
  simp

theorem writes_address (s : State) (d : BitVec 4) (x : Addr) (n : Nat) (h : s.AddressFree d) :
    WritesAddress s ((s.putA d x).goOn n) d x n := by
  rw [State.putA_free _ _ _ h]
  refine ⟨by simp [Flock.getA_setA], fun r hr => by simp [Flock.getA_setA, hr], ?_⟩
  simp only [State.goOn]
  rw [Flock.advance_eq, s.cur.advance_eq n]
  simp

theorem writes_predicate (s : State) (d : BitVec 3) (x : Mask) (n : Nat) : WritesPredicate s ((s.putP d x).goOn n) d x n := by
  refine ⟨by simp [Flock.getP_setP], fun r hr => by simp [Flock.getP_setP, hr], ?_⟩
  simp only [State.goOn, State.putP]
  rw [Flock.advance_eq, s.cur.advance_eq n]
  simp

/-! Flags (R75, R76). -/

theorem anyOf_iff (m : Mask) (f : Fin 32 → Flagged Word) : anyOf m f = true ↔ ∃ i, m.on i = true ∧ (f i).ofl = true := by
  simp [anyOf, activeLanes, lanes, List.any_eq_true]

theorem anyNv_iff (m : Mask) (f : Fin 32 → Flagged Word) : anyNv m f = true ↔ ∃ i, m.on i = true ∧ (f i).nv = true := by
  simp [anyNv, activeLanes, lanes, List.any_eq_true]

@[simp] theorem Flock.busy_raise (f : Flock) (a b : Bool) (p : Dest → Bool) : (f.raise a b).busy p = f.busy p := rfl
@[simp] theorem Flock.operand_raise (f : Flock) (a b : Bool) (r : BitVec 6) : (f.raise a b).operand r = f.operand r := rfl

/-- What a flagged lane write followed by the next instruction does. -/
theorem writes_flagged (s : State) (d : BitVec 6) (m : Mask) (x : Fin 32 → Flagged Word) (n : Nat) (h : m = 0 ∨ s.VectorFree d) :
    WritesFlagged s ((s.putFlagged d m x).goOn n) d m x n := by
  have h' : m = 0 ∨ State.VectorFree { s with cur := s.cur.raise (anyOf m x) (anyNv m x) } d := h
  obtain ⟨h1, h2, h3⟩ := writes_lanes { s with cur := s.cur.raise (anyOf m x) (anyNv m x) } d m (fun i => (x i).val) n h'
  refine ⟨h1, h2, ?_, ?_⟩
  · have := congrArg (fun t : State => t.cur.fcr) h3
    refine this.trans ?_
    have e1 : (anyOf m x = true) = (∃ i, m.on i = true ∧ (x i).ofl = true) := propext (anyOf_iff m x)
    have e2 : (anyNv m x = true) = (∃ i, m.on i = true ∧ (x i).nv = true) := propext (anyNv_iff m x)
    simp only [Flock.advance_fcr, Flock.raise, flagBits, e1, e2, BitVec.or_assoc]
  · unfold State.putFlagged
    refine h3.trans ?_
    conv => rhs; rw [h3]
    rw [Flock.advance_eq, s.cur.advance_eq n]
    simp

end Sys2Proof.Machine
end

