-- ==== Sys2Proof/Laws/Ops.lean ====
section
/-!
SUPPORT. The shared operations: how a meaning ends (`settle`, `takeTrap`), and what the issue of a counted operation does (R115 to R117).
-/
namespace Sys2Proof.Machine

@[simp] theorem Flock.active_zero (f : Flock) : f.active 0 = f.em := by
  simp only [Flock.active, Flock.getP, if_true]
  exact BitVec.and_allOnes (w := 32)

/-! The end of a meaning. -/

@[simp] theorem State.settle_ok (s t : State) : s.settle (.ok t) = .next t := rfl
@[simp] theorem State.settle_trap (s : State) (i : TrapInfo) : s.settle (.error (.trap i)) = .next (s.takeTrap i s.cur.pc) := rfl
@[simp] theorem State.settle_block (s : State) (b : Block) :
    s.settle (.error (.block b)) = .next { s with cur := { s.cur with status := .blocked b } } := rfl

@[simp] theorem bind_ok {α β : Type} (x : α) (f : α → Except Bad β) : (Except.ok x >>= f) = f x := rfl
@[simp] theorem bind_error {α β : Type} (b : Bad) (f : α → Except Bad β) : (Except.error b >>= f) = .error b := rfl
theorem bind_eq_ok {α β : Type} {x : Except Bad α} {f : α → Except Bad β} {b : β} (h : (x >>= f) = .ok b) : ∃ a, x = .ok a ∧ f a = .ok b := by
  cases x with
  | error e => cases h
  | ok a => exact ⟨a, rfl, h⟩

/-- A trap that may be taken enters the trap routine (R285, R293). -/
theorem State.takeTrap_enter (s : State) (t : TrapInfo) (epc : Addr) (dpc : Option Addr) (h : s.MayTrap) (h1 : t.kind ≠ 0x20) (h2 : t.kind ≠ 0x21)
    (h3 : t.isPageFault = false ∨ s.cur.supervises = true) :
    s.takeTrap t epc dpc = { s with cur := s.cur.enter .trap (s.ctx s.cur.ctx).tvec epc dpc t s.nextId } := by
  have h4 : (t.isPageFault && !s.cur.supervises) = false := by rcases h3 with h3 | h3 <;> simp [h3]
  have hv : (s.ctx s.cur.ctx).tvec ≠ 0#72 := h.2
  unfold State.takeTrap
  rw [if_neg (not_or.mpr ⟨h1, h2⟩), if_neg (by simp [h.1]), if_neg (by simp [h4]), if_neg (by simp [hv])]

/-- A trap that cannot be taken ends the launch or the supervisor (R285). -/
theorem State.takeTrap_end (s : State) (t : TrapInfo) (epc : Addr) (dpc : Option Addr) (h : ¬ s.MayTrap)
    (h3 : t.isPageFault = false ∨ s.cur.supervises = true) : s.takeTrap t epc dpc = s.endFaulted := by
  have h4 : (t.isPageFault && !s.cur.supervises) = false := by rcases h3 with h3 | h3 <;> simp [h3]
  unfold State.takeTrap
  split
  · rfl
  · split
    · rfl
    · rename_i hr
      simp only [h4, Bool.false_eq_true, if_false]
      have : (s.ctx s.cur.ctx).tvec = 0 := by
        rcases Classical.em ((s.ctx s.cur.ctx).tvec = 0) with hv | hv
        · exact hv
        · exact absurd ⟨by simpa using hr, hv⟩ h
      simp [this]

/-! Issue. -/

theorem State.room_ok (s : State) (c : Class) (h : s.Ready c) : s.room c = .ok () := if_pos h

theorem Flock.spoil_free (f : Flock) (p : Dest → Bool) (h : f.busy p = false) : f.spoil p = f := by
  have : (f.pend.map fun o => if o.done then o else { o with dests := o.dests.map fun d => if p d then d.spoil else d }) = f.pend := by
    conv => rhs; rw [← List.map_id f.pend]
    refine List.map_congr_left fun o ho => ?_
    simp only [Flock.busy, List.any_eq_false, Bool.and_eq_true, Bool.not_eq_true', not_and] at h
    cases hd : o.done with
    | true => simp
    | false =>
      have hx := h o ho hd
      have : o.dests.map (fun d => if p d then d.spoil else d) = o.dests := by
        conv => rhs; rw [← List.map_id o.dests]
        refine List.map_congr_left fun d hd => ?_
        have := hx
        simp only [List.any_eq_true, not_exists, not_and, Bool.not_eq_true] at this
        simp [this d hd]
      simp only [Bool.false_eq_true, if_false, this]
      rw [← hd]; rfl
  simp only [Flock.spoil, this]

theorem State.destFree_busy {s : State} {d : Dest} (h : s.DestFree d) : s.cur.busy d.same = false := by
  cases d with
  | vector r o n b => simp only [State.DestFree, State.VectorFree, Bool.or_eq_false_iff] at h; exact h.1
  | scalar r o n b => exact h
  | address r o n b => exact h

theorem State.destFree_operand {s : State} {d : Dest} (h : s.DestFree d) : s.cur.operandDest d = false := by
  cases d with
  | vector r o n b => simp only [State.DestFree, State.VectorFree, Bool.or_eq_false_iff] at h; exact h.2
  | scalar r o n b => rfl
  | address r o n b => rfl

theorem Flock.spoil_regs (f : Flock) (rs : List (BitVec 6)) (h : ∀ r ∈ rs, f.busy (Dest.isVector r) = false) :
    rs.foldl (fun (g : Flock) r => g.spoil (Dest.isVector r)) f = f := by
  induction rs with
  | nil => rfl
  | cons r rs ih =>
    rw [List.foldl_cons, Flock.spoil_free f _ (h r (by simp))]
    exact ih fun x hx => h x (by simp [hx])

theorem Flock.spoil_all (f : Flock) (ds : List Dest) (h : ∀ d ∈ ds, f.busy d.same = false) :
    ds.foldl (fun (g : Flock) d => g.spoil d.same) f = f := by
  induction ds with
  | nil => rfl
  | cons d ds ih =>
    simp only [List.foldl_cons]
    rw [Flock.spoil_free f _ (h d (by simp))]
    exact ih fun x hx => h x (by simp [hx])

theorem Flock.cover_eq (f : Flock) (n : Nat) (ds : List Dest) :
    f.cover n ds = { f with v := (f.cover n ds).v, s := (f.cover n ds).s, a := (f.cover n ds).a } := by
  induction ds generalizing f n with
  | nil => rfl
  | cons d ds ih =>
    simp only [Flock.cover]
    rw [ih]
    cases d with
    | vector r o x b => rfl
    | scalar r o x b => simp only [Flock.setS]; split <;> rfl
    | address r o x b => simp only [Flock.setA]; split <;> rfl

theorem Flock.cover_getV (f : Flock) (n : Nat) (ds : List Dest) (r : BitVec 6) (h : ∀ d ∈ ds, Dest.isVector r d = false) :
    (f.cover n ds).getV r = f.getV r := by
  induction ds generalizing f n with
  | nil => rfl
  | cons d ds ih =>
    simp only [Flock.cover]
    rw [ih _ _ fun x hx => h x (by simp [hx])]
    have hd := h d (by simp)
    cases d with
    | vector q o x b =>
      simp only [Dest.isVector, beq_eq_false_iff_ne] at hd
      simp [Flock.getV_setV, hd.symm]
    | scalar q o x b => simp only [Flock.setS]; split <;> rfl
    | address q o x b => simp only [Flock.setA]; split <;> rfl

theorem Flock.cover_getS (f : Flock) (n : Nat) (ds : List Dest) (r : BitVec 5) (h : ∀ d ∈ ds, Dest.isScalar r d = false) :
    (f.cover n ds).getS r = f.getS r := by
  induction ds generalizing f n with
  | nil => rfl
  | cons d ds ih =>
    simp only [Flock.cover]
    rw [ih _ _ fun x hx => h x (by simp [hx])]
    have hd := h d (by simp)
    cases d with
    | vector q o x b => rfl
    | scalar q o x b =>
      simp only [Dest.isScalar, beq_eq_false_iff_ne] at hd
      simp [Flock.getS_setS, hd.symm]
    | address q o x b => simp only [Flock.setA]; split <;> rfl

theorem Flock.cover_getA (f : Flock) (n : Nat) (ds : List Dest) (r : BitVec 4) (h : ∀ d ∈ ds, Dest.isAddress r d = false) :
    (f.cover n ds).getA r = f.getA r := by
  induction ds generalizing f n with
  | nil => rfl
  | cons d ds ih =>
    simp only [Flock.cover]
    rw [ih _ _ fun x hx => h x (by simp [hx])]
    have hd := h d (by simp)
    cases d with
    | vector q o x b => rfl
    | scalar q o x b => simp only [Flock.setS]; split <;> rfl
    | address q o x b =>
      simp only [Dest.isAddress, beq_eq_false_iff_ne] at hd
      simp [Flock.getA_setA, hd.symm]

@[simp] theorem State.spoilTiles_nil (s : State) (fd : Nat) : s.spoilTiles fd [] = s := rfl

/-- The issue of an operation, none of whose destinations and operand registers is under way: it joins the operations under way, and its destinations show values
that nothing is known of. -/
theorem State.issue_free (s : State) (mk : PendOp → PendOp) (c : Class)
    (hf : ∀ d ∈ (mk (PendOp.start s.nextId c s.cur.pc)).dests, s.DestFree d)
    (hq : ∀ r ∈ (mk (PendOp.start s.nextId c s.cur.pc)).readRegs, s.cur.busy (Dest.isVector r) = false) :
    let o := mk (PendOp.start s.nextId c s.cur.pc)
    s.issue mk c = { s with
      cur := { s.cur.cover s.free o.dests with pend := s.cur.pend ++ [o] }, free := s.free + 32 * o.dests.length, nextId := s.nextId + 1 } := by
  intro o
  have hb : ∀ d ∈ o.dests, s.cur.busy d.same = false := fun d hd => State.destFree_busy (hf d hd)
  have hnot : ∀ d ∈ o.dests, s.cur.operandDest d = false := fun d hd => State.destFree_operand (hf d hd)
  have hmap : (o.dests.map fun d => if s.cur.busy d.same || s.cur.operandDest d then d.spoil else d) = o.dests := by
    conv => rhs; rw [← List.map_id o.dests]
    exact List.map_congr_left fun d hd => by simp [hb d hd, hnot d hd]
  have hop : ∀ ops : List (BitVec 6), (∀ r ∈ ops, ∃ v n b, Dest.vector r v n b ∈ o.dests) →
      (s.cur.pend.filter fun p => !p.done && p.readRegs.any fun r => ops.contains r) = [] := by
    intro ops hops
    refine List.filter_eq_nil_iff.mpr fun p hp => ?_
    simp only [Bool.and_eq_true, Bool.not_eq_true', List.any_eq_true, List.contains_iff_mem, not_and, not_exists]
    intro hd r hr hm
    obtain ⟨v, n, b, hdm⟩ := hops r hm
    have h1 := hf _ hdm
    simp only [State.DestFree, State.VectorFree, Bool.or_eq_false_iff] at h1
    have h2 := h1.2
    simp only [Flock.operand, List.any_eq_false, Bool.and_eq_true, Bool.not_eq_true', List.contains_iff_mem, not_and] at h2
    exact h2 p hp hd hr
  have hs := Flock.spoil_all s.cur o.dests hb
  simp only [State.issue, State.draw]
  change State.spoilTiles _ _ (List.flatMap _ (List.filter _ _)) = _
  rw [hop _ (by
    intro r hr
    obtain ⟨d, hd, he⟩ := List.mem_filterMap.mp hr
    cases d with
    | vector q v n b => exact ⟨v, n, b, by cases he; exact hd⟩
    | scalar q v n b => cases he
    | address q v n b => cases he)]
  simp only [List.flatMap_nil, State.spoilTiles_nil]
  rw [show (List.foldl (fun f d => f.spoil d.same) s.cur (mk (PendOp.start s.nextId c s.cur.pc)).dests) = s.cur from hs]
  rw [Flock.spoil_regs s.cur _ hq]
  rw [show ((mk (PendOp.start s.nextId c s.cur.pc)).dests.map fun d =>
    if s.cur.busy d.same || s.cur.operandDest d then d.spoil else d) = o.dests from hmap]
  rw [Flock.cover_eq]

/-- `Issued` is what the issue of an operation, followed by the next instruction, gives. -/
theorem State.issue_issued (s : State) (mk : PendOp → PendOp) (c : Class)
    (hid : (mk (PendOp.start s.nextId c s.cur.pc)).id = s.nextId) (hpc : (mk (PendOp.start s.nextId c s.cur.pc)).pc = s.cur.pc)
    (hdone : (mk (PendOp.start s.nextId c s.cur.pc)).done = false)
    (hf : ∀ d ∈ (mk (PendOp.start s.nextId c s.cur.pc)).dests, s.DestFree d)
    (hq : ∀ r ∈ (mk (PendOp.start s.nextId c s.cur.pc)).readRegs, s.cur.busy (Dest.isVector r) = false) :
    Issued s (s.issue mk c).advance (mk (PendOp.start s.nextId c s.cur.pc)) := by
  rw [State.issue_free s mk c hf hq]
  refine ⟨by simp, hid, hpc, hdone, fun r hr => ?_, fun r hr => ?_, fun r hr => ?_, ?_⟩
  · simpa [Flock.getV] using Flock.cover_getV s.cur s.free _ r hr
  · simpa [Flock.getS] using Flock.cover_getS s.cur s.free _ r hr
  · simpa [Flock.getA] using Flock.cover_getA s.cur s.free _ r hr
  · simp only [State.advance, State.goOn]
    have h := fun v x a p => Flock.advance_congr { s.cur with v := v, s := x, a := a, pend := p } s.cur 4 rfl rfl rfl
    rw [Flock.advance_eq, Flock.cover_eq, (h _ _ _ _).1, (h _ _ _ _).2]
    simp

end Sys2Proof.Machine
end

