-- ==== Sys2Proof/Laws/Write.lean ====
section
/-!
SUPPORT. What a write of memory does: it keeps the canonical form, touches only what stands beside memory, and leaves every other byte as
it was (R167, R171, R240, R257, R344).
-/
namespace Sys2Proof.Machine

/-! Tables. -/

theorem lookup_cons {α : Type} (j : Nat) (w : α) (t : List (Nat × α)) (k : Nat) :
    lookup ((j, w) :: t) k = if j = k then some w else lookup t k := by
  by_cases h : j = k <;> simp [lookup, h]

/-- An entry reads as stored, and every other as before. -/
theorem lookup_store {α : Type} (t : List (Nat × α)) (k x : Nat) (v : α) :
    lookup (store t k v) x = if x = k then some v else lookup t x := by
  induction t with
  | nil => by_cases h : k = x <;> simp [store, lookup_cons, h, eq_comm]
  | cons e t ih =>
    obtain ⟨j, w⟩ := e
    simp only [store]
    split
    · rw [lookup_cons, ih, lookup_cons]
      split <;> split <;> first | rfl | omega
    · split
      · subst_vars
        rw [lookup_cons, lookup_cons]
        split <;> split <;> first | rfl | omega
      · rw [lookup_cons]
        by_cases hx : x = k
        · simp [hx]
        · simp [hx, Ne.symm hx]

theorem mem_store {α : Type} {t : List (Nat × α)} {k : Nat} {v : α} {c : Nat × α} (h : c ∈ store t k v) : c = (k, v) ∨ c ∈ t := by
  induction t with
  | nil => simpa [store] using h
  | cons e t ih =>
    simp only [store] at h
    split at h
    · rcases List.mem_cons.mp h with h | h
      · exact .inr (h ▸ List.mem_cons_self ..)
      · exact (ih h).imp_right (List.mem_cons_of_mem _)
    · split at h
      · rcases List.mem_cons.mp h with h | h
        · exact .inl h
        · exact .inr (List.mem_cons_of_mem _ h)
      · exact List.mem_cons.mp h

/-- A table with rising keys keeps them so. -/
theorem store_sorted {α : Type} (t : List (Nat × α)) (k : Nat) (v : α) (h : t.Pairwise (fun a b => a.1 < b.1)) :
    (store t k v).Pairwise (fun a b => a.1 < b.1) := by
  induction t with
  | nil => simp [store]
  | cons e t ih =>
    obtain ⟨j, w⟩ := e
    rw [List.pairwise_cons] at h
    simp only [store]
    split
    · refine List.pairwise_cons.mpr ⟨fun c hc => ?_, ih h.2⟩
      rcases mem_store hc with rfl | hc
      · assumption
      · exact h.1 c hc
    · split
      · subst_vars
        exact List.pairwise_cons.mpr h
      · refine List.pairwise_cons.mpr ⟨fun c hc => ?_, List.pairwise_cons.mpr h⟩
        rcases List.mem_cons.mp hc with rfl | hc
        · show k < j; omega
        · have := h.1 c hc
          show k < c.1
          simp only at this; omega

theorem lookup_filter {α : Type} (p : Nat → Bool) (t : List (Nat × α)) (k : Nat) :
    lookup (t.filter fun c => p c.1) k = if p k then lookup t k else none := by
  induction t with
  | nil => simp [lookup]
  | cons e t ih =>
    obtain ⟨j, w⟩ := e
    rw [List.filter_cons]
    by_cases hj : j = k
    · subst hj
      by_cases hp : p j = true
      · simp [hp, lookup_cons]
      · simp [hp, ih]
    · by_cases hp : p j = true
      · simp [hp, lookup_cons, hj, ih]
      · simp [hp, lookup_cons, hj, ih]

theorem lookup_bytes {α β : Type} (t : List (Nat × α)) (g : Nat × α → β) (k : Nat) :
    lookup (t.map fun c => (c.1, g c)) k = (lookup t k).map fun v => g (k, v) := by
  induction t with
  | nil => rfl
  | cons e t ih =>
    rw [List.map_cons, lookup_cons, ih, lookup_cons]
    by_cases h : e.1 = k
    · subst h; simp
    · simp [h]

theorem mem_of_lookup {α : Type} {t : List (Nat × α)} {k : Nat} {v : α} (h : lookup t k = some v) : (k, v) ∈ t := by
  simp only [lookup, Option.map_eq_some_iff] at h
  obtain ⟨e, he, rfl⟩ := h
  have h1 := List.find?_some he
  simp only [beq_iff_eq] at h1
  rw [← h1]
  exact List.mem_of_find?_eq_some he

theorem lookup_some_of_mem {α : Type} {t : List (Nat × α)} {c : Nat × α} (h : c ∈ t) : (lookup t c.1).isSome = true := by
  simp only [lookup, Option.isSome_map, List.find?_isSome]
  exact ⟨c, h, by simp⟩

theorem lookup_none_of {α : Type} {t : List (Nat × α)} {k : Nat} (h : ∀ c ∈ t, c.1 ≠ k) : lookup t k = none := by
  cases hk : lookup t k with
  | none => rfl
  | some v => exact absurd rfl (h _ (mem_of_lookup hk))

theorem keep_all {α : Type} (t : List α) : t.filter (fun _ => true) = t := by simp
theorem keep_none {α : Type} (t : List α) : t.filter (fun _ => false) = [] := by simp

/-! Tables of other devices' bytes (R257). -/

theorem FarTable.nil {α : Type} : FarTable (α := α) [] := ⟨.nil, by simp⟩

theorem FarTable.filter {α : Type} {m : List (Nat × α)} (h : FarTable m) (p : Nat × α → Bool) : FarTable (m.filter p) :=
  ⟨h.1.filter _, fun c hc => h.2 c (List.mem_filter.mp hc).1⟩

/-- A table whose bytes change stays one. -/
theorem FarTable.bytes {α β : Type} {m : List (Nat × α)} (h : FarTable m) (g : Nat × α → β) : FarTable (m.map fun c => (c.1, g c)) := by
  refine ⟨List.pairwise_map.mpr h.1, fun c hc => ?_⟩
  obtain ⟨k, hk, rfl⟩ := List.mem_map.mp hc
  exact h.2 k hk

theorem FarTable.below {α : Type} {m : List (Nat × α)} (h : FarTable m) {a : Nat} (ha : a < Config.apertureBase) : lookup m a = none :=
  lookup_none_of fun c hc e => by have := h.2 c hc; omega

/-- Bytes stored one after the other into a table. -/
abbrev storeAll {α : Type} (m ws : List (Nat × α)) : List (Nat × α) := ws.foldl (fun m w => store m w.1 w.2) m

theorem mem_storeAll {α : Type} {ws m : List (Nat × α)} {c : Nat × α} (h : c ∈ storeAll m ws) : c ∈ ws ∨ c ∈ m := by
  induction ws generalizing m with
  | nil => exact .inr h
  | cons w ws ih =>
    rcases ih h with h | h
    · exact .inl (List.mem_cons_of_mem _ h)
    · rcases mem_store h with h | h
      · exact .inl (h ▸ List.mem_cons_self ..)
      · exact .inr h

theorem FarTable.storeAll {α : Type} {m : List (Nat × α)} (h : FarTable m) (ws : List (Nat × α)) (hw : ∀ w ∈ ws, Config.apertureBase ≤ w.1) :
    FarTable (storeAll m ws) := by
  refine ⟨?_, fun c hc => (mem_storeAll hc).elim (hw c) (h.2 c)⟩
  clear hw
  have hs := h.1
  clear h
  induction ws generalizing m with
  | nil => exact hs
  | cons w ws ih => exact ih (store_sorted m w.1 w.2 hs)

theorem FarTable.cells {m : Mem} (h : FarTable m) (ws : List (Nat × Byte)) (hw : ∀ w ∈ ws, Config.apertureBase ≤ w.1) :
    FarTable (ws.foldl (fun (m : Mem) (w : Nat × Byte) => store m w.1 w.2) m) := h.storeAll ws hw

/-! The canonical form. -/

theorem State.Canonical.of_eq {s t : State} (h : s.Canonical) (hm : t.mem = s.mem) (hr : t.remote = s.remote) (hc : t.clean = s.clean) :
    t.Canonical := by
  unfold State.Canonical
  rw [hm, hr, hc]
  exact h

/-- The form holds after bytes of this device and the host are written, and some of what the L2 holds of other devices has left it. -/
theorem State.Canonical.shrink {s t : State} (h : s.Canonical) (ws : List (Nat × Byte)) (p : Nat × Byte × Byte → Bool)
    (hm : t.mem = s.mem.writeAll ws) (hr : t.remote = s.remote.filter p) (hc : FarTable t.clean) : t.Canonical :=
  ⟨hm ▸ Mem.writeAll_wf _ _ h.1, hr ▸ h.2.1.filter p, hc⟩

theorem Mem.filter_wfFrom (p : Nat × Byte → Bool) (m : Mem) (lo : Option Nat) (h : Mem.wfFrom lo m = true) :
    Mem.wfFrom lo (m.filter p) = true := by
  induction m generalizing lo with
  | nil => rfl
  | cons c t ih =>
    obtain ⟨k, x⟩ := c
    simp only [Mem.wfFrom, Bool.and_eq_true] at h
    rw [List.filter_cons]
    split
    · simp only [Mem.wfFrom, Bool.and_eq_true]
      exact ⟨h.1, ih (some k) h.2⟩
    · refine ih lo ?_
      cases lo with
      | none => exact Mem.wfFrom_some h.2
      | some l =>
        have := h.1.1
        simp only [decide_eq_true_eq] at this
        exact Mem.wfFrom_lower (by omega) h.2

/-- A part of a canonical memory is canonical. -/
theorem Mem.filter_wf (p : Nat × Byte → Bool) (m : Mem) (h : m.wf = true) : Mem.wf (m.filter p) = true :=
  Mem.filter_wfFrom p m none h

/-! What takes notice of a write. -/

@[simp] theorem State.signal_mem (s : State) (ls : List Nat) : (s.signal ls).mem = s.mem := rfl
@[simp] theorem State.signal_remote (s : State) (ls : List Nat) : (s.signal ls).remote = s.remote := rfl

/-- A signal changes monitors only. -/
theorem State.signal_only (s : State) (ls : List Nat) : OnlyMemory s (s.signal ls) := by
  refine ⟨?_, rfl, ?_⟩
  · simp only [State.signal, State.mapFlocks, List.map_map]
    refine List.map_congr_left fun f _ => ?_
    simp only [Function.comp]
    split <;> rfl
  · simp only [State.signal, State.mapFlocks]
    congr 1
    split <;> rfl

theorem OnlyMemory.rfl' (s : State) : OnlyMemory s s := ⟨rfl, rfl, rfl⟩

theorem OnlyMemory.trans {s t u : State} (h1 : OnlyMemory s t) (h2 : OnlyMemory t u) : OnlyMemory s u := by
  obtain ⟨a1, l1, a2⟩ := h1
  obtain ⟨b1, l2, b2⟩ := h2
  refine ⟨b1.trans a1, l2.trans l1, ?_⟩
  conv => lhs; rw [b2]
  conv => lhs; rw [a2]

/-- A change of what stands beside memory only. -/
theorem onlyMemory_of (s : State) (m c : Mem) (r : List (Nat × Byte × Byte)) (ds : List Nat) (fl : List (Nat × Nat × Byte)) (tg : List TagLine)
    (sn : List Snapshot) (x : List Command) (p : Plewick) (n : Nat) (us : List Nat) :
    OnlyMemory s { s with
      mem := m, remote := r, clean := c, dirty := ds, inFlight := fl, tags := tg, snapshots := sn, commands := x, plewick := p, free := n, used := us } :=
  ⟨rfl, rfl, rfl⟩

theorem State.notice_only (s : State) (ws : List (Nat × Byte)) (secure : Bool) : OnlyMemory s (s.notice ws secure) := ⟨rfl, rfl, rfl⟩
theorem State.noticed_only (s : State) (x : List Command) (p : Plewick) : OnlyMemory s { s with commands := x, plewick := p } := ⟨rfl, rfl, rfl⟩
theorem State.touchLines_only (s : State) (ls : List Nat) : OnlyMemory s (s.touchLines ls) := ⟨rfl, rfl, rfl⟩

@[simp] theorem State.notice_mem (s : State) (ws : List (Nat × Byte)) (secure : Bool) : (s.notice ws secure).mem = s.mem := rfl
@[simp] theorem State.notice_remote (s : State) (ws : List (Nat × Byte)) (secure : Bool) : (s.notice ws secure).remote = s.remote := rfl
@[simp] theorem State.notice_clean (s : State) (ws : List (Nat × Byte)) (secure : Bool) : (s.notice ws secure).clean = s.clean := rfl

/-- Several writes, each taken notice of, change commands and the Plewick block only. -/
theorem State.notices {α : Type} (f : α → List (Nat × Byte)) (g : α → Bool) (ks : List α) (s : State) :
    ∃ x p, ks.foldl (fun (t : State) k => t.notice (f k) (g k)) s = { s with commands := x, plewick := p } := by
  induction ks generalizing s with
  | nil => exact ⟨_, _, rfl⟩
  | cons k ks ih =>
    obtain ⟨x, p, h⟩ := ih (s.notice (f k) (g k))
    exact ⟨x, p, h⟩

/-- Software's writes to words of the device alone and to records draw free values, and leave the launches of such records without known values (R43). -/
theorem State.hideWords_state (s : State) (ws : List (Nat × Byte)) :
    ∃ p : Launch → Bool, (s.hideWords ws).2 =
      { s with free := (s.hideWords ws).2.free, launches := s.launches.map fun l => if p l then { l with spoiled := true } else l } := by
  unfold State.hideWords
  dsimp only
  split
  · exact ⟨fun _ => false, by simp⟩
  · exact ⟨_, rfl⟩

theorem State.hideWords_only (s : State) (ws : List (Nat × Byte)) : OnlyMemory s (s.hideWords ws).2 := by
  obtain ⟨p, h⟩ := s.hideWords_state ws
  rw [h]
  refine ⟨rfl, ?_, rfl⟩
  simp only [List.map_map]
  refine List.map_congr_left fun l _ => ?_
  simp only [Function.comp]
  split <;> rfl

@[simp] theorem State.hideWords_mem (s : State) (ws : List (Nat × Byte)) : (s.hideWords ws).2.mem = s.mem := by
  obtain ⟨p, h⟩ := s.hideWords_state ws
  rw [h]
@[simp] theorem State.hideWords_remote (s : State) (ws : List (Nat × Byte)) : (s.hideWords ws).2.remote = s.remote := by
  obtain ⟨p, h⟩ := s.hideWords_state ws
  rw [h]
@[simp] theorem State.hideWords_clean (s : State) (ws : List (Nat × Byte)) : (s.hideWords ws).2.clean = s.clean := by
  obtain ⟨p, h⟩ := s.hideWords_state ws
  rw [h]

/-- The offsets of words that only the device writes are those of whole words. -/
theorem controlOffset_word (m r : Nat) (h : r < 8) : controlOffset (8 * m + r) = controlOffset (8 * m) := by
  simp only [controlOffset]
  have h1 : (decide (0x100 ≤ 8 * m + r ∧ 8 * m + r < 0x108)) = decide (0x100 ≤ 8 * m ∧ 8 * m < 0x108) := by
    rw [decide_eq_decide]; omega
  have h2 : (decide (0x180 ≤ 8 * m + r ∧ 8 * m + r < 0x1A0)) = decide (0x180 ≤ 8 * m ∧ 8 * m < 0x1A0) := by
    rw [decide_eq_decide]; omega
  have h3 : (decide (0x800 ≤ 8 * m + r ∧ 8 * m + r < 0x1000)) = decide (0x800 ≤ 8 * m ∧ 8 * m < 0x1000) := by
    rw [decide_eq_decide]; omega
  have h4 : (decide (0x1000 ≤ 8 * m + r ∧ 8 * m + r < 0x21000)) = decide (0x1000 ≤ 8 * m ∧ 8 * m < 0x21000) := by
    rw [decide_eq_decide]; omega
  rw [h1, h2, h3, h4]
  by_cases hc : 0x1000 ≤ 8 * m
  · obtain ⟨q, hq, hq'⟩ : ∃ q, (8 * m - 0x1000) % 0x4000 = 8 * q ∧ (8 * m + r - 0x1000) % 0x4000 = 8 * q + r := ⟨(8 * m - 0x1000) % 0x4000 / 8, by omega, by omega⟩
    rw [hq, hq']
    have h5 : decide (8 * q + r < 8) = decide (8 * q < 8) := by rw [decide_eq_decide]; omega
    have h6 : decide (0x100 ≤ 8 * q + r ∧ 8 * q + r < 0x2100 ∧ 0x18 ≤ (8 * q + r - 0x100) % 128 ∧ (8 * q + r - 0x100) % 128 < 0x20) =
        decide (0x100 ≤ 8 * q ∧ 8 * q < 0x2100 ∧ 0x18 ≤ (8 * q - 0x100) % 128 ∧ (8 * q - 0x100) % 128 < 0x20) := by
      rw [decide_eq_decide]; omega
    rw [h5, h6]
  · have : decide (0x1000 ≤ 8 * m ∧ 8 * m < 0x21000) = false := by simp; omega
    rw [this]; simp

/-- Each byte of a word of the device alone lies in that word. -/
theorem State.hardwareWord_within {s : State} {a b : Nat} (h : s.hardwareWord a = some b) (k : Nat) (hk : k < 8) : s.hardwareWord (b + k) = some b := by
  simp only [hardwareWord] at h ⊢
  split at h
  · rename_i hc
    cases h
    simp only [Bool.and_eq_true, decide_eq_true_eq] at hc
    obtain ⟨⟨h1, h2⟩, h3⟩ := hc
    have he : a - s.setup.control = 8 * ((a - s.setup.control) / 8) + (a - s.setup.control) % 8 := by omega
    rw [he, controlOffset_word _ _ (by omega)] at h3
    have ho : s.setup.control + (a - s.setup.control) / 8 * 8 + k - s.setup.control = 8 * ((a - s.setup.control) / 8) + k := by omega
    have hd : (8 * ((a - s.setup.control) / 8) + k) / 8 = (a - s.setup.control) / 8 := by omega
    rw [ho, controlOffset_word _ _ hk, hd, if_pos]
    simp only [Bool.and_eq_true, decide_eq_true_eq]
    exact ⟨⟨h1, by omega⟩, h3⟩
  · cases h
/-- The writes that are left touch what was to be written, and what is unknown with that. -/
theorem State.hideWords_touch (s : State) (ws : List (Nat × Byte)) (x : Nat × Byte) (hx : x ∈ (s.hideWords ws).1) :
    ∃ w ∈ ws, w.1 = x.1 ∨ s.Kin w.1 x.1 := by
  unfold State.hideWords at hx
  dsimp only at hx
  split at hx
  · exact ⟨x, hx, .inl rfl⟩
  · simp only [List.mem_append, List.mem_filter, List.mem_map] at hx
    rcases hx with ⟨hx, -⟩ | ⟨⟨a, i⟩, he, rfl⟩
    · exact ⟨x, hx, .inl rfl⟩
    · have ha := List.fst_mem_of_mem_zipIdx he
      simp only [List.mem_append, List.mem_flatMap, List.mem_eraseDups, List.mem_filterMap, List.mem_map, List.mem_range, List.mem_filter,
        List.any_eq_true, List.contains_eq_mem, decide_eq_true_eq] at ha
      rcases ha with ⟨b, ⟨w, hw, hb⟩, k, hk, rfl⟩ | ⟨l, ⟨hl, w, hw, hwl⟩, ha⟩
      · refine ⟨w, hw, .inr (.inl ?_)⟩
        have := State.hardwareWord_within hb k hk
        exact ⟨by simp [this], by rw [hb, this]⟩
      · exact ⟨w, hw, .inr (.inr ⟨l, hl, hwl, ha⟩)⟩

/-- What a snapshot writes stands in the copies of its pending lines (R344). -/
theorem Snapshot.keep_target (s : State) (n : Nat) (ls : List Nat) (sn : Snapshot) (w : Nat × Byte) (hw : w ∈ (Snapshot.keep s n ls sn).2) :
    s.begun sn = true ∧ ∃ p ∈ sn.pending, p.2 ≤ w.1 ∧ w.1 < p.2 + 64 := by
  unfold Snapshot.keep at hw
  split at hw
  · simp at hw
  · rename_i ha
    refine ⟨by simpa using ha, ?_⟩
    replace hw := (List.mem_filter.mp hw).1
    simp only [List.mem_flatMap] at hw
    obtain ⟨e, he, hw⟩ := hw
    obtain ⟨p, i⟩ := e
    have hp := (List.mem_zipIdx he).2.2
    have hp' : p ∈ sn.pending := by
      have := List.getElem_mem (l := List.filter (fun p => ls.contains p.1) sn.pending) (n := i - 0) (by have := List.mem_zipIdx he; omega)
      rw [← hp] at this
      exact (List.mem_filter.mp this).1
    refine ⟨p, hp', ?_⟩
    simp only [cellsAt, List.mem_map] at hw
    obtain ⟨e, he, rfl⟩ := hw
    have hlen : (s.snapBytes (n + 64 * i) p.1).length = 64 := by
      unfold State.snapBytes
      split <;> simp [Mem.bytes]
    have := List.mem_zipIdx he
    simp only [hlen] at this
    simp only
    omega

/-- What keeping old lines for snapshots leaves: writes that the copies are, or that go with them. -/
theorem State.keepOld_stored (s : State) (ls : List Nat) :
    OnlyMemory s (s.keepOld ls) ∧ (s.keepOld ls).remote = s.remote ∧ (s.keepOld ls).clean = s.clean ∧
      ∃ ws : List (Nat × Byte), (s.keepOld ls).mem = s.mem.writeAll ws ∧ ∀ w ∈ ws, s.SnapTouched w.1 := by
  unfold State.keepOld
  split
  · exact ⟨OnlyMemory.rfl' s, rfl, rfl, [], rfl, by simp⟩
  · dsimp only
    generalize hn : 64 * (s.snapshots.flatMap fun sn => sn.pending).length = each
    generalize hl : s.changing _ ls = lines
    generalize hk : (s.draw (each * s.snapshots.length)).2.snapshots.zipIdx.map (fun e =>
      Snapshot.keep (s.draw (each * s.snapshots.length)).2 ((s.draw (each * s.snapshots.length)).1 + each * e.2) lines e.1) = kept
    obtain ⟨x, p, h⟩ := State.notices (fun k : Snapshot × List (Nat × Byte) => k.2.filter fun w => !(s.draw (each * s.snapshots.length)).2.ignored w.1)
      (fun k => (s.partitionOf k.1.ctx).secure) kept (State.touchLines _ _)
    rw [h]
    generalize ha : (kept.flatMap fun k => k.2).filter (fun w => !(s.draw (each * s.snapshots.length)).2.ignored w.1) = asked
    refine ⟨?_, ?_, ?_, ((s.draw (each * s.snapshots.length)).2.hideWords asked).1, ?_, ?_⟩
    · refine OnlyMemory.trans (t := (s.draw (each * s.snapshots.length)).2) ⟨rfl, rfl, rfl⟩ ?_
      refine OnlyMemory.trans (State.hideWords_only _ asked) ?_
      refine OnlyMemory.trans ?_ (State.noticed_only _ _ _)
      refine OnlyMemory.trans ?_ (State.touchLines_only _ _)
      exact OnlyMemory.trans (onlyMemory_of _ _ _ _ _ _ _ _ _ _ _ _) (State.signal_only _ _)
    · exact State.hideWords_remote _ _
    · exact State.hideWords_clean _ _
    · show Mem.writeAll _ _ = _
      rw [State.hideWords_mem]
      rfl
    · intro w hw
      obtain ⟨v, hv, h⟩ := State.hideWords_touch _ _ w hw
      rw [← ha] at hv
      have ht : s.SnapTarget v.1 := by
        obtain ⟨k, hk', hv'⟩ := List.mem_flatMap.mp (List.mem_filter.mp hv).1
        rw [← hk] at hk'
        obtain ⟨e, he, rfl⟩ := List.mem_map.mp hk'
        obtain ⟨h1, q, hq, h2⟩ := Snapshot.keep_target _ _ _ _ _ hv'
        exact ⟨e.1, List.fst_mem_of_mem_zipIdx he, h1, q, hq, h2⟩
      rcases h with h | h
      · exact .inl (h ▸ ht)
      · exact .inr ⟨v.1, ht, h⟩

/-- Keeping old lines for snapshots changes memory only (R344). -/
theorem State.keepOld_only (s : State) (ls : List Nat) : OnlyMemory s (s.keepOld ls) := (s.keepOld_stored ls).1

@[simp] theorem State.keepOld_remote (s : State) (ls : List Nat) : (s.keepOld ls).remote = s.remote := (s.keepOld_stored ls).2.1
@[simp] theorem State.keepOld_clean (s : State) (ls : List Nat) : (s.keepOld ls).clean = s.clean := (s.keepOld_stored ls).2.2.1

theorem State.writeBack_only (s : State) (ls : List Nat) : OnlyMemory s (s.writeBack ls) := ⟨rfl, rfl, rfl⟩
theorem State.evict_only (s : State) (ls : List Nat) : OnlyMemory s (s.evict ls) := ⟨rfl, rfl, rfl⟩
theorem State.flushRemote_only (s : State) : OnlyMemory s s.flushRemote := ⟨rfl, rfl, rfl⟩
theorem State.refreshRemote_only (s : State) : OnlyMemory s s.refreshRemote := ⟨rfl, rfl, rfl⟩

theorem State.release_only (s : State) (sc : BitVec 3) : OnlyMemory s (s.release sc) := by
  unfold State.release
  split
  · exact s.flushRemote_only
  · exact OnlyMemory.rfl' s

theorem State.acquire_only (s : State) (sc : BitVec 3) : OnlyMemory s (s.acquire sc) := by
  unfold State.acquire
  split
  · exact s.refreshRemote_only
  · exact OnlyMemory.rfl' s

/-- The state in which the bytes of a change are stored: old lines kept for snapshots, and lines that take a tag anew written back. -/
def State.beforePut (s : State) (ws : List (Nat × Byte)) (t : BitVec 16) (ctx : Nat) : State :=
  (s.keepOld (linesOf ws)).writeBack (s.newlyTagged t ctx (linesOf ws))

/-- A change of bytes changes memory and what takes notice of it only. -/
theorem State.put_only (s : State) (ws : List (Nat × Byte)) (t : BitVec 16) (ctx : Nat) (secure : Bool) :
    OnlyMemory s (s.put ws t ctx secure) := by
  refine OnlyMemory.trans (State.keepOld_only s (linesOf (ws.filter fun w => !s.ignored w.1))) ?_
  refine OnlyMemory.trans (State.writeBack_only _ (s.newlyTagged t ctx (linesOf (ws.filter fun w => !s.ignored w.1)))) ?_
  refine OnlyMemory.trans ?_ (State.notice_only _ _ _)
  refine OnlyMemory.trans ?_ (State.touchLines_only _ _)
  exact OnlyMemory.trans (onlyMemory_of _ _ _ _ _ _ _ _ _ _ _ _) (State.signal_only _ _)

theorem State.keepOld_canonical (s : State) (ls : List Nat) (h : s.Canonical) : (s.keepOld ls).Canonical := by
  obtain ⟨-, hr, hc, ws, hm, -⟩ := s.keepOld_stored ls
  exact ⟨hm ▸ Mem.writeAll_wf _ _ h.1, hr ▸ h.2.1, hc ▸ h.2.2⟩

theorem State.writeBackAt_canonical (s : State) (p : Nat → Bool) (h : s.Canonical) : (s.writeBackAt p).Canonical :=
  h.shrink _ _ rfl rfl (h.2.2.bytes _)

theorem State.writeBack_canonical (s : State) (ls : List Nat) (h : s.Canonical) : (s.writeBack ls).Canonical := s.writeBackAt_canonical _ h

/-- What a change leaves of memory and of the L2. -/
theorem State.put_stored (s : State) (ws : List (Nat × Byte)) (t : BitVec 16) (ctx : Nat) (secure : Bool) :
    let xs := ws.filter fun w => !s.ignored w.1
    let b := s.beforePut xs t ctx
    (s.put ws t ctx secure).mem = b.mem.writeAll (xs.filter fun w => !isFar w.1) ∧
    (s.put ws t ctx secure).remote = storeAll b.remote ((xs.filter fun w => isFar w.1).map fun w => (w.1, (0xFF : Byte), w.2)) ∧
    (s.put ws t ctx secure).clean = b.clean := ⟨rfl, by rw [storeAll, List.foldl_map]; rfl, rfl⟩

/-- A change of bytes keeps the canonical form. -/
theorem State.put_canonical (s : State) (ws : List (Nat × Byte)) (t : BitVec 16) (ctx : Nat) (secure : Bool) (h : s.Canonical) :
    (s.put ws t ctx secure).Canonical := by
  have hb : (s.beforePut (ws.filter fun w => !s.ignored w.1) t ctx).Canonical := State.writeBack_canonical _ _ (State.keepOld_canonical _ _ h)
  obtain ⟨hm, hr, hc⟩ := State.put_stored s ws t ctx secure
  refine ⟨hm ▸ Mem.writeAll_wf _ _ hb.1, hr ▸ hb.2.1.storeAll _ fun w hw => ?_, hc ▸ hb.2.2⟩
  obtain ⟨k, hk, rfl⟩ := List.mem_map.mp hw
  simpa [isFar] using (List.mem_filter.mp hk).2

/-- A write changes memory and what takes notice of it only. -/
theorem State.write_only (s : State) (ws : List (Nat × Byte)) (t : BitVec 16) (ctx : Nat) (secure : Bool) :
    OnlyMemory s (s.write ws t ctx secure) :=
  OnlyMemory.trans (State.hideWords_only s ws) (State.put_only _ _ t ctx secure)

/-- A write keeps the canonical form. -/
theorem State.write_canonical (s : State) (ws : List (Nat × Byte)) (t : BitVec 16) (ctx : Nat) (secure : Bool) (h : s.Canonical) :
    (s.write ws t ctx secure).Canonical :=
  State.put_canonical _ _ t ctx secure (h.of_eq (s.hideWords_mem ws) (s.hideWords_remote ws) (s.hideWords_clean ws))

theorem State.hwWrite_canonical (s : State) (a : Nat) (bs : List Byte) (h : s.Canonical) : (s.hwWrite a bs).Canonical :=
  State.put_canonical s _ 0 0 true h

theorem State.evict_canonical (s : State) (ls : List Nat) (h : s.Canonical) : (s.evict ls).Canonical :=
  have hb := s.writeBack_canonical ls h
  ⟨hb.1, hb.2.1, hb.2.2.filter fun c => !ls.contains (c.1 / 64 * 64)⟩

theorem State.flushRemote_canonical (s : State) (h : s.Canonical) : s.flushRemote.Canonical := s.writeBackAt_canonical _ h

theorem State.refreshRemote_canonical (s : State) (h : s.Canonical) : s.refreshRemote.Canonical :=
  ⟨(s.flushRemote_canonical h).1, (s.flushRemote_canonical h).2.1, FarTable.nil⟩

theorem State.release_canonical (s : State) (sc : BitVec 3) (h : s.Canonical) : (s.release sc).Canonical := by
  unfold State.release
  split
  · exact s.flushRemote_canonical h
  · exact h

theorem State.acquire_canonical (s : State) (sc : BitVec 3) (h : s.Canonical) : (s.acquire sc).Canonical := by
  unfold State.acquire
  split
  · exact s.refreshRemote_canonical h
  · exact h

/-- A write at its homes keeps the canonical form where the write does. -/
theorem State.homeWrite_canonical (s : State) (as : List Nat) (w : State → State) (hw : ∀ t : State, t.Canonical → (w t).Canonical)
    (h : s.Canonical) : (s.homeWrite as w).Canonical :=
  State.evict_canonical _ _ (hw _ (State.evict_canonical _ _ h))

theorem State.discard_canonical (s : State) (tag : BitVec 16) (ctx : Nat) (h : s.Canonical) : (s.discard tag ctx).Canonical := by
  have h1 := State.keepOld_canonical s (((s.tagged tag ctx).filter fun t => !isFar t.line).map fun t => t.line) h
  unfold State.discard
  dsimp only
  exact h1.shrink _ _ rfl rfl (h1.2.2.filter _)

theorem State.coldStart_canonical (s : State) (keep : Bool) (h : s.Canonical) : (s.coldStart keep).Canonical := by
  have h1 : (s.coldStart keep).remote = [] := rfl
  have h2 : (s.coldStart keep).clean = [] := rfl
  refine ⟨Mem.filter_wf _ _ h.1, ?_⟩
  rw [h1, h2]
  exact ⟨FarTable.nil, FarTable.nil⟩

theorem State.plant_canonical (s : State) (bs : List Byte) (h : s.Canonical) : (s.plant bs).Canonical :=
  ⟨Mem.writeAll_wf _ _ h.1, h.2⟩

theorem State.homeCells_canonical (s : State) (ws : List (Nat × Byte)) (h : s.Canonical) : (s.homeCells ws).Canonical :=
  have hc : (s.hideWords ws).2.Canonical := h.of_eq (s.hideWords_mem ws) (s.hideWords_remote ws) (s.hideWords_clean ws)
  ⟨Mem.writeAll_wf _ _ hc.1, hc.2.1, hc.2.2.filter _⟩

theorem State.farWrite_canonical (s : State) (ws : List (Nat × Byte)) (h : s.Canonical) : (s.farWrite ws).Canonical :=
  State.write_canonical _ _ 0 0 true (s.homeCells_canonical _ h)

/-- A clean copy joins the L2 beneath the bits that it holds dirty. -/
theorem State.fillLine_canonical (s : State) (line : Nat) (h : s.Canonical) : (s.fillLine line).Canonical := by
  unfold State.fillLine
  dsimp only
  split
  · exact h
  · rename_i hl
    obtain ⟨h1, h2, h3⟩ := h
    simp only [Bool.or_eq_true, Bool.not_eq_true', not_or, Bool.not_eq_false, isFar, decide_eq_true_eq] at hl
    have hf := FarTable.cells h3 ((List.range 64).map fun k => (line / 64 * 64 + k, s.mem.read (line / 64 * 64 + k))) fun w hw => by
      simp only [List.mem_map] at hw
      obtain ⟨k, _, rfl⟩ := hw
      show Config.apertureBase ≤ line / 64 * 64 + k
      have := hl.1
      omega
    have key : ∀ c : Mem, FarTable c → (State.touchLines { s with clean := c } [line / 64 * 64]).Canonical := fun c hc => ⟨h1, h2, hc⟩
    exact key _ hf

/-! Reading after a write. -/

/-- What stands in the L2 or in memory, by whether it is another device's. -/
theorem State.read_near (s : State) (a : Nat) (h : s.Canonical) (ha : a < Config.apertureBase) : s.read a = s.mem.read a := by
  simp [State.read, State.dirtied, h.2.1.below ha, h.2.2.below ha]

theorem lookup_storeAll_other {α : Type} (ws m : List (Nat × α)) (a : Nat) (h : ∀ w ∈ ws, w.1 ≠ a) : lookup (storeAll m ws) a = lookup m a := by
  induction ws generalizing m with
  | nil => rfl
  | cons w ws ih =>
    have h1 := ih (store m w.1 w.2) fun x hx => h x (List.mem_cons_of_mem _ hx)
    rw [storeAll, List.foldl_cons, h1, lookup_store, if_neg (h w (List.mem_cons_self ..)).symm]

/-- Bytes of a table of rising keys, written to memory, read as the table has them. -/
theorem Mem.read_writeAll_table (m : Mem) (ws : List (Nat × Byte)) (a : Nat) (h : m.wf = true) (hs : ws.Pairwise fun x y => x.1 < y.1) :
    (m.writeAll ws).read a = (lookup ws a).getD (m.read a) := by
  induction ws generalizing m with
  | nil => simp [lookup]
  | cons w ws ih =>
    obtain ⟨k, b⟩ := w
    rw [List.pairwise_cons] at hs
    have h1 := ih (m.write k b) (Mem.write_wf m k b h) hs.2
    simp only [Mem.writeAll, List.foldl_cons] at h1 ⊢
    rw [h1, lookup_cons, Mem.read_write m k a b h]
    by_cases hk : k = a
    · subst hk
      rw [lookup_none_of fun c hc => by have := hs.1 c hc; simp only at this; omega]
      simp
    · rw [if_neg (Ne.symm hk), if_neg hk]

/-- The dirty bits of one address go to its home, and it reads as before (R257). -/
theorem State.writeBackAt_mem (s : State) (p : Nat → Bool) (a : Nat) (h : s.Canonical) :
    (s.writeBackAt p).mem.read a = if p a then s.dirtied a (s.mem.read a) else s.mem.read a := by
  refine (Mem.read_writeAll_table _ _ a h.1 (List.pairwise_map.mpr (h.2.1.1.filter _))).trans ?_
  rw [lookup_bytes _ fun (c : Nat × Byte × Byte) => blend (s.mem.read c.1) c.2.1 c.2.2, lookup_filter p s.remote a]
  unfold State.dirtied
  cases p a <;> cases lookup s.remote a <;> simp

/-- Writing dirty bits back changes no byte as this device reads it (R257). -/
theorem State.writeBackAt_read (s : State) (p : Nat → Bool) (h : s.Canonical) : SameMemory s (s.writeBackAt p) := by
  intro a
  have hl : lookup (s.writeBackAt p).remote a = if !p a then lookup s.remote a else none := lookup_filter (fun k => !p k) s.remote a
  have hc : lookup (s.writeBackAt p).clean a = (lookup s.clean a).map fun c => if p a then s.dirtied a c else c :=
    lookup_bytes _ (fun c => if p c.1 then s.dirtied c.1 c.2 else c.2) a
  unfold State.read
  rw [hc, s.writeBackAt_mem p a h]
  unfold State.dirtied
  rw [hl]
  cases p a <;> cases lookup s.remote a <;> cases lookup s.clean a <;> simp

theorem State.writeBack_read (s : State) (ls : List Nat) (h : s.Canonical) : SameMemory s (s.writeBack ls) := s.writeBackAt_read _ h

theorem State.flushRemote_read (s : State) (h : s.Canonical) : SameMemory s s.flushRemote := s.writeBackAt_read _ h

/-- A byte that the copies of snapshots do not change reads as before. -/
theorem State.keepOld_read (s : State) (ls : List Nat) (a : Nat) (hm : s.mem.wf = true) (ha : ¬ s.SnapTouched a) :
    (s.keepOld ls).mem.read a = s.mem.read a := by
  obtain ⟨-, -, -, ws, h, hw⟩ := s.keepOld_stored ls
  rw [h]
  exact Mem.read_writeAll_other _ _ _ hm fun w hx e => ha (e ▸ hw w hx)

/-- Making ready for a change, a byte that no snapshot copies to reads as before. -/
theorem State.beforePut_read (s : State) (ws : List (Nat × Byte)) (t : BitVec 16) (ctx a : Nat) (h : s.Canonical) (ha : ¬ s.SnapTouched a) :
    (s.beforePut ws t ctx).read a = s.read a := by
  refine (State.writeBack_read _ _ (State.keepOld_canonical _ _ h) a).trans ?_
  simp only [State.read, State.dirtied, State.keepOld_remote, State.keepOld_clean, State.keepOld_read s _ a h.1 ha]

/-- Every byte that a change does not name reads as before, but for the copies of snapshots. -/
theorem State.put_unnamed (s : State) (ws : List (Nat × Byte)) (t : BitVec 16) (ctx : Nat) (secure : Bool) (h : s.Canonical) (a : Nat)
    (ha : ∀ w ∈ ws, w.1 ≠ a) (hs : ¬ s.SnapTouched a) : (s.put ws t ctx secure).read a = s.read a := by
  obtain ⟨hm, hr, hc⟩ := State.put_stored s ws t ctx secure
  rw [← State.beforePut_read s (ws.filter fun w => !s.ignored w.1) t ctx a h hs]
  have hin : ∀ w ∈ ws.filter fun w => !s.ignored w.1, w.1 ≠ a := fun w hw => ha w (List.mem_filter.mp hw).1
  have hb : (s.beforePut (ws.filter fun w => !s.ignored w.1) t ctx).Canonical :=
    State.writeBack_canonical _ _ (State.keepOld_canonical _ _ h)
  revert hm hr hc hin hb
  generalize ws.filter (fun w => !s.ignored w.1) = xs
  generalize s.beforePut xs t ctx = b
  intro hm hr hc hin hb
  have hf : lookup (s.put ws t ctx secure).remote a = lookup b.remote a := by
    rw [hr]
    refine lookup_storeAll_other _ _ a fun w hw => ?_
    obtain ⟨k, hk, rfl⟩ := List.mem_map.mp hw
    exact hin k (List.mem_filter.mp hk).1
  simp only [State.read, State.dirtied, hf, hm, hc,
    Mem.read_writeAll_other _ _ a hb.1 fun w hw => hin w (List.mem_filter.mp hw).1]

theorem State.put_others (s : State) (ws : List (Nat × Byte)) (t : BitVec 16) (ctx : Nat) (secure : Bool) (h : s.Canonical) :
    OthersSame s (s.put ws t ctx secure) (ws.map (·.1)) :=
  fun a ha hs _ => s.put_unnamed ws t ctx secure h a (fun _ hw e => ha (e ▸ List.mem_map_of_mem hw)) hs

/-- Where no word of the device alone is touched, software's writes are what they are. -/
theorem State.hideWords_none (s : State) (ws : List (Nat × Byte)) (h : ∀ w ∈ ws, s.hardwareWord w.1 = none)
    (hl : ∀ w ∈ ws, ∀ l ∈ s.launches, w.1 ∉ l.recordAt) : s.hideWords ws = (ws, s) := by
  have h1 : ws.filterMap (fun w => s.hardwareWord w.1) = [] := List.filterMap_eq_nil_iff.mpr h
  have h2 : s.launches.filter (fun l => ws.any fun w => l.recordAt.contains w.1) = [] := by
    simp only [List.filter_eq_nil_iff, List.any_eq_true, List.contains_eq_mem, decide_eq_true_eq, not_exists, not_and]
    exact fun l hm w hw => hl w hw l hm
  unfold State.hideWords
  dsimp only
  rw [h1, h2]
  rfl

/-- Hiding leaves which bytes a write makes unknown as it was. -/
theorem State.hideWords_kin (s : State) (ws : List (Nat × Byte)) (w a : Nat) : (s.hideWords ws).2.Kin w a ↔ s.Kin w a := by
  obtain ⟨p, h⟩ := s.hideWords_state ws
  rw [h]
  simp only [State.Kin, State.hardwareWord, List.mem_map]
  refine or_congr Iff.rfl ⟨?_, ?_⟩
  · rintro ⟨_, ⟨l, hl, rfl⟩, hw⟩
    refine ⟨l, hl, ?_⟩
    split at hw <;> exact hw
  · rintro ⟨l, hl, hw⟩
    refine ⟨_, ⟨l, hl, rfl⟩, ?_⟩
    split <;> exact hw

theorem State.hideWords_snap (s : State) (ws : List (Nat × Byte)) (a : Nat) : (s.hideWords ws).2.SnapTarget a ↔ s.SnapTarget a := by
  obtain ⟨p, h⟩ := s.hideWords_state ws
  rw [h]
  exact Iff.rfl

theorem State.hideWords_snapTouched (s : State) (ws : List (Nat × Byte)) (a : Nat) : (s.hideWords ws).2.SnapTouched a ↔ s.SnapTouched a := by
  simp only [State.SnapTouched, State.hideWords_snap, State.hideWords_kin]

/-- Every byte that a write does not name reads as before, but for the copies of snapshots and what is unknown with a byte that was written. -/
theorem State.write_others (s : State) (ws : List (Nat × Byte)) (t : BitVec 16) (ctx : Nat) (secure : Bool) (h : s.Canonical) :
    OthersSame s (s.write ws t ctx secure) (ws.map (·.1)) := by
  intro a ha hs hk
  have hread : (s.hideWords ws).2.read a = s.read a := by simp [State.read, State.dirtied]
  have hout : ∀ x ∈ (s.hideWords ws).1, x.1 ≠ a := by
    rintro x hx rfl
    obtain ⟨w, hw, e | e⟩ := s.hideWords_touch ws x hx
    · exact ha (e ▸ List.mem_map_of_mem hw)
    · exact hk w.1 (List.mem_map_of_mem hw) e
  have hc : (s.hideWords ws).2.Canonical := h.of_eq (s.hideWords_mem ws) (s.hideWords_remote ws) (s.hideWords_clean ws)
  rw [← hread]
  exact State.put_unnamed _ _ t ctx secure hc a (fun w hw => hout w hw) fun hx => hs ((s.hideWords_snapTouched ws a).mp hx)

end Sys2Proof.Machine
end

