-- ==== Sys2Proof/Laws/Breach.lean ====
section
/-!
SUPPORT. What the notice of a breach of R58 changes (R59): what a launch knows of it, and the outputs of a launch that broke it.
-/
namespace Sys2Proof.Machine

/-- A breach is remembered, and nothing else of a launch changes. -/
theorem Launch.breach_known (l : Launch) (places : List Nat) :
    { l.breach places with spoiled := false, wrote := [], strays := [] } = { l with spoiled := false, wrote := [], strays := [] } := by
  unfold Launch.breach; split <;> rfl

@[simp] theorem Launch.breach_nil (l : Launch) : l.breach [] = l := rfl

theorem Launch.breach_strays (l : Launch) (places : List Nat) (a : Nat) (h : a ∈ places) :
    (l.breach places).spoiled = true ∧ a ∈ (l.breach places).strays := by
  have hp : places.isEmpty = false := by cases places with | nil => cases h | cons => rfl
  simp [Launch.breach, hp, h]

/-- Of launches of which only such knowledge changes, nothing else does. -/
theorem onlyLaunches (s : State) (g : Launch → Launch)
    (h : ∀ l, { g l with spoiled := false, wrote := [], strays := [] } = { l with spoiled := false, wrote := [], strays := [] }) :
    OnlyMemory s { s with launches := s.launches.map g } :=
  ⟨rfl, by rw [List.map_map]; exact List.map_congr_left fun l _ => h l, rfl⟩

theorem State.noteStray_only (s : State) (fold : Nat) (places : List Nat) : OnlyMemory s (s.noteStray fold places) := by
  unfold State.noteStray
  split
  · exact OnlyMemory.rfl' s
  · refine onlyLaunches s _ fun l => ?_
    split
    · rfl
    · exact Launch.breach_known _ _

theorem State.noteReads_only (s : State) (reads : List (Nat × Nat)) : OnlyMemory s (s.noteReads reads) := by
  refine onlyLaunches s _ fun l => ?_
  split
  · rfl
  · exact Launch.breach_known _ _

theorem State.noteStray_eq (s : State) (fold : Nat) (places : List Nat) :
    s.noteStray fold places = { s with launches := (s.noteStray fold places).launches } := by
  unfold State.noteStray; split <;> rfl

theorem State.noteReads_eq (s : State) (reads : List (Nat × Nat)) : s.noteReads reads = { s with launches := (s.noteReads reads).launches } := rfl

theorem State.noteStray_canonical (s : State) (fold : Nat) (places : List Nat) (h : s.Canonical) : (s.noteStray fold places).Canonical := by
  rw [State.noteStray_eq]; exact h.of_eq rfl rfl rfl

theorem State.noteReads_canonical (s : State) (reads : List (Nat × Nat)) (h : s.Canonical) : (s.noteReads reads).Canonical := h.of_eq rfl rfl rfl

/-- Where no launch under the stop flag has written memory, no read breaks R58. -/
theorem State.noteReads_none (s : State) (reads : List (Nat × Nat)) (h : ∀ l ∈ s.launches, l.wrote = []) : s.noteReads reads = s := by
  have hm : (s.noteReads reads).launches = s.launches.map id := List.map_congr_left fun l hl => by simp [h l hl]
  rw [State.noteReads_eq, hm, List.map_id]

theorem State.unknownBytes_only (s : State) (places : List Nat) (ctx : Nat) : OnlyMemory s (s.unknownBytes places ctx) :=
  OnlyMemory.trans (show OnlyMemory s (s.draw places.length).2 from ⟨rfl, rfl, rfl⟩) (State.put_only _ _ _ _ _)

theorem State.unknownBytes_canonical (s : State) (places : List Nat) (ctx : Nat) (h : s.Canonical) : (s.unknownBytes places ctx).Canonical :=
  State.put_canonical _ _ _ _ _ (State.Canonical.of_eq h rfl rfl rfl)

theorem State.spoilOutputs_only (s t u : State) (l : Launch) : OnlyMemory u (s.spoilOutputs t u l) := by
  unfold State.spoilOutputs; split
  · exact OnlyMemory.rfl' u
  · exact u.unknownBytes_only _ _

theorem State.spoilOutputs_canonical (s t u : State) (l : Launch) (h : u.Canonical) : (s.spoilOutputs t u l).Canonical := by
  unfold State.spoilOutputs; split
  · exact h
  · exact u.unknownBytes_canonical _ _ h

theorem State.spoilOutputs_none (s t u : State) (l : Launch) (h : l.strays = []) : s.spoilOutputs t u l = u := by simp [State.spoilOutputs, h]

theorem State.settleBreaches_only (s t : State) : OnlyMemory t (s.settleBreaches t) := by
  suffices ∀ (ls : List Launch) (u : State), OnlyMemory t u → OnlyMemory t (ls.foldl (s.spoilOutputs t) u) from this _ _ (OnlyMemory.rfl' t)
  intro ls
  induction ls with
  | nil => exact fun _ h => h
  | cons l ls ih => exact fun u h => ih _ (h.trans (s.spoilOutputs_only t u l))

theorem State.settleBreaches_canonical (s t : State) (h : t.Canonical) : (s.settleBreaches t).Canonical := by
  suffices ∀ (ls : List Launch) (u : State), u.Canonical → State.Canonical (ls.foldl (s.spoilOutputs t) u) from this _ _ h
  intro ls
  induction ls with
  | nil => exact fun _ h => h
  | cons l ls ih => exact fun u h => ih _ (s.spoilOutputs_canonical t u l h)

/-- Where no launch has broken R58 nothing becomes unknown. -/
theorem State.settleBreaches_none (s t : State) (h : ∀ l ∈ t.launches, l.strays = []) : s.settleBreaches t = t := by
  suffices ∀ (ls : List Launch) (u : State), (∀ l ∈ ls, l.strays = []) → ls.foldl (s.spoilOutputs t) u = u from this _ _ h
  intro ls
  induction ls with
  | nil => exact fun _ _ => rfl
  | cons l ls ih =>
    intro u h
    rw [List.foldl_cons, s.spoilOutputs_none t u l (h l (.head _))]
    exact ih u fun k hk => h k (.tail _ hk)

end Sys2Proof.Machine
end

