-- ==== Sys2Proof/Laws/Cache.lean ====
section
/-!
SUPPORT. What the room of the L2 does (R270 to R274): lines leave until every set has room, leased ones stay, and memory keeps its form.
-/
namespace Sys2Proof.Machine

@[simp] theorem State.evict_dirty (s : State) (ls : List Nat) : (s.evict ls).dirty = s.dirty.filter fun l => !ls.contains l := rfl
@[simp] theorem State.evict_contexts (s : State) (ls : List Nat) : (s.evict ls).contexts = s.contexts := rfl

/-- Evicted lines are no longer known, and none becomes known. -/
theorem State.mem_cachedLines_evict {s : State} {ls : List Nat} {l : Nat} (h : l ∈ (s.evict ls).cachedLines) : l ∈ s.cachedLines ∧ l ∉ ls := by
  simp only [cachedLines, List.mem_eraseDups, List.mem_append, evict, cleanLines, writeBack, writeBackAt, goesBack, List.mem_map, List.mem_filter,
    Bool.not_eq_true', Bool.or_eq_false_iff, List.contains_eq_mem, decide_eq_false_iff_not] at h ⊢
  rcases h with ((⟨h, hn⟩ | ⟨c, ⟨h, ⟨hn, -⟩, -⟩, rfl⟩) | ⟨_, ⟨⟨c, h, rfl⟩, hn⟩, rfl⟩) | ⟨t, ⟨h, hn⟩, rfl⟩
  · exact ⟨.inl (.inl (.inl h)), hn⟩
  · exact ⟨.inl (.inl (.inr ⟨c, h, rfl⟩)), hn⟩
  · exact ⟨.inl (.inr ⟨c, h, rfl⟩), hn⟩
  · exact ⟨.inr ⟨t, h, rfl⟩, hn⟩

/-- Of this device's lines no others leave. -/
theorem State.cachedLines_evict_own {s : State} {ls : List Nat} {l : Nat} (hc : s.Canonical) (hf : isFar l = false) (h : l ∈ s.cachedLines) (hn : l ∉ ls) :
    l ∈ (s.evict ls).cachedLines := by
  simp only [cachedLines, List.mem_eraseDups, List.mem_append, evict, cleanLines, writeBack, writeBackAt, List.mem_map, List.mem_filter,
    Bool.not_eq_true', List.contains_eq_mem, decide_eq_false_iff_not] at h ⊢
  rcases h with ((h | ⟨c, h, rfl⟩) | ⟨c, h, rfl⟩) | ⟨t, h, rfl⟩
  · exact .inl (.inl (.inl ⟨h, hn⟩))
  · have h1 := hc.2.1.2 c h
    simp only [isFar, decide_eq_false_iff_not] at hf
    simp only [Config.apertureBase] at h1 hf
    omega
  · exact .inl (.inr ⟨_, ⟨⟨c, h, rfl⟩, hn⟩, rfl⟩)
  · exact .inr ⟨t, ⟨h, hn⟩, rfl⟩

/-- Unleased, known lines only leave a crowded set, and it has some. -/
theorem State.crowded_some {s : State} {ls : List Nat} (h : s.crowded = some ls) : ls ≠ [] ∧ ∀ l ∈ ls, l ∈ s.cachedLines ∧ s.leasedLine l = false := by
  simp only [crowded] at h
  split at h
  · cases h
  · obtain ⟨k, -, hk⟩ := List.exists_of_findSome?_eq_some h
    split at hk
    · cases hk
    · cases hk
      rename_i hf
      refine ⟨fun he => hf (by rw [he]; rfl), fun l hl => ?_⟩
      have := List.mem_filter.mp hl
      simp only [Bool.and_eq_true, Bool.not_eq_true'] at this
      exact ⟨this.1, this.2.2⟩

theorem nodup_eraseDups : ∀ (n : Nat) (l : List Nat), l.length ≤ n → l.eraseDups.Nodup
  | _, [], _ => List.nodup_nil
  | n + 1, a :: l, h => by
    rw [List.eraseDups_cons]
    have hl : (l.filter fun b => !b == a).length ≤ n := Nat.le_trans (List.length_filter_le _ _) (Nat.le_of_succ_le_succ h)
    exact List.nodup_cons.mpr ⟨fun hm => by have := (List.mem_filter.mp (List.mem_eraseDups.mp hm)).2; simp at this, nodup_eraseDups n _ hl⟩

theorem State.cachedLines_nodup (s : State) : s.cachedLines.Nodup := nodup_eraseDups _ _ (Nat.le_refl _)

/-- An eviction of a known line leaves fewer. -/
theorem State.cachedLines_shrink (s : State) (l : Nat) (h : l ∈ s.cachedLines) : (s.evict [l]).cachedLines.length < s.cachedLines.length := by
  have hl : l ∉ (s.evict [l]).cachedLines := fun hm => (State.mem_cachedLines_evict hm).2 (List.mem_singleton.mpr rfl)
  refine List.Nodup.length_le_of_subset (l₁ := l :: _) (List.nodup_cons.mpr ⟨hl, State.cachedLines_nodup _⟩) fun x hx => ?_
  rcases List.mem_cons.mp hx with rfl | hx
  · exact h
  · exact (State.mem_cachedLines_evict hx).1

/-- The line used least recently of some is one of them. -/
theorem State.leastUsed_mem (s : State) {ls : List Nat} (h : ls ≠ []) : s.leastUsed ls ∈ ls := by
  have key : ∀ xs : List Nat, xs ≠ [] → (∀ x ∈ xs, x ∈ ls) → xs.headD 0 ∈ ls := fun xs hx hm => by
    cases xs with
    | nil => exact absurd rfl hx
    | cons x xs => exact hm x (List.mem_cons_self ..)
  refine key _ (fun he => ?_) fun x hx => ?_
  · obtain ⟨a, l, rfl⟩ := List.exists_cons_of_ne_nil h
    have ⟨h1, h2⟩ := List.append_eq_nil_iff.mp he
    simp only [List.filter_eq_nil_iff] at h1 h2
    by_cases hu : a ∈ s.used
    · exact h2 a hu (by simp)
    · exact h1 a (List.mem_cons_self ..) (by simp [hu])
  · rcases List.mem_append.mp hx with hx | hx
    · exact (List.mem_filter.mp hx).1
    · simpa using (List.mem_filter.mp hx).2

/-- Lines leave until every set has room. -/
theorem State.fitCache_room : ∀ (n : Nat) (s : State), s.cachedLines.length ≤ n → (s.fitCache n).crowded = none
  | 0, s, h => by
    have he : s.cachedLines = [] := List.length_eq_zero_iff.mp (Nat.le_zero.mp h)
    simp [fitCache, crowded, he]
  | n + 1, s, h => by
    rw [fitCache]
    cases hc : s.crowded with
    | none => exact hc
    | some ls =>
      have ⟨hn, hm⟩ := State.crowded_some hc
      exact State.fitCache_room n _ (Nat.le_of_lt_succ (Nat.lt_of_lt_of_le (s.cachedLines_shrink _ (hm _ (s.leastUsed_mem hn)).1) h))

theorem State.fitCaches_room (s : State) : s.fitCaches.crowded = none := State.fitCache_room _ s (Nat.le_refl _)

theorem State.fitCache_canonical (n : Nat) (s : State) (h : s.Canonical) : (s.fitCache n).Canonical := by
  induction n generalizing s with
  | zero => exact h
  | succ n ih =>
    rw [fitCache]
    split
    · exact h
    · exact ih _ (State.evict_canonical _ _ h)

/-- Leased lines, which are of this device's memory, stay. -/
theorem State.fitCache_leased (n : Nat) (s : State) (l : Nat) (hc : s.Canonical) (hf : isFar l = false) (h : l ∈ s.cachedLines)
    (hl : s.leasedLine l = true) : l ∈ (s.fitCache n).cachedLines := by
  induction n generalizing s with
  | zero => exact h
  | succ n ih =>
    rw [fitCache]
    cases hr : s.crowded with
    | none => exact h
    | some ls =>
      have ⟨hn, hm⟩ := State.crowded_some hr
      refine ih _ (State.evict_canonical _ _ hc) (State.cachedLines_evict_own hc hf h fun hx => ?_) hl
      have := (hm _ (s.leastUsed_mem hn)).2
      rw [← List.mem_singleton.mp hx, hl] at this
      cases this

theorem State.fitCaches_canonical (s : State) (h : s.Canonical) : s.fitCaches.Canonical := s.fitCache_canonical _ h

end Sys2Proof.Machine
end

