-- ==== Sys2Proof/Laws/Encoding.lean ====
section
/-!
SUPPORT. The fields of an encoded word are the ones it was made of, format by format (R101, R103), and the decoder of each major opcode
sees them.
-/
namespace Sys2Proof

@[simp] theorem encV3_major (major : BitVec 6) (fn : BitVec 4) (g : BitVec 3) (b : BitVec 6) (a : BitVec 6) (d : BitVec 6) :
    (encV3 major fn g b a d).extractLsb' 1 6 = major := by
  refine (BitVec.extractLsb'_append_eq_of_le (w := 1) (by decide)).trans ?_
  refine (BitVec.extractLsb'_append_eq_of_add_le (w := 6) (by decide)).trans ?_
  exact BitVec.extractLsb'_eq_self

@[simp] theorem encV3_d (major : BitVec 6) (fn : BitVec 4) (g : BitVec 3) (b : BitVec 6) (a : BitVec 6) (d : BitVec 6) :
    (encV3 major fn g b a d).extractLsb' 7 6 = d := by
  refine (BitVec.extractLsb'_append_eq_of_le (w := 1) (by decide)).trans ?_
  refine (BitVec.extractLsb'_append_eq_of_le (w := 6) (by decide)).trans ?_
  refine (BitVec.extractLsb'_append_eq_of_add_le (w := 6) (by decide)).trans ?_
  exact BitVec.extractLsb'_eq_self

@[simp] theorem encV3_a (major : BitVec 6) (fn : BitVec 4) (g : BitVec 3) (b : BitVec 6) (a : BitVec 6) (d : BitVec 6) :
    (encV3 major fn g b a d).extractLsb' 13 6 = a := by
  refine (BitVec.extractLsb'_append_eq_of_le (w := 1) (by decide)).trans ?_
  refine (BitVec.extractLsb'_append_eq_of_le (w := 6) (by decide)).trans ?_
  refine (BitVec.extractLsb'_append_eq_of_le (w := 6) (by decide)).trans ?_
  refine (BitVec.extractLsb'_append_eq_of_add_le (w := 6) (by decide)).trans ?_
  exact BitVec.extractLsb'_eq_self

@[simp] theorem encV3_b (major : BitVec 6) (fn : BitVec 4) (g : BitVec 3) (b : BitVec 6) (a : BitVec 6) (d : BitVec 6) :
    (encV3 major fn g b a d).extractLsb' 19 6 = b := by
  refine (BitVec.extractLsb'_append_eq_of_le (w := 1) (by decide)).trans ?_
  refine (BitVec.extractLsb'_append_eq_of_le (w := 6) (by decide)).trans ?_
  refine (BitVec.extractLsb'_append_eq_of_le (w := 6) (by decide)).trans ?_
  refine (BitVec.extractLsb'_append_eq_of_le (w := 6) (by decide)).trans ?_
  refine (BitVec.extractLsb'_append_eq_of_add_le (w := 6) (by decide)).trans ?_
  exact BitVec.extractLsb'_eq_self

@[simp] theorem encV3_g (major : BitVec 6) (fn : BitVec 4) (g : BitVec 3) (b : BitVec 6) (a : BitVec 6) (d : BitVec 6) :
    (encV3 major fn g b a d).extractLsb' 25 3 = g := by
  refine (BitVec.extractLsb'_append_eq_of_le (w := 1) (by decide)).trans ?_
  refine (BitVec.extractLsb'_append_eq_of_le (w := 6) (by decide)).trans ?_
  refine (BitVec.extractLsb'_append_eq_of_le (w := 6) (by decide)).trans ?_
  refine (BitVec.extractLsb'_append_eq_of_le (w := 6) (by decide)).trans ?_
  refine (BitVec.extractLsb'_append_eq_of_le (w := 6) (by decide)).trans ?_
  refine (BitVec.extractLsb'_append_eq_of_add_le (w := 3) (by decide)).trans ?_
  exact BitVec.extractLsb'_eq_self

@[simp] theorem encV3_fn (major : BitVec 6) (fn : BitVec 4) (g : BitVec 3) (b : BitVec 6) (a : BitVec 6) (d : BitVec 6) :
    (encV3 major fn g b a d).extractLsb' 28 4 = fn := by
  refine (BitVec.extractLsb'_append_eq_of_le (w := 1) (by decide)).trans ?_
  refine (BitVec.extractLsb'_append_eq_of_le (w := 6) (by decide)).trans ?_
  refine (BitVec.extractLsb'_append_eq_of_le (w := 6) (by decide)).trans ?_
  refine (BitVec.extractLsb'_append_eq_of_le (w := 6) (by decide)).trans ?_
  refine (BitVec.extractLsb'_append_eq_of_le (w := 6) (by decide)).trans ?_
  refine (BitVec.extractLsb'_append_eq_of_le (w := 3) (by decide)).trans ?_
  exact BitVec.extractLsb'_eq_self

@[simp] theorem encVI_major (major : BitVec 6) (fn : BitVec 4) (i : BitVec 9) (a : BitVec 6) (d : BitVec 6) :
    (encVI major fn i a d).extractLsb' 1 6 = major := by
  refine (BitVec.extractLsb'_append_eq_of_le (w := 1) (by decide)).trans ?_
  refine (BitVec.extractLsb'_append_eq_of_add_le (w := 6) (by decide)).trans ?_
  exact BitVec.extractLsb'_eq_self

@[simp] theorem encVI_d (major : BitVec 6) (fn : BitVec 4) (i : BitVec 9) (a : BitVec 6) (d : BitVec 6) :
    (encVI major fn i a d).extractLsb' 7 6 = d := by
  refine (BitVec.extractLsb'_append_eq_of_le (w := 1) (by decide)).trans ?_
  refine (BitVec.extractLsb'_append_eq_of_le (w := 6) (by decide)).trans ?_
  refine (BitVec.extractLsb'_append_eq_of_add_le (w := 6) (by decide)).trans ?_
  exact BitVec.extractLsb'_eq_self

@[simp] theorem encVI_a (major : BitVec 6) (fn : BitVec 4) (i : BitVec 9) (a : BitVec 6) (d : BitVec 6) :
    (encVI major fn i a d).extractLsb' 13 6 = a := by
  refine (BitVec.extractLsb'_append_eq_of_le (w := 1) (by decide)).trans ?_
  refine (BitVec.extractLsb'_append_eq_of_le (w := 6) (by decide)).trans ?_
  refine (BitVec.extractLsb'_append_eq_of_le (w := 6) (by decide)).trans ?_
  refine (BitVec.extractLsb'_append_eq_of_add_le (w := 6) (by decide)).trans ?_
  exact BitVec.extractLsb'_eq_self

@[simp] theorem encVI_i (major : BitVec 6) (fn : BitVec 4) (i : BitVec 9) (a : BitVec 6) (d : BitVec 6) :
    (encVI major fn i a d).extractLsb' 19 9 = i := by
  refine (BitVec.extractLsb'_append_eq_of_le (w := 1) (by decide)).trans ?_
  refine (BitVec.extractLsb'_append_eq_of_le (w := 6) (by decide)).trans ?_
  refine (BitVec.extractLsb'_append_eq_of_le (w := 6) (by decide)).trans ?_
  refine (BitVec.extractLsb'_append_eq_of_le (w := 6) (by decide)).trans ?_
  refine (BitVec.extractLsb'_append_eq_of_add_le (w := 9) (by decide)).trans ?_
  exact BitVec.extractLsb'_eq_self

@[simp] theorem encVI_fn (major : BitVec 6) (fn : BitVec 4) (i : BitVec 9) (a : BitVec 6) (d : BitVec 6) :
    (encVI major fn i a d).extractLsb' 28 4 = fn := by
  refine (BitVec.extractLsb'_append_eq_of_le (w := 1) (by decide)).trans ?_
  refine (BitVec.extractLsb'_append_eq_of_le (w := 6) (by decide)).trans ?_
  refine (BitVec.extractLsb'_append_eq_of_le (w := 6) (by decide)).trans ?_
  refine (BitVec.extractLsb'_append_eq_of_le (w := 6) (by decide)).trans ?_
  refine (BitVec.extractLsb'_append_eq_of_le (w := 9) (by decide)).trans ?_
  exact BitVec.extractLsb'_eq_self

@[simp] theorem encS_major (major : BitVec 6) (z : BitVec 4) (fn : BitVec 6) (sb : BitVec 5) (sa : BitVec 5) (sd : BitVec 5) :
    (encS major z fn sb sa sd).extractLsb' 1 6 = major := by
  refine (BitVec.extractLsb'_append_eq_of_le (w := 1) (by decide)).trans ?_
  refine (BitVec.extractLsb'_append_eq_of_add_le (w := 6) (by decide)).trans ?_
  exact BitVec.extractLsb'_eq_self

@[simp] theorem encS_sd (major : BitVec 6) (z : BitVec 4) (fn : BitVec 6) (sb : BitVec 5) (sa : BitVec 5) (sd : BitVec 5) :
    (encS major z fn sb sa sd).extractLsb' 7 5 = sd := by
  refine (BitVec.extractLsb'_append_eq_of_le (w := 1) (by decide)).trans ?_
  refine (BitVec.extractLsb'_append_eq_of_le (w := 6) (by decide)).trans ?_
  refine (BitVec.extractLsb'_append_eq_of_add_le (w := 5) (by decide)).trans ?_
  exact BitVec.extractLsb'_eq_self

@[simp] theorem encS_sa (major : BitVec 6) (z : BitVec 4) (fn : BitVec 6) (sb : BitVec 5) (sa : BitVec 5) (sd : BitVec 5) :
    (encS major z fn sb sa sd).extractLsb' 12 5 = sa := by
  refine (BitVec.extractLsb'_append_eq_of_le (w := 1) (by decide)).trans ?_
  refine (BitVec.extractLsb'_append_eq_of_le (w := 6) (by decide)).trans ?_
  refine (BitVec.extractLsb'_append_eq_of_le (w := 5) (by decide)).trans ?_
  refine (BitVec.extractLsb'_append_eq_of_add_le (w := 5) (by decide)).trans ?_
  exact BitVec.extractLsb'_eq_self

@[simp] theorem encS_sb (major : BitVec 6) (z : BitVec 4) (fn : BitVec 6) (sb : BitVec 5) (sa : BitVec 5) (sd : BitVec 5) :
    (encS major z fn sb sa sd).extractLsb' 17 5 = sb := by
  refine (BitVec.extractLsb'_append_eq_of_le (w := 1) (by decide)).trans ?_
  refine (BitVec.extractLsb'_append_eq_of_le (w := 6) (by decide)).trans ?_
  refine (BitVec.extractLsb'_append_eq_of_le (w := 5) (by decide)).trans ?_
  refine (BitVec.extractLsb'_append_eq_of_le (w := 5) (by decide)).trans ?_
  refine (BitVec.extractLsb'_append_eq_of_add_le (w := 5) (by decide)).trans ?_
  exact BitVec.extractLsb'_eq_self

@[simp] theorem encS_fn (major : BitVec 6) (z : BitVec 4) (fn : BitVec 6) (sb : BitVec 5) (sa : BitVec 5) (sd : BitVec 5) :
    (encS major z fn sb sa sd).extractLsb' 22 6 = fn := by
  refine (BitVec.extractLsb'_append_eq_of_le (w := 1) (by decide)).trans ?_
  refine (BitVec.extractLsb'_append_eq_of_le (w := 6) (by decide)).trans ?_
  refine (BitVec.extractLsb'_append_eq_of_le (w := 5) (by decide)).trans ?_
  refine (BitVec.extractLsb'_append_eq_of_le (w := 5) (by decide)).trans ?_
  refine (BitVec.extractLsb'_append_eq_of_le (w := 5) (by decide)).trans ?_
  refine (BitVec.extractLsb'_append_eq_of_add_le (w := 6) (by decide)).trans ?_
  exact BitVec.extractLsb'_eq_self

@[simp] theorem encS_z (major : BitVec 6) (z : BitVec 4) (fn : BitVec 6) (sb : BitVec 5) (sa : BitVec 5) (sd : BitVec 5) :
    (encS major z fn sb sa sd).extractLsb' 28 4 = z := by
  refine (BitVec.extractLsb'_append_eq_of_le (w := 1) (by decide)).trans ?_
  refine (BitVec.extractLsb'_append_eq_of_le (w := 6) (by decide)).trans ?_
  refine (BitVec.extractLsb'_append_eq_of_le (w := 5) (by decide)).trans ?_
  refine (BitVec.extractLsb'_append_eq_of_le (w := 5) (by decide)).trans ?_
  refine (BitVec.extractLsb'_append_eq_of_le (w := 5) (by decide)).trans ?_
  refine (BitVec.extractLsb'_append_eq_of_le (w := 6) (by decide)).trans ?_
  exact BitVec.extractLsb'_eq_self

@[simp] theorem encSI_major (major : BitVec 6) (i : BitVec 15) (sa : BitVec 5) (sd : BitVec 5) :
    (encSI major i sa sd).extractLsb' 1 6 = major := by
  refine (BitVec.extractLsb'_append_eq_of_le (w := 1) (by decide)).trans ?_
  refine (BitVec.extractLsb'_append_eq_of_add_le (w := 6) (by decide)).trans ?_
  exact BitVec.extractLsb'_eq_self

@[simp] theorem encSI_sd (major : BitVec 6) (i : BitVec 15) (sa : BitVec 5) (sd : BitVec 5) :
    (encSI major i sa sd).extractLsb' 7 5 = sd := by
  refine (BitVec.extractLsb'_append_eq_of_le (w := 1) (by decide)).trans ?_
  refine (BitVec.extractLsb'_append_eq_of_le (w := 6) (by decide)).trans ?_
  refine (BitVec.extractLsb'_append_eq_of_add_le (w := 5) (by decide)).trans ?_
  exact BitVec.extractLsb'_eq_self

@[simp] theorem encSI_sa (major : BitVec 6) (i : BitVec 15) (sa : BitVec 5) (sd : BitVec 5) :
    (encSI major i sa sd).extractLsb' 12 5 = sa := by
  refine (BitVec.extractLsb'_append_eq_of_le (w := 1) (by decide)).trans ?_
  refine (BitVec.extractLsb'_append_eq_of_le (w := 6) (by decide)).trans ?_
  refine (BitVec.extractLsb'_append_eq_of_le (w := 5) (by decide)).trans ?_
  refine (BitVec.extractLsb'_append_eq_of_add_le (w := 5) (by decide)).trans ?_
  exact BitVec.extractLsb'_eq_self

@[simp] theorem encSI_i (major : BitVec 6) (i : BitVec 15) (sa : BitVec 5) (sd : BitVec 5) :
    (encSI major i sa sd).extractLsb' 17 15 = i := by
  refine (BitVec.extractLsb'_append_eq_of_le (w := 1) (by decide)).trans ?_
  refine (BitVec.extractLsb'_append_eq_of_le (w := 6) (by decide)).trans ?_
  refine (BitVec.extractLsb'_append_eq_of_le (w := 5) (by decide)).trans ?_
  refine (BitVec.extractLsb'_append_eq_of_le (w := 5) (by decide)).trans ?_
  exact BitVec.extractLsb'_eq_self

@[simp] theorem encM_major (major : BitVec 6) (fn : BitVec 4) (i : BitVec 5) (v : BitVec 6) (a : BitVec 4) (d : BitVec 6) :
    (encM major fn i v a d).extractLsb' 1 6 = major := by
  refine (BitVec.extractLsb'_append_eq_of_le (w := 1) (by decide)).trans ?_
  refine (BitVec.extractLsb'_append_eq_of_add_le (w := 6) (by decide)).trans ?_
  exact BitVec.extractLsb'_eq_self

@[simp] theorem encM_d (major : BitVec 6) (fn : BitVec 4) (i : BitVec 5) (v : BitVec 6) (a : BitVec 4) (d : BitVec 6) :
    (encM major fn i v a d).extractLsb' 7 6 = d := by
  refine (BitVec.extractLsb'_append_eq_of_le (w := 1) (by decide)).trans ?_
  refine (BitVec.extractLsb'_append_eq_of_le (w := 6) (by decide)).trans ?_
  refine (BitVec.extractLsb'_append_eq_of_add_le (w := 6) (by decide)).trans ?_
  exact BitVec.extractLsb'_eq_self

@[simp] theorem encM_a (major : BitVec 6) (fn : BitVec 4) (i : BitVec 5) (v : BitVec 6) (a : BitVec 4) (d : BitVec 6) :
    (encM major fn i v a d).extractLsb' 13 4 = a := by
  refine (BitVec.extractLsb'_append_eq_of_le (w := 1) (by decide)).trans ?_
  refine (BitVec.extractLsb'_append_eq_of_le (w := 6) (by decide)).trans ?_
  refine (BitVec.extractLsb'_append_eq_of_le (w := 6) (by decide)).trans ?_
  refine (BitVec.extractLsb'_append_eq_of_add_le (w := 4) (by decide)).trans ?_
  exact BitVec.extractLsb'_eq_self

@[simp] theorem encM_v (major : BitVec 6) (fn : BitVec 4) (i : BitVec 5) (v : BitVec 6) (a : BitVec 4) (d : BitVec 6) :
    (encM major fn i v a d).extractLsb' 17 6 = v := by
  refine (BitVec.extractLsb'_append_eq_of_le (w := 1) (by decide)).trans ?_
  refine (BitVec.extractLsb'_append_eq_of_le (w := 6) (by decide)).trans ?_
  refine (BitVec.extractLsb'_append_eq_of_le (w := 6) (by decide)).trans ?_
  refine (BitVec.extractLsb'_append_eq_of_le (w := 4) (by decide)).trans ?_
  refine (BitVec.extractLsb'_append_eq_of_add_le (w := 6) (by decide)).trans ?_
  exact BitVec.extractLsb'_eq_self

@[simp] theorem encM_i (major : BitVec 6) (fn : BitVec 4) (i : BitVec 5) (v : BitVec 6) (a : BitVec 4) (d : BitVec 6) :
    (encM major fn i v a d).extractLsb' 23 5 = i := by
  refine (BitVec.extractLsb'_append_eq_of_le (w := 1) (by decide)).trans ?_
  refine (BitVec.extractLsb'_append_eq_of_le (w := 6) (by decide)).trans ?_
  refine (BitVec.extractLsb'_append_eq_of_le (w := 6) (by decide)).trans ?_
  refine (BitVec.extractLsb'_append_eq_of_le (w := 4) (by decide)).trans ?_
  refine (BitVec.extractLsb'_append_eq_of_le (w := 6) (by decide)).trans ?_
  refine (BitVec.extractLsb'_append_eq_of_add_le (w := 5) (by decide)).trans ?_
  exact BitVec.extractLsb'_eq_self

@[simp] theorem encM_fn (major : BitVec 6) (fn : BitVec 4) (i : BitVec 5) (v : BitVec 6) (a : BitVec 4) (d : BitVec 6) :
    (encM major fn i v a d).extractLsb' 28 4 = fn := by
  refine (BitVec.extractLsb'_append_eq_of_le (w := 1) (by decide)).trans ?_
  refine (BitVec.extractLsb'_append_eq_of_le (w := 6) (by decide)).trans ?_
  refine (BitVec.extractLsb'_append_eq_of_le (w := 6) (by decide)).trans ?_
  refine (BitVec.extractLsb'_append_eq_of_le (w := 4) (by decide)).trans ?_
  refine (BitVec.extractLsb'_append_eq_of_le (w := 6) (by decide)).trans ?_
  refine (BitVec.extractLsb'_append_eq_of_le (w := 5) (by decide)).trans ?_
  exact BitVec.extractLsb'_eq_self

@[simp] theorem encB_major (major : BitVec 6) (o : BitVec 20) (cond : BitVec 2) (p : BitVec 3) :
    (encB major o cond p).extractLsb' 1 6 = major := by
  refine (BitVec.extractLsb'_append_eq_of_le (w := 1) (by decide)).trans ?_
  refine (BitVec.extractLsb'_append_eq_of_add_le (w := 6) (by decide)).trans ?_
  exact BitVec.extractLsb'_eq_self

@[simp] theorem encB_p (major : BitVec 6) (o : BitVec 20) (cond : BitVec 2) (p : BitVec 3) :
    (encB major o cond p).extractLsb' 7 3 = p := by
  refine (BitVec.extractLsb'_append_eq_of_le (w := 1) (by decide)).trans ?_
  refine (BitVec.extractLsb'_append_eq_of_le (w := 6) (by decide)).trans ?_
  refine (BitVec.extractLsb'_append_eq_of_add_le (w := 3) (by decide)).trans ?_
  exact BitVec.extractLsb'_eq_self

@[simp] theorem encB_cond (major : BitVec 6) (o : BitVec 20) (cond : BitVec 2) (p : BitVec 3) :
    (encB major o cond p).extractLsb' 10 2 = cond := by
  refine (BitVec.extractLsb'_append_eq_of_le (w := 1) (by decide)).trans ?_
  refine (BitVec.extractLsb'_append_eq_of_le (w := 6) (by decide)).trans ?_
  refine (BitVec.extractLsb'_append_eq_of_le (w := 3) (by decide)).trans ?_
  refine (BitVec.extractLsb'_append_eq_of_add_le (w := 2) (by decide)).trans ?_
  exact BitVec.extractLsb'_eq_self

@[simp] theorem encB_o (major : BitVec 6) (o : BitVec 20) (cond : BitVec 2) (p : BitVec 3) :
    (encB major o cond p).extractLsb' 12 20 = o := by
  refine (BitVec.extractLsb'_append_eq_of_le (w := 1) (by decide)).trans ?_
  refine (BitVec.extractLsb'_append_eq_of_le (w := 6) (by decide)).trans ?_
  refine (BitVec.extractLsb'_append_eq_of_le (w := 3) (by decide)).trans ?_
  refine (BitVec.extractLsb'_append_eq_of_le (w := 2) (by decide)).trans ?_
  exact BitVec.extractLsb'_eq_self

@[simp] theorem encJ_major (major : BitVec 6) (o : BitVec 20) (sd : BitVec 5) :
    (encJ major o sd).extractLsb' 1 6 = major := by
  refine (BitVec.extractLsb'_append_eq_of_le (w := 1) (by decide)).trans ?_
  refine (BitVec.extractLsb'_append_eq_of_add_le (w := 6) (by decide)).trans ?_
  exact BitVec.extractLsb'_eq_self

@[simp] theorem encJ_sd (major : BitVec 6) (o : BitVec 20) (sd : BitVec 5) :
    (encJ major o sd).extractLsb' 7 5 = sd := by
  refine (BitVec.extractLsb'_append_eq_of_le (w := 1) (by decide)).trans ?_
  refine (BitVec.extractLsb'_append_eq_of_le (w := 6) (by decide)).trans ?_
  refine (BitVec.extractLsb'_append_eq_of_add_le (w := 5) (by decide)).trans ?_
  exact BitVec.extractLsb'_eq_self

@[simp] theorem encJ_o (major : BitVec 6) (o : BitVec 20) (sd : BitVec 5) :
    (encJ major o sd).extractLsb' 12 20 = o := by
  refine (BitVec.extractLsb'_append_eq_of_le (w := 1) (by decide)).trans ?_
  refine (BitVec.extractLsb'_append_eq_of_le (w := 6) (by decide)).trans ?_
  refine (BitVec.extractLsb'_append_eq_of_le (w := 5) (by decide)).trans ?_
  exact BitVec.extractLsb'_eq_self

@[simp] theorem encL_major (major : BitVec 6) (e : BitVec 17) (im : BitVec 1) (c : BitVec 5) (l : BitVec 2) :
    (encL major e im c l).extractLsb' 1 6 = major := by
  refine (BitVec.extractLsb'_append_eq_of_le (w := 1) (by decide)).trans ?_
  refine (BitVec.extractLsb'_append_eq_of_add_le (w := 6) (by decide)).trans ?_
  exact BitVec.extractLsb'_eq_self

@[simp] theorem encL_l (major : BitVec 6) (e : BitVec 17) (im : BitVec 1) (c : BitVec 5) (l : BitVec 2) :
    (encL major e im c l).extractLsb' 7 2 = l := by
  refine (BitVec.extractLsb'_append_eq_of_le (w := 1) (by decide)).trans ?_
  refine (BitVec.extractLsb'_append_eq_of_le (w := 6) (by decide)).trans ?_
  refine (BitVec.extractLsb'_append_eq_of_add_le (w := 2) (by decide)).trans ?_
  exact BitVec.extractLsb'_eq_self

@[simp] theorem encL_c (major : BitVec 6) (e : BitVec 17) (im : BitVec 1) (c : BitVec 5) (l : BitVec 2) :
    (encL major e im c l).extractLsb' 9 5 = c := by
  refine (BitVec.extractLsb'_append_eq_of_le (w := 1) (by decide)).trans ?_
  refine (BitVec.extractLsb'_append_eq_of_le (w := 6) (by decide)).trans ?_
  refine (BitVec.extractLsb'_append_eq_of_le (w := 2) (by decide)).trans ?_
  refine (BitVec.extractLsb'_append_eq_of_add_le (w := 5) (by decide)).trans ?_
  exact BitVec.extractLsb'_eq_self

@[simp] theorem encL_im (major : BitVec 6) (e : BitVec 17) (im : BitVec 1) (c : BitVec 5) (l : BitVec 2) :
    (encL major e im c l).extractLsb' 14 1 = im := by
  refine (BitVec.extractLsb'_append_eq_of_le (w := 1) (by decide)).trans ?_
  refine (BitVec.extractLsb'_append_eq_of_le (w := 6) (by decide)).trans ?_
  refine (BitVec.extractLsb'_append_eq_of_le (w := 2) (by decide)).trans ?_
  refine (BitVec.extractLsb'_append_eq_of_le (w := 5) (by decide)).trans ?_
  refine (BitVec.extractLsb'_append_eq_of_add_le (w := 1) (by decide)).trans ?_
  exact BitVec.extractLsb'_eq_self

@[simp] theorem encL_e (major : BitVec 6) (e : BitVec 17) (im : BitVec 1) (c : BitVec 5) (l : BitVec 2) :
    (encL major e im c l).extractLsb' 15 17 = e := by
  refine (BitVec.extractLsb'_append_eq_of_le (w := 1) (by decide)).trans ?_
  refine (BitVec.extractLsb'_append_eq_of_le (w := 6) (by decide)).trans ?_
  refine (BitVec.extractLsb'_append_eq_of_le (w := 2) (by decide)).trans ?_
  refine (BitVec.extractLsb'_append_eq_of_le (w := 5) (by decide)).trans ?_
  refine (BitVec.extractLsb'_append_eq_of_le (w := 1) (by decide)).trans ?_
  exact BitVec.extractLsb'_eq_self

@[simp] theorem encW_major (major : BitVec 6) (z : BitVec 7) (t : BitVec 4) (c : BitVec 4) (s : BitVec 5) (l : BitVec 5) :
    (encW major z t c s l).extractLsb' 1 6 = major := by
  refine (BitVec.extractLsb'_append_eq_of_le (w := 1) (by decide)).trans ?_
  refine (BitVec.extractLsb'_append_eq_of_add_le (w := 6) (by decide)).trans ?_
  exact BitVec.extractLsb'_eq_self

@[simp] theorem encW_l (major : BitVec 6) (z : BitVec 7) (t : BitVec 4) (c : BitVec 4) (s : BitVec 5) (l : BitVec 5) :
    (encW major z t c s l).extractLsb' 7 5 = l := by
  refine (BitVec.extractLsb'_append_eq_of_le (w := 1) (by decide)).trans ?_
  refine (BitVec.extractLsb'_append_eq_of_le (w := 6) (by decide)).trans ?_
  refine (BitVec.extractLsb'_append_eq_of_add_le (w := 5) (by decide)).trans ?_
  exact BitVec.extractLsb'_eq_self

@[simp] theorem encW_s (major : BitVec 6) (z : BitVec 7) (t : BitVec 4) (c : BitVec 4) (s : BitVec 5) (l : BitVec 5) :
    (encW major z t c s l).extractLsb' 12 5 = s := by
  refine (BitVec.extractLsb'_append_eq_of_le (w := 1) (by decide)).trans ?_
  refine (BitVec.extractLsb'_append_eq_of_le (w := 6) (by decide)).trans ?_
  refine (BitVec.extractLsb'_append_eq_of_le (w := 5) (by decide)).trans ?_
  refine (BitVec.extractLsb'_append_eq_of_add_le (w := 5) (by decide)).trans ?_
  exact BitVec.extractLsb'_eq_self

@[simp] theorem encW_c (major : BitVec 6) (z : BitVec 7) (t : BitVec 4) (c : BitVec 4) (s : BitVec 5) (l : BitVec 5) :
    (encW major z t c s l).extractLsb' 17 4 = c := by
  refine (BitVec.extractLsb'_append_eq_of_le (w := 1) (by decide)).trans ?_
  refine (BitVec.extractLsb'_append_eq_of_le (w := 6) (by decide)).trans ?_
  refine (BitVec.extractLsb'_append_eq_of_le (w := 5) (by decide)).trans ?_
  refine (BitVec.extractLsb'_append_eq_of_le (w := 5) (by decide)).trans ?_
  refine (BitVec.extractLsb'_append_eq_of_add_le (w := 4) (by decide)).trans ?_
  exact BitVec.extractLsb'_eq_self

@[simp] theorem encW_t (major : BitVec 6) (z : BitVec 7) (t : BitVec 4) (c : BitVec 4) (s : BitVec 5) (l : BitVec 5) :
    (encW major z t c s l).extractLsb' 21 4 = t := by
  refine (BitVec.extractLsb'_append_eq_of_le (w := 1) (by decide)).trans ?_
  refine (BitVec.extractLsb'_append_eq_of_le (w := 6) (by decide)).trans ?_
  refine (BitVec.extractLsb'_append_eq_of_le (w := 5) (by decide)).trans ?_
  refine (BitVec.extractLsb'_append_eq_of_le (w := 5) (by decide)).trans ?_
  refine (BitVec.extractLsb'_append_eq_of_le (w := 4) (by decide)).trans ?_
  refine (BitVec.extractLsb'_append_eq_of_add_le (w := 4) (by decide)).trans ?_
  exact BitVec.extractLsb'_eq_self

@[simp] theorem encW_z (major : BitVec 6) (z : BitVec 7) (t : BitVec 4) (c : BitVec 4) (s : BitVec 5) (l : BitVec 5) :
    (encW major z t c s l).extractLsb' 25 7 = z := by
  refine (BitVec.extractLsb'_append_eq_of_le (w := 1) (by decide)).trans ?_
  refine (BitVec.extractLsb'_append_eq_of_le (w := 6) (by decide)).trans ?_
  refine (BitVec.extractLsb'_append_eq_of_le (w := 5) (by decide)).trans ?_
  refine (BitVec.extractLsb'_append_eq_of_le (w := 5) (by decide)).trans ?_
  refine (BitVec.extractLsb'_append_eq_of_le (w := 4) (by decide)).trans ?_
  refine (BitVec.extractLsb'_append_eq_of_le (w := 4) (by decide)).trans ?_
  exact BitVec.extractLsb'_eq_self

@[simp] theorem encT_major (major : BitVec 6) (mode : BitVec 5) (g : BitVec 3) (z : BitVec 1) (n : BitVec 1) (m : BitVec 1) (b : BitVec 4) (a : BitVec 4) (acc : BitVec 6) :
    (encT major mode g z n m b a acc).extractLsb' 1 6 = major := by
  refine (BitVec.extractLsb'_append_eq_of_le (w := 1) (by decide)).trans ?_
  refine (BitVec.extractLsb'_append_eq_of_add_le (w := 6) (by decide)).trans ?_
  exact BitVec.extractLsb'_eq_self

@[simp] theorem encT_acc (major : BitVec 6) (mode : BitVec 5) (g : BitVec 3) (z : BitVec 1) (n : BitVec 1) (m : BitVec 1) (b : BitVec 4) (a : BitVec 4) (acc : BitVec 6) :
    (encT major mode g z n m b a acc).extractLsb' 7 6 = acc := by
  refine (BitVec.extractLsb'_append_eq_of_le (w := 1) (by decide)).trans ?_
  refine (BitVec.extractLsb'_append_eq_of_le (w := 6) (by decide)).trans ?_
  refine (BitVec.extractLsb'_append_eq_of_add_le (w := 6) (by decide)).trans ?_
  exact BitVec.extractLsb'_eq_self

@[simp] theorem encT_a (major : BitVec 6) (mode : BitVec 5) (g : BitVec 3) (z : BitVec 1) (n : BitVec 1) (m : BitVec 1) (b : BitVec 4) (a : BitVec 4) (acc : BitVec 6) :
    (encT major mode g z n m b a acc).extractLsb' 13 4 = a := by
  refine (BitVec.extractLsb'_append_eq_of_le (w := 1) (by decide)).trans ?_
  refine (BitVec.extractLsb'_append_eq_of_le (w := 6) (by decide)).trans ?_
  refine (BitVec.extractLsb'_append_eq_of_le (w := 6) (by decide)).trans ?_
  refine (BitVec.extractLsb'_append_eq_of_add_le (w := 4) (by decide)).trans ?_
  exact BitVec.extractLsb'_eq_self

@[simp] theorem encT_b (major : BitVec 6) (mode : BitVec 5) (g : BitVec 3) (z : BitVec 1) (n : BitVec 1) (m : BitVec 1) (b : BitVec 4) (a : BitVec 4) (acc : BitVec 6) :
    (encT major mode g z n m b a acc).extractLsb' 17 4 = b := by
  refine (BitVec.extractLsb'_append_eq_of_le (w := 1) (by decide)).trans ?_
  refine (BitVec.extractLsb'_append_eq_of_le (w := 6) (by decide)).trans ?_
  refine (BitVec.extractLsb'_append_eq_of_le (w := 6) (by decide)).trans ?_
  refine (BitVec.extractLsb'_append_eq_of_le (w := 4) (by decide)).trans ?_
  refine (BitVec.extractLsb'_append_eq_of_add_le (w := 4) (by decide)).trans ?_
  exact BitVec.extractLsb'_eq_self

@[simp] theorem encT_m (major : BitVec 6) (mode : BitVec 5) (g : BitVec 3) (z : BitVec 1) (n : BitVec 1) (m : BitVec 1) (b : BitVec 4) (a : BitVec 4) (acc : BitVec 6) :
    (encT major mode g z n m b a acc).extractLsb' 21 1 = m := by
  refine (BitVec.extractLsb'_append_eq_of_le (w := 1) (by decide)).trans ?_
  refine (BitVec.extractLsb'_append_eq_of_le (w := 6) (by decide)).trans ?_
  refine (BitVec.extractLsb'_append_eq_of_le (w := 6) (by decide)).trans ?_
  refine (BitVec.extractLsb'_append_eq_of_le (w := 4) (by decide)).trans ?_
  refine (BitVec.extractLsb'_append_eq_of_le (w := 4) (by decide)).trans ?_
  refine (BitVec.extractLsb'_append_eq_of_add_le (w := 1) (by decide)).trans ?_
  exact BitVec.extractLsb'_eq_self

@[simp] theorem encT_n (major : BitVec 6) (mode : BitVec 5) (g : BitVec 3) (z : BitVec 1) (n : BitVec 1) (m : BitVec 1) (b : BitVec 4) (a : BitVec 4) (acc : BitVec 6) :
    (encT major mode g z n m b a acc).extractLsb' 22 1 = n := by
  refine (BitVec.extractLsb'_append_eq_of_le (w := 1) (by decide)).trans ?_
  refine (BitVec.extractLsb'_append_eq_of_le (w := 6) (by decide)).trans ?_
  refine (BitVec.extractLsb'_append_eq_of_le (w := 6) (by decide)).trans ?_
  refine (BitVec.extractLsb'_append_eq_of_le (w := 4) (by decide)).trans ?_
  refine (BitVec.extractLsb'_append_eq_of_le (w := 4) (by decide)).trans ?_
  refine (BitVec.extractLsb'_append_eq_of_le (w := 1) (by decide)).trans ?_
  refine (BitVec.extractLsb'_append_eq_of_add_le (w := 1) (by decide)).trans ?_
  exact BitVec.extractLsb'_eq_self

@[simp] theorem encT_z (major : BitVec 6) (mode : BitVec 5) (g : BitVec 3) (z : BitVec 1) (n : BitVec 1) (m : BitVec 1) (b : BitVec 4) (a : BitVec 4) (acc : BitVec 6) :
    (encT major mode g z n m b a acc).extractLsb' 23 1 = z := by
  refine (BitVec.extractLsb'_append_eq_of_le (w := 1) (by decide)).trans ?_
  refine (BitVec.extractLsb'_append_eq_of_le (w := 6) (by decide)).trans ?_
  refine (BitVec.extractLsb'_append_eq_of_le (w := 6) (by decide)).trans ?_
  refine (BitVec.extractLsb'_append_eq_of_le (w := 4) (by decide)).trans ?_
  refine (BitVec.extractLsb'_append_eq_of_le (w := 4) (by decide)).trans ?_
  refine (BitVec.extractLsb'_append_eq_of_le (w := 1) (by decide)).trans ?_
  refine (BitVec.extractLsb'_append_eq_of_le (w := 1) (by decide)).trans ?_
  refine (BitVec.extractLsb'_append_eq_of_add_le (w := 1) (by decide)).trans ?_
  exact BitVec.extractLsb'_eq_self

@[simp] theorem encT_g (major : BitVec 6) (mode : BitVec 5) (g : BitVec 3) (z : BitVec 1) (n : BitVec 1) (m : BitVec 1) (b : BitVec 4) (a : BitVec 4) (acc : BitVec 6) :
    (encT major mode g z n m b a acc).extractLsb' 24 3 = g := by
  refine (BitVec.extractLsb'_append_eq_of_le (w := 1) (by decide)).trans ?_
  refine (BitVec.extractLsb'_append_eq_of_le (w := 6) (by decide)).trans ?_
  refine (BitVec.extractLsb'_append_eq_of_le (w := 6) (by decide)).trans ?_
  refine (BitVec.extractLsb'_append_eq_of_le (w := 4) (by decide)).trans ?_
  refine (BitVec.extractLsb'_append_eq_of_le (w := 4) (by decide)).trans ?_
  refine (BitVec.extractLsb'_append_eq_of_le (w := 1) (by decide)).trans ?_
  refine (BitVec.extractLsb'_append_eq_of_le (w := 1) (by decide)).trans ?_
  refine (BitVec.extractLsb'_append_eq_of_le (w := 1) (by decide)).trans ?_
  refine (BitVec.extractLsb'_append_eq_of_add_le (w := 3) (by decide)).trans ?_
  exact BitVec.extractLsb'_eq_self

@[simp] theorem encT_mode (major : BitVec 6) (mode : BitVec 5) (g : BitVec 3) (z : BitVec 1) (n : BitVec 1) (m : BitVec 1) (b : BitVec 4) (a : BitVec 4) (acc : BitVec 6) :
    (encT major mode g z n m b a acc).extractLsb' 27 5 = mode := by
  refine (BitVec.extractLsb'_append_eq_of_le (w := 1) (by decide)).trans ?_
  refine (BitVec.extractLsb'_append_eq_of_le (w := 6) (by decide)).trans ?_
  refine (BitVec.extractLsb'_append_eq_of_le (w := 6) (by decide)).trans ?_
  refine (BitVec.extractLsb'_append_eq_of_le (w := 4) (by decide)).trans ?_
  refine (BitVec.extractLsb'_append_eq_of_le (w := 4) (by decide)).trans ?_
  refine (BitVec.extractLsb'_append_eq_of_le (w := 1) (by decide)).trans ?_
  refine (BitVec.extractLsb'_append_eq_of_le (w := 1) (by decide)).trans ?_
  refine (BitVec.extractLsb'_append_eq_of_le (w := 1) (by decide)).trans ?_
  refine (BitVec.extractLsb'_append_eq_of_le (w := 3) (by decide)).trans ?_
  exact BitVec.extractLsb'_eq_self

@[simp] theorem encE_major (major : BitVec 6) (i : BitVec 6) (s3 : BitVec 5) (s2 : BitVec 5) (s1 : BitVec 5) (fn : BitVec 4) :
    (encE major i s3 s2 s1 fn).extractLsb' 1 6 = major := by
  refine (BitVec.extractLsb'_append_eq_of_le (w := 1) (by decide)).trans ?_
  refine (BitVec.extractLsb'_append_eq_of_add_le (w := 6) (by decide)).trans ?_
  exact BitVec.extractLsb'_eq_self

@[simp] theorem encE_fn (major : BitVec 6) (i : BitVec 6) (s3 : BitVec 5) (s2 : BitVec 5) (s1 : BitVec 5) (fn : BitVec 4) :
    (encE major i s3 s2 s1 fn).extractLsb' 7 4 = fn := by
  refine (BitVec.extractLsb'_append_eq_of_le (w := 1) (by decide)).trans ?_
  refine (BitVec.extractLsb'_append_eq_of_le (w := 6) (by decide)).trans ?_
  refine (BitVec.extractLsb'_append_eq_of_add_le (w := 4) (by decide)).trans ?_
  exact BitVec.extractLsb'_eq_self

@[simp] theorem encE_s1 (major : BitVec 6) (i : BitVec 6) (s3 : BitVec 5) (s2 : BitVec 5) (s1 : BitVec 5) (fn : BitVec 4) :
    (encE major i s3 s2 s1 fn).extractLsb' 11 5 = s1 := by
  refine (BitVec.extractLsb'_append_eq_of_le (w := 1) (by decide)).trans ?_
  refine (BitVec.extractLsb'_append_eq_of_le (w := 6) (by decide)).trans ?_
  refine (BitVec.extractLsb'_append_eq_of_le (w := 4) (by decide)).trans ?_
  refine (BitVec.extractLsb'_append_eq_of_add_le (w := 5) (by decide)).trans ?_
  exact BitVec.extractLsb'_eq_self

@[simp] theorem encE_s2 (major : BitVec 6) (i : BitVec 6) (s3 : BitVec 5) (s2 : BitVec 5) (s1 : BitVec 5) (fn : BitVec 4) :
    (encE major i s3 s2 s1 fn).extractLsb' 16 5 = s2 := by
  refine (BitVec.extractLsb'_append_eq_of_le (w := 1) (by decide)).trans ?_
  refine (BitVec.extractLsb'_append_eq_of_le (w := 6) (by decide)).trans ?_
  refine (BitVec.extractLsb'_append_eq_of_le (w := 4) (by decide)).trans ?_
  refine (BitVec.extractLsb'_append_eq_of_le (w := 5) (by decide)).trans ?_
  refine (BitVec.extractLsb'_append_eq_of_add_le (w := 5) (by decide)).trans ?_
  exact BitVec.extractLsb'_eq_self

@[simp] theorem encE_s3 (major : BitVec 6) (i : BitVec 6) (s3 : BitVec 5) (s2 : BitVec 5) (s1 : BitVec 5) (fn : BitVec 4) :
    (encE major i s3 s2 s1 fn).extractLsb' 21 5 = s3 := by
  refine (BitVec.extractLsb'_append_eq_of_le (w := 1) (by decide)).trans ?_
  refine (BitVec.extractLsb'_append_eq_of_le (w := 6) (by decide)).trans ?_
  refine (BitVec.extractLsb'_append_eq_of_le (w := 4) (by decide)).trans ?_
  refine (BitVec.extractLsb'_append_eq_of_le (w := 5) (by decide)).trans ?_
  refine (BitVec.extractLsb'_append_eq_of_le (w := 5) (by decide)).trans ?_
  refine (BitVec.extractLsb'_append_eq_of_add_le (w := 5) (by decide)).trans ?_
  exact BitVec.extractLsb'_eq_self

@[simp] theorem encE_i (major : BitVec 6) (i : BitVec 6) (s3 : BitVec 5) (s2 : BitVec 5) (s1 : BitVec 5) (fn : BitVec 4) :
    (encE major i s3 s2 s1 fn).extractLsb' 26 6 = i := by
  refine (BitVec.extractLsb'_append_eq_of_le (w := 1) (by decide)).trans ?_
  refine (BitVec.extractLsb'_append_eq_of_le (w := 6) (by decide)).trans ?_
  refine (BitVec.extractLsb'_append_eq_of_le (w := 4) (by decide)).trans ?_
  refine (BitVec.extractLsb'_append_eq_of_le (w := 5) (by decide)).trans ?_
  refine (BitVec.extractLsb'_append_eq_of_le (w := 5) (by decide)).trans ?_
  refine (BitVec.extractLsb'_append_eq_of_le (w := 5) (by decide)).trans ?_
  exact BitVec.extractLsb'_eq_self

@[simp] theorem encC_op (g : BitVec 1) (a : BitVec 5) (d : BitVec 5) (op : BitVec 4) :
    (encC g a d op).extractLsb' 1 4 = op := by
  refine (BitVec.extractLsb'_append_eq_of_le (w := 1) (by decide)).trans ?_
  refine (BitVec.extractLsb'_append_eq_of_add_le (w := 4) (by decide)).trans ?_
  exact BitVec.extractLsb'_eq_self

@[simp] theorem encC_d (g : BitVec 1) (a : BitVec 5) (d : BitVec 5) (op : BitVec 4) :
    (encC g a d op).extractLsb' 5 5 = d := by
  refine (BitVec.extractLsb'_append_eq_of_le (w := 1) (by decide)).trans ?_
  refine (BitVec.extractLsb'_append_eq_of_le (w := 4) (by decide)).trans ?_
  refine (BitVec.extractLsb'_append_eq_of_add_le (w := 5) (by decide)).trans ?_
  exact BitVec.extractLsb'_eq_self

@[simp] theorem encC_a (g : BitVec 1) (a : BitVec 5) (d : BitVec 5) (op : BitVec 4) :
    (encC g a d op).extractLsb' 10 5 = a := by
  refine (BitVec.extractLsb'_append_eq_of_le (w := 1) (by decide)).trans ?_
  refine (BitVec.extractLsb'_append_eq_of_le (w := 4) (by decide)).trans ?_
  refine (BitVec.extractLsb'_append_eq_of_le (w := 5) (by decide)).trans ?_
  refine (BitVec.extractLsb'_append_eq_of_add_le (w := 5) (by decide)).trans ?_
  exact BitVec.extractLsb'_eq_self

@[simp] theorem encC_g (g : BitVec 1) (a : BitVec 5) (d : BitVec 5) (op : BitVec 4) :
    (encC g a d op).extractLsb' 15 1 = g := by
  refine (BitVec.extractLsb'_append_eq_of_le (w := 1) (by decide)).trans ?_
  refine (BitVec.extractLsb'_append_eq_of_le (w := 4) (by decide)).trans ?_
  refine (BitVec.extractLsb'_append_eq_of_le (w := 5) (by decide)).trans ?_
  refine (BitVec.extractLsb'_append_eq_of_le (w := 5) (by decide)).trans ?_
  exact BitVec.extractLsb'_eq_self

theorem decodeWord_01 (fn : BitVec 4) (g : BitVec 3) (b : BitVec 6) (a : BitVec 6) (d : BitVec 6) :
    decodeWord (encV3 1#6 fn g b a d) = dec01 fn g b a d := by
  have h : encV3 1#6 fn g b a d ≠ 0xFFFF_FFFF#32 := by
    intro h
    have := congrArg (BitVec.extractLsb' 1 6) h
    rw [encV3_major] at this
    exact absurd this (by decide)
  unfold decodeWord
  rw [if_neg h, encV3_major]
  change dec01 (BitVec.extractLsb' 28 4 (encV3 1#6 fn g b a d)) (BitVec.extractLsb' 25 3 (encV3 1#6 fn g b a d)) (BitVec.extractLsb' 19 6 (encV3 1#6 fn g b a d)) (BitVec.extractLsb' 13 6 (encV3 1#6 fn g b a d)) (BitVec.extractLsb' 7 6 (encV3 1#6 fn g b a d)) = _
  simp only [encV3_fn, encV3_g, encV3_b, encV3_a, encV3_d]

theorem decodeWord_02 (fn : BitVec 4) (i : BitVec 9) (a : BitVec 6) (d : BitVec 6) :
    decodeWord (encVI 2#6 fn i a d) = dec02 fn i a d := by
  have h : encVI 2#6 fn i a d ≠ 0xFFFF_FFFF#32 := by
    intro h
    have := congrArg (BitVec.extractLsb' 1 6) h
    rw [encVI_major] at this
    exact absurd this (by decide)
  unfold decodeWord
  rw [if_neg h, encVI_major]
  change dec02 (BitVec.extractLsb' 28 4 (encVI 2#6 fn i a d)) (BitVec.extractLsb' 19 9 (encVI 2#6 fn i a d)) (BitVec.extractLsb' 13 6 (encVI 2#6 fn i a d)) (BitVec.extractLsb' 7 6 (encVI 2#6 fn i a d)) = _
  simp only [encVI_fn, encVI_i, encVI_a, encVI_d]

theorem decodeWord_03 (fn : BitVec 4) (g : BitVec 3) (b : BitVec 6) (a : BitVec 6) (d : BitVec 6) :
    decodeWord (encV3 3#6 fn g b a d) = dec03 fn g b a d := by
  have h : encV3 3#6 fn g b a d ≠ 0xFFFF_FFFF#32 := by
    intro h
    have := congrArg (BitVec.extractLsb' 1 6) h
    rw [encV3_major] at this
    exact absurd this (by decide)
  unfold decodeWord
  rw [if_neg h, encV3_major]
  change dec03 (BitVec.extractLsb' 28 4 (encV3 3#6 fn g b a d)) (BitVec.extractLsb' 25 3 (encV3 3#6 fn g b a d)) (BitVec.extractLsb' 19 6 (encV3 3#6 fn g b a d)) (BitVec.extractLsb' 13 6 (encV3 3#6 fn g b a d)) (BitVec.extractLsb' 7 6 (encV3 3#6 fn g b a d)) = _
  simp only [encV3_fn, encV3_g, encV3_b, encV3_a, encV3_d]

theorem decodeWord_04 (fn : BitVec 4) (g : BitVec 3) (b : BitVec 6) (a : BitVec 6) (d : BitVec 6) :
    decodeWord (encV3 4#6 fn g b a d) = dec04 fn g b a d := by
  have h : encV3 4#6 fn g b a d ≠ 0xFFFF_FFFF#32 := by
    intro h
    have := congrArg (BitVec.extractLsb' 1 6) h
    rw [encV3_major] at this
    exact absurd this (by decide)
  unfold decodeWord
  rw [if_neg h, encV3_major]
  change dec04 (BitVec.extractLsb' 28 4 (encV3 4#6 fn g b a d)) (BitVec.extractLsb' 25 3 (encV3 4#6 fn g b a d)) (BitVec.extractLsb' 19 6 (encV3 4#6 fn g b a d)) (BitVec.extractLsb' 13 6 (encV3 4#6 fn g b a d)) (BitVec.extractLsb' 7 6 (encV3 4#6 fn g b a d)) = _
  simp only [encV3_fn, encV3_g, encV3_b, encV3_a, encV3_d]

theorem decodeWord_05 (fn : BitVec 4) (g : BitVec 3) (b : BitVec 6) (a : BitVec 6) (d : BitVec 6) :
    decodeWord (encV3 5#6 fn g b a d) = dec05 fn g b a d := by
  have h : encV3 5#6 fn g b a d ≠ 0xFFFF_FFFF#32 := by
    intro h
    have := congrArg (BitVec.extractLsb' 1 6) h
    rw [encV3_major] at this
    exact absurd this (by decide)
  unfold decodeWord
  rw [if_neg h, encV3_major]
  change dec05 (BitVec.extractLsb' 28 4 (encV3 5#6 fn g b a d)) (BitVec.extractLsb' 25 3 (encV3 5#6 fn g b a d)) (BitVec.extractLsb' 19 6 (encV3 5#6 fn g b a d)) (BitVec.extractLsb' 13 6 (encV3 5#6 fn g b a d)) (BitVec.extractLsb' 7 6 (encV3 5#6 fn g b a d)) = _
  simp only [encV3_fn, encV3_g, encV3_b, encV3_a, encV3_d]

theorem decodeWord_06 (fn : BitVec 4) (g : BitVec 3) (b : BitVec 6) (a : BitVec 6) (d : BitVec 6) :
    decodeWord (encV3 6#6 fn g b a d) = dec06 fn g b a d := by
  have h : encV3 6#6 fn g b a d ≠ 0xFFFF_FFFF#32 := by
    intro h
    have := congrArg (BitVec.extractLsb' 1 6) h
    rw [encV3_major] at this
    exact absurd this (by decide)
  unfold decodeWord
  rw [if_neg h, encV3_major]
  change dec06 (BitVec.extractLsb' 28 4 (encV3 6#6 fn g b a d)) (BitVec.extractLsb' 25 3 (encV3 6#6 fn g b a d)) (BitVec.extractLsb' 19 6 (encV3 6#6 fn g b a d)) (BitVec.extractLsb' 13 6 (encV3 6#6 fn g b a d)) (BitVec.extractLsb' 7 6 (encV3 6#6 fn g b a d)) = _
  simp only [encV3_fn, encV3_g, encV3_b, encV3_a, encV3_d]

theorem decodeWord_07 (fn : BitVec 4) (g : BitVec 3) (b : BitVec 6) (a : BitVec 6) (d : BitVec 6) :
    decodeWord (encV3 7#6 fn g b a d) = dec07 fn g b a d := by
  have h : encV3 7#6 fn g b a d ≠ 0xFFFF_FFFF#32 := by
    intro h
    have := congrArg (BitVec.extractLsb' 1 6) h
    rw [encV3_major] at this
    exact absurd this (by decide)
  unfold decodeWord
  rw [if_neg h, encV3_major]
  change dec07 (BitVec.extractLsb' 28 4 (encV3 7#6 fn g b a d)) (BitVec.extractLsb' 25 3 (encV3 7#6 fn g b a d)) (BitVec.extractLsb' 19 6 (encV3 7#6 fn g b a d)) (BitVec.extractLsb' 13 6 (encV3 7#6 fn g b a d)) (BitVec.extractLsb' 7 6 (encV3 7#6 fn g b a d)) = _
  simp only [encV3_fn, encV3_g, encV3_b, encV3_a, encV3_d]

theorem decodeWord_08 (z : BitVec 4) (fn : BitVec 6) (sb : BitVec 5) (sa : BitVec 5) (sd : BitVec 5) :
    decodeWord (encS 8#6 z fn sb sa sd) = dec08 z fn sb sa sd := by
  have h : encS 8#6 z fn sb sa sd ≠ 0xFFFF_FFFF#32 := by
    intro h
    have := congrArg (BitVec.extractLsb' 1 6) h
    rw [encS_major] at this
    exact absurd this (by decide)
  unfold decodeWord
  rw [if_neg h, encS_major]
  change dec08 (BitVec.extractLsb' 28 4 (encS 8#6 z fn sb sa sd)) (BitVec.extractLsb' 22 6 (encS 8#6 z fn sb sa sd)) (BitVec.extractLsb' 17 5 (encS 8#6 z fn sb sa sd)) (BitVec.extractLsb' 12 5 (encS 8#6 z fn sb sa sd)) (BitVec.extractLsb' 7 5 (encS 8#6 z fn sb sa sd)) = _
  simp only [encS_z, encS_fn, encS_sb, encS_sa, encS_sd]

theorem decodeWord_09 (i : BitVec 15) (sa : BitVec 5) (sd : BitVec 5) :
    decodeWord (encSI 9#6 i sa sd) = dec09 i sa sd := by
  have h : encSI 9#6 i sa sd ≠ 0xFFFF_FFFF#32 := by
    intro h
    have := congrArg (BitVec.extractLsb' 1 6) h
    rw [encSI_major] at this
    exact absurd this (by decide)
  unfold decodeWord
  rw [if_neg h, encSI_major]
  change dec09 (BitVec.extractLsb' 17 15 (encSI 9#6 i sa sd)) (BitVec.extractLsb' 12 5 (encSI 9#6 i sa sd)) (BitVec.extractLsb' 7 5 (encSI 9#6 i sa sd)) = _
  simp only [encSI_i, encSI_sa, encSI_sd]

theorem decodeWord_0A (i : BitVec 15) (sa : BitVec 5) (sd : BitVec 5) :
    decodeWord (encSI 10#6 i sa sd) = dec0A i sa sd := by
  have h : encSI 10#6 i sa sd ≠ 0xFFFF_FFFF#32 := by
    intro h
    have := congrArg (BitVec.extractLsb' 1 6) h
    rw [encSI_major] at this
    exact absurd this (by decide)
  unfold decodeWord
  rw [if_neg h, encSI_major]
  change dec0A (BitVec.extractLsb' 17 15 (encSI 10#6 i sa sd)) (BitVec.extractLsb' 12 5 (encSI 10#6 i sa sd)) (BitVec.extractLsb' 7 5 (encSI 10#6 i sa sd)) = _
  simp only [encSI_i, encSI_sa, encSI_sd]

theorem decodeWord_0B (z : BitVec 4) (fn : BitVec 6) (sb : BitVec 5) (sa : BitVec 5) (sd : BitVec 5) :
    decodeWord (encS 11#6 z fn sb sa sd) = dec0B z fn sb sa sd := by
  have h : encS 11#6 z fn sb sa sd ≠ 0xFFFF_FFFF#32 := by
    intro h
    have := congrArg (BitVec.extractLsb' 1 6) h
    rw [encS_major] at this
    exact absurd this (by decide)
  unfold decodeWord
  rw [if_neg h, encS_major]
  change dec0B (BitVec.extractLsb' 28 4 (encS 11#6 z fn sb sa sd)) (BitVec.extractLsb' 22 6 (encS 11#6 z fn sb sa sd)) (BitVec.extractLsb' 17 5 (encS 11#6 z fn sb sa sd)) (BitVec.extractLsb' 12 5 (encS 11#6 z fn sb sa sd)) (BitVec.extractLsb' 7 5 (encS 11#6 z fn sb sa sd)) = _
  simp only [encS_z, encS_fn, encS_sb, encS_sa, encS_sd]

theorem decodeWord_0C (fn : BitVec 4) (g : BitVec 3) (b : BitVec 6) (a : BitVec 6) (d : BitVec 6) :
    decodeWord (encV3 12#6 fn g b a d) = dec0C fn g b a d := by
  have h : encV3 12#6 fn g b a d ≠ 0xFFFF_FFFF#32 := by
    intro h
    have := congrArg (BitVec.extractLsb' 1 6) h
    rw [encV3_major] at this
    exact absurd this (by decide)
  unfold decodeWord
  rw [if_neg h, encV3_major]
  change dec0C (BitVec.extractLsb' 28 4 (encV3 12#6 fn g b a d)) (BitVec.extractLsb' 25 3 (encV3 12#6 fn g b a d)) (BitVec.extractLsb' 19 6 (encV3 12#6 fn g b a d)) (BitVec.extractLsb' 13 6 (encV3 12#6 fn g b a d)) (BitVec.extractLsb' 7 6 (encV3 12#6 fn g b a d)) = _
  simp only [encV3_fn, encV3_g, encV3_b, encV3_a, encV3_d]

theorem decodeWord_0D (fn : BitVec 4) (i : BitVec 9) (a : BitVec 6) (d : BitVec 6) :
    decodeWord (encVI 13#6 fn i a d) = dec0D fn i a d := by
  have h : encVI 13#6 fn i a d ≠ 0xFFFF_FFFF#32 := by
    intro h
    have := congrArg (BitVec.extractLsb' 1 6) h
    rw [encVI_major] at this
    exact absurd this (by decide)
  unfold decodeWord
  rw [if_neg h, encVI_major]
  change dec0D (BitVec.extractLsb' 28 4 (encVI 13#6 fn i a d)) (BitVec.extractLsb' 19 9 (encVI 13#6 fn i a d)) (BitVec.extractLsb' 13 6 (encVI 13#6 fn i a d)) (BitVec.extractLsb' 7 6 (encVI 13#6 fn i a d)) = _
  simp only [encVI_fn, encVI_i, encVI_a, encVI_d]

theorem decodeWord_10 (o : BitVec 20) (cond : BitVec 2) (p : BitVec 3) :
    decodeWord (encB 16#6 o cond p) = dec10 o cond p := by
  have h : encB 16#6 o cond p ≠ 0xFFFF_FFFF#32 := by
    intro h
    have := congrArg (BitVec.extractLsb' 1 6) h
    rw [encB_major] at this
    exact absurd this (by decide)
  unfold decodeWord
  rw [if_neg h, encB_major]
  change dec10 (BitVec.extractLsb' 12 20 (encB 16#6 o cond p)) (BitVec.extractLsb' 10 2 (encB 16#6 o cond p)) (BitVec.extractLsb' 7 3 (encB 16#6 o cond p)) = _
  simp only [encB_o, encB_cond, encB_p]

theorem decodeWord_11 (o : BitVec 20) (sd : BitVec 5) :
    decodeWord (encJ 17#6 o sd) = dec11 o sd := by
  have h : encJ 17#6 o sd ≠ 0xFFFF_FFFF#32 := by
    intro h
    have := congrArg (BitVec.extractLsb' 1 6) h
    rw [encJ_major] at this
    exact absurd this (by decide)
  unfold decodeWord
  rw [if_neg h, encJ_major]
  change dec11 (BitVec.extractLsb' 12 20 (encJ 17#6 o sd)) (BitVec.extractLsb' 7 5 (encJ 17#6 o sd)) = _
  simp only [encJ_o, encJ_sd]

theorem decodeWord_12 (z : BitVec 4) (fn : BitVec 6) (sb : BitVec 5) (sa : BitVec 5) (sd : BitVec 5) :
    decodeWord (encS 18#6 z fn sb sa sd) = dec12 z fn sb sa sd := by
  have h : encS 18#6 z fn sb sa sd ≠ 0xFFFF_FFFF#32 := by
    intro h
    have := congrArg (BitVec.extractLsb' 1 6) h
    rw [encS_major] at this
    exact absurd this (by decide)
  unfold decodeWord
  rw [if_neg h, encS_major]
  change dec12 (BitVec.extractLsb' 28 4 (encS 18#6 z fn sb sa sd)) (BitVec.extractLsb' 22 6 (encS 18#6 z fn sb sa sd)) (BitVec.extractLsb' 17 5 (encS 18#6 z fn sb sa sd)) (BitVec.extractLsb' 12 5 (encS 18#6 z fn sb sa sd)) (BitVec.extractLsb' 7 5 (encS 18#6 z fn sb sa sd)) = _
  simp only [encS_z, encS_fn, encS_sb, encS_sa, encS_sd]

theorem decodeWord_13 (e : BitVec 17) (im : BitVec 1) (c : BitVec 5) (l : BitVec 2) :
    decodeWord (encL 19#6 e im c l) = dec13 e im c l := by
  have h : encL 19#6 e im c l ≠ 0xFFFF_FFFF#32 := by
    intro h
    have := congrArg (BitVec.extractLsb' 1 6) h
    rw [encL_major] at this
    exact absurd this (by decide)
  unfold decodeWord
  rw [if_neg h, encL_major]
  change dec13 (BitVec.extractLsb' 15 17 (encL 19#6 e im c l)) (BitVec.extractLsb' 14 1 (encL 19#6 e im c l)) (BitVec.extractLsb' 9 5 (encL 19#6 e im c l)) (BitVec.extractLsb' 7 2 (encL 19#6 e im c l)) = _
  simp only [encL_e, encL_im, encL_c, encL_l]

theorem decodeWord_14 (e : BitVec 17) (im : BitVec 1) (c : BitVec 5) (l : BitVec 2) :
    decodeWord (encL 20#6 e im c l) = dec14 e im c l := by
  have h : encL 20#6 e im c l ≠ 0xFFFF_FFFF#32 := by
    intro h
    have := congrArg (BitVec.extractLsb' 1 6) h
    rw [encL_major] at this
    exact absurd this (by decide)
  unfold decodeWord
  rw [if_neg h, encL_major]
  change dec14 (BitVec.extractLsb' 15 17 (encL 20#6 e im c l)) (BitVec.extractLsb' 14 1 (encL 20#6 e im c l)) (BitVec.extractLsb' 9 5 (encL 20#6 e im c l)) (BitVec.extractLsb' 7 2 (encL 20#6 e im c l)) = _
  simp only [encL_e, encL_im, encL_c, encL_l]

theorem decodeWord_15 (z : BitVec 7) (t : BitVec 4) (c : BitVec 4) (s : BitVec 5) (l : BitVec 5) :
    decodeWord (encW 21#6 z t c s l) = dec15 z t c s l := by
  have h : encW 21#6 z t c s l ≠ 0xFFFF_FFFF#32 := by
    intro h
    have := congrArg (BitVec.extractLsb' 1 6) h
    rw [encW_major] at this
    exact absurd this (by decide)
  unfold decodeWord
  rw [if_neg h, encW_major]
  change dec15 (BitVec.extractLsb' 25 7 (encW 21#6 z t c s l)) (BitVec.extractLsb' 21 4 (encW 21#6 z t c s l)) (BitVec.extractLsb' 17 4 (encW 21#6 z t c s l)) (BitVec.extractLsb' 12 5 (encW 21#6 z t c s l)) (BitVec.extractLsb' 7 5 (encW 21#6 z t c s l)) = _
  simp only [encW_z, encW_t, encW_c, encW_s, encW_l]

theorem decodeWord_16 (i : BitVec 6) (s3 : BitVec 5) (s2 : BitVec 5) (s1 : BitVec 5) (fn : BitVec 4) :
    decodeWord (encE 22#6 i s3 s2 s1 fn) = dec16 i s3 s2 s1 fn := by
  have h : encE 22#6 i s3 s2 s1 fn ≠ 0xFFFF_FFFF#32 := by
    intro h
    have := congrArg (BitVec.extractLsb' 1 6) h
    rw [encE_major] at this
    exact absurd this (by decide)
  unfold decodeWord
  rw [if_neg h, encE_major]
  change dec16 (BitVec.extractLsb' 26 6 (encE 22#6 i s3 s2 s1 fn)) (BitVec.extractLsb' 21 5 (encE 22#6 i s3 s2 s1 fn)) (BitVec.extractLsb' 16 5 (encE 22#6 i s3 s2 s1 fn)) (BitVec.extractLsb' 11 5 (encE 22#6 i s3 s2 s1 fn)) (BitVec.extractLsb' 7 4 (encE 22#6 i s3 s2 s1 fn)) = _
  simp only [encE_i, encE_s3, encE_s2, encE_s1, encE_fn]

theorem decodeWord_17 (i : BitVec 6) (s3 : BitVec 5) (s2 : BitVec 5) (s1 : BitVec 5) (fn : BitVec 4) :
    decodeWord (encE 23#6 i s3 s2 s1 fn) = dec17 i s3 s2 s1 fn := by
  have h : encE 23#6 i s3 s2 s1 fn ≠ 0xFFFF_FFFF#32 := by
    intro h
    have := congrArg (BitVec.extractLsb' 1 6) h
    rw [encE_major] at this
    exact absurd this (by decide)
  unfold decodeWord
  rw [if_neg h, encE_major]
  change dec17 (BitVec.extractLsb' 26 6 (encE 23#6 i s3 s2 s1 fn)) (BitVec.extractLsb' 21 5 (encE 23#6 i s3 s2 s1 fn)) (BitVec.extractLsb' 16 5 (encE 23#6 i s3 s2 s1 fn)) (BitVec.extractLsb' 11 5 (encE 23#6 i s3 s2 s1 fn)) (BitVec.extractLsb' 7 4 (encE 23#6 i s3 s2 s1 fn)) = _
  simp only [encE_i, encE_s3, encE_s2, encE_s1, encE_fn]

theorem decodeWord_18 (fn : BitVec 4) (i : BitVec 5) (v : BitVec 6) (a : BitVec 4) (d : BitVec 6) :
    decodeWord (encM 24#6 fn i v a d) = dec18 fn i v a d := by
  have h : encM 24#6 fn i v a d ≠ 0xFFFF_FFFF#32 := by
    intro h
    have := congrArg (BitVec.extractLsb' 1 6) h
    rw [encM_major] at this
    exact absurd this (by decide)
  unfold decodeWord
  rw [if_neg h, encM_major]
  change dec18 (BitVec.extractLsb' 28 4 (encM 24#6 fn i v a d)) (BitVec.extractLsb' 23 5 (encM 24#6 fn i v a d)) (BitVec.extractLsb' 17 6 (encM 24#6 fn i v a d)) (BitVec.extractLsb' 13 4 (encM 24#6 fn i v a d)) (BitVec.extractLsb' 7 6 (encM 24#6 fn i v a d)) = _
  simp only [encM_fn, encM_i, encM_v, encM_a, encM_d]

theorem decodeWord_19 (fn : BitVec 4) (i : BitVec 5) (v : BitVec 6) (a : BitVec 4) (d : BitVec 6) :
    decodeWord (encM 25#6 fn i v a d) = dec19 fn i v a d := by
  have h : encM 25#6 fn i v a d ≠ 0xFFFF_FFFF#32 := by
    intro h
    have := congrArg (BitVec.extractLsb' 1 6) h
    rw [encM_major] at this
    exact absurd this (by decide)
  unfold decodeWord
  rw [if_neg h, encM_major]
  change dec19 (BitVec.extractLsb' 28 4 (encM 25#6 fn i v a d)) (BitVec.extractLsb' 23 5 (encM 25#6 fn i v a d)) (BitVec.extractLsb' 17 6 (encM 25#6 fn i v a d)) (BitVec.extractLsb' 13 4 (encM 25#6 fn i v a d)) (BitVec.extractLsb' 7 6 (encM 25#6 fn i v a d)) = _
  simp only [encM_fn, encM_i, encM_v, encM_a, encM_d]

theorem decodeWord_1A (fn : BitVec 4) (i : BitVec 5) (v : BitVec 6) (a : BitVec 4) (d : BitVec 6) :
    decodeWord (encM 26#6 fn i v a d) = dec1A fn i v a d := by
  have h : encM 26#6 fn i v a d ≠ 0xFFFF_FFFF#32 := by
    intro h
    have := congrArg (BitVec.extractLsb' 1 6) h
    rw [encM_major] at this
    exact absurd this (by decide)
  unfold decodeWord
  rw [if_neg h, encM_major]
  change dec1A (BitVec.extractLsb' 28 4 (encM 26#6 fn i v a d)) (BitVec.extractLsb' 23 5 (encM 26#6 fn i v a d)) (BitVec.extractLsb' 17 6 (encM 26#6 fn i v a d)) (BitVec.extractLsb' 13 4 (encM 26#6 fn i v a d)) (BitVec.extractLsb' 7 6 (encM 26#6 fn i v a d)) = _
  simp only [encM_fn, encM_i, encM_v, encM_a, encM_d]

theorem decodeWord_1B (fn : BitVec 4) (i : BitVec 5) (v : BitVec 6) (a : BitVec 4) (d : BitVec 6) :
    decodeWord (encM 27#6 fn i v a d) = dec1B fn i v a d := by
  have h : encM 27#6 fn i v a d ≠ 0xFFFF_FFFF#32 := by
    intro h
    have := congrArg (BitVec.extractLsb' 1 6) h
    rw [encM_major] at this
    exact absurd this (by decide)
  unfold decodeWord
  rw [if_neg h, encM_major]
  change dec1B (BitVec.extractLsb' 28 4 (encM 27#6 fn i v a d)) (BitVec.extractLsb' 23 5 (encM 27#6 fn i v a d)) (BitVec.extractLsb' 17 6 (encM 27#6 fn i v a d)) (BitVec.extractLsb' 13 4 (encM 27#6 fn i v a d)) (BitVec.extractLsb' 7 6 (encM 27#6 fn i v a d)) = _
  simp only [encM_fn, encM_i, encM_v, encM_a, encM_d]

theorem decodeWord_1C (fn : BitVec 4) (i : BitVec 5) (v : BitVec 6) (a : BitVec 4) (d : BitVec 6) :
    decodeWord (encM 28#6 fn i v a d) = dec1C fn i v a d := by
  have h : encM 28#6 fn i v a d ≠ 0xFFFF_FFFF#32 := by
    intro h
    have := congrArg (BitVec.extractLsb' 1 6) h
    rw [encM_major] at this
    exact absurd this (by decide)
  unfold decodeWord
  rw [if_neg h, encM_major]
  change dec1C (BitVec.extractLsb' 28 4 (encM 28#6 fn i v a d)) (BitVec.extractLsb' 23 5 (encM 28#6 fn i v a d)) (BitVec.extractLsb' 17 6 (encM 28#6 fn i v a d)) (BitVec.extractLsb' 13 4 (encM 28#6 fn i v a d)) (BitVec.extractLsb' 7 6 (encM 28#6 fn i v a d)) = _
  simp only [encM_fn, encM_i, encM_v, encM_a, encM_d]

theorem decodeWord_1D (fn : BitVec 4) (i : BitVec 5) (v : BitVec 6) (a : BitVec 4) (d : BitVec 6) :
    decodeWord (encM 29#6 fn i v a d) = dec1D fn i v a d := by
  have h : encM 29#6 fn i v a d ≠ 0xFFFF_FFFF#32 := by
    intro h
    have := congrArg (BitVec.extractLsb' 1 6) h
    rw [encM_major] at this
    exact absurd this (by decide)
  unfold decodeWord
  rw [if_neg h, encM_major]
  change dec1D (BitVec.extractLsb' 28 4 (encM 29#6 fn i v a d)) (BitVec.extractLsb' 23 5 (encM 29#6 fn i v a d)) (BitVec.extractLsb' 17 6 (encM 29#6 fn i v a d)) (BitVec.extractLsb' 13 4 (encM 29#6 fn i v a d)) (BitVec.extractLsb' 7 6 (encM 29#6 fn i v a d)) = _
  simp only [encM_fn, encM_i, encM_v, encM_a, encM_d]

theorem decodeWord_20 (i : BitVec 6) (s3 : BitVec 5) (s2 : BitVec 5) (s1 : BitVec 5) (fn : BitVec 4) :
    decodeWord (encE 32#6 i s3 s2 s1 fn) = dec20 i s3 s2 s1 fn := by
  have h : encE 32#6 i s3 s2 s1 fn ≠ 0xFFFF_FFFF#32 := by
    intro h
    have := congrArg (BitVec.extractLsb' 1 6) h
    rw [encE_major] at this
    exact absurd this (by decide)
  unfold decodeWord
  rw [if_neg h, encE_major]
  change dec20 (BitVec.extractLsb' 26 6 (encE 32#6 i s3 s2 s1 fn)) (BitVec.extractLsb' 21 5 (encE 32#6 i s3 s2 s1 fn)) (BitVec.extractLsb' 16 5 (encE 32#6 i s3 s2 s1 fn)) (BitVec.extractLsb' 11 5 (encE 32#6 i s3 s2 s1 fn)) (BitVec.extractLsb' 7 4 (encE 32#6 i s3 s2 s1 fn)) = _
  simp only [encE_i, encE_s3, encE_s2, encE_s1, encE_fn]

theorem decodeWord_21 (i : BitVec 6) (s3 : BitVec 5) (s2 : BitVec 5) (s1 : BitVec 5) (fn : BitVec 4) :
    decodeWord (encE 33#6 i s3 s2 s1 fn) = dec21 i s3 s2 s1 fn := by
  have h : encE 33#6 i s3 s2 s1 fn ≠ 0xFFFF_FFFF#32 := by
    intro h
    have := congrArg (BitVec.extractLsb' 1 6) h
    rw [encE_major] at this
    exact absurd this (by decide)
  unfold decodeWord
  rw [if_neg h, encE_major]
  change dec21 (BitVec.extractLsb' 26 6 (encE 33#6 i s3 s2 s1 fn)) (BitVec.extractLsb' 21 5 (encE 33#6 i s3 s2 s1 fn)) (BitVec.extractLsb' 16 5 (encE 33#6 i s3 s2 s1 fn)) (BitVec.extractLsb' 11 5 (encE 33#6 i s3 s2 s1 fn)) (BitVec.extractLsb' 7 4 (encE 33#6 i s3 s2 s1 fn)) = _
  simp only [encE_i, encE_s3, encE_s2, encE_s1, encE_fn]

theorem decodeWord_22 (i : BitVec 6) (s3 : BitVec 5) (s2 : BitVec 5) (s1 : BitVec 5) (fn : BitVec 4) :
    decodeWord (encE 34#6 i s3 s2 s1 fn) = dec22 i s3 s2 s1 fn := by
  have h : encE 34#6 i s3 s2 s1 fn ≠ 0xFFFF_FFFF#32 := by
    intro h
    have := congrArg (BitVec.extractLsb' 1 6) h
    rw [encE_major] at this
    exact absurd this (by decide)
  unfold decodeWord
  rw [if_neg h, encE_major]
  change dec22 (BitVec.extractLsb' 26 6 (encE 34#6 i s3 s2 s1 fn)) (BitVec.extractLsb' 21 5 (encE 34#6 i s3 s2 s1 fn)) (BitVec.extractLsb' 16 5 (encE 34#6 i s3 s2 s1 fn)) (BitVec.extractLsb' 11 5 (encE 34#6 i s3 s2 s1 fn)) (BitVec.extractLsb' 7 4 (encE 34#6 i s3 s2 s1 fn)) = _
  simp only [encE_i, encE_s3, encE_s2, encE_s1, encE_fn]

theorem decodeWord_23 (mode : BitVec 5) (g : BitVec 3) (z : BitVec 1) (n : BitVec 1) (m : BitVec 1) (b : BitVec 4) (a : BitVec 4) (acc : BitVec 6) :
    decodeWord (encT 35#6 mode g z n m b a acc) = dec23 mode g z n m b a acc := by
  have h : encT 35#6 mode g z n m b a acc ≠ 0xFFFF_FFFF#32 := by
    intro h
    have := congrArg (BitVec.extractLsb' 1 6) h
    rw [encT_major] at this
    exact absurd this (by decide)
  unfold decodeWord
  rw [if_neg h, encT_major]
  change dec23 (BitVec.extractLsb' 27 5 (encT 35#6 mode g z n m b a acc)) (BitVec.extractLsb' 24 3 (encT 35#6 mode g z n m b a acc)) (BitVec.extractLsb' 23 1 (encT 35#6 mode g z n m b a acc)) (BitVec.extractLsb' 22 1 (encT 35#6 mode g z n m b a acc)) (BitVec.extractLsb' 21 1 (encT 35#6 mode g z n m b a acc)) (BitVec.extractLsb' 17 4 (encT 35#6 mode g z n m b a acc)) (BitVec.extractLsb' 13 4 (encT 35#6 mode g z n m b a acc)) (BitVec.extractLsb' 7 6 (encT 35#6 mode g z n m b a acc)) = _
  simp only [encT_mode, encT_g, encT_z, encT_n, encT_m, encT_b, encT_a, encT_acc]

theorem decodeWord_24 (fn : BitVec 4) (i : BitVec 9) (a : BitVec 6) (d : BitVec 6) :
    decodeWord (encVI 36#6 fn i a d) = dec24 fn i a d := by
  have h : encVI 36#6 fn i a d ≠ 0xFFFF_FFFF#32 := by
    intro h
    have := congrArg (BitVec.extractLsb' 1 6) h
    rw [encVI_major] at this
    exact absurd this (by decide)
  unfold decodeWord
  rw [if_neg h, encVI_major]
  change dec24 (BitVec.extractLsb' 28 4 (encVI 36#6 fn i a d)) (BitVec.extractLsb' 19 9 (encVI 36#6 fn i a d)) (BitVec.extractLsb' 13 6 (encVI 36#6 fn i a d)) (BitVec.extractLsb' 7 6 (encVI 36#6 fn i a d)) = _
  simp only [encVI_fn, encVI_i, encVI_a, encVI_d]

theorem decodeWord_28 (i : BitVec 6) (s3 : BitVec 5) (s2 : BitVec 5) (s1 : BitVec 5) (fn : BitVec 4) :
    decodeWord (encE 40#6 i s3 s2 s1 fn) = dec28 i s3 s2 s1 fn := by
  have h : encE 40#6 i s3 s2 s1 fn ≠ 0xFFFF_FFFF#32 := by
    intro h
    have := congrArg (BitVec.extractLsb' 1 6) h
    rw [encE_major] at this
    exact absurd this (by decide)
  unfold decodeWord
  rw [if_neg h, encE_major]
  change dec28 (BitVec.extractLsb' 26 6 (encE 40#6 i s3 s2 s1 fn)) (BitVec.extractLsb' 21 5 (encE 40#6 i s3 s2 s1 fn)) (BitVec.extractLsb' 16 5 (encE 40#6 i s3 s2 s1 fn)) (BitVec.extractLsb' 11 5 (encE 40#6 i s3 s2 s1 fn)) (BitVec.extractLsb' 7 4 (encE 40#6 i s3 s2 s1 fn)) = _
  simp only [encE_i, encE_s3, encE_s2, encE_s1, encE_fn]

theorem decodeWord_29 (i : BitVec 6) (s3 : BitVec 5) (s2 : BitVec 5) (s1 : BitVec 5) (fn : BitVec 4) :
    decodeWord (encE 41#6 i s3 s2 s1 fn) = dec29 i s3 s2 s1 fn := by
  have h : encE 41#6 i s3 s2 s1 fn ≠ 0xFFFF_FFFF#32 := by
    intro h
    have := congrArg (BitVec.extractLsb' 1 6) h
    rw [encE_major] at this
    exact absurd this (by decide)
  unfold decodeWord
  rw [if_neg h, encE_major]
  change dec29 (BitVec.extractLsb' 26 6 (encE 41#6 i s3 s2 s1 fn)) (BitVec.extractLsb' 21 5 (encE 41#6 i s3 s2 s1 fn)) (BitVec.extractLsb' 16 5 (encE 41#6 i s3 s2 s1 fn)) (BitVec.extractLsb' 11 5 (encE 41#6 i s3 s2 s1 fn)) (BitVec.extractLsb' 7 4 (encE 41#6 i s3 s2 s1 fn)) = _
  simp only [encE_i, encE_s3, encE_s2, encE_s1, encE_fn]

theorem decodeWord_2A (i : BitVec 6) (s3 : BitVec 5) (s2 : BitVec 5) (s1 : BitVec 5) (fn : BitVec 4) :
    decodeWord (encE 42#6 i s3 s2 s1 fn) = dec2A i s3 s2 s1 fn := by
  have h : encE 42#6 i s3 s2 s1 fn ≠ 0xFFFF_FFFF#32 := by
    intro h
    have := congrArg (BitVec.extractLsb' 1 6) h
    rw [encE_major] at this
    exact absurd this (by decide)
  unfold decodeWord
  rw [if_neg h, encE_major]
  change dec2A (BitVec.extractLsb' 26 6 (encE 42#6 i s3 s2 s1 fn)) (BitVec.extractLsb' 21 5 (encE 42#6 i s3 s2 s1 fn)) (BitVec.extractLsb' 16 5 (encE 42#6 i s3 s2 s1 fn)) (BitVec.extractLsb' 11 5 (encE 42#6 i s3 s2 s1 fn)) (BitVec.extractLsb' 7 4 (encE 42#6 i s3 s2 s1 fn)) = _
  simp only [encE_i, encE_s3, encE_s2, encE_s1, encE_fn]

theorem decodeWord_2B (i : BitVec 6) (s3 : BitVec 5) (s2 : BitVec 5) (s1 : BitVec 5) (fn : BitVec 4) :
    decodeWord (encE 43#6 i s3 s2 s1 fn) = dec2B i s3 s2 s1 fn := by
  have h : encE 43#6 i s3 s2 s1 fn ≠ 0xFFFF_FFFF#32 := by
    intro h
    have := congrArg (BitVec.extractLsb' 1 6) h
    rw [encE_major] at this
    exact absurd this (by decide)
  unfold decodeWord
  rw [if_neg h, encE_major]
  change dec2B (BitVec.extractLsb' 26 6 (encE 43#6 i s3 s2 s1 fn)) (BitVec.extractLsb' 21 5 (encE 43#6 i s3 s2 s1 fn)) (BitVec.extractLsb' 16 5 (encE 43#6 i s3 s2 s1 fn)) (BitVec.extractLsb' 11 5 (encE 43#6 i s3 s2 s1 fn)) (BitVec.extractLsb' 7 4 (encE 43#6 i s3 s2 s1 fn)) = _
  simp only [encE_i, encE_s3, encE_s2, encE_s1, encE_fn]

theorem decodeWord_2C (i : BitVec 6) (s3 : BitVec 5) (s2 : BitVec 5) (s1 : BitVec 5) (fn : BitVec 4) :
    decodeWord (encE 44#6 i s3 s2 s1 fn) = dec2C i s3 s2 s1 fn := by
  have h : encE 44#6 i s3 s2 s1 fn ≠ 0xFFFF_FFFF#32 := by
    intro h
    have := congrArg (BitVec.extractLsb' 1 6) h
    rw [encE_major] at this
    exact absurd this (by decide)
  unfold decodeWord
  rw [if_neg h, encE_major]
  change dec2C (BitVec.extractLsb' 26 6 (encE 44#6 i s3 s2 s1 fn)) (BitVec.extractLsb' 21 5 (encE 44#6 i s3 s2 s1 fn)) (BitVec.extractLsb' 16 5 (encE 44#6 i s3 s2 s1 fn)) (BitVec.extractLsb' 11 5 (encE 44#6 i s3 s2 s1 fn)) (BitVec.extractLsb' 7 4 (encE 44#6 i s3 s2 s1 fn)) = _
  simp only [encE_i, encE_s3, encE_s2, encE_s1, encE_fn]

theorem decodeWord_2D (i : BitVec 6) (s3 : BitVec 5) (s2 : BitVec 5) (s1 : BitVec 5) (fn : BitVec 4) :
    decodeWord (encE 45#6 i s3 s2 s1 fn) = dec2D i s3 s2 s1 fn := by
  have h : encE 45#6 i s3 s2 s1 fn ≠ 0xFFFF_FFFF#32 := by
    intro h
    have := congrArg (BitVec.extractLsb' 1 6) h
    rw [encE_major] at this
    exact absurd this (by decide)
  unfold decodeWord
  rw [if_neg h, encE_major]
  change dec2D (BitVec.extractLsb' 26 6 (encE 45#6 i s3 s2 s1 fn)) (BitVec.extractLsb' 21 5 (encE 45#6 i s3 s2 s1 fn)) (BitVec.extractLsb' 16 5 (encE 45#6 i s3 s2 s1 fn)) (BitVec.extractLsb' 11 5 (encE 45#6 i s3 s2 s1 fn)) (BitVec.extractLsb' 7 4 (encE 45#6 i s3 s2 s1 fn)) = _
  simp only [encE_i, encE_s3, encE_s2, encE_s1, encE_fn]

theorem decodeWord_2E (i : BitVec 6) (s3 : BitVec 5) (s2 : BitVec 5) (s1 : BitVec 5) (fn : BitVec 4) :
    decodeWord (encE 46#6 i s3 s2 s1 fn) = dec2E i s3 s2 s1 fn := by
  have h : encE 46#6 i s3 s2 s1 fn ≠ 0xFFFF_FFFF#32 := by
    intro h
    have := congrArg (BitVec.extractLsb' 1 6) h
    rw [encE_major] at this
    exact absurd this (by decide)
  unfold decodeWord
  rw [if_neg h, encE_major]
  change dec2E (BitVec.extractLsb' 26 6 (encE 46#6 i s3 s2 s1 fn)) (BitVec.extractLsb' 21 5 (encE 46#6 i s3 s2 s1 fn)) (BitVec.extractLsb' 16 5 (encE 46#6 i s3 s2 s1 fn)) (BitVec.extractLsb' 11 5 (encE 46#6 i s3 s2 s1 fn)) (BitVec.extractLsb' 7 4 (encE 46#6 i s3 s2 s1 fn)) = _
  simp only [encE_i, encE_s3, encE_s2, encE_s1, encE_fn]

theorem decodeWord_2F (i : BitVec 6) (s3 : BitVec 5) (s2 : BitVec 5) (s1 : BitVec 5) (fn : BitVec 4) :
    decodeWord (encE 47#6 i s3 s2 s1 fn) = dec2F i s3 s2 s1 fn := by
  have h : encE 47#6 i s3 s2 s1 fn ≠ 0xFFFF_FFFF#32 := by
    intro h
    have := congrArg (BitVec.extractLsb' 1 6) h
    rw [encE_major] at this
    exact absurd this (by decide)
  unfold decodeWord
  rw [if_neg h, encE_major]
  change dec2F (BitVec.extractLsb' 26 6 (encE 47#6 i s3 s2 s1 fn)) (BitVec.extractLsb' 21 5 (encE 47#6 i s3 s2 s1 fn)) (BitVec.extractLsb' 16 5 (encE 47#6 i s3 s2 s1 fn)) (BitVec.extractLsb' 11 5 (encE 47#6 i s3 s2 s1 fn)) (BitVec.extractLsb' 7 4 (encE 47#6 i s3 s2 s1 fn)) = _
  simp only [encE_i, encE_s3, encE_s2, encE_s1, encE_fn]

theorem decodeWord_30 (i : BitVec 6) (s3 : BitVec 5) (s2 : BitVec 5) (s1 : BitVec 5) (fn : BitVec 4) :
    decodeWord (encE 48#6 i s3 s2 s1 fn) = dec30 i s3 s2 s1 fn := by
  have h : encE 48#6 i s3 s2 s1 fn ≠ 0xFFFF_FFFF#32 := by
    intro h
    have := congrArg (BitVec.extractLsb' 1 6) h
    rw [encE_major] at this
    exact absurd this (by decide)
  unfold decodeWord
  rw [if_neg h, encE_major]
  change dec30 (BitVec.extractLsb' 26 6 (encE 48#6 i s3 s2 s1 fn)) (BitVec.extractLsb' 21 5 (encE 48#6 i s3 s2 s1 fn)) (BitVec.extractLsb' 16 5 (encE 48#6 i s3 s2 s1 fn)) (BitVec.extractLsb' 11 5 (encE 48#6 i s3 s2 s1 fn)) (BitVec.extractLsb' 7 4 (encE 48#6 i s3 s2 s1 fn)) = _
  simp only [encE_i, encE_s3, encE_s2, encE_s1, encE_fn]

theorem decodeWord_38 (i : BitVec 6) (s3 : BitVec 5) (s2 : BitVec 5) (s1 : BitVec 5) (fn : BitVec 4) :
    decodeWord (encE 56#6 i s3 s2 s1 fn) = dec38 i s3 s2 s1 fn := by
  have h : encE 56#6 i s3 s2 s1 fn ≠ 0xFFFF_FFFF#32 := by
    intro h
    have := congrArg (BitVec.extractLsb' 1 6) h
    rw [encE_major] at this
    exact absurd this (by decide)
  unfold decodeWord
  rw [if_neg h, encE_major]
  change dec38 (BitVec.extractLsb' 26 6 (encE 56#6 i s3 s2 s1 fn)) (BitVec.extractLsb' 21 5 (encE 56#6 i s3 s2 s1 fn)) (BitVec.extractLsb' 16 5 (encE 56#6 i s3 s2 s1 fn)) (BitVec.extractLsb' 11 5 (encE 56#6 i s3 s2 s1 fn)) (BitVec.extractLsb' 7 4 (encE 56#6 i s3 s2 s1 fn)) = _
  simp only [encE_i, encE_s3, encE_s2, encE_s1, encE_fn]

@[simp] theorem append_1_5_lo (x : BitVec 1) (y : BitVec 5) : BitVec.extractLsb' (n := 6) 0 5 (x ++ y) = y := by
  refine (BitVec.extractLsb'_append_eq_of_add_le (w := 5) (by decide)).trans ?_
  exact BitVec.extractLsb'_eq_self

@[simp] theorem append_1_5_hi (x : BitVec 1) (y : BitVec 5) : BitVec.extractLsb' (n := 6) 5 1 (x ++ y) = x := by
  refine (BitVec.extractLsb'_append_eq_of_le (w := 5) (by decide)).trans ?_
  exact BitVec.extractLsb'_eq_self

@[simp] theorem append_1_4_lo (x : BitVec 1) (y : BitVec 4) : BitVec.extractLsb' (n := 5) 0 4 (x ++ y) = y := by
  refine (BitVec.extractLsb'_append_eq_of_add_le (w := 4) (by decide)).trans ?_
  exact BitVec.extractLsb'_eq_self

@[simp] theorem append_1_4_hi (x : BitVec 1) (y : BitVec 4) : BitVec.extractLsb' (n := 5) 4 1 (x ++ y) = x := by
  refine (BitVec.extractLsb'_append_eq_of_le (w := 4) (by decide)).trans ?_
  exact BitVec.extractLsb'_eq_self

@[simp] theorem append_2_4_lo (x : BitVec 2) (y : BitVec 4) : BitVec.extractLsb' (n := 6) 0 4 (x ++ y) = y := by
  refine (BitVec.extractLsb'_append_eq_of_add_le (w := 4) (by decide)).trans ?_
  exact BitVec.extractLsb'_eq_self

@[simp] theorem append_2_4_hi (x : BitVec 2) (y : BitVec 4) : BitVec.extractLsb' (n := 6) 4 2 (x ++ y) = x := by
  refine (BitVec.extractLsb'_append_eq_of_le (w := 4) (by decide)).trans ?_
  exact BitVec.extractLsb'_eq_self

@[simp] theorem append_3_3_lo (x : BitVec 3) (y : BitVec 3) : BitVec.extractLsb' (n := 6) 0 3 (x ++ y) = y := by
  refine (BitVec.extractLsb'_append_eq_of_add_le (w := 3) (by decide)).trans ?_
  exact BitVec.extractLsb'_eq_self

@[simp] theorem append_3_3_hi (x : BitVec 3) (y : BitVec 3) : BitVec.extractLsb' (n := 6) 3 3 (x ++ y) = x := by
  refine (BitVec.extractLsb'_append_eq_of_le (w := 3) (by decide)).trans ?_
  exact BitVec.extractLsb'_eq_self

@[simp] theorem append_2_3_lo (x : BitVec 2) (y : BitVec 3) : BitVec.extractLsb' (n := 5) 0 3 (x ++ y) = y := by
  refine (BitVec.extractLsb'_append_eq_of_add_le (w := 3) (by decide)).trans ?_
  exact BitVec.extractLsb'_eq_self

@[simp] theorem append_2_3_hi (x : BitVec 2) (y : BitVec 3) : BitVec.extractLsb' (n := 5) 3 2 (x ++ y) = x := by
  refine (BitVec.extractLsb'_append_eq_of_le (w := 3) (by decide)).trans ?_
  exact BitVec.extractLsb'_eq_self

@[simp] theorem append_4_2_lo (x : BitVec 4) (y : BitVec 2) : BitVec.extractLsb' (n := 6) 0 2 (x ++ y) = y := by
  refine (BitVec.extractLsb'_append_eq_of_add_le (w := 2) (by decide)).trans ?_
  exact BitVec.extractLsb'_eq_self

@[simp] theorem append_4_2_hi (x : BitVec 4) (y : BitVec 2) : BitVec.extractLsb' (n := 6) 2 4 (x ++ y) = x := by
  refine (BitVec.extractLsb'_append_eq_of_le (w := 2) (by decide)).trans ?_
  exact BitVec.extractLsb'_eq_self

@[simp] theorem append_3_2_lo (x : BitVec 3) (y : BitVec 2) : BitVec.extractLsb' (n := 5) 0 2 (x ++ y) = y := by
  refine (BitVec.extractLsb'_append_eq_of_add_le (w := 2) (by decide)).trans ?_
  exact BitVec.extractLsb'_eq_self

@[simp] theorem append_3_2_hi (x : BitVec 3) (y : BitVec 2) : BitVec.extractLsb' (n := 5) 2 3 (x ++ y) = x := by
  refine (BitVec.extractLsb'_append_eq_of_le (w := 2) (by decide)).trans ?_
  exact BitVec.extractLsb'_eq_self

@[simp] theorem append_5_1_lo (x : BitVec 5) (y : BitVec 1) : BitVec.extractLsb' (n := 6) 0 1 (x ++ y) = y := by
  refine (BitVec.extractLsb'_append_eq_of_add_le (w := 1) (by decide)).trans ?_
  exact BitVec.extractLsb'_eq_self

@[simp] theorem append_5_1_hi (x : BitVec 5) (y : BitVec 1) : BitVec.extractLsb' (n := 6) 1 5 (x ++ y) = x := by
  refine (BitVec.extractLsb'_append_eq_of_le (w := 1) (by decide)).trans ?_
  exact BitVec.extractLsb'_eq_self

@[simp] theorem append_4_1_lo (x : BitVec 4) (y : BitVec 1) : BitVec.extractLsb' (n := 5) 0 1 (x ++ y) = y := by
  refine (BitVec.extractLsb'_append_eq_of_add_le (w := 1) (by decide)).trans ?_
  exact BitVec.extractLsb'_eq_self

@[simp] theorem append_4_1_hi (x : BitVec 4) (y : BitVec 1) : BitVec.extractLsb' (n := 5) 1 4 (x ++ y) = x := by
  refine (BitVec.extractLsb'_append_eq_of_le (w := 1) (by decide)).trans ?_
  exact BitVec.extractLsb'_eq_self

@[simp] theorem append_5_4_lo (x : BitVec 5) (y : BitVec 4) : BitVec.extractLsb' (n := 9) 0 4 (x ++ y) = y := by
  refine (BitVec.extractLsb'_append_eq_of_add_le (w := 4) (by decide)).trans ?_
  exact BitVec.extractLsb'_eq_self

@[simp] theorem append_5_4_hi (x : BitVec 5) (y : BitVec 4) : BitVec.extractLsb' (n := 9) 4 5 (x ++ y) = x := by
  refine (BitVec.extractLsb'_append_eq_of_le (w := 4) (by decide)).trans ?_
  exact BitVec.extractLsb'_eq_self

@[simp] theorem append_3_6_lo (x : BitVec 3) (y : BitVec 6) : BitVec.extractLsb' (n := 9) 0 6 (x ++ y) = y := by
  refine (BitVec.extractLsb'_append_eq_of_add_le (w := 6) (by decide)).trans ?_
  exact BitVec.extractLsb'_eq_self

@[simp] theorem append_3_6_hi (x : BitVec 3) (y : BitVec 6) : BitVec.extractLsb' (n := 9) 6 3 (x ++ y) = x := by
  refine (BitVec.extractLsb'_append_eq_of_le (w := 6) (by decide)).trans ?_
  exact BitVec.extractLsb'_eq_self

@[simp] theorem append_5_1_3_lo (x : BitVec 5) (y : BitVec 1) (z : BitVec 3) : BitVec.extractLsb' (n := 9) 0 3 (x ++ y ++ z) = z := by
  refine (BitVec.extractLsb'_append_eq_of_add_le (w := 3) (by decide)).trans ?_
  exact BitVec.extractLsb'_eq_self

@[simp] theorem append_5_1_3_mid (x : BitVec 5) (y : BitVec 1) (z : BitVec 3) : BitVec.extractLsb' (n := 9) 3 1 (x ++ y ++ z) = y := by
  refine (BitVec.extractLsb'_append_eq_of_le (w := 3) (by decide)).trans ?_
  refine (BitVec.extractLsb'_append_eq_of_add_le (w := 1) (by decide)).trans ?_
  exact BitVec.extractLsb'_eq_self

@[simp] theorem append_5_1_3_hi (x : BitVec 5) (y : BitVec 1) (z : BitVec 3) : BitVec.extractLsb' (n := 9) 4 5 (x ++ y ++ z) = x := by
  refine (BitVec.extractLsb'_append_eq_of_le (w := 3) (by decide)).trans ?_
  refine (BitVec.extractLsb'_append_eq_of_le (w := 1) (by decide)).trans ?_
  exact BitVec.extractLsb'_eq_self


@[simp] theorem append_4_2_3_lo (x : BitVec 4) (y : BitVec 2) (z : BitVec 3) : BitVec.extractLsb' (n := 9) 0 3 (x ++ y ++ z) = z := by
  refine (BitVec.extractLsb'_append_eq_of_add_le (w := 3) (by decide)).trans ?_
  exact BitVec.extractLsb'_eq_self

@[simp] theorem append_4_2_3_mid (x : BitVec 4) (y : BitVec 2) (z : BitVec 3) : BitVec.extractLsb' (n := 9) 3 2 (x ++ y ++ z) = y := by
  refine (BitVec.extractLsb'_append_eq_of_le (w := 3) (by decide)).trans ?_
  refine (BitVec.extractLsb'_append_eq_of_add_le (w := 2) (by decide)).trans ?_
  exact BitVec.extractLsb'_eq_self

@[simp] theorem append_4_2_3_hi (x : BitVec 4) (y : BitVec 2) (z : BitVec 3) : BitVec.extractLsb' (n := 9) 5 4 (x ++ y ++ z) = x := by
  refine (BitVec.extractLsb'_append_eq_of_le (w := 3) (by decide)).trans ?_
  refine (BitVec.extractLsb'_append_eq_of_le (w := 2) (by decide)).trans ?_
  exact BitVec.extractLsb'_eq_self


@[simp] theorem append_3_3_3_lo (x : BitVec 3) (y : BitVec 3) (z : BitVec 3) : BitVec.extractLsb' (n := 9) 0 3 (x ++ y ++ z) = z := by
  refine (BitVec.extractLsb'_append_eq_of_add_le (w := 3) (by decide)).trans ?_
  exact BitVec.extractLsb'_eq_self

@[simp] theorem append_3_3_3_mid (x : BitVec 3) (y : BitVec 3) (z : BitVec 3) : BitVec.extractLsb' (n := 9) 3 3 (x ++ y ++ z) = y := by
  refine (BitVec.extractLsb'_append_eq_of_le (w := 3) (by decide)).trans ?_
  refine (BitVec.extractLsb'_append_eq_of_add_le (w := 3) (by decide)).trans ?_
  exact BitVec.extractLsb'_eq_self

@[simp] theorem append_3_3_3_hi (x : BitVec 3) (y : BitVec 3) (z : BitVec 3) : BitVec.extractLsb' (n := 9) 6 3 (x ++ y ++ z) = x := by
  refine (BitVec.extractLsb'_append_eq_of_le (w := 3) (by decide)).trans ?_
  refine (BitVec.extractLsb'_append_eq_of_le (w := 3) (by decide)).trans ?_
  exact BitVec.extractLsb'_eq_self


end Sys2Proof
end

