-- ==== Sys2Proof/Laws/PerInstr.lean ====
section
/-!
SUPPORT. The family RoundTrip: what the decoder reads from the encoding of a well-formed instruction is that instruction, one lemma for each
constructor. An event has no encoding.
-/
namespace Sys2Proof.Laws

/-- Decoding the encoding of a well-formed instruction gives it back, with every operand at every value that the encoding admits. -/
def RoundTrip.Statement (i : Instr) : Prop := i.wf = true → ∀ e, encode i = some e → decodeEnc e = .ok i

theorem RoundTrip.check_of_wf {i : Instr} (h : i.wf = true) : i.check = none := by simpa [Instr.wf] using h

theorem RoundTrip.vadd (d : BitVec 6) (a : BitVec 6) (b : BitVec 6) (g : BitVec 3) : RoundTrip.Statement (.vadd d a b g) := by
  rintro hw e ⟨⟩
  have hc := RoundTrip.check_of_wf hw
  simp only [decodeEnc, decodeWord_01]
  simp [dec01, chk, hc]

theorem RoundTrip.vsub (d : BitVec 6) (a : BitVec 6) (b : BitVec 6) (g : BitVec 3) : RoundTrip.Statement (.vsub d a b g) := by
  rintro hw e ⟨⟩
  have hc := RoundTrip.check_of_wf hw
  simp only [decodeEnc, decodeWord_01]
  simp [dec01, chk, hc]

theorem RoundTrip.vmul (d : BitVec 6) (a : BitVec 6) (b : BitVec 6) (g : BitVec 3) : RoundTrip.Statement (.vmul d a b g) := by
  rintro hw e ⟨⟩
  have hc := RoundTrip.check_of_wf hw
  simp only [decodeEnc, decodeWord_01]
  simp [dec01, chk, hc]

theorem RoundTrip.vmulhS (d : BitVec 6) (a : BitVec 6) (b : BitVec 6) (g : BitVec 3) : RoundTrip.Statement (.vmulhS d a b g) := by
  rintro hw e ⟨⟩
  have hc := RoundTrip.check_of_wf hw
  simp only [decodeEnc, decodeWord_01]
  simp [dec01, chk, hc]

theorem RoundTrip.vmulhZ (d : BitVec 6) (a : BitVec 6) (b : BitVec 6) (g : BitVec 3) : RoundTrip.Statement (.vmulhZ d a b g) := by
  rintro hw e ⟨⟩
  have hc := RoundTrip.check_of_wf hw
  simp only [decodeEnc, decodeWord_01]
  simp [dec01, chk, hc]

theorem RoundTrip.vminS (d : BitVec 6) (a : BitVec 6) (b : BitVec 6) (g : BitVec 3) : RoundTrip.Statement (.vminS d a b g) := by
  rintro hw e ⟨⟩
  have hc := RoundTrip.check_of_wf hw
  simp only [decodeEnc, decodeWord_01]
  simp [dec01, chk, hc]

theorem RoundTrip.vmaxS (d : BitVec 6) (a : BitVec 6) (b : BitVec 6) (g : BitVec 3) : RoundTrip.Statement (.vmaxS d a b g) := by
  rintro hw e ⟨⟩
  have hc := RoundTrip.check_of_wf hw
  simp only [decodeEnc, decodeWord_01]
  simp [dec01, chk, hc]

theorem RoundTrip.vminZ (d : BitVec 6) (a : BitVec 6) (b : BitVec 6) (g : BitVec 3) : RoundTrip.Statement (.vminZ d a b g) := by
  rintro hw e ⟨⟩
  have hc := RoundTrip.check_of_wf hw
  simp only [decodeEnc, decodeWord_01]
  simp [dec01, chk, hc]

theorem RoundTrip.vmaxZ (d : BitVec 6) (a : BitVec 6) (b : BitVec 6) (g : BitVec 3) : RoundTrip.Statement (.vmaxZ d a b g) := by
  rintro hw e ⟨⟩
  have hc := RoundTrip.check_of_wf hw
  simp only [decodeEnc, decodeWord_01]
  simp [dec01, chk, hc]

theorem RoundTrip.vand (d : BitVec 6) (a : BitVec 6) (b : BitVec 6) (g : BitVec 3) : RoundTrip.Statement (.vand d a b g) := by
  rintro hw e ⟨⟩
  have hc := RoundTrip.check_of_wf hw
  simp only [decodeEnc, decodeWord_01]
  simp [dec01, chk, hc]

theorem RoundTrip.vor (d : BitVec 6) (a : BitVec 6) (b : BitVec 6) (g : BitVec 3) : RoundTrip.Statement (.vor d a b g) := by
  rintro hw e ⟨⟩
  have hc := RoundTrip.check_of_wf hw
  simp only [decodeEnc, decodeWord_01]
  simp [dec01, chk, hc]

theorem RoundTrip.vxor (d : BitVec 6) (a : BitVec 6) (b : BitVec 6) (g : BitVec 3) : RoundTrip.Statement (.vxor d a b g) := by
  rintro hw e ⟨⟩
  have hc := RoundTrip.check_of_wf hw
  simp only [decodeEnc, decodeWord_01]
  simp [dec01, chk, hc]

theorem RoundTrip.vshl (d : BitVec 6) (a : BitVec 6) (b : BitVec 6) (g : BitVec 3) : RoundTrip.Statement (.vshl d a b g) := by
  rintro hw e ⟨⟩
  have hc := RoundTrip.check_of_wf hw
  simp only [decodeEnc, decodeWord_01]
  simp [dec01, chk, hc]

theorem RoundTrip.vshrZ (d : BitVec 6) (a : BitVec 6) (b : BitVec 6) (g : BitVec 3) : RoundTrip.Statement (.vshrZ d a b g) := by
  rintro hw e ⟨⟩
  have hc := RoundTrip.check_of_wf hw
  simp only [decodeEnc, decodeWord_01]
  simp [dec01, chk, hc]

theorem RoundTrip.vshrS (d : BitVec 6) (a : BitVec 6) (b : BitVec 6) (g : BitVec 3) : RoundTrip.Statement (.vshrS d a b g) := by
  rintro hw e ⟨⟩
  have hc := RoundTrip.check_of_wf hw
  simp only [decodeEnc, decodeWord_01]
  simp [dec01, chk, hc]

theorem RoundTrip.vandn (d : BitVec 6) (a : BitVec 6) (b : BitVec 6) (g : BitVec 3) : RoundTrip.Statement (.vandn d a b g) := by
  rintro hw e ⟨⟩
  have hc := RoundTrip.check_of_wf hw
  simp only [decodeEnc, decodeWord_01]
  simp [dec01, chk, hc]

theorem RoundTrip.vaddi (d : BitVec 6) (a : BitVec 6) (i : BitVec 9) : RoundTrip.Statement (.vaddi d a i) := by
  rintro hw e ⟨⟩
  have hc := RoundTrip.check_of_wf hw
  simp only [decodeEnc, decodeWord_02]
  simp [dec02, chk, hc]

theorem RoundTrip.vsubi (d : BitVec 6) (a : BitVec 6) (i : BitVec 9) : RoundTrip.Statement (.vsubi d a i) := by
  rintro hw e ⟨⟩
  have hc := RoundTrip.check_of_wf hw
  simp only [decodeEnc, decodeWord_02]
  simp [dec02, chk, hc]

theorem RoundTrip.vmuli (d : BitVec 6) (a : BitVec 6) (i : BitVec 9) : RoundTrip.Statement (.vmuli d a i) := by
  rintro hw e ⟨⟩
  have hc := RoundTrip.check_of_wf hw
  simp only [decodeEnc, decodeWord_02]
  simp [dec02, chk, hc]

theorem RoundTrip.vmulhSi (d : BitVec 6) (a : BitVec 6) (i : BitVec 9) : RoundTrip.Statement (.vmulhSi d a i) := by
  rintro hw e ⟨⟩
  have hc := RoundTrip.check_of_wf hw
  simp only [decodeEnc, decodeWord_02]
  simp [dec02, chk, hc]

theorem RoundTrip.vmulhZi (d : BitVec 6) (a : BitVec 6) (i : BitVec 9) : RoundTrip.Statement (.vmulhZi d a i) := by
  rintro hw e ⟨⟩
  have hc := RoundTrip.check_of_wf hw
  simp only [decodeEnc, decodeWord_02]
  simp [dec02, chk, hc]

theorem RoundTrip.vminSi (d : BitVec 6) (a : BitVec 6) (i : BitVec 9) : RoundTrip.Statement (.vminSi d a i) := by
  rintro hw e ⟨⟩
  have hc := RoundTrip.check_of_wf hw
  simp only [decodeEnc, decodeWord_02]
  simp [dec02, chk, hc]

theorem RoundTrip.vmaxSi (d : BitVec 6) (a : BitVec 6) (i : BitVec 9) : RoundTrip.Statement (.vmaxSi d a i) := by
  rintro hw e ⟨⟩
  have hc := RoundTrip.check_of_wf hw
  simp only [decodeEnc, decodeWord_02]
  simp [dec02, chk, hc]

theorem RoundTrip.vminZi (d : BitVec 6) (a : BitVec 6) (i : BitVec 9) : RoundTrip.Statement (.vminZi d a i) := by
  rintro hw e ⟨⟩
  have hc := RoundTrip.check_of_wf hw
  simp only [decodeEnc, decodeWord_02]
  simp [dec02, chk, hc]

theorem RoundTrip.vmaxZi (d : BitVec 6) (a : BitVec 6) (i : BitVec 9) : RoundTrip.Statement (.vmaxZi d a i) := by
  rintro hw e ⟨⟩
  have hc := RoundTrip.check_of_wf hw
  simp only [decodeEnc, decodeWord_02]
  simp [dec02, chk, hc]

theorem RoundTrip.vandi (d : BitVec 6) (a : BitVec 6) (i : BitVec 9) : RoundTrip.Statement (.vandi d a i) := by
  rintro hw e ⟨⟩
  have hc := RoundTrip.check_of_wf hw
  simp only [decodeEnc, decodeWord_02]
  simp [dec02, chk, hc]

theorem RoundTrip.vori (d : BitVec 6) (a : BitVec 6) (i : BitVec 9) : RoundTrip.Statement (.vori d a i) := by
  rintro hw e ⟨⟩
  have hc := RoundTrip.check_of_wf hw
  simp only [decodeEnc, decodeWord_02]
  simp [dec02, chk, hc]

theorem RoundTrip.vxori (d : BitVec 6) (a : BitVec 6) (i : BitVec 9) : RoundTrip.Statement (.vxori d a i) := by
  rintro hw e ⟨⟩
  have hc := RoundTrip.check_of_wf hw
  simp only [decodeEnc, decodeWord_02]
  simp [dec02, chk, hc]

theorem RoundTrip.vshli (d : BitVec 6) (a : BitVec 6) (i : BitVec 9) : RoundTrip.Statement (.vshli d a i) := by
  rintro hw e ⟨⟩
  have hc := RoundTrip.check_of_wf hw
  simp only [decodeEnc, decodeWord_02]
  simp [dec02, chk, hc]

theorem RoundTrip.vshrZi (d : BitVec 6) (a : BitVec 6) (i : BitVec 9) : RoundTrip.Statement (.vshrZi d a i) := by
  rintro hw e ⟨⟩
  have hc := RoundTrip.check_of_wf hw
  simp only [decodeEnc, decodeWord_02]
  simp [dec02, chk, hc]

theorem RoundTrip.vshrSi (d : BitVec 6) (a : BitVec 6) (i : BitVec 9) : RoundTrip.Statement (.vshrSi d a i) := by
  rintro hw e ⟨⟩
  have hc := RoundTrip.check_of_wf hw
  simp only [decodeEnc, decodeWord_02]
  simp [dec02, chk, hc]

theorem RoundTrip.vandni (d : BitVec 6) (a : BitVec 6) (i : BitVec 9) : RoundTrip.Statement (.vandni d a i) := by
  rintro hw e ⟨⟩
  have hc := RoundTrip.check_of_wf hw
  simp only [decodeEnc, decodeWord_02]
  simp [dec02, chk, hc]

theorem RoundTrip.vfadd (d : BitVec 6) (a : BitVec 6) (b : BitVec 6) (g : BitVec 3) : RoundTrip.Statement (.vfadd d a b g) := by
  rintro hw e ⟨⟩
  have hc := RoundTrip.check_of_wf hw
  simp only [decodeEnc, decodeWord_03]
  simp [dec03, chk, hc]

theorem RoundTrip.vfsub (d : BitVec 6) (a : BitVec 6) (b : BitVec 6) (g : BitVec 3) : RoundTrip.Statement (.vfsub d a b g) := by
  rintro hw e ⟨⟩
  have hc := RoundTrip.check_of_wf hw
  simp only [decodeEnc, decodeWord_03]
  simp [dec03, chk, hc]

theorem RoundTrip.vfmul (d : BitVec 6) (a : BitVec 6) (b : BitVec 6) (g : BitVec 3) : RoundTrip.Statement (.vfmul d a b g) := by
  rintro hw e ⟨⟩
  have hc := RoundTrip.check_of_wf hw
  simp only [decodeEnc, decodeWord_03]
  simp [dec03, chk, hc]

theorem RoundTrip.vfmac (d : BitVec 6) (a : BitVec 6) (b : BitVec 6) (g : BitVec 3) : RoundTrip.Statement (.vfmac d a b g) := by
  rintro hw e ⟨⟩
  have hc := RoundTrip.check_of_wf hw
  simp only [decodeEnc, decodeWord_03]
  simp [dec03, chk, hc]

theorem RoundTrip.vfnmac (d : BitVec 6) (a : BitVec 6) (b : BitVec 6) (g : BitVec 3) : RoundTrip.Statement (.vfnmac d a b g) := by
  rintro hw e ⟨⟩
  have hc := RoundTrip.check_of_wf hw
  simp only [decodeEnc, decodeWord_03]
  simp [dec03, chk, hc]

theorem RoundTrip.vfmin (d : BitVec 6) (a : BitVec 6) (b : BitVec 6) (g : BitVec 3) : RoundTrip.Statement (.vfmin d a b g) := by
  rintro hw e ⟨⟩
  have hc := RoundTrip.check_of_wf hw
  simp only [decodeEnc, decodeWord_03]
  simp [dec03, chk, hc]

theorem RoundTrip.vfmax (d : BitVec 6) (a : BitVec 6) (b : BitVec 6) (g : BitVec 3) : RoundTrip.Statement (.vfmax d a b g) := by
  rintro hw e ⟨⟩
  have hc := RoundTrip.check_of_wf hw
  simp only [decodeEnc, decodeWord_03]
  simp [dec03, chk, hc]

theorem RoundTrip.vfabs (d : BitVec 6) (a : BitVec 6) (g : BitVec 3) : RoundTrip.Statement (.vfabs d a g) := by
  rintro hw e ⟨⟩
  have hc := RoundTrip.check_of_wf hw
  simp only [decodeEnc, decodeWord_03]
  simp [dec03, chk, hc]

theorem RoundTrip.vfneg (d : BitVec 6) (a : BitVec 6) (g : BitVec 3) : RoundTrip.Statement (.vfneg d a g) := by
  rintro hw e ⟨⟩
  have hc := RoundTrip.check_of_wf hw
  simp only [decodeEnc, decodeWord_03]
  simp [dec03, chk, hc]

theorem RoundTrip.vfcopys (d : BitVec 6) (a : BitVec 6) (b : BitVec 6) (g : BitVec 3) : RoundTrip.Statement (.vfcopys d a b g) := by
  rintro hw e ⟨⟩
  have hc := RoundTrip.check_of_wf hw
  simp only [decodeEnc, decodeWord_03]
  simp [dec03, chk, hc]

theorem RoundTrip.vfrcp (d : BitVec 6) (a : BitVec 6) (g : BitVec 3) : RoundTrip.Statement (.vfrcp d a g) := by
  rintro hw e ⟨⟩
  have hc := RoundTrip.check_of_wf hw
  simp only [decodeEnc, decodeWord_03]
  simp [dec03, chk, hc]

theorem RoundTrip.vfrsq (d : BitVec 6) (a : BitVec 6) (g : BitVec 3) : RoundTrip.Statement (.vfrsq d a g) := by
  rintro hw e ⟨⟩
  have hc := RoundTrip.check_of_wf hw
  simp only [decodeEnc, decodeWord_03]
  simp [dec03, chk, hc]

theorem RoundTrip.vfsqrt (d : BitVec 6) (a : BitVec 6) (g : BitVec 3) : RoundTrip.Statement (.vfsqrt d a g) := by
  rintro hw e ⟨⟩
  have hc := RoundTrip.check_of_wf hw
  simp only [decodeEnc, decodeWord_03]
  simp [dec03, chk, hc]

theorem RoundTrip.vfexp2 (d : BitVec 6) (a : BitVec 6) (g : BitVec 3) : RoundTrip.Statement (.vfexp2 d a g) := by
  rintro hw e ⟨⟩
  have hc := RoundTrip.check_of_wf hw
  simp only [decodeEnc, decodeWord_03]
  simp [dec03, chk, hc]

theorem RoundTrip.vflog2 (d : BitVec 6) (a : BitVec 6) (g : BitVec 3) : RoundTrip.Statement (.vflog2 d a g) := by
  rintro hw e ⟨⟩
  have hc := RoundTrip.check_of_wf hw
  simp only [decodeEnc, decodeWord_03]
  simp [dec03, chk, hc]

theorem RoundTrip.vfround (d : BitVec 6) (a : BitVec 6) (b : BitVec 6) (g : BitVec 3) : RoundTrip.Statement (.vfround d a b g) := by
  rintro hw e ⟨⟩
  have hc := RoundTrip.check_of_wf hw
  simp only [decodeEnc, decodeWord_03]
  simp [dec03, chk, hc]

theorem RoundTrip.vcmpEq (p : BitVec 3) (a : BitVec 6) (b : BitVec 6) (g : BitVec 3) : RoundTrip.Statement (.vcmpEq p a b g) := by
  rintro hw e ⟨⟩
  have hc := RoundTrip.check_of_wf hw
  simp only [decodeEnc, decodeWord_04]
  simp [dec04, chk, hc]

theorem RoundTrip.vcmpNe (p : BitVec 3) (a : BitVec 6) (b : BitVec 6) (g : BitVec 3) : RoundTrip.Statement (.vcmpNe p a b g) := by
  rintro hw e ⟨⟩
  have hc := RoundTrip.check_of_wf hw
  simp only [decodeEnc, decodeWord_04]
  simp [dec04, chk, hc]

theorem RoundTrip.vcmpLtS (p : BitVec 3) (a : BitVec 6) (b : BitVec 6) (g : BitVec 3) : RoundTrip.Statement (.vcmpLtS p a b g) := by
  rintro hw e ⟨⟩
  have hc := RoundTrip.check_of_wf hw
  simp only [decodeEnc, decodeWord_04]
  simp [dec04, chk, hc]

theorem RoundTrip.vcmpLeS (p : BitVec 3) (a : BitVec 6) (b : BitVec 6) (g : BitVec 3) : RoundTrip.Statement (.vcmpLeS p a b g) := by
  rintro hw e ⟨⟩
  have hc := RoundTrip.check_of_wf hw
  simp only [decodeEnc, decodeWord_04]
  simp [dec04, chk, hc]

theorem RoundTrip.vcmpGtS (p : BitVec 3) (a : BitVec 6) (b : BitVec 6) (g : BitVec 3) : RoundTrip.Statement (.vcmpGtS p a b g) := by
  rintro hw e ⟨⟩
  have hc := RoundTrip.check_of_wf hw
  simp only [decodeEnc, decodeWord_04]
  simp [dec04, chk, hc]

theorem RoundTrip.vcmpGeS (p : BitVec 3) (a : BitVec 6) (b : BitVec 6) (g : BitVec 3) : RoundTrip.Statement (.vcmpGeS p a b g) := by
  rintro hw e ⟨⟩
  have hc := RoundTrip.check_of_wf hw
  simp only [decodeEnc, decodeWord_04]
  simp [dec04, chk, hc]

theorem RoundTrip.vcmpLtZ (p : BitVec 3) (a : BitVec 6) (b : BitVec 6) (g : BitVec 3) : RoundTrip.Statement (.vcmpLtZ p a b g) := by
  rintro hw e ⟨⟩
  have hc := RoundTrip.check_of_wf hw
  simp only [decodeEnc, decodeWord_04]
  simp [dec04, chk, hc]

theorem RoundTrip.vcmpLeZ (p : BitVec 3) (a : BitVec 6) (b : BitVec 6) (g : BitVec 3) : RoundTrip.Statement (.vcmpLeZ p a b g) := by
  rintro hw e ⟨⟩
  have hc := RoundTrip.check_of_wf hw
  simp only [decodeEnc, decodeWord_04]
  simp [dec04, chk, hc]

theorem RoundTrip.vcmpFeq (p : BitVec 3) (a : BitVec 6) (b : BitVec 6) (g : BitVec 3) : RoundTrip.Statement (.vcmpFeq p a b g) := by
  rintro hw e ⟨⟩
  have hc := RoundTrip.check_of_wf hw
  simp only [decodeEnc, decodeWord_04]
  simp [dec04, chk, hc]

theorem RoundTrip.vcmpFne (p : BitVec 3) (a : BitVec 6) (b : BitVec 6) (g : BitVec 3) : RoundTrip.Statement (.vcmpFne p a b g) := by
  rintro hw e ⟨⟩
  have hc := RoundTrip.check_of_wf hw
  simp only [decodeEnc, decodeWord_04]
  simp [dec04, chk, hc]

theorem RoundTrip.vcmpFlt (p : BitVec 3) (a : BitVec 6) (b : BitVec 6) (g : BitVec 3) : RoundTrip.Statement (.vcmpFlt p a b g) := by
  rintro hw e ⟨⟩
  have hc := RoundTrip.check_of_wf hw
  simp only [decodeEnc, decodeWord_04]
  simp [dec04, chk, hc]

theorem RoundTrip.vcmpFle (p : BitVec 3) (a : BitVec 6) (b : BitVec 6) (g : BitVec 3) : RoundTrip.Statement (.vcmpFle p a b g) := by
  rintro hw e ⟨⟩
  have hc := RoundTrip.check_of_wf hw
  simp only [decodeEnc, decodeWord_04]
  simp [dec04, chk, hc]

theorem RoundTrip.vcmpFgt (p : BitVec 3) (a : BitVec 6) (b : BitVec 6) (g : BitVec 3) : RoundTrip.Statement (.vcmpFgt p a b g) := by
  rintro hw e ⟨⟩
  have hc := RoundTrip.check_of_wf hw
  simp only [decodeEnc, decodeWord_04]
  simp [dec04, chk, hc]

theorem RoundTrip.vcmpFge (p : BitVec 3) (a : BitVec 6) (b : BitVec 6) (g : BitVec 3) : RoundTrip.Statement (.vcmpFge p a b g) := by
  rintro hw e ⟨⟩
  have hc := RoundTrip.check_of_wf hw
  simp only [decodeEnc, decodeWord_04]
  simp [dec04, chk, hc]

theorem RoundTrip.vcmpFuno (p : BitVec 3) (a : BitVec 6) (b : BitVec 6) (g : BitVec 3) : RoundTrip.Statement (.vcmpFuno p a b g) := by
  rintro hw e ⟨⟩
  have hc := RoundTrip.check_of_wf hw
  simp only [decodeEnc, decodeWord_04]
  simp [dec04, chk, hc]

theorem RoundTrip.vcmpFord (p : BitVec 3) (a : BitVec 6) (b : BitVec 6) (g : BitVec 3) : RoundTrip.Statement (.vcmpFord p a b g) := by
  rintro hw e ⟨⟩
  have hc := RoundTrip.check_of_wf hw
  simp only [decodeEnc, decodeWord_04]
  simp [dec04, chk, hc]

theorem RoundTrip.cvtF32S32 (d : BitVec 6) (a : BitVec 6) (g : BitVec 3) : RoundTrip.Statement (.cvtF32S32 d a g) := by
  rintro hw e ⟨⟩
  have hc := RoundTrip.check_of_wf hw
  simp only [decodeEnc, decodeWord_05]
  simp [dec05, chk, hc]

theorem RoundTrip.cvtF32Z32 (d : BitVec 6) (a : BitVec 6) (g : BitVec 3) : RoundTrip.Statement (.cvtF32Z32 d a g) := by
  rintro hw e ⟨⟩
  have hc := RoundTrip.check_of_wf hw
  simp only [decodeEnc, decodeWord_05]
  simp [dec05, chk, hc]

theorem RoundTrip.cvtS32F32 (d : BitVec 6) (a : BitVec 6) (g : BitVec 3) : RoundTrip.Statement (.cvtS32F32 d a g) := by
  rintro hw e ⟨⟩
  have hc := RoundTrip.check_of_wf hw
  simp only [decodeEnc, decodeWord_05]
  simp [dec05, chk, hc]

theorem RoundTrip.cvtZ32F32 (d : BitVec 6) (a : BitVec 6) (g : BitVec 3) : RoundTrip.Statement (.cvtZ32F32 d a g) := by
  rintro hw e ⟨⟩
  have hc := RoundTrip.check_of_wf hw
  simp only [decodeEnc, decodeWord_05]
  simp [dec05, chk, hc]

theorem RoundTrip.cvtF16x2F32 (d : BitVec 6) (a : BitVec 6) (b : BitVec 6) (g : BitVec 3) : RoundTrip.Statement (.cvtF16x2F32 d a b g) := by
  rintro hw e ⟨⟩
  have hc := RoundTrip.check_of_wf hw
  simp only [decodeEnc, decodeWord_05]
  simp [dec05, chk, hc]

theorem RoundTrip.cvtF32F16lo (d : BitVec 6) (a : BitVec 6) (g : BitVec 3) : RoundTrip.Statement (.cvtF32F16lo d a g) := by
  rintro hw e ⟨⟩
  have hc := RoundTrip.check_of_wf hw
  simp only [decodeEnc, decodeWord_05]
  simp [dec05, chk, hc]

theorem RoundTrip.cvtF32F16hi (d : BitVec 6) (a : BitVec 6) (g : BitVec 3) : RoundTrip.Statement (.cvtF32F16hi d a g) := by
  rintro hw e ⟨⟩
  have hc := RoundTrip.check_of_wf hw
  simp only [decodeEnc, decodeWord_05]
  simp [dec05, chk, hc]

theorem RoundTrip.cvtBf16x2F32 (d : BitVec 6) (a : BitVec 6) (b : BitVec 6) (g : BitVec 3) : RoundTrip.Statement (.cvtBf16x2F32 d a b g) := by
  rintro hw e ⟨⟩
  have hc := RoundTrip.check_of_wf hw
  simp only [decodeEnc, decodeWord_05]
  simp [dec05, chk, hc]

theorem RoundTrip.cvtF32Bf16lo (d : BitVec 6) (a : BitVec 6) (g : BitVec 3) : RoundTrip.Statement (.cvtF32Bf16lo d a g) := by
  rintro hw e ⟨⟩
  have hc := RoundTrip.check_of_wf hw
  simp only [decodeEnc, decodeWord_05]
  simp [dec05, chk, hc]

theorem RoundTrip.cvtF32Bf16hi (d : BitVec 6) (a : BitVec 6) (g : BitVec 3) : RoundTrip.Statement (.cvtF32Bf16hi d a g) := by
  rintro hw e ⟨⟩
  have hc := RoundTrip.check_of_wf hw
  simp only [decodeEnc, decodeWord_05]
  simp [dec05, chk, hc]

theorem RoundTrip.cvtE4m3F32 (d : BitVec 6) (a : BitVec 6) (n : BitVec 6) (g : BitVec 3) : RoundTrip.Statement (.cvtE4m3F32 d a n g) := by
  rintro hw e ⟨⟩
  have hc := RoundTrip.check_of_wf hw
  simp only [decodeEnc, decodeWord_05]
  simp [dec05, chk, hc]

theorem RoundTrip.cvtE5m2F32 (d : BitVec 6) (a : BitVec 6) (n : BitVec 6) (g : BitVec 3) : RoundTrip.Statement (.cvtE5m2F32 d a n g) := by
  rintro hw e ⟨⟩
  have hc := RoundTrip.check_of_wf hw
  simp only [decodeEnc, decodeWord_05]
  simp [dec05, chk, hc]

theorem RoundTrip.cvtLns6F32 (d : BitVec 6) (a : BitVec 6) (n : BitVec 6) (g : BitVec 3) : RoundTrip.Statement (.cvtLns6F32 d a n g) := by
  rintro hw e ⟨⟩
  have hc := RoundTrip.check_of_wf hw
  simp only [decodeEnc, decodeWord_05]
  simp [dec05, chk, hc]

theorem RoundTrip.cvtF32E4m3 (d : BitVec 6) (a : BitVec 6) (n : BitVec 6) (g : BitVec 3) : RoundTrip.Statement (.cvtF32E4m3 d a n g) := by
  rintro hw e ⟨⟩
  have hc := RoundTrip.check_of_wf hw
  simp only [decodeEnc, decodeWord_05]
  simp [dec05, chk, hc]

theorem RoundTrip.cvtF32E5m2 (d : BitVec 6) (a : BitVec 6) (n : BitVec 6) (g : BitVec 3) : RoundTrip.Statement (.cvtF32E5m2 d a n g) := by
  rintro hw e ⟨⟩
  have hc := RoundTrip.check_of_wf hw
  simp only [decodeEnc, decodeWord_05]
  simp [dec05, chk, hc]

theorem RoundTrip.cvtF32Lns6 (d : BitVec 6) (a : BitVec 6) (n : BitVec 6) (g : BitVec 3) : RoundTrip.Statement (.cvtF32Lns6 d a n g) := by
  rintro hw e ⟨⟩
  have hc := RoundTrip.check_of_wf hw
  simp only [decodeEnc, decodeWord_05]
  simp [dec05, chk, hc]

theorem RoundTrip.vsel (d : BitVec 6) (a : BitVec 6) (b : BitVec 6) (k : BitVec 3) : RoundTrip.Statement (.vsel d a b k) := by
  rintro hw e ⟨⟩
  have hc := RoundTrip.check_of_wf hw
  simp only [decodeEnc, decodeWord_06]
  simp [dec06, chk, hc]

theorem RoundTrip.vperm (d : BitVec 6) (a : BitVec 6) (b : BitVec 6) (g : BitVec 3) : RoundTrip.Statement (.vperm d a b g) := by
  rintro hw e ⟨⟩
  have hc := RoundTrip.check_of_wf hw
  simp only [decodeEnc, decodeWord_06]
  simp [dec06, chk, hc]

theorem RoundTrip.vshflUp (d : BitVec 6) (a : BitVec 6) (n : BitVec 6) (g : BitVec 3) : RoundTrip.Statement (.vshflUp d a n g) := by
  rintro hw e ⟨⟩
  have hc := RoundTrip.check_of_wf hw
  simp only [decodeEnc, decodeWord_06]
  simp [dec06, chk, hc]

theorem RoundTrip.vshflDn (d : BitVec 6) (a : BitVec 6) (n : BitVec 6) (g : BitVec 3) : RoundTrip.Statement (.vshflDn d a n g) := by
  rintro hw e ⟨⟩
  have hc := RoundTrip.check_of_wf hw
  simp only [decodeEnc, decodeWord_06]
  simp [dec06, chk, hc]

theorem RoundTrip.vshflX (d : BitVec 6) (a : BitVec 6) (n : BitVec 6) (g : BitVec 3) : RoundTrip.Statement (.vshflX d a n g) := by
  rintro hw e ⟨⟩
  have hc := RoundTrip.check_of_wf hw
  simp only [decodeEnc, decodeWord_06]
  simp [dec06, chk, hc]

theorem RoundTrip.vpopc (d : BitVec 6) (a : BitVec 6) (g : BitVec 3) : RoundTrip.Statement (.vpopc d a g) := by
  rintro hw e ⟨⟩
  have hc := RoundTrip.check_of_wf hw
  simp only [decodeEnc, decodeWord_06]
  simp [dec06, chk, hc]

theorem RoundTrip.vclz (d : BitVec 6) (a : BitVec 6) (g : BitVec 3) : RoundTrip.Statement (.vclz d a g) := by
  rintro hw e ⟨⟩
  have hc := RoundTrip.check_of_wf hw
  simp only [decodeEnc, decodeWord_06]
  simp [dec06, chk, hc]

theorem RoundTrip.vbrev (d : BitVec 6) (a : BitVec 6) (g : BitVec 3) : RoundTrip.Statement (.vbrev d a g) := by
  rintro hw e ⟨⟩
  have hc := RoundTrip.check_of_wf hw
  simp only [decodeEnc, decodeWord_06]
  simp [dec06, chk, hc]

theorem RoundTrip.vlaneid (d : BitVec 6) (g : BitVec 3) : RoundTrip.Statement (.vlaneid d g) := by
  rintro hw e ⟨⟩
  have hc := RoundTrip.check_of_wf hw
  simp only [decodeEnc, decodeWord_06]
  simp [dec06, chk, hc]

theorem RoundTrip.vbcast (d : BitVec 6) (a : BitVec 6) (n : BitVec 6) (g : BitVec 3) : RoundTrip.Statement (.vbcast d a n g) := by
  rintro hw e ⟨⟩
  have hc := RoundTrip.check_of_wf hw
  simp only [decodeEnc, decodeWord_06]
  simp [dec06, chk, hc]

theorem RoundTrip.vmovs (d : BitVec 6) (a : BitVec 5) (g : BitVec 3) : RoundTrip.Statement (.vmovs d a g) := by
  rintro hw e ⟨⟩
  have hc := RoundTrip.check_of_wf hw
  simp only [decodeEnc, decodeWord_06]
  simp [dec06, chk, hc]

theorem RoundTrip.ballot (p : BitVec 3) (a : BitVec 6) (g : BitVec 3) : RoundTrip.Statement (.ballot p a g) := by
  rintro hw e ⟨⟩
  have hc := RoundTrip.check_of_wf hw
  simp only [decodeEnc, decodeWord_06]
  simp [dec06, chk, hc]

theorem RoundTrip.pmovFromScalar (d : BitVec 3) (a : BitVec 5) : RoundTrip.Statement (.pmovFromScalar d a) := by
  rintro hw e ⟨⟩
  have hc := RoundTrip.check_of_wf hw
  simp only [decodeEnc, decodeWord_06]
  simp [dec06, chk, hc]

theorem RoundTrip.pmovToScalar (d : BitVec 5) (a : BitVec 3) : RoundTrip.Statement (.pmovToScalar d a) := by
  rintro hw e ⟨⟩
  have hc := RoundTrip.check_of_wf hw
  simp only [decodeEnc, decodeWord_06]
  simp [dec06, chk, hc]

theorem RoundTrip.pand (d : BitVec 3) (a : BitVec 3) (b : BitVec 3) : RoundTrip.Statement (.pand d a b) := by
  rintro hw e ⟨⟩
  have hc := RoundTrip.check_of_wf hw
  simp only [decodeEnc, decodeWord_06]
  simp [dec06, chk, hc]

theorem RoundTrip.por (d : BitVec 3) (a : BitVec 3) (b : BitVec 3) : RoundTrip.Statement (.por d a b) := by
  rintro hw e ⟨⟩
  have hc := RoundTrip.check_of_wf hw
  simp only [decodeEnc, decodeWord_06]
  simp [dec06, chk, hc]

theorem RoundTrip.pnot (d : BitVec 3) (a : BitVec 3) : RoundTrip.Statement (.pnot d a) := by
  rintro hw e ⟨⟩
  have hc := RoundTrip.check_of_wf hw
  simp only [decodeEnc, decodeWord_06]
  simp [dec06, chk, hc]

theorem RoundTrip.redAdd (d : BitVec 5) (a : BitVec 6) (g : BitVec 3) : RoundTrip.Statement (.redAdd d a g) := by
  rintro hw e ⟨⟩
  have hc := RoundTrip.check_of_wf hw
  simp only [decodeEnc, decodeWord_07]
  simp [dec07, chk, hc]

theorem RoundTrip.redFadd (d : BitVec 5) (a : BitVec 6) (g : BitVec 3) : RoundTrip.Statement (.redFadd d a g) := by
  rintro hw e ⟨⟩
  have hc := RoundTrip.check_of_wf hw
  simp only [decodeEnc, decodeWord_07]
  simp [dec07, chk, hc]

theorem RoundTrip.redMinS (d : BitVec 5) (a : BitVec 6) (g : BitVec 3) : RoundTrip.Statement (.redMinS d a g) := by
  rintro hw e ⟨⟩
  have hc := RoundTrip.check_of_wf hw
  simp only [decodeEnc, decodeWord_07]
  simp [dec07, chk, hc]

theorem RoundTrip.redMaxS (d : BitVec 5) (a : BitVec 6) (g : BitVec 3) : RoundTrip.Statement (.redMaxS d a g) := by
  rintro hw e ⟨⟩
  have hc := RoundTrip.check_of_wf hw
  simp only [decodeEnc, decodeWord_07]
  simp [dec07, chk, hc]

theorem RoundTrip.redFmin (d : BitVec 5) (a : BitVec 6) (g : BitVec 3) : RoundTrip.Statement (.redFmin d a g) := by
  rintro hw e ⟨⟩
  have hc := RoundTrip.check_of_wf hw
  simp only [decodeEnc, decodeWord_07]
  simp [dec07, chk, hc]

theorem RoundTrip.redFmax (d : BitVec 5) (a : BitVec 6) (g : BitVec 3) : RoundTrip.Statement (.redFmax d a g) := by
  rintro hw e ⟨⟩
  have hc := RoundTrip.check_of_wf hw
  simp only [decodeEnc, decodeWord_07]
  simp [dec07, chk, hc]

theorem RoundTrip.redAnd (d : BitVec 5) (a : BitVec 6) (g : BitVec 3) : RoundTrip.Statement (.redAnd d a g) := by
  rintro hw e ⟨⟩
  have hc := RoundTrip.check_of_wf hw
  simp only [decodeEnc, decodeWord_07]
  simp [dec07, chk, hc]

theorem RoundTrip.redOr (d : BitVec 5) (a : BitVec 6) (g : BitVec 3) : RoundTrip.Statement (.redOr d a g) := by
  rintro hw e ⟨⟩
  have hc := RoundTrip.check_of_wf hw
  simp only [decodeEnc, decodeWord_07]
  simp [dec07, chk, hc]

theorem RoundTrip.scanAdd (d : BitVec 6) (a : BitVec 6) (g : BitVec 3) : RoundTrip.Statement (.scanAdd d a g) := by
  rintro hw e ⟨⟩
  have hc := RoundTrip.check_of_wf hw
  simp only [decodeEnc, decodeWord_07]
  simp [dec07, chk, hc]

theorem RoundTrip.scanFadd (d : BitVec 6) (a : BitVec 6) (g : BitVec 3) : RoundTrip.Statement (.scanFadd d a g) := by
  rintro hw e ⟨⟩
  have hc := RoundTrip.check_of_wf hw
  simp only [decodeEnc, decodeWord_07]
  simp [dec07, chk, hc]

theorem RoundTrip.redFadd2 (d : BitVec 5) (a : BitVec 6) (g : BitVec 3) : RoundTrip.Statement (.redFadd2 d a g) := by
  rintro hw e ⟨⟩
  have hc := RoundTrip.check_of_wf hw
  simp only [decodeEnc, decodeWord_07]
  simp [dec07, chk, hc]

theorem RoundTrip.sadd (d : BitVec 5) (a : BitVec 5) (b : BitVec 5) : RoundTrip.Statement (.sadd d a b) := by
  rintro hw e ⟨⟩
  have hc := RoundTrip.check_of_wf hw
  simp only [decodeEnc, decodeWord_08]
  simp [dec08, chk, hc]

theorem RoundTrip.ssub (d : BitVec 5) (a : BitVec 5) (b : BitVec 5) : RoundTrip.Statement (.ssub d a b) := by
  rintro hw e ⟨⟩
  have hc := RoundTrip.check_of_wf hw
  simp only [decodeEnc, decodeWord_08]
  simp [dec08, chk, hc]

theorem RoundTrip.smul (d : BitVec 5) (a : BitVec 5) (b : BitVec 5) : RoundTrip.Statement (.smul d a b) := by
  rintro hw e ⟨⟩
  have hc := RoundTrip.check_of_wf hw
  simp only [decodeEnc, decodeWord_08]
  simp [dec08, chk, hc]

theorem RoundTrip.smulhS (d : BitVec 5) (a : BitVec 5) (b : BitVec 5) : RoundTrip.Statement (.smulhS d a b) := by
  rintro hw e ⟨⟩
  have hc := RoundTrip.check_of_wf hw
  simp only [decodeEnc, decodeWord_08]
  simp [dec08, chk, hc]

theorem RoundTrip.sdivS (d : BitVec 5) (a : BitVec 5) (b : BitVec 5) : RoundTrip.Statement (.sdivS d a b) := by
  rintro hw e ⟨⟩
  have hc := RoundTrip.check_of_wf hw
  simp only [decodeEnc, decodeWord_08]
  simp [dec08, chk, hc]

theorem RoundTrip.sdivZ (d : BitVec 5) (a : BitVec 5) (b : BitVec 5) : RoundTrip.Statement (.sdivZ d a b) := by
  rintro hw e ⟨⟩
  have hc := RoundTrip.check_of_wf hw
  simp only [decodeEnc, decodeWord_08]
  simp [dec08, chk, hc]

theorem RoundTrip.sand (d : BitVec 5) (a : BitVec 5) (b : BitVec 5) : RoundTrip.Statement (.sand d a b) := by
  rintro hw e ⟨⟩
  have hc := RoundTrip.check_of_wf hw
  simp only [decodeEnc, decodeWord_08]
  simp [dec08, chk, hc]

theorem RoundTrip.sor (d : BitVec 5) (a : BitVec 5) (b : BitVec 5) : RoundTrip.Statement (.sor d a b) := by
  rintro hw e ⟨⟩
  have hc := RoundTrip.check_of_wf hw
  simp only [decodeEnc, decodeWord_08]
  simp [dec08, chk, hc]

theorem RoundTrip.sxor (d : BitVec 5) (a : BitVec 5) (b : BitVec 5) : RoundTrip.Statement (.sxor d a b) := by
  rintro hw e ⟨⟩
  have hc := RoundTrip.check_of_wf hw
  simp only [decodeEnc, decodeWord_08]
  simp [dec08, chk, hc]

theorem RoundTrip.sshl (d : BitVec 5) (a : BitVec 5) (b : BitVec 5) : RoundTrip.Statement (.sshl d a b) := by
  rintro hw e ⟨⟩
  have hc := RoundTrip.check_of_wf hw
  simp only [decodeEnc, decodeWord_08]
  simp [dec08, chk, hc]

theorem RoundTrip.sshrZ (d : BitVec 5) (a : BitVec 5) (b : BitVec 5) : RoundTrip.Statement (.sshrZ d a b) := by
  rintro hw e ⟨⟩
  have hc := RoundTrip.check_of_wf hw
  simp only [decodeEnc, decodeWord_08]
  simp [dec08, chk, hc]

theorem RoundTrip.sshrS (d : BitVec 5) (a : BitVec 5) (b : BitVec 5) : RoundTrip.Statement (.sshrS d a b) := by
  rintro hw e ⟨⟩
  have hc := RoundTrip.check_of_wf hw
  simp only [decodeEnc, decodeWord_08]
  simp [dec08, chk, hc]

theorem RoundTrip.sminS (d : BitVec 5) (a : BitVec 5) (b : BitVec 5) : RoundTrip.Statement (.sminS d a b) := by
  rintro hw e ⟨⟩
  have hc := RoundTrip.check_of_wf hw
  simp only [decodeEnc, decodeWord_08]
  simp [dec08, chk, hc]

theorem RoundTrip.smaxS (d : BitVec 5) (a : BitVec 5) (b : BitVec 5) : RoundTrip.Statement (.smaxS d a b) := by
  rintro hw e ⟨⟩
  have hc := RoundTrip.check_of_wf hw
  simp only [decodeEnc, decodeWord_08]
  simp [dec08, chk, hc]

theorem RoundTrip.seq (d : BitVec 5) (a : BitVec 5) (b : BitVec 5) : RoundTrip.Statement (.seq d a b) := by
  rintro hw e ⟨⟩
  have hc := RoundTrip.check_of_wf hw
  simp only [decodeEnc, decodeWord_08]
  simp [dec08, chk, hc]

theorem RoundTrip.sltS (d : BitVec 5) (a : BitVec 5) (b : BitVec 5) : RoundTrip.Statement (.sltS d a b) := by
  rintro hw e ⟨⟩
  have hc := RoundTrip.check_of_wf hw
  simp only [decodeEnc, decodeWord_08]
  simp [dec08, chk, hc]

theorem RoundTrip.sltZ (d : BitVec 5) (a : BitVec 5) (b : BitVec 5) : RoundTrip.Statement (.sltZ d a b) := by
  rintro hw e ⟨⟩
  have hc := RoundTrip.check_of_wf hw
  simp only [decodeEnc, decodeWord_08]
  simp [dec08, chk, hc]

theorem RoundTrip.saddi (d : BitVec 5) (a : BitVec 5) (i : BitVec 15) : RoundTrip.Statement (.saddi d a i) := by
  rintro hw e ⟨⟩
  have hc := RoundTrip.check_of_wf hw
  simp only [decodeEnc, decodeWord_09]
  simp [dec09, chk, hc]

theorem RoundTrip.sins (d : BitVec 5) (a : BitVec 5) (i : BitVec 15) : RoundTrip.Statement (.sins d a i) := by
  rintro hw e ⟨⟩
  have hc := RoundTrip.check_of_wf hw
  simp only [decodeEnc, decodeWord_0A]
  simp [dec0A, chk, hc]

theorem RoundTrip.aadd (d : BitVec 4) (a : BitVec 4) (b : BitVec 5) : RoundTrip.Statement (.aadd d a b) := by
  rintro hw e ⟨⟩
  have hc := RoundTrip.check_of_wf hw
  simp only [decodeEnc, decodeWord_0B]
  simp [dec0B, chk, hc]

theorem RoundTrip.asub (d : BitVec 4) (a : BitVec 4) (b : BitVec 5) : RoundTrip.Statement (.asub d a b) := by
  rintro hw e ⟨⟩
  have hc := RoundTrip.check_of_wf hw
  simp only [decodeEnc, decodeWord_0B]
  simp [dec0B, chk, hc]

theorem RoundTrip.amov (d : BitVec 4) (a : BitVec 4) : RoundTrip.Statement (.amov d a) := by
  rintro hw e ⟨⟩
  have hc := RoundTrip.check_of_wf hw
  simp only [decodeEnc, decodeWord_0B]
  simp [dec0B, chk, hc]

theorem RoundTrip.aset (d : BitVec 4) (a : BitVec 5) : RoundTrip.Statement (.aset d a) := by
  rintro hw e ⟨⟩
  have hc := RoundTrip.check_of_wf hw
  simp only [decodeEnc, decodeWord_0B]
  simp [dec0B, chk, hc]

theorem RoundTrip.aget (d : BitVec 5) (a : BitVec 4) (n : BitVec 5) : RoundTrip.Statement (.aget d a n) := by
  rintro hw e ⟨⟩
  have hc := RoundTrip.check_of_wf hw
  simp only [decodeEnc, decodeWord_0B]
  simp [dec0B, chk, hc]

theorem RoundTrip.ahi (d : BitVec 4) (a : BitVec 4) (b : BitVec 5) : RoundTrip.Statement (.ahi d a b) := by
  rintro hw e ⟨⟩
  have hc := RoundTrip.check_of_wf hw
  simp only [decodeEnc, decodeWord_0B]
  simp [dec0B, chk, hc]

theorem RoundTrip.acmp (d : BitVec 5) (a : BitVec 4) (b : BitVec 4) : RoundTrip.Statement (.acmp d a b) := by
  rintro hw e ⟨⟩
  have hc := RoundTrip.check_of_wf hw
  simp only [decodeEnc, decodeWord_0B]
  simp [dec0B, chk, hc]

theorem RoundTrip.vmovsLo (d : BitVec 6) (a : BitVec 5) (n : BitVec 6) (g : BitVec 3) : RoundTrip.Statement (.vmovsLo d a n g) := by
  rintro hw e ⟨⟩
  have hc := RoundTrip.check_of_wf hw
  simp only [decodeEnc, decodeWord_0C]
  simp [dec0C, chk, hc]

theorem RoundTrip.vmovsHi (d : BitVec 6) (a : BitVec 5) (n : BitVec 6) (g : BitVec 3) : RoundTrip.Statement (.vmovsHi d a n g) := by
  rintro hw e ⟨⟩
  have hc := RoundTrip.check_of_wf hw
  simp only [decodeEnc, decodeWord_0C]
  simp [dec0C, chk, hc]

theorem RoundTrip.smovv (d : BitVec 5) (a : BitVec 6) (n : BitVec 6) : RoundTrip.Statement (.smovv d a n) := by
  rintro hw e ⟨⟩
  have hc := RoundTrip.check_of_wf hw
  simp only [decodeEnc, decodeWord_0C]
  simp [dec0C, chk, hc]

theorem RoundTrip.vadds (d : BitVec 6) (a : BitVec 6) (b : BitVec 5) (g : BitVec 3) : RoundTrip.Statement (.vadds d a b g) := by
  rintro hw e ⟨⟩
  have hc := RoundTrip.check_of_wf hw
  simp only [decodeEnc, decodeWord_0C]
  simp [dec0C, chk, hc]

theorem RoundTrip.vmuls (d : BitVec 6) (a : BitVec 6) (b : BitVec 5) (g : BitVec 3) : RoundTrip.Statement (.vmuls d a b g) := by
  rintro hw e ⟨⟩
  have hc := RoundTrip.check_of_wf hw
  simp only [decodeEnc, decodeWord_0C]
  simp [dec0C, chk, hc]

theorem RoundTrip.vfadds (d : BitVec 6) (a : BitVec 6) (b : BitVec 5) (g : BitVec 3) : RoundTrip.Statement (.vfadds d a b g) := by
  rintro hw e ⟨⟩
  have hc := RoundTrip.check_of_wf hw
  simp only [decodeEnc, decodeWord_0C]
  simp [dec0C, chk, hc]

theorem RoundTrip.vfmuls (d : BitVec 6) (a : BitVec 6) (b : BitVec 5) (g : BitVec 3) : RoundTrip.Statement (.vfmuls d a b g) := by
  rintro hw e ⟨⟩
  have hc := RoundTrip.check_of_wf hw
  simp only [decodeEnc, decodeWord_0C]
  simp [dec0C, chk, hc]

theorem RoundTrip.wfld (d : BitVec 6) (f : BitVec 9) : RoundTrip.Statement (.wfld d f) := by
  rintro hw e ⟨⟩
  have hc := RoundTrip.check_of_wf hw
  simp only [decodeEnc, decodeWord_0D]
  simp [dec0D, chk, hc]

theorem RoundTrip.wfs (d : BitVec 5) : RoundTrip.Statement (.wfs d) := by
  rintro hw e ⟨⟩
  have hc := RoundTrip.check_of_wf hw
  simp only [decodeEnc, decodeWord_0D]
  simp [dec0D, chk, hc]

theorem RoundTrip.visit (d : BitVec 5) : RoundTrip.Statement (.visit d) := by
  rintro hw e ⟨⟩
  have hc := RoundTrip.check_of_wf hw
  simp only [decodeEnc, decodeWord_0D]
  simp [dec0D, chk, hc]

theorem RoundTrip.emget (d : BitVec 5) : RoundTrip.Statement (.emget d) := by
  rintro hw e ⟨⟩
  have hc := RoundTrip.check_of_wf hw
  simp only [decodeEnc, decodeWord_0D]
  simp [dec0D, chk, hc]

theorem RoundTrip.emput (a : BitVec 5) : RoundTrip.Statement (.emput a) := by
  rintro hw e ⟨⟩
  have hc := RoundTrip.check_of_wf hw
  simp only [decodeEnc, decodeWord_0D]
  simp [dec0D, chk, hc]

theorem RoundTrip.emand (d : BitVec 5) (a : BitVec 3) : RoundTrip.Statement (.emand d a) := by
  rintro hw e ⟨⟩
  have hc := RoundTrip.check_of_wf hw
  simp only [decodeEnc, decodeWord_0D]
  simp [dec0D, chk, hc]

theorem RoundTrip.emor (d : BitVec 5) (a : BitVec 3) : RoundTrip.Statement (.emor d a) := by
  rintro hw e ⟨⟩
  have hc := RoundTrip.check_of_wf hw
  simp only [decodeEnc, decodeWord_0D]
  simp [dec0D, chk, hc]

theorem RoundTrip.rdtime (d : BitVec 5) : RoundTrip.Statement (.rdtime d) := by
  rintro hw e ⟨⟩
  have hc := RoundTrip.check_of_wf hw
  simp only [decodeEnc, decodeWord_0D]
  simp [dec0D, chk, hc]

theorem RoundTrip.rdcnt (d : BitVec 5) : RoundTrip.Statement (.rdcnt d) := by
  rintro hw e ⟨⟩
  have hc := RoundTrip.check_of_wf hw
  simp only [decodeEnc, decodeWord_0D]
  simp [dec0D, chk, hc]

theorem RoundTrip.pcount (d : BitVec 5) : RoundTrip.Statement (.pcount d) := by
  rintro hw e ⟨⟩
  have hc := RoundTrip.check_of_wf hw
  simp only [decodeEnc, decodeWord_0D]
  simp [dec0D, chk, hc]

theorem RoundTrip.fcrget (d : BitVec 5) : RoundTrip.Statement (.fcrget d) := by
  rintro hw e ⟨⟩
  have hc := RoundTrip.check_of_wf hw
  simp only [decodeEnc, decodeWord_0D]
  simp [dec0D, chk, hc]

theorem RoundTrip.fcrput (a : BitVec 5) : RoundTrip.Statement (.fcrput a) := by
  rintro hw e ⟨⟩
  have hc := RoundTrip.check_of_wf hw
  simp only [decodeEnc, decodeWord_0D]
  simp [dec0D, chk, hc]

theorem RoundTrip.lpget (d : BitVec 5) (k : BitVec 9) : RoundTrip.Statement (.lpget d k) := by
  rintro hw e ⟨⟩
  have hc := RoundTrip.check_of_wf hw
  simp only [decodeEnc, decodeWord_0D]
  simp [dec0D, chk, hc]

theorem RoundTrip.rdenergy (d : BitVec 5) : RoundTrip.Statement (.rdenergy d) := by
  rintro hw e ⟨⟩
  have hc := RoundTrip.check_of_wf hw
  simp only [decodeEnc, decodeWord_0D]
  simp [dec0D, chk, hc]

theorem RoundTrip.rdgang (d : BitVec 5) : RoundTrip.Statement (.rdgang d) := by
  rintro hw e ⟨⟩
  have hc := RoundTrip.check_of_wf hw
  simp only [decodeEnc, decodeWord_0D]
  simp [dec0D, chk, hc]

theorem RoundTrip.rdcore (d : BitVec 5) : RoundTrip.Statement (.rdcore d) := by
  rintro hw e ⟨⟩
  have hc := RoundTrip.check_of_wf hw
  simp only [decodeEnc, decodeWord_0D]
  simp [dec0D, chk, hc]

theorem RoundTrip.br (o : BitVec 20) : RoundTrip.Statement (.br o) := by
  rintro hw e ⟨⟩
  have hc := RoundTrip.check_of_wf hw
  simp only [decodeEnc, decodeWord_10]
  simp [dec10, chk, hc]

theorem RoundTrip.brAny (p : BitVec 3) (o : BitVec 20) : RoundTrip.Statement (.brAny p o) := by
  rintro hw e ⟨⟩
  have hc := RoundTrip.check_of_wf hw
  simp only [decodeEnc, decodeWord_10]
  simp [dec10, chk, hc]

theorem RoundTrip.brAll (p : BitVec 3) (o : BitVec 20) : RoundTrip.Statement (.brAll p o) := by
  rintro hw e ⟨⟩
  have hc := RoundTrip.check_of_wf hw
  simp only [decodeEnc, decodeWord_10]
  simp [dec10, chk, hc]

theorem RoundTrip.brNone (p : BitVec 3) (o : BitVec 20) : RoundTrip.Statement (.brNone p o) := by
  rintro hw e ⟨⟩
  have hc := RoundTrip.check_of_wf hw
  simp only [decodeEnc, decodeWord_10]
  simp [dec10, chk, hc]

theorem RoundTrip.jal (d : BitVec 5) (o : BitVec 20) : RoundTrip.Statement (.jal d o) := by
  rintro hw e ⟨⟩
  have hc := RoundTrip.check_of_wf hw
  simp only [decodeEnc, decodeWord_11]
  simp [dec11, chk, hc]

theorem RoundTrip.jr (a : BitVec 5) : RoundTrip.Statement (.jr a) := by
  rintro hw e ⟨⟩
  have hc := RoundTrip.check_of_wf hw
  simp only [decodeEnc, decodeWord_12]
  simp [dec12, chk, hc]

theorem RoundTrip.jalr (d : BitVec 5) (a : BitVec 5) : RoundTrip.Statement (.jalr d a) := by
  rintro hw e ⟨⟩
  have hc := RoundTrip.check_of_wf hw
  simp only [decodeEnc, decodeWord_12]
  simp [dec12, chk, hc]

theorem RoundTrip.loop (l : BitVec 2) (c : BitVec 5) (i : BitVec 1) (e : BitVec 17) : RoundTrip.Statement (.loop l c i e) := by
  rintro hw e ⟨⟩
  have hc := RoundTrip.check_of_wf hw
  simp only [decodeEnc, decodeWord_13]
  simp [dec13, chk, hc]

theorem RoundTrip.lbrk (l : BitVec 2) : RoundTrip.Statement (.lbrk l) := by
  rintro hw e ⟨⟩
  have hc := RoundTrip.check_of_wf hw
  simp only [decodeEnc, decodeWord_14]
  simp [dec14, chk, hc]

theorem RoundTrip.wait (l : BitVec 5) (s : BitVec 5) (c : BitVec 4) (t : BitVec 4) : RoundTrip.Statement (.wait l s c t) := by
  rintro hw e ⟨⟩
  have hc := RoundTrip.check_of_wf hw
  simp only [decodeEnc, decodeWord_15]
  simp [dec15, chk, hc]

theorem RoundTrip.bar  : RoundTrip.Statement (.bar) := by
  rintro hw e ⟨⟩
  have hc := RoundTrip.check_of_wf hw
  simp only [decodeEnc, decodeWord_16]
  simp [dec16, chk, hc]

theorem RoundTrip.barCl  : RoundTrip.Statement (.barCl) := by
  rintro hw e ⟨⟩
  have hc := RoundTrip.check_of_wf hw
  simp only [decodeEnc, decodeWord_16]
  simp [dec16, chk, hc]

theorem RoundTrip.commit  : RoundTrip.Statement (.commit) := by
  rintro hw e ⟨⟩
  have hc := RoundTrip.check_of_wf hw
  simp only [decodeEnc, decodeWord_16]
  simp [dec16, chk, hc]

theorem RoundTrip.halt  : RoundTrip.Statement (.halt) := by
  rintro hw e ⟨⟩
  have hc := RoundTrip.check_of_wf hw
  simp only [decodeEnc, decodeWord_16]
  simp [dec16, chk, hc]

theorem RoundTrip.yield  : RoundTrip.Statement (.yield) := by
  rintro hw e ⟨⟩
  have hc := RoundTrip.check_of_wf hw
  simp only [decodeEnc, decodeWord_16]
  simp [dec16, chk, hc]

theorem RoundTrip.nop  : RoundTrip.Statement (.nop) := by
  rintro hw e ⟨⟩
  have hc := RoundTrip.check_of_wf hw
  simp only [decodeEnc, decodeWord_16]
  simp [dec16, chk, hc]

theorem RoundTrip.sleep (s : BitVec 5) : RoundTrip.Statement (.sleep s) := by
  rintro hw e ⟨⟩
  have hc := RoundTrip.check_of_wf hw
  simp only [decodeEnc, decodeWord_16]
  simp [dec16, chk, hc]

theorem RoundTrip.trap (n : BitVec 6) : RoundTrip.Statement (.trap n) := by
  rintro hw e ⟨⟩
  have hc := RoundTrip.check_of_wf hw
  simp only [decodeEnc, decodeWord_17]
  simp [dec17, chk, hc]

theorem RoundTrip.sys (n : BitVec 6) : RoundTrip.Statement (.sys n) := by
  rintro hw e ⟨⟩
  have hc := RoundTrip.check_of_wf hw
  simp only [decodeEnc, decodeWord_17]
  simp [dec17, chk, hc]

theorem RoundTrip.eret  : RoundTrip.Statement (.eret) := by
  rintro hw e ⟨⟩
  have hc := RoundTrip.check_of_wf hw
  simp only [decodeEnc, decodeWord_17]
  simp [dec17, chk, hc]

theorem RoundTrip.brk (n : BitVec 6) : RoundTrip.Statement (.brk n) := by
  rintro hw e ⟨⟩
  have hc := RoundTrip.check_of_wf hw
  simp only [decodeEnc, decodeWord_17]
  simp [dec17, chk, hc]

theorem RoundTrip.ldB8Z (d : BitVec 6) (a : BitVec 4) (v : BitVec 6) (i : BitVec 5) : RoundTrip.Statement (.ldB8Z d a v i) := by
  rintro hw e ⟨⟩
  have hc := RoundTrip.check_of_wf hw
  simp only [decodeEnc, decodeWord_18]
  simp [dec18, chk, hc]

theorem RoundTrip.ldB8S (d : BitVec 6) (a : BitVec 4) (v : BitVec 6) (i : BitVec 5) : RoundTrip.Statement (.ldB8S d a v i) := by
  rintro hw e ⟨⟩
  have hc := RoundTrip.check_of_wf hw
  simp only [decodeEnc, decodeWord_18]
  simp [dec18, chk, hc]

theorem RoundTrip.ldB16Z (d : BitVec 6) (a : BitVec 4) (v : BitVec 6) (i : BitVec 5) : RoundTrip.Statement (.ldB16Z d a v i) := by
  rintro hw e ⟨⟩
  have hc := RoundTrip.check_of_wf hw
  simp only [decodeEnc, decodeWord_18]
  simp [dec18, chk, hc]

theorem RoundTrip.ldB16S (d : BitVec 6) (a : BitVec 4) (v : BitVec 6) (i : BitVec 5) : RoundTrip.Statement (.ldB16S d a v i) := by
  rintro hw e ⟨⟩
  have hc := RoundTrip.check_of_wf hw
  simp only [decodeEnc, decodeWord_18]
  simp [dec18, chk, hc]

theorem RoundTrip.ldB32 (d : BitVec 6) (a : BitVec 4) (v : BitVec 6) (i : BitVec 5) : RoundTrip.Statement (.ldB32 d a v i) := by
  rintro hw e ⟨⟩
  have hc := RoundTrip.check_of_wf hw
  simp only [decodeEnc, decodeWord_18]
  simp [dec18, chk, hc]

theorem RoundTrip.ldB64 (d : BitVec 6) (a : BitVec 4) (v : BitVec 6) (i : BitVec 5) : RoundTrip.Statement (.ldB64 d a v i) := by
  rintro hw e ⟨⟩
  have hc := RoundTrip.check_of_wf hw
  simp only [decodeEnc, decodeWord_18]
  simp [dec18, chk, hc]

theorem RoundTrip.ldB128 (d : BitVec 6) (a : BitVec 4) (v : BitVec 6) (i : BitVec 5) : RoundTrip.Statement (.ldB128 d a v i) := by
  rintro hw e ⟨⟩
  have hc := RoundTrip.check_of_wf hw
  simp only [decodeEnc, decodeWord_18]
  simp [dec18, chk, hc]

theorem RoundTrip.ldE (d : BitVec 6) (a : BitVec 4) (v : BitVec 6) (i : BitVec 5) : RoundTrip.Statement (.ldE d a v i) := by
  rintro hw e ⟨⟩
  have hc := RoundTrip.check_of_wf hw
  simp only [decodeEnc, decodeWord_18]
  simp [dec18, chk, hc]

theorem RoundTrip.ldEI (d : BitVec 6) (a : BitVec 4) (v : BitVec 6) (i : BitVec 5) : RoundTrip.Statement (.ldEI d a v i) := by
  rintro hw e ⟨⟩
  have hc := RoundTrip.check_of_wf hw
  simp only [decodeEnc, decodeWord_18]
  simp [dec18, chk, hc]

theorem RoundTrip.ldUn (d : BitVec 6) (a : BitVec 4) (i : BitVec 5) : RoundTrip.Statement (.ldUn d a i) := by
  rintro hw e ⟨⟩
  have hc := RoundTrip.check_of_wf hw
  simp only [decodeEnc, decodeWord_18]
  simp [dec18, chk, hc]

theorem RoundTrip.ldNc (d : BitVec 6) (a : BitVec 4) (v : BitVec 6) (i : BitVec 5) : RoundTrip.Statement (.ldNc d a v i) := by
  rintro hw e ⟨⟩
  have hc := RoundTrip.check_of_wf hw
  simp only [decodeEnc, decodeWord_18]
  simp [dec18, chk, hc]

theorem RoundTrip.ldAcq (d : BitVec 6) (a : BitVec 4) (v : BitVec 6) (s : BitVec 3) : RoundTrip.Statement (.ldAcq d a v s) := by
  rintro hw e ⟨⟩
  have hc := RoundTrip.check_of_wf hw
  simp only [decodeEnc, decodeWord_18]
  simp [dec18, chk, need, hc]

theorem RoundTrip.stB8 (d : BitVec 6) (a : BitVec 4) (v : BitVec 6) (i : BitVec 5) : RoundTrip.Statement (.stB8 d a v i) := by
  rintro hw e ⟨⟩
  have hc := RoundTrip.check_of_wf hw
  simp only [decodeEnc, decodeWord_19]
  simp [dec19, chk, hc]

theorem RoundTrip.stB16 (d : BitVec 6) (a : BitVec 4) (v : BitVec 6) (i : BitVec 5) : RoundTrip.Statement (.stB16 d a v i) := by
  rintro hw e ⟨⟩
  have hc := RoundTrip.check_of_wf hw
  simp only [decodeEnc, decodeWord_19]
  simp [dec19, chk, hc]

theorem RoundTrip.stB32 (d : BitVec 6) (a : BitVec 4) (v : BitVec 6) (i : BitVec 5) : RoundTrip.Statement (.stB32 d a v i) := by
  rintro hw e ⟨⟩
  have hc := RoundTrip.check_of_wf hw
  simp only [decodeEnc, decodeWord_19]
  simp [dec19, chk, hc]

theorem RoundTrip.stB64 (d : BitVec 6) (a : BitVec 4) (v : BitVec 6) (i : BitVec 5) : RoundTrip.Statement (.stB64 d a v i) := by
  rintro hw e ⟨⟩
  have hc := RoundTrip.check_of_wf hw
  simp only [decodeEnc, decodeWord_19]
  simp [dec19, chk, hc]

theorem RoundTrip.stB128 (d : BitVec 6) (a : BitVec 4) (v : BitVec 6) (i : BitVec 5) : RoundTrip.Statement (.stB128 d a v i) := by
  rintro hw e ⟨⟩
  have hc := RoundTrip.check_of_wf hw
  simp only [decodeEnc, decodeWord_19]
  simp [dec19, chk, hc]

theorem RoundTrip.stE (d : BitVec 6) (a : BitVec 4) (v : BitVec 6) (i : BitVec 5) : RoundTrip.Statement (.stE d a v i) := by
  rintro hw e ⟨⟩
  have hc := RoundTrip.check_of_wf hw
  simp only [decodeEnc, decodeWord_19]
  simp [dec19, chk, hc]

theorem RoundTrip.stEI (d : BitVec 6) (a : BitVec 4) (v : BitVec 6) (i : BitVec 5) : RoundTrip.Statement (.stEI d a v i) := by
  rintro hw e ⟨⟩
  have hc := RoundTrip.check_of_wf hw
  simp only [decodeEnc, decodeWord_19]
  simp [dec19, chk, hc]

theorem RoundTrip.stRel (d : BitVec 6) (a : BitVec 4) (v : BitVec 6) (s : BitVec 3) : RoundTrip.Statement (.stRel d a v s) := by
  rintro hw e ⟨⟩
  have hc := RoundTrip.check_of_wf hw
  simp only [decodeEnc, decodeWord_19]
  simp [dec19, chk, need, hc]

theorem RoundTrip.stB4 (d : BitVec 6) (a : BitVec 4) (v : BitVec 6) (i : BitVec 5) : RoundTrip.Statement (.stB4 d a v i) := by
  rintro hw e ⟨⟩
  have hc := RoundTrip.check_of_wf hw
  simp only [decodeEnc, decodeWord_19]
  simp [dec19, chk, hc]

theorem RoundTrip.stB1 (d : BitVec 6) (a : BitVec 4) (v : BitVec 6) (i : BitVec 5) : RoundTrip.Statement (.stB1 d a v i) := by
  rintro hw e ⟨⟩
  have hc := RoundTrip.check_of_wf hw
  simp only [decodeEnc, decodeWord_19]
  simp [dec19, chk, hc]

theorem RoundTrip.ldsB64 (d : BitVec 5) (a : BitVec 4) (i : BitVec 5) : RoundTrip.Statement (.ldsB64 d a i) := by
  rintro hw e ⟨⟩
  have hc := RoundTrip.check_of_wf hw
  simp only [decodeEnc, decodeWord_1A]
  simp [dec1A, chk, hc]

theorem RoundTrip.ldsB32 (d : BitVec 5) (a : BitVec 4) (i : BitVec 5) : RoundTrip.Statement (.ldsB32 d a i) := by
  rintro hw e ⟨⟩
  have hc := RoundTrip.check_of_wf hw
  simp only [decodeEnc, decodeWord_1A]
  simp [dec1A, chk, hc]

theorem RoundTrip.stsB64 (d : BitVec 5) (a : BitVec 4) (i : BitVec 5) : RoundTrip.Statement (.stsB64 d a i) := by
  rintro hw e ⟨⟩
  have hc := RoundTrip.check_of_wf hw
  simp only [decodeEnc, decodeWord_1A]
  simp [dec1A, chk, hc]

theorem RoundTrip.stsB32 (d : BitVec 5) (a : BitVec 4) (i : BitVec 5) : RoundTrip.Statement (.stsB32 d a i) := by
  rintro hw e ⟨⟩
  have hc := RoundTrip.check_of_wf hw
  simp only [decodeEnc, decodeWord_1A]
  simp [dec1A, chk, hc]

theorem RoundTrip.lda (d : BitVec 4) (a : BitVec 4) (i : BitVec 5) : RoundTrip.Statement (.lda d a i) := by
  rintro hw e ⟨⟩
  have hc := RoundTrip.check_of_wf hw
  simp only [decodeEnc, decodeWord_1A]
  simp [dec1A, chk, hc]

theorem RoundTrip.sta (d : BitVec 4) (a : BitVec 4) (i : BitVec 5) : RoundTrip.Statement (.sta d a i) := by
  rintro hw e ⟨⟩
  have hc := RoundTrip.check_of_wf hw
  simp only [decodeEnc, decodeWord_1A]
  simp [dec1A, chk, hc]

theorem RoundTrip.ldsAcq (d : BitVec 5) (a : BitVec 4) (s : BitVec 3) : RoundTrip.Statement (.ldsAcq d a s) := by
  rintro hw e ⟨⟩
  have hc := RoundTrip.check_of_wf hw
  simp only [decodeEnc, decodeWord_1A]
  simp [dec1A, chk, need, hc]

theorem RoundTrip.stsRel (d : BitVec 5) (a : BitVec 4) (s : BitVec 3) : RoundTrip.Statement (.stsRel d a s) := by
  rintro hw e ⟨⟩
  have hc := RoundTrip.check_of_wf hw
  simp only [decodeEnc, decodeWord_1A]
  simp [dec1A, chk, need, hc]

theorem RoundTrip.lspB32 (d : BitVec 6) (s : BitVec 4) (v : BitVec 6) (i : BitVec 5) : RoundTrip.Statement (.lspB32 d s v i) := by
  rintro hw e ⟨⟩
  have hc := RoundTrip.check_of_wf hw
  simp only [decodeEnc, decodeWord_1B]
  simp [dec1B, chk, hc]

theorem RoundTrip.lspB64 (d : BitVec 5) (s : BitVec 4) (i : BitVec 5) : RoundTrip.Statement (.lspB64 d s i) := by
  rintro hw e ⟨⟩
  have hc := RoundTrip.check_of_wf hw
  simp only [decodeEnc, decodeWord_1B]
  simp [dec1B, chk, hc]

theorem RoundTrip.lspB128 (d : BitVec 4) (s : BitVec 4) (i : BitVec 5) : RoundTrip.Statement (.lspB128 d s i) := by
  rintro hw e ⟨⟩
  have hc := RoundTrip.check_of_wf hw
  simp only [decodeEnc, decodeWord_1B]
  simp [dec1B, chk, hc]

theorem RoundTrip.sspB32 (d : BitVec 6) (s : BitVec 4) (v : BitVec 6) (i : BitVec 5) : RoundTrip.Statement (.sspB32 d s v i) := by
  rintro hw e ⟨⟩
  have hc := RoundTrip.check_of_wf hw
  simp only [decodeEnc, decodeWord_1B]
  simp [dec1B, chk, hc]

theorem RoundTrip.sspB64 (d : BitVec 5) (s : BitVec 4) (i : BitVec 5) : RoundTrip.Statement (.sspB64 d s i) := by
  rintro hw e ⟨⟩
  have hc := RoundTrip.check_of_wf hw
  simp only [decodeEnc, decodeWord_1B]
  simp [dec1B, chk, hc]

theorem RoundTrip.sspB128 (d : BitVec 4) (s : BitVec 4) (i : BitVec 5) : RoundTrip.Statement (.sspB128 d s i) := by
  rintro hw e ⟨⟩
  have hc := RoundTrip.check_of_wf hw
  simp only [decodeEnc, decodeWord_1B]
  simp [dec1B, chk, hc]

theorem RoundTrip.atomAdd (d : BitVec 6) (a : BitVec 4) (v : BitVec 6) (s : BitVec 3) (o : BitVec 2) : RoundTrip.Statement (.atomAdd d a v s o) := by
  rintro hw e ⟨⟩
  have hc := RoundTrip.check_of_wf hw
  simp only [decodeEnc, decodeWord_1C]
  simp [dec1C, chk, hc]

theorem RoundTrip.atomFadd (d : BitVec 6) (a : BitVec 4) (v : BitVec 6) (s : BitVec 3) (o : BitVec 2) : RoundTrip.Statement (.atomFadd d a v s o) := by
  rintro hw e ⟨⟩
  have hc := RoundTrip.check_of_wf hw
  simp only [decodeEnc, decodeWord_1C]
  simp [dec1C, chk, hc]

theorem RoundTrip.atomMinS (d : BitVec 6) (a : BitVec 4) (v : BitVec 6) (s : BitVec 3) (o : BitVec 2) : RoundTrip.Statement (.atomMinS d a v s o) := by
  rintro hw e ⟨⟩
  have hc := RoundTrip.check_of_wf hw
  simp only [decodeEnc, decodeWord_1C]
  simp [dec1C, chk, hc]

theorem RoundTrip.atomMaxS (d : BitVec 6) (a : BitVec 4) (v : BitVec 6) (s : BitVec 3) (o : BitVec 2) : RoundTrip.Statement (.atomMaxS d a v s o) := by
  rintro hw e ⟨⟩
  have hc := RoundTrip.check_of_wf hw
  simp only [decodeEnc, decodeWord_1C]
  simp [dec1C, chk, hc]

theorem RoundTrip.atomMinZ (d : BitVec 6) (a : BitVec 4) (v : BitVec 6) (s : BitVec 3) (o : BitVec 2) : RoundTrip.Statement (.atomMinZ d a v s o) := by
  rintro hw e ⟨⟩
  have hc := RoundTrip.check_of_wf hw
  simp only [decodeEnc, decodeWord_1C]
  simp [dec1C, chk, hc]

theorem RoundTrip.atomMaxZ (d : BitVec 6) (a : BitVec 4) (v : BitVec 6) (s : BitVec 3) (o : BitVec 2) : RoundTrip.Statement (.atomMaxZ d a v s o) := by
  rintro hw e ⟨⟩
  have hc := RoundTrip.check_of_wf hw
  simp only [decodeEnc, decodeWord_1C]
  simp [dec1C, chk, hc]

theorem RoundTrip.atomAnd (d : BitVec 6) (a : BitVec 4) (v : BitVec 6) (s : BitVec 3) (o : BitVec 2) : RoundTrip.Statement (.atomAnd d a v s o) := by
  rintro hw e ⟨⟩
  have hc := RoundTrip.check_of_wf hw
  simp only [decodeEnc, decodeWord_1C]
  simp [dec1C, chk, hc]

theorem RoundTrip.atomOr (d : BitVec 6) (a : BitVec 4) (v : BitVec 6) (s : BitVec 3) (o : BitVec 2) : RoundTrip.Statement (.atomOr d a v s o) := by
  rintro hw e ⟨⟩
  have hc := RoundTrip.check_of_wf hw
  simp only [decodeEnc, decodeWord_1C]
  simp [dec1C, chk, hc]

theorem RoundTrip.atomXor (d : BitVec 6) (a : BitVec 4) (v : BitVec 6) (s : BitVec 3) (o : BitVec 2) : RoundTrip.Statement (.atomXor d a v s o) := by
  rintro hw e ⟨⟩
  have hc := RoundTrip.check_of_wf hw
  simp only [decodeEnc, decodeWord_1C]
  simp [dec1C, chk, hc]

theorem RoundTrip.atomXchg (d : BitVec 6) (a : BitVec 4) (v : BitVec 6) (s : BitVec 3) (o : BitVec 2) : RoundTrip.Statement (.atomXchg d a v s o) := by
  rintro hw e ⟨⟩
  have hc := RoundTrip.check_of_wf hw
  simp only [decodeEnc, decodeWord_1C]
  simp [dec1C, chk, hc]

theorem RoundTrip.atomCas (d : BitVec 6) (a : BitVec 4) (v : BitVec 6) (s : BitVec 3) (o : BitVec 2) : RoundTrip.Statement (.atomCas d a v s o) := by
  rintro hw e ⟨⟩
  have hc := RoundTrip.check_of_wf hw
  simp only [decodeEnc, decodeWord_1C]
  simp [dec1C, chk, hc]

theorem RoundTrip.atomAdd64 (d : BitVec 6) (a : BitVec 4) (v : BitVec 6) (s : BitVec 3) (o : BitVec 2) : RoundTrip.Statement (.atomAdd64 d a v s o) := by
  rintro hw e ⟨⟩
  have hc := RoundTrip.check_of_wf hw
  simp only [decodeEnc, decodeWord_1C]
  simp [dec1C, chk, hc]

theorem RoundTrip.atomCas64 (d : BitVec 6) (a : BitVec 4) (v : BitVec 6) (s : BitVec 3) (o : BitVec 2) : RoundTrip.Statement (.atomCas64 d a v s o) := by
  rintro hw e ⟨⟩
  have hc := RoundTrip.check_of_wf hw
  simp only [decodeEnc, decodeWord_1C]
  simp [dec1C, chk, hc]

theorem RoundTrip.atomInc (d : BitVec 6) (a : BitVec 4) (v : BitVec 6) (s : BitVec 3) (o : BitVec 2) : RoundTrip.Statement (.atomInc d a v s o) := by
  rintro hw e ⟨⟩
  have hc := RoundTrip.check_of_wf hw
  simp only [decodeEnc, decodeWord_1C]
  simp [dec1C, chk, hc]

theorem RoundTrip.redMemAdd (d : BitVec 6) (a : BitVec 4) (v : BitVec 6) (s : BitVec 3) (o : BitVec 2) : RoundTrip.Statement (.redMemAdd d a v s o) := by
  rintro hw e ⟨⟩
  have hc := RoundTrip.check_of_wf hw
  simp only [decodeEnc, decodeWord_1C]
  simp [dec1C, chk, hc]

theorem RoundTrip.redMemFadd (d : BitVec 6) (a : BitVec 4) (v : BitVec 6) (s : BitVec 3) (o : BitVec 2) : RoundTrip.Statement (.redMemFadd d a v s o) := by
  rintro hw e ⟨⟩
  have hc := RoundTrip.check_of_wf hw
  simp only [decodeEnc, decodeWord_1C]
  simp [dec1C, chk, hc]

theorem RoundTrip.fence (s : BitVec 3) (o : BitVec 2) : RoundTrip.Statement (.fence s o) := by
  rintro hw e ⟨⟩
  have hc := RoundTrip.check_of_wf hw
  simp only [decodeEnc, decodeWord_1D]
  simp [dec1D, chk, hc]

theorem RoundTrip.mon (a : BitVec 4) (i : BitVec 5) : RoundTrip.Statement (.mon a i) := by
  rintro hw e ⟨⟩
  have hc := RoundTrip.check_of_wf hw
  simp only [decodeEnc, decodeWord_1D]
  simp [dec1D, chk, hc]

theorem RoundTrip.mwait  : RoundTrip.Statement (.mwait) := by
  rintro hw e ⟨⟩
  have hc := RoundTrip.check_of_wf hw
  simp only [decodeEnc, decodeWord_1D]
  simp [dec1D, chk, hc]

theorem RoundTrip.cflush (a : BitVec 4) (v : BitVec 6) (i : BitVec 5) : RoundTrip.Statement (.cflush a v i) := by
  rintro hw e ⟨⟩
  have hc := RoundTrip.check_of_wf hw
  simp only [decodeEnc, decodeWord_1D]
  simp [dec1D, chk, hc]

theorem RoundTrip.cinv (a : BitVec 4) (v : BitVec 6) (i : BitVec 5) : RoundTrip.Statement (.cinv a v i) := by
  rintro hw e ⟨⟩
  have hc := RoundTrip.check_of_wf hw
  simp only [decodeEnc, decodeWord_1D]
  simp [dec1D, chk, hc]

theorem RoundTrip.ifence  : RoundTrip.Statement (.ifence) := by
  rintro hw e ⟨⟩
  have hc := RoundTrip.check_of_wf hw
  simp only [decodeEnc, decodeWord_1D]
  simp [dec1D, chk, hc]

theorem RoundTrip.dtens (s : BitVec 5) : RoundTrip.Statement (.dtens s) := by
  rintro hw e ⟨⟩
  have hc := RoundTrip.check_of_wf hw
  simp only [decodeEnc, decodeWord_1D]
  simp [dec1D, chk, hc]

theorem RoundTrip.ttag (s : BitVec 5) : RoundTrip.Statement (.ttag s) := by
  rintro hw e ⟨⟩
  have hc := RoundTrip.check_of_wf hw
  simp only [decodeEnc, decodeWord_1D]
  simp [dec1D, chk, hc]

theorem RoundTrip.pref (n : BitVec 6) (a : BitVec 4) (v : BitVec 6) (i : BitVec 5) : RoundTrip.Statement (.pref n a v i) := by
  rintro hw e ⟨⟩
  have hc := RoundTrip.check_of_wf hw
  simp only [decodeEnc, decodeWord_1D]
  simp [dec1D, chk, hc]

theorem RoundTrip.tdset (t : BitVec 4) (a : BitVec 4) (s : BitVec 5) (i : BitVec 6) : RoundTrip.Statement (.tdset t a s i) := by
  rintro hw e ⟨⟩
  have hc := RoundTrip.check_of_wf hw
  simp only [decodeEnc, decodeWord_20]
  simp [dec20, chk, hc]

theorem RoundTrip.tdoff (t : BitVec 4) (a : BitVec 5) (b : BitVec 5) (k : BitVec 6) : RoundTrip.Statement (.tdoff t a b k) := by
  rintro hw e ⟨⟩
  have hc := RoundTrip.check_of_wf hw
  simp only [decodeEnc, decodeWord_20]
  simp [dec20, chk, hc]

theorem RoundTrip.tdpl (t : BitVec 4) (v : BitVec 5) (p : BitVec 6) : RoundTrip.Statement (.tdpl t v p) := by
  rintro hw e ⟨⟩
  have hc := RoundTrip.check_of_wf hw
  simp only [decodeEnc, decodeWord_20]
  simp [dec20, chk, hc]

theorem RoundTrip.tdget (d : BitVec 5) (t : BitVec 4) (k : BitVec 6) : RoundTrip.Statement (.tdget d t k) := by
  rintro hw e ⟨⟩
  have hc := RoundTrip.check_of_wf hw
  simp only [decodeEnc, decodeWord_20]
  simp [dec20, chk, hc]

theorem RoundTrip.tload (t : BitVec 4) : RoundTrip.Statement (.tload t) := by
  rintro hw e ⟨⟩
  have hc := RoundTrip.check_of_wf hw
  simp only [decodeEnc, decodeWord_21]
  simp [dec21, chk, hc]

theorem RoundTrip.tloadT (t : BitVec 4) : RoundTrip.Statement (.tloadT t) := by
  rintro hw e ⟨⟩
  have hc := RoundTrip.check_of_wf hw
  simp only [decodeEnc, decodeWord_21]
  simp [dec21, chk, hc]

theorem RoundTrip.tloadSp (t : BitVec 4) : RoundTrip.Statement (.tloadSp t) := by
  rintro hw e ⟨⟩
  have hc := RoundTrip.check_of_wf hw
  simp only [decodeEnc, decodeWord_21]
  simp [dec21, chk, hc]

theorem RoundTrip.tloadRaw (t : BitVec 4) : RoundTrip.Statement (.tloadRaw t) := by
  rintro hw e ⟨⟩
  have hc := RoundTrip.check_of_wf hw
  simp only [decodeEnc, decodeWord_21]
  simp [dec21, chk, hc]

theorem RoundTrip.tstore (t : BitVec 4) (c : BitVec 6) : RoundTrip.Statement (.tstore t c) := by
  rintro hw e ⟨⟩
  have hc := RoundTrip.check_of_wf hw
  simp only [decodeEnc, decodeWord_22]
  simp [dec22, chk, hc]

theorem RoundTrip.tstoreT (t : BitVec 4) (c : BitVec 6) : RoundTrip.Statement (.tstoreT t c) := by
  rintro hw e ⟨⟩
  have hc := RoundTrip.check_of_wf hw
  simp only [decodeEnc, decodeWord_22]
  simp [dec22, chk, hc]

theorem RoundTrip.tstorePair (t : BitVec 4) (c : BitVec 6) : RoundTrip.Statement (.tstorePair t c) := by
  rintro hw e ⟨⟩
  have hc := RoundTrip.check_of_wf hw
  simp only [decodeEnc, decodeWord_22]
  simp [dec22, chk, hc]

theorem RoundTrip.tstoreAdd (t : BitVec 4) (c : BitVec 6) : RoundTrip.Statement (.tstoreAdd t c) := by
  rintro hw e ⟨⟩
  have hc := RoundTrip.check_of_wf hw
  simp only [decodeEnc, decodeWord_22]
  simp [dec22, chk, hc]

theorem RoundTrip.mma (c : BitVec 4) (a : BitVec 4) (b : BitVec 4) (m : BitVec 1) (n : BitVec 1) (z : BitVec 1) (g : BitVec 3) : RoundTrip.Statement (.mma c a b m n z g) := by
  rintro hw e ⟨⟩
  have hc := RoundTrip.check_of_wf hw
  simp only [decodeEnc, decodeWord_23]
  simp [dec23, chk, group, hc]

theorem RoundTrip.mmxXor (c : BitVec 4) (a : BitVec 4) (b : BitVec 4) (z : BitVec 1) (g : BitVec 3) : RoundTrip.Statement (.mmxXor c a b z g) := by
  rintro hw e ⟨⟩
  have hc := RoundTrip.check_of_wf hw
  simp only [decodeEnc, decodeWord_23]
  simp [dec23, chk, group, hc]

theorem RoundTrip.mmxAnd (c : BitVec 4) (a : BitVec 4) (b : BitVec 4) (z : BitVec 1) (g : BitVec 3) : RoundTrip.Statement (.mmxAnd c a b z g) := by
  rintro hw e ⟨⟩
  have hc := RoundTrip.check_of_wf hw
  simp only [decodeEnc, decodeWord_23]
  simp [dec23, chk, group, hc]

theorem RoundTrip.mms (c : BitVec 4) (a : BitVec 4) (b : BitVec 4) (m : BitVec 1) (n : BitVec 1) (z : BitVec 1) (g : BitVec 3) : RoundTrip.Statement (.mms c a b m n z g) := by
  rintro hw e ⟨⟩
  have hc := RoundTrip.check_of_wf hw
  simp only [decodeEnc, decodeWord_23]
  simp [dec23, chk, group, hc]

theorem RoundTrip.mml (c : BitVec 4) (a : BitVec 4) (b : BitVec 4) (m : BitVec 1) (n : BitVec 1) (z : BitVec 1) (g : BitVec 3) : RoundTrip.Statement (.mml c a b m n z g) := by
  rintro hw e ⟨⟩
  have hc := RoundTrip.check_of_wf hw
  simp only [decodeEnc, decodeWord_23]
  simp [dec23, chk, group, hc]

theorem RoundTrip.mmaQ (c : BitVec 6) (a : BitVec 4) (b : BitVec 4) (m : BitVec 1) (n : BitVec 1) (z : BitVec 1) (g : BitVec 3) : RoundTrip.Statement (.mmaQ c a b m n z g) := by
  rintro hw e ⟨⟩
  have hc := RoundTrip.check_of_wf hw
  simp only [decodeEnc, decodeWord_23]
  simp [dec23, chk, hc]

theorem RoundTrip.mmxXorQ (c : BitVec 6) (a : BitVec 4) (b : BitVec 4) (z : BitVec 1) (g : BitVec 3) : RoundTrip.Statement (.mmxXorQ c a b z g) := by
  rintro hw e ⟨⟩
  have hc := RoundTrip.check_of_wf hw
  simp only [decodeEnc, decodeWord_23]
  simp [dec23, chk, hc]

theorem RoundTrip.mmxAndQ (c : BitVec 6) (a : BitVec 4) (b : BitVec 4) (z : BitVec 1) (g : BitVec 3) : RoundTrip.Statement (.mmxAndQ c a b z g) := by
  rintro hw e ⟨⟩
  have hc := RoundTrip.check_of_wf hw
  simp only [decodeEnc, decodeWord_23]
  simp [dec23, chk, hc]

theorem RoundTrip.mmsQ (c : BitVec 6) (a : BitVec 4) (b : BitVec 4) (m : BitVec 1) (n : BitVec 1) (z : BitVec 1) (g : BitVec 3) : RoundTrip.Statement (.mmsQ c a b m n z g) := by
  rintro hw e ⟨⟩
  have hc := RoundTrip.check_of_wf hw
  simp only [decodeEnc, decodeWord_23]
  simp [dec23, chk, hc]

theorem RoundTrip.mmlQ (c : BitVec 6) (a : BitVec 4) (b : BitVec 4) (m : BitVec 1) (n : BitVec 1) (z : BitVec 1) (g : BitVec 3) : RoundTrip.Statement (.mmlQ c a b m n z g) := by
  rintro hw e ⟨⟩
  have hc := RoundTrip.check_of_wf hw
  simp only [decodeEnc, decodeWord_23]
  simp [dec23, chk, hc]

theorem RoundTrip.tfence  : RoundTrip.Statement (.tfence) := by
  rintro hw e ⟨⟩
  have hc := RoundTrip.check_of_wf hw
  simp only [decodeEnc, decodeWord_24]
  simp [dec24, chk, hc]

theorem RoundTrip.accz (d : BitVec 6) : RoundTrip.Statement (.accz d) := by
  rintro hw e ⟨⟩
  have hc := RoundTrip.check_of_wf hw
  simp only [decodeEnc, decodeWord_24]
  simp [dec24, chk, hc]

theorem RoundTrip.accrd (d : BitVec 6) (a : BitVec 6) (r : BitVec 3) (f : BitVec 3) : RoundTrip.Statement (.accrd d a r f) := by
  rintro hw e ⟨⟩
  have hc := RoundTrip.check_of_wf hw
  simp only [decodeEnc, decodeWord_24]
  simp [dec24, chk, hc]

theorem RoundTrip.accrdp (d : BitVec 6) (a : BitVec 6) (r : BitVec 3) (p : BitVec 1) : RoundTrip.Statement (.accrdp d a r p) := by
  rintro hw e ⟨⟩
  have hc := RoundTrip.check_of_wf hw
  simp only [decodeEnc, decodeWord_24]
  simp [dec24, chk, hc]

theorem RoundTrip.accwr (d : BitVec 6) (a : BitVec 6) (r : BitVec 3) (p : BitVec 2) : RoundTrip.Statement (.accwr d a r p) := by
  rintro hw e ⟨⟩
  have hc := RoundTrip.check_of_wf hw
  simp only [decodeEnc, decodeWord_24]
  simp [dec24, chk, hc]

theorem RoundTrip.accneg (d : BitVec 6) : RoundTrip.Statement (.accneg d) := by
  rintro hw e ⟨⟩
  have hc := RoundTrip.check_of_wf hw
  simp only [decodeEnc, decodeWord_24]
  simp [dec24, chk, hc]

theorem RoundTrip.copyMm (a : BitVec 5) (b : BitVec 5) (c : BitVec 5) (g : BitVec 3) (k : BitVec 3) : RoundTrip.Statement (.copyMm a b c g k) := by
  rintro hw e ⟨⟩
  have hc := RoundTrip.check_of_wf hw
  simp only [decodeEnc, decodeWord_28]
  simp [dec28, chk, hc]

theorem RoundTrip.copyMs (a : BitVec 5) (b : BitVec 5) (c : BitVec 5) (g : BitVec 3) (k : BitVec 3) : RoundTrip.Statement (.copyMs a b c g k) := by
  rintro hw e ⟨⟩
  have hc := RoundTrip.check_of_wf hw
  simp only [decodeEnc, decodeWord_28]
  simp [dec28, chk, hc]

theorem RoundTrip.copyMb (a : BitVec 5) (b : BitVec 5) (c : BitVec 5) (g : BitVec 3) (k : BitVec 3) : RoundTrip.Statement (.copyMb a b c g k) := by
  rintro hw e ⟨⟩
  have hc := RoundTrip.check_of_wf hw
  simp only [decodeEnc, decodeWord_28]
  simp [dec28, chk, hc]

theorem RoundTrip.copyMl (a : BitVec 5) (b : BitVec 5) (c : BitVec 5) (g : BitVec 3) (k : BitVec 3) : RoundTrip.Statement (.copyMl a b c g k) := by
  rintro hw e ⟨⟩
  have hc := RoundTrip.check_of_wf hw
  simp only [decodeEnc, decodeWord_28]
  simp [dec28, chk, hc]

theorem RoundTrip.copyMt (a : BitVec 5) (b : BitVec 5) (c : BitVec 5) (g : BitVec 3) (k : BitVec 3) : RoundTrip.Statement (.copyMt a b c g k) := by
  rintro hw e ⟨⟩
  have hc := RoundTrip.check_of_wf hw
  simp only [decodeEnc, decodeWord_28]
  simp [dec28, chk, hc]

theorem RoundTrip.copySm (a : BitVec 5) (b : BitVec 5) (c : BitVec 5) (g : BitVec 3) (k : BitVec 3) : RoundTrip.Statement (.copySm a b c g k) := by
  rintro hw e ⟨⟩
  have hc := RoundTrip.check_of_wf hw
  simp only [decodeEnc, decodeWord_28]
  simp [dec28, chk, hc]

theorem RoundTrip.copyBg (a : BitVec 5) (b : BitVec 5) (c : BitVec 5) (g : BitVec 3) (k : BitVec 3) : RoundTrip.Statement (.copyBg a b c g k) := by
  rintro hw e ⟨⟩
  have hc := RoundTrip.check_of_wf hw
  simp only [decodeEnc, decodeWord_28]
  simp [dec28, chk, hc]

theorem RoundTrip.copyPut (a : BitVec 5) (b : BitVec 5) (c : BitVec 5) (g : BitVec 3) (k : BitVec 3) : RoundTrip.Statement (.copyPut a b c g k) := by
  rintro hw e ⟨⟩
  have hc := RoundTrip.check_of_wf hw
  simp only [decodeEnc, decodeWord_28]
  simp [dec28, chk, hc]

theorem RoundTrip.copyGet (a : BitVec 5) (b : BitVec 5) (c : BitVec 5) (g : BitVec 3) (k : BitVec 3) : RoundTrip.Statement (.copyGet a b c g k) := by
  rintro hw e ⟨⟩
  have hc := RoundTrip.check_of_wf hw
  simp only [decodeEnc, decodeWord_28]
  simp [dec28, chk, hc]

theorem RoundTrip.tgset (a : BitVec 5) (b : BitVec 5) (n : BitVec 3) : RoundTrip.Statement (.tgset a b n) := by
  rintro hw e ⟨⟩
  have hc := RoundTrip.check_of_wf hw
  simp only [decodeEnc, decodeWord_29]
  simp [dec29, chk, hc]

theorem RoundTrip.tgresv (d : BitVec 5) (n : BitVec 3) : RoundTrip.Statement (.tgresv d n) := by
  rintro hw e ⟨⟩
  have hc := RoundTrip.check_of_wf hw
  simp only [decodeEnc, decodeWord_29]
  simp [dec29, chk, hc]

theorem RoundTrip.tgpost (a : BitVec 5) (n : BitVec 3) : RoundTrip.Statement (.tgpost a n) := by
  rintro hw e ⟨⟩
  have hc := RoundTrip.check_of_wf hw
  simp only [decodeEnc, decodeWord_29]
  simp [dec29, chk, hc]

theorem RoundTrip.tgtake (d : BitVec 5) (n : BitVec 3) : RoundTrip.Statement (.tgtake d n) := by
  rintro hw e ⟨⟩
  have hc := RoundTrip.check_of_wf hw
  simp only [decodeEnc, decodeWord_29]
  simp [dec29, chk, hc]

theorem RoundTrip.tgfree (a : BitVec 5) (n : BitVec 3) : RoundTrip.Statement (.tgfree a n) := by
  rintro hw e ⟨⟩
  have hc := RoundTrip.check_of_wf hw
  simp only [decodeEnc, decodeWord_29]
  simp [dec29, chk, hc]

theorem RoundTrip.tgstat (d : BitVec 5) (n : BitVec 3) : RoundTrip.Statement (.tgstat d n) := by
  rintro hw e ⟨⟩
  have hc := RoundTrip.check_of_wf hw
  simp only [decodeEnc, decodeWord_29]
  simp [dec29, chk, hc]

theorem RoundTrip.tgclose (n : BitVec 3) : RoundTrip.Statement (.tgclose n) := by
  rintro hw e ⟨⟩
  have hc := RoundTrip.check_of_wf hw
  simp only [decodeEnc, decodeWord_29]
  simp [dec29, chk, hc]

theorem RoundTrip.give (d : BitVec 5) (m : BitVec 5) (k : BitVec 6) : RoundTrip.Statement (.give d m k) := by
  rintro hw e ⟨⟩
  have hc := RoundTrip.check_of_wf hw
  simp only [decodeEnc, decodeWord_2A]
  simp [dec2A, chk, hc]

theorem RoundTrip.bwait (d : BitVec 5) (m : BitVec 5) : RoundTrip.Statement (.bwait d m) := by
  rintro hw e ⟨⟩
  have hc := RoundTrip.check_of_wf hw
  simp only [decodeEnc, decodeWord_2A]
  simp [dec2A, chk, hc]

theorem RoundTrip.bstat (d : BitVec 5) (k : BitVec 6) : RoundTrip.Statement (.bstat d k) := by
  rintro hw e ⟨⟩
  have hc := RoundTrip.check_of_wf hw
  simp only [decodeEnc, decodeWord_2A]
  simp [dec2A, chk, hc]

theorem RoundTrip.bdrain (k : BitVec 6) : RoundTrip.Statement (.bdrain k) := by
  rintro hw e ⟨⟩
  have hc := RoundTrip.check_of_wf hw
  simp only [decodeEnc, decodeWord_2A]
  simp [dec2A, chk, hc]

theorem RoundTrip.bzero (k : BitVec 6) : RoundTrip.Statement (.bzero k) := by
  rintro hw e ⟨⟩
  have hc := RoundTrip.check_of_wf hw
  simp only [decodeEnc, decodeWord_2A]
  simp [dec2A, chk, hc]

theorem RoundTrip.bmap (d : BitVec 5) (k : BitVec 6) : RoundTrip.Statement (.bmap d k) := by
  rintro hw e ⟨⟩
  have hc := RoundTrip.check_of_wf hw
  simp only [decodeEnc, decodeWord_2A]
  simp [dec2A, chk, hc]

theorem RoundTrip.bunmap (k : BitVec 6) : RoundTrip.Statement (.bunmap k) := by
  rintro hw e ⟨⟩
  have hc := RoundTrip.check_of_wf hw
  simp only [decodeEnc, decodeWord_2A]
  simp [dec2A, chk, hc]

theorem RoundTrip.lease (d : BitVec 5) (a : BitVec 5) (b : BitVec 5) (t : BitVec 6) : RoundTrip.Statement (.lease d a b t) := by
  rintro hw e ⟨⟩
  have hc := RoundTrip.check_of_wf hw
  simp only [decodeEnc, decodeWord_2B]
  simp [dec2B, chk, hc]

theorem RoundTrip.unlease (a : BitVec 5) : RoundTrip.Statement (.unlease a) := by
  rintro hw e ⟨⟩
  have hc := RoundTrip.check_of_wf hw
  simp only [decodeEnc, decodeWord_2B]
  simp [dec2B, chk, hc]

theorem RoundTrip.lrenew (d : BitVec 5) (a : BitVec 5) (t : BitVec 6) : RoundTrip.Statement (.lrenew d a t) := by
  rintro hw e ⟨⟩
  have hc := RoundTrip.check_of_wf hw
  simp only [decodeEnc, decodeWord_2B]
  simp [dec2B, chk, hc]

theorem RoundTrip.lstat (d : BitVec 5) (a : BitVec 5) : RoundTrip.Statement (.lstat d a) := by
  rintro hw e ⟨⟩
  have hc := RoundTrip.check_of_wf hw
  simp only [decodeEnc, decodeWord_2B]
  simp [dec2B, chk, hc]

theorem RoundTrip.estInit  : RoundTrip.Statement (.estInit) := by
  rintro hw e ⟨⟩
  have hc := RoundTrip.check_of_wf hw
  simp only [decodeEnc, decodeWord_2C]
  simp [dec2C, chk, hc]

theorem RoundTrip.estAdd (v : BitVec 5) : RoundTrip.Statement (.estAdd v) := by
  rintro hw e ⟨⟩
  have hc := RoundTrip.check_of_wf hw
  simp only [decodeEnc, decodeWord_2C]
  simp [dec2C, chk, hc]

theorem RoundTrip.estAddw (v : BitVec 5) (b : BitVec 5) : RoundTrip.Statement (.estAddw v b) := by
  rintro hw e ⟨⟩
  have hc := RoundTrip.check_of_wf hw
  simp only [decodeEnc, decodeWord_2C]
  simp [dec2C, chk, hc]

theorem RoundTrip.estClose  : RoundTrip.Statement (.estClose) := by
  rintro hw e ⟨⟩
  have hc := RoundTrip.check_of_wf hw
  simp only [decodeEnc, decodeWord_2C]
  simp [dec2C, chk, hc]

theorem RoundTrip.estRead (v : BitVec 5) (a : BitVec 5) : RoundTrip.Statement (.estRead v a) := by
  rintro hw e ⟨⟩
  have hc := RoundTrip.check_of_wf hw
  simp only [decodeEnc, decodeWord_2C]
  simp [dec2C, chk, hc]

theorem RoundTrip.estWait (v : BitVec 5) (a : BitVec 5) (b : BitVec 5) : RoundTrip.Statement (.estWait v a b) := by
  rintro hw e ⟨⟩
  have hc := RoundTrip.check_of_wf hw
  simp only [decodeEnc, decodeWord_2C]
  simp [dec2C, chk, hc]

theorem RoundTrip.launch (d : BitVec 5) (a : BitVec 5) : RoundTrip.Statement (.launch d a) := by
  rintro hw e ⟨⟩
  have hc := RoundTrip.check_of_wf hw
  simp only [decodeEnc, decodeWord_2D]
  simp [dec2D, chk, hc]

theorem RoundTrip.depDec (a : BitVec 5) : RoundTrip.Statement (.depDec a) := by
  rintro hw e ⟨⟩
  have hc := RoundTrip.check_of_wf hw
  simp only [decodeEnc, decodeWord_2D]
  simp [dec2D, chk, hc]

theorem RoundTrip.depAdd (a : BitVec 5) (b : BitVec 5) : RoundTrip.Statement (.depAdd a b) := by
  rintro hw e ⟨⟩
  have hc := RoundTrip.check_of_wf hw
  simp only [decodeEnc, decodeWord_2D]
  simp [dec2D, chk, hc]

theorem RoundTrip.cancel (d : BitVec 5) (a : BitVec 5) : RoundTrip.Statement (.cancel d a) := by
  rintro hw e ⟨⟩
  have hc := RoundTrip.check_of_wf hw
  simp only [decodeEnc, decodeWord_2D]
  simp [dec2D, chk, hc]

theorem RoundTrip.lnstat (d : BitVec 5) (a : BitVec 5) : RoundTrip.Statement (.lnstat d a) := by
  rintro hw e ⟨⟩
  have hc := RoundTrip.check_of_wf hw
  simp only [decodeEnc, decodeWord_2D]
  simp [dec2D, chk, hc]

theorem RoundTrip.gang (d : BitVec 5) (a : BitVec 5) (b : BitVec 5) : RoundTrip.Statement (.gang d a b) := by
  rintro hw e ⟨⟩
  have hc := RoundTrip.check_of_wf hw
  simp only [decodeEnc, decodeWord_2D]
  simp [dec2D, chk, hc]

theorem RoundTrip.snap (d : BitVec 5) (a : BitVec 5) : RoundTrip.Statement (.snap d a) := by
  rintro hw e ⟨⟩
  have hc := RoundTrip.check_of_wf hw
  simp only [decodeEnc, decodeWord_2D]
  simp [dec2D, chk, hc]

theorem RoundTrip.faultDone (a : BitVec 5) (b : BitVec 5) : RoundTrip.Statement (.faultDone a b) := by
  rintro hw e ⟨⟩
  have hc := RoundTrip.check_of_wf hw
  simp only [decodeEnc, decodeWord_2D]
  simp [dec2D, chk, hc]

theorem RoundTrip.collPut (a : BitVec 5) : RoundTrip.Statement (.collPut a) := by
  rintro hw e ⟨⟩
  have hc := RoundTrip.check_of_wf hw
  simp only [decodeEnc, decodeWord_2E]
  simp [dec2E, chk, hc]

theorem RoundTrip.collRed (a : BitVec 5) : RoundTrip.Statement (.collRed a) := by
  rintro hw e ⟨⟩
  have hc := RoundTrip.check_of_wf hw
  simp only [decodeEnc, decodeWord_2E]
  simp [dec2E, chk, hc]

theorem RoundTrip.welt (a : BitVec 5) (b : BitVec 5) (c : BitVec 5) : RoundTrip.Statement (.welt a b c) := by
  rintro hw e ⟨⟩
  have hc := RoundTrip.check_of_wf hw
  simp only [decodeEnc, decodeWord_2E]
  simp [dec2E, chk, hc]

theorem RoundTrip.wchk (d : BitVec 5) (a : BitVec 5) (b : BitVec 5) : RoundTrip.Statement (.wchk d a b) := by
  rintro hw e ⟨⟩
  have hc := RoundTrip.check_of_wf hw
  simp only [decodeEnc, decodeWord_2E]
  simp [dec2E, chk, hc]

theorem RoundTrip.cstat (d : BitVec 5) (k : BitVec 6) : RoundTrip.Statement (.cstat d k) := by
  rintro hw e ⟨⟩
  have hc := RoundTrip.check_of_wf hw
  simp only [decodeEnc, decodeWord_2E]
  simp [dec2E, chk, hc]

theorem RoundTrip.rng (d : BitVec 5) : RoundTrip.Statement (.rng d) := by
  rintro hw e ⟨⟩
  have hc := RoundTrip.check_of_wf hw
  simp only [decodeEnc, decodeWord_2F]
  simp [dec2F, chk, hc]

theorem RoundTrip.rngF (d : BitVec 5) : RoundTrip.Statement (.rngF d) := by
  rintro hw e ⟨⟩
  have hc := RoundTrip.check_of_wf hw
  simp only [decodeEnc, decodeWord_2F]
  simp [dec2F, chk, hc]

theorem RoundTrip.rngkey (a : BitVec 5) : RoundTrip.Statement (.rngkey a) := by
  rintro hw e ⟨⟩
  have hc := RoundTrip.check_of_wf hw
  simp only [decodeEnc, decodeWord_2F]
  simp [dec2F, chk, hc]

theorem RoundTrip.aestr (a : BitVec 5) (q : BitVec 2) : RoundTrip.Statement (.aestr a q) := by
  rintro hw e ⟨⟩
  have hc := RoundTrip.check_of_wf hw
  simp only [decodeEnc, decodeWord_30]
  simp [dec30, chk, hc]

theorem RoundTrip.qpop (d : BitVec 5) (q : BitVec 2) : RoundTrip.Statement (.qpop d q) := by
  rintro hw e ⟨⟩
  have hc := RoundTrip.check_of_wf hw
  simp only [decodeEnc, decodeWord_30]
  simp [dec30, chk, hc]

theorem RoundTrip.qstat (d : BitVec 5) (q : BitVec 2) : RoundTrip.Statement (.qstat d q) := by
  rintro hw e ⟨⟩
  have hc := RoundTrip.check_of_wf hw
  simp only [decodeEnc, decodeWord_30]
  simp [dec30, chk, hc]

theorem RoundTrip.aestop (q : BitVec 2) : RoundTrip.Statement (.aestop q) := by
  rintro hw e ⟨⟩
  have hc := RoundTrip.check_of_wf hw
  simp only [decodeEnc, decodeWord_30]
  simp [dec30, chk, hc]

theorem RoundTrip.sget (d : BitVec 5) (n : BitVec 6) : RoundTrip.Statement (.sget d n) := by
  rintro hw e ⟨⟩
  have hc := RoundTrip.check_of_wf hw
  simp only [decodeEnc, decodeWord_38]
  simp [dec38, chk, hc]

theorem RoundTrip.sset (a : BitVec 5) (n : BitVec 6) : RoundTrip.Statement (.sset a n) := by
  rintro hw e ⟨⟩
  have hc := RoundTrip.check_of_wf hw
  simp only [decodeEnc, decodeWord_38]
  simp [dec38, chk, hc]

theorem RoundTrip.tlbinv (a : BitVec 5) (b : BitVec 5) (c : BitVec 5) : RoundTrip.Statement (.tlbinv a b c) := by
  rintro hw e ⟨⟩
  have hc := RoundTrip.check_of_wf hw
  simp only [decodeEnc, decodeWord_38]
  simp [dec38, chk, hc]

theorem RoundTrip.tlbinvc (a : BitVec 5) (f : BitVec 1) : RoundTrip.Statement (.tlbinvc a f) := by
  rintro hw e ⟨⟩
  have hc := RoundTrip.check_of_wf hw
  simp only [decodeEnc, decodeWord_38]
  simp [dec38, chk, hc]

theorem RoundTrip.boost (d : BitVec 5) (a : BitVec 5) : RoundTrip.Statement (.boost d a) := by
  rintro hw e ⟨⟩
  have hc := RoundTrip.check_of_wf hw
  simp only [decodeEnc, decodeWord_38]
  simp [dec38, chk, hc]

theorem RoundTrip.wake (a : BitVec 5) : RoundTrip.Statement (.wake a) := by
  rintro hw e ⟨⟩
  have hc := RoundTrip.check_of_wf hw
  simp only [decodeEnc, decodeWord_38]
  simp [dec38, chk, hc]

theorem RoundTrip.fabort (d : BitVec 5) : RoundTrip.Statement (.fabort d) := by
  rintro hw e ⟨⟩
  have hc := RoundTrip.check_of_wf hw
  simp only [decodeEnc, decodeWord_38]
  simp [dec38, chk, hc]

theorem RoundTrip.compactMov (d : BitVec 5) (a : BitVec 5) (g : BitVec 1) : RoundTrip.Statement (.compactMov d a g) := by
  rintro hw e ⟨⟩
  have h : encC g a d 0#4 ≠ 0 := by
    intro h
    have h1 := congrArg (BitVec.extractLsb' 15 1) h
    have h2 := congrArg (BitVec.extractLsb' 10 5) h
    have h3 := congrArg (BitVec.extractLsb' 5 5) h
    rw [encC_g] at h1
    rw [encC_a] at h2
    rw [encC_d] at h3
    subst h1 h2 h3
    exact absurd hw (by decide)
  have h0 : ¬encC g a d 0#4 = 0#16 := h
  simp [decodeEnc, decodeHalf, h0]

theorem RoundTrip.compactAdd (d : BitVec 5) (a : BitVec 5) (g : BitVec 1) : RoundTrip.Statement (.compactAdd d a g) := by
  rintro hw e ⟨⟩
  have h : encC g a d 1#4 ≠ 0 := by
    intro h
    have h1 := congrArg (BitVec.extractLsb' 1 4) h
    rw [encC_op] at h1
    exact absurd h1 (by decide)
  have h0 : ¬encC g a d 1#4 = 0#16 := h
  simp [decodeEnc, decodeHalf, h0]

theorem RoundTrip.compactSub (d : BitVec 5) (a : BitVec 5) (g : BitVec 1) : RoundTrip.Statement (.compactSub d a g) := by
  rintro hw e ⟨⟩
  have h : encC g a d 2#4 ≠ 0 := by
    intro h
    have h1 := congrArg (BitVec.extractLsb' 1 4) h
    rw [encC_op] at h1
    exact absurd h1 (by decide)
  have h0 : ¬encC g a d 2#4 = 0#16 := h
  simp [decodeEnc, decodeHalf, h0]

theorem RoundTrip.compactMul (d : BitVec 5) (a : BitVec 5) (g : BitVec 1) : RoundTrip.Statement (.compactMul d a g) := by
  rintro hw e ⟨⟩
  have h : encC g a d 3#4 ≠ 0 := by
    intro h
    have h1 := congrArg (BitVec.extractLsb' 1 4) h
    rw [encC_op] at h1
    exact absurd h1 (by decide)
  have h0 : ¬encC g a d 3#4 = 0#16 := h
  simp [decodeEnc, decodeHalf, h0]

theorem RoundTrip.compactAnd (d : BitVec 5) (a : BitVec 5) (g : BitVec 1) : RoundTrip.Statement (.compactAnd d a g) := by
  rintro hw e ⟨⟩
  have h : encC g a d 4#4 ≠ 0 := by
    intro h
    have h1 := congrArg (BitVec.extractLsb' 1 4) h
    rw [encC_op] at h1
    exact absurd h1 (by decide)
  have h0 : ¬encC g a d 4#4 = 0#16 := h
  simp [decodeEnc, decodeHalf, h0]

theorem RoundTrip.compactOr (d : BitVec 5) (a : BitVec 5) (g : BitVec 1) : RoundTrip.Statement (.compactOr d a g) := by
  rintro hw e ⟨⟩
  have h : encC g a d 5#4 ≠ 0 := by
    intro h
    have h1 := congrArg (BitVec.extractLsb' 1 4) h
    rw [encC_op] at h1
    exact absurd h1 (by decide)
  have h0 : ¬encC g a d 5#4 = 0#16 := h
  simp [decodeEnc, decodeHalf, h0]

theorem RoundTrip.compactXor (d : BitVec 5) (a : BitVec 5) (g : BitVec 1) : RoundTrip.Statement (.compactXor d a g) := by
  rintro hw e ⟨⟩
  have h : encC g a d 6#4 ≠ 0 := by
    intro h
    have h1 := congrArg (BitVec.extractLsb' 1 4) h
    rw [encC_op] at h1
    exact absurd h1 (by decide)
  have h0 : ¬encC g a d 6#4 = 0#16 := h
  simp [decodeEnc, decodeHalf, h0]

theorem RoundTrip.compactShl (d : BitVec 5) (a : BitVec 5) (g : BitVec 1) : RoundTrip.Statement (.compactShl d a g) := by
  rintro hw e ⟨⟩
  have h : encC g a d 7#4 ≠ 0 := by
    intro h
    have h1 := congrArg (BitVec.extractLsb' 1 4) h
    rw [encC_op] at h1
    exact absurd h1 (by decide)
  have h0 : ¬encC g a d 7#4 = 0#16 := h
  simp [decodeEnc, decodeHalf, h0]

theorem RoundTrip.compactShrZ (d : BitVec 5) (a : BitVec 5) (g : BitVec 1) : RoundTrip.Statement (.compactShrZ d a g) := by
  rintro hw e ⟨⟩
  have h : encC g a d 8#4 ≠ 0 := by
    intro h
    have h1 := congrArg (BitVec.extractLsb' 1 4) h
    rw [encC_op] at h1
    exact absurd h1 (by decide)
  have h0 : ¬encC g a d 8#4 = 0#16 := h
  simp [decodeEnc, decodeHalf, h0]

theorem RoundTrip.compactShrS (d : BitVec 5) (a : BitVec 5) (g : BitVec 1) : RoundTrip.Statement (.compactShrS d a g) := by
  rintro hw e ⟨⟩
  have h : encC g a d 9#4 ≠ 0 := by
    intro h
    have h1 := congrArg (BitVec.extractLsb' 1 4) h
    rw [encC_op] at h1
    exact absurd h1 (by decide)
  have h0 : ¬encC g a d 9#4 = 0#16 := h
  simp [decodeEnc, decodeHalf, h0]

theorem RoundTrip.compactFadd (d : BitVec 5) (a : BitVec 5) (g : BitVec 1) : RoundTrip.Statement (.compactFadd d a g) := by
  rintro hw e ⟨⟩
  have h : encC g a d 10#4 ≠ 0 := by
    intro h
    have h1 := congrArg (BitVec.extractLsb' 1 4) h
    rw [encC_op] at h1
    exact absurd h1 (by decide)
  have h0 : ¬encC g a d 10#4 = 0#16 := h
  simp [decodeEnc, decodeHalf, h0]

theorem RoundTrip.compactFsub (d : BitVec 5) (a : BitVec 5) (g : BitVec 1) : RoundTrip.Statement (.compactFsub d a g) := by
  rintro hw e ⟨⟩
  have h : encC g a d 11#4 ≠ 0 := by
    intro h
    have h1 := congrArg (BitVec.extractLsb' 1 4) h
    rw [encC_op] at h1
    exact absurd h1 (by decide)
  have h0 : ¬encC g a d 11#4 = 0#16 := h
  simp [decodeEnc, decodeHalf, h0]

theorem RoundTrip.compactFmul (d : BitVec 5) (a : BitVec 5) (g : BitVec 1) : RoundTrip.Statement (.compactFmul d a g) := by
  rintro hw e ⟨⟩
  have h : encC g a d 12#4 ≠ 0 := by
    intro h
    have h1 := congrArg (BitVec.extractLsb' 1 4) h
    rw [encC_op] at h1
    exact absurd h1 (by decide)
  have h0 : ¬encC g a d 12#4 = 0#16 := h
  simp [decodeEnc, decodeHalf, h0]

theorem RoundTrip.compactFmin (d : BitVec 5) (a : BitVec 5) (g : BitVec 1) : RoundTrip.Statement (.compactFmin d a g) := by
  rintro hw e ⟨⟩
  have h : encC g a d 13#4 ≠ 0 := by
    intro h
    have h1 := congrArg (BitVec.extractLsb' 1 4) h
    rw [encC_op] at h1
    exact absurd h1 (by decide)
  have h0 : ¬encC g a d 13#4 = 0#16 := h
  simp [decodeEnc, decodeHalf, h0]

theorem RoundTrip.compactFmax (d : BitVec 5) (a : BitVec 5) (g : BitVec 1) : RoundTrip.Statement (.compactFmax d a g) := by
  rintro hw e ⟨⟩
  have h : encC g a d 14#4 ≠ 0 := by
    intro h
    have h1 := congrArg (BitVec.extractLsb' 1 4) h
    rw [encC_op] at h1
    exact absurd h1 (by decide)
  have h0 : ¬encC g a d 14#4 = 0#16 := h
  simp [decodeEnc, decodeHalf, h0]

theorem RoundTrip.compactFabs (d : BitVec 5) (a : BitVec 5) (g : BitVec 1) : RoundTrip.Statement (.compactFabs d a g) := by
  rintro hw e ⟨⟩
  have h : encC g a d 15#4 ≠ 0 := by
    intro h
    have h1 := congrArg (BitVec.extractLsb' 1 4) h
    rw [encC_op] at h1
    exact absurd h1 (by decide)
  have h0 : ¬encC g a d 15#4 = 0#16 := h
  simp [decodeEnc, decodeHalf, h0]

theorem RoundTrip.barrierRelease (x0 : Nat) (x1 : Bool) : RoundTrip.Statement (.barrierRelease x0 x1) := by
  intro _ e h; cases h

theorem RoundTrip.commitWriteOut (x0 : Nat) : RoundTrip.Statement (.commitWriteOut x0) := by
  intro _ e h; cases h

theorem RoundTrip.flockEnd (x0 : Nat) : RoundTrip.Statement (.flockEnd x0) := by
  intro _ e h; cases h

theorem RoundTrip.sleepTimerExpiry (x0 : Nat) : RoundTrip.Statement (.sleepTimerExpiry x0) := by
  intro _ e h; cases h

theorem RoundTrip.mwaitWake (x0 : Nat) : RoundTrip.Statement (.mwaitWake x0) := by
  intro _ e h; cases h

theorem RoundTrip.tileLoadComplete (x0 : Nat) : RoundTrip.Statement (.tileLoadComplete x0) := by
  intro _ e h; cases h

theorem RoundTrip.tileStoreComplete (x0 : Nat) : RoundTrip.Statement (.tileStoreComplete x0) := by
  intro _ e h; cases h

theorem RoundTrip.tileOperationComplete (x0 : Nat) : RoundTrip.Statement (.tileOperationComplete x0) := by
  intro _ e h; cases h

theorem RoundTrip.copyChunkSend (x0 : Nat) : RoundTrip.Statement (.copyChunkSend x0) := by
  intro _ e h; cases h

theorem RoundTrip.engineTroughReserve (x0 : Nat) : RoundTrip.Statement (.engineTroughReserve x0) := by
  intro _ e h; cases h

theorem RoundTrip.chunkIngress (x0 : Nat) (x1 : Nat) : RoundTrip.Statement (.chunkIngress x0 x1) := by
  intro _ e h; cases h

theorem RoundTrip.copyStampWrite (x0 : Nat) : RoundTrip.Statement (.copyStampWrite x0) := by
  intro _ e h; cases h

theorem RoundTrip.leaseExpiry (x0 : Nat) (x1 : Nat) : RoundTrip.Statement (.leaseExpiry x0 x1) := by
  intro _ e h; cases h

theorem RoundTrip.mergeVisit (x0 : Nat) : RoundTrip.Statement (.mergeVisit x0) := by
  intro _ e h; cases h

theorem RoundTrip.streamFetch (x0 : Nat) (x1 : BitVec 2) : RoundTrip.Statement (.streamFetch x0 x1) := by
  intro _ e h; cases h

theorem RoundTrip.illegalInstruction (x0 : BitVec 8) (x1 : BitVec 32) : RoundTrip.Statement (.illegalInstruction x0 x1) := by
  intro _ e h; cases h

theorem RoundTrip.fetchFault (x0 : Bool) : RoundTrip.Statement (.fetchFault x0) := by
  intro _ e h; cases h

theorem RoundTrip.loadComplete (x0 : Nat) : RoundTrip.Statement (.loadComplete x0) := by
  intro _ e h; cases h

theorem RoundTrip.storeComplete (x0 : Nat) : RoundTrip.Statement (.storeComplete x0) := by
  intro _ e h; cases h

theorem RoundTrip.deferredFaultDelivery (x0 : Nat) : RoundTrip.Statement (.deferredFaultDelivery x0) := by
  intro _ e h; cases h

theorem RoundTrip.blockingConditionMet (x0 : Nat) : RoundTrip.Statement (.blockingConditionMet x0) := by
  intro _ e h; cases h

theorem RoundTrip.launchReady (x0 : Nat) : RoundTrip.Statement (.launchReady x0) := by
  intro _ e h; cases h

theorem RoundTrip.foldPlacement (x0 : Nat) : RoundTrip.Statement (.foldPlacement x0) := by
  intro _ e h; cases h

theorem RoundTrip.foldStart (x0 : Nat) : RoundTrip.Statement (.foldStart x0) := by
  intro _ e h; cases h

theorem RoundTrip.donation (x0 : Nat) (x1 : Nat) (x2 : Nat) : RoundTrip.Statement (.donation x0 x1 x2) := by
  intro _ e h; cases h

theorem RoundTrip.foldEnd (x0 : Nat) : RoundTrip.Statement (.foldEnd x0) := by
  intro _ e h; cases h

theorem RoundTrip.launchRetirement (x0 : Nat) : RoundTrip.Statement (.launchRetirement x0) := by
  intro _ e h; cases h

theorem RoundTrip.parkedFoldRedispatch (x0 : Nat) (x1 : Nat) (x2 : Nat) : RoundTrip.Statement (.parkedFoldRedispatch x0 x1 x2) := by
  intro _ e h; cases h

theorem RoundTrip.admitContext (x0 : BitVec 2) : RoundTrip.Statement (.admitContext x0) := by
  intro _ e h; cases h

theorem RoundTrip.preEmpt (x0 : BitVec 2) : RoundTrip.Statement (.preEmpt x0) := by
  intro _ e h; cases h

theorem RoundTrip.resume (x0 : BitVec 2) : RoundTrip.Statement (.resume x0) := by
  intro _ e h; cases h

theorem RoundTrip.kill (x0 : BitVec 2) : RoundTrip.Statement (.kill x0) := by
  intro _ e h; cases h

theorem RoundTrip.routineTimeout (x0 : Nat) : RoundTrip.Statement (.routineTimeout x0) := by
  intro _ e h; cases h

theorem RoundTrip.gangAckReceive (x0 : BitVec 64) (x1 : BitVec 64) (x2 : Nat) (x3 : BitVec 64) (x4 : BitVec 64) : RoundTrip.Statement (.gangAckReceive x0 x1 x2 x3 x4) := by
  intro _ e h; cases h

theorem RoundTrip.gangDecision (x0 : Nat) : RoundTrip.Statement (.gangDecision x0) := by
  intro _ e h; cases h

theorem RoundTrip.timeBaseSync (x0 : Int) : RoundTrip.Statement (.timeBaseSync x0) := by
  intro _ e h; cases h

theorem RoundTrip.timeDivisionSlot  : RoundTrip.Statement (.timeDivisionSlot) := by
  intro _ e h; cases h

theorem RoundTrip.tokenRefill (x0 : Nat) (x1 : List (Nat × Nat)) (x2 : List Nat) : RoundTrip.Statement (.tokenRefill x0 x1 x2) := by
  intro _ e h; cases h

theorem RoundTrip.currentEmergency (x0 : BitVec 5) (x1 : BitVec 2) : RoundTrip.Statement (.currentEmergency x0 x1) := by
  intro _ e h; cases h

theorem RoundTrip.passCountLower (x0 : BitVec 5) : RoundTrip.Statement (.passCountLower x0) := by
  intro _ e h; cases h

theorem RoundTrip.boostLeaseExpiry (x0 : Nat) : RoundTrip.Statement (.boostLeaseExpiry x0) := by
  intro _ e h; cases h

theorem RoundTrip.coreWake (x0 : Nat) (x1 : BitVec 8) : RoundTrip.Statement (.coreWake x0 x1) := by
  intro _ e h; cases h

theorem RoundTrip.energyCopyRefresh (x0 : Nat) : RoundTrip.Statement (.energyCopyRefresh x0) := by
  intro _ e h; cases h

theorem RoundTrip.supplyLossWarning  : RoundTrip.Statement (.supplyLossWarning) := by
  intro _ e h; cases h

theorem RoundTrip.coldReset (x0 : List (BitVec 8)) (x1 : Bool) : RoundTrip.Statement (.coldReset x0 x1) := by
  intro _ e h; cases h

theorem RoundTrip.sealBoot  : RoundTrip.Statement (.sealBoot) := by
  intro _ e h; cases h

theorem RoundTrip.extendM3  : RoundTrip.Statement (.extendM3) := by
  intro _ e h; cases h

theorem RoundTrip.report  : RoundTrip.Statement (.report) := by
  intro _ e h; cases h

theorem RoundTrip.checkpointMarkerCopy  : RoundTrip.Statement (.checkpointMarkerCopy) := by
  intro _ e h; cases h

theorem RoundTrip.registerWrite (x0 : Nat) (x1 : List (BitVec 8)) : RoundTrip.Statement (.registerWrite x0 x1) := by
  intro _ e h; cases h

theorem RoundTrip.hostAccess (x0 : Bool) (x1 : Nat) (x2 : List (BitVec 8)) : RoundTrip.Statement (.hostAccess x0 x1 x2) := by
  intro _ e h; cases h

theorem RoundTrip.remoteRequest (x0 : Bool) (x1 : BitVec 16) (x2 : Nat) (x3 : List (BitVec 8)) : RoundTrip.Statement (.remoteRequest x0 x1 x2 x3) := by
  intro _ e h; cases h

theorem RoundTrip.remoteAccessRefusal (x0 : Nat) (x1 : Nat) (x2 : BitVec 72) (x3 : BitVec 8) : RoundTrip.Statement (.remoteAccessRefusal x0 x1 x2 x3) := by
  intro _ e h; cases h

theorem RoundTrip.remoteAccessTimeout (x0 : Nat) (x1 : Nat) (x2 : BitVec 72) (x3 : BitVec 8) : RoundTrip.Statement (.remoteAccessTimeout x0 x1 x2 x3) := by
  intro _ e h; cases h

theorem RoundTrip.switchCombine (x0 : Nat) (x1 : Nat) : RoundTrip.Statement (.switchCombine x0 x1) := by
  intro _ e h; cases h

theorem RoundTrip.switchCombineTimeout (x0 : Nat) : RoundTrip.Statement (.switchCombineTimeout x0) := by
  intro _ e h; cases h

theorem RoundTrip.snapshotArm  : RoundTrip.Statement (.snapshotArm) := by
  intro _ e h; cases h

theorem RoundTrip.snapshotLineCopy (x0 : Nat) : RoundTrip.Statement (.snapshotLineCopy x0) := by
  intro _ e h; cases h

theorem RoundTrip.snapshotStamp  : RoundTrip.Statement (.snapshotStamp) := by
  intro _ e h; cases h

theorem RoundTrip.remoteLineWriteBack (x0 : Nat) : RoundTrip.Statement (.remoteLineWriteBack x0) := by
  intro _ e h; cases h

theorem RoundTrip.uncorrectableSoftError (x0 : SoftErrorPlace) : RoundTrip.Statement (.uncorrectableSoftError x0) := by
  intro _ e h; cases h

end Sys2Proof.Laws
end

