-- ==== Sys2Proof/Tests/Slice0.lean ====
section
/-!
SUPPORT. Tests on fixed values: ill-formed terms that the checks refuse, words of the spec's encodings, states that meet the premises of the
statements, and single steps with results worked out from the spec.
-/
namespace Sys2Proof.Tests

set_option Elab.async false

open Sys2Proof Sys2Proof.Machine

/-! Ill-formed terms, each with the cause that R111 gives it (R94, R95, R104, R105, R107, R108, R126, R234). -/

theorem test_ill_formed_lanes : ∀ e ∈ [
    (Instr.vfround 1 2 4 0, 0x08#8), (.vcmpEq 0 1 2 0, 0x05), (.vcmpNe 0 1 2 0, 0x05), (.vcmpLtS 0 1 2 0, 0x05), (.vcmpLeS 0 1 2 0, 0x05),
    (.vcmpGtS 0 1 2 0, 0x05), (.vcmpGeS 0 1 2 0, 0x05), (.vcmpLtZ 0 1 2 0, 0x05), (.vcmpLeZ 0 1 2 0, 0x05), (.vcmpFeq 0 1 2 0, 0x05),
    (.vcmpFne 0 1 2 0, 0x05), (.vcmpFlt 0 1 2 0, 0x05), (.vcmpFle 0 1 2 0, 0x05), (.vcmpFgt 0 1 2 0, 0x05), (.vcmpFge 0 1 2 0, 0x05),
    (.vcmpFuno 0 1 2 0, 0x05), (.vcmpFord 0 1 2 0, 0x05), (.cvtE4m3F32 1 2 4 0, 0x08), (.cvtE5m2F32 1 2 4 0, 0x08), (.cvtLns6F32 1 2 4 0, 0x08),
    (.cvtF32E4m3 1 2 4 0, 0x08), (.cvtF32E5m2 1 2 4 0, 0x08), (.cvtF32Lns6 1 2 4 0, 0x08), (.vshflUp 1 2 32 0, 0x08), (.vshflDn 1 2 32 0, 0x08),
    (.vshflX 1 2 32 0, 0x08), (.vbcast 1 2 32 0, 0x08), (.ballot 0 1 0, 0x05), (.pmovFromScalar 0 1, 0x05), (.pand 0 1 2, 0x05), (.por 0 1 2, 0x05),
    (.pnot 0 1, 0x05), (.redFadd2 1 2 0, 0x05), (.aget 1 2 2, 0x08), (.vmovsLo 1 2 32 0, 0x08), (.vmovsHi 1 2 32 0, 0x08), (.smovv 1 2 32, 0x08),
    (.wfld 1 6, 0x08), (.lpget 1 16, 0x08), (.loop 0 1 1 1, 0x08)], e.1.check = some e.2 ∧ e.1.wf = false := by decide

theorem test_ill_formed_memory : ∀ e ∈ [
    (Instr.ldB64 1 2 3 0, 0x05#8), (.ldB128 2 2 3 0, 0x05), (.ldAcq 1 2 3 6, 0x08), (.stB64 1 2 3 0, 0x05), (.stB128 2 2 3 0, 0x05),
    (.stRel 1 2 3 6, 0x08), (.ldsAcq 1 2 6, 0x08), (.stsRel 1 2 6, 0x08), (.atomAdd 1 2 3 6 0, 0x08), (.atomFadd 1 2 3 6 0, 0x08),
    (.atomMinS 1 2 3 6 0, 0x08), (.atomMaxS 1 2 3 6 0, 0x08), (.atomMinZ 1 2 3 6 0, 0x08), (.atomMaxZ 1 2 3 6 0, 0x08), (.atomAnd 1 2 3 6 0, 0x08),
    (.atomOr 1 2 3 6 0, 0x08), (.atomXor 1 2 3 6 0, 0x08), (.atomXchg 1 2 3 6 0, 0x08), (.atomInc 1 2 3 6 0, 0x08), (.redMemAdd 1 2 3 6 0, 0x08),
    (.redMemFadd 1 2 3 6 0, 0x08), (.atomCas 2 2 3 6 0, 0x08), (.atomCas 1 2 3 0 0, 0x05), (.atomAdd64 2 2 3 6 0, 0x08), (.atomAdd64 1 2 3 0 0, 0x05),
    (.atomCas64 4 2 3 6 0, 0x08), (.atomCas64 2 2 3 0 0, 0x05), (.fence 6 1, 0x08), (.fence 0 0, 0x08), (.pref 2 1 1 0, 0x08)],
    e.1.check = some e.2 ∧ e.1.wf = false := by decide

theorem test_ill_formed_units : ∀ e ∈ [
    (Instr.tdoff 1 2 3 1, 0x04#8), (.tdoff 1 2 0 2, 0x08), (.tdpl 1 0 16, 0x08), (.tdpl 1 31 1, 0x05), (.tdget 1 2 7, 0x08), (.accrd 1 2 0 5, 0x08),
    (.accwr 1 2 0 3, 0x08), (.lease 1 2 3 31, 0x08), (.lrenew 1 2 31, 0x08), (.cstat 1 2, 0x08), (.sget 1 24, 0x08), (.sset 1 0, 0x04),
    (.sset 1 24, 0x08), (.compactMov 0 0 0, 0x01)], e.1.check = some e.2 ∧ e.1.wf = false := by decide

/-! Words with their fields laid out as R101, R103 and R106 give them, and what they decode to. -/

theorem test_decode_worked_words : (∀ e ∈ workedWords, decodeEnc e.1 = .ok e.2) ∧ ∀ e ∈ illegalWords, decodeEnc e.1 = .illegal e.2 := by decide

/-- A word of 32 bits, a halfword, and a refused word, as the opcode table numbers their bits. -/
theorem test_decode_table_words : decodeTableWord 32 0x00182103 = some (.vadd 2 1 3 0) ∧ decodeTableWord 16 0x1062 = some (.compactAdd 3 4 0) ∧
    decodeTableWord 32 0xFFFFFFFF = none := by decide

theorem test_decode_major_01 : ∀ e ∈ [
    (0x0D952603#32, Instr.vadd 12 41 50 6), (0x1D952603#32, Instr.vsub 12 41 50 6), (0x2D952603#32, Instr.vmul 12 41 50 6),
    (0x3D952603#32, Instr.vmulhS 12 41 50 6), (0x4D952603#32, Instr.vmulhZ 12 41 50 6), (0x5D952603#32, Instr.vminS 12 41 50 6),
    (0x6D952603#32, Instr.vmaxS 12 41 50 6), (0x7D952603#32, Instr.vminZ 12 41 50 6), (0x8D952603#32, Instr.vmaxZ 12 41 50 6),
    (0x9D952603#32, Instr.vand 12 41 50 6), (0xAD952603#32, Instr.vor 12 41 50 6), (0xBD952603#32, Instr.vxor 12 41 50 6),
    (0xCD952603#32, Instr.vshl 12 41 50 6), (0xDD952603#32, Instr.vshrZ 12 41 50 6), (0xED952603#32, Instr.vshrS 12 41 50 6),
    (0xFD952603#32, Instr.vandn 12 41 50 6)],
    decodeWord e.1 = .ok e.2 := by decide
theorem test_decode_major_02 : ∀ e ∈ [
    (0x0D2D2605#32, Instr.vaddi 12 41 421), (0x1D2D2605#32, Instr.vsubi 12 41 421), (0x2D2D2605#32, Instr.vmuli 12 41 421),
    (0x3D2D2605#32, Instr.vmulhSi 12 41 421), (0x4D2D2605#32, Instr.vmulhZi 12 41 421), (0x5D2D2605#32, Instr.vminSi 12 41 421),
    (0x6D2D2605#32, Instr.vmaxSi 12 41 421), (0x7D2D2605#32, Instr.vminZi 12 41 421), (0x8D2D2605#32, Instr.vmaxZi 12 41 421),
    (0x9D2D2605#32, Instr.vandi 12 41 421), (0xAD2D2605#32, Instr.vori 12 41 421), (0xBD2D2605#32, Instr.vxori 12 41 421),
    (0xCD2D2605#32, Instr.vshli 12 41 421), (0xDD2D2605#32, Instr.vshrZi 12 41 421), (0xED2D2605#32, Instr.vshrSi 12 41 421),
    (0xFD2D2605#32, Instr.vandni 12 41 421)],
    decodeWord e.1 = .ok e.2 := by decide
theorem test_decode_major_03 : ∀ e ∈ [
    (0x0D952607#32, Instr.vfadd 12 41 50 6), (0x1D952607#32, Instr.vfsub 12 41 50 6), (0x2D952607#32, Instr.vfmul 12 41 50 6),
    (0x3D952607#32, Instr.vfmac 12 41 50 6), (0x4D952607#32, Instr.vfnmac 12 41 50 6), (0x5D952607#32, Instr.vfmin 12 41 50 6),
    (0x6D952607#32, Instr.vfmax 12 41 50 6), (0x7C052607#32, Instr.vfabs 12 41 6), (0x8C052607#32, Instr.vfneg 12 41 6),
    (0x9D952607#32, Instr.vfcopys 12 41 50 6), (0xAC052607#32, Instr.vfrcp 12 41 6), (0xBC052607#32, Instr.vfrsq 12 41 6),
    (0xCC052607#32, Instr.vfsqrt 12 41 6), (0xDC052607#32, Instr.vfexp2 12 41 6), (0xEC052607#32, Instr.vflog2 12 41 6),
    (0xFC1D2607#32, Instr.vfround 12 41 3 6)],
    decodeWord e.1 = .ok e.2 := by decide
theorem test_decode_major_04 : ∀ e ∈ [
    (0x0D952289#32, Instr.vcmpEq 5 41 50 6), (0x1D952289#32, Instr.vcmpNe 5 41 50 6), (0x2D952289#32, Instr.vcmpLtS 5 41 50 6),
    (0x3D952289#32, Instr.vcmpLeS 5 41 50 6), (0x4D952289#32, Instr.vcmpGtS 5 41 50 6), (0x5D952289#32, Instr.vcmpGeS 5 41 50 6),
    (0x6D952289#32, Instr.vcmpLtZ 5 41 50 6), (0x7D952289#32, Instr.vcmpLeZ 5 41 50 6), (0x8D952289#32, Instr.vcmpFeq 5 41 50 6),
    (0x9D952289#32, Instr.vcmpFne 5 41 50 6), (0xAD952289#32, Instr.vcmpFlt 5 41 50 6), (0xBD952289#32, Instr.vcmpFle 5 41 50 6),
    (0xCD952289#32, Instr.vcmpFgt 5 41 50 6), (0xDD952289#32, Instr.vcmpFge 5 41 50 6), (0xED952289#32, Instr.vcmpFuno 5 41 50 6),
    (0xFD952289#32, Instr.vcmpFord 5 41 50 6)],
    decodeWord e.1 = .ok e.2 := by decide
theorem test_decode_major_05 : ∀ e ∈ [
    (0x0C05260B#32, Instr.cvtF32S32 12 41 6), (0x1C05260B#32, Instr.cvtF32Z32 12 41 6), (0x2C05260B#32, Instr.cvtS32F32 12 41 6),
    (0x3C05260B#32, Instr.cvtZ32F32 12 41 6), (0x4D95260B#32, Instr.cvtF16x2F32 12 41 50 6), (0x5C05260B#32, Instr.cvtF32F16lo 12 41 6),
    (0x6C05260B#32, Instr.cvtF32F16hi 12 41 6), (0x7D95260B#32, Instr.cvtBf16x2F32 12 41 50 6), (0x8C05260B#32, Instr.cvtF32Bf16lo 12 41 6),
    (0x9C05260B#32, Instr.cvtF32Bf16hi 12 41 6), (0xAC15260B#32, Instr.cvtE4m3F32 12 41 2 6), (0xBC15260B#32, Instr.cvtE5m2F32 12 41 2 6),
    (0xCC15260B#32, Instr.cvtLns6F32 12 41 2 6), (0xDC15260B#32, Instr.cvtF32E4m3 12 41 2 6), (0xEC15260B#32, Instr.cvtF32E5m2 12 41 2 6),
    (0xFC15260B#32, Instr.cvtF32Lns6 12 41 2 6)],
    decodeWord e.1 = .ok e.2 := by decide
theorem test_decode_major_06 : ∀ e ∈ [
    (0x0B95260D#32, Instr.vsel 12 41 50 5), (0x1D95260D#32, Instr.vperm 12 41 50 6), (0x2C15260D#32, Instr.vshflUp 12 41 2 6),
    (0x3C15260D#32, Instr.vshflDn 12 41 2 6), (0x4C15260D#32, Instr.vshflX 12 41 2 6), (0x5C05260D#32, Instr.vpopc 12 41 6),
    (0x6C05260D#32, Instr.vclz 12 41 6), (0x7C05260D#32, Instr.vbrev 12 41 6), (0x8C00060D#32, Instr.vlaneid 12 6),
    (0x9C15260D#32, Instr.vbcast 12 41 2 6), (0xAC01260D#32, Instr.vmovs 12 9 6), (0xBC05228D#32, Instr.ballot 5 41 6),
    (0xC001228D#32, Instr.pmovFromScalar 5 9), (0xC008660D#32, Instr.pmovToScalar 12 3), (0xD010628D#32, Instr.pand 5 3 2),
    (0xE010628D#32, Instr.por 5 3 2), (0xF000628D#32, Instr.pnot 5 3)],
    decodeWord e.1 = .ok e.2 := by decide
theorem test_decode_major_07 : ∀ e ∈ [
    (0x0C05260F#32, Instr.redAdd 12 41 6), (0x1C05260F#32, Instr.redFadd 12 41 6), (0x2C05260F#32, Instr.redMinS 12 41 6),
    (0x3C05260F#32, Instr.redMaxS 12 41 6), (0x4C05260F#32, Instr.redFmin 12 41 6), (0x5C05260F#32, Instr.redFmax 12 41 6),
    (0x6C05260F#32, Instr.redAnd 12 41 6), (0x7C05260F#32, Instr.redOr 12 41 6), (0x8C05260F#32, Instr.scanAdd 12 41 6),
    (0x9C05260F#32, Instr.scanFadd 12 41 6), (0xAC05260F#32, Instr.redFadd2 12 41 6)],
    decodeWord e.1 = .ok e.2 := by decide
theorem test_decode_major_08 : ∀ e ∈ [
    (0x00249611#32, Instr.sadd 12 9 18), (0x00649611#32, Instr.ssub 12 9 18), (0x00A49611#32, Instr.smul 12 9 18),
    (0x00E49611#32, Instr.smulhS 12 9 18), (0x01249611#32, Instr.sdivS 12 9 18), (0x01649611#32, Instr.sdivZ 12 9 18),
    (0x01A49611#32, Instr.sand 12 9 18), (0x01E49611#32, Instr.sor 12 9 18), (0x02249611#32, Instr.sxor 12 9 18),
    (0x02649611#32, Instr.sshl 12 9 18), (0x02A49611#32, Instr.sshrZ 12 9 18), (0x02E49611#32, Instr.sshrS 12 9 18),
    (0x03249611#32, Instr.sminS 12 9 18), (0x03649611#32, Instr.smaxS 12 9 18), (0x03A49611#32, Instr.seq 12 9 18),
    (0x03E49611#32, Instr.sltS 12 9 18), (0x04249611#32, Instr.sltZ 12 9 18)],
    decodeWord e.1 = .ok e.2 := by decide
theorem test_decode_major_09 : ∀ e ∈ [
    (0xB4B69613#32, Instr.saddi 12 9 23131)],
    decodeWord e.1 = .ok e.2 := by decide
theorem test_decode_major_0A : ∀ e ∈ [
    (0xB4B69615#32, Instr.sins 12 9 23131)],
    decodeWord e.1 = .ok e.2 := by decide
theorem test_decode_major_0B : ∀ e ∈ [
    (0x00249617#32, Instr.aadd 12 9 18), (0x00649617#32, Instr.asub 12 9 18), (0x00809617#32, Instr.amov 12 9),
    (0x00C09617#32, Instr.aset 12 9), (0x01029617#32, Instr.aget 12 9 1), (0x01649617#32, Instr.ahi 12 9 18),
    (0x018C9617#32, Instr.acmp 12 9 6)],
    decodeWord e.1 = .ok e.2 := by decide
theorem test_decode_major_0C : ∀ e ∈ [
    (0x0C112619#32, Instr.vmovsLo 12 9 2 6), (0x1C112619#32, Instr.vmovsHi 12 9 2 6), (0x20152619#32, Instr.smovv 12 41 2),
    (0x3C952619#32, Instr.vadds 12 41 18 6), (0x4C952619#32, Instr.vmuls 12 41 18 6), (0x5C952619#32, Instr.vfadds 12 41 18 6),
    (0x6C952619#32, Instr.vfmuls 12 41 18 6)],
    decodeWord e.1 = .ok e.2 := by decide
theorem test_decode_major_0D : ∀ e ∈ [
    (0x0020061B#32, Instr.wfld 12 4), (0x1000061B#32, Instr.wfs 12), (0x2000061B#32, Instr.visit 12), (0x3000061B#32, Instr.emget 12),
    (0x4001201B#32, Instr.emput 9), (0x5000661B#32, Instr.emand 12 3), (0x6000661B#32, Instr.emor 12 3), (0x7000061B#32, Instr.rdtime 12),
    (0x8000061B#32, Instr.rdcnt 12), (0x9000061B#32, Instr.pcount 12), (0xA000061B#32, Instr.fcrget 12), (0xB001201B#32, Instr.fcrput 9),
    (0xC068061B#32, Instr.lpget 12 13), (0xD000061B#32, Instr.rdenergy 12), (0xE000061B#32, Instr.rdgang 12),
    (0xF000061B#32, Instr.rdcore 12)],
    decodeWord e.1 = .ok e.2 := by decide
theorem test_decode_major_10 : ∀ e ∈ [
    (0xABCDE021#32, Instr.br 703710), (0xABCDE6A1#32, Instr.brAny 5 703710), (0xABCDEAA1#32, Instr.brAll 5 703710),
    (0xABCDEEA1#32, Instr.brNone 5 703710)],
    decodeWord e.1 = .ok e.2 := by decide
theorem test_decode_major_11 : ∀ e ∈ [
    (0xABCDE623#32, Instr.jal 12 703710)],
    decodeWord e.1 = .ok e.2 := by decide
theorem test_decode_major_12 : ∀ e ∈ [
    (0x00009025#32, Instr.jr 9), (0x00409625#32, Instr.jalr 12 9)],
    decodeWord e.1 = .ok e.2 := by decide
theorem test_decode_major_13 : ∀ e ∈ [
    (0xD5E6CF27#32, Instr.loop 2 7 1 109517)],
    decodeWord e.1 = .ok e.2 := by decide
theorem test_decode_major_14 : ∀ e ∈ [
    (0x00000129#32, Instr.lbrk 2)],
    decodeWord e.1 = .ok e.2 := by decide
theorem test_decode_major_15 : ∀ e ∈ [
    (0x00D699AB#32, Instr.wait 19 9 11 6)],
    decodeWord e.1 = .ok e.2 := by decide
theorem test_decode_major_16 : ∀ e ∈ [
    (0x0000002D#32, Instr.bar), (0x000000AD#32, Instr.barCl), (0x0000012D#32, Instr.commit), (0x000001AD#32, Instr.halt),
    (0x0000022D#32, Instr.yield), (0x000002AD#32, Instr.nop), (0x0000D32D#32, Instr.sleep 26)],
    decodeWord e.1 = .ok e.2 := by decide
theorem test_decode_major_17 : ∀ e ∈ [
    (0xD400002F#32, Instr.trap 53), (0xA80000AF#32, Instr.sys 42), (0x0000012F#32, Instr.eret), (0x540001AF#32, Instr.brk 21)],
    decodeWord e.1 = .ok e.2 := by decide
theorem test_decode_major_18 : ∀ e ∈ [
    (0x0B4B2631#32, Instr.ldB8Z 12 9 37 22), (0x1ECB2631#32, Instr.ldB8S 12 9 37 29), (0x2B4B2631#32, Instr.ldB16Z 12 9 37 22),
    (0x3B4B2631#32, Instr.ldB16S 12 9 37 22), (0x4B4B2631#32, Instr.ldB32 12 9 37 22), (0x5B4B2631#32, Instr.ldB64 12 9 37 22),
    (0x6B4B2631#32, Instr.ldB128 12 9 37 22), (0x7B4B2631#32, Instr.ldE 12 9 37 22), (0x8B4B2631#32, Instr.ldEI 12 9 37 22),
    (0x9B012631#32, Instr.ldUn 12 9 22), (0xAB4B2631#32, Instr.ldNc 12 9 37 22), (0xB5CB2631#32, Instr.ldAcq 12 9 37 3)],
    decodeWord e.1 = .ok e.2 := by decide
theorem test_decode_major_19 : ∀ e ∈ [
    (0x0B4B2633#32, Instr.stB8 12 9 37 22), (0x1B4B2633#32, Instr.stB16 12 9 37 22), (0x2B4B2633#32, Instr.stB32 12 9 37 22),
    (0x3B4B2633#32, Instr.stB64 12 9 37 22), (0x4B4B2633#32, Instr.stB128 12 9 37 22), (0x5B4B2633#32, Instr.stE 12 9 37 22),
    (0x6B4B2633#32, Instr.stEI 12 9 37 22), (0x79CB2633#32, Instr.stRel 12 9 37 3), (0x8B4B2633#32, Instr.stB4 12 9 37 22),
    (0x9B4B2633#32, Instr.stB1 12 9 37 22)],
    decodeWord e.1 = .ok e.2 := by decide
theorem test_decode_major_1A : ∀ e ∈ [
    (0x0B012635#32, Instr.ldsB64 12 9 22), (0x1B012635#32, Instr.ldsB32 12 9 22), (0x2B012635#32, Instr.stsB64 12 9 22),
    (0x3B012635#32, Instr.stsB32 12 9 22), (0x4B012635#32, Instr.lda 12 9 22), (0x5B012635#32, Instr.sta 12 9 22),
    (0x65812635#32, Instr.ldsAcq 12 9 3), (0x79812635#32, Instr.stsRel 12 9 3)],
    decodeWord e.1 = .ok e.2 := by decide
theorem test_decode_major_1B : ∀ e ∈ [
    (0x0B4B6637#32, Instr.lspB32 12 11 37 22), (0x1B016637#32, Instr.lspB64 12 11 22), (0x2B016637#32, Instr.lspB128 12 11 22),
    (0x3B4B6637#32, Instr.sspB32 12 11 37 22), (0x4B016637#32, Instr.sspB64 12 11 22), (0x5B016637#32, Instr.sspB128 12 11 22)],
    decodeWord e.1 = .ok e.2 := by decide
theorem test_decode_major_1C : ∀ e ∈ [
    (0x09CB2639#32, Instr.atomAdd 12 9 37 3 2), (0x19CB2639#32, Instr.atomFadd 12 9 37 3 2), (0x29CB2639#32, Instr.atomMinS 12 9 37 3 2),
    (0x39CB2639#32, Instr.atomMaxS 12 9 37 3 2), (0x49CB2639#32, Instr.atomMinZ 12 9 37 3 2), (0x59CB2639#32, Instr.atomMaxZ 12 9 37 3 2),
    (0x69CB2639#32, Instr.atomAnd 12 9 37 3 2), (0x79CB2639#32, Instr.atomOr 12 9 37 3 2), (0x89CB2639#32, Instr.atomXor 12 9 37 3 2),
    (0x99CB2639#32, Instr.atomXchg 12 9 37 3 2), (0xA9CB2639#32, Instr.atomCas 12 9 37 3 2), (0xB9CB2639#32, Instr.atomAdd64 12 9 37 3 2),
    (0xC9CB2639#32, Instr.atomCas64 12 9 37 3 2), (0xD9CB2639#32, Instr.atomInc 12 9 37 3 2), (0xE9CB2639#32, Instr.redMemAdd 12 9 37 3 2),
    (0xF9CB2639#32, Instr.redMemFadd 12 9 37 3 2)],
    decodeWord e.1 = .ok e.2 := by decide
theorem test_decode_major_1D : ∀ e ∈ [
    (0x0980003B#32, Instr.fence 3 2), (0x1B01203B#32, Instr.mon 9 22), (0x2000003B#32, Instr.mwait), (0x3B4B203B#32, Instr.cflush 9 37 22),
    (0x4B4B203B#32, Instr.cinv 9 37 22), (0x5000003B#32, Instr.ifence), (0x60000D3B#32, Instr.dtens 26), (0x70000D3B#32, Instr.ttag 26),
    (0x8B4B20BB#32, Instr.pref 1 9 37 22)],
    decodeWord e.1 = .ok e.2 := by decide
theorem test_decode_major_20 : ∀ e ∈ [
    (0xB7495041#32, Instr.tdset 10 9 26 45), (0x024950C1#32, Instr.tdoff 10 9 18 0), (0x94055141#32, Instr.tdpl 10 5 37),
    (0x0C0A61C1#32, Instr.tdget 12 10 3)],
    decodeWord e.1 = .ok e.2 := by decide
theorem test_decode_major_21 : ∀ e ∈ [
    (0x00005043#32, Instr.tload 10), (0x000050C3#32, Instr.tloadT 10), (0x00005143#32, Instr.tloadSp 10), (0x000051C3#32, Instr.tloadRaw 10)],
    decodeWord e.1 = .ok e.2 := by decide
theorem test_decode_major_22 : ∀ e ∈ [
    (0x8C005045#32, Instr.tstore 10 35), (0x8C0050C5#32, Instr.tstoreT 10 35), (0x8C005145#32, Instr.tstorePair 10 35),
    (0x8C0051C5#32, Instr.tstoreAdd 10 35)],
    decodeWord e.1 = .ok e.2 := by decide
theorem test_decode_major_23 : ∀ e ∈ [
    (0x066D2E47#32, Instr.mma 7 9 6 1 1 0 6), (0x0E0D2E47#32, Instr.mmxXor 7 9 6 0 6), (0x160D2E47#32, Instr.mmxAnd 7 9 6 0 6),
    (0x1E6D2E47#32, Instr.mms 7 9 6 1 1 0 6), (0x266D2E47#32, Instr.mml 7 9 6 1 1 0 6), (0x866D31C7#32, Instr.mmaQ 35 9 6 1 1 0 6),
    (0x8E0D31C7#32, Instr.mmxXorQ 35 9 6 0 6), (0x960D31C7#32, Instr.mmxAndQ 35 9 6 0 6), (0x9E6D31C7#32, Instr.mmsQ 35 9 6 1 1 0 6),
    (0xA66D31C7#32, Instr.mmlQ 35 9 6 1 1 0 6)],
    decodeWord e.1 = .ok e.2 := by decide
theorem test_decode_major_24 : ∀ e ∈ [
    (0x00000049#32, Instr.tfence), (0x10000649#32, Instr.accz 12), (0x20F52649#32, Instr.accrd 12 41 6 3),
    (0x30752649#32, Instr.accrdp 12 41 6 1), (0x40B52649#32, Instr.accwr 12 41 6 2), (0x50000649#32, Instr.accneg 12)],
    decodeWord e.1 = .ok e.2 := by decide
theorem test_decode_major_28 : ∀ e ∈ [
    (0xB8F24851#32, Instr.copyMm 9 18 7 6 5), (0xB8F248D1#32, Instr.copyMs 9 18 7 6 5), (0xB8F24951#32, Instr.copyMb 9 18 7 6 5),
    (0xB8F249D1#32, Instr.copyMl 9 18 7 6 5), (0xB8F24A51#32, Instr.copyMt 9 18 7 6 5), (0xB8F24AD1#32, Instr.copySm 9 18 7 6 5),
    (0xB8F24B51#32, Instr.copyBg 9 18 7 6 5), (0xB8F24BD1#32, Instr.copyPut 9 18 7 6 5), (0xB8F24C51#32, Instr.copyGet 9 18 7 6 5)],
    decodeWord e.1 = .ok e.2 := by decide
theorem test_decode_major_29 : ∀ e ∈ [
    (0x18124853#32, Instr.tgset 9 18 6), (0x180060D3#32, Instr.tgresv 12 6), (0x18004953#32, Instr.tgpost 9 6),
    (0x180061D3#32, Instr.tgtake 12 6), (0x18004A53#32, Instr.tgfree 9 6), (0x180062D3#32, Instr.tgstat 12 6),
    (0x18000353#32, Instr.tgclose 6)],
    decodeWord e.1 = .ok e.2 := by decide
theorem test_decode_major_2A : ∀ e ∈ [
    (0x0C146055#32, Instr.give 12 20 3), (0x001460D5#32, Instr.bwait 12 20), (0x0C006155#32, Instr.bstat 12 3),
    (0x0C0001D5#32, Instr.bdrain 3), (0x0C000255#32, Instr.bzero 3), (0x0C0062D5#32, Instr.bmap 12 3), (0x0C000355#32, Instr.bunmap 3)],
    decodeWord e.1 = .ok e.2 := by decide
theorem test_decode_major_2B : ∀ e ∈ [
    (0x76496057#32, Instr.lease 12 9 18 29), (0x000048D7#32, Instr.unlease 9), (0x74096157#32, Instr.lrenew 12 9 29),
    (0x000961D7#32, Instr.lstat 12 9)],
    decodeWord e.1 = .ok e.2 := by decide
theorem test_decode_major_2C : ∀ e ∈ [
    (0x00000059#32, Instr.estInit), (0x000028D9#32, Instr.estAdd 5), (0x00122959#32, Instr.estAddw 5 18), (0x000001D9#32, Instr.estClose),
    (0x00092A59#32, Instr.estRead 5 9), (0x02492AD9#32, Instr.estWait 5 9 18)],
    decodeWord e.1 = .ok e.2 := by decide
theorem test_decode_major_2D : ∀ e ∈ [
    (0x0009605B#32, Instr.launch 12 9), (0x000048DB#32, Instr.depDec 9), (0x0012495B#32, Instr.depAdd 9 18),
    (0x000961DB#32, Instr.cancel 12 9), (0x0009625B#32, Instr.lnstat 12 9), (0x024962DB#32, Instr.gang 12 9 18),
    (0x0009635B#32, Instr.snap 12 9), (0x00124BDB#32, Instr.faultDone 9 18)],
    decodeWord e.1 = .ok e.2 := by decide
theorem test_decode_major_2E : ∀ e ∈ [
    (0x0000485D#32, Instr.collPut 9), (0x000048DD#32, Instr.collRed 9), (0x00F2495D#32, Instr.welt 9 18 7),
    (0x024961DD#32, Instr.wchk 12 9 18), (0x0400625D#32, Instr.cstat 12 1)],
    decodeWord e.1 = .ok e.2 := by decide
theorem test_decode_major_2F : ∀ e ∈ [
    (0x0000605F#32, Instr.rng 12), (0x000060DF#32, Instr.rngF 12), (0x0000495F#32, Instr.rngkey 9)],
    decodeWord e.1 = .ok e.2 := by decide
theorem test_decode_major_30 : ∀ e ∈ [
    (0x08004861#32, Instr.aestr 9 2), (0x080060E1#32, Instr.qpop 12 2), (0x08006161#32, Instr.qstat 12 2), (0x080001E1#32, Instr.aestop 2)],
    decodeWord e.1 = .ok e.2 := by decide
theorem test_decode_major_38 : ∀ e ∈ [
    (0x54006071#32, Instr.sget 12 21), (0x480048F1#32, Instr.sset 9 18), (0x00F24971#32, Instr.tlbinv 9 18 7),
    (0x040049F1#32, Instr.tlbinvc 9 1), (0x00096271#32, Instr.boost 12 9), (0x00004AF1#32, Instr.wake 9), (0x00006371#32, Instr.fabort 12)],
    decodeWord e.1 = .ok e.2 := by decide
theorem test_decode_compact_low : ∀ e ∈ [
    (0xA580#16, Instr.compactMov 12 9 1), (0xA582#16, Instr.compactAdd 12 9 1), (0xA584#16, Instr.compactSub 12 9 1),
    (0xA586#16, Instr.compactMul 12 9 1), (0xA588#16, Instr.compactAnd 12 9 1), (0xA58A#16, Instr.compactOr 12 9 1),
    (0xA58C#16, Instr.compactXor 12 9 1), (0xA58E#16, Instr.compactShl 12 9 1)],
    decodeHalf e.1 = .ok e.2 := by decide
theorem test_decode_compact_high : ∀ e ∈ [
    (0xA590#16, Instr.compactShrZ 12 9 1), (0xA592#16, Instr.compactShrS 12 9 1), (0xA594#16, Instr.compactFadd 12 9 1),
    (0xA596#16, Instr.compactFsub 12 9 1), (0xA598#16, Instr.compactFmul 12 9 1), (0xA59A#16, Instr.compactFmin 12 9 1),
    (0xA59C#16, Instr.compactFmax 12 9 1), (0xA59E#16, Instr.compactFabs 12 9 1)],
    decodeHalf e.1 = .ok e.2 := by decide

/-! States that meet the premises of the statements. -/

/-- Nothing is under way, so every register is free. -/
theorem idle_free {s : State} (h : s.cur.pend = []) (d : Dest) : s.DestFree d := by
  cases d <;> simp [State.DestFree, State.VectorFree, State.ScalarFree, State.AddressFree, Flock.busy, Flock.operand, h]
theorem idle_vector {s : State} (h : s.cur.pend = []) (r : BitVec 6) : s.VectorFree r := idle_free h (.vector r Lanes.zero Lanes.zero false)
theorem idle_scalar {s : State} (h : s.cur.pend = []) (r : BitVec 5) : s.ScalarFree r := idle_free h (.scalar r 0 0 false)
theorem idle_address {s : State} (h : s.cur.pend = []) (r : BitVec 4) : s.AddressFree r := idle_free h (.address r 0 0 false)

/-- A byte may be touched, as a value. -/
def touchB (s : State) (k : Guard) (t : Touch) : Bool :=
  match s.checkByte k t with
  | .ok (va, pa) => va == t.1 && (match s.reach (s.agent s.cur) t.1 pa with | .ok _ => true | .error _ => false)
  | .error _ => false

theorem touchable_of {s : State} {k : Guard} {ts : List Touch} (h : ts.all (touchB s k) = true) : s.Touchable k ts := by
  intro t ht
  have h1 := List.all_eq_true.mp h t ht
  unfold touchB at h1
  split at h1
  · rename_i va pa he
    simp only [Bool.and_eq_true, beq_iff_eq] at h1
    refine ⟨pa, by rw [he, h1.1], ?_⟩
    have h2 := h1.2
    split at h2
    · exact fun _ => by assumption
    · cases h2
  · cases h1

theorem lanesOk_of {s : State} {g : Guard} {n : Nat} {va : Fin 32 → Addr}
    (h : (lanes.all fun k => !s.cur.em.on k || ((va k).toNat % n == 0 && (touchesFrom (va k) n .raw).all (touchB s g))) = true) :
    s.LanesOk g n va := by
  intro k hk
  have h1 := List.all_eq_true.mp h k (List.mem_finRange k)
  simp only [hk, Bool.not_true, Bool.false_or, Bool.and_eq_true, beq_iff_eq] at h1
  exact ⟨h1.1, touchable_of h1.2⟩

/-- The supervisor of die 0 at reset, with its execution mask, a predicate and a trap vector chosen. -/
def base (em : Mask) : State :=
  { State.reset with
    cur := { State.reset.cur with em := em }, contexts := [(512, { tvec := 0x4000 })] }

/-- A header with the given flags: one fold of two flocks of 32 lanes. -/
def header (flags : Word) : Header where
  magic := 0
  flags := flags
  widths := [5, 1, 0, 0, 0, 0]
  extents := [32, 2, 2, 1, 1, 1]
  seed := 7
  entry := 0x100
  access := 0
  partition := 0x421
  priority := 0
  confidence := 0
  minN := 0
  finite := 0
  stride := 1
  start := 0
  deadline := 0
  energy := 0
  target := 0
  record := 0
  predecessor := 0
  mode := 0
  threshold := 0
  argument := 0
  rngBase := 0
  rngLength := 0
  orderKey := 0
  stamp := 0

/-- A launch of context 0. -/
def launchOf (flags : Word) : Launch where
  id := 7
  ctx := 0
  header := 0x800
  hdr := header flags
  seq := 1
  depth := 0
  status := 2
  secure := false
  slots := none
  population := 0
  gang := none
  predecessor := none
  provisional := false
  position := 1
  visits := 1
  started := [0]
  ended := []
  deposits := []
  version := 0
  est := {}
  half := 0
  state := 0
  rflags := 0
  closing := none

/-- A flock of that launch, and its fold. -/
def flockOf (em : Mask) : Flock := { Flock.blank 9 5 0 0 0 0x1000 with em := em }
def foldOf : Fold := { Fold.absent with
  id := 5, launch := 7, regs := 1, acc := 1, commit := 1, started := true }

/-- The page at 0 of context 0, open to every access. -/
def leaf : Leaf where
  base := 0
  raw := true
  x := true
  w := true
  r := true
  ns := true
def page : TlbEntry where
  holder := .core 0
  ctx := 0
  page := 0
  leaf := leaf

/-- A flock of a launch with the given flags runs. -/
def user (flags : Word) (em : Mask) : State :=
  { State.reset with
    cur := flockOf em, fold := foldOf, launches := [launchOf flags], tlb := [page]
    contexts := [(0, { state := 2, tvec := 0x4000 })] }

/-! Premises of the lane, scalar and control statements. -/

theorem test_meets_VectorIntegerResults : ((base 3).cur.active 0 = 0 ∨ (base 3).VectorFree 5) ∧ (base 3).cur.active 0 ≠ 0 ∧ (base 0).cur.em = 0 :=
  ⟨.inr (idle_vector rfl 5), by decide, rfl⟩
theorem test_meets_CompactResults : (base 3).VectorFree ((5 : BitVec 5).setWidth 6) ∧ ((base 3).cur.em &&& (base 3).cur.getP 1) = 0 :=
  ⟨idle_vector rfl _, by decide⟩
theorem test_meets_VectorFloatResults : (base 3).cur.active 0 = 0 ∨ (base 3).VectorFree 5 := .inr (idle_vector rfl 5)
theorem test_meets_ConversionResults : (base 3).cur.active 0 = 0 ∨ (base 3).VectorFree 63 := .inr (idle_vector rfl 63)
theorem test_meets_LaneMovementResults : (base 3).VectorFree 5 := idle_vector rfl 5
theorem test_meets_ConditionAndPredicateResults : (base 3).ScalarFree 4 := idle_scalar rfl 4
theorem test_meets_ReductionAndScanResults : (base 3).ScalarFree 4 ∧ (base 3).ScalarFree (4 + 1) ∧ ((base 3).cur.active 0 = 0 ∨ (base 3).VectorFree 5) :=
  ⟨idle_scalar rfl 4, idle_scalar rfl _, .inr (idle_vector rfl 5)⟩
theorem test_meets_ScalarAndAddressResults : (base 3).ScalarFree 0 ∧ (base 3).ScalarFree 31 ∧ (base 3).AddressFree 0 ∧ (base 3).AddressFree 15 :=
  ⟨idle_scalar rfl 0, idle_scalar rfl 31, idle_address rfl 0, idle_address rfl 15⟩
theorem test_meets_SpecialRegisterResults : (base 3).ScalarFree 4 ∧ (base 3).determ = false ∧ (user 4 3).ScalarFree 4 ∧ (user 4 3).determ = true :=
  ⟨idle_scalar rfl 4, by decide, idle_scalar rfl 4, by decide⟩

/-- Two loop levels end at the current instruction, the outer one with the given count. -/
def looping (outer inner : DWord) : State :=
  { base 3 with
    cur := { (base 3).cur with
      pc := 0x40
      loops := ((Vector.replicate 4 {}).set 0 { start := 0x20, fin := 0x40, count := outer, armed := true }).set 1
        { start := 0x30, fin := 0x40, count := inner, armed := true } } }
def inRoutine (r : Routine) : State := { base 3 with cur := { (base 3).cur with routine := r } }

theorem test_meets_NextAddress :
    (looping 1 1).VectorFree ((5 : BitVec 5).setWidth 6) ∧ (inRoutine .trap).cur.routine ≠ .none ∧ (looping 1 1).cur.routine = .none ∧
    (∀ j : BitVec 2, ((looping 1 1).cur.getLoop j).armed = true ∧ ((looping 1 1).cur.getLoop j).fin = (looping 1 1).cur.pc →
      ((looping 1 1).cur.getLoop j).count ≤ 1) ∧
    (((looping 2 1).cur.getLoop 0).armed = true ∧ ((looping 2 1).cur.getLoop 0).fin = (looping 2 1).cur.pc ∧ 1 < ((looping 2 1).cur.getLoop 0).count ∧
      ∀ j : BitVec 2, 0 < j → ((looping 2 1).cur.getLoop j).armed = true ∧ ((looping 2 1).cur.getLoop j).fin = (looping 2 1).cur.pc →
        ((looping 2 1).cur.getLoop j).count ≤ 1) :=
  ⟨idle_vector rfl _, by decide, by decide, by decide, by decide, by decide, by decide, by decide⟩

/-- Scalar 1 holds x. -/
def withS (s : State) (x : DWord) : State := { s with cur := s.cur.setS 1 x }

theorem test_meets_ControlFlowResults :
    ((base 3).cur.getP 0 &&& (base 3).cur.em) ≠ 0 ∧ ¬ ((base 3).cur.getP 1 &&& (base 3).cur.em) ≠ 0 ∧
    ((base 3).cur.getP 0 &&& (base 3).cur.em) = (base 3).cur.em ∧ ¬ ((base 3).cur.getP 1 &&& (base 3).cur.em) = (base 3).cur.em ∧
    ((base 3).cur.getP 1 &&& (base 3).cur.em) = 0 ∧ ¬ ((base 3).cur.getP 0 &&& (base 3).cur.em) = 0 ∧
    ((withS (base 3) 6).cur.pc.extractLsb' 64 8 ++ (withS (base 3) 6).cur.getS 1).getLsbD 0 = false ∧
    ((withS (base 3) 7).cur.pc.extractLsb' 64 8 ++ (withS (base 3) 7).cur.getS 1).getLsbD 0 = true ∧ (withS (base 3) 6).ScalarFree 1 ∧
    (inRoutine .save).cur.routine ≠ .none ∧ (base 3).cur.routine = .none ∧ (withS (base 3) 6).cur.getS 1 ≠ 0 ∧ (base 3).cur.getS 1 = 0 ∧
    (base 3).FetchesHalf 4 ((base 3).cur.pc + ((9 : BitVec 17).setWidth 72 <<< 1)) 0 :=
  ⟨by decide, by decide, by decide, by decide, by decide, by decide, by decide, by decide, idle_scalar rfl 1, by decide, by decide, by decide, by decide,
    18, _, rfl, .inr ⟨rfl, by decide, by decide, by decide⟩⟩

/-- An operation under way. -/
def op (c : Machine.Class) (dests : List Dest) : PendOp := { PendOp.start 3 c 0 with dests := dests }
def busyWith (s : State) (o : PendOp) : State := { s with cur := { s.cur with pend := [o] } }
def status (s : State) (x : Status) : State := { s with cur := { s.cur with status := x } }
def monitored (armed event pending : Bool) : State :=
  { base 3 with
    cur := { (base 3).cur with monitor := { armed := armed, event := event }, wakePending := pending } }

theorem test_meets_WaitingResults :
    ((base 3).cur.count .loads ≤ 0 ∧ (base 3).cur.count .stores ≤ 0 ∧ (base 3).cur.count .copies ≤ 0 ∧ (base 3).cur.count .tiles ≤ 0) ∧
    ¬ ((busyWith (base 3) (op .loads [])).cur.count .loads ≤ 0) ∧
    ¬ (((1#2).getLsbD 0 = true → (busyWith (base 3) (op .loads [])).cur.count .loads = 0)) ∧
    (busyWith (base 3) (op .stores [])).cur.count .stores ≠ 0 ∧ (base 3).cur.supervises = true ∧ (user 0 3).cur.supervises = false ∧
    (user 0 3).cur.count .stores = 0 ∧ (monitored true true true).cur.wakePending = true ∧ (monitored true true false).cur.wakePending = false ∧
    (monitored true true false).cur.monitor.armed = true ∧ (monitored true true false).cur.monitor.event = true ∧
    (monitored true false false).cur.monitor.event = false ∧ (monitored false false false).cur.monitor.armed = false ∧
    ((withS { base 3 with time := 5 } 5).cur.getS 1 ≠ 0 ∧ (withS { base 3 with time := 5 } 5).cur.getS 1 ≤ (5 : DWord)) ∧
    ¬ ((withS { base 3 with time := 5 } 6).cur.getS 1 ≤ (5 : DWord)) ∧
    (let trapped : Flock := { (base 3).cur with waitedAt := some (base 3).cur.pc };
      trapped.routine = .none ∧ trapped.waitedAt = some trapped.pc ∧ (base 3).cur.waitedAt ≠ some (base 3).cur.pc) := by decide

theorem base_mayTrap (em : Mask) : (base em).MayTrap := ⟨rfl, by show (0x4000 : Addr) ≠ 0; decide⟩
theorem test_meets_SoftwareTraps : (base 3).MayTrap := base_mayTrap 3

/-- A machine whose next instruction is this word or halfword. -/
noncomputable def planted (w : Nat) : State := (base 3).withFetchWord 32 w
theorem planted_fetches : (planted 0x000002AD).Fetches (.word 0x000002AD) :=
  ⟨⟨0, _, rfl, .inr ⟨rfl, by decide, by decide, by decide⟩⟩, ⟨2, _, rfl, .inr ⟨rfl, by decide, by decide, by decide⟩⟩⟩

/-- A flock whose table entries stand in a line in error. -/
def tornTables : State := { user 0 3 with tlb := [], broken := [.line 0] }

theorem test_meets_PreciseInstructionTraps :
    (base 3).cur.status = .running ∧ (inRoutine .trap).cur.status = .running ∧ ({ user 0 3 with contexts := [] } : State).cur.status = .running ∧
    { base 3 with cur := { (base 3).cur with status := .waiting } }.cur.status ≠ .running ∧ (base 3).Fetches (.half 0) ∧ (0#16).getLsbD 0 = false ∧
    (planted 0x000002AD).Fetches (.word 0x000002AD) ∧ (0x000002AD#32).getLsbD 0 = true ∧ (planted 0x000002AD).cur.status = .running ∧
    (∃ h, (planted 0x000002AD).FetchesHalf 4 (planted 0x000002AD).cur.pc h ∧ h.getLsbD 0 = true) ∧
    (∃ f, tornTables.translate (tornTables.agent tornTables.cur) { x := true, code := 4 } 0x1000 = .error (.soft f) ∧ f.kind = 0x30) ∧
    (base 3).MayTrap ∧ ¬ (inRoutine .trap).MayTrap ∧ (inRoutine .trap).cur.supervises = true ∧
    ¬ { user 0 3 with contexts := [] }.MayTrap ∧ { user 0 3 with contexts := [] }.cur.supervises = false ∧
    (base 3).FetchesHalf 4 (base 3).cur.pc 0 ∧ (base 3).FetchesHalf 5 ((base 3).cur.pc + 2) 0 ∧
    (∃ f, { user 0 3 with tlb := [{ page with leaf := { leaf with x := false } }] }.translate ({ user 0 3 with tlb := [{ page with leaf := { leaf with x := false } }] }.agent (flockOf 3))
      { x := true, code := 4 } 0x1000 = .error (.trap f) ∧ f.kind ≠ 0x30) ∧
    (∃ pa l, { base 3 with broken := [.line 0] }.translate ((base 3).agent (base 3).cur) { x := true, code := 4 } 0 = .ok (pa, l) ∧
      (base 3).heldCode pa = none ∧ SoftErrorPlace.line (pa / 64 * 64) ∈ [SoftErrorPlace.line 0]) :=
  ⟨rfl, rfl, rfl, by decide, ⟨0, _, rfl, .inr ⟨rfl, by decide, by decide, by decide⟩⟩, rfl, planted_fetches, by decide, by decide,
    ⟨_, planted_fetches.1, by decide⟩, ⟨_, rfl, by decide⟩, base_mayTrap 3, fun h => absurd h.1 (by decide), by decide, fun h => h.2 (by decide), by decide, ⟨0, _, rfl, .inr ⟨rfl, by decide, by decide, by decide⟩⟩,
    ⟨2, _, rfl, .inr ⟨rfl, by decide, by decide, by decide⟩⟩, ⟨_, rfl, by decide⟩, ⟨0, _, rfl, by decide, by decide⟩⟩

/-- A flock in a routine that is about to return to an address. -/
def returning (r : Routine) (epc : Addr) (privileged preempt : Bool) : State :=
  { base 3 with
    cur := { (base 3).cur with routine := r, epc := epc, privileged := privileged, preempt := preempt } }

theorem test_meets_ReturnFromRoutine :
    (returning .trap 3 true false).cur.epc.getLsbD 0 = true ∧ (returning .trap 2 true false).cur.epc.getLsbD 0 = false ∧
    (returning .trap 2 false false).cur.privileged = false ∧ (returning .none 2 true false).cur.routine = .none ∧
    (returning .trap 2 true false).cur.privileged = true ∧ (returning .gangAbort 2 true false).cur.routine = .gangAbort ∧
    (returning .trap 2 true false).cur.routine ≠ .none ∧ (returning .trap 2 true false).cur.routine ≠ .gangAbort ∧
    (returning .trap 2 true false).cur.preempt = false ∧ (returning .trap 2 true true).cur.preempt = true := by decide

/-- A fold whose scratch a step has written, once the configuration is sealed. -/
def writing : State :=
  { user 0 3 with
    fold := { foldOf with scratch := { cells := [(0, 1)] } }, plewick := { (user 0 3).plewick with sealed := true }
    cores := [(0, { due := [0x10000], wokeAt := some 0 })] }

/-- A flock of visit 0 has just loaded a byte that visit 1 of its launch wrote. -/
def alienRead : State :=
  { user 2 3 with
    launches := [{ launchOf 2 with wrote := [(1, 0x700)] }]
    cur := { (user 2 3).cur with pend := [{ op .loads [] with id := (user 2 3).nextId, places := [0x700] }] } }

/-- Such a load breaks R58, and a load of what its own fold wrote does not (R58, R59). -/
theorem test_read_of_another_fold :
    (alienRead.noteReads ((user 2 3).foldReads alienRead)).launches.map (fun l => (l.spoiled, l.strays)) = [(true, [0x700])] ∧
    (let own := { alienRead with launches := [{ launchOf 2 with wrote := [(0, 0x700)] }] }; (own.noteReads ((user 2 3).foldReads own)).launches = own.launches) := by decide +kernel

theorem test_meets_StepSettles :
    writing.plewick.sealed = true ∧ writing.fold ∈ writing.allFolds ∧ (user 0 3).fold? writing.fold.id = some foldOf ∧
    3 ∈ shareOf writing.fold.half writing.fold.position ∧ ((writing.core 0).granules[3]?).isSome = true ∧
    (user 0 3).leaves foldOf ((shareOf false 0).idxOf 3) ≠ writing.leaves writing.fold ((shareOf false 0).idxOf 3) ∧
    { user 0 3 with stopped := true }.sent writing = [] ∧ (∀ c ∈ writing.cores, c.2.port = []) ∧ writing.crowded = none ∧
    (64 : Nat) ∈ { writing with dirty := [64] }.cachedLines ∧ { writing with dirty := [64] }.crowded = none ∧
    (let broke := { launchOf 2 with strays := [0x700] }
      let t := { writing with launches := [broke], mem := [(0x700, 1)] };
      (∃ x ∈ (user 2 3).newPlaces alienRead PendOp.readsMemory, x.2 = 0x700 ∧ (alienRead.anyFold? x.1).isSome = true) ∧ broke.strays ≠ [] ∧ (user 2 3).mem ≠ t.mem ∧ (∀ l ∈ writing.launches, l.strays = []) ∧ t.mem.wf = true ∧ t.remote = [] ∧ 0x700 ∈ t.outputs broke ∧
        t.hardwareWord 0x700 = none ∧ t.ignored 0x700 = false) := by decide +kernel

/-- A sender waits with one request at the mesh port of core 0 (R314). -/
def waitingFor (a : Asker) : State := { user 0 3 with cores := [(0, { port := [{ ctx := 0, asker := a, tokens := 1 }] })] }

theorem test_meets_WhatAStepDoes :
    (planted 0x000002AD).agenda = [] ∧ (planted 0x000002AD).stopped = false ∧ (planted 0x000002AD).cur.status = .running ∧
    (planted 0x000002AD).cur.deliverable = none ∧ (planted 0x000002AD).beat < 64 ∧ (planted 0x000002AD).atPort (.fetch (planted 0x000002AD).cur.id) = false ∧
    (0x000002AD#32).getLsbD 0 = true ∧ (planted 0x000002AD).Fetches (.word 0x000002AD) ∧
    { base 3 with code := [(.core 256, 0, 0x2A)] }.FetchesHalf 4 0 0x2A ∧
    decodeEnc (.word 0x000002AD) = .ok .nop ∧ decodeEnc (.word 0xFFFFFFFF) = .illegal 0x07 ∧ decodeEnc (.half 0) = .illegal 0x01 ∧
    { base 3 with agenda := [.together [9, 10]] }.agenda = .together [9, 10] :: [] ∧
    { base 3 with agenda := [.act (.flockEnd 0)] }.agenda = .act (.flockEnd 0) :: [] ∧ (Instr.flockEnd 0).isEvent = true ∧ Instr.nop.isEvent = false ∧
    (∀ c w, Instr.flockEnd 0 ≠ .illegalInstruction c w) ∧ decodeEnc (.half 0) ≠ .illegal 0x07 ∧ (base 3).Fetches (.half 0) ∧
    (∀ f ∈ (user 0 3).allFolds, ∀ g, { user 0 3 with time := 5 }.fold? f.id = some g → ∀ k, { user 0 3 with time := 5 }.leaves g k = (user 0 3).leaves f k) ∧
    ({ base 3 with stopped := true }.stopped = true ∧ (status (base 3) .waiting).cur.status ≠ .running ∧ 64 ≤ { base 3 with beat := 64 }.beat ∧
      (waitingFor (.fetch 9)).atPort (.fetch (waitingFor (.fetch 9)).cur.id) = true) ∧
    ((base 3).issues = true ∧ { base 3 with beat := 64 }.issues = false ∧ (∀ l ∈ (user 0 3).launches, (user 0 3).mayReady l = false) ∧
      (user 0 3).plewick.sealed = false ∧ (user 0 3).time.toNat / 10000 = { user 0 3 with time := 5 }.time.toNat / 10000) :=
  ⟨by decide, by decide, by decide, by decide, by decide, by decide, by decide, planted_fetches, ⟨0, _, rfl, .inl (by decide)⟩, by decide, by decide, by decide, rfl,
    rfl, rfl, rfl, fun _ _ h => (by cases h), by decide, ⟨0, _, rfl, .inr ⟨rfl, by decide, by decide, by decide⟩⟩,
    fun f hf g hg k => by
      rw [List.mem_singleton.mp (show f ∈ [foldOf] from hf)] at hg ⊢
      rw [show g = foldOf from (Option.some.inj hg).symm]
      rfl, by decide, by decide⟩

/-- Numbers of registers that may be written, that may not, and that no register has, in a flock that is not privileged. -/
theorem test_meets_PrivilegedFunctions :
    (user 0 3).cur.privileged = false ∧ ((1 : BitVec 6).toNat < 24 ∧ (1 : BitVec 6) ∉ readOnlyRegisters) ∧
    ((23 : BitVec 6).toNat < 24 ∧ (23 : BitVec 6) ∈ readOnlyRegisters) ∧ 24 ≤ (24 : BitVec 6).toNat := by decide

theorem test_meets_RoundTrip : Instr.wf (.vadd 2 1 3 0) = true ∧ encode (.vadd 2 1 3 0) = some (.word 0x00182103) := by decide
theorem base_canonical (em : Mask) : (base em).Canonical := ⟨rfl, FarTable.nil, FarTable.nil⟩
theorem user_canonical (f : Word) (em : Mask) : (user f em).Canonical := ⟨rfl, FarTable.nil, FarTable.nil⟩
theorem test_meets_StepKeepsMemoryCanonical : (planted 0x000002AD).Canonical ∧ ∃ t, step (planted 0x000002AD) = .next t :=
  ⟨⟨by decide, FarTable.nil, FarTable.nil⟩, by
    have h : (planted 0x000002AD).issueNext = .next (planted 0x000002AD).advance := rfl
    have g : (planted 0x000002AD).issues = true := by decide
    have e : (planted 0x000002AD).agenda = [] := rfl
    simp [step, State.acts, h, g, e]⟩

/-! Premises of the memory statements. -/

theorem lanesTouch_of {s : State} {g : Guard} {m : Mask} {w : Nat} {bits : Fin 32 → Nat} {ts : Fin 32 → List Touch}
    (h : (lanes.all fun k => !m.on k || (bits k % w == 0 && (ts k).all (touchB s g))) = true) :
    ∀ k, m.on k = true → bits k % w = 0 ∧ s.Touchable g (ts k) := by
  intro k hk
  have h1 := List.all_eq_true.mp h k (List.mem_finRange k)
  simp only [hk, Bool.not_true, Bool.false_or, Bool.and_eq_true, beq_iff_eq] at h1
  exact ⟨h1.1, touchable_of h1.2⟩

/-- A check that passes, as a value. -/
def passes (e : Except Bad Unit) : Bool := match e with | .ok _ => true | .error _ => false
theorem ok_of {e : Except Bad Unit} (h : passes e = true) : e = .ok () := by
  cases e with
  | error b => cases h
  | ok u => rfl

/-- What an answer holds, as data. -/
def found {α : Type} (e : Except Bad α) : Option α := match e with | .ok x => some x | .error _ => none
theorem found_of {α : Type} {e : Except Bad α} {x : α} (h : found e = some x) : e = .ok x := by
  cases e with
  | error b => cases h
  | ok y => cases h; rfl

/-- Address register 1 holds x, and lane i of v2 holds i. -/
def aimed (s : State) (x : Addr) : State :=
  { s with cur := (s.cur.setA 1 x).setV 2 (Lanes.merge Lanes.zero 0xFFFFFFFF fun i => BitVec.ofNat 32 i.val) }

/-- Context 0 with its page typed. -/
def typed (code : BitVec 5) : State := { user 0 3 with tlb := [{ page with leaf := { leaf with format := code } }] }

theorem test_meets_LaneLoadResults :
    (base 0).cur.em = 0 ∧ (base 3).cur.em ≠ 0 ∧ (base 3).Ready .loads ∧ (base 3).broken = [] ∧
    (aimed (base 3) 0x100).LanesOk loadGuard 1 ((aimed (base 3) 0x100).cur.laneVa 1 2 (-16) 1) ∧
    (aimed (base 3) 0x100).LanesOk loadGuard 16 ((aimed (base 3) 0x100).cur.laneVa 1 2 15 16) ∧
    (aimed (user 0 3) 0x100).LanesOk loadGuard 4 ((aimed (user 0 3) 0x100).cur.laneVa 1 2 0 4) ∧ (base 3).VectorFree 5 ∧
    ((aimed (base 3) 0x100).cur.flockAddress 1 1 4).toNat % 4 = 0 ∧
    (aimed (base 3) 0x100).Touchable loadGuard (touchesFrom ((aimed (base 3) 0x100).cur.flockAddress 1 1 4) 4 .raw) :=
  ⟨by decide, by decide, by show _ < _; decide, rfl, lanesOk_of (by decide), lanesOk_of (by decide), lanesOk_of (by decide), idle_vector rfl 5,
    by decide, touchable_of (by decide)⟩

/-- Context 0 with a page of format 1 (R71). -/
theorem test_meets_TypedLoadResults :
    (typed 1).cur.em ≠ 0 ∧ (typed 1).Ready .loads ∧ (typed 1).broken = [] ∧ (typed 1).VectorFree 5 ∧
    (∃ pa l, (typed 1).locate ((typed 1).agent (typed 1).cur) Need.load ((typed 1).cur.getA 1) = .ok (pa, l) ∧ l.format = 1) ∧
    (∀ k, (typed 1).cur.em.on k = true → (typed 1).cur.laneBits 1 2 3 (elemOf 1).width k % (elemOf 1).width = 0 ∧
      (typed 1).Touchable loadGuard (elemTouches (typed 1).scaleBases 1 false ((typed 1).cur.laneBits 1 2 3 (elemOf 1).width k))) :=
  ⟨by decide, by show _ < _; decide, rfl, idle_vector rfl 5, ⟨_, _, rfl, rfl⟩, lanesTouch_of (by decide)⟩

theorem test_meets_RawStoreResults :
    (user 0 3).buffered = false ∧ (user 0 3).cur.em ≠ 0 ∧ (user 0 3).Ready .stores ∧ (user 0 3).Canonical ∧ (user 0 0).cur.em = 0 ∧
    (aimed (user 0 3) 0x100).LanesOk { need := Need.store } 16 ((aimed (user 0 3) 0x100).cur.laneVa 1 2 15 16) ∧
    (aimed (user 0 3) 0x100).LanesOk { need := Need.store } 4 ((aimed (user 0 3) 0x100).cur.laneVa 1 2 0 4) ∧
    ((aimed (user 0 3) 0x100).ignored 0x100 = false ∧ (aimed (user 0 3) 0x100).Plain 0x100) :=
  ⟨by decide, by decide, by show _ < _; decide, user_canonical 0 3, rfl, lanesOk_of (by decide), lanesOk_of (by decide), by decide, by decide⟩

theorem test_meets_BitStoreResults :
    (user 0 3).buffered = false ∧ (user 0 3).cur.em ≠ 0 ∧ (user 0 3).Ready .stores ∧ (user 0 3).Canonical ∧
    (∀ k, (user 0 3).cur.em.on k = true → (aimed (user 0 3) 0x100).cur.laneBits 1 2 1 4 k % 4 = 0 ∧
      (aimed (user 0 3) 0x100).Touchable { need := Need.store } (bitTouches ((aimed (user 0 3) 0x100).cur.laneBits 1 2 1 4 k) 4 .raw)) ∧
    (∀ k, (user 0 3).cur.em.on k = true → (aimed (user 0 3) 0x100).cur.laneBits 1 2 15 1 k % 1 = 0 ∧
      (aimed (user 0 3) 0x100).Touchable { need := Need.store } (bitTouches ((aimed (user 0 3) 0x100).cur.laneBits 1 2 15 1 k) 1 .raw)) ∧
    (let s := aimed (user 0 3) 0x100
      let place := fun (k : Fin 32) => s.placeAt Need.store (byteOf (s.cur.laneBits 1 2 0 1 k))
      let names := fun (i : Fin 32) (j : Nat) => s.cur.em.on i = true ∧ place i = place 0 ∧ s.cur.laneBits 1 2 0 1 i % 8 ≤ j ∧
        j < s.cur.laneBits 1 2 0 1 i % 8 + 1
      s.ignored (place 0) = false ∧ s.Plain (place 0) ∧ names 0 0 ∧ names 1 1 ∧ (∀ q, names q 1 → q ≤ 1) ∧ ∀ i, ¬ names i 7) :=
  ⟨by decide, by decide, by show _ < _; decide, user_canonical 0 3, lanesTouch_of (by decide), lanesTouch_of (by decide),
    by decide, by decide, by decide, by decide, by decide, by decide⟩

/-- A fold of that launch without a commit granule. -/
def unbuffered : State := { aimed (user 4 3) 0x100 with fold := { foldOf with commit := 0 } }

/-- A buffer with too few entries for a store, and for the lines of a lane store and of one bit of each lane. -/
theorem test_meets_BufferedStores_full :
    let s := aimed (user 4 3) 0x100
    (unbuffered.buffered = true ∧ unbuffered.cur.em ≠ 0 ∧ unbuffered.bufferRoom = some 0 ∧ unbuffered.cur.supervises = false ∧
      0 < unbuffered.newEntries (unbuffered.storedPlaces 4 (unbuffered.cur.laneVa 1 2 0 4)) ∧ s.newEntries (s.storedPlaces 4 (s.cur.laneVa 1 2 0 4)) ≤ 448 ∧
      s.newEntries ((activeLanes s.cur.em).map fun k => s.placeAt Need.store (byteOf (s.cur.laneBits 1 2 1 4 k))) ≤ 448) ∧
    unbuffered.Ready .stores ∧ unbuffered.LanesOk { need := Need.store } 4 (unbuffered.cur.laneVa 1 2 0 4) :=
  ⟨by decide +kernel, by show _ < _; decide, lanesOk_of (by decide)⟩

/-- The deterministic and the restartable flag (R25). -/
theorem test_meets_BufferedStores :
    (user 4 3).buffered = true ∧ (user 8 3).buffered = true ∧ (user 4 3).cur.em ≠ 0 ∧ (user 4 3).Ready .stores ∧ (user 4 3).bufferRoom = some 448 ∧
    (aimed (user 4 3) 0x100).LanesOk { need := Need.store } 4 ((aimed (user 4 3) 0x100).cur.laneVa 1 2 0 4) ∧
    (aimed (user 8 3) 0x100).LanesOk { need := Need.store } 1 ((aimed (user 8 3) 0x100).cur.laneVa 1 2 (-16) 1) ∧
    (bufferLines (user 4 3).cur.buf).Nodup ∧
    (∀ k, (user 4 3).cur.em.on k = true → (aimed (user 4 3) 0x100).cur.laneBits 1 2 1 4 k % 4 = 0 ∧
      (aimed (user 4 3) 0x100).Touchable { need := Need.store } (bitTouches ((aimed (user 4 3) 0x100).cur.laneBits 1 2 1 4 k) 4 .raw)) ∧
    (let s := { aimed (user 4 3) 0x100 with tlb := [{ page with leaf := { leaf with format := 1 } }] };
      (∃ pa l, s.locate (s.agent s.cur) Need.store (s.cur.getA 1) = .ok (pa, l) ∧ l.format = 1) ∧
      (∀ k, s.cur.em.on k = true → s.cur.laneBits 1 2 3 (elemOf 1).width k % (elemOf 1).width = 0 ∧
        s.Touchable { need := Need.store } (elemTouches s.scaleBases 1 false (s.cur.laneBits 1 2 3 (elemOf 1).width k))) ∧
      s.newEntries ((activeLanes s.cur.em).flatMap fun k => (elemTouches s.scaleBases 1 false (s.cur.laneBits 1 2 3 (elemOf 1).width k)).map fun t =>
        s.placeAt Need.store t.1) ≤ 448) ∧
    (((aimed (user 4 3) 0x100).cur.flockAddress 1 (-16) 16).toNat % 16 = 0 ∧ (user 4 3).newEntries [0, 15] ≤ 448 ∧
      (aimed (user 4 3) 0x100).Touchable { need := Need.store } (touchesFrom ((aimed (user 4 3) 0x100).cur.flockAddress 1 (-16) 16) 16 .raw)) ∧
    (aimed (user 4 3) 0x100).threadBefore 0 1 :=
  ⟨by decide, by decide, by decide, by show _ < _; decide, by decide, lanesOk_of (by decide), lanesOk_of (by decide), List.nodup_nil,
    lanesTouch_of (by decide), ⟨⟨_, _, rfl, rfl⟩, lanesTouch_of (by decide), by decide⟩, ⟨by decide, by decide, touchable_of (by decide)⟩,
    fun _ h => (by cases h; decide)⟩

theorem test_meets_TypedStoreResults :
    (typed 1).buffered = false ∧ (typed 1).cur.em ≠ 0 ∧ (typed 1).Ready .stores ∧ (typed 1).Canonical ∧
    (∃ pa l, (typed 1).locate ((typed 1).agent (typed 1).cur) Need.store ((typed 1).cur.getA 1) = .ok (pa, l) ∧ l.format = 1) ∧
    (∀ k, (typed 1).cur.em.on k = true → (typed 1).cur.laneBits 1 2 3 (elemOf 1).width k % (elemOf 1).width = 0 ∧
      (typed 1).Touchable { need := Need.store } (elemTouches (typed 1).scaleBases 1 false ((typed 1).cur.laneBits 1 2 3 (elemOf 1).width k))) :=
  ⟨by decide, by decide, by show _ < _; decide, ⟨rfl, FarTable.nil, FarTable.nil⟩, ⟨_, _, rfl, rfl⟩, lanesTouch_of (by decide)⟩

theorem test_meets_ScalarMemoryResults :
    (user 0 0).Ready .loads ∧ (user 0 0).Ready .stores ∧ (user 0 0).broken = [] ∧ (user 0 0).Canonical ∧ (user 0 0).buffered = false ∧
    ((aimed (user 0 0) 0x100).cur.flockAddress 1 (-16) 16).toNat % 16 = 0 ∧ ((aimed (user 0 0) 0x100).cur.flockAddress 1 15 8).toNat % 8 = 0 ∧
    (aimed (user 0 0) 0x100).Touchable loadGuard (touchesFrom ((aimed (user 0 0) 0x100).cur.flockAddress 1 (-16) 16) 16 .raw) ∧
    (aimed (user 0 0) 0x100).Touchable { need := Need.store } (touchesFrom ((aimed (user 0 0) 0x100).cur.flockAddress 1 15 8) 8 .raw) ∧
    (user 0 0).ScalarFree 4 ∧ (user 0 0).AddressFree 4 :=
  ⟨by show _ < _; decide, by show _ < _; decide, rfl, user_canonical 0 0, by decide, by decide, by decide, touchable_of (by decide), touchable_of (by decide),
    idle_scalar rfl 4, idle_address rfl 4⟩

theorem test_meets_ScratchResults :
    let s := aimed (user 0 3) 0
    let at_ := fun (k : Fin 32) => scratchAddress (s.cur.getS 0) ((s.cur.lane 2 k).toInt + 15) 4
    let one := scratchAddress (s.cur.getS 0) 15 16
    s.Ready .loads ∧ s.Ready .stores ∧ s.broken = [] ∧ s.cur.em ≠ 0 ∧ s.VectorFree 5 ∧
    (∀ k : Fin 32, s.cur.em.on k = true → at_ k % 4 = 0 ∧ at_ k + 4 ≤ s.fold.localBytes ∧ s.fold.checkScratch 1 (at_ k) 4 = .ok ()) ∧
    one % 16 = 0 ∧ one + 16 ≤ s.fold.localBytes ∧ s.fold.checkScratch 1 one 16 = .ok () ∧ s.fold.id ≠ 0 ∧ s.cur.fold = s.fold.id ∧
    (∀ f ∈ s.allFlocks, f.fold = s.fold.id → ∀ o ∈ f.pend, o.reads = []) ∧ s.fold.scratch.reused = [] ∧ s.fold.scratch.cells.wf = true ∧
    s.fold.spoils (some s.cur.id) one = false := by
  have h : ∀ k : Fin 32, (aimed (user 0 3) 0).cur.em.on k = true →
      scratchAddress ((aimed (user 0 3) 0).cur.getS 0) (((aimed (user 0 3) 0).cur.lane 2 k).toInt + 15) 4 % 4 = 0 ∧
      scratchAddress ((aimed (user 0 3) 0).cur.getS 0) (((aimed (user 0 3) 0).cur.lane 2 k).toInt + 15) 4 + 4 ≤ (aimed (user 0 3) 0).fold.localBytes ∧
      passes ((aimed (user 0 3) 0).fold.checkScratch 1
        (scratchAddress ((aimed (user 0 3) 0).cur.getS 0) (((aimed (user 0 3) 0).cur.lane 2 k).toInt + 15) 4) 4) = true := by decide
  exact ⟨by show _ < _; decide, by show _ < _; decide, rfl, by decide, idle_vector rfl 5,
    fun k hk => ⟨(h k hk).1, (h k hk).2.1, ok_of (h k hk).2.2⟩, by decide, by decide, ok_of (by decide), by decide, by decide,
    fun f hf _ o ho => by
      have hp : f.pend.isEmpty = true := (by decide : ∀ f ∈ (aimed (user 0 3) 0).allFlocks, f.pend.isEmpty = true) f hf
      exact absurd ho (by rw [List.isEmpty_iff.mp hp]; simp),
    by decide, by decide, by decide⟩

/-- Two lanes at locations of their own, and two at one location; a launch whose flags bar atomics that return a value, and one whose buffer holds
an entry. -/
theorem test_meets_AtomicAndReductionResults :
    let apart := aimed (user 0 3) 0x100
    let one := { user 0 3 with cur := (user 0 3).cur.setA 1 0x100 }
    let held := { user 8 3 with cur := { ((user 8 3).cur.setA 1 0x100) with buf := [.line 0 0 0 0] } }
    let det := aimed (user 4 3) 0x100
    let place := fun (k : Fin 32) (j : Nat) => apart.placeAt Need.atomic (apart.cur.laneVa 1 2 0 4 k + BitVec.ofNat 72 j)
    apart.broken = [] ∧ apart.Canonical ∧ apart.cur.em ≠ 0 ∧ apart.performs ∧ (user 8 3).performs ∧ apart.Ready .loads ∧ apart.Ready .stores ∧
    apart.AtomicsOk 8 (apart.cur.laneVa 1 2 0 8) ∧ one.AtomicsOk 4 (one.cur.laneVa 1 2 0 4) ∧ one.performs ∧
    (∀ i j p q, apart.cur.em.on i = true → apart.cur.em.on j = true → p < 4 → q < 4 → place i p = place j q → i = j ∧ p = q) ∧
    (unbuffered.determ = true ∧ unbuffered.bufferRoom = some 0 ∧ 0 < (activeLanes unbuffered.cur.em).length ∧ unbuffered.cur.supervises = false ∧
      (∀ l ∈ bufferLines unbuffered.cur.buf, l < 2 ^ 52) ∧ (activeLanes det.cur.em).length ≤ 448) ∧
    (det.determ = true ∧ det.bufferRoom = some 448 ∧ det.LanesOk { need := Need.atomic, atomic := true } 4 (det.cur.laneVa 1 2 0 4)) ∧
    (det.cur.em.on 0 = true ∧ (∀ j : Fin 32, j < 0 → det.cur.em.on j = false) ∧ (det.cur.laneVa 1 2 0 4 0).toNat % 4 = 0 ∧
      det.locate (det.agent det.cur) Need.atomic (det.cur.laneVa 1 2 0 4 0) = .ok (0x100, leaf) ∧ rawOk leaf = true ∧ det.Ready .loads) ∧
    (held.determ = false ∧ held.buffered = true ∧ held.cur.buf ≠ [] ∧ held.Ready .stores ∧
      held.locate (held.agent held.cur) Need.atomic (held.cur.laneVa 1 2 0 8 0) = .ok (0x100, leaf)) := by
  have h0 : ∀ (k : Fin 32) (j : Fin 4), (user 0 3).cur.em.on k = true → (aimed (user 0 3) 0x100).placeAt Need.atomic
      ((aimed (user 0 3) 0x100).cur.laneVa 1 2 0 4 k + BitVec.ofNat 72 j.val) = 0x100 + 4 * k.val + j.val := by decide
  refine ⟨rfl, user_canonical 0 3, by decide, ⟨by decide, by decide⟩, ⟨by decide, by decide⟩, by show _ < _; decide, by show _ < _; decide,
    ⟨lanesOk_of (by decide), by decide⟩, ⟨lanesOk_of (by decide), by decide⟩, ⟨by decide, by decide⟩, ?_, by decide,
    ⟨by decide, by decide, lanesOk_of (by decide)⟩, ⟨by decide, by decide, by decide, rfl, rfl, by show _ < _; decide⟩,
    by decide, by decide, by decide, by show _ < _; decide, rfl⟩
  intro i j p q hi hj hp hq he
  have he' : 0x100 + 4 * i.val + p = 0x100 + 4 * j.val + q := (h0 i ⟨p, hp⟩ hi).symm.trans (he.trans (h0 j ⟨q, hq⟩ hj))
  exact ⟨Fin.ext (by omega), by omega⟩

/-- Address register 1 at a line of this device, of another device (R328), and of a page that raw accesses may not use. -/
def near : State := aimed (user 0 3) 0x100
def far : State := aimed (base 3) (BitVec.ofNat 72 (2 ^ 51 + 2 ^ 40))
def refusing : State := aimed { user 0 3 with tlb := [{ page with leaf := { leaf with format := 1, raw := false } }] } 0x100

theorem near_lines : ∀ k : Fin 32, near.cur.em.on k = true →
    (found (near.locate (near.agent near.cur) Need.load (near.cur.laneVa 1 2 0 64 k))).isSome = true := by decide +kernel

theorem test_meets_MonitorAndCacheResults :
    (∃ l, near.locate (near.agent near.cur) Need.load (near.cur.flockAddress 1 15 64) = .ok (0x4C0, l) ∧ rawOk l = true) ∧
    near.reach (near.agent near.cur) (near.cur.flockAddress 1 15 64) 0x4C0 = .ok () ∧ 0x4C0 < Config.apertureBase ∧
    (∃ l, far.locate (far.agent far.cur) Need.load (far.cur.flockAddress 1 0 64) = .ok (2 ^ 51 + 2 ^ 40, l) ∧ rawOk l = true) ∧
    Config.apertureBase ≤ 2 ^ 51 + 2 ^ 40 ∧
    (∃ pa l, refusing.locate (refusing.agent refusing.cur) Need.load (refusing.cur.flockAddress 1 15 64) = .ok (pa, l) ∧ rawOk l = false) ∧
    (∀ k, near.cur.em.on k = true → ∃ r, near.locate (near.agent near.cur) Need.load (near.cur.laneVa 1 2 0 64 k) = .ok r) ∧ near.Canonical :=
  ⟨⟨_, rfl, rfl⟩, rfl, by decide,
    ⟨{ base := 2 ^ 51 + 2 ^ 40, raw := true, x := true, w := true, r := true, ns := true }, found_of (by decide +kernel), rfl⟩, by decide,
    ⟨_, _, rfl, rfl⟩, fun k hk => (Option.isSome_iff_exists.mp (near_lines k hk)).imp fun _ => found_of, user_canonical 0 3⟩

/-- A line under tag 9 of context 512 whose bytes held 0 and then 1. -/
def tagged : State :=
  { base 3 with
    tags := [{ line := 64, tag := 9, ctx := 512, history := (List.range 64).map (fun k => (64 + k, 0)) ++ (List.range 64).map fun k => (64 + k, 1) }] }
/-- A line of another device under tag 9. -/
def farTagged : State := { tagged with tags := [{ line := Config.apertureBase, tag := 9, ctx := 512, history := [] }] }
/-- A line under tag 9 of context 0, whose tables map nothing. -/
def unmapped : State := { user 0 3 with tags := [{ line := 64, tag := 9, ctx := 0, history := [] }] }

theorem test_meets_TensorDiscard :
    tagged.Canonical ∧ ((withS tagged 0).cur.getS 1).setWidth 16 = 0#16 ∧ ((withS tagged 9).cur.getS 1).setWidth 16 ≠ 0#16 ∧
    (tagged.agent tagged.cur).space = none ∧ (∀ sn ∈ tagged.snapshots, tagged.begun sn = false) ∧ ¬ tagged.SnapTarget 64 ∧
    (∃ l ∈ tagged.tags, (l.tag = 9 ∧ l.ctx = (tagged.agent tagged.cur).ctx) ∧ l.line < Config.apertureBase ∧
      (∀ k ∈ tagged.tags, k.line = l.line → k = l) ∧ (∃ c ∈ l.history, c.1 = l.line + 63) ∧ ∀ k ∈ tagged.tags, k.line % 64 = 0) ∧
    (∃ l ∈ farTagged.tags, (l.tag = 9 ∧ l.ctx = (farTagged.agent farTagged.cur).ctx) ∧ Config.apertureBase ≤ l.line ∧ l.line % 64 = 0) ∧
    (∃ l ∈ unmapped.tags, (l.tag = 9 ∧ l.ctx = (unmapped.agent unmapped.cur).ctx) ∧ (unmapped.agent unmapped.cur).space = some 0 ∧
      ¬ (∀ c, (unmapped.agent unmapped.cur).space = some c → ∃ m ∈ unmapped.mappedAt (unmapped.agent unmapped.cur) c l.line, m.2 = none) ∧
      unmapped.mappedAt (unmapped.agent unmapped.cur) 0 l.line = []) ∧
    (let open_ := 2 ^ 3 + 2 ^ 15
      let g := tagged.agent tagged.cur
      (writeBarred { g with secure := false } 8 8 = some (0x12, 0) ∧ writeBarred { g with secure := false } 8 open_ = none ∧
        writeBarred g 0 open_ = some (0x11, 2) ∧ writeBarred { g with privileged := false } 40 open_ = some (0x11, 8))) := by
  refine ⟨⟨rfl, FarTable.nil, FarTable.nil⟩, by decide, by decide, rfl, fun _ h => (by cases h), fun ⟨_, h, _⟩ => (by cases h),
    ⟨_, List.mem_singleton_self _, ⟨rfl, by decide⟩, by decide, fun k hk _ => List.mem_singleton.mp hk, ?_,
      fun k hk => by rw [List.mem_singleton.mp hk]; rfl⟩,
    ⟨_, List.mem_singleton_self _, ⟨rfl, by decide⟩, Nat.le_refl _, by decide⟩, ⟨_, List.mem_singleton_self _, ⟨rfl, by decide⟩, rfl, ?_, by decide⟩, by decide⟩
  · exact ⟨(127, 0), List.mem_append_left _ (List.mem_map.mpr ⟨63, List.mem_range.mpr (by decide), rfl⟩), rfl⟩
  · intro h
    obtain ⟨m, hm, -⟩ := h 0 rfl
    have h0 : unmapped.mappedAt (unmapped.agent unmapped.cur) 0 64 = [] := by decide
    rw [h0] at hm
    cases hm

/-- Lanes 1 and 2 are active, and lane 1 is the lowest; both are misaligned. -/
theorem test_meets_MisalignedAccess :
    (aimed (base 6) 0x102).cur.em.on 2 = true ∧ ((aimed (base 6) 0x102).cur.laneVa 1 2 0 4 2).toNat % 4 ≠ 0 ∧
    ((aimed (base 6) 0x101).cur.laneVa 1 2 15 16 2).toNat % 16 ≠ 0 ∧ ((aimed (base 6) 0x103).cur.laneVa 1 2 (-16) 2 2).toNat % 2 ≠ 0 ∧
    (aimed (base 6) 0x102).cur.em.on 1 = true ∧ (∀ j : Fin 32, j < 1 → (aimed (base 6) 0x102).cur.em.on j = false) ∧ (base 6).Ready .loads ∧
    (base 6).Ready .stores :=
  ⟨by decide, by decide, by decide, by decide, by decide, by decide, by show _ < _; decide, by show _ < _; decide⟩

/-! Premises of the tile, matrix and copy statements. -/

theorem test_meets_EmptyMaskDoesNothing : (base 0).cur.em = 0 ∧ (base 0).cur.privileged = true ∧ (user 0 0).cur.em = 0 ∧
    (user 0 0).cur.privileged = false := by decide

/-- A check that gives a value. -/
def succeeds {α : Type} (e : Except Bad α) : Bool := match e with | .ok _ => true | .error _ => false
theorem value_of {α : Type} {e : Except Bad α} (h : succeeds e = true) : ∃ x, e = .ok x := by
  cases e with
  | error b => cases h
  | ok x => exact ⟨x, rfl⟩
/-- The trap that a check finds, if any. -/
def trapOf {α : Type} (e : Except Bad α) : Option TrapInfo := match e with | .error (.trap f) => some f | _ => none
theorem trap_of {α : Type} {e : Except Bad α} (h : (trapOf e).isSome = true) : ∃ f, e = .error (.trap f) := by
  cases e with
  | ok x => cases h
  | error b => cases b <;> first | exact ⟨_, rfl⟩ | cases h

/-- A layout record at 0x200 of one dimension and one element at 0, in 8 rows of 2 planes, with pad (R176). -/
def layoutCells (rows flags sparse : Byte) : Mem :=
  [(0x201, 0x10), (0x210, 1), (0x211, rows), (0x212, 32), (0x213, 2), (0x214, flags)] ++
    (if sparse = 0 then [] else [(0x215, sparse)]) ++ [(0x220, 1), (0x240, 1)]

/-- Context 0 with a page of FP32, or raw, such a record, address register 1 at it, and the data 1.0 at 0x1000. -/
def laid (rows flags sparse : Byte) : State :=
  { aimed (user 0 3) 0x200 with
    tlb := [{ page with leaf := { leaf with format := 1 } }], mem := layoutCells rows flags sparse ++ [(0x1002, 0x80), (0x1003, 0x3F)] }

theorem test_meets_TileDescriptorResults :
    (∃ e, (laid 8 1 0).bindTile 0x200 0 = .ok e) ∧ (∃ f, (laid 8 1 0).bindTile 0x201 0 = .error (.trap f)) ∧
    (∃ f, (laid 8 0x21 0).bindTile 0x200 0 = .error (.trap f)) ∧ (laid 8 1 0).ScalarFree 5 :=
  ⟨value_of (by decide +kernel), trap_of (by decide +kernel), trap_of (by decide +kernel), idle_scalar rfl 5⟩

/-- Descriptor 2 bound to that record, its image at scratch address 0. -/
def bound (rows flags sparse : Byte) : State :=
  let s := laid rows flags sparse
  match s.bindTile 0x200 0 with
  | .ok d => { s with cur := s.cur.setTd 2 d }
  | .error _ => s
def planOf (s : State) (t : Bool) : Except Bad (List EntryBytes) :=
  let d := s.cur.getTd 2
  s.checkEntries Need.engineRead (d.entries t d.width (d.loadTouch s.scaleBases)) (s.checkFootprint d) d.layout.raw false false false

theorem test_meets_TileLoadResults :
    (bound 8 1 0).Ready .copies ∧
    ((bound 8 1 0).broken = [] ∧ ((bound 8 1 0).cur.getTd 2).loadOk .raw = false ∧ ((bound 8 1 0).cur.getTd 2).loadOk .plain = true ∧
      ((bound 8 1 0).cur.getTd 2).outOfExtent false = false ∧ ((bound 8 0 0).cur.getTd 2).outOfExtent false = true ∧
      ((bound 8 1 0).cur.getTd 2).loadOk .transposed = true ∧ ((bound 8 1 0).cur.getTd 2).outOfExtent true = false ∧
      ((bound 8 1 2).cur.getTd 2).loadOk .sparse = true ∧ ((bound 8 9 0).cur.getTd 2).loadOk .raw = true) ∧
    ∀ x ∈ [(bound 8 1 0, false), (bound 8 1 0, true), (bound 8 1 2, false), (bound 8 9 0, false)], ∃ p, planOf x.1 x.2 = .ok p := by
  have h : ∀ x ∈ [(bound 8 1 0, false), (bound 8 1 0, true), (bound 8 1 2, false), (bound 8 9 0, false)], succeeds (planOf x.1 x.2) = true := by
    decide +kernel
  exact ⟨by show _ < _; decide +kernel, by decide +kernel, fun x hx => value_of (h x hx)⟩

/-- A check that gives a value with a property. -/
def checks {α : Type} (e : Except Bad α) (p : α → Bool) : Bool := match e with | .ok x => p x | .error _ => false
theorem value_that {α : Type} {e : Except Bad α} {p : α → Bool} (h : checks e p = true) : ∃ x, e = .ok x ∧ p x = true := by
  cases e with
  | error b => cases h
  | ok x => exact ⟨x, rfl, h⟩

def storePlan (s : State) (f : StoreForm) : Except Bad (List EntryBytes) :=
  let d := s.cur.getTd 2
  s.checkEntries Need.engineWrite (d.entries (f == .transposed) (if f = .pair then 64 else 32) (d.storeTouch s.scaleBases f)) (.ok ())
    (f == .pair) (f == .add) (s.buffered && !s.determ && !(s.cur.buf.isEmpty && s.fold.buf.isEmpty)) (if f = .add then s.determ else s.buffered)

/-- The same descriptor in a deterministic launch (R25). -/
def boundDeterm : State := { bound 8 1 0 with launches := [launchOf 4] }
/-- The same without a commit granule. -/
def boundFull : State := { boundDeterm with fold := { boundDeterm.fold with commit := 0 } }

theorem test_meets_TileStoreResults :
    (bound 8 1 0).Ready .copies ∧
    ((bound 8 1 0).broken = [] ∧ (16 * (bound 8 1 0).fold.acc ≤ (16#6).toNat) ∧ (15#6).toNat < 16 * (bound 8 1 0).fold.acc ∧
      ((bound 8 1 0).cur.getTd 2).storeOk 15 = true ∧ ((bound 8 1 0).cur.getTd 2).outOfExtent false = false ∧
      ((bound 8 1 0).cur.getTd 2).outOfExtent true = false ∧ (bound 8 1 0).earlyRead (((bound 8 1 0).cur.getTd 2).storeTiles 15) = false ∧
      (bound 8 1 0).tileBusy [15] = false ∧ (bound 8 1 0).bufferRoom = none ∧ boundDeterm.bufferRoom = some 448) ∧
    (∀ f ∈ [StoreForm.plain, .transposed, .pair], ∃ p, storePlan (bound 8 1 0) f = .ok p ∧ decide (∀ x ∈ p, 15 + x.1.row / 8 = 15) = true) ∧
    (∃ p, storePlan boundFull .plain = .ok p ∧ decide (boundFull.bufferRoom = some 0 ∧ boundFull.cur.supervises = false ∧
      0 < boundFull.cur.newLines ((boundFull.plainTile (boundFull.cur.getTd 2) 15 p).flatMap fun w => w.val)) = true) ∧
    ∃ p, storePlan boundDeterm .plain = .ok p ∧
      decide (boundDeterm.cur.newLines ((boundDeterm.plainTile (boundDeterm.cur.getTd 2) 15 p).flatMap fun w => w.val) ≤ 448) = true := by
  have h : ∀ f ∈ [StoreForm.plain, .transposed, .pair],
    checks (storePlan (bound 8 1 0) f) (fun p => decide (∀ x ∈ p, 15 + x.1.row / 8 = 15)) = true := by decide +kernel
  exact ⟨by show _ < _; decide +kernel, by decide +kernel, fun f hf => value_that (h f hf), value_that (by decide +kernel), value_that (by decide +kernel)⟩

theorem test_meets_TileStoreAddResult :
    (bound 8 1 0).Canonical ∧ ((bound 8 1 0).determ = false ∧ boundDeterm.determ = true) ∧
    (∃ p, storePlan (bound 8 1 0) .add = .ok p ∧
      decide ((∀ x ∈ p, 15 + x.1.row / 8 = 15) ∧ (∀ x ∈ p, ∀ b ∈ x.2, b.2 < Config.plewickBase ∧ (bound 8 1 0).Plain b.2) ∧
        (p.flatMap fun x => x.2.map fun b => b.2).Nodup ∧ ∀ x ∈ p, 4 ≤ x.2.length) = true) ∧
    (∃ p, storePlan boundFull .add = .ok p ∧ decide (boundFull.determ = true ∧ boundFull.bufferRoom = some 0 ∧ 0 < (tileReductions boundFull.cur.field
      boundFull.cur.ttag boundFull.cur.pc boundFull.nextId ((boundFull.addends 15 p).map fun x => heldAddend x.1 x.2.val)).length) = true) ∧
    ∃ p, storePlan boundDeterm .add = .ok p ∧ decide ((tileReductions boundDeterm.cur.field boundDeterm.cur.ttag boundDeterm.cur.pc boundDeterm.nextId
      ((boundDeterm.addends 15 p).map fun x => heldAddend x.1 x.2.val)).length ≤ 448) = true := by
  have hr : (bound 8 1 0).remote = [] := by decide +kernel
  have hc : (bound 8 1 0).clean = [] := by decide +kernel
  exact ⟨⟨by decide +kernel, hr ▸ FarTable.nil, hc ▸ FarTable.nil⟩, by decide +kernel,
    value_that (by decide +kernel), value_that (by decide +kernel), value_that (by decide +kernel)⟩

/-- Descriptors of a matrix instruction: 1 for the A operand, 2 for the B operand. -/
def operand (rows : Nat) (flags : BitVec 8) (sparse : Nat) (format : BitVec 5) (planes : Nat) (at_ : Word) : TileDesc where
  binding := .scratch
  layout := { rank := 1, rows := rows, columns := 32, planes := planes, flags := flags, sparse := sparse }
  format := format
  scratch := at_
  planes := planes
def multiplying (a b : TileDesc) : State := { user 0 3 with cur := ((user 0 3).cur.setTd 1 a).setTd 2 b }
/-- Operands in registers 8 and 9; an FP32 B operand in K form, an INT1 and an LNS6 one. -/
def inRegisters : TileDesc := { binding := .registers, vbase := 8, planes := 2 }
def floatB : TileDesc := operand 32 4 0 1 2 0x4000
def bitB : TileDesc := operand 32 0 0 0x11 1 0x4000
def logB : TileDesc := operand 32 0 0 9 6 0x4000

def operandsOk (mode : Mode) (one : Bool) (a b : TileDesc) : Bool :=
  let s := multiplying a b
  passes (s.checkOperands mode one (s.cur.getTd 1) (s.cur.getTd 2)) && !s.imageUnsettled (s.cur.getTd 1) && !s.imageUnsettled (s.cur.getTd 2)

theorem test_meets_MatrixResults :
    let s := multiplying inRegisters floatB
    let some_ : MatrixForm := ⟨.mma 3 1 2 0 0 0 0, .mma, false, 12, false⟩
    let none_ : MatrixForm := ⟨.mma 3 1 2 0 0 0 1, .mma, false, 12, false⟩
    let one : MatrixForm := ⟨.mmaQ 15 1 2 0 0 0 0, .mma, true, 15, false⟩
    s.Ready .tiles ∧ some_ ∈ matrixForms 3 1 2 15 0 0 0 0 ∧
    (16 * s.fold.acc ≤ 16 ∧ (∀ k ∈ [12, 13, 14, 15], k < 16 * s.fold.acc) ∧ s.cur.active 0 = 3 ∧ s.cur.active 1 = 0 ∧
      [12, 13, 14, 15].filter (some_.works 3) = [12] ∧ [12, 13, 14, 15].filter (none_.works 0) = [] ∧ [15].filter (one.works 3) = [15] ∧
      s.cur.fencedWork = false ∧ s.broken = [] ∧ s.tileBusy [12] = false ∧ inRegisters.regs ≠ [] ∧
      ∀ r ∈ inRegisters.regs, s.cur.busy (Dest.isVector r) = false) ∧
    ∀ x ∈ [(Mode.mma, false, inRegisters, floatB), (.mma, true, inRegisters, floatB), (.mma, false, operand 32 0 0 1 2 0, floatB),
      (.mms, false, operand 32 0 2 1 2 0, floatB), (.xor, false, operand 32 0 0 0x11 1 0, bitB), (.and, true, operand 8 0 0 0x11 1 0, bitB),
      (.mml, false, operand 32 0 0 9 6 0, logB), (.mml, true, operand 8 0 0 9 6 0, logB), (.mms, true, operand 8 0 4 1 2 0, floatB),
      (.xor, true, operand 8 0 0 0x11 1 0, bitB), (.and, false, operand 32 0 0 0x11 1 0, bitB)],
      operandsOk x.1 x.2.1 x.2.2.1 x.2.2.2 = true :=
  ⟨by show _ < _; decide +kernel, .head _, by decide +kernel, by decide +kernel⟩

/-- Another flock of the fold has begun to write a tile. -/
def besides (tile : Nat) : State := { user 0 3 with flocks := [{ flockOf 3 with id := 10, field := 1, pend := [{ op .tiles [] with tiles := [tile] }] }] }

/-- What another flock's incomplete operation writes is undefined to a read (R93, R117): every lane gets a free value. -/
theorem test_other_flocks_tile : (besides 15).earlyRead [15] = true ∧ (besides 15).tileBusy [15] = true ∧ (user 0 3).earlyRead [15] = false := by decide

theorem test_meets_AccumulatorResults :
    let broken_ := { user 0 3 with broken := [.accumulator 5 15 0 0] }
    ((user 0 3).Ready .tiles ∧ (user 0 3).VectorFree 5) ∧
    16 * (user 0 3).fold.acc ≤ (16#6).toNat ∧ (15#6).toNat < 16 * (user 0 3).fold.acc ∧ (user 0 3).earlyRead [(15#6).toNat] = false ∧
    (user 0 0).cur.em = 0 ∧ (user 0 3).cur.em ≠ 0 ∧ (user 0 3).broken = [] ∧ (user 0 3).badEntry (15#6).toNat 0 0 = false ∧
    broken_.badEntry (15#6).toNat 0 0 = true ∧
    ((besides 15).Ready .tiles ∧ (besides 15).cur.matrixRead [15] = false ∧
      ∃ g ∈ (besides 15).flocks, g.fold = (besides 15).cur.fold ∧ g.id ≠ (besides 15).cur.id ∧ ∃ o ∈ g.pend, o.done = false ∧ 15 ∈ o.tiles) :=
  ⟨⟨by show _ < _; decide, idle_vector rfl 5⟩, by decide, by decide, by decide, by decide, by decide, by decide, by decide, by decide,
    by show _ < _; decide, by decide, _, .head _, by decide, by decide, _, .head _, by decide, .head _⟩

/-- A layout record at `at_` of one dimension and one element, in FP32 with checksums, its base on a page (R176). -/
def recordCells (at_ : Nat) (page_ : Byte) : Mem :=
  [(at_ + 1, 0x10), (at_ + 2, page_), (at_ + 16, 1), (at_ + 20, 2), (at_ + 32, 1), (at_ + 64, 1)].filter fun c => c.2 != 0
/-- Pages 1 to 3 of context 0 lie in host memory, on device 5 and in second-tier memory; scalars 1 to 6 name records whose bases lie at 0x1000 of
pages 0, 0, 1 and 2, an image at 0 and one in slot 0. -/
def copying : State :=
  let f := (((((flockOf 3).setS 1 0x200).setS 2 0x280).setS 3 0x300).setS 4 0x380).setS 6 0x1000000
  let at_ := fun (p b : Nat) => ({ page with page := p, leaf := { leaf with base := b, format := 1 } } : TlbEntry)
  { user 0 3 with
    cur := f, tlb := [at_ 0 0, at_ 1 Config.hostBase, at_ 2 (Config.apertureBase + 5 * 2 ^ 40), at_ 3 Config.tierBase]
    mem := recordCells 0x200 0 ++ recordCells 0x280 0 ++ recordCells 0x300 1 ++ recordCells 0x380 2
    fold := { foldOf.setSlot 0 (some 2) with troughs := foldOf.troughs.set 1 { set := true, count := 2 } }
    contexts := [(0, { state := 2, tvec := 0x4000, leases := [{ handle := 1, base := 0x1000, len := 64, expiry := 100, spans := [] }] })] }
/-- The forms of `copyForms` pass with sources and destinations of their regions (R375). -/
noncomputable def copyPasses (k : Nat) (a b : BitVec 5) : Bool :=
  match (copyForms copying.cur a b 0 0 0)[k]? with
  | some e => succeeds (copying.copyCheck { kind := e.2.1, src := e.2.2.1, dst := e.2.2.2, start := [0, 0, 0, 0, 0], stamp := 0 })
  | none => false
noncomputable def copyTraps (k : Nat) (a b : BitVec 5) : Bool :=
  match (copyForms copying.cur a b 0 0 0)[k]? with
  | some e => (trapOf (copying.copyCheck { kind := e.2.1, src := e.2.2.1, dst := e.2.2.2, start := [0, 0, 0, 0, 0], stamp := 0 })).isSome
  | none => false

theorem test_meets_CopyIssue :
    copying.cur.active 0 ≠ 0 ∧ copying.cur.active 1 = 0 ∧ copying.Ready .copies ∧
    copyPasses 0 1 2 = true ∧ copyPasses 5 0 2 = true ∧ copyTraps 0 5 5 = true :=
  ⟨by decide +kernel, by decide +kernel, by show _ < _; decide +kernel, by decide +kernel, by decide +kernel, by decide +kernel⟩

/-- Scalar 2 names trough 1. -/
theorem test_meets_CopyIssue_trough : ∃ p, { copying with cur := copying.cur.setS 2 1 }.copyCheck
    { kind := .mt, src := .record 0x200, dst := .trough 1, start := [0, 0, 0, 0, 0], stamp := 0 } = .ok p := value_of (by decide +kernel)

/-- A step record at 0x400 from record 0x200 to record 0x380, both with welts; scalar 1 names it. -/
def stepping : State :=
  { copying with
    cur := copying.cur.setS 1 0x400
    mem := recordCells 0x200 0 ++ recordCells 0x380 2 ++ [(0x401, 0x02), (0x410, 0x80), (0x411, 0x03), (0x430, 7)] }

/-- The same with a step record that has a reserved byte; and one at an address that is no multiple of 64. -/
def misstepping : State := { stepping with mem := stepping.mem ++ [(0x43F, 1)] }
def askew : State :=
  { stepping with
    cur := stepping.cur.setS 1 0x404
    mem := recordCells 0x200 0 ++ recordCells 0x380 2 ++ [(0x405, 0x02), (0x414, 0x80), (0x415, 0x03), (0x434, 7)] }

theorem test_meets_CollectiveIssue :
    stepping.Ready .copies ∧
    (stepping.cur.em ≠ 0 ∧ (stepping.cur.pointer (stepping.cur.getS 1)).toNat % 64 = 0 ∧ (askew.cur.pointer (askew.cur.getS 1)).toNat % 64 ≠ 0) ∧
    (∃ bs, stepping.readRecord Need.engineRead 0x400 64 = .ok bs ∧ (stepOk bs && succeeds (stepping.copyCheck (stepAsk .collPut bs)) &&
      succeeds (stepping.copyCheck (stepAsk .collRed bs))) = true) ∧
    (∃ bs, misstepping.readRecord Need.engineRead 0x400 64 = .ok bs ∧ (!stepOk bs) = true) ∧
    ∃ bs, askew.readRecord Need.engineRead 0x404 64 = .ok bs ∧ stepOk bs = true :=
  ⟨by show _ < _; decide +kernel, by decide +kernel, value_that (by decide +kernel), value_that (by decide +kernel), value_that (by decide +kernel)⟩

/-! Premises of the engine instructions. -/

/-- Trough 1 as given; scalar 1 is 0x40 and scalar 2 asks for 4 slots of 64 bytes. -/
def troughed (t : Trough) : State :=
  { user 0 3 with cur := ((flockOf 3).setS 1 0x40).setS 2 0x60004, fold := foldOf.setTrough 1 t }
def ring (slots : List (Nat × SlotState)) (closed : Bool) : Trough := { set := true, base := 0, count := 2, slots := slots, closed := closed }

/-- A trough in slot 0, whose bank is gone. -/
def stranded : Trough := { ring [] false with base := 0x1000000 }

theorem test_meets_TroughResults :
    let open_ := ring [] false
    let shut := ring [] true
    ((troughed {}).ScalarFree 4 ∧ (troughed {}).fold.checkScratch 0 0x40 (4 * 2 ^ 6) = .ok () ∧ (troughed open_).fold.checkScratch 0 0 128 = .ok () ∧
      (∃ f, (troughed stranded).fold.checkScratch 0 0x1000000 128 = .error (.trap f)) ∧
      ∃ f, (troughed {}).fold.checkScratch 0 0xFFFFFFC0 256 = .error (.trap f)) ∧
    (((troughed {}).fold.half && (1#3).getLsbD 2) = false ∧ { foldOf with half := true }.half = true ∧ (7#3).getLsbD 2 = true) ∧
    ((troughed {}).cur.em ≠ 0 ∧ ((troughed {}).fold.trough 1).set = false ∧ ((troughed {}).cur.getS 2).toNat % 2 ^ 16 = 4 ∧
      ((troughed {}).cur.getS 2).toNat / 2 ^ 16 % 2 ^ 8 = 6 ∧ ((troughed {}).cur.getS 2).toNat / 2 ^ 24 = 0 ∧
      ((troughed {}).cur.getS 1).toNat % 2 ^ 32 % 64 = 0 ∧ ((troughed {}).fold.trough 1).slots = [] ∧ ((troughed {}).cur.getS 3).toNat % 2 ^ 16 = 0) ∧
    (((troughed open_).fold.trough 1).set = true ∧ ((troughed shut).fold.trough 1).closed = true ∧
      (troughed open_).waiting ((troughed open_).fold.trough 1).reserving = [] ∧ (troughed open_).waiting open_.taking = [] ∧
      open_.count - open_.slots.length = 2 ∧ (ring [(0, .reserved), (1, .reserved)] false).count - 2 = 0) ∧
    (((ring [(1, .reserved)] false).change 0x40 .reserved .posted).isSome = true ∧ ((ring [(1, .taken)] false).change 0x40 .taken .released).isSome = true ∧
      (∀ x ∈ (ring [(0, .reserved)] false).slots, x.2 = .reserved → (ring [(0, .reserved)] false).address x.1 ≠ 0x40) ∧
      (ring [(0, .taken), (1, .filled)] false).slots = [(0, .taken)] ++ (1, .filled) :: [] ∧ (∀ x ∈ [(0, SlotState.taken)], x.2 ≠ .filled) ∧
      ∀ x ∈ shut.slots, x.2 ≠ .filled) :=
  ⟨⟨idle_scalar rfl 4, ok_of (by decide), ok_of (by decide), trap_of (by decide), trap_of (by decide)⟩, by decide, by decide, by decide, by decide⟩

/-- Slot 3 of the fold holds bank 2, slot 4 none; arrival bits and scalar 1 as given. -/
def banked (arrival : BitVec 8) (mask : DWord) : State :=
  { user 0 3 with
    cur := (flockOf 3).setS 1 mask, fold := { foldOf.setSlot 3 (some 2) with arrival := arrival }
    banks := [(2, { place := .mapped 0 3, owner := some { ctx := 0, life := 0, secure := false } })] }
/-- The same with an operation under way that reads the bank. -/
def undrained : State := let s := banked 0 0; { s with cur := { s.cur with pend := [{ op .copies [] with reads := [⟨slotBase 3, 64⟩] }] } }
/-- No bank of the cluster is in the pool. -/
def noBanks : State := { banked 0 0 with banks := (List.range 16).map fun b => (b, { place := .mapped 1 0 }) }

theorem test_meets_BankResults :
    let s := banked 0 0
    let waits := banked 0 0x80
    let comes := banked 0x81 0x80
    s.ScalarFree 4 ∧
    (s.cur.em ≠ 0 ∧ ¬ s.fold.slots ≤ (7#6).toNat ∧ s.fold.slots ≤ (8#6).toNat ∧ s.fold.bankIn (4#6).toNat = none ∧ s.fold.bankIn (3#6).toNat = some 2) ∧
    (noBanks.freeBank (noBanks.fold.core / 8) (noBanks.owner noBanks.fold.ctx) = none ∧
      s.freeBank (s.fold.core / 8) (s.owner s.fold.ctx) = some (0, true) ∧ undrained.drained (3#6).toNat = false ∧ s.drained (3#6).toNat = true) ∧
    (((banked 0 0x100).cur.getS 1).setWidth 8 = 0#8 ∧ (waits.cur.getS 1).setWidth 8 ≠ 0#8 ∧
      waits.fold.arrival &&& (waits.cur.getS 1).setWidth 8 = 0#8 ∧ (comes.fold.arrival &&& (comes.cur.getS 1).setWidth 8).getLsbD 7 = true ∧
      ∀ i : Fin 7, (comes.fold.arrival &&& (comes.cur.getS 1).setWidth 8).getLsbD i.val = false) :=
  ⟨idle_scalar rfl 4, by decide, by decide, by decide⟩

/-- A cluster gang of two (R25); the other member is the given fold, or has ended. -/
def giving (x : DWord) (other : List Fold) : State :=
  let s := banked 0 x
  { s with launches := [launchOf 0x200], folds := other }
def taker : Fold := { foldOf with id := 6, visit := 1, core := 1 }
def fullTaker : Fold := { taker with bmap := Vector.replicate 8 (some 9) }

theorem test_meets_GiveResults :
    let s := giving 1 [taker]
    let alone := giving 1 []
    s.ScalarFree 4 ∧ s.member 2 1 = .live taker ∧ (giving 1 [fullTaker]).member 2 1 = .live fullTaker ∧
    (s.cur.em ≠ 0 ∧ (3#6).toNat < s.fold.slots ∧ s.fold.bankIn (3#6).toNat = some 2 ∧ (alone.launch.map fun l => l.hdr.gangSize) = some 2 ∧
      s.drained (3#6).toNat = true ∧ taker.emptySlot = some 0 ∧ fullTaker.emptySlot = none) ∧
    (((giving 2 []).cur.getS 1).toNat % 8 = 2 ∧ ((giving 0 []).cur.getS 1).toNat % 8 = (giving 0 []).fold.visit % 2 ∧
      (alone.cur.getS 1).toNat % 8 ≠ alone.fold.visit % 2 ∧ alone.member 2 1 = .ended) :=
  ⟨idle_scalar rfl 4, rfl, rfl, by decide +kernel, by decide +kernel⟩

/-- The launch may draw from the given number of counters. -/
def drawing (n : DWord) : State := { user 0 3 with launches := [{ launchOf 0 with hdr := { header 0 with rngLength := n } }] }

theorem test_meets_RandomDraws :
    let off := fun (s : State) (i : Fin 32) => BitVec.ofNat 64 (s.cur.draw.toNat * (2 * 512) + s.fold.visit * 512 + s.cur.field * 32 + i.val)
    (∀ i, (drawing 2).cur.em.on i = true → off (drawing 2) i < 2) ∧ (drawing 2).VectorFree 5 ∧ (drawing 1).cur.em.on 1 = true ∧ (1 : DWord) ≤ off (drawing 1) 1 :=
  ⟨by decide, idle_vector rfl 5, by decide, by decide⟩

/-- Scalar 1 is a handle or an address, scalar 2 a length; one lease of the context is held. -/
def leasing (a n : DWord) (now : DWord) : State :=
  { user 0 3 with
    cur := ((flockOf 3).setS 1 a).setS 2 n, time := now, tlb := [{ page with leaf := { leaf with base := Config.tierBase } }]
    contexts := [(0, { state := 2, leases := [{ handle := 1, base := 0, len := 64, expiry := 100, spans := [(Config.tierBase, 64)] }] })] }

theorem test_meets_LeaseResults :
    (leasing 0x40 64 0).cur.em ≠ 0 ∧ (leasing 0x40 64 0).ScalarFree 4 ∧ ((leasing 0x41 64 0).cur.pointer ((leasing 0x41 64 0).cur.getS 1)).toNat % 64 ≠ 0 ∧
    ((leasing 0x40 64 0).cur.pointer ((leasing 0x40 64 0).cur.getS 1)).toNat % 64 = 0 ∧ ((leasing 0x40 64 0).cur.getS 2).toNat = 64 ∧
    ((leasing 0x40 64 0).grantLease 0x40 64 3).isSome = true ∧ ((leasing 0x40 64 0).grantLease 0x7FFFFFFFFFFFFFFFC0 64 3).isSome = false ∧
    (∀ l ∈ (leasing 2 0 0).leases (leasing 2 0 0).work, l.handle ≠ ((leasing 2 0 0).cur.getS 1).toNat % 16) ∧
    (∃ l ∈ (leasing 1 0 0).leases (leasing 1 0 0).work, l.handle = ((leasing 1 0 0).cur.getS 1).toNat % 16) ∧
    (leasing 1 0 100).leases (leasing 1 0 100).work = [] :=
  ⟨by decide, idle_scalar rfl 4, by decide, by decide, by decide, by decide +kernel, by decide +kernel, by decide, by decide, by decide⟩

/-- The launch has a record at 0x400, final or not (R41). -/
def recording (state : Byte) : State :=
  { user 2 3 with
    cur := (flockOf 3).setS 1 0x400, launches := [{ launchOf 2 with hdr := { header 2 with record := 0x400 } }]
    mem := [(0x400, 1), (0x41E, 0xF0), (0x41F, 0x7F)] ++ if state = 0 then [] else [(0x428, state)] }

theorem test_meets_EstimatorResults :
    (user 0 3).cur.em ≠ 0 ∧ ((user 0 3).launch.map fun l => l.hdr.record) = some 0 ∧ ((recording 2).launch.map fun l => l.hdr.record) = some 0x400 ∧
    ((recording 2).cur.pointer ((recording 2).cur.getS 1)).toNat % 64 = 0 ∧
    (recording 2).Touchable loadGuard (touchesFrom ((recording 2).cur.pointer ((recording 2).cur.getS 1)) 64 .raw) ∧ (recording 2).broken = [] ∧
    (recording 2).VectorFree 5 ∧ (recording 2).Ready .loads ∧ recordMeets ((recording 2).loaded Need.load 0x400 64) 0 = true ∧
    recordMeets ((recording 0).loaded Need.load 0x400 64) 0 = false :=
  ⟨by decide, by decide, by decide, by decide, touchable_of (by decide), by decide, idle_vector rfl 5, by show _ < _; decide, by decide +kernel,
    by decide +kernel⟩

/-! Premises of the launch, system and stream statements. -/

/-- A header at 0x800 that R28 accepts, as a flock of a parent launch names it: one flock of one lane at 0x1000, one register granule. -/
def headed : State :=
  { user 0x20 3 with
    cur := (flockOf 3).setS 1 0x800
    mem := [(0x800, 1), (0x802, 0x4C), (0x803, 0x4B)] ++ ((List.range 6).map fun j => (0x810 + 4 * j, 1)) ++ [(0x831, 0x10), (0x850, 1)] }

theorem test_meets_LaunchResults :
    headed.cur.em ≠ 0 ∧ headed.ScalarFree 4 ∧ ((base 3).cur.pointer ((base 3).cur.setS 1 0x801 |>.getS 1)).toNat % 256 ≠ 0 ∧
    ((base 3).cur.pointer ((base 3).cur.setS 1 0x801 |>.getS 2)).toNat % 64 = 0 ∧
    ((base 3).cur.pointer ((base 3).cur.setS 1 0x820 |>.getS 1)).toNat % 64 ≠ 0 ∧
    (∃ r, headed.submit 0x800 none = .ok r ∧ (r.2 == 2) = true) ∧ (∃ r, headed.submit 0 none = .ok r ∧ (r.2 == 0) = true) ∧
    (∃ r, headed.submit 0x800 (some 0x40) = .ok r ∧ (r.2 == 0) = true) ∧ ∃ f, { user 0 3 with tlb := [] }.submit 0x800 none = .error (.trap f) :=
  ⟨by decide +kernel, idle_scalar rfl 4, by decide, by decide, by decide, value_that (by decide +kernel), value_that (by decide +kernel),
    value_that (by decide +kernel), trap_of (by decide +kernel)⟩

/-- A range is reachable, as a value. -/
def reachB (s : State) (n : Need) (va : Addr) (k : Nat) : Bool :=
  (List.range k).all fun j => match s.translate (s.agent s.cur) n (va + BitVec.ofNat 72 j) with | .ok _ => true | .error _ => false
theorem reachable_of {s : State} {n : Need} {va : Addr} {k : Nat} (h : reachB s n va k = true) : s.Reachable n va k := by
  intro j hj
  have h1 := List.all_eq_true.mp h j (List.mem_range.mpr hj)
  cases he : s.translate (s.agent s.cur) n (va + BitVec.ofNat 72 j) with
  | error b => rw [he] at h1; cases h1
  | ok x => exact ⟨x.1, x.2, rfl⟩

/-- That header with more bytes set. -/
def submitting (more : Mem) : State := { headed with mem := headed.mem ++ more }
def bytesOf (s : State) : List Byte := s.unitBytes Need.load 0x800 256
def headOf (s : State) : Header := Header.parse (bytesOf s)

/-- What makes all defects of a submission absent but for the last of the header's own. -/
theorem defects_from {s : State} {h : Header} {bs : List Byte} {g : Prop} {m : Option SlotMap} {n : Nat}
    (hs : (h.magic == 0x4B4C0001 && h.encodingOk bs && h.stopOk && h.extentsOk && h.partitionOk && !h.stop && h.mode == 0 &&
      decide ((s.launches.filter fun l => l.ctx / 64 == s.work / 64).length < 4096) &&
      (match s.launch with | some l => l.hdr.flag 5 && decide (l.depth < 4) | none => true) &&
      (s.launches.all fun l => l.hdr.seed != h.seed)) = true) (hg : g) :
    (∀ q ∈ s.headerDefects h bs g ++ s.unitDefects h m n, q.2 → 7 < h.priority ∧ q.1 = 0x26) := by
  simp only [Bool.and_eq_true, beq_iff_eq, Bool.not_eq_true', decide_eq_true_eq, List.all_eq_true, bne_iff_ne] at hs
  obtain ⟨⟨⟨⟨⟨⟨⟨⟨⟨h1, h2⟩, h3⟩, h4⟩, h5⟩, h6⟩, h7⟩, h8⟩, h9⟩, h10⟩ := hs
  have hl : ¬ ∃ l, s.launch = some l ∧ (l.hdr.flag 5 = false ∨ 4 ≤ l.depth) := by
    rintro ⟨l, hl, hd⟩
    rw [hl] at h9
    simp only [Bool.and_eq_true, decide_eq_true_eq] at h9
    rcases hd with hd | hd
    · rw [h9.1] at hd; cases hd
    · omega
  have hk : ¬ ∃ l ∈ s.launches, l.ctx = s.work ∧ l.hdr.seed = h.seed ∧
      ∃ t u : DWord, t < l.hdr.rngLength ∧ u < h.rngLength ∧ l.hdr.rngBase + t = h.rngBase + u :=
    fun ⟨l, hm, _, he, _⟩ => h10 l hm he
  intro q hq
  simp only [State.headerDefects, State.unitDefects, List.mem_append, List.mem_cons, List.not_mem_nil, or_false] at hq
  rcases hq with (rfl | rfl | rfl | rfl | rfl | rfl | rfl) | (rfl | rfl | rfl | rfl) <;> intro hx
  · exact absurd h1 hx
  · rcases hx with hx | hx | hx
    · rw [h2] at hx; cases hx
    · rw [h3] at hx; cases hx
    · exact absurd hg hx
  · rw [h4] at hx; cases hx
  · rw [h5] at hx; cases hx
  · exact absurd hx hl
  · rw [h6] at hx; cases hx.1
  · rcases hx with hx | hx
    · exact ⟨hx, rfl⟩
    · rw [h6] at hx; cases hx.1
  · rw [h6] at hx; cases hx.1
  · exact absurd h7 hx.1
  · exact absurd hx.2 hk
  · omega

/-- A non-secure supervisor whose line names a secure context, at a secure page. -/
def elsewhere : State :=
  { base 3 with
    cur := { (base 3).cur with secure := false }, plewick := { (base 3).plewick with sealed := true }
    contexts := [(512, { tvec := 0x4000 }), (0, { state := 2, secure := true })], mem := [((base 3).descriptor 0, 1)]
    tlb := [{ page with holder := .core 256, leaf := { leaf with ns := false } }] }

/-- A supervisor that acts for no context, and that one; a header that can be read; one without the magic number, one of an odd entry, one of priority 8, each with
the lowest code that applies; and headers, one of a gang, to which none applies. -/
theorem test_meets_SubmissionAnswers :
    let plain := submitting []
    let rated := submitting [(0x858, 8)]
    let ganged := submitting [(0x804, 0x80), (0x910, 2)]
    (let found := fun (s : State) => match s.locateAll (s.agent s.cur) Need.store (touchesFrom (0x800 + 208) 8 .any) with
        | .error (.trap f) => f.kind
        | _ => 0;
      (512 ≤ (base 3).work ∧ elsewhere.mayLaunch = false ∧ elsewhere.work < 512 ∧ found elsewhere = 0x12)) ∧
    ((base 3).mayLaunch = false ∧ headed.mayLaunch = true ∧ headed.broken = [] ∧ (0x900 : Addr).toNat % 64 = 0) ∧
    plain.Reachable Need.load 0x800 256 ∧ ganged.Reachable Need.load 0x900 64 ∧
    ((headOf (submitting [(0x804, 0x03)])).encodingOk (bytesOf (submitting [(0x804, 0x03)])) = false ∧ (headOf { headed with mem := [] }).magic ≠ 0x4B4C0001) ∧
    ((headOf plain).flag 7 = false ∧ (headOf plain).record = 0 ∧ (headOf plain).stop = false ∧ (headOf plain).priority = 0) ∧
    (∀ q ∈ plain.headerDefects (headOf plain) (bytesOf plain) ((headOf plain).flag 7 = false) ++ plain.unitDefects (headOf plain) none 0, ¬ q.2) ∧
    (7 < (headOf rated).priority ∧
      ∀ q ∈ rated.headerDefects (headOf rated) (bytesOf rated) ((headOf rated).flag 7 = false) ++ rated.unitDefects (headOf rated) none 0, q.2 → 0x26 ≤ q.1) ∧
    (let g := Gang.parse (ganged.unitBytes Need.load 0x900 64) ganged.time;
      ∀ q ∈ ganged.headerDefects (headOf ganged) (bytesOf ganged) ((headOf ganged).flag 7 = true ∧ g.isSome = true) ++
        ganged.unitDefects (headOf ganged) none 0, ¬ q.2) := by
  have hp : (headOf (submitting [])).priority = 0 := by decide +kernel
  have hg : (headOf (submitting [(0x804, 0x80), (0x910, 2)])).priority = 0 := by decide +kernel
  refine ⟨by decide +kernel, by decide +kernel, reachable_of (by decide +kernel), reachable_of (by decide +kernel), by decide +kernel, by decide +kernel,
    fun q hq hx => ?_, ⟨by decide +kernel, fun q hq hx => Nat.le_of_eq (defects_from (by decide +kernel) (by decide +kernel) q hq hx).2.symm⟩,
    fun q hq hx => ?_⟩
  · have h := (defects_from (by decide +kernel) (by decide +kernel) q hq hx).1
    omega
  · have h := (defects_from (by decide +kernel) (by decide +kernel) q hq hx).1
    omega

/-- Scalar 1 is an address; the counter of the header at 0x800 is 1. -/
def counting (a : DWord) (n : Byte) : State :=
  { user 0 3 with cur := ((flockOf 3).setS 1 a).setS 2 0xFFFFFFFFFFFFFFFF, mem := if n = 0 then [] else [(0x8C0, n)] }

theorem test_meets_DependencyCounters :
    (counting 0x800 1).cur.em ≠ 0 ∧ (counting 0x800 1).broken = [] ∧ (counting 0x800 1).Canonical ∧ ((counting 0x8C0 1).cur.pointer ((counting 0x8C0 1).cur.getS 1)).toNat % 256 ≠ 0 ∧
    (counting 0x800 1).Reachable Need.atomic (0x800 + 192) 8 ∧
    (∀ i j : Fin 8, (counting 0x800 1).placeAt Need.atomic ((0x800 : Addr) + 192 + BitVec.ofNat 72 i.val) < Config.plewickBase ∧
      (counting 0x800 1).Plain ((counting 0x800 1).placeAt Need.atomic ((0x800 : Addr) + 192 + BitVec.ofNat 72 i.val)) ∧
      ((counting 0x800 1).placeAt Need.atomic ((0x800 : Addr) + 192 + BitVec.ofNat 72 i.val) =
        (counting 0x800 1).placeAt Need.atomic ((0x800 : Addr) + 192 + BitVec.ofNat 72 j.val) → i = j)) ∧
    fromBytes ((counting 0x800 0).unitBytes Need.atomic (0x800 + 192) 8) = 0 ∧ fromBytes ((counting 0x800 1).unitBytes Need.atomic (0x800 + 192) 8) = 1 ∧
    2 ^ 64 ≤ 1 + ((counting 0x800 1).cur.getS 2).toNat ∧ ¬ 2 ^ 64 ≤ 0 + ((counting 0x800 0).cur.getS 2).toNat :=
  ⟨by decide, by decide, ⟨by decide, FarTable.nil, FarTable.nil⟩, by decide, reachable_of (by decide +kernel), by decide +kernel, by decide +kernel,
    by decide +kernel, by decide +kernel, by decide +kernel⟩

/-- Flock 9 is at a decrement and flock 10 of the same fold at an addition. -/
def racing : State :=
  { user 0 3 with
    cur := flockOf 3, flocks := [{ flockOf 3 with id := 10, field := 1, pc := 0x1004 }]
    mem := [(0x1000, 0xDB), (0x1001, 0x48), (0x1004, 0x5B), (0x1005, 0x49), (0x1006, 0x12)] }

/-- Additions go before decrements, and of two flocks of one fold the lower field goes first (R31). -/
theorem test_counter_order : racing.counterOrder [9, 10] = [10, 9] ∧ (racing.turnTo 9).counterOp = some 1 ∧ (racing.turnTo 10).counterOp = some 0 ∧
    racing.counterKey 1 racing.cur = [1, 1, 0, 1, 0, 0] := by decide +kernel

/-- In one cycle the addition of 1 comes before the decrement, which then finds no underflow (R31). -/
theorem test_counters_in_one_cycle :
    let aim := fun (f : Flock) => (f.setS 9 0x800).setS 18 1
    let s := { racing with cur := aim racing.cur, flocks := racing.flocks.map aim }
    (match s.together [9, 10] with
      | .next t => t.allFlocks.all (fun f => f.routine == .none) && t.mem.read 0x8C0 == 0 && s.mem == t.mem
      | _ => false) = true := by decide +kernel

theorem test_meets_DependencyCounters_order :
    State.issues { racing with beat := 0 } = true ∧ (0x000048DB#32).getLsbD 0 = true ∧ decodeEnc (.word 0x000048DB) = .ok (.depDec 9) ∧
    decodeEnc (.word 0x0012495B) = .ok (.depAdd 9 18) ∧ racing.cur.supervises = false ∧ (base 3).cur.supervises = true ∧
    (racing.fold? racing.cur.fold).isSome = true ∧ (racing.launch? 7).isSome = true ∧ racing.counterOrder [] = [] ∧ racing.counterOrder [9] = [9] := by
  decide +kernel

/-- A secure supervisor, and a non-secure one, whose line names context 0 of a secure partition. -/
def shepherd (secure : Bool) (a : DWord) : State :=
  { base 3 with
    cur := { (base 3).cur.setS 1 a with secure := secure }, contexts := [(512, { tvec := 0x4000 }), (0, { state := 2, secure := true })]
    launches := [launchOf 0], mem := [((base 3).descriptor 0, 1)]
    setup := { partitions := [{ clusters := 1, secure := true }] }, plewick := { (base 3).plewick with sealed := true } }

theorem test_meets_CancelAndStatus_worlds :
    let s := shepherd false 0x800
    let t := { counting 0x800 0 with launches := [launchOf 0] }
    s.ScalarFree 4 ∧ s.broken = [] ∧ (s.cur.pointer (s.cur.getS 1)).toNat % 256 = 0 ∧ s.mayName s.work = false ∧ (shepherd true 0x800).mayName s.work = true ∧
    s.cur.em ≠ 0 ∧ t.ScalarFree 4 ∧ t.broken = [] ∧ (t.cur.pointer (t.cur.getS 1)).toNat % 256 = 0 ∧ (t.heads t.work 0x800).isSome = true ∧
    t.mayName t.work = true ∧ t.cur.em ≠ 0 :=
  ⟨idle_scalar rfl 4, rfl, by decide +kernel, by decide +kernel, by decide +kernel, by decide, idle_scalar rfl 4, rfl, by decide, by decide +kernel,
    by decide, by decide⟩

theorem test_meets_CancelAndStatus :
    (counting 0 0).ScalarFree 4 ∧ (counting 0 0).broken = [] ∧ ((counting 0x801 0).cur.pointer ((counting 0x801 0).cur.getS 1)).toNat % 256 ≠ 0 ∧
    ((counting 0x800 0).cur.pointer ((counting 0x800 0).cur.getS 1)).toNat % 256 = 0 ∧ ((counting 0x800 0).heads (counting 0x800 0).work 0x800).isSome = true ∧
    ((counting 0x900 0).heads (counting 0x900 0).work 0x900).isSome = false ∧ (counting 0x900 0).cur.em ≠ 0 ∧
    (counting 0x900 0).Reachable Need.load (0x900 + 208) 8 :=
  ⟨idle_scalar rfl 4, by decide, by decide, by decide, by decide +kernel, by decide +kernel, by decide, reachable_of (by decide +kernel)⟩

/-- Scalar 1 is a number; a supervisor runs. -/
def privileged (x : DWord) : State := { base 3 with cur := (base 3).cur.setS 1 x }

/-- A supervisor of the non-secure world; the tables of context 0 map the first 2^29 bytes as secure, and a descriptor at 2^30 asks for a snapshot of
one empty range with its stamp at 0. -/
def guarded (x : DWord) : State :=
  { base 3 with
    cur := { (base 3).cur.setS 1 x with secure := false }, contexts := [(512, { tvec := 0x4000 }), (0, { state := 2 })]
    mem := [(0, 1), (2, 1), (0x10000, 1), (0x10002, 2), (0x20000, 3), (2 ^ 30 + 2, 1), (2 ^ 30 + 8, 1)] }

/-- The snapshot descriptor of 256 zero bytes is malformed; one of one empty range is not. -/
theorem test_meets_PrivilegedLaunchFunctions :
    (privileged 0).cur.privileged = true ∧ (privileged 0).cur.em ≠ 0 ∧ ((privileged 64).cur.pointer ((privileged 64).cur.getS 1)).toNat % 256 ≠ 0 ∧
    (privileged 0).ScalarFree 4 ∧ (∃ bs, (privileged 0).physicalLoad 0 256 = .ok bs ∧ ((privileged 0).snapOf bs).isNone = true) ∧
    ((privileged 0).snapOf ([0, 0, 1, 0, 0, 0, 0, 0, 1] ++ List.replicate 247 0)).isSome = true ∧ ((privileged 511).cur.getS 1).toNat < 512 ∧
    512 ≤ ((privileged 512).cur.getS 1).toNat ∧ (privileged 0).cur.secure = true ∧
    ((guarded 0).cur.secure = false ∧ (guarded 0).cur.privileged = true ∧ (guarded 0).secureSpan 0 256 = true ∧ (guarded 0).secureSpan 0 0 = false ∧
      (guarded 0).secureSpan 0 8 = true ∧ (guarded (2 ^ 30)).cur.pointer ((guarded (2 ^ 30)).cur.getS 1) = 2 ^ 30) ∧
    ∃ bs, (guarded (2 ^ 30)).physicalLoad (2 ^ 30) 256 = .ok bs ∧ (match (guarded (2 ^ 30)).snapOf bs with
      | some sn => sn.ranges == [(0, 0)] && sn.dest == 0 && sn.stamp == 0
      | none => false) = true :=
  ⟨by decide, by decide, by decide, idle_scalar rfl 4, value_that (by decide +kernel), by decide +kernel, by decide, by decide, rfl, by decide +kernel,
    value_that (by decide +kernel)⟩

/-- A reply for context 0 of a secure partition, from a supervisor of each world; a park entry that waits for it, of a context that is resident or not. -/
theorem test_meets_PrivilegedLaunchFunctions_replies :
    let entry : Parked := { ctx := 0, slot := 0, launch := 7, visit := 0, index := 0, flock := none, generation := 0, installed := false, cluster := none }
    let s := { shepherd true 0 with parked := [entry] }
    s.cur.privileged = true ∧ (s.cur.getS 1).toNat < 512 ∧ s.mayName (s.cur.getS 1).toNat = true ∧ s.stateOf 0 = 2 ∧ (s.ctx 0).fgen = s.cur.getS 2 ∧
    (s.parked.filter fun k => k.ctx == 0 && k.generation == 0 && !k.freed) = [entry] ∧ (shepherd true 0).parked = [] ∧ (shepherd true 0).saved = [] ∧
    ((shepherd false 0).cur.getS 1).toNat < 512 ∧ (shepherd false 0).mayName ((shepherd false 0).cur.getS 1).toNat = false ∧
    { s with contexts := [(0, { state := 3 })] }.stateOf 0 ≠ 2 := by decide +kernel

theorem test_meets_SystemRegisterResults : (privileged 7).cur.privileged = true ∧ (privileged 7).ScalarFree 4 ∧ 24 ≤ (24#6).toNat := ⟨rfl, idle_scalar rfl 4, by decide⟩

/-- A flock in a save routine, alone in its fold. -/
def saving (o : List PendOp) : State := { user 0 3 with cur := { flockOf 3 with routine := .save, pend := o } }
/-- A gang of two; scalar 1 is given. -/
def waking (x : DWord) : State := { user 0 3 with cur := (flockOf 3).setS 1 x, launches := [launchOf 0x200] }

/-- A lease of boost that lasts until an instant, at a time. -/
def boosting (till now : DWord) : State := { user 0 3 with time := now, contexts := [(0, { boost := some till })] }

theorem test_meets_SystemFunctionResults :
    (user 0 3).ScalarFree 4 ∧
    ((privileged 0).cur.em ≠ 0 ∧ (privileged 0).cur.privileged = true ∧ (privileged 0).restartable = false ∧ (user 8 3).restartable = true ∧
      { user 8 3 with cur := { flockOf 3 with privileged := true } }.cur.privileged = true) ∧
    (min ((privileged 0).cur.getS 1).toNat 1000000 = 0 ∧ min ((privileged 5).cur.getS 1).toNat 1000000 ≠ 0 ∧ ((user 0 3).ctx (user 0 3).work).boost = none ∧
      (user 0 3).emergencyFor (user 0 3).work = false ∧ ((boosting 9 9).ctx (boosting 9 9).work).boost = some 9 ∧ (9 : DWord) ≤ 9 ∧
      ((boosting 9 10).ctx (boosting 9 10).work).boost = some 9 ∧ (9 : DWord) < 10) ∧
    ((base 3).launch.isSome = false ∧ (waking 0).launch.isSome = true ∧ ((waking 0).cur.getS 1).toNat.testBit 8 = false ∧
      ((waking 0x110).cur.getS 1).toNat.testBit 8 = true ∧ ((waking 0x110).cur.getS 1).toNat / 16 % 16 < 2 ∧
      2 ≤ ((waking 0x120).cur.getS 1).toNat / 16 % 16 ∧ ((waking 0).launch.map fun l => l.hdr.gangSize) = some 2) ∧
    ((user 0 3).cur.routine ≠ .save ∧ (saving []).cur.routine = .save ∧ (saving [op .loads []]).cur.countersZero = false ∧
      (saving []).cur.countersZero = true) :=
  ⟨idle_scalar rfl 4, by decide, by decide +kernel, by decide +kernel, by decide⟩

/-- A restartable launch; a supervisor of each world at a page of a secure partition's; a fold whose flocks have all yielded. -/
theorem test_meets_SystemFunctionResults_more :
    let s := shepherd false 0
    let y := { saving [] with cur := { (saving []).cur with status := .yielded } }
    (s.mayName s.work = false ∧ (user 0 3).mayName (user 0 3).work = true ∧ (base 3).work / 64 ≠ 0) ∧
    (y.fold? 5).isSome = true ∧ (∀ k ∈ y.flocksOf 5, k.status = .yielded ∨ k.status = .ended) ∧ (∃ k ∈ y.flocksOf 5, k.status = .yielded) ∧
    (∀ k ∈ (saving []).flocksOf 5, k.status ≠ .yielded) := by decide +kernel

/-- The oldest entry of an error ring lies in a line in error (R303). -/
theorem test_meets_WeltResults_status :
    let s := { base 3 with contexts := [(512, { errq := 0x8000, ringIn := 1 })], broken := [.line 0x8000] }
    s.cur.em ≠ 0 ∧ (s.ctx s.cur.ctx).ringOut < (s.ctx s.cur.ctx).ringIn ∧
    s.plainBytes (s.unit s.cur.ctx) { r := true } ((s.ctx s.cur.ctx).ringEntry 0 + BitVec.ofNat 72 0) 8 = .ok ([] ++ 0x8000 :: (List.range 7).map fun j => 0x8001 + j) ∧
    SoftErrorPlace.line (0x8000 / 64 * 64) ∈ s.broken := ⟨by decide, by decide, found_of (by decide +kernel), by decide⟩

def locatesB (s : State) (n : Need) (va : Addr) (k : Nat) (p : List Found → Bool) : Bool :=
  match s.locateAll (s.agent s.cur) n (touchesFrom va k .any) with | .ok fs => p fs | .error _ => false

/-- Scalars 1 to 3 are an address, a length, and a place; FP32 pages; the error ring is empty or not. -/
def welting (a b c : DWord) : State :=
  { user 0 3 with
    cur := (((flockOf 3).setS 1 a).setS 2 b).setS 3 c, tlb := [{ page with leaf := { leaf with format := 1 } }]
    contexts := [(0, { state := 2, tvec := 0x4000, ringIn := 1 })] }

def chunkOk (s : State) (va : Addr) (len : Nat) : Bool :=
  match s.chunkAt va len with
  | .ok c => passes (s.legalFault false false c.all) && passes (s.reachAll 6 false (c.all.map Found.place))
  | .error _ => false
theorem chunk_of {s : State} {va : Addr} {len : Nat} (h : chunkOk s va len = true) :
    ∃ c, s.chunkAt va len = .ok c ∧ s.legalFault false false c.all = .ok () ∧ s.reachAll 6 false (c.all.map Found.place) = .ok () := by
  unfold chunkOk at h
  split at h
  · rw [Bool.and_eq_true] at h
    exact ⟨_, by assumption, ok_of h.1, ok_of h.2⟩
  · cases h

/-- The reference of `wchk` names one element: the chunk of four bytes translates and has one format. -/
def checking : State := { welting 0x100 0x200 0 with mem := [(0x204, 1)] }

theorem test_meets_WeltResults :
    let s := welting 0x100 4 0x40
    s.ScalarFree 4 ∧
    (∃ c, s.chunkAt 0x100 4 = .ok c ∧ s.legalFault false false c.all = .ok () ∧ s.reachAll 6 false (c.all.map Found.place) = .ok ()) ∧
    (∃ c, checking.chunkAt 0x100 4 = .ok c ∧ checking.legalFault false false c.all = .ok () ∧ checking.reachAll 6 false (c.all.map Found.place) = .ok ()) ∧
    (∃ x, checking.locate (checking.agent checking.cur) Need.engineRead 0x100 = .ok x) ∧
    (s.cur.em ≠ 0 ∧ s.broken = [] ∧ (checking.cur.getS 3).toNat = 0 ∧ 4096 < ((welting 0x100 4097 0).cur.getS 2).toNat ∧ (s.cur.getS 2).toNat = 4 ∧
      (s.cur.pointer (s.cur.getS 3)).toNat % 32 = 0 ∧ s.bufferRoom = none ∧ ((user 0 3).ctx 0).ringIn ≤ ((user 0 3).ctx 0).ringOut ∧
      (s.ctx 0).ringOut < (s.ctx 0).ringIn) ∧
    ((locatesB s Need.engineWrite 0x40 32 fun fs => passes (s.legalFault false false fs) && passes (s.reachAll 6 s.buffered (fs.map Found.place))) &&
      locatesB checking Need.engineRead 0x200 32 fun fs => passes (checking.legalFault false false fs) &&
        passes (checking.reachAll 6 false (fs.map Found.place)) && recordNat (fs.map fun f => checking.loadByte f.2.1) 4 2 == 1) = true :=
  ⟨idle_scalar rfl 4, chunk_of (by decide +kernel), chunk_of (by decide +kernel), value_of (by decide +kernel), by decide, by decide +kernel⟩

/-- Queue 1 as given; scalar 1 names a descriptor. -/
def queued (q : Queue) (a : DWord) : State := { user 0 3 with cur := (flockOf 3 |>.setQ 1 q).setS 1 a }
def streamOf : StreamDesc := ⟨0x1000, 0, [2, 1, 1], 4, [128, 0, 0], 0, 0⟩
def entryOf (f : Option TrapInfo) : QueueEntry := { lanes := Lanes.zero, fault := f, broken := none, index := 0 }
/-- The bytes of a descriptor of no entry, and of one with a wrong flag (R230); a fault at the head that was not raised yet, and one that was. -/
theorem test_meets_StreamResults :
    let running := queued { stream := some ⟨streamOf, 0, false, none⟩ } 64
    let faulty : Queue := { entries := [entryOf (some { kind := 0x10 })], stream := some ⟨streamOf, 0, true, none⟩ }
    (queued {} 64).Reachable Need.load 64 64 ∧ (queued {} 0).VectorFree 5 ∧ (queued {} 0).ScalarFree 4 ∧
    (∃ e, ((queued {} 0).as (queued {} 0).cur).fetchEntry streamOf 1 = .ok e) ∧
    (((queued {} 8).cur.pointer ((queued {} 8).cur.getS 1)).toNat % 64 ≠ 0 ∧ ((queued {} 64).cur.pointer ((queued {} 64).cur.getS 1)).toNat % 64 = 0 ∧
      (queued {} 64).broken = [] ∧ (running.cur.getQ 1).stream.isSome = true ∧ (StreamDesc.parse (List.replicate 64 0)).isSome = true ∧
      (StreamDesc.parse (List.replicate 9 0 ++ 4 :: List.replicate 54 0)).isSome = false) ∧
    (((queued {} 64).cur.getQ 1).stream.isSome = false ∧ ((queued {} 64).cur.getQ 1).entries.isEmpty = true ∧
      ((queued { entries := [entryOf none] } 0).cur.getQ 1).entries = entryOf none :: [] ∧ (entryOf none).fault.isSome = false ∧
      (entryOf none).broken.isSome = false ∧ ((queued faulty 0).cur.getQ 1).raised = false ∧
      ((queued { faulty with raised := true } 0).cur.getQ 1).raised = true ∧ ((queued {} 0).cur.getQ 1).wanted.isNone = true ∧
      (running.cur.getQ 1).wanted.isSome = true) ∧
    (let s := { user 0 3 with broken := [.line 0x1000] };
      (match s.plainBytes (s.agent s.cur) Need.load (0x1000 + BitVec.ofNat 72 (64 * 0)) 64 with | .ok pas => pas.head? | _ => none) = some 0x1000 ∧
        SoftErrorPlace.line (0x1000 / 64 * 64) ∈ s.broken) :=
  ⟨reachable_of (by decide +kernel), idle_vector rfl 5, idle_scalar rfl 4, value_of (by decide +kernel), by decide, by decide, by decide +kernel⟩

/-! Premises of the event statements. -/

theorem test_meets_CompletionEvents :
    (∀ c ∈ [Class.loads, .stores, .copies, .tiles], ∀ o ∈ (user 0 3).cur.pend, (o.cls == c && !o.done) = false) ∧
    (waitingFor (.op 3)).atPort (.op 3) = true ∧ (busyWith (user 0 3) (op .loads [])).atPort (.op (op .loads []).id) = false ∧
    (let s := busyWith (user 0 3) (op .loads [.vector 3 Lanes.zero Lanes.zero false, .scalar 4 0 1 false, .address 5 0 1 false]);
      s.cur.pend.map (fun o => (o.cls == .loads && !o.done)) = [true]) ∧
    (busyWith (user 0 3) { op .copies [] with writes := [⟨0, 64⟩] }).cur.pend.map (fun o => o.cls == .copies && !o.done && (!o.writes.isEmpty && o.job.isNone)) = [true] ∧
    (busyWith (user 0 3) (op .copies [])).cur.pend.map (fun o => o.cls == .copies && !o.done && (o.writes.isEmpty && o.job.isNone)) = [true] ∧
    (busyWith (user 0 3) { op .tiles [] with fault := some { kind := 0x30 } }).cur.pend.map (fun o => o.cls == .tiles && !o.done) = [true] := by
  decide

/-- A flock with a deferred fault. -/
def deferring (kind : BitVec 8) : State :=
  { base 3 with cur := { (base 3).cur with deferred := [{ op := 3, pc := 0x100, info := { kind := kind } }] } }

/-- A flock whose access to another device is out; no device answers. -/
def reaching : State := status far (.remote { kind := 0x30, access := 1, addr := BitVec.ofNat 72 (2 ^ 51 + 2 ^ 40) } 0)

theorem test_meets_FlockEvents :
    let quiet := status (monitored true false false) .waiting
    ((deferring 0x30).MayTrap ∧ TrapInfo.isPageFault { kind := 0x30 } = false ∧ (∀ f ∈ (base 3).flocks, f.id ≠ (base 3).cur.id)) ∧
    ((base 3).cur.deliverable.isSome = false ∧ (deferring 0x30).cur.deliverable = some { op := 3, pc := 0x100, info := { kind := 0x30 } } ∧
      (deferring 0x30).cur.atBoundary = true ∧ (deferring 0x30).cur.status = .running ∧ (status (deferring 0x30) (.sleeping 0)).cur.atBoundary = true ∧
      (status (deferring 0x30) (.sleeping 0)).cur.status = .sleeping 0) ∧
    ((status (base 3) (.blocked .allDone)).conditionMet .allDone = true ∧ (busyWith (base 3) (op .loads [])).conditionMet .allDone = false ∧
      reaching.answered { kind := 0x30, addr := BitVec.ofNat 72 (2 ^ 51 + 2 ^ 40) } = false ∧ reaching.answered { kind := 0x30, addr := 8 } = true) ∧
    ((5 : DWord) ≤ { base 3 with time := 5 }.time ∧ { base 3 with time := 5 }.time < (6 : DWord) ∧
      (status (monitored true true false) .waiting).cur.monitor.event = true ∧ quiet.cur.monitor.event = false ∧ quiet.cur.wakePending = false) ∧
    ((status (base 3) .halting).cur.status = .halting ∧ (status (base 3) .halting).cur.countersZero = true ∧
      (status (base 3) .halting).cur.deliverable.isSome = false ∧ (base 3).cur.status ≠ .halting) :=
  ⟨⟨⟨rfl, by show (0x4000 : Addr) ≠ 0; decide⟩, by decide, by decide⟩, by decide, by decide +kernel, by decide, by decide⟩

/-- Two flocks of a fold with a line of their buffers that both write, and a reduction of one of them. -/
def bufferedFlock (field : Nat) (es : List CommitEntry) : Flock := { flockOf 3 with field := field, buf := es }
theorem test_meets_MergedBuffers :
    let f := bufferedFlock 0 [.line 64 3 1 0, .reduction 0 false [] 0 0 0]
    let g := bufferedFlock 1 [.line 64 2 2 0]
    [f, g].Pairwise (fun x y => x.field ≠ y.field) ∧ (∀ x ∈ [f, g], (x.buf.filterMap lineOf).Nodup) ∧ heldBit g.buf 64 1 = some true ∧
    heldBit f.buf 64 1 = some false ∧ heldBit f.buf 64 0 = some true ∧ heldBit g.buf 64 0 = none ∧ heldBit f.buf 64 2 = none ∧
    lineOf (.reduction 0 false [] 0 0 0) = none := by decide +kernel

/-- The flock of a fold that has started, in a launch with the given flags. -/
def member (flags : Word) (x : Status) : State := status (user flags 3) x

theorem test_meets_BarrierAndCommitEvents :
    let there := member 4 (.barrier false true)
    let writing := member 4 .committing
    let abroad := { writing with fold := { writing.fold with buf := [.line (Config.apertureBase + 2 ^ 40) 1 1 0] } }
    (((member 0 .running).fold? 5).isSome = true ∧ ((member 0 .running).launch? 7).isSome = true ∧ (member 0 .running).memberArrived 7 0 false = false ∧
      (member 0 (.barrier false false)).memberArrived 7 0 false = true ∧ there.memberArrived 7 0 false = true ∧
      (header 4).determ = true ∧ ((there.mergeFold there.fold).fold? 5).isSome = true ∧
      ((there.flocksOf 5).any fun k => match k.status with | .barrier c _ => !c | _ => false) = true) ∧
    ((member 0x200 (.barrier true false)).memberArrived 7 0 true = true ∧ (member 0 (.barrier true false)).gangVisits (member 0 .running).fold = [0]) ∧
    (writing.holdsToken writing.fold = true ∧
      { writing with launches := [{ launchOf 4 with closing := some (0x12, 0) }] }.holdsToken writing.fold = false ∧
      writing.commitWaits writing.fold = false ∧ abroad.commitWaits abroad.fold = true ∧ (member 4 .ended).commitWaits (member 4 .ended).fold = false ∧
      writing.fold.buf = [] ∧ abroad.fold.buf ≠ [] ∧ writing.atPort (.commit 5) = false ∧ (waitingFor (.commit 5)).atPort (.commit 5) = true ∧
      writing.foldDone writing.fold = false ∧ (writing.flocksOf 5).any (fun k => k.status == .committing) = true ∧
      (member 4 .ended).foldDone (member 4 .ended).fold = true ∧ (member 4 .ended).fold.committed = false ∧
      (((member 4 .ended).mergeFold (member 4 .ended).fold).fold? 5).isSome = true) := by decide +kernel

/-- Guest tables of context 0 that show its first pages as they lie (R278 to R280), for the units, which have no TLB of their own; the nested TLB
holds the system stage. -/
def tables : Mem := [(0x10000, 1), (0x10002, 2), (0x20000, 1), (0x20002, 3), (0x30000, 0x5F)]
def nestedPage (p : Nat) : TlbEntry := { holder := .nested 0, ctx := 0, page := p, leaf := { leaf with base := p * 2 ^ 16 } }

/-- Launches of context 0 with no fold on a core; partition 0 has cluster 0. -/
def launching (ls : List Launch) : State :=
  { base 3 with
    launches := ls, contexts := [(0, { state := 2, tvec := 0x4000, guestRoot := 0x10000 })], setup := { partitions := [{ clusters := 1 }] }
    tlb := (List.range 4).map nestedPage, mem := tables }
/-- The first of a gang of two, whose messages are due by 0, and what the other has sent. -/
def gangOf : Gang := { ident := 1, generation := 1, members := 2, index := 0, window := 0, guard := 0, sent := 0, decided := false }
def told : State := { launching [launchOf 0] with acks := [{ gang := 1, generation := 1, member := 1, sent := 0, arrived := 0 }] }
def parkedFold : Parked := { ctx := 0, slot := 0, launch := 7, visit := 0, index := 0, flock := none, generation := 0, installed := true, cluster := none }
def waitingLaunch : Launch := { launchOf 0 with status := 1 }

theorem test_meets_LaunchEvents :
    let s := launching [waitingLaunch]
    let again := { launching [launchOf 0] with parked := [parkedFold] }
    let placed := fun (s : State) (k : Parked) =>
      (State.freeEntry { s with parked := s.parked.filter fun q => q != k } k).placeFold (launchOf 0) 0 k.index 7 0
    let replied := { parkedFold with replied := true }
    let halfway := { again with parked := [replied], contexts := [(0, { state := 2, svec := 0x5000, guestRoot := 0x10000, preempting := some (0, 0, 0) })] }
    ((s.launch? 7).isSome = true ∧ waitingLaunch.closing = none ∧ s.unitNat 0 (0x800 + 192) 8 = some 0 ∧ waitingLaunch.hdr.start ≤ s.time ∧
      s.subscriptionMet waitingLaunch = true ∧ { waitingLaunch with due := true }.due = true ∧ (launchOf 0).status ≠ 1) ∧
    ((launching [{ launchOf 0 with ended := [0, 1] }]).retiring { launchOf 0 with ended := [0, 1] } = some (0x10, 2) ∧
      (launching [launchOf 0]).retiring (launchOf 0) = none) ∧
    (let l := { launchOf 2 with hdr := { header 2 with record := 0x400 }, ended := [0] };
      l.hdr.record ≠ 0 ∧ l.version < l.hdr.total ∧ l.ended.contains l.version = true ∧ (launchOf 2).ended.contains (launchOf 2).version = false) ∧
    (told.gangComplete (launchOf 0) gangOf = true ∧ (launching []).gangComplete (launchOf 0) gangOf = false ∧ gangOf.decided = false ∧
      (launchOf 0).hdr.start.toNat + gangOf.window.toNat + gangOf.guard.toNat ≤ (launching []).time.toNat ∧
      (0 : DWord) = (launching []).time ∧ (1 : DWord) ≠ (launching []).time) ∧
    ((again.parked.find? fun p => p.launch == 7 && p.visit == 0 && p.flock.isNone) = some parkedFold ∧ again.roomFor (launchOf 0) 7 = some 0 ∧
      (let u := State.freeEntry { again with parked := again.parked.filter fun q => q != parkedFold } parkedFold;
        parkedFold.generation = (u.ctx 0).fgen ∧ (1 : DWord) ≠ (u.ctx 0).fgen ∧ parkedFold.core ≠ 7) ∧
      again.mayRedispatch (launchOf 0) parkedFold 7 = true ∧ (again.firstFor 7).map (fun f => f.id) = some 7 ∧
      again.mayRedispatch (launchOf 0) { parkedFold with installed := false } 7 = false ∧ (launching []).firstFor 7 = none) ∧
    (((placed again parkedFold).ctx 0).preempting = none ∧ ((placed halfway replied).ctx 0).preempting.isSome = true ∧
      ((placed halfway replied).ctx 0).svec ≠ 0 ∧ ((placed halfway replied).allFolds.find? fun f => f.launch == 7 && f.visit == 0).isSome = true ∧
      halfway.mayRedispatch (launchOf 0) replied 7 = true ∧ (halfway.firstFor 7).map (fun f => f.id) = some 7) := by
  decide +kernel

/-- A gang of which a fold runs; a fold placed while its context, which has no save vector, is being pre-empted. -/
theorem test_meets_LaunchEvents_aborts :
    let gang := { launchOf 0x80 with gang := some gangOf }
    let s := { user 0x80 3 with launches := [gang] }
    let p := { user 0 3 with contexts := [(0, { state := 2, preempting := some (0, 0, 0) })] }
    (s.launch? 7 = some gang ∧ gangOf.decided = false ∧ gang.closing = none ∧ gang.hdr.start.toNat + gangOf.window.toNat + gangOf.guard.toNat ≤ s.time.toNat ∧
      s.acks = [] ∧ (∀ f ∈ s.allFolds, ∀ g ∈ s.allFolds, f.id = g.id → f = g) ∧
      (∃ f ∈ s.allFolds, f.launch = gang.id ∧ f.started = true ∧ f.id ≠ 0) ∧ gang.hdr.record = 0 ∧ (s.ctx 0).tvec ≠ 0 ∧
      ∃ f ∈ s.allFlocks, f.fold ≠ 0 ∧ f.status ≠ .ended ∧ ∃ g ∈ s.allFolds, g.launch = gang.id ∧ g.started = true ∧ g.id = f.fold) ∧
    ((p.ctx 0).preempting.isSome = true ∧ (p.ctx 0).svec = 0 ∧ (p.allFolds.find? fun f => f.launch == 7 && f.visit == 0).isSome = true) ∧
    (p.launch? foldOf.launch = some (launchOf 0) ∧ foldOf.id ≠ 0 ∧ (launchOf 0).closing = none ∧
      { launchOf 0 with closing := some (0x12, 0) }.closing ≠ none) := by decide +kernel

/-- Visit 0 of a launch under the stop flag writes its own slot, and the slot of visit 1 (R57 to R59). -/
theorem test_stray_write :
    let l := { launchOf 2 with slots := some { base := 0x100, stride := 64, size := 64 } }
    let s := { launching [l] with folds := [foldOf] }
    (s.noteStray 5 [0x13F]).launches.map (fun l => (l.spoiled, l.strays)) = [(false, [])] ∧
    (s.noteStray 5 [0x13F, 0x140]).launches.map (fun l => (l.spoiled, l.strays)) = [(true, [0x140])] := by decide +kernel

/-- A launch all of whose visits have ended, intact and with its record written by software. -/
theorem test_meets_RetirementWrites :
    let l := { launchOf 0 with ended := [0, 1] }
    let spoilt := { l with spoiled := true }
    ((launching [l]).launch? 7 = some l ∧ (launching [l]).retiring l = some (0x10, 2) ∧ l.spoiled = false ∧ (launching [spoilt]).launch? 7 = some spoilt ∧
      (launching [spoilt]).retiring spoilt = some (0x10, 2) ∧ spoilt.spoiled = true) ∧
    (launching []).Canonical ∧ (launching []).plainBytes ((launching []).unit 0) { w := true } 0x8D0 8 = .ok ((List.range 8).map fun j => 0x8D0 + j) ∧
    (((List.range 8).map fun j => 0x8D0 + j).Nodup ∧ ∀ j : Fin 8, (launching []).ignored (0x8D0 + j.val) = false ∧
      (launching []).Plain (0x8D0 + j.val)) :=
  ⟨by decide +kernel, ⟨by decide, FarTable.nil, FarTable.nil⟩, found_of (by decide +kernel), by decide +kernel⟩

/-- A launch with a record at 0x400, the first of whose visits has ended with a deposit. -/
def merging : Launch := { launchOf 2 with
  hdr := { header 2 with record := 0x400 }, ended := [0], half := 0x7FF0000000000000, deposits := [(0, [{ field := 0, est := { n := 1, mean := 0x3FF0000000000000 } }])] }
theorem test_meets_MergeResults :
    let s := { launching [merging] with mem := [(0x41E, 0xF0), (0x41F, 0x7F)] ++ tables }
    s.launch? 7 = some merging ∧ merging.hdr.record ≠ 0 ∧ merging.closing = none ∧ merging.version < merging.hdr.total ∧
    merging.ended.contains merging.version = true ∧ merging.spoiled = false := by decide +kernel

/-- A record that translates, and one that does not. -/
theorem test_meets_RetirementWrites_record :
    let s := launching [merging]
    (s.plainBytes (s.unit 0) { w := true } 0x400 64 = .ok ((List.range 64).map fun j => 0x400 + j)) ∧
    (∃ f, (base 3).plainBytes ((base 3).unit 0) { w := true } 0x400 64 = .error (.trap f)) :=
  ⟨found_of (by decide +kernel), trap_of (by decide +kernel)⟩

/-- A launch of which nothing is dispatched yet. -/
def fresh : Launch := { launchOf 0 with position := 0, visits := 0, started := [] }

def unstarted : Fold := { foldOf with id := 11, started := false, core := 3 }

theorem test_meets_FoldEvents :
    let first := fun (s : State) => ((sortBy Launch.before s.launches).find? fun l => (s.parked.any fun k => s.mayRedispatch l k 0) ||
      (s.placement l 0).isSome).bind fun l => s.placement l 0
    let s := { launching [fresh] with folds := [unstarted] }
    ((first (launching [])).isSome = false ∧ (first (launching [fresh])).isSome = true ∧
      (first { launching [fresh] with parked := [parkedFold] }).isSome = false) ∧
    ((s.fold? 11).isSome = true ∧ s.mayStart fresh unstarted = true ∧ s.mayStart fresh { unstarted with started := true } = false) ∧
    ((member 0 .ended).foldDone (member 0 .ended).fold = true ∧ (member 0 .running).foldDone (member 0 .running).fold = false ∧
      (launchOf 0).closing = none ∧ (launchOf 0).hdr.determ = false ∧ (launchOf 0).hdr.restart = false ∧ (launchOf 4).hdr.determ = true ∧
      (member 0 .running).idle 0 = false) ∧
    (let queued := (List.range 2).map fun v => ({ cluster := 0, launch := 7, visit := v, index := 0 } : Dispatch)
      let m := { member 0 .running with setup := { partitions := [{ clusters := 3 }] }, dispatch := queued }
      (∃ p ∈ m.setup.partitions, p.clusters.getLsbD 0 = true ∧ p.clusters.getLsbD 1 = true) ∧ m.idle 1 = true ∧
        2 * 1 ≤ (m.dispatch.filter fun d => d.cluster == 0).length ∧ (launchOf 0).gangOf 1 = [1] ∧ m.launch? 7 = some (launchOf 0)) := by
  decide +kernel

/-- The launch unit of die 0 has one command (R307); context 0 is in a state. -/
def commanded (op_ : Nat) (state : Nat) : State :=
  { base 3 with
    commands := [{ die := 0, word := BitVec.ofNat 64 op_, secure := true }], contexts := [(0, { state := state })]
    setup := { partitions := [{ clusters := 1 }] } }

theorem test_meets_ContextCommands :
    ((base 3).nextCommand 0).isSome = false ∧ ((commanded 1 0).nextCommand 0).map (fun x => x.1.op) = some 1 ∧
    (∀ op_ ∈ [1, 2, 3, 4], ∃ c ∈ (commanded op_ 0).commands, (commanded op_ 0).commandError c = none ∧ c.op = op_ ∧ c.context = 0) ∧
    (∃ c ∈ (commanded 9 0).commands, (commanded 9 0).commandError c = some 1) ∧
    (∃ c ∈ (commanded 1 0).commands, { commanded 1 0 with setup := {} }.commandError c = some 2) ∧
    (let s := commanded 1 0
      let asked := fun (w : DWord) => ({ die := 0, word := w, secure := false } : Command)
      (∀ q ∈ s.setup.partitions, q.clusters ≠ 0 ∧ q.secure = false) ∧ s.setup.partitions.length = 1 ∧ s.commandError (asked 1) = none ∧
        (asked 0x4001).word.toNat / 2 ^ 14 % 4 ≠ 0 ∧ (asked 0x80001).word.toNat / 2 ^ 19 % 2 ^ 13 ≠ 0 ∧ (asked 0).word.toNat % 256 = 0 ∧
        4 < (asked 5).word.toNat % 256 ∧ s.setup.partitions[(asked 0x10001).word.toNat / 2 ^ 16 % 8]? = none) ∧
    (let s := { user 0 3 with
        cur := { flockOf 3 with routine := .trap, preempt := true }, contexts := [(0, { state := 2, preempting := some (0, 0, 0) })], time := 100000 };
      (s.fold? s.cur.fold).isSome = true ∧ (s.ctx s.cur.ctx).preempting = some (0, 0, 0) ∧ s.cur.status ≠ .ended ∧ (0 : DWord) + 100000 ≤ s.time) ∧
    (let s := { user 0 3 with contexts := [(0, { state := 2, preempting := some (1, 0, 0), preemptAlso := [(2, 0)] })] };
      (s.ctx 0).preempting = some (1, 0, 0) ∧ (∃ f ∈ s.allFlocks, f.ctx = 0 ∧ f.supervises = false ∧ f.status ≠ .yielded ∧ f.status ≠ .ended) ∧
        ¬ (∃ f ∈ (status s .yielded).allFlocks, f.ctx = 0 ∧ f.supervises = false ∧ f.status ≠ .yielded ∧ f.status ≠ .ended) ∧
        ((base 3).ctx 0).preempting = none) ∧
    (user 0 3).cur.preempt = false := by decide +kernel

/-- A context with a save vector or without it, and with a restartable launch; folds that have started and that have not. -/
theorem test_meets_ContextCommands_preempts :
    let s := fun (v : Addr) => { user 8 3 with contexts := [(0, { state := 2, svec := v })] }
    let w := { s 0x5000 with folds := [unstarted] }
    let held := fun (t : State) => t.allFolds.filter fun f => f.ctx == 0 && (match t.launch? f.launch with | some l => l.hdr.restart | none => false)
    ((s 0x5000).stateOf 0 = 2 ∧ ((s 0x5000).ctx 0).preempting = none ∧ (∀ f ∈ (s 0).allFolds, f.ctx = 0 → f.started = true) ∧
      (unstarted ∈ w.allFolds ∧ unstarted.ctx = 0 ∧ unstarted.started = false ∧ w.launch? unstarted.launch = some (launchOf 8) ∧
        unstarted.visit ∈ (launchOf 8).started ∧ { unstarted with visit := 1 }.visit ∉ (launchOf 8).started) ∧
      ((s 0x5000).ctx 0).svec ≠ 0 ∧ ((s 0).ctx 0).svec = 0 ∧ held (s 0) = [foldOf] ∧ held (user 0 3) = []) ∧
    ((flockOf 3).status ≠ .ended ∧ (flockOf 3).routine = .none ∧ { flockOf 3 with routine := .trap }.routine ≠ .none) ∧
    ((launchOf 8).hdr.restart = true ∧ (launchOf 0).hdr.restart = false) := by decide +kernel

/-- A fold of context 0 saved from core 3, which is the lowest of its partition; one flock has ended. -/
def savedFold : SavedFold where
  fold := { foldOf with core := 3 }
  flocks := [{ flockOf 3 with core := 3, status := .yielded, monitor := { armed := true } }, { flockOf 3 with id := 10, core := 3, status := .ended }]
  slot := 0
  generation := 0
  blocks := 5
  firstBlock := 0
def resting (ps : List Parked) (ks : List SavedFold) : State :=
  { launching [launchOf 0] with parked := ps, saved := ks, contexts := [(0, { state := 3, svec := 0x5000, guestRoot := 0x10000 })] }

theorem test_meets_ContextCommands_resumes :
    let s := resting [] [savedFold]
    (s.stateOf 0 = 3 ∧ s.saved.filter (fun k => k.fold.ctx == 0) = [savedFold] ∧ (∀ q ∈ s.saved, q.fold.id = savedFold.fold.id → q = savedFold) ∧
      s.savedGroup savedFold = [savedFold] ∧ (s.coresFor 0 [savedFold]).isSome = true ∧ (∀ d, ¬ d < 0) ∧
      (resting [] []).saved.filter (fun k => k.fold.ctx == 0) = [] ∧
      ¬ ({ s with setup := {} }.coresFor 0 [savedFold]).isSome = true) ∧
    (savedFold.fold.id ≠ 0 ∧ (∃ f ∈ savedFold.flocks, f.status ≠ .ended ∧ f.monitor.armed = true) ∧ (∃ f ∈ savedFold.flocks, f.status = .ended) ∧
      (0 : Nat) ≠ savedFold.fold.core) ∧
    ((resting [] []).parked.filter (fun k => k.ctx == 0) = [] ∧ (resting [parkedFold] []).parked.filter (fun k => k.ctx == 0) = [parkedFold] ∧
      parkedFold.freed = false ∧ { parkedFold with freed := true }.freed = true) := by decide +kernel

/-- A context with no live launch, and with one. -/
theorem test_meets_ContextCommands_kills :
    (launching []).liveOf 0 = [] ∧ (launching [launchOf 0]).liveOf 0 = [launchOf 0] ∧ 1 ≤ (launching []).stateOf 0 ∧ (launching []).stateOf 0 ≤ 3 ∧
    (launchOf 0) ∈ (launching [launchOf 0]).launches ∧ (commanded 4 0).stateOf 0 = 0 := by decide +kernel

/-- The pass count of cluster 0 is 1, at a time. -/
def raised (now : DWord) : State := { base 3 with clusters := [(0, { pass := 1 })], time := now }
/-- Core 0 has a status word to write, and its port was refilled in window 1. -/
def changed (now : DWord) : State := { base 3 with cores := [(0, { window := 1, due := [0x10000] })], time := now }
/-- R315's own example, at its refill: contexts 0, 1 and 2 of one partition, with shares 32, 16 and 16; 1 has 256 tokens left, 0 and 2 wait. -/
def refilling : State :=
  { base 3 with
    time := 456, folds := (List.range 3).map fun c => { foldOf with id := 20 + c, ctx := c }
    contexts := [(0, { state := 2, share := 32 }), (1, { state := 2, share := 16 }), (2, { state := 2, share := 16 })]
    cores := [(0, { buckets := [(0, 0), (1, 256), (2, 0)], port := [⟨0, .op 1, 3⟩, ⟨2, .op 2, 1⟩] })] }

theorem test_meets_PowerAndTimeEvents :
    ((0 : Int) ≤ 1000 ∧ (1000 : Int) ≤ 1000 ∧ (-1 : Int) < 0 ∧ (1000 : Int) < 1001) ∧
    ((changed 455).time.toNat * 9 / 4096 ≤ ((changed 455).core 0).window ∧ ((changed 911).core 0).window < (changed 911).time.toNat * 9 / 4096 ∧
      ((changed 0).core 0).due = 0x10000 :: [] ∧ ((base 3).core 0).due = [] ∧ 0x10000 / 2 ^ 16 % 2 ^ 8 = (1 : BitVec 8).toNat) ∧
    ((refilling.core 0).window < refilling.time.toNat * 9 / 4096 ∧ refilling.contextsOn 0 = [0, 1, 2] ∧ (refilling.core 0).port.any (fun r => r.ctx == 1) = false ∧
      (refilling.core 0).port.any (fun r => r.ctx == 2) = true ∧ 0 < (([0, 2] : List Nat).map fun c => (refilling.ctx c).share).sum) ∧
    (((base 3).cluster 0).pass = 0 ∧ ((raised 0).cluster 0).pass ≠ 0 ∧ ((raised 10000).cluster 0).lowered.toNat + 10000 ≤ (raised 10000).time.toNat ∧
      (raised 9999).time.toNat < ((raised 9999).cluster 0).lowered.toNat + 10000) ∧
    (((base 3).ctx 0).boost = none ∧ ((boosting 5 6).ctx 0).boost = some 5 ∧ (5 : DWord) < (boosting 5 6).time ∧ (boosting 5 5).time ≤ (5 : DWord)) ∧
    (((user 0 3).flock? 9).isSome = true ∧ (flockOf 3).ctx < 512 ∧ (user 0 3).stateOf 0 ≠ 0 ∧ (user 0 3).stateOf 1 = 0) := by decide

/-- A boot image's header (R365), with the free values that its checks ask for. -/
def imageHead : List Byte := toBytes 4 0x4B420001 ++ toBytes 4 65536 ++ toBytes 8 0x100 ++ toBytes 48 0
def requested (op_ : Nat) (sec : Bool) : State :=
  { base 3 with
    plewick := { (base 3).plewick with request := some (op_, sec) }
    mem := [(requestBase, 1), (requestBase + 16, 0x40), (requestBase + 32, 32)] }

theorem test_meets_BringUpEvents :
    (imageFailure [] ≠ 0 ∧ (Config.minimumVersion = 0 → Config.signatureOk imageHead [] = true → imageFailure imageHead = 0)) ∧
    (∀ j ∈ (base 3).jobs, j.chunk = none) ∧ (base 3).Canonical ∧
    ((base 3).mem.wf = true ∧ (base 3).plewick.sealing = false ∧ { (base 3).plewick with sealing := true }.sealed = false ∧
      disjoint (base 3).configured.partitions = true) ∧
    ((base 3).plewick.request = none ∧ (requested 2 false).plewick.request = some (2, false) ∧ (requested 1 true).requestNat 0 8 = 1 ∧
      (requested 1 true).requestNat 32 8 = 32 ∧ argumentOk ((requested 1 true).requestNat 16 9) 32 = true ∧
      argumentOk ((requested 2 true).requestNat 16 9) 3701 = true ∧ argumentOk (2 ^ 48) 32 = false) ∧
    (((List.range 4).all fun k => writable (0x100 + k)) = true ∧ ((List.range 4).all fun k => writable (2 ^ 46 + k)) = false) := by
  refine ⟨⟨by decide, fun h1 h2 => ?_⟩, by decide, base_canonical 3, by decide +kernel, by decide +kernel, by decide⟩
  have e1 : imageHead.take (64 + imageLength imageHead) = imageHead := List.take_of_length_le (by decide)
  have e2 : (imageHead.drop (64 + imageLength imageHead)).take 3309 = [] := by rw [List.drop_eq_nil_of_le (by decide)]; rfl
  simp only [imageFailure, e1, e2, h1, h2]
  decide

/-- The host may reach 64 bytes from 0x100 on (R366); the line there is partition 0's. -/
def hosted : State :=
  { base 3 with
    setup := { hostBase := 0x100, hostLength := 64, partitions := [{ channels := [Config.lineChannel 0x100 % Config.channelCount] }] } }

theorem test_meets_OutsideWrites :
    hosted.Canonical ∧ (∀ k, k < 64 → hosted.hostMay (0x100 + k) = true) ∧ (∀ k, k < 4 → hosted.answers 0 (0x100 + k) = true) ∧
    (hosted.hostMay 0x140 = false ∧ hosted.answers 1 0x100 = false) := by
  have hm : ∀ k : Fin 64, hosted.hostMay (0x100 + k.val) = true := by decide
  have ho : hosted.ownsLine 0 0x100 = true := by simp [State.ownsLine, hosted]
  have ha : ∀ k, k < 4 → hosted.answers 0 (0x100 + k) = true := fun k hk => by
    have hl : (0x100 + k) / 64 * 64 = 0x100 := by omega
    have hd : 0x100 + k < Config.dramBytes := Nat.lt_of_lt_of_le (by omega : 0x100 + k < 0x104) (by decide)
    simp only [State.answers, hl, decide_eq_true hd, Bool.true_and, List.any_eq_true]
    exact ⟨0, by decide, by rw [ho]; rfl⟩
  have hn : hosted.answers 1 0x100 = false := by
    simp only [State.answers, Bool.and_eq_false_iff, List.any_eq_false]
    exact .inr fun p hp => by
      have : (hosted.setup.partitions.getD p {}).tag = 0 := by cases p <;> rfl
      rw [this]
      simp
  exact ⟨base_canonical 3, fun k hk => hm ⟨k, hk⟩, ha, by decide, hn⟩

/-- A record at the bytes that the host may write. -/
theorem test_meets_OutsideWrites_record :
    let l := { launchOf 0 with recordAt := (List.range 64).map fun k => 0x100 + k }
    l ∈ { hosted with launches := [l] }.launches ∧ (0 : Nat) < [1#8].length ∧ 0x100 + 0 ∈ l.recordAt ∧ ¬ { hosted with launches := [l] }.Plain 0x100 ∧
    { hosted with launches := [l] }.Plain 0x140 := by decide +kernel

/-- The access of `reaching`, 4 µs after it went out; a device that answers there with another tag refuses it. -/
def late : State := { reaching with time := 4000 }
def refusedThere : State := { reaching with peers := [(1, { tags := [(0, 2 ^ 40, 9)], switches := 0 })] }
def farVa : Addr := BitVec.ofNat 72 (2 ^ 51 + 2 ^ 40)

/-- The same with an error ring at 0x8000, empty or absent. -/
def ringed : State := { late with contexts := [(512, { tvec := 0x4000, errq := 0x8000 })] }

theorem test_meets_RemoteAnswers :
    late.MayTrap ∧ late.Canonical ∧ ringed.MayTrap ∧
    (ringed.plainBytes (ringed.unit 512) { w := true } 0x8000 32 = .ok ((List.range 32).map fun j => 0x8000 + j)) ∧
    ((ringed.ctx 512).errq ≠ 0 ∧ (ringed.ctx 512).ringIn - (ringed.ctx 512).ringOut < (ringed.ctx 512).ringCapacity ∧
      (ringed.ctx 512).ringEntry (ringed.ctx 512).ringIn = 0x8000 ∧ (late.ctx 512).errq = 0 ∧
      ((List.range 32).map fun j => 0x8000 + j).Nodup ∧
      ∀ p ∈ (List.range 32).map fun j => 0x8000 + j, ringed.ignored p = false ∧ ringed.Plain p) ∧
    ((late.job? 0).isSome = false ∧ late.noAnswer (late.agent late.cur) farVa = some .silent ∧ (0 : DWord).toNat + 4000 ≤ late.time.toNat ∧
      late.cur.status = .remote { kind := 0x30, access := 1, addr := farVa } 0 ∧ reaching.time.toNat < (0 : DWord).toNat + 4000 ∧
      refusedThere.noAnswer (refusedThere.agent refusedThere.cur) farVa = some .refused ∧ (base 3).cur.status = .running ∧
      late.noAnswer (late.agent late.cur) 8 = none) :=
  ⟨⟨rfl, by show (0x4000 : Addr) ≠ 0; decide⟩, ⟨rfl, FarTable.nil, FarTable.nil⟩, ⟨rfl, by show (0x4000 : Addr) ≠ 0; decide⟩,
    found_of (by decide +kernel), by decide +kernel, by decide +kernel⟩

/-- A snapshot from time 0 on of one line, armed and done or not. -/
def snapping (armed : Bool) (pending : List (Nat × Nat)) (damaged : List Nat) : State :=
  { base 3 with
    snapshots := [{ ctx := 0, at_ := 0, ranges := [(0, 64)], dest := 0x800, stamp := 0x900, armed := armed, pending := pending, damaged := damaged }] }

theorem test_meets_SnapshotSteps :
    (snapping true [(0, 0x800)] []).Canonical ∧
    ((∀ x ∈ (snapping false [(0, 0x800)] []).snapshots, x.at_ ≤ (snapping false [] []).time) ∧
      (∀ x ∈ { ctx := 0, at_ := 1, ranges := [], dest := 0, stamp := 0, armed := false, pending := [], damaged := [] : Snapshot } :: [],
        ¬ (x.armed = true ∨ x.at_ ≤ (base 3).time)) ∧
      ((snapping true [(0, 0x800), (64, 0x840)] []).snapshots.flatMap fun x => x.pending).Pairwise (fun p q => p.2 + 64 ≤ q.2 ∨ q.2 + 64 ≤ p.2) ∧
      (∀ x ∈ (snapping true [(0, 0x800), (64, 0x840)] []).snapshots, ∀ p ∈ x.pending, ∀ y ∈ (snapping true [(0, 0x800), (64, 0x840)] []).snapshots,
        ∀ q ∈ y.pending, p.2 + 64 ≤ q.1 ∨ q.1 + 64 ≤ p.2) ∧
      { snapping true [] [] with broken := [.line 0] }.broken.contains (.line 0) = true ∧ (base 3).broken.contains (.line 0) = false ∧
      (∀ x ∈ (snapping true [(0, 0x800)] []).snapshots, x.armed = false ∨ x.pending ≠ []) ∧
      ((snapping true [] [64]).snapshots.filter fun y => y.armed && y.pending.isEmpty) = (snapping true [] [64]).snapshots ∧
      ∀ j : Fin 8, 0x900 + j.val < Config.plewickBase ∧ (base 3).Plain (0x900 + j.val)) :=
  ⟨⟨rfl, FarTable.nil, FarTable.nil⟩, by decide +kernel⟩

/-- The place of a copy: in memory, and in a configuration block that is sealed. -/
theorem test_meets_SnapshotSteps_places :
    (base 3).takesWrite 0 0x800 = true ∧ (base 3).ignored 0x800 = false ∧ (base 3).Plain 0x800 ∧
    { base 3 with plewick := { (base 3).plewick with sealed := true } }.ignored configBase = true ∧
    (base 3).takesWrite 0 (Config.apertureBase + 2 ^ 40) = false := by decide +kernel

/-- Dirty bytes on both sides of the end of a line of another device's memory. -/
theorem test_meets_LineEvents_pair :
    let a := Config.apertureBase + 2 ^ 40
    let s := { base 3 with remote := [(a + 63, 1, 1), (a + 64, 2, 1)] }
    (a + 63) % 64 = 63 ∧ lookup s.remote (a + 63) ≠ none ∧ lookup s.remote (a + 63 + 1) ≠ none ∧ (a + 63) / 64 = a / 64 := by decide +kernel

/-- A fold's own scratch, and the slot with bank 2. -/
theorem test_meets_LineEvents :
    hosted.Canonical ∧ (∀ f o, SoftErrorPlace.line 64 ≠ .scratch f o) ∧ (banked 0 0).fold? 5 = some (banked 0 0).fold ∧
    0x7F < (banked 0 0).fold.localBytes ∧ (banked 0 0).fold.localBytes ≤ 0x1000000 + 4 * 0x80000 - 1 ∧ 3 < (banked 0 0).fold.slots ∧
    (banked 0 0).fold.bankIn 3 = some 2 :=
  ⟨base_canonical 3, fun _ _ h => (nomatch h), rfl, by decide, by decide, by decide, by decide⟩

/-- A copy of one FP32 element from record to record, and one into a trough. -/
def jobOf (kind : JobKind) (dst : CopyEnd) : CopyJob where
  id := 21
  kind := kind
  flock := 9
  fold := 5
  ctx := 0
  secure := false
  privileged := false
  src := .record { base := 0x1000, rank := 1, extents := [1, 0, 0, 0, 0], strides := [1, 0, 0, 0, 0] } 1
  dst := dst
  start := [0, 0, 0, 0, 0]
  width := 32
  total := 1
  rounding := 0
  stamp := 0
  seq := 1
  identity := 0
  next := 0
  chunk := none
  slot := none
  status := 0
  failedChunks := []
  stopped := false
def moving (j : CopyJob) : State := { user 0 3 with jobs := [j], tlb := [{ page with leaf := { leaf with format := 1 } }], fold := foldOf.setTrough 1 (ring [] false) }
def copyJob : CopyJob := jobOf .mm (.image 0)
/-- The chunk of that copy, as it stands at a hop after some attempts, with sums or not. -/
def chunkOf (hop attempts : Nat) : Chunk := { copyJob.form [(0, 0)] with hop := hop, attempts := attempts }
/-- A copy from page 1 of its context, which lies on device 1, and one into it; the device answers, refuses or is silent. -/
def abroad : CopyEnd := .record { base := 0x11000, rank := 1, extents := [1, 0, 0, 0, 0], strides := [1, 0, 0, 0, 0] } 1
def fetching : CopyJob := { copyJob with kind := .get, src := abroad }
def sending (kind : JobKind) : CopyJob := { jobOf kind abroad with chunk := some (copyJob.form [(0, 0)]) }
def across (j : CopyJob) (peers : List (Nat × Peer)) (now : DWord) : State :=
  { moving j with
    peers := peers, time := now
    tlb := [{ page with leaf := { leaf with format := 1 } },
      { page with page := 1, leaf := { leaf with base := Config.apertureBase + 2 ^ 40, format := 1 } }] }
def granting (tag : BitVec 16) : List (Nat × Peer) := [(1, { tags := [(0, 2 ^ 40, tag)], switches := 1 })]

theorem test_meets_RemoteAnswers_jobs :
    let s := across { fetching with asked := some 0 } [] 4000
    ((across fetching [] 0).job? 21).isSome = true ∧ fetching.chunk.isNone = true ∧ fetching.asked = none ∧ (0x11000 : Addr) ∈ s.sourceReaches { fetching with asked := some 0 } ∧
    s.noAnswer fetching.agent 0x11000 = some .silent ∧ (0 : DWord).toNat + 4000 ≤ s.time.toNat ∧
    (across fetching (granting 9) 0).noAnswer fetching.agent 0x11000 = some .refused ∧ ((across fetching (granting 0) 0).sourceReaches fetching).all (fun b =>
      ((across fetching (granting 0) 0).noAnswer fetching.agent b).isNone) = true ∧ (sending .put).chunk.isSome = true ∧
    (0x11000 : Addr) ∈ (sending .put).reaches (sending .put).dst := by decide +kernel

/-- A chunk that has not left its core, one that left 4 µs ago, and an answer of the source that comes too late. -/
theorem test_meets_chunk_clocks :
    let j := sending .put
    let gone := (copyJob.form [(0, 0)]).since
    gone = none ∧ (0x11000 : Addr) ∈ j.reaches j.dst ∧ ((across j (granting 0) 4000).farDevice j.agent 0x11000).isSome = true ∧ (0 : DWord).toNat + 4000 ≤ (across j [] 4000).time.toNat ∧
    (across j [] 3999).time.toNat < (0 : DWord).toNat + 4000 ∧ { fetching with asked := some 0 }.asked = some 0 ∧
    (across { fetching with asked := some 0 } [] 3999).maySend { fetching with asked := some 0 } = true := by decide +kernel

/-- A switch at the first hop with what it holds. -/
def entryAt (held : List Held) : Combine := { id := 4, hop := 1, coll := 1, step := 1, portP := 0, portQ := 1, portOut := 2, inForce := true, held := held }
def heldAt (port job : Nat) : Held := { port := port, chunk := { chunkOf 1 0 with format := 1 }, job := job, since := 0 }
/-- Two background copies of two contexts, of which the first was served last. -/
def sharing : State := { moving (jobOf .bg (.image 0)) with jobs := [jobOf .bg (.image 0), { jobOf .bg (.image 0) with id := 22, ctx := 1 }] }

def reads (s : State) (j : CopyJob) : Nat := match s.readElement j 0 with | .ok _ => 0 | .error x => x

theorem test_meets_ChunkSending :
    let j := copyJob
    (reads (across fetching [] 0) fetching = 7 ∧ (across fetching [] 0).jobSilent fetching ((across fetching [] 0).sourceReaches fetching) = true ∧ (across fetching [] 0).maySend fetching = true ∧
      reads (across fetching (granting 9) 0) fetching = 7 ∧ (across fetching (granting 9) 0).jobSilent fetching ((across fetching (granting 9) 0).sourceReaches fetching) = false) ∧
    (((user 0 3).job? 21).isSome = false ∧ ((moving j).job? 21).isSome = true ∧ (moving j).maySend j = true ∧ (moving j).maySend { j with next := 1 } = false ∧
      j.countOf j.next = 1 ∧ reads (moving j) j = 0 ∧ reads { moving j with tlb := [page] } j = 5) ∧
    (j.kind ≠ .bg ∧ sharing.bgTurn = 0 ∧ sharing.maySend { jobOf .bg (.image 0) with id := 22, ctx := 1 } = true ∧
      sharing.maySend (jobOf .bg (.image 0)) = false ∧ (sharing.jobs.map fun k => k.id).Nodup) := by decide +kernel

/-- A reduction job whose destination record is the source's. -/
def reducing : CopyJob := jobOf .collRed (.record { base := 0x1000, rank := 1, extents := [1, 0, 0, 0, 0], strides := [1, 0, 0, 0, 0] } 1)
def summed (w2 : DWord) : Chunk := { chunkOf 0 0 with format := 1, withSums := true, w2 := w2 }

theorem test_meets_ChunkArrival :
    let c := chunkOf 0 0
    let r := reducing.form [(0, 0)]
    let far := sending .collRed
    let old := fun (s : State) => match s.oldElements far 0 with | .ok _ => 0 | .error k => k
    ((moving copyJob).atPort (.chunk 21) = false ∧ (waitingFor (.chunk 21)).atPort (.chunk 21) = true) ∧
    (copyJob.chunk.isSome = false ∧ weltSum (c.bits ^^^ 1 % 2 ^ 32) 32 ≠ c.w1 ∧ weltSum (c.bits ^^^ 0 % 2 ^ 32) 32 = c.w1 ∧ 15 < (chunkOf 15 0).hop + 1 ∧
      (moving copyJob).switchesOf copyJob < c.hop + 1 ∧ c.hop + 1 ≤ (across far (granting 0) 0).switchesOf far ∧
      (across far (granting 0) 0).switchesOf far < c.hop + 2) ∧
    ((moving copyJob).entryFor c 1 = none ∧ ({ moving copyJob with combining := [entryAt []] }.entryFor { c with entries := [4] } 1).isSome = true) ∧
    ((match (moving copyJob).oldElements copyJob 0 with | .ok x => x | .error _ => [1]) = [] ∧ copyJob.kind ≠ .collRed ∧ c.withSums = false ∧
      (let sums := weltSums ((summed 0).values copyJob.sat 0); sumAgrees 0 sums.1 sums.2 1 = true ∧ sumAgrees 0x4000000000000000 sums.1 sums.2 1 = false) ∧
      (match (moving reducing).oldElements reducing 0 with | .ok x => x | .error _ => []) = [0] ∧ (r.reduceWith reducing.sat r.bits [0]).2 = true ∧
      ({ r with w2 := 0x4000000000000000 }.reduceWith reducing.sat r.bits [0]).2 = false ∧
      (old (across far [] 0) = 7 ∧ (across far [] 0).jobSilent far (far.reaches far.dst) = true ∧ old (across far (granting 9) 0) = 7 ∧
        (across far (granting 9) 0).jobSilent far (far.reaches far.dst) = false)) ∧
    ((moving { copyJob with formed := some c }).job? 21 = some { copyJob with formed := some c } ∧ (chunkOf 0 2).attempts < 3 ∧ 3 ≤ (chunkOf 0 3).attempts) := by
  decide +kernel

theorem test_meets_CopyEnds :
    let j := copyJob
    let t := jobOf .mt (.trough 1)
    let shut := { moving t with fold := foldOf.setTrough 1 (ring [] true) }
    let full := { moving t with fold := foldOf.setTrough 1 (ring [(0, .filled), (1, .filled)] false) }
    let stamped := { j with stamp := 0x400 }
    (moving j).Canonical ∧ (moving stamped).plainBytes stamped.agent { w := true } 0x400 8 = .ok ((List.range 8).map fun i => 0x400 + i) ∧
    (((List.range 8).map fun i => 0x400 + i).Nodup ∧ (∀ i : Fin 8, 0x400 + i.val < Config.plewickBase ∧ (moving j).Plain (0x400 + i.val))) ∧
    (((moving j).job? 99).isSome = false ∧ (moving j).jobDone j = false ∧ (moving j).jobDone { j with next := 1 } = true ∧
      (moving j).jobDone { j with stopped := true, status := 3 } = true) ∧
    (t.slot = none ∧ t.stopped = false ∧ ((moving t).fold? t.fold).isSome = true ∧ ((moving t).fold? 77).isSome = false ∧
      ((moving t).fold.trough 1).closed = false ∧ (moving t).waiting ((moving t).fold.trough 1).reserving = [] ∧
      0 < ((moving t).fold.trough 1).count - ((moving t).fold.trough 1).slots.length ∧ (shut.fold.trough 1).closed = true ∧
      (full.fold.trough 1).count - (full.fold.trough 1).slots.length = 0) :=
  ⟨⟨rfl, FarTable.nil, FarTable.nil⟩, found_of (by decide +kernel), by decide +kernel, by decide +kernel, by decide +kernel⟩

theorem test_meets_SwitchEvents :
    let both := entryAt [heldAt 0 21, heldAt 1 0]
    let one := entryAt [heldAt 0 21]
    let s := { moving copyJob with combining := [both] }
    ((s.combining.find? fun e => e.id == 5) = none ∧ (s.combining.find? fun e => e.id == 4) = some both) ∧
    (one.pair = none ∧ both.pair = some (heldAt 0 21, heldAt 1 0) ∧ (combineChunks 1 (heldAt 0 21).chunk (heldAt 1 0).chunk 0).2 = true ∧
      (combineChunks 1 (heldAt 0 21).chunk (heldAt 1 0).chunk 0x40000000).2 = false ∧ (s.job? 21).isSome = true ∧ (s.job? 0).isSome = false) ∧
    (let late := entryAt [heldAt 0 21, { heldAt 1 0 with since := 100001 }];
      late.pair = none ∧ (heldAt 0 21).since.toNat + 100000 < { heldAt 1 0 with since := 100001 }.since.toNat) ∧
    ((heldAt 0 21).since.toNat + 100000 ≤ { s with time := 100000 }.time.toNat ∧ (∀ k ∈ one.held, k.port = 0) ∧
      s.time.toNat < (heldAt 0 21).since.toNat + 100000) := by decide +kernel

/-! Premises of the statements about faults of accesses, page faults and mesh ports. -/

/-- A flock that saturates a class (R99). -/
def saturated (c : Sys2Proof.Machine.Class) (n : Nat) : State := { user 0 3 with cur := { flockOf 3 with pend := (List.range n).map fun k => { op c [] with id := k } } }

theorem test_meets_FaultsOfAccesses :
    let s := aimed (typed 1) 0x101
    let lost := { aimed (user 0 3) 0x100 with tlb := [] }
    (s.cur.laneBits 1 2 0 32 0 % 32 ≠ 0 ∧ (s.cur.flockAddress 1 0 4).toNat % 4 ≠ 0 ∧ (s.cur.flockAddress 1 0 8).toNat % 8 ≠ 0 ∧ s.cur.em.on 0 = true) ∧
    (∃ pa l, s.locate (s.agent s.cur) Need.load (s.cur.getA 1) = .ok (pa, l) ∧ l.format ≠ 0) ∧
    (∃ f, lost.locate (lost.agent lost.cur) Need.load (lost.cur.laneVa 1 2 0 4 0) = .error (.trap f)) ∧
    (∃ f, lost.locate (lost.agent lost.cur) Need.store (lost.cur.flockAddress 1 0 8) = .error (.trap f)) ∧
    (∃ pa l, refusing.locate (refusing.agent refusing.cur) Need.atomic (refusing.cur.laneVa 1 2 0 4 0) = .ok (pa, l) ∧ rawOk l = false) ∧
    (¬ (saturated .loads 31).Ready .loads ∧ ¬ (saturated .stores 31).Ready .stores ∧ ¬ (saturated .copies 15).Ready .copies ∧
      (saturated .loads 31).cur.em ≠ 0 ∧ (saturated .copies 15).tileOk 15 = true) :=
  ⟨by decide, ⟨_, _, rfl, by decide⟩, trap_of (by decide +kernel), trap_of (by decide +kernel), ⟨_, _, rfl, rfl⟩,
    by show ¬ (_ < _); decide +kernel, by show ¬ (_ < _); decide +kernel, by show ¬ (_ < _); decide +kernel, by decide, by decide⟩

/-- Scalar 1 is a scratch address: in slot 3, which holds bank 2, in slot 4, which holds none, past the slots, and off its alignment. -/
theorem test_meets_ScratchFaults :
    let at_ := fun (x : DWord) => (aimed (banked 0 x) 0).cur
    let p := fun (x : DWord) => scratchAddress ((at_ x).getS 1) (((at_ x).lane 2 0).toInt + 0) 4
    let window := fun (p q : Nat) => q < (banked 0 0).fold.slots ∧ 0x1000000 + q * 0x80000 ≤ p ∧ p < 0x1000000 + (q + 1) * 0x80000
    (at_ 0).em.on 0 = true ∧ p 0x1000002 % 4 ≠ 0 ∧ (p 0x1200000 % 4 = 0 ∧ (banked 0 0).fold.localBytes ≤ p 0x1200000 ∧ window (p 0x1200000) 4 ∧
      (banked 0 0).fold.bankIn 4 = none) ∧ p 0xFFFFFFF0 % 4 = 0 ∧ (∀ q, ¬ window (p 0xFFFFFFF0) q) := by
  have e : scratchAddress ((aimed (banked 0 0xFFFFFFF0) 0).cur.getS 1) (((aimed (banked 0 0xFFFFFFF0) 0).cur.lane 2 0).toInt + 0) 4 = 0xFFFFFFF0 := by
    decide +kernel
  have h8 : (banked 0 0).fold.slots ≤ 8 := by decide
  refine ⟨by decide, by decide +kernel, by decide +kernel, by decide +kernel, fun q hq => ?_⟩
  simp only [e] at hq
  have := hq.1
  omega

/-- A launch of context 0 whose park list at 0x2000 has two entries, or none. -/
def parking (flags : Word) (capacity : Byte) : State :=
  { launching [launchOf flags] with
    cur := flockOf 3, fold := foldOf, mem := (if capacity = 0 then [] else [(0x2008, capacity)]) ++ tables
    contexts := [(0, { state := 2, tvec := 0x4000, guestRoot := 0x10000, parkb := 0x2000 })] }
def parks (s : State) (k : Nat) : Bool := match s.parkAdd 0 k false 0 0x40 0x800 0 0x11 0 0 with | some x => x.2 == 0 | none => false

theorem test_meets_PageFaults :
    let f : TrapInfo := { kind := 0x11, access := 1, addr := 0x40 }
    (f.isPageFault = true ∧ (flockOf 3).routine.fatal = false ∧ (base 3).cur.routine.fatal = false ∧ (base 3).cur.supervises = true ∧
      ((base 3).ctx (base 3).cur.ctx).tvec ≠ 0) ∧
    parks (parking 0 2) 2 = true ∧ parks (parking 0 0) 2 = false ∧
    (let s := parking 8 2
      let g := s.removeFold s.fold
      s.launch? s.fold.launch = some (launchOf 8) ∧ (launchOf 8).hdr.restart = true ∧ (launchOf 0).hdr.restart = false ∧ s.fold.ctx = s.cur.ctx ∧
        s.cur.fold = s.fold.id ∧ s.fold.id ≠ 0 ∧ (s.ctx s.cur.ctx).preempting = none ∧ parks g 1 = true ∧ s.cur.supervises = false) := by decide +kernel

/-- A load of one line that is sent, and ports with an empty bucket and with none. -/
theorem test_meets_MeshPorts :
    let t := { user 0 3 with cur := { flockOf 3 with pend := [{ op .loads [] with id := (user 0 3).nextId, places := [64] }] } }
    let j := { copyJob with formed := some (chunkOf 0 0), core := 3 }
    (∃ o ∈ t.cur.pend, (user 0 3).nextId ≤ o.id ∧ o.asks ≠ (0, 0) ∧ t.cur.supervises = false) ∧
    ({ moving j with stopped := true }.sent (moving j) = [] ∧ { moving copyJob with stopped := true }.sent (moving j) = [{ core := 3, ctx := 0, asker := .chunk 21, asks := (1, 0) }] ∧ j.memoryEnds ≠ 0 ∧
      j.core < 256 ∧ 0 < (chunkOf 0 0).width * (chunkOf 0 0).count) ∧
    (let s := member 4 .committing
      let f := { s.fold with buf := [.line 64 1 1 0] };
      (∃ k ∈ { s with fold := f }.flocksOf 5, k.status = .committing) ∧ f.buf ≠ [] ∧ s.fold.buf = [] ∧
        askOf (({ s with fold := f }.outgoing f).flatMap CommitEntry.places) ≠ (0, 0) ∧ ({ s with fold := f }.fold? 5).isSome = true) ∧
    ((user 0 3).issues = true ∧ (user 0 3).agenda = [] ∧ (user 0 3).cur.supervises = false ∧ askOf (user 0 3).fetchedPlaces ≠ (0, 0)) ∧
    ((0 : Nat) ∈ [0, 2] ∧ (lookup [(0, 1), (2, 5)] 0).getD 0 < 3 ∧ (1 : Nat) ∉ [0, 2]) := by decide +kernel

theorem test_meets_RegisterUnderWay :
    let v := busyWith (base 3) (op .loads [.vector 5 Lanes.zero Lanes.zero false])
    let x := busyWith (base 3) (op .loads [.scalar 5 0 1 false])
    let a := busyWith (base 3) (op .loads [.address 5 0 1 false])
    v.cur.active 0 ≠ 0 ∧ v.cur.busy (Dest.isVector 5) = true ∧ v.cur.operand 5 = false ∧ x.cur.busy (Dest.isScalar 5) = true ∧
    a.cur.busy (Dest.isAddress 5) = true := by decide

/-! Single steps, their results worked out by hand from the rules named. -/

/-- What a meaning leaves, read by f; a default where it stops. -/
def after {α : Type} (r : Result) (d : α) (f : State → α) : α := match r with | .next t => f t | _ => d
/-- Lanes 0 and 1 of a register hold two words. -/
def lane2 (s : State) (r : BitVec 6) (x y : Word) : State :=
  { s with cur := s.cur.setV r (Lanes.merge Lanes.zero 3 fun i => if i.val = 0 then x else y) }
/-- The two lowest lanes of v5 and the sticky flags after an instruction on v1 and v2. -/
def lanes5 (i : Instr) (x0 x1 y0 y1 : Word) : Word × Word × Word :=
  after (exec i (lane2 (lane2 (base 3) 1 x0 x1) 2 y0 y1)) (7, 7, 7) fun t => (t.cur.lane 5 0, t.cur.lane 5 1, t.cur.fcr)
/-- Scalar 3 after an instruction on scalars 1 and 2. -/
def scalar3 (i : Instr) (x y : DWord) : DWord :=
  after (exec i { base 3 with cur := ((base 3).cur.setS 1 x).setS 2 y }) 0xDEAD fun t => t.cur.getS 3

/-- Sums wrap at 32 bits (R119). -/
theorem test_vadd_wraps : lanes5 (.vadd 5 1 2 0) 0xFFFFFFFF 3 1 4 = (0, 7, 0) := by decide +kernel
theorem test_vmulh_signed : lanes5 (.vmulhS 5 1 2 0) 0xFFFFFFFF 0x80000000 2 0x80000000 = (0xFFFFFFFF, 0x40000000, 0) := by decide +kernel
theorem test_vmulh_unsigned : lanes5 (.vmulhZ 5 1 2 0) 0xFFFFFFFF 0x80000000 2 0x80000000 = (1, 0x40000000, 0) := by decide +kernel
theorem test_vshr_arithmetic : lanes5 (.vshrS 5 1 2 0) 0x80000000 0x80000000 31 4 = (0xFFFFFFFF, 0xF8000000, 0) := by decide +kernel
/-- 1 + 2 is 3; the largest finite number and itself overflow to infinity with OF (R77). -/
theorem test_vfadd : lanes5 (.vfadd 5 1 2 0) 0x3F800000 0x7F7FFFFF 0x40000000 0x7F7FFFFF = (0x40400000, 0x7F800000, 0x200) := by decide +kernel
/-- Infinity times 0 is NaN with NV. -/
theorem test_vfmul_invalid : lanes5 (.vfmul 5 1 2 0) 0x7F800000 0x40000000 0 0xC0400000 = (0x7FC00000, 0xC0C00000, 0x100) := by decide +kernel
/-- v5 holds 0: 2 * 3 + 0 is 6, and subtracted it is -6 (R120). -/
theorem test_vfmac : lanes5 (.vfmac 5 1 2 0) 0x40000000 0 0x40400000 0 = (0x40C00000, 0, 0) := by decide +kernel
theorem test_vfnmac : lanes5 (.vfnmac 5 1 2 0) 0x40000000 0 0x40400000 0 = (0xC0C00000, 0, 0) := by decide +kernel
theorem test_cvt_from_signed : lanes5 (.cvtF32S32 5 1 0) 0xFFFFFFFF 0x7FFFFFFF 0 0 = (0xBF800000, 0x4F000000, 0) := by decide +kernel
theorem test_cvt_from_unsigned : lanes5 (.cvtF32Z32 5 1 0) 0xFFFFFFFF 5 0 0 = (0x4F800000, 0x40A00000, 0) := by decide +kernel
theorem test_vclz : lanes5 (.vclz 5 1 0) 0 1 0 0 = (32, 31, 0) := by decide +kernel
theorem test_vpopc : lanes5 (.vpopc 5 1 0) 0xFFFFFFFF 5 0 0 = (32, 2, 0) := by decide +kernel
theorem test_vbrev : lanes5 (.vbrev 5 1 0) 1 0x80000000 0 0 = (0x80000000, 1, 0) := by decide +kernel
/-- A signed comparison and an unsigned one differ at 0xFFFFFFFF; inactive lanes give 0 (R122). -/
theorem test_vcmp_signed : after (exec (.vcmpLtS 2 1 2 0) (lane2 (lane2 (base 3) 1 0xFFFFFFFF 1) 2 0 0)) 9 (fun t => t.cur.getP 2) = 1 := by decide +kernel
theorem test_vcmp_unsigned : after (exec (.vcmpLtZ 2 1 2 0) (lane2 (lane2 (base 3) 1 0xFFFFFFFF 0) 2 0 1)) 9 (fun t => t.cur.getP 2) = 2 := by decide +kernel
/-- Reductions: the minimum of no lane, and the running sums of a scan (R125). -/
theorem test_red_min_empty : after (exec (.redMinS 3 1 0) (base 0)) 9 (fun t => t.cur.getS 3) = 0x7FFFFFFF := by decide +kernel
theorem test_scan_add : lanes5 (.scanAdd 5 1 0) 3 4 0 0 = (3, 7, 0) := by decide +kernel
/-- Scalar arithmetic at 64 bits (R127). -/
theorem test_sadd_wraps : scalar3 (.sadd 3 1 2) 0xFFFFFFFFFFFFFFFF 2 = 1 := by decide +kernel
theorem test_sdiv_corner : scalar3 (.sdivS 3 1 2) 0x8000000000000000 0xFFFFFFFFFFFFFFFF = 0x8000000000000000 := by decide +kernel
theorem test_sdiv_truncates : scalar3 (.sdivS 3 1 2) 0xFFFFFFFFFFFFFFF9 2 = 0xFFFFFFFFFFFFFFFD := by decide +kernel
theorem test_sdiv_by_zero : scalar3 (.sdivZ 3 1 2) 5 0 = 0xFFFFFFFFFFFFFFFF := by decide +kernel
theorem test_saddi_negative : scalar3 (.saddi 3 1 0x7FFF) 5 0 = 4 := by decide +kernel
theorem test_sins : scalar3 (.sins 3 1 0x7FFF) 1 0 = 0xFFFF := by decide +kernel
theorem test_s0_discards : after (exec (.saddi 0 0 5) (base 3)) 9 (fun t => t.cur.getS 0) = 0 := by decide +kernel
/-- Address arithmetic wraps at 72 bits; 1 for equal, 2 for below (R128). -/
theorem test_asub_wraps : after (exec (.asub 2 0 1) { base 3 with cur := (base 3).cur.setS 1 1 }) 0 (fun t => t.cur.getA 2) = 0xFFFFFFFFFFFFFFFFFF := by
  decide +kernel
theorem test_acmp_below : after (exec (.acmp 3 0 2) { base 3 with cur := (base 3).cur.setA 2 1 }) 9 (fun t => t.cur.getS 3) = 2 := by decide +kernel
/-- A branch counts halfwords from its own address (R104), a call leaves the address behind it (R134). -/
theorem test_br_back : after (exec (.br 0xFFFFE) { base 3 with cur := { (base 3).cur with pc := 0x100 } }) 0 (fun t => t.cur.pc) = 0xFC := by decide +kernel
theorem test_jal_links : after (exec (.jal 3 4) { base 3 with cur := { (base 3).cur with pc := 0x100 } }) (0, 0) (fun t => (t.cur.pc, t.cur.getS 3)) =
    (0x108, 0x104) := by decide +kernel
/-- The end of a body with passes left goes back and counts down (R136). -/
theorem test_loop_back : after (exec (.sadd 0 0 0) (looping 1 3)) (0, 0) (fun t => (t.cur.pc, (t.cur.getLoop 1).count)) = (0x30, 2) := by decide +kernel
/-- A signed byte load, when it is complete (R115, R153). -/
theorem test_ld_signed_byte :
    after (exec (.ldB8S 5 1 2 0) { aimed (user 0 1) 0x100 with mem := [(0x100, 0x80)] }) 0
      (fun t => after (exec (.loadComplete 9) t) 0 fun u => u.cur.lane 5 0) = 0xFFFFFF80 := by decide +kernel
theorem test_st_halfword :
    after (exec (.stB16 3 1 2 0) (lane2 (aimed (user 0 1) 0x100) 3 0x12345678 0)) [] (fun t => t.mem) = [(0x100, 0x78), (0x101, 0x56)] := by decide +kernel
/-- Four-bit elements share a byte, the first in its low half (R155). -/
theorem test_st_nibble :
    after (exec (.stB4 3 1 2 0) (lane2 (aimed (user 0 3) 0x100) 3 0xA 0xB)) [] (fun t => t.mem) = [(0x100, 0xBA)] := by decide +kernel
/-- A misaligned load is fault 0x13 with the lane and the address (R284). -/
theorem test_ld_misaligned : after (exec (.ldB32 5 1 2 1) (aimed (base 2) 0x102)) (0, 0) (fun t => (t.cur.pc, t.cur.faddr)) = (0x4000, 0x10A) := by
  decide +kernel
/-- An addition at a location, lanes in ascending order: both add to the same word (R162). -/
theorem test_atom_add : after (exec (.atomAdd 5 1 4 2 0) (lane2 { aimed (user 0 3) 0x100 with mem := [(0x100, 5)] } 5 2 3)) [] (fun t => t.mem) =
    [(0x100, 10)] := by decide +kernel
/-- A word in scratch comes back (R159). -/
theorem test_scratch : after (exec (.sspB64 1 0 2) { user 0 3 with cur := (flockOf 3).setS 1 0x1122 }) 0
    (fun t => after (exec (.lspB64 3 0 2) t) 0 fun u => after (exec (.loadComplete 9) u) 0 fun w => w.cur.getS 3) = 0x1122 := by decide +kernel
/-- `wait` with an operation too many under way does not pass (R139). -/
theorem test_wait_blocks : after (exec (.wait 0 31 15 15) (busyWith (base 3) (op .loads []))) .running (fun t => t.cur.status) = .blocked (.wait 0 31 15 15) := by
  decide +kernel
theorem test_halt_waits : after (exec .halt (busyWith (base 3) (op .loads []))) .running (fun t => t.cur.status) = .halting := by decide +kernel
/-- `trap 5` saves the next address (R144), and `eret` goes back there (R294). -/
theorem test_trap_and_return : after (exec (.trap 5) { base 3 with cur := { (base 3).cur with pc := 0x100 } }) (0, 0)
    (fun t => after (exec .eret t) (0, 0) fun u => (t.cur.pc, u.cur.pc)) = (0x4000, 0x104) := by decide +kernel
/-- A matrix product: A in registers 8 and 9 is 1 everywhere, B is an INT1 image whose first row alone is 1, so every entry of the tile is 1.0
(R84, R182, R189). Only the tile of the quarter with active lanes changes. -/
def product : State :=
  let s := multiplying inRegisters bitB
  { s with
    cur := s.cur.setV 8 (Lanes.merge Lanes.zero 0xFFFFFFFF fun _ => 0xFFFFFFFF)
    fold := { s.fold with scratch := { cells := [(0x4000, 0xFF), (0x4001, 0xFF), (0x4002, 0xFF), (0x4003, 0xFF)] } } }
theorem test_mma : after (exec (.mma 3 1 2 0 0 0 0) product) (9, 9, 9) (fun t =>
    ((tileAt (t.fold.tile 12) 0 0).s, (tileAt (t.fold.tile 12) 7 31).s, (tileAt (t.fold.tile 13) 0 0).s)) = (0x3F800000, 0x3F800000, 0) := by decide +kernel
/-- A readout in FP32 and in INT32 (R195). -/
def tiled : State := { user 0 3 with fold := foldOf.setTile 2 (Vector.replicate 256 { s := 0x40400000, c := 0x3F800000 }) }
theorem test_accrd : after (exec (.accrd 5 2 1 0) tiled) 0 (fun t => after (exec (.tileOperationComplete 9) t) 0 fun u => u.cur.lane 5 1) = 0x40800000 := by
  decide +kernel
theorem test_accrd_integer : after (exec (.accrd 5 2 1 3) tiled) 0 (fun t => after (exec (.tileOperationComplete 9) t) 0 fun u => u.cur.lane 5 1) = 4 := by
  decide +kernel
theorem test_accneg : after (exec (.accneg 2) tiled) 0 (fun t => (tileAt (t.fold.tile 2) 0 0).s) = 0xC0400000 := by decide +kernel
/-- `tload` of the record of `bound`, whose one element is 1.0, then a store of a tile of 4.0 over it (R185, R197). -/
theorem test_tstore : after (exec (.tstore 2 3) { bound 8 1 0 with fold := foldOf.setTile 3 (Vector.replicate 256 { s := 0x40400000, c := 0x3F800000 }) }) []
    (fun t => t.mem.filter fun c => 0x1000 ≤ c.1) = [(0x1002, 0x80), (0x1003, 0x40)] := by decide +kernel
theorem test_tstore_pair : after (exec (.tstorePair 2 3) { bound 8 1 0 with fold := foldOf.setTile 3 (Vector.replicate 256 { s := 0x40400000, c := 0x3F800000 }) }) []
    (fun t => t.mem.filter fun c => 0x1000 ≤ c.1) = [(0x1002, 0x40), (0x1003, 0x40), (0x1006, 0x80), (0x1007, 0x3F)] := by decide +kernel
/-- A trough gives its slots in ring order, and only what was posted is taken (R212). -/
theorem test_tgresv : after (exec (.tgresv 3 1) (troughed (ring [(0, .taken)] false))) 9 (fun t => t.cur.getS 3) = 0 := by decide +kernel
theorem test_tgtake : after (exec (.tgtake 3 1) (troughed (ring [(1, .taken), (0, .filled)] false))) (9, []) (fun t => (t.cur.getS 3, (t.fold.trough 1).slots)) =
    (0, [(1, .taken), (0, .taken)]) := by decide +kernel
/-- A bank given to the other member of a gang of two (R216): its lowest empty slot is 0. -/
theorem test_give : after (exec (.give 4 1 3) (giving 1 [taker])) (9, none, none) (fun t => (t.cur.getS 4, t.fold.bankIn 3, (t.folds.head?.bind fun f => f.bankIn 0))) =
    (0, none, some 2) := by decide +kernel
/-- Two values 1 and 2 (R46): the mean is 1.5 and M2 is 0.5. -/
theorem test_est_add : after (exec (.estAdd 1) (lane2 (base 3) 1 0x3F800000 0x40000000)) (9, 9, 9) (fun t => (t.cur.est.n, t.cur.est.mean, t.cur.est.m2)) =
    (2, 0x3FF8000000000000, 0x3FE0000000000000) := by decide +kernel
/-- A dependency counter at 1 goes to 0 and below is fault 0x22 (R31). -/
theorem test_dep_dec : after (exec (.depDec 1) (counting 0x800 1)) [(0, 0)] (fun t => t.mem) = [] := by decide +kernel
theorem test_dep_dec_zero : after (exec (.depDec 1) (counting 0x800 0)) 0 (fun t => t.cur.ecause.setWidth 8) = 0x22#8 := by decide +kernel
/-- A system register's two halves (R234), and a read-only one (R109). -/
theorem test_sset : after (exec (.sset 1 7) (privileged 0x123)) 0 (fun t => (t.ctx 512).tvec) = 0x230000000000004000 := by decide +kernel
theorem test_sset_read_only : after (exec (.sset 1 0) (privileged 0x123)) 0 (fun t => t.cur.pc) = 0x4000 := by decide +kernel
/-- A step fetches and runs what stands at the program counter. -/
theorem test_step : after (step (planted 0x000002AD)) 9 (fun t => t.cur.pc) = 4 := by decide +kernel

/-- R315's own example: the contexts with shares 32, 16 and 16 start the next window with 683, 256 and 341 tokens. -/
theorem test_refill : after (exec (.tokenRefill 0 [] []) refilling) [] (fun t => (t.core 0).buckets) = [(0, 683), (1, 256), (2, 341)] := by decide +kernel
/-- A flock that waits takes a trap, and `mwait` returns when the routine gives control back to it (R168). -/
def waitingFault : State :=
  { deferring 0x30 with cur := { (deferring 0x30).cur with status := .waiting, monitor := { armed := true, event := false } } }
theorem test_mwait_returns : after (exec (.deferredFaultDelivery waitingFault.cur.id) waitingFault) (9, none) (fun t =>
    after (exec .eret t) (9, none) fun u => after (exec .mwait u) (9, none) fun w => (w.cur.pc, w.cur.waitedAt)) = (4, none) := by decide +kernel

/-- Every entry of an LNS6 tile that is pad is zero (R181), whose code has bit 4 alone (R69): of the six planes the fifth is all ones (R182). -/
theorem test_tile_pad_lns : (base 3).loadImage (operand 1 0 0 9 6 0) [] 0 = List.replicate 16 0 ++ List.replicate 4 0xFF ++ List.replicate 4 0 := by
  decide +kernel

/-- R170: the core's cache and the flock's own fetched code go; what another core or flock holds stays. -/
theorem test_ifence : after (exec .ifence { base 3 with code := [(.core 256, 0, 1), (.core 1, 0, 2), (.flock 0, 4, 3), (.flock 1, 4, 4)] }) []
    (fun t => t.code) = [(.core 1, 0, 2), (.flock 1, 4, 4)] := by decide +kernel

/-- R372: the SHA3-384 of the message `abc`, as FIPS 202's own examples give it, its first byte lowest. -/
theorem test_sha3 : sha3 [0x61, 0x62, 0x63] =
    0x256d3728f2edf139f5c77a92ea8cd898b2e49be4f07cda96258cc00fcb73b4f98dadc6e2589f4526c96f5188824901ec := by decide +kernel

end Sys2Proof.Tests
end

section
/-!
PROOF. The completion of a counted operation (R77, R115, R116, R175): what the delivery of its destinations leaves in each register, what the
flock and the state are after it, and which operation a completion event ends.
-/
namespace Sys2Proof.Machine

/-! The delivery of one destination, and of all of an operation in order (R115). -/

theorem Dest.deliver_eq (f : Flock) (n : Nat) (b : Bool) (d : Dest) :
    d.deliver f n b = { f with v := (d.deliver f n b).v, s := (d.deliver f n b).s, a := (d.deliver f n b).a } := by
  cases d with
  | vector r o x bad => rfl
  | scalar r o x bad => simp only [Dest.deliver, Flock.setS]; split <;> rfl
  | address r o x bad => simp only [Dest.deliver, Flock.setA]; split <;> rfl

theorem Dest.deliver_getV_other (q : BitVec 6) (f : Flock) (n : Nat) (b : Bool) (d : Dest) (h : Dest.isVector q d = false) :
    (d.deliver f n b).getV q = f.getV q := by
  cases d with
  | vector r o x bad =>
    simp only [Dest.isVector, beq_eq_false_iff_ne] at h
    simp [Dest.deliver, Flock.getV_setV, h.symm]
  | scalar r o x bad => simp [Dest.deliver, Flock.getV]
  | address r o x bad => simp [Dest.deliver, Flock.getV]

theorem Dest.deliver_getS_other (q : BitVec 5) (f : Flock) (n : Nat) (b : Bool) (d : Dest) (h : Dest.isScalar q d = false) :
    (d.deliver f n b).getS q = f.getS q := by
  cases d with
  | vector r o x bad => rfl
  | scalar r o x bad =>
    simp only [Dest.isScalar, beq_eq_false_iff_ne] at h
    simp [Dest.deliver, Flock.getS_setS, h.symm]
  | address r o x bad => simp [Dest.deliver, Flock.getS]

theorem Dest.deliver_getA_other (q : BitVec 4) (f : Flock) (n : Nat) (b : Bool) (d : Dest) (h : Dest.isAddress q d = false) :
    (d.deliver f n b).getA q = f.getA q := by
  cases d with
  | vector r o x bad => rfl
  | scalar r o x bad => simp [Dest.deliver, Flock.getA]
  | address r o x bad =>
    simp only [Dest.isAddress, beq_eq_false_iff_ne] at h
    simp [Dest.deliver, Flock.getA_setA, h.symm]

/-- The flock after the destinations of a list have got their values in order, as `Flock.complete` gives them. -/
def Flock.deliverAll (f : Flock) (n : Nat) (b : Bool) (ds : List Dest) : Flock :=
  (ds.foldl (fun (g : Flock × Nat) d => (Dest.deliver g.1 g.2 b d, g.2 + 32)) (f, n)).1

@[simp] theorem Flock.deliverAll_nil (f : Flock) (n : Nat) (b : Bool) : f.deliverAll n b [] = f := rfl

@[simp] theorem Flock.deliverAll_cons (f : Flock) (n : Nat) (b : Bool) (d : Dest) (ds : List Dest) :
    f.deliverAll n b (d :: ds) = (d.deliver f n b).deliverAll (n + 32) b ds := rfl

theorem Flock.deliverAll_append (f : Flock) (n : Nat) (b : Bool) (x y : List Dest) :
    f.deliverAll n b (x ++ y) = (f.deliverAll n b x).deliverAll (n + 32 * x.length) b y := by
  induction x generalizing f n with
  | nil => rfl
  | cons d x ih => simp [ih, Nat.mul_add, Nat.add_assoc, Nat.add_comm 32]

theorem Flock.deliverAll_eq (f : Flock) (n : Nat) (b : Bool) (ds : List Dest) :
    f.deliverAll n b ds = { f with v := (f.deliverAll n b ds).v, s := (f.deliverAll n b ds).s, a := (f.deliverAll n b ds).a } := by
  induction ds generalizing f n with
  | nil => rfl
  | cons d ds ih =>
    rw [Flock.deliverAll_cons, ih, Dest.deliver_eq]

section
variable {α : Type} (get : Flock → α) {p : Dest → Bool}
  (hget : ∀ (f : Flock) (n : Nat) (b : Bool) (d : Dest), p d = false → get (d.deliver f n b) = get f)
include hget

/-- What every destination but those of a kind leaves as it was, a list without one of the kind leaves so too. -/
theorem Flock.deliverAll_other (f : Flock) (n : Nat) (b : Bool) (ds : List Dest) (h : ∀ d ∈ ds, p d = false) :
    get (f.deliverAll n b ds) = get f := by
  induction ds generalizing f n with
  | nil => rfl
  | cons d ds ih =>
    rw [Flock.deliverAll_cons, ih _ _ fun z hz => h z (List.mem_cons_of_mem d hz)]
    exact hget f n b d (h d List.mem_cons_self)

/-- The last destination of its kind decides. -/
theorem Flock.deliverAll_last (f : Flock) (n : Nat) (b : Bool) (x y : List Dest) (d : Dest) (h : ∀ z ∈ y, p z = false) :
    get (f.deliverAll n b (x ++ d :: y)) = get (d.deliver (f.deliverAll n b x) (n + 32 * x.length) b) := by
  rw [Flock.deliverAll_append, Flock.deliverAll_cons, Flock.deliverAll_other get hget _ _ _ _ h]

end

/-- The last destination of a vector register gives it its value: the new one, or the one before where the data was bad (log entry 33). -/
theorem Flock.deliverAll_getV (f : Flock) (n : Nat) (b : Bool) (x y : List Dest) (d : BitVec 6) (old new : Lanes)
    (h : ∀ z ∈ y, Dest.isVector d z = false) : (f.deliverAll n b (x ++ .vector d old new false :: y)).getV d = if b then old else new := by
  refine (Flock.deliverAll_last (fun g => g.getV d) (Dest.deliver_getV_other d) _ _ _ _ _ _ h).trans ?_
  simp [Dest.deliver, Flock.getV_setV]

theorem Flock.deliverAll_getS (f : Flock) (n : Nat) (b : Bool) (x y : List Dest) (d : BitVec 5) (old new : DWord)
    (h : ∀ z ∈ y, Dest.isScalar d z = false) :
    (f.deliverAll n b (x ++ .scalar d old new false :: y)).getS d = if d = 0 then 0 else if b then old else new := by
  refine (Flock.deliverAll_last (fun g => g.getS d) (Dest.deliver_getS_other d) _ _ _ _ _ _ h).trans ?_
  simp [Dest.deliver, Flock.getS_setS]

theorem Flock.deliverAll_getA (f : Flock) (n : Nat) (b : Bool) (x y : List Dest) (d : BitVec 4) (old new : Addr)
    (h : ∀ z ∈ y, Dest.isAddress d z = false) :
    (f.deliverAll n b (x ++ .address d old new false :: y)).getA d = if d = 0 then 0 else if b then old else new := by
  refine (Flock.deliverAll_last (fun g => g.getA d) (Dest.deliver_getA_other d) _ _ _ _ _ _ h).trans ?_
  simp [Dest.deliver, Flock.getA_setA]

/-! The completion in the flock. -/

/-- The deferred faults that the completion of an operation adds (R175), as `CompletionEvents` writes them. -/
def PendOp.faults (o : PendOp) : List Deferred :=
  match o.fault with
  | some t => [{ op := o.id, pc := o.pc, info := t }]
  | none => []

/-- An operation is marked complete where it has a number. -/
def PendOp.finish (id : Nat) (p : PendOp) : PendOp := if p.id = id then { p with done := true } else p

theorem PendOp.finish_done (id : Nat) (p : PendOp) (h : (p.finish id).id = id) : (p.finish id).done = true := by
  unfold PendOp.finish at h ⊢
  split
  · rfl
  · rename_i hne
    exact absurd (by rwa [if_neg hne] at h) hne

theorem Flock.complete_none (f : Flock) (n id : Nat) (h : (f.pend.find? fun o => o.id == id && !o.done) = none) : f.complete n id = f := by
  simp only [Flock.complete, h]

/-- A completion delivers the destinations, raises the flags, adds the fault, and forgets what no longer counts. -/
theorem Flock.complete_eq (f : Flock) (n id : Nat) (o : PendOp) (h : (f.pend.find? fun p => p.id == id && !p.done) = some o) :
    f.complete n id = Flock.sweep { f.deliverAll n o.fault.isSome o.dests with
      fcr := f.fcr ||| flagBits o.ofFlag o.nvFlag, pend := f.pend.map (PendOp.finish id), deferred := f.deferred ++ o.faults } := by
  have hd := f.deliverAll_eq n o.fault.isSome o.dests
  have hfcr : (f.deliverAll n o.fault.isSome o.dests).fcr = f.fcr := by rw [hd]
  have hpend : (f.deliverAll n o.fault.isSome o.dests).pend = f.pend := by rw [hd]
  have hdef : (f.deliverAll n o.fault.isSome o.dests).deferred = f.deferred := by rw [hd]
  simp only [Flock.complete, h]
  rw [← hfcr, ← hpend, ← hdef]
  unfold PendOp.faults
  cases o.fault with
  | none => simp only [List.append_nil]; rfl
  | some t => rfl

section
variable {f : Flock} {n id : Nat} {o : PendOp} (h : (f.pend.find? fun p => p.id == id && !p.done) = some o)
include h

theorem Flock.complete_pc : (f.complete n id).pc = f.pc := by
  rw [f.complete_eq n id o h, Flock.deliverAll_eq]
  rfl

theorem Flock.complete_fcr : (f.complete n id).fcr = f.fcr ||| flagBits o.ofFlag o.nvFlag := by
  rw [f.complete_eq n id o h]
  rfl

theorem Flock.complete_deferred : (f.complete n id).deferred = f.deferred ++ o.faults := by
  rw [f.complete_eq n id o h]
  rfl

/-- What is still counted under the operation's number is complete: the counter waits for an older one of its class (R116). -/
theorem Flock.complete_pend_done : ∀ k ∈ (f.complete n id).pend, k.id = id → k.done = true := by
  rw [f.complete_eq n id o h]
  intro k hk hid
  obtain ⟨p, -, rfl⟩ := List.mem_map.mp (List.mem_filter.mp hk).1
  exact PendOp.finish_done id p hid

theorem Flock.complete_getV (q : BitVec 6) : (f.complete n id).getV q = (f.deliverAll n o.fault.isSome o.dests).getV q := by
  rw [f.complete_eq n id o h]
  rfl

theorem Flock.complete_getS (q : BitVec 5) : (f.complete n id).getS q = (f.deliverAll n o.fault.isSome o.dests).getS q := by
  rw [f.complete_eq n id o h]
  rfl

theorem Flock.complete_getA (q : BitVec 4) : (f.complete n id).getA q = (f.deliverAll n o.fault.isSome o.dests).getA q := by
  rw [f.complete_eq n id o h]
  rfl

end

@[simp] theorem Flock.complete_id (f : Flock) (n id : Nat) : (f.complete n id).id = f.id := by
  cases h : f.pend.find? fun o => o.id == id && !o.done with
  | none => rw [f.complete_none n id h]
  | some o =>
    rw [f.complete_eq n id o h, Flock.deliverAll_eq]
    rfl

/-! The completion in the state. -/

@[simp] theorem State.flock?_cur (s : State) : s.flock? s.cur.id = some s.cur := by
  simp [State.flock?, State.allFlocks]

/-- What landed in scratch is noted among what no fence has ordered, and nothing else of the flock changes (R191). -/
theorem Flock.landed_eq (f : Flock) (o : PendOp) (fold issuer : Nat) :
    f.landed o fold issuer = { f with unfenced := (f.landed o fold issuer).unfenced } := by
  unfold Flock.landed
  split <;> rfl

/-- An operation of the current flock completes in it; only what no fence has ordered may have grown besides. -/
theorem State.complete_cur (s : State) (id : Nat) : ∃ u, (s.complete s.cur.id id).cur = { s.cur.complete s.free id with unfenced := u } := by
  have hset : (if s.cur.id = (s.cur.complete s.free id).id then s.cur.complete s.free id else s.cur) = s.cur.complete s.free id :=
    if_pos (Flock.complete_id ..).symm
  unfold State.complete
  rw [State.flock?_cur]
  simp only
  split
  · split
    · exact ⟨_, hset⟩
    · rename_i o _ _
      exact ⟨_, (congrArg (fun g : Flock => g.landed o s.cur.fold s.cur.id) hset).trans (Flock.landed_eq ..)⟩
  · exact ⟨_, hset⟩

/-- A completion writes no memory. -/
theorem State.complete_sameMemory (s : State) (flock id : Nat) : SameMemory s (s.complete flock id) := by
  intro a
  unfold State.complete
  split
  · rfl
  · simp only
    split
    · split <;> rfl
    · rfl

/-! Which operation a completion event ends. -/

/-- An operation of a class that is under way, passes a test and does not wait at its core's port (R314). -/
def State.due (s : State) (c : Class) (p : PendOp → Bool) (o : PendOp) : Bool := o.cls == c && !o.done && p o && !s.atPort (.op o.id)

theorem State.oldest_eq (s : State) (c : Class) (p : PendOp → Bool) :
    (s.cur.oldest c fun o => p o && !s.atPort (.op o.id)) = s.cur.pend.find? (s.due c p) := by
  unfold Flock.oldest State.due
  simp only [Bool.and_assoc]

theorem State.completeOldest_none (s : State) (c : Class) (p : PendOp → Bool) (h : ∀ o ∈ s.cur.pend, s.due c p o = false) :
    s.completeOldest s.cur.id c p = s := by
  have hnone : s.cur.pend.find? (s.due c p) = none := List.find?_eq_none.mpr fun o ho => by simp [h o ho]
  simp only [State.completeOldest, State.flock?_cur, Option.bind_some, State.oldest_eq, hnone]

theorem State.completeOldest_some (s : State) (c : Class) (p : PendOp → Bool) (l r : List PendOp) (o : PendOp)
    (hpend : s.cur.pend = l ++ o :: r) (hl : ∀ k ∈ l, s.due c p k = false) (ho : s.due c p o = true) :
    s.completeOldest s.cur.id c p = s.complete s.cur.id o.id := by
  have hsome : s.cur.pend.find? (s.due c p) = some o :=
    List.find?_eq_some_iff_append.mpr ⟨ho, l, r, hpend, fun k hk => by simp [hl k hk]⟩
  simp only [State.completeOldest, State.flock?_cur, Option.bind_some, State.oldest_eq, hsome]

/-- The operation that completes is found by its number, for no older one has it. -/
theorem State.find_due (s : State) (c : Class) (p : PendOp → Bool) (l r : List PendOp) (o : PendOp)
    (hpend : s.cur.pend = l ++ o :: r) (ho : s.due c p o = true) (hid : ∀ k ∈ l, k.id ≠ o.id) :
    (s.cur.pend.find? fun k => k.id == o.id && !k.done) = some o := by
  have hdone : o.done = false := by
    simp only [State.due, Bool.and_eq_true, Bool.not_eq_true'] at ho
    exact ho.1.1.2
  exact List.find?_eq_some_iff_append.mpr ⟨by simp [hdone], l, r, hpend, fun k hk => by simp [hid k hk]⟩

/-- The completion events of a flock, with the class and the test of the operations that each may end. -/
noncomputable def completionsOf (n : Nat) : List (Instr × Class × (PendOp → Bool)) :=
  [(.loadComplete n, .loads, fun _ => true), (.storeComplete n, .stores, fun _ => true),
    (.tileLoadComplete n, .copies, fun o => !o.writes.isEmpty && o.job.isNone),
    (.tileStoreComplete n, .copies, fun o => o.writes.isEmpty && o.job.isNone), (.tileOperationComplete n, .tiles, fun _ => true)]

theorem exec_completionsOf (s : State) (n : Nat) : ∀ e ∈ completionsOf n, exec e.1 s = .next (s.completeOldest n e.2.1 e.2.2) := by
  simp only [completionsOf, List.forall_mem_cons]
  exact ⟨rfl, rfl, rfl, rfl, rfl, by simp⟩

end Sys2Proof.Machine

open Sys2Proof Sys2Proof.Machine

/-- Settles O49: each event is `completeOldest` of its class, and the operation that it finds completes in the current flock; of the destinations
that are one register, the last decides what it holds. -/
theorem completionEvents : Obligations.CompletionEvents := by
  intro s e he
  rw [exec_completionsOf s s.cur.id e he]
  refine ⟨fun h => by rw [s.completeOldest_none e.2.1 e.2.2 h], fun l o r hpend hl ho hid => ⟨_, rfl, ?_⟩⟩
  rw [s.completeOldest_some e.2.1 e.2.2 l r o hpend hl ho]
  have hfound := s.find_due e.2.1 e.2.2 l r o hpend ho hid
  obtain ⟨u, hcur⟩ := s.complete_cur o.id
  rw [hcur]
  refine ⟨s.complete_sameMemory s.cur.id o.id, Flock.complete_pc hfound, Flock.complete_fcr hfound, Flock.complete_deferred hfound,
    Flock.complete_pend_done hfound, fun q hq => ?_, fun q hq => ?_, fun q hq => ?_, fun x y d old new hd hy => ?_,
    fun x y d old new hd hy => ?_, fun x y d old new hd hy => ?_⟩
  · exact (Flock.complete_getV hfound q).trans (Flock.deliverAll_other (fun g => g.getV q) (Dest.deliver_getV_other q) _ _ _ _ hq)
  · exact (Flock.complete_getS hfound q).trans (Flock.deliverAll_other (fun g => g.getS q) (Dest.deliver_getS_other q) _ _ _ _ hq)
  · exact (Flock.complete_getA hfound q).trans (Flock.deliverAll_other (fun g => g.getA q) (Dest.deliver_getA_other q) _ _ _ _ hq)
  · exact (Flock.complete_getV hfound d).trans (hd ▸ Flock.deliverAll_getV _ _ _ _ _ _ _ _ hy)
  · exact (Flock.complete_getS hfound d).trans (hd ▸ Flock.deliverAll_getS _ _ _ _ _ _ _ _ hy)
  · exact (Flock.complete_getA hfound d).trans (hd ▸ Flock.deliverAll_getA _ _ _ _ _ _ _ _ hy)
end
